-- ==== Sys2Proof/Word.lean ====
section
/-! DEFINITION. The words of the machine: the widths the manual names and their plainest arithmetic. -/

namespace Sys2Proof

/-- A scalar register, a control register, a doubleword (R98). -/
abbrev Word := BitVec 64

/-- One lane of a fragment, one 4-byte word of an on-chip memory (R135, R196). -/
abbrev Lane := BitVec 32

/-- A fragment of 32 lanes of 32 bits, lane k in bits [32k+31:32k] (R135). -/
abbrev Frag := BitVec 1024

/-- The eight 16-bit block headers beside a fragment, header g in bits [16g+15:16g] (R186). -/
abbrev Side := BitVec 128

/-- One byte of memory (R1). -/
abbrev Byte := BitVec 8

end Sys2Proof
end

