-- ==== Sys2Proof/Machine/Aes.lean ====
section
/-! DEFINITION. AES-XTS-256, the cipher of a memory die's engine (R211, R358): AES with a 32-byte key as FIPS 197 gives it, and XTS over
a 192-byte line as one data unit as IEEE 1619 gives it. The spec names the standard and not its text (PRESUMED,
log 38). A block is a number whose byte 0
is the least significant one. -/

namespace Sys2Proof.Machine

/-! ## AES with a 32-byte key -/

/-- Byte `k` of a number. -/
def aesByte (v k : Nat) : Nat := v / 2 ^ (8 * k) % 256

/-- The first `n` bytes of a number. -/
def bytesOf (n v : Nat) : List Nat := (List.range n).map (aesByte v)

/-- The number a list of bytes makes, the first least significant. -/
def ofBytes (l : List Nat) : Nat := l.foldr (fun b v => b + 256 * v) 0

/-- The substitution table of AES, entry `i` as byte `i`. -/
def aesBox : Nat :=
  0x16bb54b00f2d99416842e6bf0d89a18cdf2855cee9871e9b948ed9691198f8e19e1dc186b95735610ef6034866b53e708a8bbd4b1f74dde8c6b4a61c2e2578ba08ae7a65eaf4566ca94ed58d6d37c8e779e4959162acd3c25c2406490a3a32e0db0b5ede14b8ee4688902a22dc4f816073195d643d7ea7c41744975fec130ccdd2f3ff1021dab6bcf5389d928f40a351a89f3c507f02f94585334d43fbaaefd0cf584c4a39becb6a5bb1fc20ed00d153842fe329b3d63b52a05a6e1b1a2c830975b227ebe28012079a059618c323c7041531d871f1e5a534ccf73f362693fdb7c072a49cafa2d4adf04759fa7dc982ca76abd7fe2b670130c56f6bf27b777c63

/-- The inverse substitution table of AES. -/
def aesInvBox : Nat :=
  0x7d0c2155631469e126d677ba7e042b17619953833cbbebc8b0f52aae4d3be0a0ef9cc9939f7ae52d0d4ab519a97f51605fec8027591012b131c7078833a8dd1ff45acd78fec0db9a2079d2c64b3e56fc1bbe18aa0e62b76f89c5291d711af1476edf751ce837f9e28535ade72274ac9673e6b4f0cecff297eadc674f4111913a6b8a130103bdafc1020f3fca8f1e2cd00645b3b80558e4f70ad3bc8c00abd890849d8da75746155edab9edfd5048706c92b6655dcc5ca4d41698688664f6f87225d18b6d49a25b76b224d92866a12e084ec3fa420b954cee3d23c2a632947b54cbe9dec444438e3487ff2f9b8239e37cfbd7f3819ea340bf38a53630d56a0952

/-- Exclusive or of two lists of bytes. -/
def xorBytes (a b : List Nat) : List Nat := List.zipWith Nat.xor a b

/-- The double of a field element. -/
def aesDouble (b : Nat) : Nat := Nat.xor (2 * b % 256) (if b ≥ 128 then 0x1B else 0)

/-- The product of a field element and a number below 16. -/
def aesTimes (c b : Nat) : Nat :=
  let b2 := aesDouble b
  let b4 := aesDouble b2
  let part (k v : Nat) : Nat := if c.testBit k then v else 0
  Nat.xor (Nat.xor (part 0 b) (part 1 b2)) (Nat.xor (part 2 b4) (part 3 (aesDouble b4)))

/-- Each column times a circulant matrix, given by its first row. -/
def mixColumns (m l : List Nat) : List Nat :=
  (List.range 16).map fun i =>
    let a (k : Nat) : Nat := l.getD (i / 4 * 4 + (i + k) % 4) 0
    (List.range 4).foldl (fun v k => Nat.xor v (aesTimes (m.getD k 0) (a k))) 0

/-- Row `r` of the state turned left by `r` columns, or by `3r`, which turns it back. -/
def shiftRows (n : Nat) (l : List Nat) : List Nat := (List.range 16).map fun i => l.getD ((i + n * 4 * (i % 4)) % 16) 0

/-- The next 32 bytes of the key schedule, with the round constant. -/
def keyStep (k : List Nat) (rc : Nat) : List Nat :=
  let w (n : Nat) : List Nat := (k.drop (4 * n)).take 4
  let sub (l : List Nat) : List Nat := l.map (aesByte aesBox)
  let l := w 7
  let w0 := xorBytes (w 0) (xorBytes (sub (l.drop 1 ++ l.take 1)) [rc, 0, 0, 0])
  let w1 := xorBytes (w 1) w0
  let w2 := xorBytes (w 2) w1
  let w3 := xorBytes (w 3) w2
  let w4 := xorBytes (w 4) (sub w3)
  let w5 := xorBytes (w 5) w4
  let w6 := xorBytes (w 6) w5
  w0 ++ w1 ++ w2 ++ w3 ++ w4 ++ w5 ++ w6 ++ xorBytes (w 7) w6

/-- The key schedule from 32 bytes on, 16 bytes a round key. -/
def keyRounds : Nat → List Nat → Nat → List (List Nat)
  | 0, _, _ => []
  | n + 1, k, rc => k.take 16 :: k.drop 16 :: keyRounds n (keyStep k rc) (2 * rc)

/-- The fifteen round keys of a 32-byte key. -/
def roundKeys (key : Nat) : List (List Nat) := (keyRounds 8 (bytesOf 32 key) 1).take 15

/-- The rounds after the first key: the last one mixes no columns. -/
def encRounds : List (List Nat) → List Nat → List Nat
  | [], l => l
  | [k], l => xorBytes (shiftRows 1 (l.map (aesByte aesBox))) k
  | k :: t, l => encRounds t (xorBytes (mixColumns [2, 3, 1, 1] (shiftRows 1 (l.map (aesByte aesBox)))) k)

/-- The rounds of the inverse cipher, round keys last first. -/
def decRounds : List (List Nat) → List Nat → List Nat
  | [], l => l
  | [k], l => xorBytes ((shiftRows 3 l).map (aesByte aesInvBox)) k
  | k :: t, l => decRounds t (mixColumns [14, 11, 13, 9] (xorBytes ((shiftRows 3 l).map (aesByte aesInvBox)) k))

/-- Encrypt a block under round keys. -/
def aesEncrypt (ks : List (List Nat)) (v : Nat) : Nat :=
  ofBytes (encRounds (ks.drop 1) (xorBytes (bytesOf 16 v) (ks.headD [])))

/-- Decrypt a block under round keys. -/
def aesDecrypt (ks : List (List Nat)) (v : Nat) : Nat :=
  let r := ks.reverse
  ofBytes (decRounds (r.drop 1) (xorBytes (bytesOf 16 v) (r.headD [])))

/-! ## XTS over a line -/

/-- The tweak of the next block. -/
def tweakNext (t : Nat) : Nat := Nat.xor (2 * t % 2 ^ 128) (if t ≥ 2 ^ 127 then 0x87 else 0)

/-- The blocks of a data unit, each through a block cipher between two additions of its tweak. -/
def xtsBlocks (f : Nat → Nat) : Nat → Nat → Nat → Nat
  | 0, _, _ => 0
  | n + 1, t, v => Nat.xor (f (Nat.xor (v % 2 ^ 128) t)) t + 2 ^ 128 * xtsBlocks f n (tweakNext t) (v / 2 ^ 128)

/-- The first tweak of data unit `n`: `n` encrypted under the second half of the key. -/
def firstTweak (key : BitVec 512) (n : Nat) : Nat := aesEncrypt (roundKeys (key.toNat / 2 ^ 256)) n

/-- Line `n` as the engine writes it under a 64-byte key (R358). -/
def lineEncrypt (key : BitVec 512) (n v : Nat) : Nat :=
  xtsBlocks (aesEncrypt (roundKeys (key.toNat % 2 ^ 256))) 12 (firstTweak key n) v

/-- Line `n` as the engine reads it under a 64-byte key (R358). -/
def lineDecrypt (key : BitVec 512) (n v : Nat) : Nat :=
  xtsBlocks (aesDecrypt (roundKeys (key.toNat % 2 ^ 256))) 12 (firstTweak key n) v

end Sys2Proof.Machine
end

