-- ==== Sys2Proof/Config.lean ====
section
/-! DEFINITION. What an implementation fixes, and the free values: constants with no body, so that nothing can be proved about
them but that they are some value. A free value is applied to the counter `State.free`, which every use advances (log 2). -/

namespace Sys2Proof.Config

/-- Live arrays of the package (R9, R10). -/
def arrays : Nat := 28

/-- Partitions, one per virtual function (R13). -/
def partitions : Nat := 28

/-- Encryption key slots (R358). -/
def keySlots : Nat := 1024

/-- Host launch queues (R307). -/
def queues : Nat := 256

/-- Entries of the gate buffer (R439). -/
def gateEntries : Nat := 64

/-- Waiters a bank queues (R201). -/
def bankWaiters : Nat := 64

/-- Fragments an edge buffer holds (R278, R282). -/
def edgeBuffer : Nat := 64

/-- Elements the sequencer holds for a bound scalar register (R285). -/
def scalarBuffer : Nat := 16

/-- MSI-X vectors of a function (R449). -/
def vectors : Nat := 2048

/-- FREE VALUE (log 2): whether an access or an agent whose instant the manual leaves open acts now (R221, R247, R291). -/
opaque takeOpen : Nat → Bool

/-- FREE VALUE (log 2): which of the enabled open-time steps is taken (R223, R239). -/
opaque pick : Nat → Nat

/-- FREE VALUE (log 8): DETAIL of PHASE_COLLISION, whose fields R383 names without their places: die, router, port, plane, slot,
frame, and the other sender or 31. -/
opaque collisionDetail : Nat → Nat → Nat → Nat → Nat → Nat → Nat → Word

/-- FREE VALUE (log 8): the status in DETAIL of a transfer refused for its tile (R313: no status of R293 is named for it). -/
opaque xferStatus : Nat → BitVec 4

/-- FREE VALUE (log 8): the certificate chain an SPDM request returns (R462: its bytes are not given). -/
opaque certificate : Nat → BitVec 512

/-- FREE VALUE (log 8): the signature over a measurement (R462: ECDSA's nonce is not given). -/
opaque signature : Nat → BitVec 512

/-- FREE VALUE (log 8): a key agreed under SPDM (R449). -/
opaque sessionKey : Nat → BitVec 256

/-- FREE VALUE (log 8): whether a signed debug token verifies (R464). -/
opaque tokenValid : Nat → Bool

/-- FREE VALUE (log 37): the key slot that the leaf of a page names on the chip that holds it (R357). -/
opaque peerKey : Nat → BitVec 10

/-- FREE VALUE (log 8): the frame another chip's migration pool gives, or none (R356: that chip's pool is not this one's). -/
opaque peerFrame : Nat → Option Nat

/-- FREE VALUE (log 8): the port of a Rhodi switch that a chip stands on, by switch and chip (R271 merges in port order and no rule
gives the ports). -/
opaque switchPort : Nat → Nat → Nat

/-- FREE VALUE (log 29): a byte of a save area whose contents R446 names without their places, by draw and offset. -/
opaque saveByte : Nat → Nat → Byte

end Sys2Proof.Config
end

