-- ==== Sys2Proof/Syntax.lean ====
section
/-! DEFINITION. The instruction set: one constructor for each row of the opcode table, the slot instructions first and then
the events. A slot instruction carries the fields the table gives it (R47, R51, R54). An event (a step of an agent that no
slot word encodes) carries nothing: what names the agent it happens to, or what the outside brings with it, stands in the
state's event arguments. -/

namespace Sys2Proof

/-- The steps of the part (95_what_each_step_holds.md). Field names of the slot instructions are those of the opcode
table: `p` predicate, `d` destination, `a` and `b` sources, `w` the .W form in the SC slot and the selector pair in a cell
slot, `h` handle, `t` tile slot, `q` acquire (loads, atomics, copies) or release (stores), `r` release, `c` scope in the SC and
copy slots and the c modifier in a cell slot, `f` offset in the SC slot and the f modifier in a cell slot, `m` mod0,
`e` engine, `x` barrier select. -/
inductive Instr where
  /-- NOP, R40: The all-zero slot word, which does nothing in any slot. -/
  | nop
  /-- ADD, R116: Writes ra + rb to rd, wrapping modulo 2^64, or the sign-extended 32-bit sum in the .W form. -/
  | add (p : BitVec 3) (d : BitVec 5) (a : BitVec 5) (b : BitVec 5) (w : Bool)
  /-- SUB, R116: Writes ra - rb to rd, or the 32-bit difference in the .W form. -/
  | sub (p : BitVec 3) (d : BitVec 5) (a : BitVec 5) (b : BitVec 5) (w : Bool)
  /-- AND, R116: Writes the bitwise AND of ra and rb to rd. -/
  | and (p : BitVec 3) (d : BitVec 5) (a : BitVec 5) (b : BitVec 5)
  /-- OR, R116: Writes the bitwise OR of ra and rb to rd. -/
  | or (p : BitVec 3) (d : BitVec 5) (a : BitVec 5) (b : BitVec 5)
  /-- XOR, R116: Writes the bitwise XOR of ra and rb to rd. -/
  | xor (p : BitVec 3) (d : BitVec 5) (a : BitVec 5) (b : BitVec 5)
  /-- ANDN, R116: Writes ra AND NOT rb to rd. -/
  | andn (p : BitVec 3) (d : BitVec 5) (a : BitVec 5) (b : BitVec 5)
  /-- SHL, R116: Shifts ra left by rb, filling with zeros. -/
  | shl (p : BitVec 3) (d : BitVec 5) (a : BitVec 5) (b : BitVec 5) (w : Bool)
  /-- SHR, R116: Shifts ra right by rb, filling with zeros. -/
  | shr (p : BitVec 3) (d : BitVec 5) (a : BitVec 5) (b : BitVec 5) (w : Bool)
  /-- SRA, R116: Shifts ra right by rb, filling with the sign bit. -/
  | sra (p : BitVec 3) (d : BitVec 5) (a : BitVec 5) (b : BitVec 5) (w : Bool)
  /-- ROT, R116: Rotates ra left by rb. -/
  | rot (p : BitVec 3) (d : BitVec 5) (a : BitVec 5) (b : BitVec 5) (w : Bool)
  /-- MIN, R116: Writes the signed minimum of ra and rb. -/
  | min (p : BitVec 3) (d : BitVec 5) (a : BitVec 5) (b : BitVec 5) (w : Bool)
  /-- MAX, R116: Writes the signed maximum of ra and rb. -/
  | max (p : BitVec 3) (d : BitVec 5) (a : BitVec 5) (b : BitVec 5) (w : Bool)
  /-- MINN, R116: Writes the unsigned minimum of ra and rb. -/
  | minn (p : BitVec 3) (d : BitVec 5) (a : BitVec 5) (b : BitVec 5) (w : Bool)
  /-- MAXN, R116: Writes the unsigned maximum of ra and rb. -/
  | maxn (p : BitVec 3) (d : BitVec 5) (a : BitVec 5) (b : BitVec 5) (w : Bool)
  /-- MUL, R116: Writes the low 64 bits of ra times rb. -/
  | mul (p : BitVec 3) (d : BitVec 5) (a : BitVec 5) (b : BitVec 5) (w : Bool)
  /-- MULH, R116: Writes the high 64 bits of the signed 128-bit product. -/
  | mulh (p : BitVec 3) (d : BitVec 5) (a : BitVec 5) (b : BitVec 5)
  /-- MULHN, R116: Writes the high 64 bits of the unsigned 128-bit product. -/
  | mulhn (p : BitVec 3) (d : BitVec 5) (a : BitVec 5) (b : BitVec 5)
  /-- DIV, R117: Writes the signed quotient truncated toward zero, with the division-by-zero and overflow cases defined. -/
  | div (p : BitVec 3) (d : BitVec 5) (a : BitVec 5) (b : BitVec 5) (w : Bool)
  /-- DIVN, R117: Writes the unsigned quotient. -/
  | divn (p : BitVec 3) (d : BitVec 5) (a : BitVec 5) (b : BitVec 5) (w : Bool)
  /-- REM, R117: Writes the signed remainder, which takes the sign of ra. -/
  | rem (p : BitVec 3) (d : BitVec 5) (a : BitVec 5) (b : BitVec 5) (w : Bool)
  /-- REMN, R117: Writes the unsigned remainder. -/
  | remn (p : BitVec 3) (d : BitVec 5) (a : BitVec 5) (b : BitVec 5) (w : Bool)
  /-- CLZ, R116: Counts the leading zero bits of ra. -/
  | clz (p : BitVec 3) (d : BitVec 5) (a : BitVec 5) (w : Bool)
  /-- POPC, R116: Counts the one bits of ra. -/
  | popc (p : BitVec 3) (d : BitVec 5) (a : BitVec 5) (w : Bool)
  /-- SEXT, R116: Sign-extends the low 8, 16 or 32 bits of ra, as the width code selects. -/
  | sext (p : BitVec 3) (d : BitVec 5) (a : BitVec 5) (x : BitVec 5)
  /-- ZEXT, R116: Zero-extends the low 8, 16 or 32 bits of ra, as the width code selects. -/
  | zext (p : BitVec 3) (d : BitVec 5) (a : BitVec 5) (x : BitVec 5)
  /-- ADDI, R119: Writes ra plus the sign-extended imm12. -/
  | addi (p : BitVec 3) (d : BitVec 5) (a : BitVec 5) (i : BitVec 12)
  /-- ANDI, R119: Writes ra AND the sign-extended imm12. -/
  | andi (p : BitVec 3) (d : BitVec 5) (a : BitVec 5) (i : BitVec 12)
  /-- ORI, R119: Writes ra OR the sign-extended imm12. -/
  | ori (p : BitVec 3) (d : BitVec 5) (a : BitVec 5) (i : BitVec 12)
  /-- XORI, R119: Writes ra XOR the sign-extended imm12. -/
  | xori (p : BitVec 3) (d : BitVec 5) (a : BitVec 5) (i : BitVec 12)
  /-- SHLI, R119: Shifts ra left by imm12, which must be 0-63. -/
  | shli (p : BitVec 3) (d : BitVec 5) (a : BitVec 5) (i : BitVec 12)
  /-- SHRI, R119: Shifts ra right by imm12 with zero fill. -/
  | shri (p : BitVec 3) (d : BitVec 5) (a : BitVec 5) (i : BitVec 12)
  /-- SRAI, R119: Shifts ra right by imm12 with sign fill. -/
  | srai (p : BitVec 3) (d : BitVec 5) (a : BitVec 5) (i : BitVec 12)
  /-- MULI, R119: Multiplies ra by the sign-extended imm12. -/
  | muli (p : BitVec 3) (d : BitVec 5) (a : BitVec 5) (i : BitVec 12)
  /-- MINI, R119: Writes the signed minimum of ra and imm12. -/
  | mini (p : BitVec 3) (d : BitVec 5) (a : BitVec 5) (i : BitVec 12)
  /-- MAXI, R119: Writes the signed maximum of ra and imm12. -/
  | maxi (p : BitVec 3) (d : BitVec 5) (a : BitVec 5) (i : BitVec 12)
  /-- LI, R120: Writes the sign-extended imm17 to rd. -/
  | li (p : BitVec 3) (d : BitVec 5) (i : BitVec 17)
  /-- LUI, R120: Shifts rd left by 17 bits and ORs in imm17. -/
  | lui (p : BitVec 3) (d : BitVec 5) (i : BitVec 17)
  /-- CMP_EQ, R121: Sets predicate rd true when ra equals rb. -/
  | cmpEq (p : BitVec 3) (d : BitVec 3) (a : BitVec 5) (b : BitVec 5)
  /-- CMP_NE, R121: Sets predicate rd true when ra differs from rb. -/
  | cmpNe (p : BitVec 3) (d : BitVec 3) (a : BitVec 5) (b : BitVec 5)
  /-- CMP_LT, R121: Sets predicate rd from the signed test ra < rb. -/
  | cmpLt (p : BitVec 3) (d : BitVec 3) (a : BitVec 5) (b : BitVec 5)
  /-- CMP_LE, R121: Sets predicate rd from the signed test ra <= rb. -/
  | cmpLe (p : BitVec 3) (d : BitVec 3) (a : BitVec 5) (b : BitVec 5)
  /-- CMP_LTN, R121: Sets predicate rd from the unsigned test ra < rb. -/
  | cmpLtn (p : BitVec 3) (d : BitVec 3) (a : BitVec 5) (b : BitVec 5)
  /-- CMP_LEN, R121: Sets predicate rd from the unsigned test ra <= rb. -/
  | cmpLen (p : BitVec 3) (d : BitVec 3) (a : BitVec 5) (b : BitVec 5)
  /-- CMPI_EQ, R121: Sets predicate rd true when ra equals the sign-extended immediate. -/
  | cmpiEq (p : BitVec 3) (d : BitVec 3) (a : BitVec 5) (i : BitVec 12)
  /-- CMPI_LT, R121: Sets predicate rd from the signed test ra < imm. -/
  | cmpiLt (p : BitVec 3) (d : BitVec 3) (a : BitVec 5) (i : BitVec 12)
  /-- CMPI_LTN, R121: Sets predicate rd from the unsigned test ra < imm. -/
  | cmpiLtn (p : BitVec 3) (d : BitVec 3) (a : BitVec 5) (i : BitVec 12)
  /-- BAND, R122: Writes the AND of two predicates. -/
  | band (p : BitVec 3) (d : BitVec 3) (a : BitVec 3) (b : BitVec 3)
  /-- BOR, R122: Writes the OR of two predicates. -/
  | bor (p : BitVec 3) (d : BitVec 3) (a : BitVec 3) (b : BitVec 3)
  /-- BXOR, R122: Writes the XOR of two predicates. -/
  | bxor (p : BitVec 3) (d : BitVec 3) (a : BitVec 3) (b : BitVec 3)
  /-- BANDN, R122: Writes b[ra] AND NOT b[rb]. -/
  | bandn (p : BitVec 3) (d : BitVec 3) (a : BitVec 3) (b : BitVec 3)
  /-- BMOV, R122: Copies one predicate into another. -/
  | bmov (p : BitVec 3) (d : BitVec 3) (a : BitVec 3)
  /-- SEL, R123: Writes ra or rb to rd, as the selecting predicate is true or false. -/
  | sel (p : BitVec 3) (d : BitVec 5) (a : BitVec 5) (b : BitVec 5) (s : BitVec 3)
  /-- BR, R124: Branches to PC + 24 x off22 when the condition predicate is true. -/
  | br (p : BitVec 3) (o : BitVec 22)
  /-- J, R124: Jumps unconditionally to PC + 24 x off22. -/
  | j (o : BitVec 22)
  /-- JAL, R124: Writes PC + 24 to s31 and jumps to the relative target. -/
  | jal (p : BitVec 3) (o : BitVec 22)
  /-- JR, R124: Jumps to the offset held in ra, optionally writing the link to rd. -/
  | jr (p : BitVec 3) (d : BitVec 5) (a : BitVec 5)
  /-- LOOP, R126: Sets up a hardware loop at level 0 or 1 with a trip count and a body length. -/
  | loop (p : BitVec 3) (l : Bool) (a : BitVec 5) (i : BitVec 12)
  /-- LOOPS, R127: Sets up a staged loop on level 0 with S stages and stage predicates b4-b7. -/
  | loops (p : BitVec 3) (s : BitVec 3) (a : BitVec 5) (i : BitVec 12)
  /-- MARK, R438: Releases the gate buffer, takes the shadow and opens a new restart region. -/
  | mark (p : BitVec 3)
  /-- PAUSE, R422: Holds the next bundle for n cycles. -/
  | pause (p : BitVec 3) (i : BitVec 17)
  /-- WAIT, R412: Holds its bundle until ld, st, cp and wf are each at or below their fields. -/
  | wait (p : BitVec 3) (l : BitVec 5) (s : BitVec 5) (c : BitVec 6) (f : BitVec 6)
  /-- TEND, R134: Begins retirement of the running task in the order of R28. -/
  | tend (p : BitVec 3)
  /-- TRAP, R447: Issues its bundle and then takes a TRAP fault carrying the trap code. -/
  | trap (p : BitVec 3) (t : BitVec 17)
  /-- ERET, R436: Leaves the monitor, takes any held fault, or resumes at MEPC. -/
  | eret
  /-- LD_B, R215: Loads a sign-extended byte through a page handle. -/
  | ldB (p : BitVec 3) (d : BitVec 5) (h : BitVec 4) (q : Bool) (c : BitVec 2) (f : BitVec 9)
  /-- LD_H, R215: Loads a sign-extended halfword through a page handle. -/
  | ldH (p : BitVec 3) (d : BitVec 5) (h : BitVec 4) (q : Bool) (c : BitVec 2) (f : BitVec 9)
  /-- LD_W, R215: Loads a sign-extended word through a page handle. -/
  | ldW (p : BitVec 3) (d : BitVec 5) (h : BitVec 4) (q : Bool) (c : BitVec 2) (f : BitVec 9)
  /-- LD_D, R215: Loads a doubleword through a page handle. -/
  | ldD (p : BitVec 3) (d : BitVec 5) (h : BitVec 4) (q : Bool) (c : BitVec 2) (f : BitVec 9)
  /-- LDN_B, R215: Loads a zero-extended byte through a page handle. -/
  | ldnB (p : BitVec 3) (d : BitVec 5) (h : BitVec 4) (q : Bool) (c : BitVec 2) (f : BitVec 9)
  /-- LDN_H, R215: Loads a zero-extended halfword through a page handle. -/
  | ldnH (p : BitVec 3) (d : BitVec 5) (h : BitVec 4) (q : Bool) (c : BitVec 2) (f : BitVec 9)
  /-- LDN_W, R215: Loads a zero-extended word through a page handle. -/
  | ldnW (p : BitVec 3) (d : BitVec 5) (h : BitVec 4) (q : Bool) (c : BitVec 2) (f : BitVec 9)
  /-- ST_B, R215: Stores a byte through a page handle. -/
  | stB (p : BitVec 3) (d : BitVec 5) (h : BitVec 4) (q : Bool) (c : BitVec 2) (f : BitVec 9)
  /-- ST_H, R215: Stores a halfword through a page handle. -/
  | stH (p : BitVec 3) (d : BitVec 5) (h : BitVec 4) (q : Bool) (c : BitVec 2) (f : BitVec 9)
  /-- ST_W, R215: Stores a word through a page handle. -/
  | stW (p : BitVec 3) (d : BitVec 5) (h : BitVec 4) (q : Bool) (c : BitVec 2) (f : BitVec 9)
  /-- ST_D, R215: Stores a doubleword through a page handle. -/
  | stD (p : BitVec 3) (d : BitVec 5) (h : BitVec 4) (q : Bool) (c : BitVec 2) (f : BitVec 9)
  /-- LDP_W, R216: Loads a word at the offset in ra and post-increments ra. -/
  | ldpW (p : BitVec 3) (d : BitVec 5) (h : BitVec 4) (a : BitVec 5) (i : BitVec 8)
  /-- LDP_D, R216: Loads a doubleword at the offset in ra and post-increments ra. -/
  | ldpD (p : BitVec 3) (d : BitVec 5) (h : BitVec 4) (a : BitVec 5) (i : BitVec 8)
  /-- STP_W, R216: Stores a word at the offset in ra and post-increments ra. -/
  | stpW (p : BitVec 3) (d : BitVec 5) (h : BitVec 4) (a : BitVec 5) (i : BitVec 8)
  /-- STP_D, R216: Stores a doubleword at the offset in ra and post-increments ra. -/
  | stpD (p : BitVec 3) (d : BitVec 5) (h : BitVec 4) (a : BitVec 5) (i : BitVec 8)
  /-- XLAT, R349: Sets a handle's held address and translates it. -/
  | xlat (p : BitVec 3) (h : BitVec 4) (a : BitVec 5)
  /-- HINV, R349: Makes a handle INVALID and keeps its held address. -/
  | hinv (p : BitVec 3) (h : BitVec 4)
  /-- HINFO, R349: Reads part 0 or part 1 of a handle into rd. -/
  | hinfo (p : BitVec 3) (d : BitVec 5) (a : BitVec 5)
  /-- LDT_W, R220: Loads a word of a PAD or DIE tile by physical word index. -/
  | ldtW (p : BitVec 3) (d : BitVec 5) (t : BitVec 6) (a : BitVec 5) (q : Bool) (c : BitVec 2)
  /-- LDT_D, R220: Loads two words of a PAD or DIE tile. -/
  | ldtD (p : BitVec 3) (d : BitVec 5) (t : BitVec 6) (a : BitVec 5) (q : Bool) (c : BitVec 2)
  /-- STT_W, R220: Stores a word into a PAD or DIE tile. -/
  | sttW (p : BitVec 3) (d : BitVec 5) (t : BitVec 6) (a : BitVec 5) (q : Bool) (c : BitVec 2)
  /-- STT_D, R220: Stores two words into a PAD or DIE tile. -/
  | sttD (p : BitVec 3) (d : BitVec 5) (t : BitVec 6) (a : BitVec 5) (q : Bool) (c : BitVec 2)
  /-- LDF, R222: Waits for a full pad word, reads it and marks it empty. -/
  | ldf (p : BitVec 3) (d : BitVec 5) (t : BitVec 6) (a : BitVec 5)
  /-- LDFK, R222: Waits for a full pad word and reads it, leaving it full. -/
  | ldfk (p : BitVec 3) (d : BitVec 5) (t : BitVec 6) (a : BitVec 5)
  /-- STE, R222: Waits for an empty pad word, writes it and marks it full. -/
  | ste (p : BitVec 3) (d : BitVec 5) (t : BitVec 6) (a : BitVec 5)
  /-- STFK, R222: Writes a pad word and marks it full, without waiting. -/
  | stfk (p : BitVec 3) (d : BitVec 5) (t : BitVec 6) (a : BitVec 5)
  /-- AMO_ADD, R249: Atomically adds rd to the word at its home and returns the old value. -/
  | amoAdd (p : BitVec 3) (d : BitVec 5) (h : BitVec 4) (a : BitVec 5) (q : Bool) (r : Bool) (c : BitVec 2)
  /-- AMO_AND, R249: Atomic AND at the home, returning the old value. -/
  | amoAnd (p : BitVec 3) (d : BitVec 5) (h : BitVec 4) (a : BitVec 5) (q : Bool) (r : Bool) (c : BitVec 2)
  /-- AMO_OR, R249: Atomic OR at the home, returning the old value. -/
  | amoOr (p : BitVec 3) (d : BitVec 5) (h : BitVec 4) (a : BitVec 5) (q : Bool) (r : Bool) (c : BitVec 2)
  /-- AMO_XOR, R249: Atomic XOR at the home, returning the old value. -/
  | amoXor (p : BitVec 3) (d : BitVec 5) (h : BitVec 4) (a : BitVec 5) (q : Bool) (r : Bool) (c : BitVec 2)
  /-- AMO_MIN, R249: Atomic signed minimum at the home. -/
  | amoMin (p : BitVec 3) (d : BitVec 5) (h : BitVec 4) (a : BitVec 5) (q : Bool) (r : Bool) (c : BitVec 2)
  /-- AMO_MAX, R249: Atomic signed maximum at the home. -/
  | amoMax (p : BitVec 3) (d : BitVec 5) (h : BitVec 4) (a : BitVec 5) (q : Bool) (r : Bool) (c : BitVec 2)
  /-- AMO_MINN, R249: Atomic unsigned minimum at the home. -/
  | amoMinn (p : BitVec 3) (d : BitVec 5) (h : BitVec 4) (a : BitVec 5) (q : Bool) (r : Bool) (c : BitVec 2)
  /-- AMO_MAXN, R249: Atomic unsigned maximum at the home. -/
  | amoMaxn (p : BitVec 3) (d : BitVec 5) (h : BitVec 4) (a : BitVec 5) (q : Bool) (r : Bool) (c : BitVec 2)
  /-- AMO_SWAP, R249: Atomic exchange at the home. -/
  | amoSwap (p : BitVec 3) (d : BitVec 5) (h : BitVec 4) (a : BitVec 5) (q : Bool) (r : Bool) (c : BitVec 2)
  /-- AMO_FADD, R249: Atomic FP32 add at the home under the home arithmetic. -/
  | amoFadd (p : BitVec 3) (d : BitVec 5) (h : BitVec 4) (a : BitVec 5) (q : Bool) (r : Bool) (c : BitVec 2)
  /-- CAS, R250: Atomic compare-and-swap at the home using the register pair rd, rd+1. -/
  | cas (p : BitVec 3) (d : BitVec 4) (h : BitVec 4) (a : BitVec 5) (q : Bool) (r : Bool) (c : BitVec 2)
  /-- ACC_ADD, R256: Sends an INT32 accumulate, merged with the residual tile, to the home. -/
  | accAdd (p : BitVec 3) (d : BitVec 5) (h : BitVec 4) (a : BitVec 5) (r : Bool) (c : BitVec 2)
  /-- ACC_FADD, R256: Sends an FP32 accumulate to the home. -/
  | accFadd (p : BitVec 3) (d : BitVec 5) (h : BitVec 4) (a : BitVec 5) (r : Bool) (c : BitVec 2)
  /-- ACC_BFADD, R256: Sends a BF16 accumulate to the home. -/
  | accBfadd (p : BitVec 3) (d : BitVec 5) (h : BitVec 4) (a : BitVec 5) (r : Bool) (c : BitVec 2)
  /-- ACC_FMAX, R256: Sends an FP32 maximum accumulate to the home. -/
  | accFmax (p : BitVec 3) (d : BitVec 5) (h : BitVec 4) (a : BitVec 5) (r : Bool) (c : BitVec 2)
  /-- FENCE, R269: Performs a release, an acquire or both at its scope. -/
  | fence (p : BitVec 3) (q : BitVec 2) (c : BitVec 2)
  /-- FLUSHRES, R266: Sends every valid residual entry to its home as must-accept. -/
  | flushres (p : BitVec 3)
  /-- RESID, R262: Attaches or detaches the residual tile, flushing any attached one first. -/
  | resid (p : BitVec 3) (x : Bool) (t : BitVec 6)
  /-- MFC, R130: Reads a control register into rd. -/
  | mfc (p : BitVec 3) (d : BitVec 5) (n : BitVec 12)
  /-- MTC, R130: Writes ra into a control register. -/
  | mtc (p : BitVec 3) (a : BitVec 5) (n : BitVec 12)
  /-- SETFMT, R182: Checks ra and writes it to FMT, in force four bundles later. -/
  | setfmt (p : BitVec 3) (a : BitVec 5)
  /-- MTW, R131: Writes one part of a selector pair. -/
  | mtw (p : BitVec 3) (w : BitVec 3) (a : BitVec 5) (n : BitVec 3)
  /-- MFW, R131: Reads one part of a selector pair. -/
  | mfw (p : BitVec 3) (d : BitVec 5) (w : BitVec 3) (n : BitVec 3)
  /-- WROT, R132: Rotates or shifts the row or column mask of a selector pair. -/
  | wrot (p : BitVec 3) (w : BitVec 3) (a : BitVec 5) (k : BitVec 2) (v : Bool) (m : BitVec 9)
  /-- MFA_ROWANY, R158: Reads 64 ROWANY aggregate bits. -/
  | mfaRowany (p : BitVec 3) (d : BitVec 5) (a : BitVec 5)
  /-- MFA_ROWALL, R158: Reads 64 ROWALL aggregate bits. -/
  | mfaRowall (p : BitVec 3) (d : BitVec 5) (a : BitVec 5)
  /-- MFA_COLANY, R158: Reads the COLANY aggregates. -/
  | mfaColany (p : BitVec 3) (d : BitVec 5)
  /-- MFA_COLALL, R158: Reads the COLALL aggregates. -/
  | mfaColall (p : BitVec 3) (d : BitVec 5)
  /-- MFA_SUMMARY, R158: Reads ANY, ALL, ERR, the word's exception flags and the word number. -/
  | mfaSummary (p : BitVec 3) (d : BitVec 5)
  /-- TALLOC, R368: Allocates, zeroes and binds a tile from a descriptor. -/
  | talloc (p : BitVec 3) (d : BitVec 5) (t : BitVec 6) (a : BitVec 5)
  /-- TFREE, R369: Unbinds and frees a tile once its accesses drain. -/
  | tfree (p : BitVec 3) (t : BitVec 6)
  /-- TINFO, R370: Reads a tile-table entry part or the tile's layout word. -/
  | tinfo (p : BitVec 3) (d : BitVec 5) (t : BitVec 6) (a : BitVec 5)
  /-- TMOVE, R371: Reslots, re-views, re-windows or seals a tile, as the kind in ra selects. -/
  | tmove (p : BitVec 3) (d : BitVec 5) (t : BitVec 6) (a : BitVec 5)
  /-- SYNC, R420: Releases, arrives at a group barrier and waits for every member. -/
  | sync (p : BitVec 3) (d : BitVec 5) (g : BitVec 12)
  /-- CBINIT, R417: Initialises a byte-counting barrier object. -/
  | cbinit (p : BitVec 3) (d : BitVec 5) (t : BitVec 6) (a : BitVec 5)
  /-- CBEXP, R417: Adds expected bytes to a barrier. -/
  | cbexp (p : BitVec 3) (d : BitVec 5) (t : BitVec 6) (a : BitVec 5)
  /-- CBARR, R417: Records an arrival at a barrier, optionally releasing first. -/
  | cbarr (p : BitVec 3) (d : BitVec 5) (t : BitVec 6) (a : BitVec 5) (q : Bool) (c : BitVec 2)
  /-- CBWAIT, R418: Waits until the barrier's phase differs from p, or until the barrier breaks or is reset. -/
  | cbwait (p : BitVec 3) (d : BitVec 5) (t : BitVec 6) (a : BitVec 5)
  /-- CBTEST, R417: Reads a barrier's counts with acquire at DEV. -/
  | cbtest (p : BitVec 3) (d : BitVec 5) (t : BitVec 6) (a : BitVec 5)
  /-- DQPUSH, R330: Pushes a value at the bottom of the owner's deque. -/
  | dqpush (p : BitVec 3) (d : BitVec 5) (a : BitVec 5) (b : BitVec 3)
  /-- DQPOP, R330: Pops a value from the bottom of the owner's deque. -/
  | dqpop (p : BitVec 3) (d : BitVec 5) (b : BitVec 3)
  /-- DQSTEAL, R330: Takes a value from the top of another array's deque. -/
  | dqsteal (p : BitVec 3) (d : BitVec 5) (r : BitVec 5) (b : BitVec 3)
  /-- TLAUNCH, R326: Releases, reads and checks a launch record and queues a child task. -/
  | tlaunch (p : BitVec 3) (d : BitVec 5) (h : BitVec 4) (f : BitVec 9)
  /-- LOCQ, R359: Answers a locality query about self, an array, a memory die or a page. -/
  | locq (p : BitVec 3) (d : BitVec 5) (a : BitVec 5)
  /-- SEAL, R353: Sets SEALED on a range of pages and invalidates their copies. -/
  | seal (p : BitVec 3) (d : BitVec 5) (a : BitVec 5) (b : BitVec 5)
  /-- UNSEAL, R353: Clears SEALED on a range and drops every replica. -/
  | unseal (p : BitVec 3) (d : BitVec 5) (a : BitVec 5) (b : BitVec 5)
  /-- PLAY_W, R398: Runs a SPARSE tile's micro-program, waiting for a compile when needed. -/
  | playW (p : BitVec 3) (d : BitVec 5) (a : BitVec 5) (h : BitVec 5) (t : BitVec 6)
  /-- PLAY_D, R398: Runs the micro-program if one is ready, and otherwise runs dense. -/
  | playD (p : BitVec 3) (d : BitVec 5) (a : BitVec 5) (h : BitVec 5) (t : BitVec 6)
  /-- PATC, R401: Looks up or triggers a pattern compile without issuing words. -/
  | patc (p : BitVec 3) (d : BitVec 5) (a : BitVec 5) (t : BitVec 6)
  /-- LDATT, R406: Loads the ATT and REC rank tables and K into every array of the chain. -/
  | ldatt (p : BitVec 3) (d : BitVec 5) (t : BitVec 6) (a : BitVec 5)
  /-- FADD, R161: FP32 lane add. -/
  | fadd (d : BitVec 6) (a : BitVec 6) (b : BitVec 6) (w : BitVec 3) (c : Bool) (f : Bool)
  /-- FSUB, R161: FP32 lane subtract. -/
  | fsub (d : BitVec 6) (a : BitVec 6) (b : BitVec 6) (w : BitVec 3) (c : Bool) (f : Bool)
  /-- FMUL, R161: FP32 lane multiply, optionally negated. -/
  | fmul (d : BitVec 6) (a : BitVec 6) (b : BitVec 6) (w : BitVec 3) (c : Bool) (f : Bool) (m : Bool)
  /-- FMA, R161: FP32 lane fused multiply-add into dst. -/
  | fma (d : BitVec 6) (a : BitVec 6) (b : BitVec 6) (w : BitVec 3) (c : Bool) (f : Bool) (m : Bool)
  /-- FMIN, R161: FP32 lane minimum. -/
  | fmin (d : BitVec 6) (a : BitVec 6) (b : BitVec 6) (w : BitVec 3) (c : Bool) (f : Bool)
  /-- FMAX, R161: FP32 lane maximum. -/
  | fmax (d : BitVec 6) (a : BitVec 6) (b : BitVec 6) (w : BitVec 3) (c : Bool) (f : Bool)
  /-- FCMP_EQ, R161: FP32 lane compare for equality. -/
  | fcmpEq (d : BitVec 6) (a : BitVec 6) (b : BitVec 6) (w : BitVec 3) (c : Bool) (f : Bool)
  /-- FCMP_NE, R161: FP32 lane compare for inequality. -/
  | fcmpNe (d : BitVec 6) (a : BitVec 6) (b : BitVec 6) (w : BitVec 3) (c : Bool) (f : Bool)
  /-- FCMP_LT, R161: FP32 lane less-than compare. -/
  | fcmpLt (d : BitVec 6) (a : BitVec 6) (b : BitVec 6) (w : BitVec 3) (c : Bool) (f : Bool)
  /-- FCMP_LE, R161: FP32 lane less-or-equal compare. -/
  | fcmpLe (d : BitVec 6) (a : BitVec 6) (b : BitVec 6) (w : BitVec 3) (c : Bool) (f : Bool)
  /-- FRCP, R88: FP32 reciprocal per lane. -/
  | frcp (d : BitVec 6) (a : BitVec 6) (w : BitVec 3) (c : Bool) (f : Bool)
  /-- FRSQ, R88: FP32 reciprocal square root per lane. -/
  | frsq (d : BitVec 6) (a : BitVec 6) (w : BitVec 3) (c : Bool) (f : Bool)
  /-- FSQRT, R88: FP32 square root per lane. -/
  | fsqrt (d : BitVec 6) (a : BitVec 6) (w : BitVec 3) (c : Bool) (f : Bool)
  /-- FEX2, R88: FP32 power of two per lane. -/
  | fex2 (d : BitVec 6) (a : BitVec 6) (w : BitVec 3) (c : Bool) (f : Bool)
  /-- FLG2, R88: FP32 base-2 logarithm per lane. -/
  | flg2 (d : BitVec 6) (a : BitVec 6) (w : BitVec 3) (c : Bool) (f : Bool)
  /-- HADD2, R162: Packed FP16 pair add. -/
  | hadd2 (d : BitVec 6) (a : BitVec 6) (b : BitVec 6) (w : BitVec 3) (c : Bool) (f : Bool)
  /-- HFMA2, R162: Packed FP16 pair fused multiply-add. -/
  | hfma2 (d : BitVec 6) (a : BitVec 6) (b : BitVec 6) (w : BitVec 3) (c : Bool) (f : Bool) (m : Bool)
  /-- BFMA2, R162: Packed BF16 pair fused multiply-add. -/
  | bfma2 (d : BitVec 6) (a : BitVec 6) (b : BitVec 6) (w : BitVec 3) (c : Bool) (f : Bool) (m : Bool)
  /-- CVT_F16_F32, R163: Narrows FP32 lanes to packed FP16 in one half of dst. -/
  | cvtF16F32 (d : BitVec 6) (a : BitVec 6) (w : BitVec 3) (c : Bool) (f : Bool) (m : Bool)
  /-- CVT_F32_F16, R163: Widens packed FP16 to FP32 lanes. -/
  | cvtF32F16 (d : BitVec 6) (a : BitVec 6) (w : BitVec 3) (c : Bool) (f : Bool) (m : Bool)
  /-- CVT_BF16_F32, R163: Narrows FP32 lanes to packed BF16. -/
  | cvtBf16F32 (d : BitVec 6) (a : BitVec 6) (w : BitVec 3) (c : Bool) (f : Bool) (m : Bool)
  /-- CVT_F32_BF16, R163: Widens packed BF16 to FP32 lanes. -/
  | cvtF32Bf16 (d : BitVec 6) (a : BitVec 6) (w : BitVec 3) (c : Bool) (f : Bool) (m : Bool)
  /-- CVT_E4M3_F32, R163: Narrows FP32 lanes to E4M3 bytes in quarter q. -/
  | cvtE4m3F32 (d : BitVec 6) (a : BitVec 6) (b : BitVec 6) (w : BitVec 3) (c : Bool) (f : Bool)
  /-- CVT_E5M2_F32, R163: Narrows FP32 lanes to E5M2 bytes in quarter q. -/
  | cvtE5m2F32 (d : BitVec 6) (a : BitVec 6) (b : BitVec 6) (w : BitVec 3) (c : Bool) (f : Bool)
  /-- CVT_F32_E4M3, R163: Widens E4M3 bytes from quarter q to FP32. -/
  | cvtF32E4m3 (d : BitVec 6) (a : BitVec 6) (b : BitVec 6) (w : BitVec 3) (c : Bool) (f : Bool)
  /-- CVT_F32_E5M2, R163: Widens E5M2 bytes from quarter q to FP32. -/
  | cvtF32E5m2 (d : BitVec 6) (a : BitVec 6) (b : BitVec 6) (w : BitVec 3) (c : Bool) (f : Bool)
  /-- CVT_I32_F32, R163: Converts FP32 lanes to INT32. -/
  | cvtI32F32 (d : BitVec 6) (a : BitVec 6) (w : BitVec 3) (c : Bool) (f : Bool)
  /-- CVT_F32_I32, R163: Converts INT32 lanes to FP32. -/
  | cvtF32I32 (d : BitVec 6) (a : BitVec 6) (w : BitVec 3) (c : Bool) (f : Bool)
  /-- IADD, R164: INT32 lane add. -/
  | iadd (d : BitVec 6) (a : BitVec 6) (b : BitVec 6) (w : BitVec 3) (c : Bool) (f : Bool) (m : Bool)
  /-- ISUB, R164: INT32 lane subtract. -/
  | isub (d : BitVec 6) (a : BitVec 6) (b : BitVec 6) (w : BitVec 3) (c : Bool) (f : Bool) (m : Bool)
  /-- IMUL, R164: INT32 lane multiply, low bits. -/
  | imul (d : BitVec 6) (a : BitVec 6) (b : BitVec 6) (w : BitVec 3) (c : Bool) (f : Bool)
  /-- IMAD, R164: INT32 lane multiply-add into dst. -/
  | imad (d : BitVec 6) (a : BitVec 6) (b : BitVec 6) (w : BitVec 3) (c : Bool) (f : Bool)
  /-- IABS, R164: INT32 lane absolute value. -/
  | iabs (d : BitVec 6) (a : BitVec 6) (w : BitVec 3) (c : Bool) (f : Bool)
  /-- IMIN, R164: INT32 lane signed minimum. -/
  | imin (d : BitVec 6) (a : BitVec 6) (b : BitVec 6) (w : BitVec 3) (c : Bool) (f : Bool) (m : Bool)
  /-- IMAX, R164: INT32 lane signed maximum. -/
  | imax (d : BitVec 6) (a : BitVec 6) (b : BitVec 6) (w : BitVec 3) (c : Bool) (f : Bool) (m : Bool)
  /-- CELL_AND, R164: Lane bitwise AND. -/
  | cellAnd (d : BitVec 6) (a : BitVec 6) (b : BitVec 6) (w : BitVec 3) (c : Bool) (f : Bool) (m : Bool)
  /-- CELL_OR, R164: Lane bitwise OR. -/
  | cellOr (d : BitVec 6) (a : BitVec 6) (b : BitVec 6) (w : BitVec 3) (c : Bool) (f : Bool) (m : Bool)
  /-- CELL_XOR, R164: Lane bitwise XOR. -/
  | cellXor (d : BitVec 6) (a : BitVec 6) (b : BitVec 6) (w : BitVec 3) (c : Bool) (f : Bool) (m : Bool)
  /-- CELL_SHL, R164: Lane shift left. -/
  | cellShl (d : BitVec 6) (a : BitVec 6) (b : BitVec 6) (w : BitVec 3) (c : Bool) (f : Bool) (m : Bool)
  /-- CELL_SHR, R164: Lane logical shift right. -/
  | cellShr (d : BitVec 6) (a : BitVec 6) (b : BitVec 6) (w : BitVec 3) (c : Bool) (f : Bool) (m : Bool)
  /-- CELL_SRA, R164: Lane arithmetic shift right. -/
  | cellSra (d : BitVec 6) (a : BitVec 6) (b : BitVec 6) (w : BitVec 3) (c : Bool) (f : Bool) (m : Bool)
  /-- ICMP_EQ, R164: Lane integer equality compare. -/
  | icmpEq (d : BitVec 6) (a : BitVec 6) (b : BitVec 6) (w : BitVec 3) (c : Bool) (f : Bool) (m : Bool)
  /-- ICMP_NE, R164: Lane integer inequality compare. -/
  | icmpNe (d : BitVec 6) (a : BitVec 6) (b : BitVec 6) (w : BitVec 3) (c : Bool) (f : Bool) (m : Bool)
  /-- ICMP_LT, R164: Lane signed less-than compare. -/
  | icmpLt (d : BitVec 6) (a : BitVec 6) (b : BitVec 6) (w : BitVec 3) (c : Bool) (f : Bool) (m : Bool)
  /-- ICMP_LTN, R164: Lane unsigned less-than compare. -/
  | icmpLtn (d : BitVec 6) (a : BitVec 6) (b : BitVec 6) (w : BitVec 3) (c : Bool) (f : Bool) (m : Bool)
  /-- CELL_SEL, R165: Selects A or B per lane by the lane flags. -/
  | cellSel (d : BitVec 6) (a : BitVec 6) (b : BitVec 6) (w : BitVec 3) (c : Bool) (f : Bool)
  /-- MOV, R166: Moves A to dst and, with .d, pushes C into the south or east drain. -/
  | mov (d : BitVec 6) (a : BitVec 6) (b : BitVec 6) (w : BitVec 3) (c : Bool) (f : Bool) (m : Bool)
  /-- LDC, R167: Loads a 128-byte fragment from the cell's tile slice. -/
  | ldc (d : BitVec 6) (a : BitVec 6) (b : BitVec 6) (w : BitVec 3) (c : Bool) (f : Bool) (m : Bool)
  /-- STC, R167: Stores a fragment into the cell's tile slice. -/
  | stc (d : BitVec 6) (a : BitVec 6) (b : BitVec 6) (w : BitVec 3) (m : Bool)
  /-- VGATH, R167: Gathers slice words per lane, stalling on bank conflicts. -/
  | vgath (d : BitVec 6) (a : BitVec 6) (b : BitVec 6) (w : BitVec 3) (c : Bool) (f : Bool)
  /-- VSCAT, R167: Scatters lanes to slice words. -/
  | vscat (d : BitVec 6) (a : BitVec 6) (b : BitVec 6) (w : BitVec 3)
  /-- VRED_ADD, R169: Sums all lanes into every lane. -/
  | vredAdd (d : BitVec 6) (a : BitVec 6) (w : BitVec 3) (c : Bool) (f : Bool)
  /-- VRED_MAX, R169: Takes the maximum of all lanes. -/
  | vredMax (d : BitVec 6) (a : BitVec 6) (w : BitVec 3) (c : Bool) (f : Bool)
  /-- VRED_MIN, R169: Takes the minimum of all lanes. -/
  | vredMin (d : BitVec 6) (a : BitVec 6) (w : BitVec 3) (c : Bool) (f : Bool)
  /-- VRED_OR, R169: Takes the bitwise OR of all lanes. -/
  | vredOr (d : BitVec 6) (a : BitVec 6) (w : BitVec 3) (c : Bool) (f : Bool)
  /-- VPERM, R170: Permutes lanes by indices held in B. -/
  | vperm (d : BitVec 6) (a : BitVec 6) (b : BitVec 6) (w : BitVec 3) (c : Bool) (f : Bool)
  /-- VBCAST, R170: Broadcasts one lane of A to all lanes. -/
  | vbcast (d : BitVec 6) (a : BitVec 6) (b : BitVec 6) (w : BitVec 3) (c : Bool) (f : Bool) (m : Bool)
  /-- FLAG, R171: Sets CF from masked lane flags, clears sticky bits and writes the old F image. -/
  | flag (d : BitVec 6) (a : BitVec 6) (b : BitVec 6) (w : BitVec 3) (c : Bool)
  /-- SRNG, R172: Optionally reseeds the generator and writes 32 successive states. -/
  | srng (d : BitVec 6) (a : BitVec 6) (w : BitVec 3) (c : Bool) (f : Bool)
  /-- RKVAL, R173: Rebuilds values from rank arrivals through REC. -/
  | rkval (d : BitVec 6) (a : BitVec 6) (w : BitVec 3) (c : Bool) (f : Bool)
  /-- OPTUPD, R193: Applies one adaptive-moment optimiser step to 32 weights. -/
  | optupd (d : BitVec 6) (a : BitVec 6) (b : BitVec 6) (w : BitVec 3) (c : Bool) (f : Bool) (m : Bool)
  /-- MMA, R188: Accumulates the matrix product A x B into an accumulator. -/
  | mma (d : BitVec 6) (a : BitVec 6) (b : BitVec 6) (w : BitVec 3) (m : Bool)
  /-- MMA_SEL, R390: Accumulates a sparse product selected by the next pattern map. -/
  | mmaSel (d : BitVec 6) (a : BitVec 6) (b : BitVec 6) (w : BitVec 3)
  /-- MMA_NEG, R188: Accumulates the negated matrix product. -/
  | mmaNeg (d : BitVec 6) (a : BitVec 6) (b : BitVec 6) (w : BitVec 3) (m : Bool)
  /-- ACLR, R189: Clears an accumulator. -/
  | aclr (d : BitVec 6) (w : BitVec 3)
  /-- AMOV, R189: Copies an accumulator to a register. -/
  | amov (d : BitVec 6) (a : BitVec 6) (w : BitVec 3) (c : Bool) (f : Bool)
  /-- ALD, R189: Loads an accumulator from a non-accumulator source. -/
  | ald (d : BitVec 6) (a : BitVec 6) (w : BitVec 3) (c : Bool) (f : Bool)
  /-- ARND, R190: Narrows an accumulator into dst in the OUTF format. -/
  | arnd (d : BitVec 6) (a : BitVec 6) (b : BitVec 6) (w : BitVec 3) (c : Bool) (f : Bool) (m : Bool)
  /-- RACC, R408: Accumulates tile rows named by rank arrivals, weighted by ATT. -/
  | racc (d : BitVec 6) (a : BitVec 6) (b : BitVec 6) (w : BitVec 3)
  /-- COPY, R297: Copies ROWS rows of ROWB bytes between locations. -/
  | copy (p : BitVec 3) (a : BitVec 5) (b : BitVec 5) (e : BitVec 2) (q : Bool) (r : Bool) (c : BitVec 2) (x : BitVec 2)
  /-- COPYG, R298: Gathers table rows by an index list. -/
  | copyg (p : BitVec 3) (a : BitVec 5) (b : BitVec 5) (e : BitVec 2) (f : Bool) (i : Bool) (q : Bool) (r : Bool) (c : BitVec 2) (x : BitVec 2)
  /-- COPYS, R300: Scatters rows to table rows by an index list. -/
  | copys (p : BitVec 3) (a : BitVec 5) (b : BitVec 5) (e : BitVec 2) (f : Bool) (i : Bool) (q : Bool) (r : Bool) (c : BitVec 2) (x : BitVec 2)
  /-- COPYM, R301: Copies only the rows set in a mask. -/
  | copym (p : BitVec 3) (a : BitVec 5) (b : BitVec 5) (e : BitVec 2) (z : Bool) (q : Bool) (r : Bool) (c : BitVec 2) (x : BitVec 2)
  /-- FILL, R302: Fills rows of a destination with a 1- to 8-byte value. -/
  | fill (p : BitVec 3) (a : BitVec 5) (b : BitVec 5) (e : BitVec 2) (w : BitVec 2) (q : Bool) (r : Bool) (c : BitVec 2) (x : BitVec 2)
  /-- BIND, R303: Binds the latched pattern to an edge port or scalar stream. -/
  | bind (p : BitVec 3) (e : BitVec 2)
  /-- UNBIND, R303: Unbinds a port in queue order. -/
  | unbind (p : BitVec 3) (n : BitVec 5) (e : BitVec 2) (s : BitVec 4)
  /-- RANKX, R404: Ranks source rows through Impala onto a W port. -/
  | rankx (p : BitVec 3) (a : BitVec 5) (b : BitVec 5) (e : BitVec 2) (h : Bool) (o : Bool)
  /-- ERESUME, R304: Restarts the engine's halted command from RESUME. -/
  | eresume (p : BitVec 3) (e : BitVec 2)
  /-- ECANCEL, R304: Cancels the halted command, or with .all every command of the engine. -/
  | ecancel (p : BitVec 3) (e : BitVec 2) (l : Bool)
  /-- XMIT, R381: Sends flits over phase slots during a transfer phase. -/
  | xmit (p : BitVec 3) (a : BitVec 5) (b : BitVec 5) (e : BitVec 2) (q : Bool) (r : Bool) (c : BitVec 2) (x : BitVec 2)
  /-- IMUX, R381: Sets the ejection phase table to accept a sender's flits. -/
  | imux (p : BitVec 3) (a : BitVec 5) (b : BitVec 5) (e : BitVec 2)
  /-- PHASE_OPEN, R380: Drains, releases and arrives to open a transfer phase of a group. -/
  | phaseOpen (p : BitVec 3) (a : BitVec 5)
  /-- PHASE_CLOSE, R384: Arrives to close the phase and acquires once every flit has landed. -/
  | phaseClose (p : BitVec 3) (a : BitVec 5)
  /-- MTX, R305: Writes one or two engine registers at issue. -/
  | mtx (p : BitVec 3) (a : BitVec 5) (b : BitVec 5) (e : BitVec 2) (n : BitVec 4)
  /-- MFX, R305: Reads an engine register into a scalar register. -/
  | mfx (p : BitVec 3) (d : BitVec 5) (e : BitVec 2) (n : BitVec 4)
  /-- TPREF, R306: Prefetches translations, and optionally lines, for a range. -/
  | tpref (p : BitVec 3) (a : BitVec 5) (b : BitVec 5) (e : BitVec 2) (l : Bool)
  /-- TFLUSH, R306: Writes back and evicts a range's slice lines and drops its TLB entries. -/
  | tflush (p : BitVec 3) (a : BitVec 5) (b : BitVec 5) (e : BitVec 2)
  /-- PAUSE_EXPIRE, R422: When the pause count runs out, issue may continue with the next bundle. -/
  | pauseExpire
  /-- RETIREMENT_COMPLETE, R28: Once the retirement drains and counters reach 0, releases, bumps the completion word, frees tiles and releases the placement. -/
  | retirementComplete
  /-- LOAD_RETURN, R218: A load's data arrives and is written to rd, and ld falls. -/
  | loadReturn
  /-- STORE_PERFORMED, R214: A store reaches its end point at the array cache or its home, and st falls. -/
  | storePerformed
  /-- HANDLE_WALK_END, R347: A page walk ends and its handle becomes VALID or FAULTED. -/
  | handleWalkEnd
  /-- FE_RETRY, R201: A refused full/empty request or CBWAIT is reissued every 64 cycles. -/
  | feRetry
  /-- AMO_AT_HOME, R249: The home performs an arriving AMO or CAS indivisibly and returns the old value. -/
  | amoAtHome
  /-- ATOMIC_RETURN, R249: An atomic's old value reaches rd and its flags reach FPX. -/
  | atomicReturn
  /-- ACC_AT_HOME, R259: A home atomic unit accepts or refuses an arriving accumulate under the quota. -/
  | accAtHome
  /-- ACC_REFUSED, R260: A refused addend returns to its sender and is placed or combined in the residual tile. -/
  | accRefused
  /-- ACC_RESEND, R260: With no residual tile, the sequencer resends a refused addend at the home's next quota window. -/
  | accResend
  /-- QUOTA_WINDOW_START, R259: Every 256 cycles each home clears its per-sender accept counts. -/
  | quotaWindowStart
  /-- FLUSHRES_COMPLETE, R266: The last must-accept acknowledgement arrives and FLUSHRES leaves st. -/
  | flushresComplete
  /-- COMPILE_BEGIN, R394: Madder begins a triggered compile once its wait conditions hold. -/
  | compileBegin
  /-- COMPILE_END, R395: Madder writes the maps and program, or marks the entry DENSE. -/
  | compileEnd
  /-- WORD_EXECUTE, R144: A word reaches a cell and the cell executes its selected VA, VB and MX slots. -/
  | wordExecute
  /-- GLOBAL_STALL_END, R146: The freeze count ends, the placement advances again and WSTALL grows by k. -/
  | globalStallEnd
  /-- AGGREGATES_ARRIVE, R157: A word's edge aggregates reach the sequencer; FPX is updated, wf falls and located faults arrive. -/
  | aggregatesArrive
  /-- TRAP_TAKEN, R431: At a bundle boundary a pending fault drains, writes its record and enters the monitor or ends the task. -/
  | trapTaken
  /-- WATCHDOG, R35: The watchdog interval expires with no bundle issued, and the task ends FAILED. -/
  | watchdog
  /-- PHASE_FRAME_START, R380: Frame 0 of an opened phase begins and issue resumes. -/
  | phaseFrameStart
  /-- PHASE_FLIT, R383: A phase flit traverses its reserved slots and is ejected, or collides and is dropped. -/
  | phaseFlit
  /-- COMMAND_START, R286: An engine starts its next queued command. -/
  | commandStart
  /-- ENGINE_PAGE_TRANSLATE, R294: An engine translates the next page of a command before sending its sectors. -/
  | enginePageTranslate
  /-- SECTOR_LAND, R238: A sector is performed at its home and credits its barrier. -/
  | sectorLand
  /-- COMMAND_END, R238: A command completes or ends with a status and leaves cp. -/
  | commandEnd
  /-- LINK_FAILURE, R295: A host or Rhodi link fails, or a target refuses, ending commands and breaking their barriers. -/
  | linkFailure
  /-- EDGE_LOADER_FILL, R280: An edge or scalar-stream loader fills port buffers from the bound tile. -/
  | edgeLoaderFill
  /-- DRAIN_WRITE, R282: A drain writes pushed fragments to its pattern and frees space. -/
  | drainWrite
  /-- IMPALA_RANK, R403: Impala ranks a row and delivers arrival fragments to the W port. -/
  | impalaRank
  /-- WINDOW_CONTRIBUTION, R271: A window accumulate reaches the merge switch and combines into its port's partial. -/
  | windowContribution
  /-- RING_ENTRY, R309: The interpreter reads a ring entry and starts walking its list. -/
  | ringEntry
  /-- LAUNCH, R316: A LAUNCH entry's record is read, checked and queued as a task. -/
  | launch
  /-- XFER, R313: A XFER entry starts copying LEN bytes between queue locations. -/
  | xfer
  /-- XFER_COMPLETE, R312: A XFER finishes DONE or FAILED, releasing or cancelling its dependent launches. -/
  | xferComplete
  /-- SKIPIF, R318: Reads a word and skips N entries if the condition holds. -/
  | skipif
  /-- JUMP, R319: Continues the walk at the target. -/
  | jump
  /-- CALL, R319: Pushes the return address and continues at the target. -/
  | call
  /-- RET, R319: Pops a return address or ends the list. -/
  | ret
  /-- WAITC, R318: Waits for a memory condition before the walk continues. -/
  | waitc
  /-- WAITC_POLL, R318: A waiting WAITC re-reads its word at least every 1,024 cycles. -/
  | waitcPoll
  /-- WAITC_TIMEOUT, R318: A WAITC's timeout expires, making it FAILED and halting the queue. -/
  | waitcTimeout
  /-- LIST_FENCE, R320: Waits for earlier entries of the queue to be final, then acquires at SYS. -/
  | listFence
  /-- LIST_FENCE_DONE, R320: The awaited entries are final and the fence completes with its acquire. -/
  | listFenceDone
  /-- SIGNAL, R320: Releases, writes or adds a value and optionally raises an MSI-X vector. -/
  | signal
  /-- GROUPSET, R321: Waits for the group to have no members, then writes its attributes. -/
  | groupset
  /-- GROUPSET_DONE, R321: The group empties and GROUPSET writes ATTR, optionally resetting the group. -/
  | groupsetDone
  /-- NOTE, R321: Journals a value. -/
  | note
  /-- HALTQ, R321: Halts the queue with cause HALTQ. -/
  | haltq
  /-- TASK_START, R324: The stream controller assigns a free placement to a READY task, places its tiles and starts it. -/
  | taskStart
  /-- AGING_STEP, R324: A waiting task's effective priority rises as its waiting time passes each 2 ms step. -/
  | agingStep
  /-- PREEMPTION, R444: Stops, drains, quiesces, withdraws, flushes and saves a RUNNING task. -/
  | preemption
  /-- QUIESCE_EXPIRE, R444: The 2,048-cycle grace ends and the remaining commands are cancelled and kept. -/
  | quiesceExpire
  /-- RESUMPTION, R448: Restores a pre-empted task's tiles, cells, sequencer, streams and commands on a new placement. -/
  | resumption
  /-- DOORBELL, R308: A doorbell write sets a queue's tail, is ignored, or halts the queue with cause RING. -/
  | doorbell
  /-- QCFG, R307: A QCFG write sets the ring size and enables or stops the queue. -/
  | qcfg
  /-- QCTL_RESUME, R322: Restarts a halted queue at the entry that halted it. -/
  | qctlResume
  /-- QCTL_SKIP, R322: Restarts a halted queue after the entry that halted it. -/
  | qctlSkip
  /-- JCTL_CANCEL, R334: Cancels a named QUEUED or READY task, or an XFER not yet started. -/
  | jctlCancel
  /-- JCTL_KILL, R334: Kills a named RUNNING or PREEMPTED task. -/
  | jctlKill
  /-- JHEAD, R333: A JHEAD write sets, clamps or is ignored as the journal head. -/
  | jhead
  /-- AQCFG, R452: An AQCFG write enables or disables the administrative queue, clearing ERROR on re-enable. -/
  | aqcfg
  /-- REGISTER_WRITE, R307: A write to a queue or administrative register with no behaviour of its own stores its value. -/
  | registerWrite
  /-- AQ_TAIL_POLL, R452: The device polls the administrative tail and reads any new command entries. -/
  | aqTailPoll
  /-- PART_CREATE, R456: Creates a partition over live arrays with default shares. -/
  | partCreate
  /-- PART_ARRAYS, R13: Changes a partition's arrays. -/
  | partArrays
  /-- PART_DISSOLVE, R456: Dissolves a partition with no live tasks and frees its resources. -/
  | partDissolve
  /-- PTROOT, R337: Sets a partition's page-table root. -/
  | ptroot
  /-- INVALIDATE, R348: Invalidates a range of a partition's translations in five steps. -/
  | invalidate
  /-- KEY_LOAD, R358: Loads key material into a key slot. -/
  | keyLoad
  /-- KEY_ASSIGN, R358: Assigns a key slot to a partition or unassigns it. -/
  | keyAssign
  /-- SHARES, R360: Sets a partition's tile, group and scoreboard shares. -/
  | shares
  /-- QUEUE_ASSIGN, R307: Assigns a global launch queue to a partition or unassigns it. -/
  | queueAssign
  /-- WAYMASK, R210: Sets a partition's cache-slice way mask. -/
  | waymask
  /-- NET_RESERVE, R377: Asks Ochre to reserve or release router slots. -/
  | netReserve
  /-- HBM_RESERVE, R378: Reserves or releases HBM command slots. -/
  | hbmReserve
  /-- CHANNELS, R457: Gives a partition its scale-up virtual channels. -/
  | channels
  /-- CLOCK_LOCK, R458: Writes a partition's die clock-lock record. -/
  | clockLock
  /-- REDWIN, R270: Registers or removes a reduction window. -/
  | redwin
  /-- MIGTABLE, R355: Sets a partition's migration table, threshold and pool. -/
  | migtable
  /-- MIGRATE, R356: Requests a move of a page to a chip. -/
  | migrate
  /-- MIGRATION_TRIGGER, R356: An access threshold starts an automatic page move, or the trigger is dropped. -/
  | migrationTrigger
  /-- QUOTA, R423: Writes a partition's quota record at a home. -/
  | quota
  /-- READREC, R454: Reads a device record to host memory, optionally clearing it. -/
  | readrec
  /-- MONITOR, R430: Sets a partition's monitor fields. -/
  | monitor
  /-- SAVEPOOL, R443: Sets a partition's save pool. -/
  | savepool
  /-- TILE_ALLOC, R362: Allocates a tile, placed or unplaced, for a loaded program. -/
  | tileAlloc
  /-- TILE_FREE, R361: Frees a tile on behalf of system software. -/
  | tileFree
  /-- PREEMPT, R30: Requests pre-emption of a named RUNNING task. -/
  | preempt
  /-- POWER, R459: Sets the module power limit. -/
  | power
  /-- FREEZE, R463: Over MCTP, stops every clock in the package for scan. -/
  | freeze
  /-- DEBUG_UNLOCK, R464: Checks a signed token and unlocks freeze and scan. -/
  | debugUnlock
  /-- FRZ_N, R463: The debug pin driven low freezes the package. -/
  | frzN
  /-- POWER_WINDOW, R460: Each 1 ms window, the controller lowers die steps if module power exceeds the limit. -/
  | powerWindow
  /-- THERMAL_TRIP, R460: A die reaching its thermal trip is lowered and its locks lapse. -/
  | thermalTrip
  /-- HOST_FETCHADD, R449: A host FetchAdd AtomicOp is performed at the home atomic unit. -/
  | hostFetchadd
  /-- HOST_SWAP, R449: A host Swap AtomicOp is performed at the home atomic unit. -/
  | hostSwap
  /-- HOST_CAS, R449: A host CAS AtomicOp is performed, with 128-bit CAS completed as Unsupported Request. -/
  | hostCas
  /-- FLR, R450: A virtual-function reset fails or cancels the partition's tasks and clears its queue registers. -/
  | flr
  /-- FUNCTION0_RESET, R450: A reset of function 0 resets the whole device. -/
  | function0Reset
  /-- COLD_RESET, R461: Checks boot firmware and sets the harvested die's pass-through. -/
  | coldReset
  /-- UCIE_LINK_TRAIN, R461: Trains all die-to-die and memory links. -/
  | ucieLinkTrain
  /-- HBM_TRAIN, R461: Trains the HBM stacks and zeroes device memory. -/
  | hbmTrain
  /-- PCIE_ENUMERATE, R461: Trains and enumerates the PCI Express link. -/
  | pcieEnumerate
  /-- RHODI_PORT_TRAIN, R461: Trains each Rhodi port and handshakes with its partner. -/
  | rhodiPortTrain
  /-- GET_CERTIFICATE, R462: An SPDM request returns the identity certificate chain. -/
  | getCertificate
  /-- GET_MEASUREMENTS, R462: An SPDM request returns the signed measurements. -/
  | getMeasurements
  /-- FIRMWARE_UPDATE, R462: A signed firmware update is checked and accepted or refused. -/
  | firmwareUpdate
  /-- INSTRUCTION_CACHE_FILL, R114: A missed 192-byte code line arrives through h15 and fills the instruction cache, so that the stalled fetch can issue or raise FETCH or PAGE_NOT_PRESENT. -/
  | instructionCacheFill
  /-- HOST_WRITE, R242: A write from the host to device memory arrives over the host link and is performed at its home, in arrival order. -/
  | hostWrite
  /-- PEER_REQUEST, R274: A load, store, atomic or migration update from a peer chip arrives over the Rhodi links and is performed at this chip's home. -/
  | peerRequest
  /-- ECC_ERROR, R142: A single-bit or uncorrectable error arises in a register file, SRAM or device-memory word, and is later found, corrected or poisoned and counted. -/
  | eccError
  /-- BLOCKING_TASK_TIMEOUT, R324: A READY task at e = 3, skipped for 3,000,000 cycles while a younger task started, becomes the blocking task B. -/
  | blockingTaskTimeout
  /-- SPDM_KEY_EXCHANGE, R449: An SPDM key exchange over the DOE mailbox sets the AES-GCM-256 keys of the link or selective IDE streams. -/
  | spdmKeyExchange
  deriving DecidableEq, Repr

end Sys2Proof
end

