-- ==== Sys2Proof/Machine/State.lean ====
section
/-! DEFINITION. The state of the machine as plain data: everything the manual gives the part, unit by unit, and the few fields
the model adds (`cur`, `cell`, `ev`, `free`, `inputs`, `turn`). -/

namespace Sys2Proof.Machine

/-- A sparse table: keys strictly rising, and no entry equal to what an unlisted key reads as. -/
abbrev Tab (V : Type) := List (Nat × V)

/-- Why the machine stops. -/
inductive Fault where
  /-- Raised by `step` when FREEZE has stopped every clock (R463). Safe: nothing of the part moves until a cold reset. -/
  | frozen
  deriving DecidableEq, Repr

/-- Why an instruction has no meaning here. -/
inductive Refusal where
  /-- Raised by `exec` for an instruction this model gives no meaning; no arm of this model answers with it. Safe. -/
  | notModelled (mnemonic : String)
  deriving DecidableEq, Repr

/-! ## Sequencer registers -/

/-- The state of a page handle (R346). -/
inductive HandleState where
  | invalid
  | walking
  | valid
  | faulted
  deriving DecidableEq, Repr

/-- A page handle: its state, the address given to XLAT, the leaf when VALID, the cause when FAULTED and the accesses in flight
(R102, R346, R350). -/
structure Handle where
  st : HandleState := .invalid
  va : Word := 0
  leaf : Word := 0
  cause : Nat := 0
  inflight : Nat := 0
  deriving DecidableEq, Repr

/-- A selector pair: a row mask and a column mask (R104). -/
structure SelPair where
  rows : BitVec 256 := 0
  cols : BitVec 32 := 0
  deriving DecidableEq, Repr

/-- The FMT state of R184: the value in force and the values issued but not yet in force, oldest first, each with the bundles
still to issue before it is. -/
structure FmtState where
  inForce : Word := 0
  pending : List (Word × Nat) := []
  deriving DecidableEq, Repr

/-- An entry of the gate buffer (R439). -/
inductive GateEntry where
  /-- A store through a handle: handle, page offset, size, data, release mark and scope. -/
  | store (h off size : Nat) (v : Word) (rel : Bool) (scope : Nat)
  /-- A tile store: tile slot, the tile number it held at issue, word index, size, data, release mark and scope. -/
  | tile (slot t x size : Nat) (v : Word) (rel : Bool) (scope : Nat)
  /-- A FENCE release, without data. -/
  | fence (scope : Nat)
  deriving DecidableEq, Repr

/-- What RANKX latched (R402): rows, row bytes, source pitch, cut-off, index offset, BF16, positive only. -/
structure RankDesc where
  nrows : Nat := 0
  rowBytes : Nat := 0
  pitch : Word := 0
  cut : Nat := 0
  ioff : Nat := 0
  bf : Bool := false
  pos : Bool := false
  /-- The values are those of the header plane of an E2M1 tile (R288). -/
  hdr : Bool := false
  deriving DecidableEq, Repr

/-- A pattern bound to a port by BIND or RANKX (R276, R402). -/
structure Pattern where
  tile : Nat := 0
  slot : Nat := 0
  base : Nat := 0
  rep : Bool := false
  counts : List Nat := []
  strides : List (BitVec 32) := []
  lstr : BitVec 32 := 0
  eng : Nat := 0
  rank : Option RankDesc := none
  /-- Sequence number of the command that bound it, in its engine's queue. -/
  seq : Nat := 0
  /-- LAYOUT.TR of its tile as its command latched it (R371). -/
  tr : Bool := false
  deriving DecidableEq, Repr

/-- The shadow of a restart region (R441). -/
structure Shadow where
  s : Vector Word 32 := Vector.replicate 32 0
  /-- The poison marks of the registers. -/
  poisoned : BitVec 32 := 0
  b : Vector Bool 8 := Vector.replicate 8 false
  w : Vector SelPair 8 := Vector.replicate 8 {}
  lc0 : Word := 0
  lc1 : Word := 0
  lb0 : Word := 0
  lb1 : Word := 0
  lstg : Word := 0
  fmt : FmtState := {}
  /-- Per bound port: the serial number of the pattern at its front, the elements of it assigned or pushed, and the patterns from
  it on. -/
  streams : List (Nat × Nat × Nat × List Pattern) := []
  deriving DecidableEq, Repr

/-- A fault on its way to a record (R428, R429): the fields of the record that it decides. -/
structure FaultInfo where
  code : Nat := 0
  slot : Nat := 7
  precise : Bool := false
  src : Nat := 0
  pc : Nat := 0
  row : Nat := 0
  col : Nat := 0
  eng : Nat := 0
  seq : Nat := 0
  tslot : Nat := 0
  tvalid : Bool := false
  offset : Nat := 0
  lanes : BitVec 32 := 0
  wordn : Nat := 0
  detail : Word := 0
  cycle : Nat := 0
  addr : Word := 0
  /-- The handle a PAGE_NOT_PRESENT came through; 16 for none. -/
  hdl : Nat := 16
  /-- It was met while the gate buffer was being released (R438): the entries before it have left. -/
  gate : Bool := false
  deriving DecidableEq, Repr

/-- The edge aggregates of a word (R156). -/
structure Aggregates where
  rowAny : BitVec 256 := 0
  rowAll : BitVec 256 := 0
  colAny : BitVec 32 := 0
  colAll : BitVec 32 := 0
  any : Bool := false
  all : Bool := false
  err : Bool := false
  flags : BitVec 6 := 0
  wordNo : BitVec 32 := 0xFFFFFFFF
  deriving DecidableEq, Repr

/-- Why the sequencer issues no bundle (R32). -/
inductive Stop where
  /-- It may issue. -/
  | run
  /-- No bundle before this cycle: branch bubbles (R114), TALLOC and its kin (R366, R368). -/
  | hold (cycle : Nat)
  /-- PAUSE: no bundle before this cycle (R422). -/
  | pause (cycle : Nat)
  /-- An issued instruction still stops issue: what it waits for stands in `after`. -/
  | pend
  /-- A pending fault waits for the drain (R431). -/
  | trap
  /-- TEND has begun retirement (R28). -/
  | retiring
  /-- PLAY waits for its compile or still issues its generated words (R398, R399). -/
  | play
  /-- Pre-emption has stopped issue (R444). -/
  | preempt
  deriving DecidableEq, Repr

/-- A full/empty request of a held bundle: LDF 0, LDFK 1, STE 2; the tile, the byte address of the word, the value of STE, the cycle in
which it reaches the bank, and whether it waits there (R201, R222). -/
structure FeReq where
  kind : Nat := 0
  tile : Nat := 0
  addr : Nat := 0
  v : BitVec 32 := 0
  due : Nat := 0
  queued : Bool := false
  deriving DecidableEq, Repr

/-- What has reached FPX, WSTALL and PMC0–PMC7 in the present cycle: an MTC of that cycle does not lose it (R110, R425). -/
structure Arrivals where
  fpx : BitVec 6 := 0
  wstall : Word := 0
  pmc : Vector Word 8 := Vector.replicate 8 0
  deriving DecidableEq, Repr

/-- The rest of an issued instruction that stops the issue of the next bundle. -/
inductive Pend where
  /-- FENCE: its acquire and release parts and scope (R269). -/
  | fence (acq rel : Bool) (scope : Nat)
  /-- RESID: the slot and the tile to attach, or none (R262). -/
  | resid (attach : Option (Nat × Nat))
  /-- LDATT: K and the values it has read, those of ATT first (R406). -/
  | ldatt (k : Word) (vals : List (BitVec 16))
  /-- TFREE of a slot (R369). -/
  | tfree (slot : Nat)
  /-- TMOVE SEAL: status register and slot (R371). -/
  | tseal (rd slot : Nat)
  /-- PHASE OPEN of a local group: whether this member has arrived (R380). -/
  | phaseOpen (g : Nat) (arrived : Bool)
  /-- An opened phase whose frame 0 begins at a cycle (R380). -/
  | frame (g cycle : Nat)
  /-- PHASE CLOSE of a local group (R384). -/
  | phaseClose (g : Nat)
  deriving DecidableEq, Repr

/-- The end of a memory access: where its bytes lie, and how they are reached. -/
structure Place where
  /-- Byte address in the model's physical space. -/
  pa : Nat := 0
  /-- Virtual address, for a page access. -/
  va : Word := 0
  /-- The leaf used, for a page access. -/
  leaf : Word := 0
  /-- Reached through a page handle (true) or a tile slot (false). -/
  page : Bool := false
  /-- The tile number, for a tile access. -/
  tile : Nat := 0
  deriving DecidableEq, Repr

/-- What an outstanding operation of the sequencer is (R410). -/
inductive OutOp where
  /-- LD, LDN, LDP, LDT: the register, and whether it sign-extends. -/
  | load (rd : Nat) (sx : Bool)
  /-- ST, STP, STT, once released from the gate. -/
  | store (v : Word)
  /-- STFK. -/
  | stfk (v : BitVec 32)
  /-- AMO. -/
  | amo (fn rd : Nat) (v : Word)
  /-- CAS. -/
  | cas (rd : Nat) (cmp new : Word)
  /-- An AMO or CAS performed at its home, its old value on the way back. -/
  | amoRet (rd : Nat) (old : Word) (flags : BitVec 6) (poison : Bool)
  /-- ACC on its way to its home. -/
  | acc (fn : Nat) (v : Word)
  /-- An ACC refused at its home, on its way back (`due` 0), or waiting to be sent again in the quota window that begins at `due`
  (R260). -/
  | accRefused (fn : Nat) (v : Word)
  /-- FLUSHRES. -/
  | flushres
  /-- A FENCE release that has left the gate buffer: it counts nowhere (R236). -/
  | fenceRel
  /-- CBINIT, CBEXP. -/
  | cbinit (v : Word)
  | cbexp (v : Word)
  /-- CBARR, CBTEST. -/
  | cbarr (rd : Nat)
  | cbtest (rd : Nat)
  /-- DQPUSH, DQPOP, DQSTEAL: register, predicate, and value or array. -/
  | dqpush (rd b : Nat) (v : Word)
  | dqpop (rd b : Nat)
  | dqsteal (rd b arr : Nat)
  /-- The answer of a deque operation already performed, on its way to its register and predicate (R330). -/
  | dqRet (rd b : Nat) (v : Word) (ok : Bool)
  /-- LOCQ query 0x3. -/
  | locq (rd : Nat) (va : Word)
  deriving DecidableEq, Repr

/-- An outstanding operation, in program order. -/
structure Out where
  /-- Program-order stamp. -/
  no : Nat := 0
  op : OutOp := .flushres
  pl : Place := {}
  size : Nat := 0
  acq : Bool := false
  rel : Bool := false
  scope : Nat := 0
  /-- Handle whose INFLIGHT counts it; 16 for none. -/
  hdl : Nat := 16
  /-- An accumulate: the handles of the addends merged into it from the residual tile, which count those addends until it is performed
  (R257, R268, R350). -/
  carries : List Nat := []
  /-- The gated stores that stood before a load at its issue, oldest first (R219). -/
  gated : List GateEntry := []
  /-- Earliest cycle its answer is written. -/
  due : Nat := 0
  /-- An accumulate refused before with no residual tile attached: it stops issue until it is accepted (R260). -/
  again : Bool := false
  /-- A refused accumulate: the cycle at which its home's next quota window begins (R260). -/
  window : Nat := 0
  deriving DecidableEq, Repr

/-- What a PLAY still has to do (R399). -/
structure Play where
  rd : Nat := 0
  fmt : Word := 0
  mask : SelPair := {}
  /-- The generated words still to issue: VA, VB, MX and whether the word carries the play-start mark. -/
  words : List (Instr × Instr × Instr × Bool) := []
  mapBase : Nat := 0
  status : Word := 0
  /-- Offset of the PLAY's bundle, which its words carry. -/
  pc : Nat := 0
  /-- The entry in use; 32 for none. -/
  entry : Nat := 32
  deriving DecidableEq, Repr

/-- The registers and the working state of one sequencer (R98, R107). -/
structure Seq where
  s : Vector Word 32 := Vector.replicate 32 0
  /-- Registers marked poisoned (R217). -/
  poisoned : BitVec 32 := 0
  /-- b0–b7 as stored; b0 reads as true (R101). -/
  b : Vector Bool 8 := Vector.replicate 8 false
  h : Vector Handle 16 := Vector.replicate 16 {}
  w : Vector SelPair 8 := Vector.replicate 8 {}
  /-- T0–T63: valid bit [14], tile number [13:0] (R103). -/
  t : Vector (BitVec 15) 64 := Vector.replicate 64 0
  pc : Nat := 0
  /-- Where the next bundle is issued from, set while a bundle takes effect. -/
  npc : Nat := 0
  lc0 : Word := 0
  lc1 : Word := 0
  lb0 : Word := 0
  lb1 : Word := 0
  lstg : Word := 0
  fmt : FmtState := {}
  fpx : BitVec 6 := 0
  wstall : Word := 0
  pri : Nat := 0
  mon : Bool := false
  region : Bool := false
  phase : Bool := false
  resumes : Nat := 0
  taskid : BitVec 32 := 0
  seed : Word := 0
  grps : Word := 0
  part : Nat := 0
  len : Nat := 1
  die2 : Nat := 0
  ld : Nat := 0
  st : Nat := 0
  cp : Nat := 0
  wf : Nat := 0
  /-- The event of R426 under which the present bundle has been held, or 0. -/
  heldFor : Nat := 0
  /-- The bundle at the PC has been fetched, and is held (R351). -/
  fetched : Bool := false
  markpc : Nat := 0
  mepc : Word := 0
  mcause : Word := 0
  mrec : Word := 0
  mscr : Vector Word 4 := Vector.replicate 4 0
  pmctl : Word := 0
  pmc : Vector Word 8 := Vector.replicate 8 0
  /-- Words issued so far; the next word's number (R145). -/
  wordNo : Nat := 0
  agg : Aggregates := {}
  /-- Read set and write set of the open region, over the names of R440. -/
  reads : List Nat := []
  writes : List Nat := []
  gate : List GateEntry := []
  shadow : Shadow := {}
  /-- Bundle after which a new region opens (R437). -/
  openNext : Bool := false
  /-- Faults to be taken, in the order they were reported (R431, R491). -/
  pending : List FaultInfo := []
  /-- Located faults gathered while a trap drains (R431). -/
  located : List FaultInfo := []
  /-- Scalar (0–31), predicate (32–39) and handle (40–55) registers with a write due at a later cycle (R111). -/
  locks : List (Nat × Nat) := []
  divBusy : Nat := 0
  stop : Stop := .run
  /-- The rest of an issued instruction that stops issue, and that of a later slot of the same bundle. -/
  after : Option Pend := none
  afterNext : Option Pend := none
  /-- What holds issue once that is done: a PAUSE or the release of the gate buffer in the same bundle (R422, R438). -/
  goOn : Stop := .run
  outs : List Out := []
  /-- Stamp of the next outstanding operation. -/
  outNo : Nat := 0
  /-- A CBWAIT or full/empty request refused by a full bank, to be sent again at this cycle (R201). -/
  retryAt : Option Nat := none
  /-- LDF, LDFK, STE: the request of the held bundle, and the bank's answer: status and word, and whether the word is poisoned (R222,
  R30). -/
  feReq : Option FeReq := none
  feDone : Option (Word × Bool) := none
  /-- Cycle a dependent bundle may issue at: 18 after the request of LDF or LDFK to the own pad was sent (R111). -/
  feDue : Nat := 0
  /-- TALLOC: the cycle at which the held bundle raises PERMISSION (R368). -/
  permAt : Option Nat := none
  /-- XLATs issued and not yet in force: the cycle, the handle and the address (R347). -/
  xlats : List (Nat × Nat × Word) := []
  now : Arrivals := {}
  /-- SYNC: the group whose arrival this bundle has made, and its answer when complete (R420). -/
  syncGroup : Option Nat := none
  syncDone : Option Word := none
  /-- CBWAIT: its waiter is queued at the bank, and its answer (R418). -/
  cbwaiting : Bool := false
  cbDone : Option Word := none
  /-- Cycle at which that answer is given: waiters of one object are answered one per cycle (R418). -/
  cbAt : Nat := 0
  /-- Stamp of the first operation issued after the earliest WAIT since the dirty lines were last written back: a UN access from there on
  follows every RC store that had left st (R230). -/
  unAfter : Option Nat := none
  /-- The group whose transfer phase is open for the placement (R380). -/
  phaseOf : Option Nat := none
  play : Option Play := none
  /-- Tile number of the attached residual tile, and the slot RESID named (R262, R264). -/
  residTile : Option Nat := none
  residSlot : Nat := 0
  stamp : Nat := 0
  /-- Addends in the residual tile that a handle's INFLIGHT still counts: address, FMT and handle (R268, R350). -/
  residHdls : List (Nat × Nat × Nat) := []
  lastIssue : Nat := 0
  wdog : Nat := 0
  /-- The monitor's own code handle (R434). -/
  mhandle : Handle := {}
  /-- An invalidation of h15, or of the monitor's own handle, waits for its point (R351). -/
  codeInval : Bool := false
  monInval : Bool := false
  preemptReq : Bool := false
  /-- Global stall: the freeze ends at this cycle and adds this many cycles (R146). -/
  stallEnd : Option (Nat × Nat) := none
  /-- Global-stall cycles so far, for the σ of R144. -/
  sigma : Nat := 0
  deriving DecidableEq, Repr

/-! ## Words and cells -/

/-- A fragment with its sidecar, whether it is marked desynchronised (R284), and the lanes that lie in poisoned words (R211; log 53). -/
structure Popped where
  frag : Frag := 0
  side : Side := 0
  desync : Bool := false
  bad : BitVec 32 := 0
  deriving DecidableEq, Repr

/-- A word in the grid (R20, R144). -/
structure WordF where
  no : Nat
  issued : Nat
  pc : Nat
  va : Instr := .nop
  vb : Instr := .nop
  mx : Instr := .nop
  mva : SelPair := {}
  mvb : SelPair := {}
  mmx : SelPair := {}
  fmt : Word := 0
  /-- Tile numbers of the tile slots it names, latched at issue: (slot, tile). -/
  tiles : List (Nat × Nat) := []
  /-- The play-start mark and its MAPBASE (R399). -/
  playStart : Option Nat := none
  /-- Fragments assigned to the rows that pop W and the columns that pop N (R278). -/
  west : List (Nat × Popped) := []
  north : List (Nat × Popped) := []
  /-- Sequencer's σ at issue (R144). -/
  sigma0 : Nat := 0
  /-- The wavefront: diagonal r + c + J(r) and row of the next cell. -/
  diag : Nat := 0
  row : Nat := 0
  done : Bool := false
  /-- What the cells executed so far contribute to the aggregates: per row and column, whether some cell took part with CF 1,
  and whether some took part with CF 0. -/
  rowSet : BitVec 256 := 0
  rowClr : BitVec 256 := 0
  colSet : BitVec 32 := 0
  colClr : BitVec 32 := 0
  err : Bool := false
  flags : BitVec 6 := 0
  faults : List FaultInfo := []
  deriving DecidableEq, Repr

/-- The cell cursor: which cell, slot and word a cell instruction's meaning acts in (the model's own; log 1). -/
structure CellCtx where
  top : Nat := 0
  row : Nat := 0
  col : Nat := 0
  /-- Slot under way, numbered as in fault records: 0 SC, 1 VA, 2 VB, 3 MX, 4 KA, 5 KB; and the masks of its selector pair. -/
  slot : Nat := 0
  mask : SelPair := {}
  /-- Tile numbers of the tile slots the word names, latched at its issue: (slot, tile). -/
  tiles : List (Nat × Nat) := []
  wordNo : Nat := 0
  pc : Nat := 0
  fmt : Word := 0
  west : Popped := {}
  north : Popped := {}
  /-- A slot of this word raised a located fault or met an error in this cell (R159, R142). -/
  faulted : Bool := false
  err : Bool := false
  takesPart : Bool := false
  flags : BitVec 6 := 0
  /-- Cycles the word's gathers, scatters and RACC need beyond one (R146, R408). -/
  extra : Nat := 0
  /-- Drains pushed by this cell's MOV.d: port codes. -/
  pushes : List Nat := []
  fault : Option FaultInfo := none
  deriving DecidableEq, Repr

/-! ## Copy engines, ports -/

/-- A batch of a COPYG or COPYS as its engine has read it (R298, R299): its first row, its indices, and the rows read, each by its
index in the table, or for a COPYS by its number, with its bytes and those that lie in poisoned words. -/
structure Batch where
  first : Nat
  idx : List Nat
  rows : List (Nat × Nat × List Nat) := []
  deriving DecidableEq, Repr

/-- A command in an engine's queue with what it latched at issue (R286). -/
structure Cmd where
  op : Nat
  word : BitVec 32
  ra : Word
  rb : Word
  x : Vector Word 11
  seq : Nat
  /-- Tile numbers of the slots it names, latched at issue: source, destination, table or mask or index, barrier (R371). -/
  tiles : List (Nat × Nat) := []
  /-- Those of its tiles that LAYOUT.TR transposed at issue (R371). -/
  trs : List Nat := []
  part : Nat := 0
  /-- Stamp of the first operation of its sequencer issued after it. -/
  stamp : Nat := 0
  /-- Cycle at which it entered its queue. -/
  issued : Nat := 0
  /-- Command-order bytes sent, and those landed and credited. -/
  sent : Nat := 0
  landed : Nat := 0
  started : Bool := false
  /-- Pre-emption has withdrawn its bytes from its barrier; they are re-added as it is issued anew (R444, R448). -/
  readd : Bool := false
  /-- The page each side was translated to last: side (0 read, 1 written, 2 list), virtual base, leaf (R294). -/
  pages : List (Nat × Nat × Word) := []
  /-- The batch of a COPYG or COPYS that a halt has cut short (R299); of a COPYM, the mask bits read ahead of their rows. -/
  batch : Option Batch := none
  /-- XMIT: the group whose phase it sends in, and the cycle of that phase's frame 0. -/
  group : Nat := 0
  frame0 : Nat := 0
  deriving DecidableEq, Repr

/-- A sector on its way to its home (R291): the bytes it writes and the payload it credits. -/
structure Sector where
  seq : Nat
  cells : List (Nat × Byte)
  credit : Nat
  /-- Command-order offset of its first byte. -/
  off : Nat := 0
  poison : List Nat := []
  /-- It goes over the host link or a Rhodi link. -/
  link : Bool := false
  /-- It writes an SO page (R229, R231). -/
  so : Bool := false
  /-- Address of the barrier object it credits. -/
  bar : Option Nat := none
  /-- Tiles it writes or credits. -/
  tiles : List Nat := []
  deriving DecidableEq, Repr

/-- A copy engine (R286, R287, R290). -/
structure Engine where
  x : Vector Word 16 := Vector.replicate 16 0
  queue : List Cmd := []
  flight : List Sector := []
  halted : Bool := false
  last : Nat := 0
  hcode : Nat := 0
  resume : Nat := 0
  seqNext : BitVec 32 := 0
  /-- Bytes that flits of a command wrote while commands before it had yet to write: the command's number, and an address (R226, R381). -/
  wrote : List (Nat × Nat) := []
  deriving DecidableEq, Repr

/-- A fragment in an edge buffer (R278, R283). -/
structure Fetched where
  frag : Frag := 0
  /-- Its tile is E2M1: it takes a sidecar from the scale queue. -/
  scaled : Bool := false
  /-- Serial number of its pattern. -/
  ser : Nat := 0
  /-- It is the last of a pattern whose sidecars do not number its fragments (R284). -/
  odd : Bool := false
  /-- Lanes that lie in poisoned words (R211; log 53). -/
  bad : BitVec 32 := 0
  deriving DecidableEq, Repr

/-- A place reserved in a drain at the issue of a word (R282). -/
structure Push where
  word : Nat := 0
  /-- Chain row for E, column for S. -/
  cell : Nat := 0
  pat : Pattern := {}
  elem : Nat := 0
  /-- The fragment, once pushed. -/
  val : Option Popped := none
  /-- The push failed to take place: the element is passed over. -/
  passed : Bool := false
  /-- Cycle of the last of several accesses of one bank that its write takes, once begun (R200, R202). -/
  due : Option Nat := none
  deriving DecidableEq, Repr

/-- An edge port or a scalar stream (R275 to R285). -/
structure Port where
  /-- The patterns bound, in order: the one whose elements words, reads or pushes take, up to the active one and its follower. -/
  pats : List Pattern := []
  /-- Place of the active pattern among them. -/
  act : Nat := 0
  /-- Elements of the active pattern fetched. -/
  pos : Nat := 0
  /-- Elements of the first pattern assigned, consumed or reserved. -/
  taken : Nat := 0
  /-- Patterns that have left the front since the port was bound. -/
  serial : Nat := 0
  buf : List Fetched := []
  /-- The scale queue, and the sidecars produced for the active pattern. -/
  scales : List Side := []
  produced : Nat := 0
  /-- Elements that the producer has gone through beyond those fetched, while the buffer is full (R284). -/
  ahead : Nat := 0
  /-- Scalar stream: the elements held. -/
  elems : List Word := []
  places : List Push := []
  /-- Cycle from which the loader's next fragments may reach the buffer (R280). -/
  fillAt : Nat := 0
  /-- Cycle from which the drain may write again: one after its latest writes (R282). -/
  drainAt : Nat := 0
  /-- Patterns that have left the front since the open restart region began, or since the port was bound (R442). -/
  gone : List Pattern := []
  deriving DecidableEq, Repr

/-! ## Per-array caches and tables -/

/-- A line of an array cache (R213, R227). -/
structure CacheLine where
  /-- Virtual line number ⌊va / 192⌋. -/
  line : Nat
  part : Nat
  pa : Nat
  un : Bool
  sv : BitVec 4
  sd : BitVec 4
  stag : Nat
  sld : Bool
  psn : Bool
  /-- The poison marks of its 8-byte words (R211). -/
  bad : BitVec 24
  mask : BitVec 192
  data : BitVec 1536
  deriving DecidableEq, Repr

/-- A TLB entry: one leaf tagged with its partition and the virtual base of its page (R343). -/
structure TlbEntry where
  part : Nat
  base : Nat
  leaf : Word
  deriving DecidableEq, Repr

/-- An entry of the micro-program cache with its program (R391, R395). -/
structure Prog where
  valid : Bool := false
  /-- 0 COMPILING, 1 READY, 2 DENSE. -/
  st : Nat := 0
  tile : Nat := 0
  version : BitVec 16 := 0
  rows : Nat := 0
  fmtk : BitVec 7 := 0
  thr : Nat := 0
  cause : Nat := 0
  blocks : BitVec 32 := 0
  mapBase : Nat := 0
  len : Nat := 0
  maxnz : Nat := 0
  /-- Program store: the list Lv of (chunk, half). -/
  lv : List (Nat × Nat) := []
  /-- Words issued before its trigger (the compile waits for their aggregates), and when it ends once begun. -/
  afterWord : Nat := 0
  ends : Option Nat := none
  /-- Recency, for least-recently-used eviction. -/
  used : Nat := 0
  deriving DecidableEq, Repr

/-- One array: its sequencer, engines, ports, caches and tables (R9). -/
structure Arr where
  /-- The task placement it belongs to: its top array, or none (R16). -/
  owner : Option Nat := none
  /-- A task runs on the placement this array tops: its index in `tasks`. -/
  task : Option Nat := none
  seq : Seq := {}
  eng : Vector Engine 4 := Vector.replicate 4 {}
  /-- Ports by number: N 0, S 2, s24–s31 8–15, W of position p 16 + p, E of position p 24 + p. -/
  ports : Tab Port := []
  words : List WordF := []
  dqTop : BitVec 32 := 0
  dqBot : BitVec 32 := 0
  deque : Tab Word := []
  att : Vector (BitVec 16) 64 := Vector.replicate 64 0
  recv : Vector (BitVec 16) 64 := Vector.replicate 64 0
  kcut : Nat := 64
  progs : Vector Prog 32 := Vector.replicate 32 {}
  cache : List CacheLine := []
  tlb : List TlbEntry := []
  victim : List TlbEntry := []
  /-- Instruction-cache lines: physical address of the line and its 192 bytes (R114). -/
  icache : List (Nat × BitVec 1536) := []
  /-- Cycle from which its ranking network takes the next row (R404). -/
  rankAt : Nat := 0
  deriving DecidableEq, Repr

/-! ## Tables -/

/-- The state of a tile-table entry (R360). -/
inductive TileState where
  | free
  | live
  | freed
  deriving DecidableEq, Repr

/-- A tile-table entry (R360). -/
structure Tile where
  st : TileState := .free
  part : Nat := 0
  persist : Bool := false
  sparse : Bool := false
  fe : Bool := false
  sealed : Bool := false
  level : Nat := 0
  type : Nat := 0
  layout : BitVec 5 := 0
  homeArr : Nat := 0
  len : Nat := 0
  /-- CELL: the arrays of the placement it lies in; two 8-chains may share their top array (R16). -/
  cells : BitVec 28 := 0
  placed : Bool := false
  saved : Bool := false
  rows : Nat := 0
  cols : Nat := 0
  base : Nat := 0
  words : Nat := 0
  binds : Nat := 0
  /-- The task that allocated it has failed: its bank answers full/empty requests BROKEN (R201). -/
  feBroken : Bool := false
  hbase : Nat := 0
  hcount : Nat := 0
  version : BitVec 16 := 0
  /-- The task that allocated it, as (partition, task number); none for system software. -/
  owner : Option (Nat × Nat) := none
  deriving DecidableEq, Repr

/-- A group-table entry (R372). -/
structure Group where
  members : BitVec 28 := 0
  arrived : BitVec 28 := 0
  sphase : Bool := false
  broken : Bool := false
  phopen : Bool := false
  planes : BitVec 16 := 0xFFFF
  mcast : Bool := false
  parked : Nat := 0
  /-- Every member has arrived at PHASE CLOSE, and the phase still has flits on their way (R384). -/
  closing : Bool := false
  /-- The cycle frame 0 of the open phase begins (R380). -/
  frame0 : Option Nat := none
  deriving DecidableEq, Repr

/-- A reservation entry (R376). -/
structure Slot where
  part : Nat := 0
  valid : Bool := false
  phase : Bool := false
  /-- Cycle the reservation takes effect, and the cycle a released one ends (R377). -/
  since : Nat := 0
  ends : Nat := 0
  /-- The reservation it was released from in the frame in which it was reserved anew: partition, PHASE, and the cycle it ends. -/
  prev : Option (Nat × Bool × Nat) := none
  deriving DecidableEq, Repr

/-- A range an IMUX has set in its array's phase table (R381). -/
structure ImuxRange where
  arr : Nat
  src : Nat
  slot : Nat
  count : Nat
  plane : Nat
  frame : Nat
  nflits : Nat
  dst : Word
  tile : Nat
  /-- LAYOUT.TR of its tile as it latched it (R371). -/
  tr : Bool := false
  /-- The group whose phase it was set in. -/
  group : Nat := 0
  accepted : Nat := 0
  deriving DecidableEq, Repr

/-- A phase flit travelling (R381, R383). -/
structure Flit where
  src : Nat
  dst : Nat
  plane : Nat
  /-- Slot and frame at the sender's first output port. -/
  slot : Nat
  frame : Nat
  data : BitVec 1024
  eng : Nat
  seq : Nat
  /-- Entry of its group. -/
  group : Nat
  /-- Cycle of its ejection slot. -/
  eject : Nat := 0
  /-- Bytes it credits, and the barrier object they go to. -/
  credit : Nat := 0
  bar : Option Nat := none
  /-- Its bytes that lie in poisoned words (R211). -/
  bad : List Nat := []
  /-- Addresses that a later command of its engine has written meanwhile: its own bytes there come before those (R226, R239). -/
  past : List Nat := []
  deriving DecidableEq, Repr

/-! ## Homes -/

/-- A quota record of one home atomic unit and partition (R423). -/
structure Quota where
  qlim : Nat := 64
  inForce : Nat := 64
  refcnt : BitVec 32 := 0
  macnt : BitVec 32 := 0
  deriving DecidableEq, Repr

/-- A waiter of a pad bank: a full/empty request or a CBWAIT (R201, R418). -/
structure Waiter where
  bank : Nat
  arr : Nat
  /-- Stamp of the outstanding operation, or of the held CBWAIT bundle. -/
  no : Nat
  addr : Nat
  /-- 0 LDF, 1 LDFK, 2 STE, 3 CBWAIT. -/
  kind : Nat
  phase : Nat := 0
  tile : Nat := 0
  deriving DecidableEq, Repr

/-- A refused addend of a task that has ended, to be sent again at the start of each quota window of its home until it is accepted: its
partition and sender, its place, kind and value (R260; log 49). -/
structure Resend where
  part : Nat
  arr : Nat
  pl : Place
  fn : Nat
  v : Word
  deriving DecidableEq, Repr

/-- A combining entry of the merge switch (R271). -/
structure WinEntry where
  part : Nat
  win : Nat
  addr : Nat
  /-- Per port, the partial. -/
  partials : List (Nat × BitVec 32)
  deriving DecidableEq, Repr

/-! ## Queues, tasks, partitions -/

/-- The state of a launch queue (R307). -/
inductive QState where
  | disabled
  | idle
  | active
  | halted
  deriving DecidableEq, Repr

/-- What the interpreter waits for on a queue. -/
inductive QWait where
  /-- WAITC with its journal sequence number, the cycle of its last read and the cycle it began. -/
  | waitc (seq lastRead began : Nat)
  /-- FENCE. -/
  | fence (seq : Nat)
  /-- GROUPSET. -/
  | groupset (seq : Nat)
  /-- An XFER with WAIT set, by its journal sequence number. -/
  | xfer (seq : Nat)
  deriving DecidableEq, Repr

/-- A host launch queue (R307, R310). -/
structure Queue where
  owner : Option Nat := none
  qbase : Word := 0
  log2n : Nat := 0
  en : Bool := false
  st : QState := .disabled
  cause : Nat := 0
  head : BitVec 32 := 0
  tail : BitVec 32 := 0
  /-- Address of the next list entry, when a list is being walked. -/
  lpc : Option Nat := none
  stack : List Nat := []
  cookie : BitVec 32 := 0
  /-- The entry, or what it waits for, under way. -/
  wait : Option QWait := none
  /-- The accepted entry that `wait` waits for. -/
  ent : BitVec 256 := 0
  /-- Entry lengths for a SKIP past the entry that halted the queue. -/
  skipLen : Nat := 32
  deriving DecidableEq, Repr

/-- An XFER on the scoreboard (R313, R314). -/
structure Xfer where
  part : Nat
  queue : Nat
  seq : Nat
  tag : Nat
  len : Nat
  src : Word
  dst : Word
  wait : Bool
  /-- 0 ACCEPTED, 1 STARTED, 2 DONE, 3 FAILED, 4 CANCELLED. -/
  status : Nat
  deriving DecidableEq, Repr

/-- The states of a task (R24). -/
inductive TaskState where
  | queued
  | ready
  | running
  | preempted
  | done
  | failed
  | cancelled
  deriving DecidableEq, Repr

/-- A tile in a save area (R446): its number, its chain position, its bytes by place within it (CELL: 16,384 for each cell in chain
order), and the words that are full, poisoned or in error. -/
structure SavedTile where
  n : Nat
  pos : Nat
  bytes : List Host.Cell
  full : List Nat
  poison : List Nat
  ecc : List Nat
  deriving DecidableEq, Repr

/-- The save area of a pre-empted task as the machine holds it (R446). -/
structure Saved where
  slot : Nat
  seq : Seq
  eng : Vector Engine 4
  ports : Tab Port
  dqTop : BitVec 32
  dqBot : BitVec 32
  deque : Tab Word
  att : Vector (BitVec 16) 64
  recv : Vector (BitVec 16) 64
  kcut : Nat
  /-- Cells of the placement by chain row and column: (32·row + col)·K + register → value. -/
  frags : Tab Frag
  sides : Tab Side
  flags : Tab Word
  gens : Tab (BitVec 32)
  ages : Tab (Nat × Bool)
  chist : Tab (List (Nat × Frag × Side))
  /-- Errors not yet found in those registers. -/
  errs : Tab Bool
  /-- Poison marks of those registers. -/
  marks : Tab Bool
  tiles : List SavedTile
  total : Nat
  oldTop : Nat
  deriving DecidableEq, Repr

/-- A task (R24, R315). -/
structure Task where
  part : Nat
  tid : Nat
  jseq : Nat
  /-- Global queue number, or 256 for the device launch queue. -/
  queue : Nat
  cookie : BitVec 32
  ref : Word
  lrec : BitVec 512
  args : List Word
  binds : List (Nat × Nat)
  /-- Tiles whose BINDS counts a slot of the record since its acceptance, until the task starts (R361). -/
  counted : List Nat := []
  st : TaskState
  top : Nat := 0
  die2 : Nat := 0
  queuedAt : Nat := 0
  /-- Cycles spent READY or PREEMPTED up to `waitFrom`, and the cycle the present wait began. -/
  waited : Nat := 0
  waitFrom : Nat := 0
  /-- Effective priority as last applied (R324). -/
  eff : Nat := 0
  /-- Cycle it was first skipped at e = 3 while a younger task started. -/
  skippedAt : Option Nat := none
  started : Bool := false
  resumes : Nat := 0
  saved : Option Saved := none
  /-- DEPS still unsatisfied: journal sequence numbers of XFERs. -/
  deps : List Nat := []
  detail : BitVec 32 := 0
  /-- Quiesce deadline of a pre-emption under way (R444). -/
  quiesce : Option Nat := none
  /-- READY with a placement assigned, and the cycle it becomes RUNNING at the earliest (R16, R24, R27). -/
  assigned : Bool := false
  startAt : Nat := 0
  deriving DecidableEq, Repr

/-- A partition and the fields system software sets for it (R13, R454, R456). -/
structure Part where
  alive : Bool := false
  arrays : BitVec 28 := 0
  ptroot : Nat := 0
  tbase : Nat := 0
  tcount : Nat := 0
  gbase : Nat := 0
  gcount : Nat := 0
  sbShare : Nat := 0
  men : Bool := false
  mentry : Word := 0
  mrbase : Word := 0
  spbase : Nat := 0
  spcount : Nat := 0
  spsize : Nat := 0
  spused : List Nat := []
  redwin : Vector (BitVec 256) 16 := Vector.replicate 16 0
  mtbase : Nat := 0
  mtcount : Nat := 0
  mthr : Nat := 0
  mpool : Nat := 0
  mframes : Nat := 0
  /-- Free 48 KiB frames of the migration pool, by address. -/
  mfree : List Nat := []
  channels : BitVec 16 := 0
  lockDies : BitVec 8 := 0
  lockLapsed : BitVec 8 := 0
  lockFreq : Nat := 0
  jbase : Word := 0
  jtail : BitVec 32 := 0
  jhead : BitVec 32 := 0
  /-- Low halves of 64-bit registers held until their high half is written: (offset, with the global number of a queue, and value). -/
  lows : List (Nat × BitVec 32) := []
  /-- Journal sequence numbers of device launches whose record still holds its place in the device launch queue. -/
  dlq : List Nat := []
  nextTid : BitVec 32 := 0
  blocking : Option Nat := none
  /-- The held set of the controller's pass under way, with the cycle of the pass (R324). -/
  passHeld : Option (Nat × List Nat) := none
  deriving DecidableEq, Repr

/-! ## Package -/

/-- A Rhodi port (R461). -/
inductive PortLink where
  | untrained
  | up
  | down
  deriving DecidableEq, Repr

/-- Bring-up, identity, power and debug of the package (R459 to R464). -/
structure Package where
  /-- Bring-up stage last completed, 0 before stage 1 (R461). -/
  stage : Nat := 0
  recovery : Bool := false
  stopped : Bool := false
  passThrough : Bool := false
  ucieUp : Bool := false
  hbmUp : Bool := false
  pcieUp : Bool := false
  rhodi : Vector PortLink 16 := Vector.replicate 16 .untrained
  /-- What the handshake of each Rhodi port has exchanged: the partner's chip id, the lane map and the channel credits (R461). -/
  partner : Vector (Option Nat) 16 := Vector.replicate 16 none
  laneMap : Vector (BitVec 32) 16 := Vector.replicate 16 0
  credits : Vector Word 16 := Vector.replicate 16 0
  /-- Links reported over MCTP as failing in bring-up, newest first: the stage and the link (R461). -/
  linkReports : List (Nat × Nat) := []
  harvested : Nat := 7
  chipId : Nat := 0
  keyHash : BitVec 256 := 0
  securityVersion : Nat := 0
  identityKey : BitVec 256 := 0
  digests : List (BitVec 256) := []
  fwVersion : Nat := 0
  debugUnlocked : Bool := false
  unlockRecorded : Bool := false
  linkKey : Option (BitVec 256) := none
  selKeys : List (Nat × BitVec 256) := []
  /-- SPDM responses handed out on the DOE mailbox, newest first. -/
  responses : List (BitVec 512) := []
  /-- Completion records sent over MCTP, newest first (R455). -/
  mctpOut : List (BitVec 128) := []
  /-- Completions of the host's AtomicOps, newest first: the old value, or none for Unsupported Request (R449). -/
  hostOut : List (Option Nat) := []
  /-- MSI-X vectors raised: (function, vector), newest first. -/
  irqs : List (Nat × Nat) := []
  limit : Nat := 3200
  steps : Vector Nat 8 := Vector.replicate 8 15
  measured : Nat := 0
  frozen : Bool := false
  /-- AtomicOp widths the host link enabled at enumeration: 32 and 64 bits (R273). -/
  atom32 : Bool := true
  atom64 : Bool := true
  deriving DecidableEq, Repr

/-- A command entry accepted and not yet performed: its 64 bytes, and whether it came over MCTP (R453, R455). -/
structure AdminEntry where
  e : BitVec 512 := 0
  mctp : Bool := false
  deriving DecidableEq, Repr

/-- The administrative queue of function 0 (R452) and the command under way (R453). -/
structure Admin where
  base : Nat := 0
  log2n : Nat := 0
  en : Bool := false
  tailAddr : Nat := 0
  head : BitVec 32 := 0
  /-- 0 DISABLED, 1 IDLE, 2 BUSY, 3 ERROR. -/
  st : Nat := 0
  vec : BitVec 32 := 0
  /-- Entries accepted and not yet performed, in arrival order across both paths (R451). -/
  fetched : List AdminEntry := []
  /-- Tag and completion address of the command under way, and whether it came over MCTP (R453, R455). -/
  cur : Option (BitVec 32 × Nat) := none
  mctp : Bool := false
  /-- STATUS and RESULT of the latest command. -/
  status : Nat := 0
  result : Word := 0
  /-- Cycle of the last read of the tail word, and the cycle the first command completed since (R452). -/
  polled : Nat := 0
  doneAt : Option Nat := none
  lows : List (Nat × BitVec 32) := []
  deriving DecidableEq, Repr

/-- The arguments of the event under way (the model's own; log 1): the array, queue, partition or engine it happens to, and
what the outside brings with it. -/
structure Ev where
  /-- Array, or function. -/
  a : Nat := 0
  /-- Index, engine, port or word. -/
  k : Nat := 0
  /-- Partition. -/
  p : Nat := 0
  /-- Queue, or a count. -/
  q : Nat := 0
  x0 : Word := 0
  x1 : Word := 0
  x2 : Word := 0
  x3 : Word := 0
  x4 : Word := 0
  x5 : Word := 0
  data : BitVec 512 := 0
  flag : Bool := false
  deriving DecidableEq, Repr

/-- Registers as they stand before a bundle: what its KA and KB slots read (R111; log 1). -/
structure Pre where
  s : Vector Word 32 := Vector.replicate 32 0
  poisoned : BitVec 32 := 0
  b : Vector Bool 8 := Vector.replicate 8 false
  t : Vector (BitVec 15) 64 := Vector.replicate 64 0
  w : Vector SelPair 8 := Vector.replicate 8 {}
  deriving DecidableEq, Repr

/-- The bundle under way (the model's own; log 1). -/
structure Bundle where
  /-- The precise fault a slot has raised: no slot of the bundle takes effect (R42). -/
  raised : Option FaultInfo := none
  /-- A slot cannot issue this cycle, so the bundle is held (R412, R418, R420, R438), and the event of R426 that says why, or 0. -/
  blocked : Bool := false
  why : Nat := 0
  /-- Bound scalar registers its slots have read (R100). -/
  popped : BitVec 32 := 0
  /-- Registers before the bundle, for its KA and KB slots and its word. -/
  pre : Option Pre := none
  /-- Its VA, VB and MX instructions. -/
  word : List Instr := []
  /-- The instruction of the slot under way. -/
  ins : Instr := .nop
  deriving DecidableEq, Repr

/-- The machine. -/
structure State where
  /-- CYC (R109). -/
  cyc : Nat := 0
  pkg : Package := {}
  admin : Admin := {}
  /-- All memories by the model's byte address: device, peer and host memory at their physical addresses (R336), and the on-chip
  memories above them. Unlisted bytes read 0. -/
  mem : List Host.Cell := []
  /-- ECC words marked poisoned, and ECC words holding an uncorrectable error not yet marked, by the address of their first byte:
  8 bytes in device memory, 4 elsewhere (R142, R211). -/
  poison : Tab Bool := []
  ecc : Tab Bool := []
  /-- Pad words that are full (R199), by byte address. -/
  full : Tab Bool := []
  arrs : Vector Arr 28 := Vector.replicate 28 {}
  /-- Die TLBs by compute die (R343). -/
  dieTlb : Tab (List TlbEntry) := []
  /-- Cell registers (R135): fragments by (cell, operand code), sidecars, F, G, and per accumulator the word of the latest
  accumulating write with its kind. Keys are built by `cellKey`. -/
  frags : Tab Frag := []
  sides : Tab Side := []
  flags : Tab Word := []
  gens : Tab (BitVec 32) := []
  ages : Tab (Nat × Bool) := []
  /-- Writes of C by word number, newest first, by cell (R149, R150). -/
  chist : Tab (List (Nat × Frag × Side)) := []
  /-- Pattern RAM by (cell, map), MP and MAPBASE by cell (R387). -/
  pram : Tab (BitVec 16) := []
  mp : Tab Nat := []
  mapBase : Tab Nat := []
  /-- Registers of a cell holding an uncorrectable error: (cell, code, lane) keys (R142). -/
  cellEcc : Tab Bool := []
  /-- Registers of a cell that carry a poison mark, by the same keys (R194; log 53). -/
  cellPoison : Tab Bool := []
  tiles : Tab Tile := []
  groups : Tab Group := []
  waiters : List Waiter := []
  quotas : Tab Quota := []
  acnt : Tab Nat := []
  /-- Refused addends of tasks that have ended, still to be accepted (R260; log 49). -/
  accDue : List Resend := []
  homeFlags : Tab (BitVec 6) := []
  bankFlags : Tab (BitVec 6) := []
  /-- Accumulates discarded at a poisoned word: (die, partition, address) (R255). -/
  homeLog : List (Nat × Nat × Nat) := []
  /-- Error records: CE, UE by unit (R424). -/
  errs : Tab (BitVec 32 × BitVec 32) := []
  waymask : Tab (BitVec 16) := []
  /-- Lines resident in the cache slices: (memory die, line, way, dirty), most recently used first (R210). -/
  slices : List (Nat × Nat × Nat × Bool) := []
  /-- Clean lines of the slices whose key slot has a new key since: the line's address, its bytes in the slice, and those HBM's line reads as
  under that key (R358). -/
  stale : Tab (Nat × Nat) := []
  /-- Dirty lines of the slices: what HBM's line reads as until they are written back, by the line's address (R210, R463). -/
  hbm : Tab Nat := []
  netRes : Tab Slot := []
  hbmRes : Tab Slot := []
  imux : List ImuxRange := []
  flits : List Flit := []
  wins : List WinEntry := []
  keys : Tab (BitVec 512) := []
  keyOwner : Tab Nat := []
  /-- Partition given each die-memory quarter by the administrative function, by 4·die + quarter; unlisted: the partition of the
  array beside it (R365). -/
  quarterOwner : Tab (Option Nat) := []
  parts : Vector Part 28 := Vector.replicate 28 {}
  queues : Tab Queue := []
  tasks : List Task := []
  xfers : List Xfer := []
  /-- Accesses counted toward migration: (partition, page, chip, lines, cycle) (R356). -/
  migCount : List (Nat × Nat × Nat × Nat × Nat) := []
  /-- Key slot of a page that another chip holds, by partition · 2^57 + virtual base (R357). -/
  pageKeys : Tab Nat := []
  /-- Bytes of the last quota window whose start has been taken (R259): its number. -/
  window : Nat := 0
  /-- The array whose sequencer the SC, KA and KB meanings act for (the model's own; log 1). -/
  cur : Fin 28 := 0
  /-- The cell cursor (the model's own; log 1). -/
  cell : CellCtx := {}
  /-- The bundle under way (the model's own; log 1). -/
  bun : Bundle := {}
  /-- The arguments of the event under way (the model's own; log 1). -/
  ev : Ev := {}
  /-- Free values drawn so far (the model's own; log 2). -/
  free : Nat := 0
  /-- Outside actions still to come, each with the cycle it lands at (the model's own; log 1). -/
  inputs : List (Nat × Ev × Instr) := []
  /-- Command entries that arrive over MCTP, each with the cycle it arrives at (the model's own; log 1). -/
  mctp : List (Nat × BitVec 512) := []
  /-- The array whose turn to issue comes next in this cycle (the model's own; log 1). -/
  turn : Nat := 0
  /-- Pads, die-memory quarters and deques accessed in this cycle, each with the place in the order of service of the last access to
  it (R200, R202, R331). -/
  served : Tab Nat := []
  deriving DecidableEq, Repr

/-- The machine right after reset: every unit as its register tables give it, nothing placed, nothing running. -/
def State.reset : State := {}

end Sys2Proof.Machine
end

