-- ==== Sys2Proof/Machine/Tables.lean ====
section
/-! DEFINITION. Sparse tables and byte memory in one canonical form, lanes of fragments, and the small arithmetic on Nat and
BitVec that the meanings share. -/

namespace Sys2Proof.Machine

/-! ## Sparse tables -/

/-- The value a table holds at a key; `d` where the key is not listed. -/
def tget {V : Type} (d : V) : Tab V → Nat → V
  | [], _ => d
  | (k, v) :: t, n => if k = n then v else tget d t n

/-- Put an entry in its place among rising keys. -/
def tins {V : Type} (n : Nat) (v : V) : Tab V → Tab V
  | [] => [(n, v)]
  | (k, u) :: t => if n < k then (n, v) :: (k, u) :: t else (k, u) :: tins n v t

/-- The table without a key. -/
def tdel {V : Type} (t : Tab V) (n : Nat) : Tab V := t.filter fun e => e.1 ≠ n

/-- Write a key, keeping the canonical form: the unlisted value is not listed. -/
def tset {V : Type} [DecidableEq V] (d : V) (t : Tab V) (n : Nat) (v : V) : Tab V :=
  if v = d then tdel t n else tins n v (tdel t n)

/-- Canonical form: keys strictly rising, no entry equal to what an unlisted key reads as. -/
def twf {V : Type} [DecidableEq V] (d : V) : Tab V → Bool
  | [] => true
  | [(_, v)] => v ≠ d
  | (k, v) :: (k', v') :: t => v ≠ d && k < k' && twf d ((k', v') :: t)

/-! ## Byte memory -/

/-- The memories as one list of cells (R196, R336); an unlisted byte reads 0. -/
abbrev Memory := List Host.Cell

/-- The canonical form of memory. -/
def Memory.wf (m : Memory) : Bool := twf (0 : Byte) m

/-- Read one byte. -/
def readByte (m : Memory) (a : Nat) : Byte := tget 0 m a

/-- Write one byte. -/
def writeByte (m : Memory) (a : Nat) (v : Byte) : Memory := tset 0 m a v

/-- The bytes of `n` addresses from `a`, the first the least significant (R1). -/
def readNat (m : Memory) (a : Nat) : Nat → Nat
  | 0 => 0
  | n + 1 => (readByte m a).toNat + 256 * readNat m (a + 1) n

/-- Write the low `n` bytes of `v` from `a`, the least significant first (R1). -/
def writeNat (m : Memory) (a : Nat) : Nat → Nat → Memory
  | 0, _ => m
  | n + 1, v => writeNat (writeByte m a (BitVec.ofNat 8 v)) (a + 1) n (v / 256)

/-- Write bytes by address, in list order. -/
def writeCells (m : Memory) : List Host.Cell → Memory
  | [] => m
  | (a, v) :: t => writeCells (writeByte m a v) t

/-! ## On-chip memories in the model's address space -/

/-- First byte of the on-chip memories: above every physical address of R336. -/
def onChip : Nat := 2 ^ 52

/-- Byte address of an array's pad (R199: 8 MiB). -/
def padBase (a : Nat) : Nat := onChip + a * 2 ^ 23

/-- Byte address of a live die's die memory (R202: 32 MiB). -/
def dieBase (d : Nat) : Nat := onChip + 2 ^ 30 + d * 2 ^ 25

/-- Number of a cell: its array, its row within the array and its column. -/
def cellNo (a r c : Nat) : Nat := (a * 32 + r % 32) * 32 + c

/-- Byte address of a cell's SRAM (R141: 16 KiB). -/
def cellBase (n : Nat) : Nat := onChip + 2 ^ 31 + n * 2 ^ 14

/-- Bytes of the ECC word that holds an address: 8 below the on-chip memories, 4 in them (R142, R211). -/
def eccSize (a : Nat) : Nat := if a < onChip then 8 else 4

/-- First byte of the ECC word that holds an address. -/
def eccWord (a : Nat) : Nat := a / eccSize a * eccSize a

/-! ## Lists and vectors -/

/-- Element `n` of a vector; `d` beyond its end. -/
def vget {α : Type} {n : Nat} (d : α) (v : Vector α n) (i : Nat) : α := (v[i]?).getD d

/-- Write element `i`; nothing beyond the end. -/
def vset {α : Type} {n : Nat} (v : Vector α n) (i : Nat) (x : α) : Vector α n := v.setIfInBounds i x

/-- Change element `i`. -/
def vmod {α : Type} {n : Nat} (d : α) (v : Vector α n) (i : Nat) (f : α → α) : Vector α n := vset v i (f (vget d v i))

/-- Change element `i` of a list. -/
def lmod {α : Type} : List α → Nat → (α → α) → List α
  | [], _, _ => []
  | x :: t, 0, f => f x :: t
  | x :: t, n + 1, f => x :: lmod t n f

/-- Remove element `i` of a list. -/
def ldel {α : Type} : List α → Nat → List α
  | [], _ => []
  | _ :: t, 0 => t
  | x :: t, n + 1 => x :: ldel t n

/-- The numbers `0 … n - 1` that meet a test. -/
def below (n : Nat) (p : Nat → Bool) : List Nat := (List.range n).filter p

/-! ## Bits -/

/-- Bits `[hi:lo]` of a word as a number. -/
def bitsOf {w : Nat} (v : BitVec w) (hi lo : Nat) : Nat := v.toNat / 2 ^ lo % 2 ^ (hi + 1 - lo)

/-- `v` with bits `[hi:lo]` replaced. -/
def setBits {w : Nat} (v : BitVec w) (hi lo x : Nat) : BitVec w :=
  (v &&& ~~~ (BitVec.ofNat w ((2 ^ (hi + 1 - lo) - 1) * 2 ^ lo))) ||| BitVec.ofNat w (x % 2 ^ (hi + 1 - lo) * 2 ^ lo)

/-- `v` with bit `i` set to `x`. -/
def setBit {w : Nat} (v : BitVec w) (i : Nat) (x : Bool) : BitVec w :=
  if x then v ||| BitVec.ofNat w (2 ^ i) else v &&& ~~~ (BitVec.ofNat w (2 ^ i))

/-- A condition as 0 or 1. -/
def bnat (b : Bool) : Nat := if b then 1 else 0

/-- Number of one bits. -/
def popc {w : Nat} (v : BitVec w) : Nat := ((List.range w).filter fun i => v.getLsbD i).length

/-- Number of leading zero bits. -/
def clzOf {w : Nat} (v : BitVec w) : Nat := if v = 0 then w else w - 1 - Nat.log2 v.toNat

/-- A mask of the low `n` bits. -/
def lowMask (w n : Nat) : BitVec w := BitVec.ofNat w (2 ^ n - 1)

/-- Quotient rounded up. -/
def ceilDiv (a b : Nat) : Nat := (a + b - 1) / b

/-- The least power of two not below `n`. -/
def pow2Up (n : Nat) : Nat := if n ≤ 1 then 1 else 2 ^ (Nat.log2 (n - 1) + 1)

/-- Quotient of integers truncated toward zero (R117). -/
def tdivI (a b : Int) : Int :=
  let q : Int := (a.natAbs / b.natAbs : Nat)
  if (a < 0) = (b < 0) then q else -q

/-! ## Fragments and sidecars -/

/-- Lane `k` of a fragment (R135). -/
def lane (f : Frag) (k : Nat) : Lane := BitVec.ofNat 32 (f.toNat / 2 ^ (32 * k))

/-- The fragment whose lane `k` is `g k`, for the lanes from 0 up. -/
def fragGo (g : Nat → Lane) : Nat → Nat → Nat
  | 0, _ => 0
  | n + 1, k => (g k).toNat + 2 ^ 32 * fragGo g n (k + 1)

/-- The fragment whose lane `k` is `g k`. -/
def fragOf (g : Nat → Lane) : Frag := BitVec.ofNat 1024 (fragGo g 32 0)

/-- The fragment of a list of lanes; lanes beyond the list are 0. -/
def fragOfList (l : List Lane) : Frag := BitVec.ofNat 1024 (l.foldr (fun x acc => x.toNat + 2 ^ 32 * acc) 0)

/-- The lanes of a fragment, lane 0 first. -/
def lanes (f : Frag) : List Lane := (List.range 32).map (lane f)

/-- Header `g` of a sidecar (R186). -/
def header (s : Side) (g : Nat) : BitVec 16 := BitVec.ofNat 16 (s.toNat / 2 ^ (16 * g))

end Sys2Proof.Machine
end

