-- ==== Sys2Proof/Machine/Numbers.lean ====
section
/-! DEFINITION. The number formats and the arithmetic of R71 to R95: values held exactly as dyadic numbers, one rounding, and
the flags it raises. -/

namespace Sys2Proof.Machine

/-- The six sticky exceptions in the order of R95. -/
abbrev Flags := BitVec 6

/-- Invalid (R95). -/
def fNV : Flags := 1
/-- Division by zero (R95). -/
def fDZ : Flags := 2
/-- Overflow (R95). -/
def fOF : Flags := 4
/-- Underflow (R95). -/
def fUF : Flags := 8
/-- Inexact (R95). -/
def fNX : Flags := 16
/-- Integer overflow (R95). -/
def fIOV : Flags := 32

/-- A binary floating-point format (R71). -/
structure Fmt where
  ebits : Nat
  fbits : Nat
  bias : Nat
  /-- E4M3: no infinity, and NaN only at all ones. -/
  e4m3 : Bool := false
  deriving DecidableEq, Repr

/-- FP32 (R71). -/
def fp32 : Fmt := { ebits := 8, fbits := 23, bias := 127 }
/-- FP16 (R71). -/
def fp16 : Fmt := { ebits := 5, fbits := 10, bias := 15 }
/-- BF16 (R71). -/
def bf16 : Fmt := { ebits := 8, fbits := 7, bias := 127 }
/-- FP8 E4M3 (R71). -/
def e4m3 : Fmt := { ebits := 4, fbits := 3, bias := 7, e4m3 := true }
/-- FP8 E5M2 (R71). -/
def e5m2 : Fmt := { ebits := 5, fbits := 2, bias := 15 }

/-- Place of the sign bit. -/
def Fmt.signBit (F : Fmt) : Nat := F.ebits + F.fbits

/-- Largest finite magnitude as an encoding (R71). -/
def Fmt.maxFin (F : Fmt) : Nat :=
  if F.e4m3 then 0x7E else (2 ^ F.ebits - 1) * 2 ^ F.fbits - 1

/-- Canonical NaN (R71, R72). -/
def Fmt.nan (F : Fmt) : Nat :=
  if F.e4m3 then 0x7F else (2 ^ F.ebits - 1) * 2 ^ F.fbits + 2 ^ (F.fbits - 1)

/-- Infinity, for the formats that have one (R71). -/
def Fmt.inf (F : Fmt) (neg : Bool) : Nat :=
  (2 ^ F.ebits - 1) * 2 ^ F.fbits + bnat neg * 2 ^ F.signBit

/-- A value read from a format: a NaN, an infinity, or the finite number (−1)^neg × m × 2^e; a zero keeps its sign (R73). -/
inductive FVal where
  | nan
  | inf (neg : Bool)
  | fin (neg : Bool) (m : Nat) (e : Int)
  deriving DecidableEq, Repr

/-- Exponent of the least significant bit of a subnormal. -/
def Fmt.qmin (F : Fmt) : Int := 1 - (F.bias : Int) - F.fbits

/-- Read an encoding; under FTZ a subnormal reads as zero of its sign (R71, R79). -/
def Fmt.read (F : Fmt) (ftz : Bool) (x : Nat) : FVal :=
  let neg := x / 2 ^ F.signBit % 2 = 1
  let ex := x / 2 ^ F.fbits % 2 ^ F.ebits
  let fr := x % 2 ^ F.fbits
  if F.e4m3 && x % 2 ^ F.signBit = 0x7F then .nan
  else if !F.e4m3 && ex = 2 ^ F.ebits - 1 then (if fr = 0 then .inf neg else .nan)
  else if ex = 0 then .fin neg (if ftz then 0 else fr) F.qmin
  else .fin neg (fr + 2 ^ F.fbits) (F.qmin + (ex - 1 : Nat))

/-- Arithmetic environment of a word: rounding mode (R80) and FTZ (R79). -/
structure Env where
  rm : Nat := 0
  ftz : Bool := false
  deriving DecidableEq, Repr

/-- RNE, honouring subnormals (R81). -/
def Env.rne : Env := {}

/-- SR acting as RNE (R81). -/
def Env.noSr (v : Env) : Env := { v with rm := if v.rm = 4 then 0 else v.rm }

/-- RNE under the word's FTZ (R81). -/
def Env.toRne (v : Env) : Env := { v with rm := 0 }

/-- Whether a magnitude is rounded away from zero: mode, sign, last kept bit, the discarded part `rem` of `2^sh`, whether
anything non-zero lies below it, and the draw (R80, R84). -/
def roundUp (rm : Nat) (neg odd : Bool) (rem sh : Nat) (sticky : Bool) (g : Nat) : Bool :=
  let some := rem ≠ 0 || sticky
  if rm = 1 then false
  else if rm = 2 then some && !neg
  else if rm = 3 then some && neg
  else if rm = 4 then
    let w := if sh ≥ 16 then rem / 2 ^ (sh - 16) else rem * 2 ^ (16 - sh)
    let low := sticky || (sh ≥ 16 && rem % 2 ^ (sh - 16) ≠ 0)
    let w := if low && w % 2 = 0 then w + 1 else w
    w + g ≥ 2 ^ 16
  else
    let twice := 2 * rem
    if twice > 2 ^ sh then true
    else if twice = 2 ^ sh then sticky || odd
    else false

/-- The magnitude `m × 2^e` (with something non-zero below it when `sticky`) at the place `q`: what is kept, the part
discarded, and its width in bits. -/
def cutAt (m : Nat) (e q : Int) : Nat × Nat × Nat :=
  if q ≤ e then (m * 2 ^ (e - q).toNat, 0, 0)
  else (m / 2 ^ (q - e).toNat, m % 2 ^ (q - e).toNat, (q - e).toNat)

/-- Round a finite non-zero magnitude to a format: the encoding and the flags (R80 to R84, R79). -/
def Fmt.round (F : Fmt) (v : Env) (g : Nat) (neg : Bool) (m : Nat) (e : Int) (sticky : Bool) : Nat × Flags :=
  let top : Int := e + (Nat.log2 m : Nat)
  let s := bnat neg * 2 ^ F.signBit
  let qn := top - F.fbits
  let q := if qn < F.qmin then F.qmin else qn
  let (k, rem, sh) := cutAt m e q
  let inexact := rem ≠ 0 || sticky
  let enc0 := (q - F.qmin).toNat * 2 ^ F.fbits + k
  -- SR of a magnitude beyond the largest finite value is RNE's (R84)
  let rm := if v.rm = 4 && (enc0 > F.maxFin || (enc0 = F.maxFin && inexact)) then 0 else v.rm
  let enc := if roundUp rm neg (k % 2 = 1) rem sh sticky g then enc0 + 1 else enc0
  if enc > F.maxFin then
    let mag :=
      if F.e4m3 then F.maxFin
      else if rm = 1 || (rm = 2 && neg) || (rm = 3 && !neg) then F.maxFin
      else F.inf false
    (s + mag, fOF ||| fNX)
  else if v.ftz && enc ≠ 0 && enc < 2 ^ F.fbits then (s, fUF ||| fNX)
  else
    -- tininess after rounding with the exponent unbounded (R82)
    let (k', rem', sh') := cutAt m e qn
    let up' := roundUp rm neg (k' % 2 = 1) rem' sh' sticky g
    let tiny := qn < F.qmin && !(up' && k' + 1 = 2 ^ (F.fbits + 1) && qn + 1 = F.qmin)
    (s + enc, if inexact then (if tiny then fUF ||| fNX else fNX) else 0)

/-- Write an exact value in a format, rounded once (R86 for the special values). -/
def Fmt.put (F : Fmt) (v : Env) (g : Nat) : FVal → Nat × Flags
  | .nan => (F.nan, 0)
  | .inf neg => if F.e4m3 then (F.nan, fNV) else (F.inf neg, 0)
  | .fin neg m e => if m = 0 then (bnat neg * 2 ^ F.signBit, 0) else F.round v g neg m e false

/-! ## Exact sums and products -/

/-- A value with its sign changed (exact). -/
def FVal.neg : FVal → FVal
  | .nan => .nan
  | .inf n => .inf !n
  | .fin n m e => .fin (!n) m e

/-- A value with its sign changed on a condition. -/
def FVal.negIf (c : Bool) (x : FVal) : FVal := if c then x.neg else x

def FVal.isNan : FVal → Bool
  | .nan => true
  | _ => false

def FVal.isInf : FVal → Bool
  | .inf _ => true
  | _ => false

def FVal.isZero : FVal → Bool
  | .fin _ m _ => m = 0
  | _ => false

def FVal.isNeg : FVal → Bool
  | .nan => false
  | .inf n => n
  | .fin n _ _ => n

/-- A product of factors, none a NaN: `none` where it is ∞ × 0 (R87). -/
def prodV (fs : List FVal) : Option FVal :=
  let neg := fs.foldl (fun s x => s != x.isNeg) false
  if fs.any FVal.isInf then (if fs.any FVal.isZero then none else some (.inf neg))
  else
    let (m, e) := fs.foldl (fun (me : Nat × Int) x =>
      match x with
      | .fin _ m e => (me.1 * m, me.2 + e)
      | _ => me) (1, 0)
    some (.fin neg m (if m = 0 then 0 else e))

/-- Exact sum of finite terms as an integer scaled by 2^e. -/
def sumAt (e : Int) : List FVal → Int
  | [] => 0
  | .fin n m x :: t => (if n then -((m * 2 ^ (x - e).toNat : Nat) : Int) else ((m * 2 ^ (x - e).toNat : Nat) : Int)) + sumAt e t
  | _ :: t => sumAt e t

/-- Least exponent among the non-zero finite terms; `d` where there is none. -/
def leastExp (d : Int) : List FVal → Int
  | [] => d
  | .fin _ m x :: t =>
    let r := leastExp d t
    if m = 0 then r else if t.all (fun y => y.isZero) then x else (if x < r then x else r)
  | _ :: t => leastExp d t

/-- Exact sum of finite terms, the sign of a zero by R73. -/
def sumFin (rm : Nat) (ts : List FVal) : FVal :=
  let e := leastExp 0 ts
  let s := sumAt e ts
  if s = 0 then
    .fin (if ts ≠ [] && ts.all (fun x => x.isZero && x.isNeg) then true
          else if ts ≠ [] && ts.all (fun x => x.isZero && !x.isNeg) then false
          else rm = 3) 0 0
  else .fin (s < 0) s.natAbs e

/-- EXACT of a sum of addends and products under the case order of R90 (and R87): the value and NV. -/
def exactSum (rm : Nat) (adds : List FVal) (prods : List (List FVal)) : FVal × Flags :=
  if adds.any FVal.isNan || prods.any (fun fs => fs.any FVal.isNan) then (.nan, 0)
  else
    let ps := prods.map prodV
    if ps.any (fun x => x.isNone) then (.nan, fNV)
    else
      let ts := adds ++ ps.filterMap id
      let pos := ts.any fun x => x.isInf && !x.isNeg
      let neg := ts.any fun x => x.isInf && x.isNeg
      if pos && neg then (.nan, fNV)
      else if pos then (.inf false, 0)
      else if neg then (.inf true, 0)
      else (sumFin rm ts, 0)

/-- Round the exact sum once into a format (R87, R90). -/
def Fmt.sum (F : Fmt) (v : Env) (g : Nat) (adds : List FVal) (prods : List (List FVal)) : Nat × Flags :=
  let (x, fl) := exactSum v.rm adds prods
  let (r, fl') := F.put v g x
  (r, fl ||| fl')

/-- Order of two non-NaN values: whether the first is strictly below the second; zeros are equal (R73, R87). -/
def ltV : FVal → FVal → Bool
  | .inf a, .inf b => a && !b
  | .inf a, .fin _ _ _ => a
  | .fin _ _ _, .inf b => !b
  | .fin a m e, .fin b n x =>
    match sumFin 0 [.fin a m e, .fin (!b) n x] with
    | .fin s k _ => s && k ≠ 0
    | _ => false
  | _, _ => false

/-- Equality of two non-NaN values (R73). -/
def eqV (x y : FVal) : Bool := !x.isNan && !y.isNan && !ltV x y && !ltV y x

/-- FMIN and FMAX under R87. -/
def minV (x y : FVal) : FVal :=
  if x.isNan then y else if y.isNan then x
  else if x.isZero && y.isZero then (if x.isNeg then x else y)
  else if ltV y x then y else x

/-- FMAX under R87. -/
def maxV (x y : FVal) : FVal :=
  if x.isNan then y else if y.isNan then x
  else if x.isZero && y.isZero then (if x.isNeg then y else x)
  else if ltV x y then y else x

/-! ## Root, reciprocal, power and logarithm -/

/-- Largest r + (sum of powers of two below 2^k) whose square is at most `n`. -/
def isqrtGo (n : Nat) : Nat → Nat → Nat
  | 0, r => r
  | k + 1, r => isqrtGo n k (if (r + 2 ^ k) * (r + 2 ^ k) ≤ n then r + 2 ^ k else r)

/-- Integer square root. -/
def isqrt (n : Nat) : Nat := isqrtGo n (Nat.log2 n / 2 + 1) 0

/-- A number with an even exponent. -/
def evenExp (m : Nat) (e : Int) : Nat × Int := if e % 2 = 0 then (m, e) else (2 * m, e - 1)

/-- 1/x correctly rounded (R88). -/
def rcpV (v : Env) : FVal → Nat × Flags
  | .nan => (fp32.nan, 0)
  | .inf n => (bnat n * 2 ^ 31, 0)
  | .fin n m e =>
    if m = 0 then (fp32.inf n, fDZ)
    else fp32.round v 0 n (2 ^ 100 / m) (-e - 100) (2 ^ 100 % m ≠ 0)

/-- √x correctly rounded (R88). -/
def sqrtV (v : Env) : FVal → Nat × Flags
  | .nan => (fp32.nan, 0)
  | .inf n => if n then (fp32.nan, fNV) else (fp32.inf false, 0)
  | .fin n m e =>
    if m = 0 then (bnat n * 2 ^ 31, 0)
    else if n then (fp32.nan, fNV)
    else
      let (m', e') := evenExp m e
      let r := isqrt (m' * 2 ^ 80)
      fp32.round v 0 false r (e' / 2 - 40) (r * r ≠ m' * 2 ^ 80)

/-- 1/√x correctly rounded (R88). -/
def rsqV (v : Env) : FVal → Nat × Flags
  | .nan => (fp32.nan, 0)
  | .inf n => if n then (fp32.nan, fNV) else (0, 0)
  | .fin n m e =>
    if m = 0 then (fp32.inf n, fDZ)
    else if n then (fp32.nan, fNV)
    else
      let (m', e') := evenExp m e
      let r := isqrt (2 ^ 200 / m')
      fp32.round v 0 false r (-(e' / 2) - 100) (m' * (r * r) ≠ 2 ^ 200)

/-- A quotient correctly rounded (R193). -/
def divV (v : Env) (x y : FVal) : Nat × Flags :=
  match x, y with
  | .nan, _ | _, .nan => (fp32.nan, 0)
  | .inf _, .inf _ => (fp32.nan, fNV)
  | .inf a, .fin b _ _ => (fp32.inf (a != b), 0)
  | .fin a _ _, .inf b => (bnat (a != b) * 2 ^ 31, 0)
  | .fin a m e, .fin b n f =>
    if n = 0 then (if m = 0 then (fp32.nan, fNV) else (fp32.inf (a != b), fDZ))
    else if m = 0 then (bnat (a != b) * 2 ^ 31, 0)
    else fp32.round v 0 (a != b) (m * 2 ^ 100 / n) (e - f - 100) (m * 2 ^ 100 % n ≠ 0)

/-- Fraction bits of the fixed-point numbers of FEX2 and FLG2. -/
def fxBits : Nat := 300

/-- Σ z^(2k+1)/(2k+1) over `n` terms from the odd number `d`, with `p` = z^d and `z2` = z². -/
def atanhGo (z2 : Nat) : Nat → Nat → Nat → Nat
  | 0, _, _ => 0
  | n + 1, d, p => p / d + atanhGo z2 n (d + 2) (p * z2 / 2 ^ fxBits)

/-- atanh of a fixed-point number up to 1/3. -/
def atanhFx (z : Nat) : Nat := atanhGo (z * z / 2 ^ fxBits) 100 1 z

/-- ln 2 in fixed point. -/
def ln2Fx : Nat := 2 * atanhFx (2 ^ fxBits / 3)

/-- Σ z^k/k! over `n` terms from `k`, with `t` = z^(k-1)/(k-1)!. -/
def expGo (z : Nat) : Nat → Nat → Nat → Nat
  | 0, _, _ => 0
  | n + 1, k, t => t + expGo z n (k + 1) (t * z / 2 ^ fxBits / k)

/-- 2^f in fixed point, for a fixed-point fraction f below 1. -/
def exp2Fx (f : Nat) : Nat := expGo (f * ln2Fx / 2 ^ fxBits) 90 1 (2 ^ fxBits)

/-- 2^x correctly rounded (R88). -/
def ex2V (v : Env) : FVal → Nat × Flags
  | .nan => (fp32.nan, 0)
  | .inf n => (if n then 0 else fp32.inf false, 0)
  | .fin n m e =>
    if m = 0 then (0x3F800000, 0)
    else if e + (Nat.log2 m : Nat) ≥ 9 then
      (if n then fp32.round v 0 false 1 (-600) true else fp32.round v 0 false 1 600 false)
    else
      let mag := m * 2 ^ (e + fxBits).toNat
      let x : Int := if n then -(mag : Int) else mag
      let k := x / (2 ^ fxBits : Nat)
      let f := (x % (2 ^ fxBits : Nat)).toNat
      if f = 0 then fp32.round v 0 false 1 k false
      else fp32.round v 0 false (exp2Fx f) (k - fxBits) true

/-- log2 x correctly rounded (R88). -/
def lg2V (v : Env) : FVal → Nat × Flags
  | .nan => (fp32.nan, 0)
  | .inf n => if n then (fp32.nan, fNV) else (fp32.inf false, 0)
  | .fin n m e =>
    if m = 0 then (fp32.inf true, fDZ)
    else if n then (fp32.nan, fNV)
    else
      let l := Nat.log2 m
      let k : Int := e + (l : Nat)
      let one := 2 ^ l
      if m = one then
        (if k = 0 then (0, 0) else fp32.round v 0 (k < 0) k.natAbs 0 false)
      else
        let z := (m - one) * 2 ^ fxBits / (m + one)
        let lg := 2 * atanhFx z * 2 ^ fxBits / ln2Fx
        let x : Int := k * (2 ^ fxBits : Nat) + (lg : Nat)
        fp32.round v 0 (x < 0) x.natAbs (-(fxBits : Int)) true

/-! ## Integer conversions -/

/-- FP32 to INT32 (R86). -/
def toI32 (v : Env) : FVal → Nat × Flags
  | .nan => (0, fNV)
  | .inf n => (if n then 0x80000000 else 0x7FFFFFFF, fNV)
  | .fin n m e =>
    let (k, rem, sh) := cutAt m e 0
    let r := if roundUp v.rm n (k % 2 = 1) rem sh false 0 then k + 1 else k
    if n then
      (if r > 2 ^ 31 then (0x80000000, fNV) else ((2 ^ 32 - r) % 2 ^ 32, if rem = 0 then 0 else fNX))
    else
      (if r > 2 ^ 31 - 1 then (0x7FFFFFFF, fNV) else (r, if rem = 0 then 0 else fNX))

/-- INT32 to FP32 (R86). -/
def ofI32 (v : Env) (x : Lane) : Nat × Flags :=
  fp32.put v 0 (.fin (x.toInt < 0) x.toInt.natAbs 0)

/-- `m × 2^e` to `n` significant bits, RNE, exponent unbounded (R94). -/
def rneSig (n m : Nat) (e : Int) : Nat × Int :=
  let q := e + (Nat.log2 m : Nat) + 1 - n
  if q ≤ e then (m, e)
  else
    let (k, rem, sh) := cutAt m e q
    (if roundUp 0 false (k % 2 = 1) rem sh false 0 then k + 1 else k, q)

/-! ## The block-scaled format -/

/-- The value of an E2M1 code other than 0b1000 (R75): twice the value, as a signed integer. -/
def e2m1Half (c : Nat) : Int :=
  let m : Int := [0, 1, 2, 3, 4, 6, 8, 12].getD (c % 8) 0
  if c / 8 % 2 = 1 then -m else m

/-- A block scale UE6M2 (R77). -/
inductive Scale where
  | zero
  | nan
  | val (m : Nat) (e : Int)
  deriving DecidableEq, Repr

/-- Read a block scale (R77). -/
def scaleOf (s : Nat) : Scale :=
  if s = 0 then .zero else if s = 0xFF then .nan else .val (4 + s % 4) ((s / 4 : Nat) - 33)

/-- The code value of an element of a block, V in place of 0b1000 (R75, R78). -/
def codeVal (hdr : BitVec 16) (c : Nat) : FVal :=
  if c = 8 then e4m3.read false (hdr.toNat % 256)
  else
    let h := e2m1Half c
    .fin (h < 0) h.natAbs (-1)

end Sys2Proof.Machine
end

