-- ==== Sys2Proof/Machine/Access.lean ====
section
/-! DEFINITION. The accessors of State: arrays and their sequencers, chains (R16 to R18), and the cell registers (R135). -/

namespace Sys2Proof.Machine

/-- The outcome of a meaning: always a next state, since the part's own faults are taken. -/
abbrev MOut := Host.Outcome State Fault Refusal

/-! ## Arrays and sequencers -/

/-- Array `a`. -/
def arr (s : State) (a : Nat) : Arr := vget {} s.arrs a

/-- Replace array `a`. -/
def setArr (s : State) (a : Nat) (x : Arr) : State := { s with arrs := vset s.arrs a x }

/-- Change array `a`. -/
def modArr (s : State) (a : Nat) (f : Arr → Arr) : State := setArr s a (f (arr s a))

/-- The sequencer of array `a`. -/
def seqAt (s : State) (a : Nat) : Seq := (arr s a).seq

/-- Change the sequencer of array `a`. -/
def modSeq (s : State) (a : Nat) (f : Seq → Seq) : State := modArr s a fun x => { x with seq := f x.seq }

/-- The sequencer the SC, KA and KB meanings act for. -/
def curSeq (s : State) : Seq := seqAt s s.cur.val

/-- Change the sequencer the SC, KA and KB meanings act for. -/
def modCur (s : State) (f : Seq → Seq) : State := modSeq s s.cur.val f

/-- The array the SC, KA and KB meanings act for. -/
def curArr (s : State) : Arr := arr s s.cur.val

/-- What stopped issue is done: what a later slot of the bundle began follows, and then what else holds the next bundle. -/
def Seq.pendOver (q : Seq) : Seq :=
  { q with after := q.afterNext, afterNext := none
           stop := if q.stop ≠ .pend then q.stop else if q.afterNext.isSome then .pend else q.goOn }

/-- Issue stops until `x`, begun by the slot under way, is done. -/
def Seq.pendFor (q : Seq) (x : Pend) : Seq :=
  if q.after.isSome then { q with afterNext := some x }
  else { q with after := some x, goOn := if q.stop = .pend then q.goOn else q.stop, stop := .pend }

/-- Partition `p`. -/
def partAt (s : State) (p : Nat) : Part := vget {} s.parts p

/-- Change partition `p`. -/
def modPart (s : State) (p : Nat) (f : Part → Part) : State :=
  { s with parts := vset s.parts p (f (partAt s p)) }

/-- The partition of the running sequencer (R13). -/
def curPart (s : State) : Nat := (curSeq s).part

/-! ## Chains -/

/-- Place of a live die among the live dies (R9). -/
def liveOf (s : State) (d : Nat) : Nat := if d > s.pkg.harvested then d - 1 else d

/-- The compute die of an array (R9). -/
def dieOfArr (s : State) (a : Nat) : Nat := let k := a / 4; if k ≥ s.pkg.harvested then k + 1 else k

/-- The array at chain position `p` of a placement given by its top array and second die (R16). -/
def chainArr (s : State) (top die2 p : Nat) : Nat := if p < 4 then top + p else 4 * liveOf s die2 + (p - 4)

/-- The arrays of a placement, top first. -/
def chainOf (s : State) (top : Nat) : List Nat :=
  (List.range (seqAt s top).len).map (chainArr s top (seqAt s top).die2)

/-- Rows of a placement (R17). -/
def chainRows (s : State) (top : Nat) : Nat := 32 * (seqAt s top).len

/-- Joint delay of a row (R17). -/
def jointOf (r : Nat) : Nat := let p := r / 32; if p ≤ 3 then p else p + 5

/-- R + J + 36 of a chain length (R157). -/
def aggOffset (len : Nat) : Nat := 32 * len + jointOf (32 * len - 1) + 36

/-! ## Cell registers -/

/-- Number of the cell at chain row `r`, column `c` of the placement topped by `top`. -/
def cellAt (s : State) (top r c : Nat) : Nat :=
  cellNo (chainArr s top (seqAt s top).die2 (r / 32)) r c

/-- Cells of a placement. -/
def chainCells (s : State) (a : Nat) : List Nat :=
  (List.range (chainRows s a)).flatMap fun r => (List.range 32).map fun c => cellAt s a r c

/-- Key of a cell register: the cell and its operand code (R52). -/
def cellKey (n code : Nat) : Nat := n * 64 + code

/-- The fragment of a cell register. -/
def getFrag (s : State) (n code : Nat) : Frag := tget 0 s.frags (cellKey n code)

/-- The sidecar of a cell register. -/
def getSide (s : State) (n code : Nat) : Side := tget 0 s.sides (cellKey n code)

/-- Write the fragment of a cell register. -/
def setFrag (s : State) (n code : Nat) (f : Frag) : State := { s with frags := tset 0 s.frags (cellKey n code) f }

/-- Write the sidecar of a cell register. -/
def setSide (s : State) (n code : Nat) (x : Side) : State := { s with sides := tset 0 s.sides (cellKey n code) x }

/-- F of a cell (R136). -/
def getF (s : State) (n : Nat) : Word := tget 0 s.flags n

/-- Write F of a cell. -/
def setF (s : State) (n : Nat) (x : Word) : State := { s with flags := tset 0 s.flags n x }

/-- The generator of a cell (R143): 1 where nothing has seeded it (log 6). -/
def getG (s : State) (n : Nat) : BitVec 32 := tget 1 s.gens n

/-- Write the generator of a cell. -/
def setG (s : State) (n : Nat) (x : BitVec 32) : State := { s with gens := tset 1 s.gens n x }

/-- Operand codes of R52. -/
def codeL : Nat := 8
def codeC : Nat := 9
def codeN : Nat := 10
def codeS : Nat := 11
def codeE : Nat := 12
def codeW : Nat := 13
def codeZ : Nat := 14
def codeI : Nat := 15
def codeA0 : Nat := 16
def codeM0 : Nat := 32

/-- Whether a code names an accumulator. -/
def isAcc (c : Nat) : Bool := 16 ≤ c && c < 32

/-- Whether a code names a main-file register. -/
def isMain (c : Nat) : Bool := 32 ≤ c && c < 64

/-- Whether a register of this code carries a sidecar: o, m and C (R135). -/
def hasSide (c : Nat) : Bool := c < 8 || c = codeC || isMain c

/-! ## Task and tile tables -/

/-- An entry of a partition's tile table (R360): keys are the global tile number. -/
def tileAt (s : State) (n : Nat) : Tile := tget {} s.tiles n

/-- Write an entry of the tile table. -/
def setTile (s : State) (n : Nat) (t : Tile) : State := { s with tiles := tset {} s.tiles n t }

/-- Change an entry of the tile table. -/
def modTile (s : State) (n : Nat) (f : Tile → Tile) : State := setTile s n (f (tileAt s n))

/-- The tile a slot value names: `none` when the slot is unbound (R103). -/
def slotTile (v : BitVec 15) : Option Nat := if v.getLsbD 14 then some (v.toNat % 2 ^ 14) else none

/-- Task `i`. -/
def taskAt (s : State) (i : Nat) : Option Task := s.tasks[i]?

/-- Change task `i`. -/
def modTask (s : State) (i : Nat) (f : Task → Task) : State := { s with tasks := lmod s.tasks i f }

/-- Whether some placement has attached tile `k` as its residual tile (R263). -/
def isResid (s : State) (k : Nat) : Bool := s.arrs.toList.any fun x => x.seq.residTile = some k

/-- Draw a free value's index (log 2). -/
def drawFree (s : State) : Nat × State := (s.free, { s with free := s.free + 1 })

/-- Two cells of memory words: the 32-bit word at a byte address. -/
def readW32 (s : State) (a : Nat) : BitVec 32 := BitVec.ofNat 32 (readNat s.mem a 4)

/-- Write a 32-bit word and clear its poison mark: a whole write replaces an erroneous word (R142, R211). -/
def writeW32 (s : State) (a : Nat) (v : BitVec 32) : State :=
  { s with mem := writeNat s.mem a 4 v.toNat, poison := tdel s.poison a, ecc := tdel s.ecc a }

/-- Add one, saturating (R424). -/
def satInc (x : BitVec 32) : BitVec 32 := if x = 0xFFFFFFFF then x else x + 1

/-- Count an error found: corrected, or uncorrectable (R424). -/
def countErr (s : State) (u : Nat) (ue : Bool) : State :=
  let (c, x) := tget ((0 : BitVec 32), (0 : BitVec 32)) s.errs u
  { s with errs := tset ((0 : BitVec 32), (0 : BitVec 32)) s.errs u (if ue then (c, satInc x) else (satInc c, x)) }

end Sys2Proof.Machine
end

