-- ==== Sys2Proof/Machine/Flags.lean ====
section
/-! DEFINITION. The flag register F of a cell, its lane flags and sticky bits (R136, R155), and the aggregates of a word (R156). -/

namespace Sys2Proof.Machine

/-- The lane flags of a fragment: bit k is 1 when lane k is not all zero bits (R155). -/
def laneFlags (f : Frag) : BitVec 32 :=
  BitVec.ofNat 32 ((List.range 32).foldl (fun acc k => if lane f k = 0 then acc else acc + 2 ^ k) 0)

/-- F with LF and CF set from a fragment (R155). -/
def setLaneFlags (F : Word) (f : Frag) : Word :=
  let lf := laneFlags f
  setBit (setBits F 31 0 lf.toNat) 32 (lf ≠ 0)

/-- F with exceptions ORed into its sticky bits (R96, R136). -/
def orSticky (F : Word) (fl : Flags) : Word := F ||| BitVec.ofNat 64 (fl.toNat * 2 ^ 33)

/-- LF of F. -/
def lfOf (F : Word) : BitVec 32 := BitVec.ofNat 32 F.toNat

/-- CF of F. -/
def cfOf (F : Word) : Bool := F.getLsbD 32

/-- Bit of POISON in F. -/
def poisonBit : Nat := 39

/-- CF after a FLAG: the AND (`all`) or the OR of the lane flags under a mask (R171). -/
def flagCf (F : Word) (m : BitVec 32) (all : Bool) : Bool :=
  if all then (lfOf F &&& m) = m else (lfOf F &&& m) ≠ 0

/-- F after a FLAG with lane mask `m` and control word `ctl` (R171). -/
def flagF (F : Word) (m ctl : BitVec 32) : Word :=
  let F1 := setBit F 32 (flagCf F m (ctl.getLsbD 7))
  F1 &&& ~~~ (BitVec.ofNat 64 (ctl.toNat % 2 ^ 7 * 2 ^ 33))

/-- The aggregates a word delivers, from what its cells contributed (R156). -/
def aggregatesOf (w : WordF) (rows : Nat) : Aggregates :=
  let inRows : BitVec 256 := lowMask 256 rows
  { rowAny := w.rowSet &&& inRows
    rowAll := ~~~ w.rowClr &&& inRows
    colAny := w.colSet
    colAll := ~~~ w.colClr
    any := w.rowSet ≠ 0
    all := w.rowClr = 0
    err := w.err
    flags := w.flags
    wordNo := BitVec.ofNat 32 w.no }

end Sys2Proof.Machine
end

