-- ==== Sys2Proof/Machine/Operands.lean ====
section
/-! DEFINITION. The operand forms of a cell slot (R52, R149 to R152), the gating of a slot (R147), its located faults (R159), and
the writing of its result (R138 to R140). All act in the cell the cursor `State.cell` names. -/

namespace Sys2Proof.Machine

/-- The cell under the cursor. -/
def curCell (s : State) : Nat := cellAt s s.cell.top s.cell.row s.cell.col

/-- The arithmetic environment of the word (R180). -/
def curEnv (s : State) : Env := { rm := bitsOf s.cell.fmt 2 0, ftz := s.cell.fmt.getLsbD 3 }

/-- Whether the slot takes effect in the cell: selected by its pair (R147), and no earlier slot of the word faulted there
(R159). -/
def slotLive (s : State) : Bool :=
  s.cell.mask.rows.getLsbD s.cell.row && s.cell.mask.cols.getLsbD s.cell.col && !s.cell.faulted

/-- Run a slot where it takes effect; elsewhere it does nothing (R147). -/
def slotRun (s : State) (k : State → State) : State := if slotLive s then k s else s

/-- A located fault of the cursor's slot before its own fields are filled (R429). -/
def faultHere (s : State) (code : Nat) : FaultInfo :=
  { code := code, slot := s.cell.slot, src := 1, pc := s.cell.pc, row := s.cell.row, col := s.cell.col,
    wordn := s.cell.wordNo, cycle := s.cyc }

/-- Errors found uncorrectable in this cell's registers or cell SRAM are counted, one for each word (R424). -/
def countFound (s : State) (f : FaultInfo) : State :=
  if f.code ≠ 0x40 then s
  else (below 32 fun k => f.lanes.getLsbD k).foldl (fun s _ => countErr s (curCell s / 4096 * 8 + bnat f.tvalid) true) s

/-- Take a located fault whose errors are counted: the slot has no effect, later slots of the word neither; the cell contributes ERR
(R148, R159), and sets POISON on UNCORRECTABLE and POISON_CONSUMED (R142). -/
def takeLoc (s : State) (f : FaultInfo) : State :=
  let s1 := if f.code = 0x40 || f.code = 0x41 then setF s (curCell s) (setBit (getF s (curCell s)) poisonBit true) else s
  { s1 with cell := { s1.cell with faulted := true, err := true, fault := some (s1.cell.fault.getD f) } }

/-- Take a located fault in this cell, counting the errors it reports (R142, R148, R159, R424). -/
def locFault (s : State) (f : FaultInfo) : State := takeLoc (countFound s f) f

/-! ## Reading operands -/

/-- A cell's C as it stands after word `n`, with its sidecar (R149, R150). -/
def cAfter (h : List (Nat × Frag × Side)) (n : Int) : Popped :=
  match h with
  | [] => {}
  | (k, f, x) :: t => if (k : Int) ≤ n then { frag := f, side := x } else cAfter t n

/-- History of the writes of C in cell `n`. -/
def histOf (s : State) (n : Nat) : List (Nat × Frag × Side) := tget [] s.chist n

/-- The joint delay between rows `r` and `r + 1` of a chain: 0 within an array, 1 at an on-die joint, 6 at the die
crossing (R150). -/
def jointBelow (r : Nat) : Nat := if r % 32 ≠ 31 then 0 else if r / 32 = 3 then 6 else 1

/-- Lane k reads k (R52). -/
def indexFrag : Frag := fragOf fun k => BitVec.ofNat 32 k

/-- A source operand by its code (R52, R149 to R151). A neighbour's C is read by word number, so the order in which cells are
stepped does not show. -/
def readOp (s : State) (code : Nat) : Popped :=
  let top := s.cell.top
  let r := s.cell.row
  let c := s.cell.col
  let n : Int := s.cell.wordNo
  if code = codeZ then {}
  else if code = codeI then { frag := indexFrag }
  else if code = codeN then
    (if r = 0 then s.cell.north else cAfter (histOf s (cellAt s top (r - 1) c)) n)
  else if code = codeW then
    (if c = 0 then s.cell.west else cAfter (histOf s (cellAt s top r (c - 1))) n)
  else if code = codeE then
    (if c = 31 then {} else cAfter (histOf s (cellAt s top r (c + 1))) (n - 2))
  else if code = codeS then
    (if r + 1 = chainRows s top then {} else cAfter (histOf s (cellAt s top (r + 1) c)) (n - 2 - jointBelow r))
  else { frag := getFrag s (curCell s) code, side := if hasSide code then getSide s (curCell s) code else 0 }

/-- Lanes of register `code` of cell `n` that a table of error marks names. -/
def regMarks (m : Tab Bool) (n code : Nat) : BitVec 32 :=
  BitVec.ofNat 32 ((List.range 32).foldl (fun acc k => if tget false m (cellKey n code * 32 + k) then acc + 2 ^ k else acc) 0)

/-- Marked lanes of a neighbour's C read as it stands after word `k`: the marks are those of its newest value (R142, R150). -/
def neighbourMarks (s : State) (m : Tab Bool) (n : Nat) (k : Int) : BitVec 32 :=
  match histOf s n with
  | [] => regMarks m n codeC
  | (w, _) :: _ => if (w : Int) ≤ k then regMarks m n codeC else 0

/-- Lanes of a source operand whose register words a table of error marks names. -/
def markLanes (s : State) (m : Tab Bool) (code : Nat) : BitVec 32 :=
  let top := s.cell.top
  let r := s.cell.row
  let c := s.cell.col
  let n : Int := s.cell.wordNo
  if code = codeZ || code = codeI then 0
  else if code = codeN then (if r = 0 then 0 else neighbourMarks s m (cellAt s top (r - 1) c) n)
  else if code = codeW then (if c = 0 then 0 else neighbourMarks s m (cellAt s top r (c - 1)) n)
  else if code = codeE then (if c = 31 then 0 else neighbourMarks s m (cellAt s top r (c + 1)) (n - 2))
  else if code = codeS then
    (if r + 1 = chainRows s top then 0 else neighbourMarks s m (cellAt s top (r + 1) c) (n - 2 - jointBelow r))
  else regMarks m (curCell s) code

/-- Lanes of a source operand that hold an uncorrectable error (R142). -/
def eccLanes (s : State) (code : Nat) : BitVec 32 := markLanes s s.cellEcc code

/-- Lanes of a source operand that carry a poison mark: of a register (R194), or of a fragment from an edge (log 53). -/
def poisonLanes (s : State) (code : Nat) : BitVec 32 := (readOp s code).bad ||| markLanes s s.cellPoison code

/-- Port code of the edge a read pops: W 1 and N 0 as fault records name them (R428). -/
def desyncPort (code : Nat) : Nat := if code = codeN then 0 else 1

/-- Why the lanes `m` of an operand cannot be read, if they cannot: an uncorrectable register word (R142; the register's code stands in
TSLOT, log 9), one that carries a poison mark (log 53), or a fragment marked desynchronised (R284). -/
def opFault (s : State) (code : Nat) (m : BitVec 32) : Option FaultInfo :=
  let bad := eccLanes s code &&& m
  if bad ≠ 0 then some { faultHere s 0x40 with tslot := code, lanes := bad }
  else if poisonLanes s code &&& m ≠ 0 then some { faultHere s 0x41 with tslot := code, lanes := poisonLanes s code &&& m }
  else if (readOp s code).desync then
    some { faultHere s 0x23 with
      detail := BitVec.ofNat 64 (desyncPort code + 16 * (if code = codeN then 0 else s.cell.row / 32)) }
  else none

/-- The first fault among the operands a slot reads, in field order, each with the lanes it reads. -/
def firstFault (s : State) : List (Nat × BitVec 32) → Option FaultInfo
  | [] => none
  | c :: t => match opFault s c.1 c.2 with
    | some f => some f
    | none => firstFault s t

/-- Every lane, lane 0, the 16 lanes of the half `hi` names, and the eight of quarter `q`. -/
def allLanes : BitVec 32 := 0xFFFFFFFF
def lane0 : BitVec 32 := 1
def hiLanes (hi : Bool) : BitVec 32 := if hi then 0xFFFF0000 else 0x0000FFFF
def quarterLanes (q : Nat) : BitVec 32 := BitVec.ofNat 32 (0xFF * 2 ^ (8 * (q % 4)))

/-- Read the operands of a slot and go on with them; an operand that faults in a lane the slot reads ends the slot (R142). The lanes
read are those whose values the instruction's definition takes; they may follow from the operands (log 46). -/
def withLanes (s : State) (codes : List Nat) (m : List Frag → List (BitVec 32)) (k : List Popped → State) : State :=
  let xs := codes.map (readOp s)
  match firstFault s (codes.zip (m (xs.map (·.frag)))) with
  | some f => locFault s f
  | none => k xs

/-- Read every lane of the operands of a slot and go on with them. -/
def withOps (s : State) (codes : List Nat) (k : List Popped → State) : State :=
  withLanes s codes (fun _ => codes.map fun _ => allLanes) k

/-! ## Writing results -/

/-- History of C with the value it has after word `n`; the entry of the same word is replaced (R154). -/
def histPut (h : List (Nat × Frag × Side)) (n : Nat) (f : Frag) (x : Side) : List (Nat × Frag × Side) :=
  match h with
  | (k, g, y) :: t => if k = n then (n, f, x) :: t else (n, f, x) :: (k, g, y) :: t.take 16
  | [] => [(n, f, x)]

/-- A register written whole loses its errors and its poison marks. -/
def clearEcc (s : State) (code : Nat) : State :=
  { s with
    cellEcc := s.cellEcc.filter fun e => e.1 / 32 ≠ cellKey (curCell s) code
    cellPoison := s.cellPoison.filter fun e => e.1 / 32 ≠ cellKey (curCell s) code }

/-- Write a register of the cell, with its sidecar where it carries one. -/
def writeReg (s : State) (code : Nat) (f : Frag) (x : Side) : State :=
  let n := curCell s
  let s1 := setFrag (clearEcc s code) n code f
  let s2 := if hasSide code then setSide s1 n code x else s1
  if code = codeC then { s2 with chist := tset [] s2.chist n (histPut (histOf s2 n) s.cell.wordNo f x) } else s2

/-- Gather the exceptions of a slot: into F and into the word (R96). -/
def raiseFlags (s : State) (fl : Flags) : State :=
  let n := curCell s
  { setF s n (orSticky (getF s n) fl) with cell := { s.cell with flags := s.cell.flags ||| fl } }

/-- The f modifier: LF and CF from a fragment, and the cell takes part in the aggregates (R148, R155). -/
def setCellFlags (s : State) (f : Frag) : State :=
  let n := curCell s
  { setF s n (setLaneFlags (getF s n) f) with cell := { s.cell with takesPart := true } }

/-- Write a fragment result: the destination, L, C under the c modifier and the flags under the f modifier (R138, R139,
R155). -/
def writeResult (s : State) (dst : Nat) (r : Frag) (x : Side) (c f : Bool) : State :=
  let s1 := writeReg s dst r x
  let s2 := if dst = codeL then s1 else writeReg s1 codeL r 0
  let s3 := if c then writeReg s2 codeC r (if hasSide dst then x else 0) else s2
  if f then setCellFlags s3 r else s3

/-! ## The generator -/

/-- One step of the generator (R143). -/
def xorshift (x : BitVec 32) : BitVec 32 :=
  let x1 := x ^^^ (x <<< 13)
  let x2 := x1 ^^^ (x1 >>> 17)
  x2 ^^^ (x2 <<< 5)

/-- `n` draws in order, and the state after them (R85, R143). -/
def draws : Nat → BitVec 32 → List Nat × BitVec 32
  | 0, g => ([], g)
  | n + 1, g =>
    let g1 := xorshift g
    let (l, g2) := draws n g1
    (g1.toNat / 2 ^ 16 :: l, g2)

/-- The draws of an instruction of `n` rounded elements: none unless the mode is SR (R85). -/
def drawsFor (v : Env) (n : Nat) (g : BitVec 32) : List Nat × BitVec 32 := if v.rm = 4 then draws n g else ([], g)

/-! ## Slots with a fragment result -/

/-- What a vector instruction computes: from the environment, the generator and its sources, the result, the exceptions and the
generator after it. -/
abbrev VecFn := Env → BitVec 32 → List Frag → Frag × Flags × BitVec 32

/-- Run a vector instruction that reads the lanes `m` of its sources: compute, write `dst` with a zero sidecar (R140). -/
def runVecOn (s : State) (srcs : List Nat) (m : List Frag → List (BitVec 32)) (dst : Nat) (c f : Bool) (h : VecFn) : State :=
  slotRun s fun s => withLanes s srcs m fun xs =>
    let (r, fl, g) := h (curEnv s) (getG s (curCell s)) (xs.map (·.frag))
    writeResult (raiseFlags (setG s (curCell s) g) fl) dst r 0 c f

/-- Run a vector instruction that reads every lane of `srcs`. -/
def runVec (s : State) (srcs : List Nat) (dst : Nat) (c f : Bool) (h : VecFn) : State :=
  runVecOn s srcs (fun _ => srcs.map fun _ => allLanes) dst c f h

/-- Lanes computed one by one from lists of equal lanes, with their exceptions. -/
def laneFn (g : Nat → Lane → Lane → Lane → Nat × Flags) (x y z : Frag) : Frag × Flags :=
  let rs := (List.range 32).map fun k => g k (lane x k) (lane y k) (lane z k)
  (fragOfList (rs.map fun p => BitVec.ofNat 32 p.1), rs.foldl (fun acc p => acc ||| p.2) 0)

/-- A lane function of up to three sources as a vector function without draws. -/
def lanes3 (g : Env → Lane → Lane → Lane → Nat × Flags) : VecFn := fun v gen xs =>
  let (r, fl) := laneFn (fun _ x y z => g v x y z) (xs.getD 0 0) (xs.getD 1 0) (xs.getD 2 0)
  (r, fl, gen)

/-- A lane function without exceptions. -/
def lanesI (g : Lane → Lane → Lane → Lane) : VecFn := lanes3 fun _ x y z => ((g x y z).toNat, 0)

/-- The sign-extended 6-bit immediate of a B field (R160). -/
def immS (b : BitVec 6) : Lane := b.signExtend 32

/-- The zero-extended 6-bit immediate of a B field (R160). -/
def immZ (b : BitVec 6) : Lane := b.setWidth 32

/-- Run a two-source integer instruction whose B is an immediate under mod0 (R160, R164). -/
def runImm (s : State) (a b d : BitVec 6) (c f m : Bool) (imm : BitVec 6 → Lane) (g : Lane → Lane → Lane) : State :=
  if m then runVec s [a.toNat] d.toNat c f (lanesI fun x _ _ => g x (imm b))
  else runVec s [a.toNat, b.toNat] d.toNat c f (lanesI fun x y _ => g x y)

end Sys2Proof.Machine
end

