-- ==== Sys2Proof/Machine/Narrow.lean ====
section
/-! DEFINITION. Packing and unpacking of 16-bit and 8-bit elements in fragments (R162, R163, R190), shared by the conversions, the
packed arithmetic and ARND. -/

namespace Sys2Proof.Machine

/-- Half `j` of a lane. -/
def half (x : Lane) (j : Nat) : Nat := x.toNat / 2 ^ (16 * j) % 2 ^ 16

/-- Byte `b` of a lane. -/
def byteAt (x : Lane) (b : Nat) : Nat := x.toNat / 2 ^ (8 * b) % 2 ^ 8

/-- Read an FP32 lane under the environment (R79). -/
def fpIn (v : Env) (x : Lane) : FVal := fp32.read v.ftz x.toNat

/-- Elements of a fragment rounded to a format in ascending lane order, one draw each (R85, R163). -/
def narrowElems (F : Fmt) (v : Env) (ds : List Nat) (a : Frag) : List (Nat × Flags) :=
  (List.range 32).map fun k => F.put v (ds.getD k 0) (fpIn v (lane a k))

/-- The exceptions of a list of elements. -/
def flagsOf (l : List (Nat × Flags)) : Flags := l.foldl (fun acc p => acc ||| p.2) 0

/-- Element `k` of a list of rounded elements. -/
def elemAt (l : List (Nat × Flags)) (k : Nat) : Nat := (l.getD k (0, 0)).1

/-- Sixteen lanes from lane `h` receive the elements in pairs, the other lanes are kept (R163, R190). -/
def pack16 (es : List Nat) (old : Frag) (h : Nat) : Frag :=
  fragOf fun k =>
    if h ≤ k && k < h + 16 then
      BitVec.ofNat 32 (es.getD (2 * (k - h)) 0 + 2 ^ 16 * es.getD (2 * (k - h) + 1) 0)
    else lane old k

/-- Eight lanes from lane 8q receive the elements in fours, the other lanes are kept (R163, R190). -/
def pack8 (es : List Nat) (old : Frag) (q : Nat) : Frag :=
  fragOf fun k =>
    if 8 * q ≤ k && k < 8 * q + 8 then
      let j := 4 * (k - 8 * q)
      BitVec.ofNat 32 (es.getD j 0 + 2 ^ 8 * es.getD (j + 1) 0 + 2 ^ 16 * es.getD (j + 2) 0 + 2 ^ 24 * es.getD (j + 3) 0)
    else lane old k

/-- The narrowing conversions to a 16-bit format (R163). -/
def narrow16 (F : Fmt) (hi : Bool) : VecFn := fun v gen xs =>
  let (ds, gen') := drawsFor v 32 gen
  let es := narrowElems F v ds (xs.getD 0 0)
  (pack16 (es.map (·.1)) (xs.getD 1 0) (if hi then 16 else 0), flagsOf es, gen')

/-- The narrowing conversions to an 8-bit format, the quarter from B (R163). -/
def narrow8 (F : Fmt) : VecFn := fun v gen xs =>
  let (ds, gen') := drawsFor v 32 gen
  let es := narrowElems F v ds (xs.getD 0 0)
  (pack8 (es.map (·.1)) (xs.getD 2 0) ((lane (xs.getD 1 0) 0).toNat % 4), flagsOf es, gen')

/-- The widening conversions from a 16-bit format (R163): exact, a NaN becomes canonical. -/
def widen16 (F : Fmt) (hi : Bool) : VecFn := fun v gen xs =>
  let a := xs.getD 0 0
  let h := if hi then 16 else 0
  let es := (List.range 32).map fun k => fp32.put v.noSr 0 (F.read v.ftz (half (lane a (h + k / 2)) (k % 2)))
  (fragOfList (es.map fun p => BitVec.ofNat 32 p.1), flagsOf es, gen)

/-- The widening conversions from an 8-bit format, the quarter from B (R163). -/
def widen8 (F : Fmt) : VecFn := fun v gen xs =>
  let a := xs.getD 0 0
  let q := (lane (xs.getD 1 0) 0).toNat % 4
  let es := (List.range 32).map fun k => fp32.put v.noSr 0 (F.read v.ftz (byteAt (lane a (8 * q + k / 4)) (k % 4)))
  (fragOfList (es.map fun p => BitVec.ofNat 32 p.1), flagsOf es, gen)

/-- Lanes a narrowing to 16 bits reads: all of A, and of dst those it keeps (R163, R187). -/
def narrow16Lanes (hi : Bool) (_ : List Frag) : List (BitVec 32) := [allLanes, ~~~ hiLanes hi]

/-- Quarter that lane 0 of B chooses. -/
def quarterOf (xs : List Frag) : Nat := (lane (xs.getD 1 0) 0).toNat % 4

/-- Lanes a narrowing to 8 bits reads: all of A, lane 0 of B, and of dst those it keeps (R163, R187). -/
def narrow8Lanes (xs : List Frag) : List (BitVec 32) := [allLanes, lane0, ~~~ quarterLanes (quarterOf xs)]

/-- Lanes a widening reads (R163). -/
def widen16Lanes (hi : Bool) (_ : List Frag) : List (BitVec 32) := [hiLanes hi]
def widen8Lanes (xs : List Frag) : List (BitVec 32) := [quarterLanes (quarterOf xs), lane0]

/-- Packed pairs computed in a 16-bit format, the lower half first (R162). -/
def packed2 (g : Env → Nat → Nat → Nat → Nat → Nat × Flags) : VecFn := fun v gen xs =>
  let (ds, gen') := drawsFor v 64 gen
  let es := (List.range 64).map fun i =>
    g v (ds.getD i 0) (half (lane (xs.getD 0 0) (i / 2)) (i % 2)) (half (lane (xs.getD 1 0) (i / 2)) (i % 2))
      (half (lane (xs.getD 2 0) (i / 2)) (i % 2))
  (fragOf fun k => BitVec.ofNat 32 (elemAt es (2 * k) + 2 ^ 16 * elemAt es (2 * k + 1)), flagsOf es, gen')

end Sys2Proof.Machine
end

