-- ==== Sys2Proof/Machine/CellFp.lean ====
section
/-! DEFINITION. The floating-point instructions of the vector slots (R161 to R163): lane arithmetic, compares, special functions,
packed pairs and conversions. -/

namespace Sys2Proof.Machine

/-- All ones for true, zero for false (R161). -/
def mask32 (b : Bool) : Nat := if b then 0xFFFFFFFF else 0

/-- FADD: A + B, rounded once (R161). -/
def execFadd (d a b : BitVec 6) (_w : BitVec 3) (c f : Bool) (s : State) : MOut :=
  .next (runVec s [a.toNat, b.toNat] d.toNat c f (lanes3 fun v x y _ => fp32.sum v.noSr 0 [fpIn v x, fpIn v y] []))

/-- FSUB: A − B, rounded once (R161). -/
def execFsub (d a b : BitVec 6) (_w : BitVec 3) (c f : Bool) (s : State) : MOut :=
  .next (runVec s [a.toNat, b.toNat] d.toNat c f (lanes3 fun v x y _ => fp32.sum v.noSr 0 [fpIn v x, (fpIn v y).neg] []))

/-- FMUL: A × B, negated exactly under `.neg`, rounded once (R161). -/
def execFmul (d a b : BitVec 6) (_w : BitVec 3) (c f m : Bool) (s : State) : MOut :=
  .next (runVec s [a.toNat, b.toNat] d.toNat c f
    (lanes3 fun v x y _ => fp32.sum v.noSr 0 [] [[(fpIn v x).negIf m, fpIn v y]]))

/-- FMA: ±(A × B) + dst, rounded once (R161). -/
def execFma (d a b : BitVec 6) (_w : BitVec 3) (c f m : Bool) (s : State) : MOut :=
  .next (runVec s [a.toNat, b.toNat, d.toNat] d.toNat c f
    (lanes3 fun v x y z => fp32.sum v.noSr 0 [fpIn v z] [[(fpIn v x).negIf m, fpIn v y]]))

/-- FMIN under R87. -/
def execFmin (d a b : BitVec 6) (_w : BitVec 3) (c f : Bool) (s : State) : MOut :=
  .next (runVec s [a.toNat, b.toNat] d.toNat c f (lanes3 fun v x y _ => fp32.put v.noSr 0 (minV (fpIn v x) (fpIn v y))))

/-- FMAX under R87. -/
def execFmax (d a b : BitVec 6) (_w : BitVec 3) (c f : Bool) (s : State) : MOut :=
  .next (runVec s [a.toNat, b.toNat] d.toNat c f (lanes3 fun v x y _ => fp32.put v.noSr 0 (maxV (fpIn v x) (fpIn v y))))

/-- FCMP.EQ: false on a NaN (R87). -/
def execFcmpEq (d a b : BitVec 6) (_w : BitVec 3) (c f : Bool) (s : State) : MOut :=
  .next (runVec s [a.toNat, b.toNat] d.toNat c f (lanes3 fun v x y _ => (mask32 (eqV (fpIn v x) (fpIn v y)), 0)))

/-- FCMP.NE: true on a NaN (R87). -/
def execFcmpNe (d a b : BitVec 6) (_w : BitVec 3) (c f : Bool) (s : State) : MOut :=
  .next (runVec s [a.toNat, b.toNat] d.toNat c f (lanes3 fun v x y _ => (mask32 (!eqV (fpIn v x) (fpIn v y)), 0)))

/-- FCMP.LT: false on a NaN (R87). -/
def execFcmpLt (d a b : BitVec 6) (_w : BitVec 3) (c f : Bool) (s : State) : MOut :=
  .next (runVec s [a.toNat, b.toNat] d.toNat c f (lanes3 fun v x y _ => (mask32 (ltV (fpIn v x) (fpIn v y)), 0)))

/-- FCMP.LE: false on a NaN (R87). -/
def execFcmpLe (d a b : BitVec 6) (_w : BitVec 3) (c f : Bool) (s : State) : MOut :=
  .next (runVec s [a.toNat, b.toNat] d.toNat c f (lanes3 fun v x y _ => (mask32 (ltV (fpIn v x) (fpIn v y) || eqV (fpIn v x) (fpIn v y)), 0)))

/-- FRCP: 1/A under R88. -/
def execFrcp (d a : BitVec 6) (_w : BitVec 3) (c f : Bool) (s : State) : MOut :=
  .next (runVec s [a.toNat] d.toNat c f (lanes3 fun v x _ _ => rcpV v.noSr (fpIn v x)))

/-- FRSQ: 1/√A under R88. -/
def execFrsq (d a : BitVec 6) (_w : BitVec 3) (c f : Bool) (s : State) : MOut :=
  .next (runVec s [a.toNat] d.toNat c f (lanes3 fun v x _ _ => rsqV v.noSr (fpIn v x)))

/-- FSQRT: √A under R88. -/
def execFsqrt (d a : BitVec 6) (_w : BitVec 3) (c f : Bool) (s : State) : MOut :=
  .next (runVec s [a.toNat] d.toNat c f (lanes3 fun v x _ _ => sqrtV v.noSr (fpIn v x)))

/-- FEX2: 2^A under R88. -/
def execFex2 (d a : BitVec 6) (_w : BitVec 3) (c f : Bool) (s : State) : MOut :=
  .next (runVec s [a.toNat] d.toNat c f (lanes3 fun v x _ _ => ex2V v.noSr (fpIn v x)))

/-- FLG2: log2 A under R88. -/
def execFlg2 (d a : BitVec 6) (_w : BitVec 3) (c f : Bool) (s : State) : MOut :=
  .next (runVec s [a.toNat] d.toNat c f (lanes3 fun v x _ _ => lg2V v.noSr (fpIn v x)))

/-- HADD2: packed FP16 sums (R162). -/
def execHadd2 (d a b : BitVec 6) (_w : BitVec 3) (c f : Bool) (s : State) : MOut :=
  .next (runVec s [a.toNat, b.toNat] d.toNat c f
    (packed2 fun v g x y _ => fp16.sum v g [fp16.read v.ftz x, fp16.read v.ftz y] []))

/-- HFMA2: packed FP16 ±(A × B) + dst, rounded once (R162). -/
def execHfma2 (d a b : BitVec 6) (_w : BitVec 3) (c f m : Bool) (s : State) : MOut :=
  .next (runVec s [a.toNat, b.toNat, d.toNat] d.toNat c f
    (packed2 fun v g x y z => fp16.sum v g [fp16.read v.ftz z] [[(fp16.read v.ftz x).negIf m, fp16.read v.ftz y]]))

/-- BFMA2: packed BF16 ±(A × B) + dst, rounded once (R162). -/
def execBfma2 (d a b : BitVec 6) (_w : BitVec 3) (c f m : Bool) (s : State) : MOut :=
  .next (runVec s [a.toNat, b.toNat, d.toNat] d.toNat c f
    (packed2 fun v g x y z => bf16.sum v g [bf16.read v.ftz z] [[(bf16.read v.ftz x).negIf m, bf16.read v.ftz y]]))

/-- CVT.F16.F32: narrow into half of dst (R163). -/
def execCvtF16F32 (d a : BitVec 6) (_w : BitVec 3) (c f m : Bool) (s : State) : MOut :=
  .next (runVecOn s [a.toNat, d.toNat] (narrow16Lanes m) d.toNat c f (narrow16 fp16 m))

/-- CVT.F32.F16: widen half of A exactly (R163). -/
def execCvtF32F16 (d a : BitVec 6) (_w : BitVec 3) (c f m : Bool) (s : State) : MOut :=
  .next (runVecOn s [a.toNat] (widen16Lanes m) d.toNat c f (widen16 fp16 m))

/-- CVT.BF16.F32: narrow into half of dst (R163). -/
def execCvtBf16F32 (d a : BitVec 6) (_w : BitVec 3) (c f m : Bool) (s : State) : MOut :=
  .next (runVecOn s [a.toNat, d.toNat] (narrow16Lanes m) d.toNat c f (narrow16 bf16 m))

/-- CVT.F32.BF16: widen half of A exactly (R163). -/
def execCvtF32Bf16 (d a : BitVec 6) (_w : BitVec 3) (c f m : Bool) (s : State) : MOut :=
  .next (runVecOn s [a.toNat] (widen16Lanes m) d.toNat c f (widen16 bf16 m))

/-- CVT.E4M3.F32: narrow into a quarter of dst (R163). -/
def execCvtE4m3F32 (d a b : BitVec 6) (_w : BitVec 3) (c f : Bool) (s : State) : MOut :=
  .next (runVecOn s [a.toNat, b.toNat, d.toNat] narrow8Lanes d.toNat c f (narrow8 e4m3))

/-- CVT.F32.E4M3: widen a quarter of A exactly (R163). -/
def execCvtF32E4m3 (d a b : BitVec 6) (_w : BitVec 3) (c f : Bool) (s : State) : MOut :=
  .next (runVecOn s [a.toNat, b.toNat] widen8Lanes d.toNat c f (widen8 e4m3))

/-- CVT.E5M2.F32: narrow into a quarter of dst (R163). -/
def execCvtE5m2F32 (d a b : BitVec 6) (_w : BitVec 3) (c f : Bool) (s : State) : MOut :=
  .next (runVecOn s [a.toNat, b.toNat, d.toNat] narrow8Lanes d.toNat c f (narrow8 e5m2))

/-- CVT.F32.E5M2: widen a quarter of A exactly (R163). -/
def execCvtF32E5m2 (d a b : BitVec 6) (_w : BitVec 3) (c f : Bool) (s : State) : MOut :=
  .next (runVecOn s [a.toNat, b.toNat] widen8Lanes d.toNat c f (widen8 e5m2))

/-- CVT.I32.F32 under R86. -/
def execCvtI32F32 (d a : BitVec 6) (_w : BitVec 3) (c f : Bool) (s : State) : MOut :=
  .next (runVec s [a.toNat] d.toNat c f (lanes3 fun v x _ _ => toI32 v.noSr (fpIn v x)))

/-- CVT.F32.I32 under R86. -/
def execCvtF32I32 (d a : BitVec 6) (_w : BitVec 3) (c f : Bool) (s : State) : MOut :=
  .next (runVec s [a.toNat] d.toNat c f (lanes3 fun v x _ _ => ofI32 v.noSr x))

end Sys2Proof.Machine
end

