-- ==== Sys2Proof/Machine/CellInt.lean ====
section
/-! DEFINITION. The integer, logic and shift instructions of the vector slots (R164). -/

namespace Sys2Proof.Machine

/-- IADD (R164). -/
def execIadd (d a b : BitVec 6) (_w : BitVec 3) (c f m : Bool) (s : State) : MOut :=
  .next (runImm s a b d c f m immS (fun x y => x + y))

/-- ISUB (R164). -/
def execIsub (d a b : BitVec 6) (_w : BitVec 3) (c f m : Bool) (s : State) : MOut :=
  .next (runImm s a b d c f m immS (fun x y => x - y))

/-- IMUL: the low 32 bits (R164). -/
def execImul (d a b : BitVec 6) (_w : BitVec 3) (c f : Bool) (s : State) : MOut :=
  .next (runVec s [a.toNat, b.toNat] d.toNat c f (lanesI fun x y _ => x * y))

/-- IMAD: A × B + dst, the low 32 bits (R164). -/
def execImad (d a b : BitVec 6) (_w : BitVec 3) (c f : Bool) (s : State) : MOut :=
  .next (runVec s [a.toNat, b.toNat, d.toNat] d.toNat c f (lanesI fun x y z => x * y + z))

/-- IABS: the most negative number stays (R164). -/
def execIabs (d a : BitVec 6) (_w : BitVec 3) (c f : Bool) (s : State) : MOut :=
  .next (runVec s [a.toNat] d.toNat c f (lanesI fun x _ _ => if x.msb then -x else x))

/-- IMIN, signed (R164). -/
def execImin (d a b : BitVec 6) (_w : BitVec 3) (c f m : Bool) (s : State) : MOut :=
  .next (runImm s a b d c f m immS (fun x y => if x.toInt ≤ y.toInt then x else y))

/-- IMAX, signed (R164). -/
def execImax (d a b : BitVec 6) (_w : BitVec 3) (c f m : Bool) (s : State) : MOut :=
  .next (runImm s a b d c f m immS (fun x y => if x.toInt ≤ y.toInt then y else x))

/-- AND of a cell slot (R164). -/
def execCellAnd (d a b : BitVec 6) (_w : BitVec 3) (c f m : Bool) (s : State) : MOut :=
  .next (runImm s a b d c f m immZ (fun x y => x &&& y))

/-- OR of a cell slot (R164). -/
def execCellOr (d a b : BitVec 6) (_w : BitVec 3) (c f m : Bool) (s : State) : MOut :=
  .next (runImm s a b d c f m immZ (fun x y => x ||| y))

/-- XOR of a cell slot (R164). -/
def execCellXor (d a b : BitVec 6) (_w : BitVec 3) (c f m : Bool) (s : State) : MOut :=
  .next (runImm s a b d c f m immZ (fun x y => x ^^^ y))

/-- SHL of a cell slot: by B[4:0], zero fill (R164). -/
def execCellShl (d a b : BitVec 6) (_w : BitVec 3) (c f m : Bool) (s : State) : MOut :=
  .next (runImm s a b d c f m immZ (fun x y => x <<< (y.toNat % 32)))

/-- SHR of a cell slot: by B[4:0], zero fill (R164). -/
def execCellShr (d a b : BitVec 6) (_w : BitVec 3) (c f m : Bool) (s : State) : MOut :=
  .next (runImm s a b d c f m immZ (fun x y => x >>> (y.toNat % 32)))

/-- SRA of a cell slot: by B[4:0], sign fill (R164). -/
def execCellSra (d a b : BitVec 6) (_w : BitVec 3) (c f m : Bool) (s : State) : MOut :=
  .next (runImm s a b d c f m immZ (fun x y => x.sshiftRight (y.toNat % 32)))

/-- ICMP.EQ (R164). -/
def execIcmpEq (d a b : BitVec 6) (_w : BitVec 3) (c f m : Bool) (s : State) : MOut :=
  .next (runImm s a b d c f m immS (fun x y => BitVec.ofNat 32 (mask32 (x = y))))

/-- ICMP.NE (R164). -/
def execIcmpNe (d a b : BitVec 6) (_w : BitVec 3) (c f m : Bool) (s : State) : MOut :=
  .next (runImm s a b d c f m immS (fun x y => BitVec.ofNat 32 (mask32 (x ≠ y))))

/-- ICMP.LT, signed (R164). -/
def execIcmpLt (d a b : BitVec 6) (_w : BitVec 3) (c f m : Bool) (s : State) : MOut :=
  .next (runImm s a b d c f m immS (fun x y => BitVec.ofNat 32 (mask32 (x.toInt < y.toInt))))

/-- ICMP.LTN, unsigned (R164). -/
def execIcmpLtn (d a b : BitVec 6) (_w : BitVec 3) (c f m : Bool) (s : State) : MOut :=
  .next (runImm s a b d c f m immZ (fun x y => BitVec.ofNat 32 (mask32 (x.toNat < y.toNat))))

end Sys2Proof.Machine
end

