-- ==== Sys2Proof/Machine/CellMove.lean ====
section
/-! DEFINITION. Select and move, lane reductions and permutes, flags, the generator and rank values (R165, R166, R169 to R173). -/

namespace Sys2Proof.Machine

/-- The same lane in all 32 (R169, R170). -/
def splat (x : Lane) : Frag := fragOf fun _ => x

/-- SEL: A where LF is set, else B; LF as the earlier slots of the word left it (R165). -/
def execCellSel (d a b : BitVec 6) (_w : BitVec 3) (c f : Bool) (s : State) : MOut :=
  .next (runVecOn s [a.toNat, b.toNat] (fun _ => [lfOf (getF s (curCell s)), ~~~ lfOf (getF s (curCell s))]) d.toNat c f fun _ gen xs =>
    (fragOf fun k => if (lfOf (getF s (curCell s))).getLsbD k then lane (xs.getD 0 0) k else lane (xs.getD 1 0) k, 0, gen))

/-- MOV: dst := A with the sidecar of R140; `.d` also asks for a push of C into the drain B names, after the word's three slots
(R165, R166). -/
def execMov (d a b : BitVec 6) (_w : BitVec 3) (c f m : Bool) (s : State) : MOut :=
  .next (slotRun s fun s => withOps s [a.toNat] fun xs =>
    let x := xs.getD 0 {}
    let s1 := writeResult s d.toNat x.frag x.side c f
    if m then { s1 with cell := { s1.cell with pushes := s1.cell.pushes ++ [b.toNat] } } else s1)

/-- VRED.ADD: the exact sum of the lanes rounded once (R169). -/
def execVredAdd (d a : BitVec 6) (_w : BitVec 3) (c f : Bool) (s : State) : MOut :=
  .next (runVec s [a.toNat] d.toNat c f fun v gen xs =>
    let (r, fl) := fp32.sum v.noSr 0 ((lanes (xs.getD 0 0)).map (fpIn v)) []
    (splat (BitVec.ofNat 32 r), fl, gen))

/-- A maximum or minimum over the lanes; NaN lanes are ignored unless all are (R169). -/
def vredFn (g : FVal → FVal → FVal) : VecFn := fun v gen xs =>
  let (r, fl) := fp32.put v.noSr 0 (((lanes (xs.getD 0 0)).map (fpIn v)).foldl g .nan)
  (splat (BitVec.ofNat 32 r), fl, gen)

/-- VRED.MAX (R169). -/
def execVredMax (d a : BitVec 6) (_w : BitVec 3) (c f : Bool) (s : State) : MOut :=
  .next (runVec s [a.toNat] d.toNat c f (vredFn maxV))

/-- VRED.MIN (R169). -/
def execVredMin (d a : BitVec 6) (_w : BitVec 3) (c f : Bool) (s : State) : MOut :=
  .next (runVec s [a.toNat] d.toNat c f (vredFn minV))

/-- VRED.OR: the bitwise OR of the lanes (R169). -/
def execVredOr (d a : BitVec 6) (_w : BitVec 3) (c f : Bool) (s : State) : MOut :=
  .next (runVec s [a.toNat] d.toNat c f fun _ gen xs =>
    (splat ((lanes (xs.getD 0 0)).foldl (fun acc x => acc ||| x) 0), 0, gen))

/-- A mask of one lane. -/
def oneLane (k : Nat) : BitVec 32 := BitVec.ofNat 32 (2 ^ (k % 32))

/-- The lanes of A that VPERM takes (R170). -/
def permLanes (xs : List Frag) : List (BitVec 32) :=
  [(List.range 32).foldl (fun m k => m ||| oneLane (lane (xs.getD 1 0) k).toNat) 0, allLanes]

/-- VPERM: dst[k] := A[B[k][4:0]] (R170). -/
def execVperm (d a b : BitVec 6) (_w : BitVec 3) (c f : Bool) (s : State) : MOut :=
  .next (runVecOn s [a.toNat, b.toNat] permLanes d.toNat c f fun _ gen xs =>
    (fragOf fun k => lane (xs.getD 0 0) ((lane (xs.getD 1 0) k).toNat % 32), 0, gen))

/-- VBCAST: one lane of A in all, chosen by B[0][4:0] or the immediate (R170). -/
def execVbcast (d a b : BitVec 6) (_w : BitVec 3) (c f m : Bool) (s : State) : MOut :=
  .next (if m then runVecOn s [a.toNat] (fun _ => [oneLane b.toNat]) d.toNat c f fun _ gen xs =>
      (splat (lane (xs.getD 0 0) (b.toNat % 32)), 0, gen)
    else runVecOn s [a.toNat, b.toNat] (fun xs => [oneLane (lane (xs.getD 1 0) 0).toNat, lane0]) d.toNat c f fun _ gen xs =>
      (splat (lane (xs.getD 0 0) ((lane (xs.getD 1 0) 0).toNat % 32)), 0, gen))

/-- FLAG: the image of F to dst, CF from the lane flags under the mask, the named sticky bits cleared; the cell takes part in the
aggregates (R148, R171). -/
def execFlag (d a b : BitVec 6) (_w : BitVec 3) (c : Bool) (s : State) : MOut :=
  .next (slotRun s fun s => withLanes s [a.toNat, b.toNat] (fun _ => [lane0, lane0]) fun xs =>
    let n := curCell s
    let image := getF s n
    let s1 := setF s n (flagF image (lane (xs.getD 0 {}).frag 0) (lane (xs.getD 1 {}).frag 0))
    let s2 := { s1 with cell := { s1.cell with takesPart := true } }
    writeResult s2 d.toNat (fragOfList [BitVec.ofNat 32 image.toNat, BitVec.ofNat 32 (image.toNat / 2 ^ 32)]) 0 c false)

/-- The next `n` states of the generator (R172). -/
def srngSeq : Nat → BitVec 32 → List (BitVec 32)
  | 0, _ => []
  | n + 1, g => xorshift g :: srngSeq n (xorshift g)

/-- SRNG: reseed from A[0] unless A is Z, then 32 steps into the lanes (R172). -/
def execSrng (d a : BitVec 6) (_w : BitVec 3) (c f : Bool) (s : State) : MOut :=
  .next (runVecOn s [a.toNat] (fun _ => [lane0]) d.toNat c f fun _ gen xs =>
    let seed := lane (xs.getD 0 0) 0
    let g := if a.toNat = codeZ then gen else if seed = 0 then 1 else seed
    let l := srngSeq 32 g
    (fragOfList l, 0, l.getD 31 g))

/-- The array the cursor's cell belongs to. -/
def curCellArr (s : State) : Arr :=
  arr s (chainArr s s.cell.top (seqAt s s.cell.top).die2 (s.cell.row / 32))

/-- RKVAL: the rank arrivals of A as values of the rank-to-value table (R173). -/
def execRkval (d a : BitVec 6) (_w : BitVec 3) (c f : Bool) (s : State) : MOut :=
  .next (runVec s [a.toNat] d.toNat c f fun v gen xs =>
    let t := curCellArr s
    let (r, fl) := laneFn (fun _ x _ _ =>
      let rank := bitsOf x 21 16
      if !x.getLsbD 31 || rank ≥ t.kcut then (0, 0)
      else fp32.put v.noSr 0 (fp16.read v.ftz (vget 0 t.recv rank).toNat)) (xs.getD 0 0) 0 0
    (r, fl, gen))

end Sys2Proof.Machine
end

