-- ==== Sys2Proof/WellFormed.lean ====
section
/-! DEFINITION. Which instructions are legal: the field rules of the encoding chapter and of the owning chapters that a slot
word can break on its own (class "bad field" of R43). What depends on the mode, on the rest of the bundle or on a register's
value is checked when the bundle issues. -/

namespace Sys2Proof

namespace Wf

/-- A control-register number that R107 assigns (R106). -/
def ctlAssigned (n : Nat) : Bool :=
  n ≤ 0x004 || (0x008 ≤ n && n ≤ 0x00B) || (0x010 ≤ n && n ≤ 0x014) || n == 0x018 || (0x020 ≤ n && n ≤ 0x022)
    || n == 0x024 || n == 0x025 || n == 0x028 || (0x100 ≤ n && n ≤ 0x106) || n == 0x200 || (0x208 ≤ n && n ≤ 0x20F)

/-- An accumulator code a0 to a15 (R52). -/
def acc (c : BitVec 6) : Bool := 16 ≤ c.toNat && c.toNat ≤ 31

/-- Any operand code but an accumulator (R187). -/
def nonAcc (c : BitVec 6) : Bool := !acc c

/-- o, m, C or L as a destination (R52): not N, S, E, W, Z, I and no accumulator. -/
def plainDst (c : BitVec 6) : Bool := c.toNat ≤ 9 || 32 ≤ c.toNat

/-- A destination of a vector slot that decodes: the codes N, S, E, W, Z and I are ILLEGAL; an accumulator code decodes
and breaks the port rule instead (R52, R153). -/
def vecDst (c : BitVec 6) : Bool := c.toNat ≤ 9 || 16 ≤ c.toNat

/-- A destination of AMOV: o, m, C, L or an accumulator (R187). -/
def anyDst (c : BitVec 6) : Bool := plainDst c || acc c

/-- The weight operand of OPTUPD: o0 to o6 or m0 to m31 (R191). -/
def optW (c : BitVec 6) : Bool := c.toNat ≤ 6 || 32 ≤ c.toNat

/-- An engine register MTX may write (R287, R305). -/
def mtxReg (n : Nat) : Bool := n ≤ 15 && n != 12 && n != 13 && n != 15

end Wf

/-- The legality of an instruction's own fields (R43 class "bad field"; R46 for the SP format; R48, R49; R160, R187, R191 for
the cell slots; R296, R305 for the copy slots). Events carry no encoding and are always well formed. -/
def Instr.wf : Instr → Bool
  | .nop => true
  | .add _ _ _ _ _ => true
  | .sub _ _ _ _ _ => true
  | .and _ _ _ _ => true
  | .or _ _ _ _ => true
  | .xor _ _ _ _ => true
  | .andn _ _ _ _ => true
  | .shl _ _ _ _ _ => true
  | .shr _ _ _ _ _ => true
  | .sra _ _ _ _ _ => true
  | .rot _ _ _ _ _ => true
  | .min _ _ _ _ _ => true
  | .max _ _ _ _ _ => true
  | .minn _ _ _ _ _ => true
  | .maxn _ _ _ _ _ => true
  | .mul _ _ _ _ _ => true
  | .mulh _ _ _ _ => true
  | .mulhn _ _ _ _ => true
  | .div _ _ _ _ _ => true
  | .divn _ _ _ _ _ => true
  | .rem _ _ _ _ _ => true
  | .remn _ _ _ _ _ => true
  | .clz _ _ _ _ => true
  | .popc _ _ _ _ => true
  | .sext _ _ _ x => x.toNat ≤ 2
  | .zext _ _ _ x => x.toNat ≤ 2
  | .addi _ _ _ _ => true
  | .andi _ _ _ _ => true
  | .ori _ _ _ _ => true
  | .xori _ _ _ _ => true
  | .shli _ _ _ i => i.toNat < 64
  | .shri _ _ _ i => i.toNat < 64
  | .srai _ _ _ i => i.toNat < 64
  | .muli _ _ _ _ => true
  | .mini _ _ _ _ => true
  | .maxi _ _ _ _ => true
  | .li _ _ _ => true
  | .lui _ _ _ => true
  | .cmpEq _ _ _ _ => true
  | .cmpNe _ _ _ _ => true
  | .cmpLt _ _ _ _ => true
  | .cmpLe _ _ _ _ => true
  | .cmpLtn _ _ _ _ => true
  | .cmpLen _ _ _ _ => true
  | .cmpiEq _ _ _ _ => true
  | .cmpiLt _ _ _ _ => true
  | .cmpiLtn _ _ _ _ => true
  | .band _ _ _ _ => true
  | .bor _ _ _ _ => true
  | .bxor _ _ _ _ => true
  | .bandn _ _ _ _ => true
  | .bmov _ _ _ => true
  | .sel _ _ _ _ _ => true
  | .br _ _ => true
  | .j _ => true
  | .jal _ _ => true
  | .jr _ _ _ => true
  | .loop _ _ _ i => 1 ≤ i.toNat
  | .loops _ s _ i => 1 ≤ s.toNat && s.toNat ≤ 4 && 1 ≤ i.toNat
  | .mark _ => true
  | .pause _ i => 1 ≤ i.toNat && i.toNat ≤ 4095
  | .pauseExpire => true
  | .wait _ _ _ _ _ => true
  | .tend _ => true
  | .retirementComplete => true
  | .trap _ _ => true
  | .eret => true
  | .ldB _ _ _ q c _ => q || c.toNat == 0
  | .ldH _ _ _ q c _ => q || c.toNat == 0
  | .ldW _ _ _ q c _ => q || c.toNat == 0
  | .ldD _ _ _ q c _ => q || c.toNat == 0
  | .ldnB _ _ _ q c _ => q || c.toNat == 0
  | .ldnH _ _ _ q c _ => q || c.toNat == 0
  | .ldnW _ _ _ q c _ => q || c.toNat == 0
  | .stB _ _ _ q c _ => q || c.toNat == 0
  | .stH _ _ _ q c _ => q || c.toNat == 0
  | .stW _ _ _ q c _ => q || c.toNat == 0
  | .stD _ _ _ q c _ => q || c.toNat == 0
  | .ldpW _ d _ a _ => d != a
  | .ldpD _ d _ a _ => d != a
  | .stpW _ d _ a _ => d != a
  | .stpD _ d _ a _ => d != a
  | .loadReturn => true
  | .storePerformed => true
  | .xlat _ _ _ => true
  | .hinv _ _ => true
  | .hinfo _ _ _ => true
  | .handleWalkEnd => true
  | .ldtW _ _ _ _ q c => q || c.toNat == 0
  | .ldtD _ _ _ _ q c => q || c.toNat == 0
  | .sttW _ _ _ _ q c => q || c.toNat == 0
  | .sttD _ _ _ _ q c => q || c.toNat == 0
  | .ldf _ _ _ _ => true
  | .ldfk _ _ _ _ => true
  | .ste _ _ _ _ => true
  | .stfk _ _ _ _ => true
  | .feRetry => true
  | .amoAdd _ _ _ _ _ _ _ => true
  | .amoAnd _ _ _ _ _ _ _ => true
  | .amoOr _ _ _ _ _ _ _ => true
  | .amoXor _ _ _ _ _ _ _ => true
  | .amoMin _ _ _ _ _ _ _ => true
  | .amoMax _ _ _ _ _ _ _ => true
  | .amoMinn _ _ _ _ _ _ _ => true
  | .amoMaxn _ _ _ _ _ _ _ => true
  | .amoSwap _ _ _ _ _ _ _ => true
  | .amoFadd _ _ _ _ _ _ _ => true
  | .cas _ _ _ _ _ _ _ => true
  | .amoAtHome => true
  | .atomicReturn => true
  | .accAdd _ _ _ _ _ _ => true
  | .accFadd _ _ _ _ _ _ => true
  | .accBfadd _ _ _ _ _ _ => true
  | .accFmax _ _ _ _ _ _ => true
  | .accAtHome => true
  | .accRefused => true
  | .accResend => true
  | .quotaWindowStart => true
  | .fence _ q _ => q.toNat != 0
  | .flushres _ => true
  | .flushresComplete => true
  | .resid _ x t => x || t.toNat == 0
  | .mfc _ _ n => Wf.ctlAssigned n.toNat
  | .mtc _ _ n => Wf.ctlAssigned n.toNat && n.toNat != 0
  | .setfmt _ _ => true
  | .mtw _ _ _ n => n.toNat ≤ 4
  | .mfw _ _ _ n => n.toNat ≤ 4
  | .wrot _ _ _ _ _ _ => true
  | .mfaRowany _ _ _ => true
  | .mfaRowall _ _ _ => true
  | .mfaColany _ _ => true
  | .mfaColall _ _ => true
  | .mfaSummary _ _ => true
  | .talloc _ _ _ _ => true
  | .tfree _ _ => true
  | .tinfo _ _ _ _ => true
  | .tmove _ _ _ _ => true
  | .sync _ _ g => g.toNat ≤ 255
  | .cbinit _ _ _ _ => true
  | .cbexp _ _ _ _ => true
  | .cbarr _ _ _ _ q c => q || c.toNat == 0
  | .cbwait _ _ _ _ => true
  | .cbtest _ _ _ _ => true
  | .dqpush _ _ _ _ => true
  | .dqpop _ _ _ => true
  | .dqsteal _ _ _ _ => true
  | .tlaunch _ _ _ _ => true
  | .locq _ _ _ => true
  | .seal _ _ _ _ => true
  | .unseal _ _ _ _ => true
  | .playW _ _ _ h _ => h.toNat ≤ 16
  | .playD _ _ _ h _ => h.toNat ≤ 16
  | .patc _ _ _ _ => true
  | .ldatt _ _ _ _ => true
  | .compileBegin => true
  | .compileEnd => true
  | .fadd d _ _ _ _ _ => Wf.vecDst d
  | .fsub d _ _ _ _ _ => Wf.vecDst d
  | .fmul d _ _ _ _ _ _ => Wf.vecDst d
  | .fma d _ _ _ _ _ _ => Wf.vecDst d
  | .fmin d _ _ _ _ _ => Wf.vecDst d
  | .fmax d _ _ _ _ _ => Wf.vecDst d
  | .fcmpEq d _ _ _ _ _ => Wf.vecDst d
  | .fcmpNe d _ _ _ _ _ => Wf.vecDst d
  | .fcmpLt d _ _ _ _ _ => Wf.vecDst d
  | .fcmpLe d _ _ _ _ _ => Wf.vecDst d
  | .frcp d _ _ _ _ => Wf.vecDst d
  | .frsq d _ _ _ _ => Wf.vecDst d
  | .fsqrt d _ _ _ _ => Wf.vecDst d
  | .fex2 d _ _ _ _ => Wf.vecDst d
  | .flg2 d _ _ _ _ => Wf.vecDst d
  | .hadd2 d _ _ _ _ _ => Wf.vecDst d
  | .hfma2 d _ _ _ _ _ _ => Wf.vecDst d
  | .bfma2 d _ _ _ _ _ _ => Wf.vecDst d
  | .cvtF16F32 d _ _ _ _ _ => Wf.vecDst d
  | .cvtF32F16 d _ _ _ _ _ => Wf.vecDst d
  | .cvtBf16F32 d _ _ _ _ _ => Wf.vecDst d
  | .cvtF32Bf16 d _ _ _ _ _ => Wf.vecDst d
  | .cvtE4m3F32 d _ _ _ _ _ => Wf.vecDst d
  | .cvtE5m2F32 d _ _ _ _ _ => Wf.vecDst d
  | .cvtF32E4m3 d _ _ _ _ _ => Wf.vecDst d
  | .cvtF32E5m2 d _ _ _ _ _ => Wf.vecDst d
  | .cvtI32F32 d _ _ _ _ => Wf.vecDst d
  | .cvtF32I32 d _ _ _ _ => Wf.vecDst d
  | .iadd d _ _ _ _ _ _ => Wf.vecDst d
  | .isub d _ _ _ _ _ _ => Wf.vecDst d
  | .imul d _ _ _ _ _ => Wf.vecDst d
  | .imad d _ _ _ _ _ => Wf.vecDst d
  | .iabs d _ _ _ _ => Wf.vecDst d
  | .imin d _ _ _ _ _ _ => Wf.vecDst d
  | .imax d _ _ _ _ _ _ => Wf.vecDst d
  | .cellAnd d _ _ _ _ _ _ => Wf.vecDst d
  | .cellOr d _ _ _ _ _ _ => Wf.vecDst d
  | .cellXor d _ _ _ _ _ _ => Wf.vecDst d
  | .cellShl d _ b _ _ _ m => Wf.vecDst d && (!m || b.toNat < 32)
  | .cellShr d _ b _ _ _ m => Wf.vecDst d && (!m || b.toNat < 32)
  | .cellSra d _ b _ _ _ m => Wf.vecDst d && (!m || b.toNat < 32)
  | .icmpEq d _ _ _ _ _ _ => Wf.vecDst d
  | .icmpNe d _ _ _ _ _ _ => Wf.vecDst d
  | .icmpLt d _ _ _ _ _ _ => Wf.vecDst d
  | .icmpLtn d _ _ _ _ _ _ => Wf.vecDst d
  | .cellSel d _ _ _ _ _ => Wf.vecDst d
  | .mov d _ b _ _ _ m => Wf.vecDst d && (if m then b.toNat == 0b001011 || b.toNat == 0b001100 else b.toNat == 0)
  | .ldc d _ _ _ _ _ _ => Wf.vecDst d
  | .stc _ _ _ _ _ => true
  | .vgath d _ _ _ _ _ => Wf.vecDst d
  | .vscat _ _ _ _ => true
  | .vredAdd d _ _ _ _ => Wf.vecDst d
  | .vredMax d _ _ _ _ => Wf.vecDst d
  | .vredMin d _ _ _ _ => Wf.vecDst d
  | .vredOr d _ _ _ _ => Wf.vecDst d
  | .vperm d _ _ _ _ _ => Wf.vecDst d
  | .vbcast d _ b _ _ _ m => Wf.vecDst d && (!m || b.toNat < 32)
  | .flag d _ _ _ _ => Wf.vecDst d
  | .srng d _ _ _ _ => Wf.vecDst d
  | .rkval d _ _ _ _ => Wf.vecDst d
  | .optupd d a b _ _ _ _ => (Wf.optW d || Wf.acc d) && Wf.acc a && (b.toNat == 0 || b.toNat == 2 || b.toNat == 4) && d.toNat != b.toNat && d.toNat != b.toNat + 1
  | .mma d a b _ _ => Wf.acc d && Wf.nonAcc a && Wf.nonAcc b
  | .mmaSel d _ b _ => Wf.acc d && Wf.nonAcc b
  | .mmaNeg d a b _ _ => Wf.acc d && Wf.nonAcc a && Wf.nonAcc b
  | .aclr d _ => Wf.acc d
  | .amov d a _ _ _ => Wf.anyDst d && Wf.acc a
  | .ald d a _ _ _ => Wf.acc d && Wf.nonAcc a
  | .arnd d a b _ _ _ _ => Wf.plainDst d && Wf.acc a && Wf.nonAcc b
  | .racc d _ b _ => Wf.acc d && Wf.nonAcc b
  | .wordExecute => true
  | .globalStallEnd => true
  | .aggregatesArrive => true
  | .trapTaken => true
  | .watchdog => true
  | .copy _ _ _ _ _ _ _ _ => true
  | .copyg _ _ _ _ _ _ _ _ _ _ => true
  | .copys _ _ _ _ _ _ _ _ _ _ => true
  | .copym _ _ _ _ _ _ _ _ _ => true
  | .fill _ _ _ _ _ _ _ _ _ => true
  | .bind _ _ => true
  | .unbind _ n _ s => n.toNat ≤ 7 && !(4 ≤ s.toNat && s.toNat ≤ 7)
  | .rankx _ _ _ _ _ _ => true
  | .eresume _ _ => true
  | .ecancel _ _ _ => true
  | .xmit _ _ _ _ _ _ _ _ => true
  | .imux _ _ _ _ => true
  | .phaseOpen _ _ => true
  | .phaseClose _ _ => true
  | .phaseFrameStart => true
  | .phaseFlit => true
  | .mtx _ _ b _ n => Wf.mtxReg n.toNat && (b.toNat == 0 || Wf.mtxReg (n.toNat + 1))
  | .mfx _ _ _ _ => true
  | .tpref _ _ _ _ _ => true
  | .tflush _ _ _ _ => true
  | .commandStart => true
  | .enginePageTranslate => true
  | .sectorLand => true
  | .commandEnd => true
  | .linkFailure => true
  | .edgeLoaderFill => true
  | .drainWrite => true
  | .impalaRank => true
  | .windowContribution => true
  | .ringEntry => true
  | .launch => true
  | .xfer => true
  | .xferComplete => true
  | .skipif => true
  | .jump => true
  | .call => true
  | .ret => true
  | .waitc => true
  | .waitcPoll => true
  | .waitcTimeout => true
  | .listFence => true
  | .listFenceDone => true
  | .signal => true
  | .groupset => true
  | .groupsetDone => true
  | .note => true
  | .haltq => true
  | .taskStart => true
  | .agingStep => true
  | .preemption => true
  | .quiesceExpire => true
  | .resumption => true
  | .doorbell => true
  | .qcfg => true
  | .qctlResume => true
  | .qctlSkip => true
  | .jctlCancel => true
  | .jctlKill => true
  | .jhead => true
  | .aqcfg => true
  | .registerWrite => true
  | .aqTailPoll => true
  | .partCreate => true
  | .partArrays => true
  | .partDissolve => true
  | .ptroot => true
  | .invalidate => true
  | .keyLoad => true
  | .keyAssign => true
  | .shares => true
  | .queueAssign => true
  | .waymask => true
  | .netReserve => true
  | .hbmReserve => true
  | .channels => true
  | .clockLock => true
  | .redwin => true
  | .migtable => true
  | .migrate => true
  | .migrationTrigger => true
  | .quota => true
  | .readrec => true
  | .monitor => true
  | .savepool => true
  | .tileAlloc => true
  | .tileFree => true
  | .preempt => true
  | .power => true
  | .freeze => true
  | .debugUnlock => true
  | .frzN => true
  | .powerWindow => true
  | .thermalTrip => true
  | .hostFetchadd => true
  | .hostSwap => true
  | .hostCas => true
  | .flr => true
  | .function0Reset => true
  | .coldReset => true
  | .ucieLinkTrain => true
  | .hbmTrain => true
  | .pcieEnumerate => true
  | .rhodiPortTrain => true
  | .getCertificate => true
  | .getMeasurements => true
  | .firmwareUpdate => true
  | .instructionCacheFill => true
  | .hostWrite => true
  | .peerRequest => true
  | .eccError => true
  | .blockingTaskTimeout => true
  | .spdmKeyExchange => true

end Sys2Proof
end

