-- ==== Sys2Proof/Decode.lean ====
section
/-! DEFINITION. The decoder of each slot class, total on any 32-bit word and rejecting by name (R42 to R45, R47, R51, R54,
R56 to R59), and after it the encoder, written from the same encoding tables. -/

namespace Sys2Proof

/-- Why a slot word is not an instruction (the classes of R43 that one word decides). -/
inductive Reject where
  /-- An opcode value marked reserved in the map for that slot class: ILLEGAL. -/
  | reserved
  /-- A cell opcode in a cell slot that does not accept it: ILLEGAL (R53). -/
  | wrongSlot
  /-- A base opcode with an illegal field value: ILLEGAL. -/
  | badField
  /-- An opcode of an extension space that FEAT0 does not announce: UNIMP (R62). -/
  | extension
  deriving DecidableEq, Repr

/-- The three slot classes by their word format. -/
inductive SlotClass where
  | sc
  | cell
  | copy
  deriving DecidableEq, Repr

/-- The cell slot a CX word stands in. -/
inductive CellSlot where
  | va
  | vb
  | mx
  deriving DecidableEq, Repr

/-- The number in the `len` bits of a word from bit `lo` up. -/
def fld (x : BitVec 32) (lo len : Nat) : Nat := x.toNat / 2 ^ lo % 2 ^ len

/-- The same bits as a bit vector. -/
def bits (x : BitVec 32) (lo len : Nat) : BitVec len := BitVec.ofNat len (fld x lo len)

/-- One bit of a word. -/
def bit (x : BitVec 32) (lo : Nat) : Bool := fld x lo 1 == 1

/-- One bit as a number. -/
def bnat (b : Bool) : Nat := if b then 1 else 0

/-- The instruction, where its fields are legal. -/
def checked (i : Instr) : Except Reject Instr := if i.wf then .ok i else .error .badField

/-- An SC word whose major opcode is not NOP (R56, R57). -/
def decodeScOp (x : BitVec 32) : Except Reject Instr :=
  match fld x 25 7 with
  | 0x01 => if fld x 0 6 == 0 then checked (.add (bits x 22 3) (bits x 17 5) (bits x 12 5) (bits x 7 5) (bit x 6))
      else if fld x 0 6 == 1 then checked (.sub (bits x 22 3) (bits x 17 5) (bits x 12 5) (bits x 7 5) (bit x 6))
      else if fld x 0 7 == 2 then checked (.and (bits x 22 3) (bits x 17 5) (bits x 12 5) (bits x 7 5))
      else if fld x 0 7 == 3 then checked (.or (bits x 22 3) (bits x 17 5) (bits x 12 5) (bits x 7 5))
      else if fld x 0 7 == 4 then checked (.xor (bits x 22 3) (bits x 17 5) (bits x 12 5) (bits x 7 5))
      else if fld x 0 7 == 5 then checked (.andn (bits x 22 3) (bits x 17 5) (bits x 12 5) (bits x 7 5))
      else if fld x 0 6 == 6 then checked (.shl (bits x 22 3) (bits x 17 5) (bits x 12 5) (bits x 7 5) (bit x 6))
      else if fld x 0 6 == 7 then checked (.shr (bits x 22 3) (bits x 17 5) (bits x 12 5) (bits x 7 5) (bit x 6))
      else if fld x 0 6 == 8 then checked (.sra (bits x 22 3) (bits x 17 5) (bits x 12 5) (bits x 7 5) (bit x 6))
      else if fld x 0 6 == 9 then checked (.rot (bits x 22 3) (bits x 17 5) (bits x 12 5) (bits x 7 5) (bit x 6))
      else if fld x 0 6 == 10 then checked (.min (bits x 22 3) (bits x 17 5) (bits x 12 5) (bits x 7 5) (bit x 6))
      else if fld x 0 6 == 11 then checked (.max (bits x 22 3) (bits x 17 5) (bits x 12 5) (bits x 7 5) (bit x 6))
      else if fld x 0 6 == 12 then checked (.minn (bits x 22 3) (bits x 17 5) (bits x 12 5) (bits x 7 5) (bit x 6))
      else if fld x 0 6 == 13 then checked (.maxn (bits x 22 3) (bits x 17 5) (bits x 12 5) (bits x 7 5) (bit x 6))
      else if fld x 0 6 == 14 then checked (.mul (bits x 22 3) (bits x 17 5) (bits x 12 5) (bits x 7 5) (bit x 6))
      else if fld x 0 7 == 15 then checked (.mulh (bits x 22 3) (bits x 17 5) (bits x 12 5) (bits x 7 5))
      else if fld x 0 7 == 16 then checked (.mulhn (bits x 22 3) (bits x 17 5) (bits x 12 5) (bits x 7 5))
      else if fld x 0 6 == 17 then checked (.div (bits x 22 3) (bits x 17 5) (bits x 12 5) (bits x 7 5) (bit x 6))
      else if fld x 0 6 == 18 then checked (.divn (bits x 22 3) (bits x 17 5) (bits x 12 5) (bits x 7 5) (bit x 6))
      else if fld x 0 6 == 19 then checked (.rem (bits x 22 3) (bits x 17 5) (bits x 12 5) (bits x 7 5) (bit x 6))
      else if fld x 0 6 == 20 then checked (.remn (bits x 22 3) (bits x 17 5) (bits x 12 5) (bits x 7 5) (bit x 6))
      else if fld x 0 6 == 21 && fld x 7 5 == 0 then checked (.clz (bits x 22 3) (bits x 17 5) (bits x 12 5) (bit x 6))
      else if fld x 0 6 == 22 && fld x 7 5 == 0 then checked (.popc (bits x 22 3) (bits x 17 5) (bits x 12 5) (bit x 6))
      else if fld x 0 7 == 23 then checked (.sext (bits x 22 3) (bits x 17 5) (bits x 12 5) (bits x 7 5))
      else if fld x 0 7 == 24 then checked (.zext (bits x 22 3) (bits x 17 5) (bits x 12 5) (bits x 7 5))
      else .error .badField
  | 0x02 => checked (.addi (bits x 22 3) (bits x 17 5) (bits x 12 5) (bits x 0 12))
  | 0x03 => checked (.andi (bits x 22 3) (bits x 17 5) (bits x 12 5) (bits x 0 12))
  | 0x04 => checked (.ori (bits x 22 3) (bits x 17 5) (bits x 12 5) (bits x 0 12))
  | 0x05 => checked (.xori (bits x 22 3) (bits x 17 5) (bits x 12 5) (bits x 0 12))
  | 0x06 => checked (.shli (bits x 22 3) (bits x 17 5) (bits x 12 5) (bits x 0 12))
  | 0x07 => checked (.shri (bits x 22 3) (bits x 17 5) (bits x 12 5) (bits x 0 12))
  | 0x08 => checked (.srai (bits x 22 3) (bits x 17 5) (bits x 12 5) (bits x 0 12))
  | 0x09 => checked (.muli (bits x 22 3) (bits x 17 5) (bits x 12 5) (bits x 0 12))
  | 0x0A => checked (.mini (bits x 22 3) (bits x 17 5) (bits x 12 5) (bits x 0 12))
  | 0x0B => checked (.maxi (bits x 22 3) (bits x 17 5) (bits x 12 5) (bits x 0 12))
  | 0x0C => checked (.li (bits x 22 3) (bits x 17 5) (bits x 0 17))
  | 0x0D => checked (.lui (bits x 22 3) (bits x 17 5) (bits x 0 17))
  | 0x0E => if fld x 0 7 == 0 && fld x 20 2 == 0 then checked (.cmpEq (bits x 22 3) (bits x 17 3) (bits x 12 5) (bits x 7 5))
      else if fld x 0 7 == 1 && fld x 20 2 == 0 then checked (.cmpNe (bits x 22 3) (bits x 17 3) (bits x 12 5) (bits x 7 5))
      else if fld x 0 7 == 2 && fld x 20 2 == 0 then checked (.cmpLt (bits x 22 3) (bits x 17 3) (bits x 12 5) (bits x 7 5))
      else if fld x 0 7 == 3 && fld x 20 2 == 0 then checked (.cmpLe (bits x 22 3) (bits x 17 3) (bits x 12 5) (bits x 7 5))
      else if fld x 0 7 == 4 && fld x 20 2 == 0 then checked (.cmpLtn (bits x 22 3) (bits x 17 3) (bits x 12 5) (bits x 7 5))
      else if fld x 0 7 == 5 && fld x 20 2 == 0 then checked (.cmpLen (bits x 22 3) (bits x 17 3) (bits x 12 5) (bits x 7 5))
      else .error .badField
  | 0x0F => if fld x 20 2 == 0 then checked (.cmpiEq (bits x 22 3) (bits x 17 3) (bits x 12 5) (bits x 0 12))
      else .error .badField
  | 0x10 => if fld x 20 2 == 0 then checked (.cmpiLt (bits x 22 3) (bits x 17 3) (bits x 12 5) (bits x 0 12))
      else .error .badField
  | 0x11 => if fld x 20 2 == 0 then checked (.cmpiLtn (bits x 22 3) (bits x 17 3) (bits x 12 5) (bits x 0 12))
      else .error .badField
  | 0x12 => if fld x 0 7 == 0 && fld x 10 2 == 0 && fld x 15 2 == 0 && fld x 20 2 == 0 then checked (.band (bits x 22 3) (bits x 17 3) (bits x 12 3) (bits x 7 3))
      else if fld x 0 7 == 1 && fld x 10 2 == 0 && fld x 15 2 == 0 && fld x 20 2 == 0 then checked (.bor (bits x 22 3) (bits x 17 3) (bits x 12 3) (bits x 7 3))
      else if fld x 0 7 == 2 && fld x 10 2 == 0 && fld x 15 2 == 0 && fld x 20 2 == 0 then checked (.bxor (bits x 22 3) (bits x 17 3) (bits x 12 3) (bits x 7 3))
      else if fld x 0 7 == 3 && fld x 10 2 == 0 && fld x 15 2 == 0 && fld x 20 2 == 0 then checked (.bandn (bits x 22 3) (bits x 17 3) (bits x 12 3) (bits x 7 3))
      else if fld x 0 12 == 4 && fld x 15 2 == 0 && fld x 20 2 == 0 then checked (.bmov (bits x 22 3) (bits x 17 3) (bits x 12 3))
      else .error .badField
  | 0x13 => if fld x 3 4 == 0 then checked (.sel (bits x 22 3) (bits x 17 5) (bits x 12 5) (bits x 7 5) (bits x 0 3))
      else .error .badField
  | 0x14 => checked (.br (bits x 22 3) (bits x 0 22))
  | 0x15 => if fld x 22 3 == 0 then checked (.j (bits x 0 22))
      else .error .badField
  | 0x16 => checked (.jal (bits x 22 3) (bits x 0 22))
  | 0x17 => if fld x 0 12 == 0 then checked (.jr (bits x 22 3) (bits x 17 5) (bits x 12 5))
      else .error .badField
  | 0x18 => if fld x 18 4 == 0 then checked (.loop (bits x 22 3) (bit x 17) (bits x 12 5) (bits x 0 12))
      else .error .badField
  | 0x19 => if fld x 20 2 == 0 then checked (.loops (bits x 22 3) (bits x 17 3) (bits x 12 5) (bits x 0 12))
      else .error .badField
  | 0x1A => if fld x 0 22 == 0 then checked (.mark (bits x 22 3))
      else .error .badField
  | 0x1B => if fld x 17 5 == 0 then checked (.pause (bits x 22 3) (bits x 0 17))
      else .error .badField
  | 0x1C => checked (.wait (bits x 22 3) (bits x 17 5) (bits x 12 5) (bits x 6 6) (bits x 0 6))
  | 0x1D => if fld x 0 22 == 0 then checked (.tend (bits x 22 3))
      else .error .badField
  | 0x1E => if fld x 17 5 == 0 then checked (.trap (bits x 22 3) (bits x 0 17))
      else .error .badField
  | 0x1F => if fld x 0 25 == 0 then checked (.eret)
      else .error .badField
  | 0x20 => if fld x 12 1 == 0 then checked (.ldB (bits x 22 3) (bits x 17 5) (bits x 13 4) (bit x 11) (bits x 9 2) (bits x 0 9))
      else .error .badField
  | 0x21 => if fld x 12 1 == 0 then checked (.ldH (bits x 22 3) (bits x 17 5) (bits x 13 4) (bit x 11) (bits x 9 2) (bits x 0 9))
      else .error .badField
  | 0x22 => if fld x 12 1 == 0 then checked (.ldW (bits x 22 3) (bits x 17 5) (bits x 13 4) (bit x 11) (bits x 9 2) (bits x 0 9))
      else .error .badField
  | 0x23 => if fld x 12 1 == 0 then checked (.ldD (bits x 22 3) (bits x 17 5) (bits x 13 4) (bit x 11) (bits x 9 2) (bits x 0 9))
      else .error .badField
  | 0x24 => if fld x 12 1 == 0 then checked (.ldnB (bits x 22 3) (bits x 17 5) (bits x 13 4) (bit x 11) (bits x 9 2) (bits x 0 9))
      else .error .badField
  | 0x25 => if fld x 12 1 == 0 then checked (.ldnH (bits x 22 3) (bits x 17 5) (bits x 13 4) (bit x 11) (bits x 9 2) (bits x 0 9))
      else .error .badField
  | 0x26 => if fld x 12 1 == 0 then checked (.ldnW (bits x 22 3) (bits x 17 5) (bits x 13 4) (bit x 11) (bits x 9 2) (bits x 0 9))
      else .error .badField
  | 0x27 => if fld x 11 1 == 0 then checked (.stB (bits x 22 3) (bits x 17 5) (bits x 13 4) (bit x 12) (bits x 9 2) (bits x 0 9))
      else .error .badField
  | 0x28 => if fld x 11 1 == 0 then checked (.stH (bits x 22 3) (bits x 17 5) (bits x 13 4) (bit x 12) (bits x 9 2) (bits x 0 9))
      else .error .badField
  | 0x29 => if fld x 11 1 == 0 then checked (.stW (bits x 22 3) (bits x 17 5) (bits x 13 4) (bit x 12) (bits x 9 2) (bits x 0 9))
      else .error .badField
  | 0x2A => if fld x 11 1 == 0 then checked (.stD (bits x 22 3) (bits x 17 5) (bits x 13 4) (bit x 12) (bits x 9 2) (bits x 0 9))
      else .error .badField
  | 0x2B => checked (.ldpW (bits x 22 3) (bits x 17 5) (bits x 13 4) (bits x 8 5) (bits x 0 8))
  | 0x2C => checked (.ldpD (bits x 22 3) (bits x 17 5) (bits x 13 4) (bits x 8 5) (bits x 0 8))
  | 0x2D => checked (.stpW (bits x 22 3) (bits x 17 5) (bits x 13 4) (bits x 8 5) (bits x 0 8))
  | 0x2E => checked (.stpD (bits x 22 3) (bits x 17 5) (bits x 13 4) (bits x 8 5) (bits x 0 8))
  | 0x30 => if fld x 0 12 == 0 && fld x 21 1 == 0 then checked (.xlat (bits x 22 3) (bits x 17 4) (bits x 12 5))
      else .error .badField
  | 0x31 => if fld x 0 17 == 0 && fld x 21 1 == 0 then checked (.hinv (bits x 22 3) (bits x 17 4))
      else .error .badField
  | 0x32 => if fld x 0 12 == 0 then checked (.hinfo (bits x 22 3) (bits x 17 5) (bits x 12 5))
      else .error .badField
  | 0x34 => if fld x 0 2 == 0 && fld x 5 1 == 0 then checked (.ldtW (bits x 22 3) (bits x 17 5) (bits x 11 6) (bits x 6 5) (bit x 4) (bits x 2 2))
      else .error .badField
  | 0x35 => if fld x 0 2 == 0 && fld x 5 1 == 0 then checked (.ldtD (bits x 22 3) (bits x 17 5) (bits x 11 6) (bits x 6 5) (bit x 4) (bits x 2 2))
      else .error .badField
  | 0x36 => if fld x 0 2 == 0 && fld x 4 1 == 0 then checked (.sttW (bits x 22 3) (bits x 17 5) (bits x 11 6) (bits x 6 5) (bit x 5) (bits x 2 2))
      else .error .badField
  | 0x37 => if fld x 0 2 == 0 && fld x 4 1 == 0 then checked (.sttD (bits x 22 3) (bits x 17 5) (bits x 11 6) (bits x 6 5) (bit x 5) (bits x 2 2))
      else .error .badField
  | 0x38 => if fld x 0 6 == 0 then checked (.ldf (bits x 22 3) (bits x 17 5) (bits x 11 6) (bits x 6 5))
      else .error .badField
  | 0x39 => if fld x 0 6 == 0 then checked (.ldfk (bits x 22 3) (bits x 17 5) (bits x 11 6) (bits x 6 5))
      else .error .badField
  | 0x3A => if fld x 0 6 == 0 then checked (.ste (bits x 22 3) (bits x 17 5) (bits x 11 6) (bits x 6 5))
      else .error .badField
  | 0x3B => if fld x 0 6 == 0 then checked (.stfk (bits x 22 3) (bits x 17 5) (bits x 11 6) (bits x 6 5))
      else .error .badField
  | 0x3C => if fld x 4 4 == 0 then checked (.amoAdd (bits x 22 3) (bits x 17 5) (bits x 13 4) (bits x 8 5) (bit x 3) (bit x 2) (bits x 0 2))
      else if fld x 4 4 == 1 then checked (.amoAnd (bits x 22 3) (bits x 17 5) (bits x 13 4) (bits x 8 5) (bit x 3) (bit x 2) (bits x 0 2))
      else if fld x 4 4 == 2 then checked (.amoOr (bits x 22 3) (bits x 17 5) (bits x 13 4) (bits x 8 5) (bit x 3) (bit x 2) (bits x 0 2))
      else if fld x 4 4 == 3 then checked (.amoXor (bits x 22 3) (bits x 17 5) (bits x 13 4) (bits x 8 5) (bit x 3) (bit x 2) (bits x 0 2))
      else if fld x 4 4 == 4 then checked (.amoMin (bits x 22 3) (bits x 17 5) (bits x 13 4) (bits x 8 5) (bit x 3) (bit x 2) (bits x 0 2))
      else if fld x 4 4 == 5 then checked (.amoMax (bits x 22 3) (bits x 17 5) (bits x 13 4) (bits x 8 5) (bit x 3) (bit x 2) (bits x 0 2))
      else if fld x 4 4 == 6 then checked (.amoMinn (bits x 22 3) (bits x 17 5) (bits x 13 4) (bits x 8 5) (bit x 3) (bit x 2) (bits x 0 2))
      else if fld x 4 4 == 7 then checked (.amoMaxn (bits x 22 3) (bits x 17 5) (bits x 13 4) (bits x 8 5) (bit x 3) (bit x 2) (bits x 0 2))
      else if fld x 4 4 == 8 then checked (.amoSwap (bits x 22 3) (bits x 17 5) (bits x 13 4) (bits x 8 5) (bit x 3) (bit x 2) (bits x 0 2))
      else if fld x 4 4 == 9 then checked (.amoFadd (bits x 22 3) (bits x 17 5) (bits x 13 4) (bits x 8 5) (bit x 3) (bit x 2) (bits x 0 2))
      else .error .badField
  | 0x3D => if fld x 4 4 == 0 && fld x 17 1 == 0 then checked (.cas (bits x 22 3) (bits x 18 4) (bits x 13 4) (bits x 8 5) (bit x 3) (bit x 2) (bits x 0 2))
      else .error .badField
  | 0x3E => if fld x 3 5 == 0 then checked (.accAdd (bits x 22 3) (bits x 17 5) (bits x 13 4) (bits x 8 5) (bit x 2) (bits x 0 2))
      else if fld x 3 5 == 2 then checked (.accFadd (bits x 22 3) (bits x 17 5) (bits x 13 4) (bits x 8 5) (bit x 2) (bits x 0 2))
      else if fld x 3 5 == 4 then checked (.accBfadd (bits x 22 3) (bits x 17 5) (bits x 13 4) (bits x 8 5) (bit x 2) (bits x 0 2))
      else if fld x 3 5 == 6 then checked (.accFmax (bits x 22 3) (bits x 17 5) (bits x 13 4) (bits x 8 5) (bit x 2) (bits x 0 2))
      else .error .badField
  | 0x40 => if fld x 0 9 == 0 && fld x 13 9 == 0 then checked (.fence (bits x 22 3) (bits x 11 2) (bits x 9 2))
      else .error .badField
  | 0x41 => if fld x 0 22 == 0 then checked (.flushres (bits x 22 3))
      else .error .badField
  | 0x42 => if fld x 0 11 == 0 && fld x 18 4 == 0 then checked (.resid (bits x 22 3) (bit x 17) (bits x 11 6))
      else .error .badField
  | 0x44 => if fld x 12 5 == 0 then checked (.mfc (bits x 22 3) (bits x 17 5) (bits x 0 12))
      else .error .badField
  | 0x45 => if fld x 17 5 == 0 then checked (.mtc (bits x 22 3) (bits x 12 5) (bits x 0 12))
      else .error .badField
  | 0x46 => if fld x 0 12 == 0 && fld x 17 5 == 0 then checked (.setfmt (bits x 22 3) (bits x 12 5))
      else .error .badField
  | 0x48 => if fld x 3 9 == 0 && fld x 20 2 == 0 then checked (.mtw (bits x 22 3) (bits x 17 3) (bits x 12 5) (bits x 0 3))
      else .error .badField
  | 0x49 => if fld x 3 9 == 0 && fld x 15 2 == 0 then checked (.mfw (bits x 22 3) (bits x 17 5) (bits x 12 3) (bits x 0 3))
      else .error .badField
  | 0x4A => if fld x 20 2 == 0 then checked (.wrot (bits x 22 3) (bits x 17 3) (bits x 12 5) (bits x 10 2) (bit x 9) (bits x 0 9))
      else .error .badField
  | 0x4B => if fld x 0 12 == 0 then checked (.mfaRowany (bits x 22 3) (bits x 17 5) (bits x 12 5))
      else if fld x 0 12 == 1 then checked (.mfaRowall (bits x 22 3) (bits x 17 5) (bits x 12 5))
      else if fld x 0 17 == 2 then checked (.mfaColany (bits x 22 3) (bits x 17 5))
      else if fld x 0 17 == 3 then checked (.mfaColall (bits x 22 3) (bits x 17 5))
      else if fld x 0 17 == 4 then checked (.mfaSummary (bits x 22 3) (bits x 17 5))
      else .error .badField
  | 0x4C => if fld x 0 6 == 0 then checked (.talloc (bits x 22 3) (bits x 17 5) (bits x 11 6) (bits x 6 5))
      else .error .badField
  | 0x4D => if fld x 0 11 == 0 && fld x 17 5 == 0 then checked (.tfree (bits x 22 3) (bits x 11 6))
      else .error .badField
  | 0x4E => if fld x 0 6 == 0 then checked (.tinfo (bits x 22 3) (bits x 17 5) (bits x 11 6) (bits x 6 5))
      else .error .badField
  | 0x4F => if fld x 0 6 == 0 then checked (.tmove (bits x 22 3) (bits x 17 5) (bits x 11 6) (bits x 6 5))
      else .error .badField
  | 0x50 => if fld x 12 5 == 0 then checked (.sync (bits x 22 3) (bits x 17 5) (bits x 0 12))
      else .error .badField
  | 0x51 => if fld x 0 6 == 0 then checked (.cbinit (bits x 22 3) (bits x 17 5) (bits x 11 6) (bits x 6 5))
      else .error .badField
  | 0x52 => if fld x 0 6 == 0 then checked (.cbexp (bits x 22 3) (bits x 17 5) (bits x 11 6) (bits x 6 5))
      else .error .badField
  | 0x53 => if fld x 0 2 == 0 && fld x 4 1 == 0 then checked (.cbarr (bits x 22 3) (bits x 17 5) (bits x 11 6) (bits x 6 5) (bit x 5) (bits x 2 2))
      else .error .badField
  | 0x54 => if fld x 0 6 == 0 then checked (.cbwait (bits x 22 3) (bits x 17 5) (bits x 11 6) (bits x 6 5))
      else .error .badField
  | 0x55 => if fld x 0 6 == 0 then checked (.cbtest (bits x 22 3) (bits x 17 5) (bits x 11 6) (bits x 6 5))
      else .error .badField
  | 0x58 => if fld x 3 9 == 0 then checked (.dqpush (bits x 22 3) (bits x 17 5) (bits x 12 5) (bits x 0 3))
      else .error .badField
  | 0x59 => if fld x 3 14 == 0 then checked (.dqpop (bits x 22 3) (bits x 17 5) (bits x 0 3))
      else .error .badField
  | 0x5A => if fld x 3 4 == 0 && fld x 12 5 == 0 then checked (.dqsteal (bits x 22 3) (bits x 17 5) (bits x 7 5) (bits x 0 3))
      else .error .badField
  | 0x5B => if fld x 9 4 == 0 then checked (.tlaunch (bits x 22 3) (bits x 17 5) (bits x 13 4) (bits x 0 9))
      else .error .badField
  | 0x5C => if fld x 0 12 == 0 then checked (.locq (bits x 22 3) (bits x 17 5) (bits x 12 5))
      else .error .badField
  | 0x5D => if fld x 0 7 == 0 then checked (.seal (bits x 22 3) (bits x 17 5) (bits x 12 5) (bits x 7 5))
      else .error .badField
  | 0x5E => if fld x 0 7 == 0 then checked (.unseal (bits x 22 3) (bits x 17 5) (bits x 12 5) (bits x 7 5))
      else .error .badField
  | 0x60 => if fld x 6 1 == 0 then checked (.playW (bits x 22 3) (bits x 17 5) (bits x 12 5) (bits x 7 5) (bits x 0 6))
      else if fld x 6 1 == 1 then checked (.playD (bits x 22 3) (bits x 17 5) (bits x 12 5) (bits x 7 5) (bits x 0 6))
      else .error .badField
  | 0x61 => if fld x 6 6 == 0 then checked (.patc (bits x 22 3) (bits x 17 5) (bits x 12 5) (bits x 0 6))
      else .error .badField
  | 0x62 => if fld x 0 6 == 0 then checked (.ldatt (bits x 22 3) (bits x 17 5) (bits x 11 6) (bits x 6 5))
      else .error .badField
  | op => if 0x70 ≤ op then .error .extension else .error .reserved

/-- The SC slot: the all-zero word is NOP (R40), and a NOP opcode with other bits set is a bad field. -/
def decodeSc (x : BitVec 32) : Except Reject Instr :=
  if x == 0 then .ok .nop else if fld x 25 7 == 0 then .error .badField else decodeScOp x

/-- A cell word whose opcode is not NOP, whatever its slot (R58). -/
def decodeCellOp (x : BitVec 32) : Except Reject Instr :=
  match fld x 24 8 with
  | 0x01 => if fld x 0 1 == 0 then checked (.fadd (bits x 18 6) (bits x 12 6) (bits x 6 6) (bits x 3 3) (bit x 2) (bit x 1))
      else .error .badField
  | 0x02 => if fld x 0 1 == 0 then checked (.fsub (bits x 18 6) (bits x 12 6) (bits x 6 6) (bits x 3 3) (bit x 2) (bit x 1))
      else .error .badField
  | 0x03 => checked (.fmul (bits x 18 6) (bits x 12 6) (bits x 6 6) (bits x 3 3) (bit x 2) (bit x 1) (bit x 0))
  | 0x04 => checked (.fma (bits x 18 6) (bits x 12 6) (bits x 6 6) (bits x 3 3) (bit x 2) (bit x 1) (bit x 0))
  | 0x05 => if fld x 0 1 == 0 then checked (.fmin (bits x 18 6) (bits x 12 6) (bits x 6 6) (bits x 3 3) (bit x 2) (bit x 1))
      else .error .badField
  | 0x06 => if fld x 0 1 == 0 then checked (.fmax (bits x 18 6) (bits x 12 6) (bits x 6 6) (bits x 3 3) (bit x 2) (bit x 1))
      else .error .badField
  | 0x08 => if fld x 0 1 == 0 then checked (.fcmpEq (bits x 18 6) (bits x 12 6) (bits x 6 6) (bits x 3 3) (bit x 2) (bit x 1))
      else .error .badField
  | 0x09 => if fld x 0 1 == 0 then checked (.fcmpNe (bits x 18 6) (bits x 12 6) (bits x 6 6) (bits x 3 3) (bit x 2) (bit x 1))
      else .error .badField
  | 0x0A => if fld x 0 1 == 0 then checked (.fcmpLt (bits x 18 6) (bits x 12 6) (bits x 6 6) (bits x 3 3) (bit x 2) (bit x 1))
      else .error .badField
  | 0x0B => if fld x 0 1 == 0 then checked (.fcmpLe (bits x 18 6) (bits x 12 6) (bits x 6 6) (bits x 3 3) (bit x 2) (bit x 1))
      else .error .badField
  | 0x0C => if fld x 0 1 == 0 && fld x 6 6 == 0 then checked (.frcp (bits x 18 6) (bits x 12 6) (bits x 3 3) (bit x 2) (bit x 1))
      else .error .badField
  | 0x0D => if fld x 0 1 == 0 && fld x 6 6 == 0 then checked (.frsq (bits x 18 6) (bits x 12 6) (bits x 3 3) (bit x 2) (bit x 1))
      else .error .badField
  | 0x0E => if fld x 0 1 == 0 && fld x 6 6 == 0 then checked (.fsqrt (bits x 18 6) (bits x 12 6) (bits x 3 3) (bit x 2) (bit x 1))
      else .error .badField
  | 0x0F => if fld x 0 1 == 0 && fld x 6 6 == 0 then checked (.fex2 (bits x 18 6) (bits x 12 6) (bits x 3 3) (bit x 2) (bit x 1))
      else .error .badField
  | 0x10 => if fld x 0 1 == 0 && fld x 6 6 == 0 then checked (.flg2 (bits x 18 6) (bits x 12 6) (bits x 3 3) (bit x 2) (bit x 1))
      else .error .badField
  | 0x12 => if fld x 0 1 == 0 then checked (.hadd2 (bits x 18 6) (bits x 12 6) (bits x 6 6) (bits x 3 3) (bit x 2) (bit x 1))
      else .error .badField
  | 0x13 => checked (.hfma2 (bits x 18 6) (bits x 12 6) (bits x 6 6) (bits x 3 3) (bit x 2) (bit x 1) (bit x 0))
  | 0x14 => checked (.bfma2 (bits x 18 6) (bits x 12 6) (bits x 6 6) (bits x 3 3) (bit x 2) (bit x 1) (bit x 0))
  | 0x18 => if fld x 6 6 == 0 then checked (.cvtF16F32 (bits x 18 6) (bits x 12 6) (bits x 3 3) (bit x 2) (bit x 1) (bit x 0))
      else .error .badField
  | 0x19 => if fld x 6 6 == 0 then checked (.cvtF32F16 (bits x 18 6) (bits x 12 6) (bits x 3 3) (bit x 2) (bit x 1) (bit x 0))
      else .error .badField
  | 0x1A => if fld x 6 6 == 0 then checked (.cvtBf16F32 (bits x 18 6) (bits x 12 6) (bits x 3 3) (bit x 2) (bit x 1) (bit x 0))
      else .error .badField
  | 0x1B => if fld x 6 6 == 0 then checked (.cvtF32Bf16 (bits x 18 6) (bits x 12 6) (bits x 3 3) (bit x 2) (bit x 1) (bit x 0))
      else .error .badField
  | 0x1C => if fld x 0 1 == 0 then checked (.cvtE4m3F32 (bits x 18 6) (bits x 12 6) (bits x 6 6) (bits x 3 3) (bit x 2) (bit x 1))
      else .error .badField
  | 0x1D => if fld x 0 1 == 0 then checked (.cvtE5m2F32 (bits x 18 6) (bits x 12 6) (bits x 6 6) (bits x 3 3) (bit x 2) (bit x 1))
      else .error .badField
  | 0x1E => if fld x 0 1 == 0 then checked (.cvtF32E4m3 (bits x 18 6) (bits x 12 6) (bits x 6 6) (bits x 3 3) (bit x 2) (bit x 1))
      else .error .badField
  | 0x1F => if fld x 0 1 == 0 then checked (.cvtF32E5m2 (bits x 18 6) (bits x 12 6) (bits x 6 6) (bits x 3 3) (bit x 2) (bit x 1))
      else .error .badField
  | 0x20 => if fld x 0 1 == 0 && fld x 6 6 == 0 then checked (.cvtI32F32 (bits x 18 6) (bits x 12 6) (bits x 3 3) (bit x 2) (bit x 1))
      else .error .badField
  | 0x21 => if fld x 0 1 == 0 && fld x 6 6 == 0 then checked (.cvtF32I32 (bits x 18 6) (bits x 12 6) (bits x 3 3) (bit x 2) (bit x 1))
      else .error .badField
  | 0x28 => checked (.iadd (bits x 18 6) (bits x 12 6) (bits x 6 6) (bits x 3 3) (bit x 2) (bit x 1) (bit x 0))
  | 0x29 => checked (.isub (bits x 18 6) (bits x 12 6) (bits x 6 6) (bits x 3 3) (bit x 2) (bit x 1) (bit x 0))
  | 0x2A => if fld x 0 1 == 0 then checked (.imul (bits x 18 6) (bits x 12 6) (bits x 6 6) (bits x 3 3) (bit x 2) (bit x 1))
      else .error .badField
  | 0x2B => if fld x 0 1 == 0 then checked (.imad (bits x 18 6) (bits x 12 6) (bits x 6 6) (bits x 3 3) (bit x 2) (bit x 1))
      else .error .badField
  | 0x2C => if fld x 0 1 == 0 && fld x 6 6 == 0 then checked (.iabs (bits x 18 6) (bits x 12 6) (bits x 3 3) (bit x 2) (bit x 1))
      else .error .badField
  | 0x2D => checked (.imin (bits x 18 6) (bits x 12 6) (bits x 6 6) (bits x 3 3) (bit x 2) (bit x 1) (bit x 0))
  | 0x2E => checked (.imax (bits x 18 6) (bits x 12 6) (bits x 6 6) (bits x 3 3) (bit x 2) (bit x 1) (bit x 0))
  | 0x2F => checked (.cellAnd (bits x 18 6) (bits x 12 6) (bits x 6 6) (bits x 3 3) (bit x 2) (bit x 1) (bit x 0))
  | 0x30 => checked (.cellOr (bits x 18 6) (bits x 12 6) (bits x 6 6) (bits x 3 3) (bit x 2) (bit x 1) (bit x 0))
  | 0x31 => checked (.cellXor (bits x 18 6) (bits x 12 6) (bits x 6 6) (bits x 3 3) (bit x 2) (bit x 1) (bit x 0))
  | 0x32 => checked (.cellShl (bits x 18 6) (bits x 12 6) (bits x 6 6) (bits x 3 3) (bit x 2) (bit x 1) (bit x 0))
  | 0x33 => checked (.cellShr (bits x 18 6) (bits x 12 6) (bits x 6 6) (bits x 3 3) (bit x 2) (bit x 1) (bit x 0))
  | 0x34 => checked (.cellSra (bits x 18 6) (bits x 12 6) (bits x 6 6) (bits x 3 3) (bit x 2) (bit x 1) (bit x 0))
  | 0x38 => checked (.icmpEq (bits x 18 6) (bits x 12 6) (bits x 6 6) (bits x 3 3) (bit x 2) (bit x 1) (bit x 0))
  | 0x39 => checked (.icmpNe (bits x 18 6) (bits x 12 6) (bits x 6 6) (bits x 3 3) (bit x 2) (bit x 1) (bit x 0))
  | 0x3A => checked (.icmpLt (bits x 18 6) (bits x 12 6) (bits x 6 6) (bits x 3 3) (bit x 2) (bit x 1) (bit x 0))
  | 0x3B => checked (.icmpLtn (bits x 18 6) (bits x 12 6) (bits x 6 6) (bits x 3 3) (bit x 2) (bit x 1) (bit x 0))
  | 0x3C => if fld x 0 1 == 0 then checked (.cellSel (bits x 18 6) (bits x 12 6) (bits x 6 6) (bits x 3 3) (bit x 2) (bit x 1))
      else .error .badField
  | 0x3D => checked (.mov (bits x 18 6) (bits x 12 6) (bits x 6 6) (bits x 3 3) (bit x 2) (bit x 1) (bit x 0))
  | 0x40 => checked (.ldc (bits x 18 6) (bits x 12 6) (bits x 6 6) (bits x 3 3) (bit x 2) (bit x 1) (bit x 0))
  | 0x41 => if fld x 1 2 == 0 then checked (.stc (bits x 18 6) (bits x 12 6) (bits x 6 6) (bits x 3 3) (bit x 0))
      else .error .badField
  | 0x42 => if fld x 0 1 == 0 then checked (.vgath (bits x 18 6) (bits x 12 6) (bits x 6 6) (bits x 3 3) (bit x 2) (bit x 1))
      else .error .badField
  | 0x43 => if fld x 0 3 == 0 then checked (.vscat (bits x 18 6) (bits x 12 6) (bits x 6 6) (bits x 3 3))
      else .error .badField
  | 0x48 => if fld x 0 1 == 0 && fld x 6 6 == 0 then checked (.vredAdd (bits x 18 6) (bits x 12 6) (bits x 3 3) (bit x 2) (bit x 1))
      else .error .badField
  | 0x49 => if fld x 0 1 == 0 && fld x 6 6 == 0 then checked (.vredMax (bits x 18 6) (bits x 12 6) (bits x 3 3) (bit x 2) (bit x 1))
      else .error .badField
  | 0x4A => if fld x 0 1 == 0 && fld x 6 6 == 0 then checked (.vredMin (bits x 18 6) (bits x 12 6) (bits x 3 3) (bit x 2) (bit x 1))
      else .error .badField
  | 0x4B => if fld x 0 1 == 0 && fld x 6 6 == 0 then checked (.vredOr (bits x 18 6) (bits x 12 6) (bits x 3 3) (bit x 2) (bit x 1))
      else .error .badField
  | 0x4C => if fld x 0 1 == 0 then checked (.vperm (bits x 18 6) (bits x 12 6) (bits x 6 6) (bits x 3 3) (bit x 2) (bit x 1))
      else .error .badField
  | 0x4D => checked (.vbcast (bits x 18 6) (bits x 12 6) (bits x 6 6) (bits x 3 3) (bit x 2) (bit x 1) (bit x 0))
  | 0x50 => if fld x 0 2 == 0 then checked (.flag (bits x 18 6) (bits x 12 6) (bits x 6 6) (bits x 3 3) (bit x 2))
      else .error .badField
  | 0x51 => if fld x 0 1 == 0 && fld x 6 6 == 0 then checked (.srng (bits x 18 6) (bits x 12 6) (bits x 3 3) (bit x 2) (bit x 1))
      else .error .badField
  | 0x52 => if fld x 0 1 == 0 && fld x 6 6 == 0 then checked (.rkval (bits x 18 6) (bits x 12 6) (bits x 3 3) (bit x 2) (bit x 1))
      else .error .badField
  | 0x53 => checked (.optupd (bits x 18 6) (bits x 12 6) (bits x 6 6) (bits x 3 3) (bit x 2) (bit x 1) (bit x 0))
  | 0xC0 => if fld x 1 2 == 0 then checked (.mma (bits x 18 6) (bits x 12 6) (bits x 6 6) (bits x 3 3) (bit x 0))
      else .error .badField
  | 0xC1 => if fld x 0 3 == 0 then checked (.mmaSel (bits x 18 6) (bits x 12 6) (bits x 6 6) (bits x 3 3))
      else .error .badField
  | 0xC2 => if fld x 1 2 == 0 then checked (.mmaNeg (bits x 18 6) (bits x 12 6) (bits x 6 6) (bits x 3 3) (bit x 0))
      else .error .badField
  | 0xC3 => if fld x 0 3 == 0 && fld x 6 12 == 0 then checked (.aclr (bits x 18 6) (bits x 3 3))
      else .error .badField
  | 0xC4 => if fld x 0 1 == 0 && fld x 6 6 == 0 then checked (.amov (bits x 18 6) (bits x 12 6) (bits x 3 3) (bit x 2) (bit x 1))
      else .error .badField
  | 0xC5 => if fld x 0 1 == 0 && fld x 6 6 == 0 then checked (.ald (bits x 18 6) (bits x 12 6) (bits x 3 3) (bit x 2) (bit x 1))
      else .error .badField
  | 0xC6 => checked (.arnd (bits x 18 6) (bits x 12 6) (bits x 6 6) (bits x 3 3) (bit x 2) (bit x 1) (bit x 0))
  | 0xC7 => if fld x 0 3 == 0 then checked (.racc (bits x 18 6) (bits x 12 6) (bits x 6 6) (bits x 3 3))
      else .error .badField
  | op => if 0xE0 ≤ op then .error .extension else .error .reserved

/-- A cell opcode a cell slot accepts (R53). -/
def cellAccepts (s : CellSlot) (op : Nat) : Bool :=
  match s with
  | .va => op ≤ 0x52 || 0xE0 ≤ op
  | .vb => op ≤ 0x53 || 0xE0 ≤ op
  | .mx => op == 0 || (0xC0 ≤ op && op ≤ 0xC7) || 0xE0 ≤ op

/-- A cell opcode the map of R58 marks reserved in every slot. -/
def cellReserved (op : Nat) : Bool :=
  op == 0x07 || op == 0x11 || (0x15 ≤ op && op ≤ 0x17) || (0x22 ≤ op && op ≤ 0x27) || (0x35 ≤ op && op ≤ 0x37)
    || op == 0x3E || op == 0x3F || (0x44 ≤ op && op ≤ 0x47) || op == 0x4E || op == 0x4F || (0x54 ≤ op && op ≤ 0xBF)
    || (0xC8 ≤ op && op ≤ 0xDF)

/-- A cell slot, with the classes of R43 in their order: reserved, wrong slot, then bad field. -/
def decodeCell (s : CellSlot) (x : BitVec 32) : Except Reject Instr :=
  if x == 0 then .ok .nop
  else if cellReserved (fld x 24 8) then .error .reserved
  else if !cellAccepts s (fld x 24 8) then .error .wrongSlot
  else if fld x 24 8 == 0 then .error .badField
  else decodeCellOp x

/-- A KA or KB word whose opcode is not NOP (R59, R296, R379, R402). -/
def decodeCopyOp (x : BitVec 32) : Except Reject Instr :=
  match fld x 25 7 with
  | 0x01 => if fld x 6 4 == 0 then checked (.copy (bits x 22 3) (bits x 17 5) (bits x 12 5) (bits x 10 2) (bit x 5) (bit x 4) (bits x 2 2) (bits x 0 2))
      else .error .badField
  | 0x02 => if fld x 8 2 == 0 then checked (.copyg (bits x 22 3) (bits x 17 5) (bits x 12 5) (bits x 10 2) (bit x 7) (bit x 6) (bit x 5) (bit x 4) (bits x 2 2) (bits x 0 2))
      else .error .badField
  | 0x03 => if fld x 8 2 == 0 then checked (.copys (bits x 22 3) (bits x 17 5) (bits x 12 5) (bits x 10 2) (bit x 7) (bit x 6) (bit x 5) (bit x 4) (bits x 2 2) (bits x 0 2))
      else .error .badField
  | 0x04 => if fld x 7 3 == 0 then checked (.copym (bits x 22 3) (bits x 17 5) (bits x 12 5) (bits x 10 2) (bit x 6) (bit x 5) (bit x 4) (bits x 2 2) (bits x 0 2))
      else .error .badField
  | 0x05 => if fld x 8 2 == 0 then checked (.fill (bits x 22 3) (bits x 17 5) (bits x 12 5) (bits x 10 2) (bits x 6 2) (bit x 5) (bit x 4) (bits x 2 2) (bits x 0 2))
      else .error .badField
  | 0x06 => if fld x 0 10 == 0 && fld x 12 10 == 0 then checked (.bind (bits x 22 3) (bits x 10 2))
      else .error .badField
  | 0x07 => if fld x 0 6 == 0 && fld x 12 5 == 0 then checked (.unbind (bits x 22 3) (bits x 17 5) (bits x 10 2) (bits x 6 4))
      else .error .badField
  | 0x08 => if fld x 0 6 == 0 && fld x 8 2 == 0 then checked (.rankx (bits x 22 3) (bits x 17 5) (bits x 12 5) (bits x 10 2) (bit x 7) (bit x 6))
      else .error .badField
  | 0x09 => if fld x 0 10 == 0 && fld x 12 10 == 0 then checked (.eresume (bits x 22 3) (bits x 10 2))
      else .error .badField
  | 0x0A => if fld x 0 6 == 0 && fld x 7 3 == 0 && fld x 12 10 == 0 then checked (.ecancel (bits x 22 3) (bits x 10 2) (bit x 6))
      else .error .badField
  | 0x0B => if fld x 6 4 == 0 then checked (.xmit (bits x 22 3) (bits x 17 5) (bits x 12 5) (bits x 10 2) (bit x 5) (bit x 4) (bits x 2 2) (bits x 0 2))
      else .error .badField
  | 0x0C => if fld x 0 10 == 0 then checked (.imux (bits x 22 3) (bits x 17 5) (bits x 12 5) (bits x 10 2))
      else .error .badField
  | 0x0D => if fld x 0 17 == 0 then checked (.phaseOpen (bits x 22 3) (bits x 17 5))
      else if fld x 0 17 == 64 then checked (.phaseClose (bits x 22 3) (bits x 17 5))
      else .error .badField
  | 0x0E => if fld x 0 6 == 0 then checked (.mtx (bits x 22 3) (bits x 17 5) (bits x 12 5) (bits x 10 2) (bits x 6 4))
      else .error .badField
  | 0x0F => if fld x 0 6 == 0 && fld x 12 5 == 0 then checked (.mfx (bits x 22 3) (bits x 17 5) (bits x 10 2) (bits x 6 4))
      else .error .badField
  | 0x10 => if fld x 0 6 == 0 && fld x 7 3 == 0 then checked (.tpref (bits x 22 3) (bits x 17 5) (bits x 12 5) (bits x 10 2) (bit x 6))
      else .error .badField
  | 0x11 => if fld x 0 10 == 0 then checked (.tflush (bits x 22 3) (bits x 17 5) (bits x 12 5) (bits x 10 2))
      else .error .badField
  | op => if 0x70 ≤ op then .error .extension else .error .reserved

/-- A copy slot; both accept every copy opcode (R54). -/
def decodeCopy (x : BitVec 32) : Except Reject Instr :=
  if x == 0 then .ok .nop else if fld x 25 7 == 0 then .error .badField else decodeCopyOp x

/-- The slot class whose format an instruction's word has; NOP is every slot's all-zero word and is listed with the SC slot,
and an event has none. -/
def Instr.slotClass : Instr → Option SlotClass
  | .nop => some .sc
  | .add .. => some .sc
  | .sub .. => some .sc
  | .and .. => some .sc
  | .or .. => some .sc
  | .xor .. => some .sc
  | .andn .. => some .sc
  | .shl .. => some .sc
  | .shr .. => some .sc
  | .sra .. => some .sc
  | .rot .. => some .sc
  | .min .. => some .sc
  | .max .. => some .sc
  | .minn .. => some .sc
  | .maxn .. => some .sc
  | .mul .. => some .sc
  | .mulh .. => some .sc
  | .mulhn .. => some .sc
  | .div .. => some .sc
  | .divn .. => some .sc
  | .rem .. => some .sc
  | .remn .. => some .sc
  | .clz .. => some .sc
  | .popc .. => some .sc
  | .sext .. => some .sc
  | .zext .. => some .sc
  | .addi .. => some .sc
  | .andi .. => some .sc
  | .ori .. => some .sc
  | .xori .. => some .sc
  | .shli .. => some .sc
  | .shri .. => some .sc
  | .srai .. => some .sc
  | .muli .. => some .sc
  | .mini .. => some .sc
  | .maxi .. => some .sc
  | .li .. => some .sc
  | .lui .. => some .sc
  | .cmpEq .. => some .sc
  | .cmpNe .. => some .sc
  | .cmpLt .. => some .sc
  | .cmpLe .. => some .sc
  | .cmpLtn .. => some .sc
  | .cmpLen .. => some .sc
  | .cmpiEq .. => some .sc
  | .cmpiLt .. => some .sc
  | .cmpiLtn .. => some .sc
  | .band .. => some .sc
  | .bor .. => some .sc
  | .bxor .. => some .sc
  | .bandn .. => some .sc
  | .bmov .. => some .sc
  | .sel .. => some .sc
  | .br .. => some .sc
  | .j .. => some .sc
  | .jal .. => some .sc
  | .jr .. => some .sc
  | .loop .. => some .sc
  | .loops .. => some .sc
  | .mark .. => some .sc
  | .pause .. => some .sc
  | .pauseExpire => none
  | .wait .. => some .sc
  | .tend .. => some .sc
  | .retirementComplete => none
  | .trap .. => some .sc
  | .eret => some .sc
  | .ldB .. => some .sc
  | .ldH .. => some .sc
  | .ldW .. => some .sc
  | .ldD .. => some .sc
  | .ldnB .. => some .sc
  | .ldnH .. => some .sc
  | .ldnW .. => some .sc
  | .stB .. => some .sc
  | .stH .. => some .sc
  | .stW .. => some .sc
  | .stD .. => some .sc
  | .ldpW .. => some .sc
  | .ldpD .. => some .sc
  | .stpW .. => some .sc
  | .stpD .. => some .sc
  | .loadReturn => none
  | .storePerformed => none
  | .xlat .. => some .sc
  | .hinv .. => some .sc
  | .hinfo .. => some .sc
  | .handleWalkEnd => none
  | .ldtW .. => some .sc
  | .ldtD .. => some .sc
  | .sttW .. => some .sc
  | .sttD .. => some .sc
  | .ldf .. => some .sc
  | .ldfk .. => some .sc
  | .ste .. => some .sc
  | .stfk .. => some .sc
  | .feRetry => none
  | .amoAdd .. => some .sc
  | .amoAnd .. => some .sc
  | .amoOr .. => some .sc
  | .amoXor .. => some .sc
  | .amoMin .. => some .sc
  | .amoMax .. => some .sc
  | .amoMinn .. => some .sc
  | .amoMaxn .. => some .sc
  | .amoSwap .. => some .sc
  | .amoFadd .. => some .sc
  | .cas .. => some .sc
  | .amoAtHome => none
  | .atomicReturn => none
  | .accAdd .. => some .sc
  | .accFadd .. => some .sc
  | .accBfadd .. => some .sc
  | .accFmax .. => some .sc
  | .accAtHome => none
  | .accRefused => none
  | .accResend => none
  | .quotaWindowStart => none
  | .fence .. => some .sc
  | .flushres .. => some .sc
  | .flushresComplete => none
  | .resid .. => some .sc
  | .mfc .. => some .sc
  | .mtc .. => some .sc
  | .setfmt .. => some .sc
  | .mtw .. => some .sc
  | .mfw .. => some .sc
  | .wrot .. => some .sc
  | .mfaRowany .. => some .sc
  | .mfaRowall .. => some .sc
  | .mfaColany .. => some .sc
  | .mfaColall .. => some .sc
  | .mfaSummary .. => some .sc
  | .talloc .. => some .sc
  | .tfree .. => some .sc
  | .tinfo .. => some .sc
  | .tmove .. => some .sc
  | .sync .. => some .sc
  | .cbinit .. => some .sc
  | .cbexp .. => some .sc
  | .cbarr .. => some .sc
  | .cbwait .. => some .sc
  | .cbtest .. => some .sc
  | .dqpush .. => some .sc
  | .dqpop .. => some .sc
  | .dqsteal .. => some .sc
  | .tlaunch .. => some .sc
  | .locq .. => some .sc
  | .seal .. => some .sc
  | .unseal .. => some .sc
  | .playW .. => some .sc
  | .playD .. => some .sc
  | .patc .. => some .sc
  | .ldatt .. => some .sc
  | .compileBegin => none
  | .compileEnd => none
  | .fadd .. => some .cell
  | .fsub .. => some .cell
  | .fmul .. => some .cell
  | .fma .. => some .cell
  | .fmin .. => some .cell
  | .fmax .. => some .cell
  | .fcmpEq .. => some .cell
  | .fcmpNe .. => some .cell
  | .fcmpLt .. => some .cell
  | .fcmpLe .. => some .cell
  | .frcp .. => some .cell
  | .frsq .. => some .cell
  | .fsqrt .. => some .cell
  | .fex2 .. => some .cell
  | .flg2 .. => some .cell
  | .hadd2 .. => some .cell
  | .hfma2 .. => some .cell
  | .bfma2 .. => some .cell
  | .cvtF16F32 .. => some .cell
  | .cvtF32F16 .. => some .cell
  | .cvtBf16F32 .. => some .cell
  | .cvtF32Bf16 .. => some .cell
  | .cvtE4m3F32 .. => some .cell
  | .cvtE5m2F32 .. => some .cell
  | .cvtF32E4m3 .. => some .cell
  | .cvtF32E5m2 .. => some .cell
  | .cvtI32F32 .. => some .cell
  | .cvtF32I32 .. => some .cell
  | .iadd .. => some .cell
  | .isub .. => some .cell
  | .imul .. => some .cell
  | .imad .. => some .cell
  | .iabs .. => some .cell
  | .imin .. => some .cell
  | .imax .. => some .cell
  | .cellAnd .. => some .cell
  | .cellOr .. => some .cell
  | .cellXor .. => some .cell
  | .cellShl .. => some .cell
  | .cellShr .. => some .cell
  | .cellSra .. => some .cell
  | .icmpEq .. => some .cell
  | .icmpNe .. => some .cell
  | .icmpLt .. => some .cell
  | .icmpLtn .. => some .cell
  | .cellSel .. => some .cell
  | .mov .. => some .cell
  | .ldc .. => some .cell
  | .stc .. => some .cell
  | .vgath .. => some .cell
  | .vscat .. => some .cell
  | .vredAdd .. => some .cell
  | .vredMax .. => some .cell
  | .vredMin .. => some .cell
  | .vredOr .. => some .cell
  | .vperm .. => some .cell
  | .vbcast .. => some .cell
  | .flag .. => some .cell
  | .srng .. => some .cell
  | .rkval .. => some .cell
  | .optupd .. => some .cell
  | .mma .. => some .cell
  | .mmaSel .. => some .cell
  | .mmaNeg .. => some .cell
  | .aclr .. => some .cell
  | .amov .. => some .cell
  | .ald .. => some .cell
  | .arnd .. => some .cell
  | .racc .. => some .cell
  | .wordExecute => none
  | .globalStallEnd => none
  | .aggregatesArrive => none
  | .trapTaken => none
  | .watchdog => none
  | .copy .. => some .copy
  | .copyg .. => some .copy
  | .copys .. => some .copy
  | .copym .. => some .copy
  | .fill .. => some .copy
  | .bind .. => some .copy
  | .unbind .. => some .copy
  | .rankx .. => some .copy
  | .eresume .. => some .copy
  | .ecancel .. => some .copy
  | .xmit .. => some .copy
  | .imux .. => some .copy
  | .phaseOpen .. => some .copy
  | .phaseClose .. => some .copy
  | .phaseFrameStart => none
  | .phaseFlit => none
  | .mtx .. => some .copy
  | .mfx .. => some .copy
  | .tpref .. => some .copy
  | .tflush .. => some .copy
  | .commandStart => none
  | .enginePageTranslate => none
  | .sectorLand => none
  | .commandEnd => none
  | .linkFailure => none
  | .edgeLoaderFill => none
  | .drainWrite => none
  | .impalaRank => none
  | .windowContribution => none
  | .ringEntry => none
  | .launch => none
  | .xfer => none
  | .xferComplete => none
  | .skipif => none
  | .jump => none
  | .call => none
  | .ret => none
  | .waitc => none
  | .waitcPoll => none
  | .waitcTimeout => none
  | .listFence => none
  | .listFenceDone => none
  | .signal => none
  | .groupset => none
  | .groupsetDone => none
  | .note => none
  | .haltq => none
  | .taskStart => none
  | .agingStep => none
  | .preemption => none
  | .quiesceExpire => none
  | .resumption => none
  | .doorbell => none
  | .qcfg => none
  | .qctlResume => none
  | .qctlSkip => none
  | .jctlCancel => none
  | .jctlKill => none
  | .jhead => none
  | .aqcfg => none
  | .registerWrite => none
  | .aqTailPoll => none
  | .partCreate => none
  | .partArrays => none
  | .partDissolve => none
  | .ptroot => none
  | .invalidate => none
  | .keyLoad => none
  | .keyAssign => none
  | .shares => none
  | .queueAssign => none
  | .waymask => none
  | .netReserve => none
  | .hbmReserve => none
  | .channels => none
  | .clockLock => none
  | .redwin => none
  | .migtable => none
  | .migrate => none
  | .migrationTrigger => none
  | .quota => none
  | .readrec => none
  | .monitor => none
  | .savepool => none
  | .tileAlloc => none
  | .tileFree => none
  | .preempt => none
  | .power => none
  | .freeze => none
  | .debugUnlock => none
  | .frzN => none
  | .powerWindow => none
  | .thermalTrip => none
  | .hostFetchadd => none
  | .hostSwap => none
  | .hostCas => none
  | .flr => none
  | .function0Reset => none
  | .coldReset => none
  | .ucieLinkTrain => none
  | .hbmTrain => none
  | .pcieEnumerate => none
  | .rhodiPortTrain => none
  | .getCertificate => none
  | .getMeasurements => none
  | .firmwareUpdate => none
  | .instructionCacheFill => none
  | .hostWrite => none
  | .peerRequest => none
  | .eccError => none
  | .blockingTaskTimeout => none
  | .spdmKeyExchange => none

/-- A word from its fixed bits and its fields, each a value and the place of its lowest bit. -/
def packed (fixed : Nat) (fs : List (Nat × Nat)) : BitVec 32 :=
  BitVec.ofNat 32 (fs.foldl (fun n f => n + f.1 * 2 ^ f.2) fixed)

/-- The word of a slot instruction, from the encoding tables of R47, R51 and R54 and the opcode map of R56 to R59: the row's
fixed bits and each field at its place. An event has no word; 0 stands for none. -/
def encode : Instr → BitVec 32
  | .nop => packed 0x00000000 []
  | .add p d a b w => packed 0x02000000 [(p.toNat, 22), (d.toNat, 17), (a.toNat, 12), (b.toNat, 7), (bnat w, 6)]
  | .sub p d a b w => packed 0x02000001 [(p.toNat, 22), (d.toNat, 17), (a.toNat, 12), (b.toNat, 7), (bnat w, 6)]
  | .and p d a b => packed 0x02000002 [(p.toNat, 22), (d.toNat, 17), (a.toNat, 12), (b.toNat, 7)]
  | .or p d a b => packed 0x02000003 [(p.toNat, 22), (d.toNat, 17), (a.toNat, 12), (b.toNat, 7)]
  | .xor p d a b => packed 0x02000004 [(p.toNat, 22), (d.toNat, 17), (a.toNat, 12), (b.toNat, 7)]
  | .andn p d a b => packed 0x02000005 [(p.toNat, 22), (d.toNat, 17), (a.toNat, 12), (b.toNat, 7)]
  | .shl p d a b w => packed 0x02000006 [(p.toNat, 22), (d.toNat, 17), (a.toNat, 12), (b.toNat, 7), (bnat w, 6)]
  | .shr p d a b w => packed 0x02000007 [(p.toNat, 22), (d.toNat, 17), (a.toNat, 12), (b.toNat, 7), (bnat w, 6)]
  | .sra p d a b w => packed 0x02000008 [(p.toNat, 22), (d.toNat, 17), (a.toNat, 12), (b.toNat, 7), (bnat w, 6)]
  | .rot p d a b w => packed 0x02000009 [(p.toNat, 22), (d.toNat, 17), (a.toNat, 12), (b.toNat, 7), (bnat w, 6)]
  | .min p d a b w => packed 0x0200000A [(p.toNat, 22), (d.toNat, 17), (a.toNat, 12), (b.toNat, 7), (bnat w, 6)]
  | .max p d a b w => packed 0x0200000B [(p.toNat, 22), (d.toNat, 17), (a.toNat, 12), (b.toNat, 7), (bnat w, 6)]
  | .minn p d a b w => packed 0x0200000C [(p.toNat, 22), (d.toNat, 17), (a.toNat, 12), (b.toNat, 7), (bnat w, 6)]
  | .maxn p d a b w => packed 0x0200000D [(p.toNat, 22), (d.toNat, 17), (a.toNat, 12), (b.toNat, 7), (bnat w, 6)]
  | .mul p d a b w => packed 0x0200000E [(p.toNat, 22), (d.toNat, 17), (a.toNat, 12), (b.toNat, 7), (bnat w, 6)]
  | .mulh p d a b => packed 0x0200000F [(p.toNat, 22), (d.toNat, 17), (a.toNat, 12), (b.toNat, 7)]
  | .mulhn p d a b => packed 0x02000010 [(p.toNat, 22), (d.toNat, 17), (a.toNat, 12), (b.toNat, 7)]
  | .div p d a b w => packed 0x02000011 [(p.toNat, 22), (d.toNat, 17), (a.toNat, 12), (b.toNat, 7), (bnat w, 6)]
  | .divn p d a b w => packed 0x02000012 [(p.toNat, 22), (d.toNat, 17), (a.toNat, 12), (b.toNat, 7), (bnat w, 6)]
  | .rem p d a b w => packed 0x02000013 [(p.toNat, 22), (d.toNat, 17), (a.toNat, 12), (b.toNat, 7), (bnat w, 6)]
  | .remn p d a b w => packed 0x02000014 [(p.toNat, 22), (d.toNat, 17), (a.toNat, 12), (b.toNat, 7), (bnat w, 6)]
  | .clz p d a w => packed 0x02000015 [(p.toNat, 22), (d.toNat, 17), (a.toNat, 12), (bnat w, 6)]
  | .popc p d a w => packed 0x02000016 [(p.toNat, 22), (d.toNat, 17), (a.toNat, 12), (bnat w, 6)]
  | .sext p d a x => packed 0x02000017 [(p.toNat, 22), (d.toNat, 17), (a.toNat, 12), (x.toNat, 7)]
  | .zext p d a x => packed 0x02000018 [(p.toNat, 22), (d.toNat, 17), (a.toNat, 12), (x.toNat, 7)]
  | .addi p d a i => packed 0x04000000 [(p.toNat, 22), (d.toNat, 17), (a.toNat, 12), (i.toNat, 0)]
  | .andi p d a i => packed 0x06000000 [(p.toNat, 22), (d.toNat, 17), (a.toNat, 12), (i.toNat, 0)]
  | .ori p d a i => packed 0x08000000 [(p.toNat, 22), (d.toNat, 17), (a.toNat, 12), (i.toNat, 0)]
  | .xori p d a i => packed 0x0A000000 [(p.toNat, 22), (d.toNat, 17), (a.toNat, 12), (i.toNat, 0)]
  | .shli p d a i => packed 0x0C000000 [(p.toNat, 22), (d.toNat, 17), (a.toNat, 12), (i.toNat, 0)]
  | .shri p d a i => packed 0x0E000000 [(p.toNat, 22), (d.toNat, 17), (a.toNat, 12), (i.toNat, 0)]
  | .srai p d a i => packed 0x10000000 [(p.toNat, 22), (d.toNat, 17), (a.toNat, 12), (i.toNat, 0)]
  | .muli p d a i => packed 0x12000000 [(p.toNat, 22), (d.toNat, 17), (a.toNat, 12), (i.toNat, 0)]
  | .mini p d a i => packed 0x14000000 [(p.toNat, 22), (d.toNat, 17), (a.toNat, 12), (i.toNat, 0)]
  | .maxi p d a i => packed 0x16000000 [(p.toNat, 22), (d.toNat, 17), (a.toNat, 12), (i.toNat, 0)]
  | .li p d i => packed 0x18000000 [(p.toNat, 22), (d.toNat, 17), (i.toNat, 0)]
  | .lui p d i => packed 0x1A000000 [(p.toNat, 22), (d.toNat, 17), (i.toNat, 0)]
  | .cmpEq p d a b => packed 0x1C000000 [(p.toNat, 22), (d.toNat, 17), (a.toNat, 12), (b.toNat, 7)]
  | .cmpNe p d a b => packed 0x1C000001 [(p.toNat, 22), (d.toNat, 17), (a.toNat, 12), (b.toNat, 7)]
  | .cmpLt p d a b => packed 0x1C000002 [(p.toNat, 22), (d.toNat, 17), (a.toNat, 12), (b.toNat, 7)]
  | .cmpLe p d a b => packed 0x1C000003 [(p.toNat, 22), (d.toNat, 17), (a.toNat, 12), (b.toNat, 7)]
  | .cmpLtn p d a b => packed 0x1C000004 [(p.toNat, 22), (d.toNat, 17), (a.toNat, 12), (b.toNat, 7)]
  | .cmpLen p d a b => packed 0x1C000005 [(p.toNat, 22), (d.toNat, 17), (a.toNat, 12), (b.toNat, 7)]
  | .cmpiEq p d a i => packed 0x1E000000 [(p.toNat, 22), (d.toNat, 17), (a.toNat, 12), (i.toNat, 0)]
  | .cmpiLt p d a i => packed 0x20000000 [(p.toNat, 22), (d.toNat, 17), (a.toNat, 12), (i.toNat, 0)]
  | .cmpiLtn p d a i => packed 0x22000000 [(p.toNat, 22), (d.toNat, 17), (a.toNat, 12), (i.toNat, 0)]
  | .band p d a b => packed 0x24000000 [(p.toNat, 22), (d.toNat, 17), (a.toNat, 12), (b.toNat, 7)]
  | .bor p d a b => packed 0x24000001 [(p.toNat, 22), (d.toNat, 17), (a.toNat, 12), (b.toNat, 7)]
  | .bxor p d a b => packed 0x24000002 [(p.toNat, 22), (d.toNat, 17), (a.toNat, 12), (b.toNat, 7)]
  | .bandn p d a b => packed 0x24000003 [(p.toNat, 22), (d.toNat, 17), (a.toNat, 12), (b.toNat, 7)]
  | .bmov p d a => packed 0x24000004 [(p.toNat, 22), (d.toNat, 17), (a.toNat, 12)]
  | .sel p d a b s => packed 0x26000000 [(p.toNat, 22), (d.toNat, 17), (a.toNat, 12), (b.toNat, 7), (s.toNat, 0)]
  | .br p o => packed 0x28000000 [(p.toNat, 22), (o.toNat, 0)]
  | .j o => packed 0x2A000000 [(o.toNat, 0)]
  | .jal p o => packed 0x2C000000 [(p.toNat, 22), (o.toNat, 0)]
  | .jr p d a => packed 0x2E000000 [(p.toNat, 22), (d.toNat, 17), (a.toNat, 12)]
  | .loop p l a i => packed 0x30000000 [(p.toNat, 22), (bnat l, 17), (a.toNat, 12), (i.toNat, 0)]
  | .loops p s a i => packed 0x32000000 [(p.toNat, 22), (s.toNat, 17), (a.toNat, 12), (i.toNat, 0)]
  | .mark p => packed 0x34000000 [(p.toNat, 22)]
  | .pause p i => packed 0x36000000 [(p.toNat, 22), (i.toNat, 0)]
  | .pauseExpire => 0
  | .wait p l s c f => packed 0x38000000 [(p.toNat, 22), (l.toNat, 17), (s.toNat, 12), (c.toNat, 6), (f.toNat, 0)]
  | .tend p => packed 0x3A000000 [(p.toNat, 22)]
  | .retirementComplete => 0
  | .trap p t => packed 0x3C000000 [(p.toNat, 22), (t.toNat, 0)]
  | .eret => packed 0x3E000000 []
  | .ldB p d h q c f => packed 0x40000000 [(p.toNat, 22), (d.toNat, 17), (h.toNat, 13), (bnat q, 11), (c.toNat, 9), (f.toNat, 0)]
  | .ldH p d h q c f => packed 0x42000000 [(p.toNat, 22), (d.toNat, 17), (h.toNat, 13), (bnat q, 11), (c.toNat, 9), (f.toNat, 0)]
  | .ldW p d h q c f => packed 0x44000000 [(p.toNat, 22), (d.toNat, 17), (h.toNat, 13), (bnat q, 11), (c.toNat, 9), (f.toNat, 0)]
  | .ldD p d h q c f => packed 0x46000000 [(p.toNat, 22), (d.toNat, 17), (h.toNat, 13), (bnat q, 11), (c.toNat, 9), (f.toNat, 0)]
  | .ldnB p d h q c f => packed 0x48000000 [(p.toNat, 22), (d.toNat, 17), (h.toNat, 13), (bnat q, 11), (c.toNat, 9), (f.toNat, 0)]
  | .ldnH p d h q c f => packed 0x4A000000 [(p.toNat, 22), (d.toNat, 17), (h.toNat, 13), (bnat q, 11), (c.toNat, 9), (f.toNat, 0)]
  | .ldnW p d h q c f => packed 0x4C000000 [(p.toNat, 22), (d.toNat, 17), (h.toNat, 13), (bnat q, 11), (c.toNat, 9), (f.toNat, 0)]
  | .stB p d h q c f => packed 0x4E000000 [(p.toNat, 22), (d.toNat, 17), (h.toNat, 13), (bnat q, 12), (c.toNat, 9), (f.toNat, 0)]
  | .stH p d h q c f => packed 0x50000000 [(p.toNat, 22), (d.toNat, 17), (h.toNat, 13), (bnat q, 12), (c.toNat, 9), (f.toNat, 0)]
  | .stW p d h q c f => packed 0x52000000 [(p.toNat, 22), (d.toNat, 17), (h.toNat, 13), (bnat q, 12), (c.toNat, 9), (f.toNat, 0)]
  | .stD p d h q c f => packed 0x54000000 [(p.toNat, 22), (d.toNat, 17), (h.toNat, 13), (bnat q, 12), (c.toNat, 9), (f.toNat, 0)]
  | .ldpW p d h a i => packed 0x56000000 [(p.toNat, 22), (d.toNat, 17), (h.toNat, 13), (a.toNat, 8), (i.toNat, 0)]
  | .ldpD p d h a i => packed 0x58000000 [(p.toNat, 22), (d.toNat, 17), (h.toNat, 13), (a.toNat, 8), (i.toNat, 0)]
  | .stpW p d h a i => packed 0x5A000000 [(p.toNat, 22), (d.toNat, 17), (h.toNat, 13), (a.toNat, 8), (i.toNat, 0)]
  | .stpD p d h a i => packed 0x5C000000 [(p.toNat, 22), (d.toNat, 17), (h.toNat, 13), (a.toNat, 8), (i.toNat, 0)]
  | .loadReturn => 0
  | .storePerformed => 0
  | .xlat p h a => packed 0x60000000 [(p.toNat, 22), (h.toNat, 17), (a.toNat, 12)]
  | .hinv p h => packed 0x62000000 [(p.toNat, 22), (h.toNat, 17)]
  | .hinfo p d a => packed 0x64000000 [(p.toNat, 22), (d.toNat, 17), (a.toNat, 12)]
  | .handleWalkEnd => 0
  | .ldtW p d t a q c => packed 0x68000000 [(p.toNat, 22), (d.toNat, 17), (t.toNat, 11), (a.toNat, 6), (bnat q, 4), (c.toNat, 2)]
  | .ldtD p d t a q c => packed 0x6A000000 [(p.toNat, 22), (d.toNat, 17), (t.toNat, 11), (a.toNat, 6), (bnat q, 4), (c.toNat, 2)]
  | .sttW p d t a q c => packed 0x6C000000 [(p.toNat, 22), (d.toNat, 17), (t.toNat, 11), (a.toNat, 6), (bnat q, 5), (c.toNat, 2)]
  | .sttD p d t a q c => packed 0x6E000000 [(p.toNat, 22), (d.toNat, 17), (t.toNat, 11), (a.toNat, 6), (bnat q, 5), (c.toNat, 2)]
  | .ldf p d t a => packed 0x70000000 [(p.toNat, 22), (d.toNat, 17), (t.toNat, 11), (a.toNat, 6)]
  | .ldfk p d t a => packed 0x72000000 [(p.toNat, 22), (d.toNat, 17), (t.toNat, 11), (a.toNat, 6)]
  | .ste p d t a => packed 0x74000000 [(p.toNat, 22), (d.toNat, 17), (t.toNat, 11), (a.toNat, 6)]
  | .stfk p d t a => packed 0x76000000 [(p.toNat, 22), (d.toNat, 17), (t.toNat, 11), (a.toNat, 6)]
  | .feRetry => 0
  | .amoAdd p d h a q r c => packed 0x78000000 [(p.toNat, 22), (d.toNat, 17), (h.toNat, 13), (a.toNat, 8), (bnat q, 3), (bnat r, 2), (c.toNat, 0)]
  | .amoAnd p d h a q r c => packed 0x78000010 [(p.toNat, 22), (d.toNat, 17), (h.toNat, 13), (a.toNat, 8), (bnat q, 3), (bnat r, 2), (c.toNat, 0)]
  | .amoOr p d h a q r c => packed 0x78000020 [(p.toNat, 22), (d.toNat, 17), (h.toNat, 13), (a.toNat, 8), (bnat q, 3), (bnat r, 2), (c.toNat, 0)]
  | .amoXor p d h a q r c => packed 0x78000030 [(p.toNat, 22), (d.toNat, 17), (h.toNat, 13), (a.toNat, 8), (bnat q, 3), (bnat r, 2), (c.toNat, 0)]
  | .amoMin p d h a q r c => packed 0x78000040 [(p.toNat, 22), (d.toNat, 17), (h.toNat, 13), (a.toNat, 8), (bnat q, 3), (bnat r, 2), (c.toNat, 0)]
  | .amoMax p d h a q r c => packed 0x78000050 [(p.toNat, 22), (d.toNat, 17), (h.toNat, 13), (a.toNat, 8), (bnat q, 3), (bnat r, 2), (c.toNat, 0)]
  | .amoMinn p d h a q r c => packed 0x78000060 [(p.toNat, 22), (d.toNat, 17), (h.toNat, 13), (a.toNat, 8), (bnat q, 3), (bnat r, 2), (c.toNat, 0)]
  | .amoMaxn p d h a q r c => packed 0x78000070 [(p.toNat, 22), (d.toNat, 17), (h.toNat, 13), (a.toNat, 8), (bnat q, 3), (bnat r, 2), (c.toNat, 0)]
  | .amoSwap p d h a q r c => packed 0x78000080 [(p.toNat, 22), (d.toNat, 17), (h.toNat, 13), (a.toNat, 8), (bnat q, 3), (bnat r, 2), (c.toNat, 0)]
  | .amoFadd p d h a q r c => packed 0x78000090 [(p.toNat, 22), (d.toNat, 17), (h.toNat, 13), (a.toNat, 8), (bnat q, 3), (bnat r, 2), (c.toNat, 0)]
  | .cas p d h a q r c => packed 0x7A000000 [(p.toNat, 22), (d.toNat, 18), (h.toNat, 13), (a.toNat, 8), (bnat q, 3), (bnat r, 2), (c.toNat, 0)]
  | .amoAtHome => 0
  | .atomicReturn => 0
  | .accAdd p d h a r c => packed 0x7C000000 [(p.toNat, 22), (d.toNat, 17), (h.toNat, 13), (a.toNat, 8), (bnat r, 2), (c.toNat, 0)]
  | .accFadd p d h a r c => packed 0x7C000010 [(p.toNat, 22), (d.toNat, 17), (h.toNat, 13), (a.toNat, 8), (bnat r, 2), (c.toNat, 0)]
  | .accBfadd p d h a r c => packed 0x7C000020 [(p.toNat, 22), (d.toNat, 17), (h.toNat, 13), (a.toNat, 8), (bnat r, 2), (c.toNat, 0)]
  | .accFmax p d h a r c => packed 0x7C000030 [(p.toNat, 22), (d.toNat, 17), (h.toNat, 13), (a.toNat, 8), (bnat r, 2), (c.toNat, 0)]
  | .accAtHome => 0
  | .accRefused => 0
  | .accResend => 0
  | .quotaWindowStart => 0
  | .fence p q c => packed 0x80000000 [(p.toNat, 22), (q.toNat, 11), (c.toNat, 9)]
  | .flushres p => packed 0x82000000 [(p.toNat, 22)]
  | .flushresComplete => 0
  | .resid p x t => packed 0x84000000 [(p.toNat, 22), (bnat x, 17), (t.toNat, 11)]
  | .mfc p d n => packed 0x88000000 [(p.toNat, 22), (d.toNat, 17), (n.toNat, 0)]
  | .mtc p a n => packed 0x8A000000 [(p.toNat, 22), (a.toNat, 12), (n.toNat, 0)]
  | .setfmt p a => packed 0x8C000000 [(p.toNat, 22), (a.toNat, 12)]
  | .mtw p w a n => packed 0x90000000 [(p.toNat, 22), (w.toNat, 17), (a.toNat, 12), (n.toNat, 0)]
  | .mfw p d w n => packed 0x92000000 [(p.toNat, 22), (d.toNat, 17), (w.toNat, 12), (n.toNat, 0)]
  | .wrot p w a k v m => packed 0x94000000 [(p.toNat, 22), (w.toNat, 17), (a.toNat, 12), (k.toNat, 10), (bnat v, 9), (m.toNat, 0)]
  | .mfaRowany p d a => packed 0x96000000 [(p.toNat, 22), (d.toNat, 17), (a.toNat, 12)]
  | .mfaRowall p d a => packed 0x96000001 [(p.toNat, 22), (d.toNat, 17), (a.toNat, 12)]
  | .mfaColany p d => packed 0x96000002 [(p.toNat, 22), (d.toNat, 17)]
  | .mfaColall p d => packed 0x96000003 [(p.toNat, 22), (d.toNat, 17)]
  | .mfaSummary p d => packed 0x96000004 [(p.toNat, 22), (d.toNat, 17)]
  | .talloc p d t a => packed 0x98000000 [(p.toNat, 22), (d.toNat, 17), (t.toNat, 11), (a.toNat, 6)]
  | .tfree p t => packed 0x9A000000 [(p.toNat, 22), (t.toNat, 11)]
  | .tinfo p d t a => packed 0x9C000000 [(p.toNat, 22), (d.toNat, 17), (t.toNat, 11), (a.toNat, 6)]
  | .tmove p d t a => packed 0x9E000000 [(p.toNat, 22), (d.toNat, 17), (t.toNat, 11), (a.toNat, 6)]
  | .sync p d g => packed 0xA0000000 [(p.toNat, 22), (d.toNat, 17), (g.toNat, 0)]
  | .cbinit p d t a => packed 0xA2000000 [(p.toNat, 22), (d.toNat, 17), (t.toNat, 11), (a.toNat, 6)]
  | .cbexp p d t a => packed 0xA4000000 [(p.toNat, 22), (d.toNat, 17), (t.toNat, 11), (a.toNat, 6)]
  | .cbarr p d t a q c => packed 0xA6000000 [(p.toNat, 22), (d.toNat, 17), (t.toNat, 11), (a.toNat, 6), (bnat q, 5), (c.toNat, 2)]
  | .cbwait p d t a => packed 0xA8000000 [(p.toNat, 22), (d.toNat, 17), (t.toNat, 11), (a.toNat, 6)]
  | .cbtest p d t a => packed 0xAA000000 [(p.toNat, 22), (d.toNat, 17), (t.toNat, 11), (a.toNat, 6)]
  | .dqpush p d a b => packed 0xB0000000 [(p.toNat, 22), (d.toNat, 17), (a.toNat, 12), (b.toNat, 0)]
  | .dqpop p d b => packed 0xB2000000 [(p.toNat, 22), (d.toNat, 17), (b.toNat, 0)]
  | .dqsteal p d r b => packed 0xB4000000 [(p.toNat, 22), (d.toNat, 17), (r.toNat, 7), (b.toNat, 0)]
  | .tlaunch p d h f => packed 0xB6000000 [(p.toNat, 22), (d.toNat, 17), (h.toNat, 13), (f.toNat, 0)]
  | .locq p d a => packed 0xB8000000 [(p.toNat, 22), (d.toNat, 17), (a.toNat, 12)]
  | .seal p d a b => packed 0xBA000000 [(p.toNat, 22), (d.toNat, 17), (a.toNat, 12), (b.toNat, 7)]
  | .unseal p d a b => packed 0xBC000000 [(p.toNat, 22), (d.toNat, 17), (a.toNat, 12), (b.toNat, 7)]
  | .playW p d a h t => packed 0xC0000000 [(p.toNat, 22), (d.toNat, 17), (a.toNat, 12), (h.toNat, 7), (t.toNat, 0)]
  | .playD p d a h t => packed 0xC0000040 [(p.toNat, 22), (d.toNat, 17), (a.toNat, 12), (h.toNat, 7), (t.toNat, 0)]
  | .patc p d a t => packed 0xC2000000 [(p.toNat, 22), (d.toNat, 17), (a.toNat, 12), (t.toNat, 0)]
  | .ldatt p d t a => packed 0xC4000000 [(p.toNat, 22), (d.toNat, 17), (t.toNat, 11), (a.toNat, 6)]
  | .compileBegin => 0
  | .compileEnd => 0
  | .fadd d a b w c f => packed 0x01000000 [(d.toNat, 18), (a.toNat, 12), (b.toNat, 6), (w.toNat, 3), (bnat c, 2), (bnat f, 1)]
  | .fsub d a b w c f => packed 0x02000000 [(d.toNat, 18), (a.toNat, 12), (b.toNat, 6), (w.toNat, 3), (bnat c, 2), (bnat f, 1)]
  | .fmul d a b w c f m => packed 0x03000000 [(d.toNat, 18), (a.toNat, 12), (b.toNat, 6), (w.toNat, 3), (bnat c, 2), (bnat f, 1), (bnat m, 0)]
  | .fma d a b w c f m => packed 0x04000000 [(d.toNat, 18), (a.toNat, 12), (b.toNat, 6), (w.toNat, 3), (bnat c, 2), (bnat f, 1), (bnat m, 0)]
  | .fmin d a b w c f => packed 0x05000000 [(d.toNat, 18), (a.toNat, 12), (b.toNat, 6), (w.toNat, 3), (bnat c, 2), (bnat f, 1)]
  | .fmax d a b w c f => packed 0x06000000 [(d.toNat, 18), (a.toNat, 12), (b.toNat, 6), (w.toNat, 3), (bnat c, 2), (bnat f, 1)]
  | .fcmpEq d a b w c f => packed 0x08000000 [(d.toNat, 18), (a.toNat, 12), (b.toNat, 6), (w.toNat, 3), (bnat c, 2), (bnat f, 1)]
  | .fcmpNe d a b w c f => packed 0x09000000 [(d.toNat, 18), (a.toNat, 12), (b.toNat, 6), (w.toNat, 3), (bnat c, 2), (bnat f, 1)]
  | .fcmpLt d a b w c f => packed 0x0A000000 [(d.toNat, 18), (a.toNat, 12), (b.toNat, 6), (w.toNat, 3), (bnat c, 2), (bnat f, 1)]
  | .fcmpLe d a b w c f => packed 0x0B000000 [(d.toNat, 18), (a.toNat, 12), (b.toNat, 6), (w.toNat, 3), (bnat c, 2), (bnat f, 1)]
  | .frcp d a w c f => packed 0x0C000000 [(d.toNat, 18), (a.toNat, 12), (w.toNat, 3), (bnat c, 2), (bnat f, 1)]
  | .frsq d a w c f => packed 0x0D000000 [(d.toNat, 18), (a.toNat, 12), (w.toNat, 3), (bnat c, 2), (bnat f, 1)]
  | .fsqrt d a w c f => packed 0x0E000000 [(d.toNat, 18), (a.toNat, 12), (w.toNat, 3), (bnat c, 2), (bnat f, 1)]
  | .fex2 d a w c f => packed 0x0F000000 [(d.toNat, 18), (a.toNat, 12), (w.toNat, 3), (bnat c, 2), (bnat f, 1)]
  | .flg2 d a w c f => packed 0x10000000 [(d.toNat, 18), (a.toNat, 12), (w.toNat, 3), (bnat c, 2), (bnat f, 1)]
  | .hadd2 d a b w c f => packed 0x12000000 [(d.toNat, 18), (a.toNat, 12), (b.toNat, 6), (w.toNat, 3), (bnat c, 2), (bnat f, 1)]
  | .hfma2 d a b w c f m => packed 0x13000000 [(d.toNat, 18), (a.toNat, 12), (b.toNat, 6), (w.toNat, 3), (bnat c, 2), (bnat f, 1), (bnat m, 0)]
  | .bfma2 d a b w c f m => packed 0x14000000 [(d.toNat, 18), (a.toNat, 12), (b.toNat, 6), (w.toNat, 3), (bnat c, 2), (bnat f, 1), (bnat m, 0)]
  | .cvtF16F32 d a w c f m => packed 0x18000000 [(d.toNat, 18), (a.toNat, 12), (w.toNat, 3), (bnat c, 2), (bnat f, 1), (bnat m, 0)]
  | .cvtF32F16 d a w c f m => packed 0x19000000 [(d.toNat, 18), (a.toNat, 12), (w.toNat, 3), (bnat c, 2), (bnat f, 1), (bnat m, 0)]
  | .cvtBf16F32 d a w c f m => packed 0x1A000000 [(d.toNat, 18), (a.toNat, 12), (w.toNat, 3), (bnat c, 2), (bnat f, 1), (bnat m, 0)]
  | .cvtF32Bf16 d a w c f m => packed 0x1B000000 [(d.toNat, 18), (a.toNat, 12), (w.toNat, 3), (bnat c, 2), (bnat f, 1), (bnat m, 0)]
  | .cvtE4m3F32 d a b w c f => packed 0x1C000000 [(d.toNat, 18), (a.toNat, 12), (b.toNat, 6), (w.toNat, 3), (bnat c, 2), (bnat f, 1)]
  | .cvtE5m2F32 d a b w c f => packed 0x1D000000 [(d.toNat, 18), (a.toNat, 12), (b.toNat, 6), (w.toNat, 3), (bnat c, 2), (bnat f, 1)]
  | .cvtF32E4m3 d a b w c f => packed 0x1E000000 [(d.toNat, 18), (a.toNat, 12), (b.toNat, 6), (w.toNat, 3), (bnat c, 2), (bnat f, 1)]
  | .cvtF32E5m2 d a b w c f => packed 0x1F000000 [(d.toNat, 18), (a.toNat, 12), (b.toNat, 6), (w.toNat, 3), (bnat c, 2), (bnat f, 1)]
  | .cvtI32F32 d a w c f => packed 0x20000000 [(d.toNat, 18), (a.toNat, 12), (w.toNat, 3), (bnat c, 2), (bnat f, 1)]
  | .cvtF32I32 d a w c f => packed 0x21000000 [(d.toNat, 18), (a.toNat, 12), (w.toNat, 3), (bnat c, 2), (bnat f, 1)]
  | .iadd d a b w c f m => packed 0x28000000 [(d.toNat, 18), (a.toNat, 12), (b.toNat, 6), (w.toNat, 3), (bnat c, 2), (bnat f, 1), (bnat m, 0)]
  | .isub d a b w c f m => packed 0x29000000 [(d.toNat, 18), (a.toNat, 12), (b.toNat, 6), (w.toNat, 3), (bnat c, 2), (bnat f, 1), (bnat m, 0)]
  | .imul d a b w c f => packed 0x2A000000 [(d.toNat, 18), (a.toNat, 12), (b.toNat, 6), (w.toNat, 3), (bnat c, 2), (bnat f, 1)]
  | .imad d a b w c f => packed 0x2B000000 [(d.toNat, 18), (a.toNat, 12), (b.toNat, 6), (w.toNat, 3), (bnat c, 2), (bnat f, 1)]
  | .iabs d a w c f => packed 0x2C000000 [(d.toNat, 18), (a.toNat, 12), (w.toNat, 3), (bnat c, 2), (bnat f, 1)]
  | .imin d a b w c f m => packed 0x2D000000 [(d.toNat, 18), (a.toNat, 12), (b.toNat, 6), (w.toNat, 3), (bnat c, 2), (bnat f, 1), (bnat m, 0)]
  | .imax d a b w c f m => packed 0x2E000000 [(d.toNat, 18), (a.toNat, 12), (b.toNat, 6), (w.toNat, 3), (bnat c, 2), (bnat f, 1), (bnat m, 0)]
  | .cellAnd d a b w c f m => packed 0x2F000000 [(d.toNat, 18), (a.toNat, 12), (b.toNat, 6), (w.toNat, 3), (bnat c, 2), (bnat f, 1), (bnat m, 0)]
  | .cellOr d a b w c f m => packed 0x30000000 [(d.toNat, 18), (a.toNat, 12), (b.toNat, 6), (w.toNat, 3), (bnat c, 2), (bnat f, 1), (bnat m, 0)]
  | .cellXor d a b w c f m => packed 0x31000000 [(d.toNat, 18), (a.toNat, 12), (b.toNat, 6), (w.toNat, 3), (bnat c, 2), (bnat f, 1), (bnat m, 0)]
  | .cellShl d a b w c f m => packed 0x32000000 [(d.toNat, 18), (a.toNat, 12), (b.toNat, 6), (w.toNat, 3), (bnat c, 2), (bnat f, 1), (bnat m, 0)]
  | .cellShr d a b w c f m => packed 0x33000000 [(d.toNat, 18), (a.toNat, 12), (b.toNat, 6), (w.toNat, 3), (bnat c, 2), (bnat f, 1), (bnat m, 0)]
  | .cellSra d a b w c f m => packed 0x34000000 [(d.toNat, 18), (a.toNat, 12), (b.toNat, 6), (w.toNat, 3), (bnat c, 2), (bnat f, 1), (bnat m, 0)]
  | .icmpEq d a b w c f m => packed 0x38000000 [(d.toNat, 18), (a.toNat, 12), (b.toNat, 6), (w.toNat, 3), (bnat c, 2), (bnat f, 1), (bnat m, 0)]
  | .icmpNe d a b w c f m => packed 0x39000000 [(d.toNat, 18), (a.toNat, 12), (b.toNat, 6), (w.toNat, 3), (bnat c, 2), (bnat f, 1), (bnat m, 0)]
  | .icmpLt d a b w c f m => packed 0x3A000000 [(d.toNat, 18), (a.toNat, 12), (b.toNat, 6), (w.toNat, 3), (bnat c, 2), (bnat f, 1), (bnat m, 0)]
  | .icmpLtn d a b w c f m => packed 0x3B000000 [(d.toNat, 18), (a.toNat, 12), (b.toNat, 6), (w.toNat, 3), (bnat c, 2), (bnat f, 1), (bnat m, 0)]
  | .cellSel d a b w c f => packed 0x3C000000 [(d.toNat, 18), (a.toNat, 12), (b.toNat, 6), (w.toNat, 3), (bnat c, 2), (bnat f, 1)]
  | .mov d a b w c f m => packed 0x3D000000 [(d.toNat, 18), (a.toNat, 12), (b.toNat, 6), (w.toNat, 3), (bnat c, 2), (bnat f, 1), (bnat m, 0)]
  | .ldc d a b w c f m => packed 0x40000000 [(d.toNat, 18), (a.toNat, 12), (b.toNat, 6), (w.toNat, 3), (bnat c, 2), (bnat f, 1), (bnat m, 0)]
  | .stc d a b w m => packed 0x41000000 [(d.toNat, 18), (a.toNat, 12), (b.toNat, 6), (w.toNat, 3), (bnat m, 0)]
  | .vgath d a b w c f => packed 0x42000000 [(d.toNat, 18), (a.toNat, 12), (b.toNat, 6), (w.toNat, 3), (bnat c, 2), (bnat f, 1)]
  | .vscat d a b w => packed 0x43000000 [(d.toNat, 18), (a.toNat, 12), (b.toNat, 6), (w.toNat, 3)]
  | .vredAdd d a w c f => packed 0x48000000 [(d.toNat, 18), (a.toNat, 12), (w.toNat, 3), (bnat c, 2), (bnat f, 1)]
  | .vredMax d a w c f => packed 0x49000000 [(d.toNat, 18), (a.toNat, 12), (w.toNat, 3), (bnat c, 2), (bnat f, 1)]
  | .vredMin d a w c f => packed 0x4A000000 [(d.toNat, 18), (a.toNat, 12), (w.toNat, 3), (bnat c, 2), (bnat f, 1)]
  | .vredOr d a w c f => packed 0x4B000000 [(d.toNat, 18), (a.toNat, 12), (w.toNat, 3), (bnat c, 2), (bnat f, 1)]
  | .vperm d a b w c f => packed 0x4C000000 [(d.toNat, 18), (a.toNat, 12), (b.toNat, 6), (w.toNat, 3), (bnat c, 2), (bnat f, 1)]
  | .vbcast d a b w c f m => packed 0x4D000000 [(d.toNat, 18), (a.toNat, 12), (b.toNat, 6), (w.toNat, 3), (bnat c, 2), (bnat f, 1), (bnat m, 0)]
  | .flag d a b w c => packed 0x50000000 [(d.toNat, 18), (a.toNat, 12), (b.toNat, 6), (w.toNat, 3), (bnat c, 2)]
  | .srng d a w c f => packed 0x51000000 [(d.toNat, 18), (a.toNat, 12), (w.toNat, 3), (bnat c, 2), (bnat f, 1)]
  | .rkval d a w c f => packed 0x52000000 [(d.toNat, 18), (a.toNat, 12), (w.toNat, 3), (bnat c, 2), (bnat f, 1)]
  | .optupd d a b w c f m => packed 0x53000000 [(d.toNat, 18), (a.toNat, 12), (b.toNat, 6), (w.toNat, 3), (bnat c, 2), (bnat f, 1), (bnat m, 0)]
  | .mma d a b w m => packed 0xC0000000 [(d.toNat, 18), (a.toNat, 12), (b.toNat, 6), (w.toNat, 3), (bnat m, 0)]
  | .mmaSel d a b w => packed 0xC1000000 [(d.toNat, 18), (a.toNat, 12), (b.toNat, 6), (w.toNat, 3)]
  | .mmaNeg d a b w m => packed 0xC2000000 [(d.toNat, 18), (a.toNat, 12), (b.toNat, 6), (w.toNat, 3), (bnat m, 0)]
  | .aclr d w => packed 0xC3000000 [(d.toNat, 18), (w.toNat, 3)]
  | .amov d a w c f => packed 0xC4000000 [(d.toNat, 18), (a.toNat, 12), (w.toNat, 3), (bnat c, 2), (bnat f, 1)]
  | .ald d a w c f => packed 0xC5000000 [(d.toNat, 18), (a.toNat, 12), (w.toNat, 3), (bnat c, 2), (bnat f, 1)]
  | .arnd d a b w c f m => packed 0xC6000000 [(d.toNat, 18), (a.toNat, 12), (b.toNat, 6), (w.toNat, 3), (bnat c, 2), (bnat f, 1), (bnat m, 0)]
  | .racc d a b w => packed 0xC7000000 [(d.toNat, 18), (a.toNat, 12), (b.toNat, 6), (w.toNat, 3)]
  | .wordExecute => 0
  | .globalStallEnd => 0
  | .aggregatesArrive => 0
  | .trapTaken => 0
  | .watchdog => 0
  | .copy p a b e q r c x => packed 0x02000000 [(p.toNat, 22), (a.toNat, 17), (b.toNat, 12), (e.toNat, 10), (bnat q, 5), (bnat r, 4), (c.toNat, 2), (x.toNat, 0)]
  | .copyg p a b e f i q r c x => packed 0x04000000 [(p.toNat, 22), (a.toNat, 17), (b.toNat, 12), (e.toNat, 10), (bnat f, 7), (bnat i, 6), (bnat q, 5), (bnat r, 4), (c.toNat, 2), (x.toNat, 0)]
  | .copys p a b e f i q r c x => packed 0x06000000 [(p.toNat, 22), (a.toNat, 17), (b.toNat, 12), (e.toNat, 10), (bnat f, 7), (bnat i, 6), (bnat q, 5), (bnat r, 4), (c.toNat, 2), (x.toNat, 0)]
  | .copym p a b e z q r c x => packed 0x08000000 [(p.toNat, 22), (a.toNat, 17), (b.toNat, 12), (e.toNat, 10), (bnat z, 6), (bnat q, 5), (bnat r, 4), (c.toNat, 2), (x.toNat, 0)]
  | .fill p a b e w q r c x => packed 0x0A000000 [(p.toNat, 22), (a.toNat, 17), (b.toNat, 12), (e.toNat, 10), (w.toNat, 6), (bnat q, 5), (bnat r, 4), (c.toNat, 2), (x.toNat, 0)]
  | .bind p e => packed 0x0C000000 [(p.toNat, 22), (e.toNat, 10)]
  | .unbind p n e s => packed 0x0E000000 [(p.toNat, 22), (n.toNat, 17), (e.toNat, 10), (s.toNat, 6)]
  | .rankx p a b e h o => packed 0x10000000 [(p.toNat, 22), (a.toNat, 17), (b.toNat, 12), (e.toNat, 10), (bnat h, 7), (bnat o, 6)]
  | .eresume p e => packed 0x12000000 [(p.toNat, 22), (e.toNat, 10)]
  | .ecancel p e l => packed 0x14000000 [(p.toNat, 22), (e.toNat, 10), (bnat l, 6)]
  | .xmit p a b e q r c x => packed 0x16000000 [(p.toNat, 22), (a.toNat, 17), (b.toNat, 12), (e.toNat, 10), (bnat q, 5), (bnat r, 4), (c.toNat, 2), (x.toNat, 0)]
  | .imux p a b e => packed 0x18000000 [(p.toNat, 22), (a.toNat, 17), (b.toNat, 12), (e.toNat, 10)]
  | .phaseOpen p a => packed 0x1A000000 [(p.toNat, 22), (a.toNat, 17)]
  | .phaseClose p a => packed 0x1A000040 [(p.toNat, 22), (a.toNat, 17)]
  | .phaseFrameStart => 0
  | .phaseFlit => 0
  | .mtx p a b e n => packed 0x1C000000 [(p.toNat, 22), (a.toNat, 17), (b.toNat, 12), (e.toNat, 10), (n.toNat, 6)]
  | .mfx p d e n => packed 0x1E000000 [(p.toNat, 22), (d.toNat, 17), (e.toNat, 10), (n.toNat, 6)]
  | .tpref p a b e l => packed 0x20000000 [(p.toNat, 22), (a.toNat, 17), (b.toNat, 12), (e.toNat, 10), (bnat l, 6)]
  | .tflush p a b e => packed 0x22000000 [(p.toNat, 22), (a.toNat, 17), (b.toNat, 12), (e.toNat, 10)]
  | .commandStart => 0
  | .enginePageTranslate => 0
  | .sectorLand => 0
  | .commandEnd => 0
  | .linkFailure => 0
  | .edgeLoaderFill => 0
  | .drainWrite => 0
  | .impalaRank => 0
  | .windowContribution => 0
  | .ringEntry => 0
  | .launch => 0
  | .xfer => 0
  | .xferComplete => 0
  | .skipif => 0
  | .jump => 0
  | .call => 0
  | .ret => 0
  | .waitc => 0
  | .waitcPoll => 0
  | .waitcTimeout => 0
  | .listFence => 0
  | .listFenceDone => 0
  | .signal => 0
  | .groupset => 0
  | .groupsetDone => 0
  | .note => 0
  | .haltq => 0
  | .taskStart => 0
  | .agingStep => 0
  | .preemption => 0
  | .quiesceExpire => 0
  | .resumption => 0
  | .doorbell => 0
  | .qcfg => 0
  | .qctlResume => 0
  | .qctlSkip => 0
  | .jctlCancel => 0
  | .jctlKill => 0
  | .jhead => 0
  | .aqcfg => 0
  | .registerWrite => 0
  | .aqTailPoll => 0
  | .partCreate => 0
  | .partArrays => 0
  | .partDissolve => 0
  | .ptroot => 0
  | .invalidate => 0
  | .keyLoad => 0
  | .keyAssign => 0
  | .shares => 0
  | .queueAssign => 0
  | .waymask => 0
  | .netReserve => 0
  | .hbmReserve => 0
  | .channels => 0
  | .clockLock => 0
  | .redwin => 0
  | .migtable => 0
  | .migrate => 0
  | .migrationTrigger => 0
  | .quota => 0
  | .readrec => 0
  | .monitor => 0
  | .savepool => 0
  | .tileAlloc => 0
  | .tileFree => 0
  | .preempt => 0
  | .power => 0
  | .freeze => 0
  | .debugUnlock => 0
  | .frzN => 0
  | .powerWindow => 0
  | .thermalTrip => 0
  | .hostFetchadd => 0
  | .hostSwap => 0
  | .hostCas => 0
  | .flr => 0
  | .function0Reset => 0
  | .coldReset => 0
  | .ucieLinkTrain => 0
  | .hbmTrain => 0
  | .pcieEnumerate => 0
  | .rhodiPortTrain => 0
  | .getCertificate => 0
  | .getMeasurements => 0
  | .firmwareUpdate => 0
  | .instructionCacheFill => 0
  | .hostWrite => 0
  | .peerRequest => 0
  | .eccError => 0
  | .blockingTaskTimeout => 0
  | .spdmKeyExchange => 0

/-- The instruction the decoder reads from a slot word alone: the first slot class, in the bundle's order SC, VA, VB, MX, KA
and KB (R37), whose decoder accepts the word. The three slot classes share their opcode space, so a word alone does not name
its slot (log 7); a bundle's words are decoded each in its own slot by `decodeBundle`. -/
def decodeWord (x : BitVec 32) : Option (Nat × Instr) :=
  match decodeSc x with
  | .ok i => some (0, i)
  | .error _ =>
    match decodeCell .va x with
    | .ok i => some (1, i)
    | .error _ =>
      match decodeCell .vb x with
      | .ok i => some (2, i)
      | .error _ =>
        match decodeCell .mx x with
        | .ok i => some (3, i)
        | .error _ =>
          match decodeCopy x with
          | .ok i => some (4, i)
          | .error _ => none

/-- The instruction this model's decoder reads from an instruction whose bits, numbered from the least significant bit of its
word, are `w`: one 32-bit slot word, stored little-endian (R37). -/
def decodeTableWord (_nbits w : Nat) : Option Instr := (decodeWord (BitVec.ofNat 32 w)).map Prod.snd

end Sys2Proof
end

