-- ==== Sys2Proof/Machine/Tiles.lean ====
section
/-! DEFINITION. Tiles: storage size and layout (R203 to R207, R364, R385), and where a tile's words lie. -/

namespace Sys2Proof.Machine

/-- Element size in bytes by TYPE code; an E2M1 element is one block (R363). -/
def elemBytes (ty : Nat) : Nat := [2, 2, 1, 1, 1, 16, 4, 4].getD ty 4

/-- TYPE code of E2M1. -/
def tyE2m1 : Nat := 5

/-- Bank count of a level: 32 for CELL and DIE, 64 for PAD (R206). -/
def bankCount (level : Nat) : Nat := if level = 1 then 64 else 32

/-- Columns in elements: blocks for E2M1 (R364). -/
def colsOf (t : Tile) : Nat := if t.type = tyE2m1 then t.cols / 32 else t.cols

/-- Extent of a Z-order side: a power of two, at least 4 (R204). -/
def zExtent (n : Nat) : Nat := if n ≤ 4 then 4 else pow2Up n

/-- Stored element count (R364). -/
def storedCount (t : Tile) : Nat :=
  if t.layout.getLsbD 0 then zExtent t.rows * zExtent (colsOf t) else t.rows * colsOf t

/-- `n` rounded up to a multiple of `b`. -/
def roundTo (b n : Nat) : Nat := ceilDiv n b * b

/-- Data words Wd (R364). -/
def dataWords (t : Tile) : Nat := roundTo (bankCount t.level) (ceilDiv (storedCount t * elemBytes t.type) 4)

/-- Header words Wh (R364). -/
def headWords (t : Tile) : Nat :=
  if t.type = tyE2m1 then roundTo (bankCount t.level) (ceilDiv (2 * storedCount t) 4) else 0

/-- WORDS of a shape (R364). -/
def wordsOf (t : Tile) : Nat := dataWords t + headWords t

/-- Interleave the low `n` bits of `i` (odd places) and `j` (even places). -/
def interleave : Nat → Nat → Nat → Nat
  | 0, _, _ => 0
  | n + 1, i, j => j % 2 + 2 * (i % 2) + 4 * interleave n (i / 2) (j / 2)

/-- Z-order index of element (i, j) (R204). -/
def zIndex (t : Tile) (i j : Nat) : Nat :=
  let a := Nat.log2 (zExtent t.rows)
  let b := Nat.log2 (zExtent (colsOf t))
  let m := Nat.min a b
  interleave m (i % 2 ^ m) (j % 2 ^ m) + 2 ^ (2 * m) * (if a > b then i / 2 ^ m else j / 2 ^ m)

/-- Storage index of stored element (i, j) (R204). -/
def storedIndex (t : Tile) (i j : Nat) : Nat :=
  if t.layout.getLsbD 0 then zIndex t i j else i * colsOf t + j

/-- Storage index of view element (i, j): TR exchanges rows and columns (R205). -/
def viewIndex (t : Tile) (i j : Nat) : Nat :=
  if t.layout.getLsbD 4 then storedIndex t j i else storedIndex t i j

/-- Rows of the view (R205). -/
def viewRows (t : Tile) : Nat := if t.layout.getLsbD 4 then colsOf t else t.rows

/-- Columns of the view in elements (R205). -/
def viewCols (t : Tile) : Nat := if t.layout.getLsbD 4 then t.rows else colsOf t

/-- step of a ROT code (R206). -/
def rotStep (rot : Nat) : Nat := [0, 1, 2, 4, 8, 16, 3, 5].getD rot 0

/-- Step of a tile's layout. -/
def tileStep (t : Tile) : Nat := rotStep (bitsOf t.layout 3 1)

/-- Physical word of logical word `o` (R206). -/
def physWord (b step o : Nat) : Nat := b * (o / b) + (o + o / b * step) % b

/-- Physical byte of logical byte `x`. -/
def physByte (b step x : Nat) : Nat := 4 * physWord b step (x / 4) + x % 4

/-- Byte within the tile of logical data byte `x` of the stored element `n`: its layout and rotation (R204, R206). -/
def dataByte (t : Tile) (n x : Nat) : Nat :=
  physByte (bankCount t.level) (tileStep t) (n * elemBytes t.type + x)

/-- Byte within the tile of the header of the block with storage index `n` (R207). -/
def headByte (t : Tile) (n : Nat) : Nat :=
  4 * dataWords t + physByte (bankCount t.level) (tileStep t) (2 * n)

/-- Byte within a slice of element (k, j) of a SPARSE tile (R385). -/
def sparseByte (k j : Nat) : Nat := 128 * (k / 8) + 16 * j + 2 * (k % 8)

/-- A tile with the TR a command or stream latched (R205, R371). -/
def Tile.asViewed (t : Tile) (tr : Bool) : Tile := { t with layout := setBit t.layout 4 tr }

/-- First byte of a tile's storage; for a CELL tile, of its slice in cell `n`. -/
def tileBase (t : Tile) (n : Nat) : Nat :=
  4 * t.base + (if t.level = 0 then cellBase n else if t.level = 1 then padBase t.homeArr else dieBase (t.homeArr / 4))

/-- The entry a tile number names for a partition's task, when it is reachable: LIVE, of that partition, placed (R361, R362). -/
def liveTile (s : State) (p n : Nat) : Option Tile :=
  let t := tileAt s n
  if t.st = .live && t.part = p && t.placed then some t else none

/-- The tile bound to slot `k` of the running sequencer, reachable or not: its number (R103). -/
def slotNo (s : State) (k : Nat) : Option Nat := slotTile (vget 0 (curSeq s).t k)

/-- The reachable tile in slot `k` of the running sequencer, with its number (R103, R361). -/
def curTile (s : State) (k : Nat) : Option (Nat × Tile) :=
  match slotNo s k with
  | none => none
  | some n => (liveTile s (curPart s) n).map fun t => (n, t)

/-- The reachable tile a cell instruction's slot field names, as latched by its word. -/
def cellTile (s : State) (k : Nat) : Option Tile :=
  match (s.cell.tiles.find? fun p => p.1 = k) with
  | none => none
  | some p => (liveTile s (seqAt s s.cell.top).part p.2)

end Sys2Proof.Machine
end

