-- ==== Sys2Proof/Machine/CellSram.lean ====
section
/-! DEFINITION. Cell SRAM: LDC, STC, VGATH and VSCAT (R167, R492), with the stall they need (R146). -/

namespace Sys2Proof.Machine

/-- A located fault on a tile location (R429). -/
def tileFault (s : State) (code slot off : Nat) (ls : BitVec 32) : FaultInfo :=
  { faultHere s code with tslot := slot, tvalid := true, offset := off, lanes := ls }

/-- A fault whose DETAIL is the slot word (R428). -/
def withSlotWord (f : FaultInfo) (i : Instr) : FaultInfo := { f with detail := (encode i).setWidth 64 }

/-- HANDLE_BOUNDS in a cell: DETAIL holds the index (R428). -/
def boundsFault (s : State) (slot ix : Nat) (ls : BitVec 32) : FaultInfo :=
  { tileFault s 0x10 slot ix ls with detail := BitVec.ofNat 64 ix }

/-- The CELL tile in a tile slot, or PERMISSION (R167); `i` is the instruction under way. -/
def cellTileChk (s : State) (i : Instr) (slot : Nat) : Except FaultInfo Tile :=
  match cellTile s slot with
  | none => .error (withSlotWord (tileFault s 0x12 slot 0 0) i)
  | some t => if t.level ≠ 0 then .error (withSlotWord (tileFault s 0x12 slot 0 0) i) else .ok t

/-- Lanes among those given whose words (by byte address) fail, and the fault they raise, at the offset of the lowest of them (R142,
R429). -/
def wordsFault (s : State) (slot : Nat) (off : Nat → Nat) (ws : List (Nat × Nat)) : Option FaultInfo :=
  let failing (p : Nat → Bool) : List Nat := below 32 fun k => ws.any fun w => w.1 = k && p w.2
  let fault (code : Nat) (l : List Nat) : FaultInfo :=
    tileFault s code slot (off (l.headD 0)) (BitVec.ofNat 32 (l.foldl (fun acc k => acc + 2 ^ k) 0))
  let e := failing fun a => tget false s.ecc a
  let q := failing fun a => tget false s.poison a
  if e ≠ [] then some (fault 0x40 e) else if q ≠ [] then some (fault 0x41 q) else none

/-- Storage index of the block whose 16 bytes are the words of header `g` of fragment `i`, where one whole block stands there
(R492). -/
def fragBlock (t : Tile) (i g : Nat) : Option Nat :=
  let shift := i * tileStep t % 32
  if shift % 4 ≠ 0 then none
  else
    let n := (32 * i + (4 * g + 32 - shift) % 32) / 4
    if n < storedCount t then some n else none

/-- The sidecar of fragment `i` of a slice starting at `base` (R140, R492). -/
def fragSide (s : State) (t : Tile) (base i : Nat) : Side :=
  if t.type ≠ tyE2m1 then 0
  else BitVec.ofNat 128 ((List.range 8).foldl (fun acc g =>
    match fragBlock t i g with
    | none => acc
    | some n => acc + readNat s.mem (base + headByte t n) 2 * 2 ^ (16 * g)) 0)

/-- Header words of fragment `i`, each with the first lane of its group. -/
def fragHeads (t : Tile) (base i : Nat) : List (Nat × Nat) :=
  if t.type ≠ tyE2m1 then []
  else (List.range 8).filterMap fun g => (fragBlock t i g).map fun n => (4 * g, (base + headByte t n) / 4 * 4)

/-- Index of LDC and STC: B[0][15:0] or the immediate (R167). -/
def cellIndex (m : Bool) (b : BitVec 6) (xs : List Popped) : Nat :=
  if m then b.toNat else (lane (xs.getD 0 {}).frag 0).toNat % 2 ^ 16

/-- A slice's 128 bytes of fragment `i`. -/
def sliceFrag (s : State) (base i : Nat) : Frag := BitVec.ofNat 1024 (readNat s.mem (base + 128 * i) 128)

/-- LDC (R167). -/
def execLdc (d a b : BitVec 6) (w : BitVec 3) (c f m : Bool) (s : State) : MOut :=
  .next (slotRun s fun s => withLanes s (if m then [] else [b.toNat]) (fun _ => [lane0]) fun xs =>
    match cellTileChk s (.ldc d a b w c f m) a.toNat with
    | .error e => locFault s e
    | .ok t =>
      let i := cellIndex m b xs
      let base := tileBase t (curCell s)
      if 32 * i + 32 > t.words then locFault s (boundsFault s a.toNat i 0xFFFFFFFF)
      else match wordsFault s a.toNat (fun _ => i) ((List.range 32).map (fun k => (k, base + 128 * i + 4 * k)) ++ fragHeads t base i) with
        | some e => locFault s e
        | none => writeResult s d.toNat (sliceFrag s base i) (fragSide s t base i) c f)

/-- Write 32-bit words at byte addresses, in order. -/
def writeWords (s : State) : List (Nat × BitVec 32) → State
  | [] => s
  | (a, v) :: t => writeWords (writeW32 s a v) t

/-- Write the headers of a sidecar beside fragment `i` (R492). -/
def storeHeads (s : State) (t : Tile) (base i : Nat) (x : Side) : State :=
  if t.type ≠ tyE2m1 then s
  else (List.range 8).foldl (fun s g =>
    match fragBlock t i g with
    | none => s
    | some n => { s with mem := writeNat s.mem (base + headByte t n) 2 (header x g).toNat }) s

/-- STC: the fragment named by the dst field into the slice, with its headers for an E2M1 tile; no result (R138, R167). -/
def execStc (d a b : BitVec 6) (w : BitVec 3) (m : Bool) (s : State) : MOut :=
  .next (slotRun s fun s => withLanes s ((if m then [] else [b.toNat]) ++ [d.toNat]) (fun _ => (if m then [] else [lane0]) ++ [allLanes]) fun xs =>
    match cellTileChk s (.stc d a b w m) a.toNat with
    | .error e => locFault s e
    | .ok t =>
      let i := cellIndex m b xs
      let base := tileBase t (curCell s)
      let x := xs.getD (if m then 0 else 1) {}
      if 32 * i + 32 > t.words then locFault s (boundsFault s a.toNat i 0xFFFFFFFF)
      else if t.sealed then locFault s (withSlotWord (tileFault s 0x13 a.toNat i 0) (.stc d a b w m))
      else storeHeads (writeWords s ((lanes x.frag).zipIdx.map fun (v, k) => (base + 128 * i + 4 * k, v))) t base i x.side)

/-- Lanes whose word index lies beyond the slice (R167). -/
def lanesBeyond (ix : Frag) (words : Nat) : BitVec 32 :=
  BitVec.ofNat 32 ((List.range 32).foldl (fun acc k => if (lane ix k).toNat ≥ words then acc + 2 ^ k else acc) 0)

/-- The index in the lowest lane of a mask. -/
def firstLane (ix : Frag) (m : BitVec 32) : Nat := (lane ix (Nat.log2 (m.toNat &&& (2 ^ 32 - m.toNat)))).toNat

/-- Cycles a gather or scatter needs: the largest number of distinct words in one bank (R146). -/
def bankCycles (ix : List Nat) : Nat :=
  let ws := ix.eraseDups
  (List.range 32).foldl (fun acc k => Nat.max acc ((ws.filter fun w => w % 32 = k).length)) 1

/-- Add to the cycles the word needs in this cell (R146). -/
def addExtra (s : State) (n : Nat) : State := { s with cell := { s.cell with extra := s.cell.extra + n } }

/-- VGATH: lane k from slice word B[k] (R167). -/
def execVgath (d a b : BitVec 6) (w : BitVec 3) (c f : Bool) (s : State) : MOut :=
  .next (slotRun s fun s => withOps s [b.toNat] fun xs =>
    match cellTileChk s (.vgath d a b w c f) a.toNat with
    | .error e => locFault s e
    | .ok t =>
      let ix := (xs.getD 0 {}).frag
      let base := tileBase t (curCell s)
      let out := lanesBeyond ix t.words
      if out ≠ 0 then locFault s (boundsFault s a.toNat (firstLane ix out) out)
      else match wordsFault s a.toNat (fun k => (lane ix k).toNat) ((List.range 32).map fun k => (k, base + 4 * (lane ix k).toNat)) with
        | some e => locFault s e
        | none =>
          let s1 := addExtra s (bankCycles ((lanes ix).map BitVec.toNat) - 1)
          writeResult s1 d.toNat (fragOf fun k => readW32 s (base + 4 * (lane ix k).toNat)) 0 c f)

/-- VSCAT: slice word B[k] from lane k of the dst field's fragment, the highest lane last (R167). -/
def execVscat (d a b : BitVec 6) (w : BitVec 3) (s : State) : MOut :=
  .next (slotRun s fun s => withOps s [b.toNat, d.toNat] fun xs =>
    match cellTileChk s (.vscat d a b w) a.toNat with
    | .error e => locFault s e
    | .ok t =>
      let ix := (xs.getD 0 {}).frag
      let src := (xs.getD 1 {}).frag
      let base := tileBase t (curCell s)
      let out := lanesBeyond ix t.words
      if out ≠ 0 then locFault s (boundsFault s a.toNat (firstLane ix out) out)
      else if t.sealed then locFault s (withSlotWord (tileFault s 0x13 a.toNat 0 0) (.vscat d a b w))
      else addExtra (writeWords s ((List.range 32).map fun k => (base + 4 * (lane ix k).toNat, lane src k)))
        (bankCycles ((lanes ix).map BitVec.toNat) - 1))

end Sys2Proof.Machine
end

