-- ==== Sys2Proof/Machine/Mx.lean ====
section
/-! DEFINITION. The matrix slot and OPTUPD (R174 to R195), MMA.SEL and RACC (R389, R390, R407, R408): the hazard window, operand
layouts and the sums of R90 to R93. -/

namespace Sys2Proof.Machine

/-! ## The hazard window -/

/-- Key of an accumulator's hazard age. -/
def ageKey (n a : Nat) : Nat := n * 16 + a

/-- The number after the latest word whose accumulating write named accumulator `a` of cell `n`, and whether it was of the
integer kind; 0 for none (R177, R178). -/
def ageOf (s : State) (n a : Nat) : Nat × Bool := tget (0, false) s.ages (ageKey n a)

/-- Distance of the present word from the latest accumulating write of accumulator code `a`; `none` outside the window (R178). -/
def hazardDist (s : State) (a : Nat) : Option Nat :=
  let (w, _) := ageOf s (curCell s) (a - codeA0)
  let d := s.cell.wordNo + 1 - w
  if w = 0 then none else if 1 ≤ d && d ≤ 4 then some d else none

/-- ACC_HAZARD on accumulator code `a` (R428: DETAIL [2:0] distance, [11:8] accumulator). -/
def hazardFault (s : State) (a d : Nat) : FaultInfo :=
  { faultHere s 0x20 with detail := BitVec.ofNat 64 (d + 2 ^ 8 * (a - codeA0)) }

/-- Go on unless a plain read or write of an accumulator falls in the window (R178). -/
def noHazard (s : State) (a : Nat) (k : State) : State :=
  match hazardDist s a with
  | some d => locFault s (hazardFault s a d)
  | none => k

/-- Go on unless an accumulating write of the other kind falls in the window (R178). -/
def chainHazard (s : State) (a : Nat) (int : Bool) (k : State) : State :=
  match hazardDist s a with
  | some d => if (ageOf s (curCell s) (a - codeA0)).2 ≠ int then locFault s (hazardFault s a d) else k
  | none => k

/-- Record an accumulating write (R178). -/
def noteAcc (s : State) (a : Nat) (int : Bool) : State :=
  { s with ages := tset (0, false) s.ages (ageKey (curCell s) (a - codeA0)) (s.cell.wordNo + 1, int) }

/-! ## Operands -/

/-- Matrix format codes of AF and BF (R181). -/
def afOf (fmt : Word) : Nat := bitsOf fmt 10 8
def bfOf (fmt : Word) : Nat := bitsOf fmt 14 12
/-- OUTF (R180). -/
def outfOf (fmt : Word) : Nat := bitsOf fmt 18 16

/-- The floating-point format of a code (R181). -/
def fmtOfCode (c : Nat) : Fmt := [bf16, fp16, e4m3, e5m2].getD c bf16

/-- K of a format code (R185). -/
def kOf (c : Nat) : Nat := if c ≤ 1 then 8 else if c ≤ 4 then 16 else 32

/-- Element `k` of row or column `r` of a matrix operand whose first lane is `h` (R185). -/
def matElem (c : Nat) (f : Frag) (h r k : Nat) : Nat :=
  if c ≤ 1 then half (lane f (h + 4 * r + k / 2)) (k % 2)
  else if c ≤ 4 then byteAt (lane f (h + 4 * r + k / 4)) (k % 4)
  else (lane f (h + 4 * r + k / 8)).toNat / 2 ^ (4 * (k % 8)) % 16

/-- A fragment of 32 accumulator elements, element (i, j) in lane 8i + j, with their exceptions (R89). -/
def accFrag (g : Nat → Nat → Nat × Flags) : Frag × Flags :=
  let es := (List.range 32).map fun l => g (l / 8) (l % 8)
  (fragOfList (es.map fun p => BitVec.ofNat 32 p.1), es.foldl (fun acc p => acc ||| p.2) 0)

/-- One element of an FP matrix sum (R90), the products negated under MMA.NEG (R188). -/
def mmaFp (v : Env) (neg : Bool) (ca cb : Nat) (A B C : Frag) (h i j : Nat) : Nat × Flags :=
  fp32.sum v.toRne 0 [fpIn v (lane C (8 * i + j))]
    ((List.range (kOf ca)).map fun k =>
      [((fmtOfCode ca).read v.ftz (matElem ca A h i k)).negIf neg, (fmtOfCode cb).read v.ftz (matElem cb B 0 j k)])

/-- A byte as a signed number. -/
def sbyte (x : Nat) : Int := (BitVec.ofNat 8 x).toInt

/-- One element of an INT8 matrix sum: wrapped, IOV when the exact value does not fit (R91). -/
def mmaInt (neg : Bool) (A B C : Frag) (h i j : Nat) : Nat × Flags :=
  let p := (List.range 16).foldl (fun acc k => acc + sbyte (matElem 4 A h i k) * sbyte (matElem 4 B 0 j k)) (0 : Int)
  let x := (lane C (8 * i + j)).toInt + (if neg then -p else p)
  ((BitVec.ofInt 32 x).toNat, if x < -2 ^ 31 || x > 2 ^ 31 - 1 then fIOV else 0)

/-- One element of a block-scaled matrix sum, three roundings (R92). -/
def mmaBlock (v : Env) (neg : Bool) (A B C : Frag) (ha hb : BitVec 16) (h i j : Nat) : Nat × Flags :=
  let sp := scaleOf (ha.toNat / 256)
  let sq := scaleOf (hb.toNat / 256)
  let as := (List.range 32).map fun k => codeVal ha (matElem 5 A h i k)
  let bs := (List.range 32).map fun k => codeVal hb (matElem 5 B 0 j k)
  let c := fpIn v (lane C (8 * i + j))
  let badA := sp = .nan || (sp ≠ .zero && as.any FVal.isNan)
  let badB := sq = .nan || (sq ≠ .zero && bs.any FVal.isNan)
  if badA || badB then (fp32.nan, 0)
  else match sp, sq with
    | .val m e, .val n x =>
      let d := sumFin 0 ((as.zip bs).filterMap fun p => prodV [p.1, p.2])
      let (gm, ge) := rneSig 3 (m * n) (e + x)
      match d with
      | .fin dn dm de =>
        let (t, fl) := fp32.put Env.rne 0 (.fin (dn != neg) (dm * gm) (if dm = 0 then 0 else de + ge))
        let (r, fl') := fp32.sum v.toRne 0 [c, fp32.read false t] []
        (r, fl ||| fl')
      | _ => (fp32.nan, 0)
    | _, _ => fp32.sum v.toRne 0 [c, .fin false 0 0] []

/-- The new accumulator of an MMA or MMA.NEG (R188). -/
def mmaFrag (v : Env) (fmt : Word) (neg hi : Bool) (A B : Popped) (C : Frag) : Frag × Flags :=
  let h := if hi then 16 else 0
  let hs := if hi then 4 else 0
  let ca := afOf fmt
  let cb := bfOf fmt
  if ca ≤ 3 then accFrag (mmaFp v neg ca cb A.frag B.frag C h)
  else if ca = 4 then accFrag (mmaInt neg A.frag B.frag C h)
  else accFrag fun i j => mmaBlock v neg A.frag B.frag C (header A.side (hs + i)) (header B.side j) h i j

/-- Whether a word's FMT makes an MMA an integer accumulation (R178). -/
def intKind (fmt : Word) : Bool := afOf fmt = 4

/-- MMA and MMA.NEG in the cell (R188); an operand in error is reported before the hazard window (log 46). -/
def runMma (s : State) (d a b : Nat) (neg hi : Bool) : State :=
  slotRun s fun s => withLanes s [a, b, d] (fun _ => [hiLanes hi, allLanes, allLanes]) fun xs =>
    chainHazard s d (intKind s.cell.fmt)
      (let (r, fl) := mmaFrag (curEnv s) s.cell.fmt neg hi (xs.getD 0 {}) (xs.getD 1 {}) (xs.getD 2 {}).frag
       noteAcc (writeReg (raiseFlags s fl) d r 0) d (intKind s.cell.fmt))

/-- MMA (R188). -/
def execMma (d a b : BitVec 6) (_w : BitVec 3) (m : Bool) (s : State) : MOut :=
  .next (runMma s d.toNat a.toNat b.toNat false m)

/-- MMA.NEG (R188). -/
def execMmaNeg (d a b : BitVec 6) (_w : BitVec 3) (m : Bool) (s : State) : MOut :=
  .next (runMma s d.toNat a.toNat b.toNat true m)

/-- ACLR (R189). -/
def execAclr (d : BitVec 6) (_w : BitVec 3) (s : State) : MOut :=
  .next (slotRun s fun s => noHazard s d.toNat (writeReg s d.toNat 0 0))

/-- ALD: A bit for bit into the accumulator and L (R189); an operand in error is reported before the hazard window (log 46). -/
def execAld (d a : BitVec 6) (_w : BitVec 3) (c f : Bool) (s : State) : MOut :=
  .next (slotRun s fun s => withOps s [a.toNat] fun xs =>
    noHazard s d.toNat (writeResult s d.toNat (xs.getD 0 {}).frag 0 c f))

/-- AMOV: an accumulator bit for bit into dst (R189); both ends are held to the window (R178), and an operand in error is reported
before it (log 46). -/
def execAmov (d a : BitVec 6) (_w : BitVec 3) (c f : Bool) (s : State) : MOut :=
  .next (slotRun s fun s => withOps s [a.toNat] fun xs =>
    noHazard s a.toNat
      (let k := writeResult s d.toNat (xs.getD 0 {}).frag 0 c f
       if isAcc d.toNat then noHazard s d.toNat k else k))

/-- Saturate an INT32 lane to INT8 (R94, R190). -/
def satI8 (x : Lane) : Nat :=
  let v := x.toInt
  (BitVec.ofInt 8 (if v > 127 then 127 else if v < -128 then -128 else v)).toNat

/-- The fragment ARND writes, from the accumulator, B and the old dst (R190). -/
def arndFn (fmt : Word) (hi : Bool) : VecFn := fun v gen xs =>
  let o := outfOf fmt
  if o ≤ 1 then narrow16 (fmtOfCode o) hi v gen [xs.getD 0 0, xs.getD 2 0]
  else if o ≤ 3 then narrow8 (fmtOfCode o) v gen xs
  else (pack8 ((lanes (xs.getD 0 0)).map satI8) (xs.getD 2 0) ((lane (xs.getD 1 0) 0).toNat % 4), 0, gen)

/-- Lanes ARND reads: all of the accumulator, lane 0 of a quarter source, and of dst those it keeps (R187, R190). -/
def arndLanes (fmt : Word) (hi : Bool) (xs : List Frag) : List (BitVec 32) :=
  [allLanes, lane0, ~~~ (if outfOf fmt ≤ 1 then hiLanes hi else quarterLanes (quarterOf xs))]

/-- ARND (R190); B is a quarter source only for FP8 and INT8 targets. An operand in error is reported before the hazard window
(log 46). -/
def execArnd (d a b : BitVec 6) (_w : BitVec 3) (c f m : Bool) (s : State) : MOut :=
  .next (slotRun s fun s =>
    let q := if outfOf s.cell.fmt ≤ 1 then codeZ else b.toNat
    withLanes s [a.toNat, q, d.toNat] (arndLanes s.cell.fmt m) fun xs =>
      noHazard s a.toNat
        (let (r, fl, g) := arndFn s.cell.fmt m (curEnv s) (getG s (curCell s)) (xs.map (·.frag))
         writeResult (raiseFlags (setG s (curCell s) g) fl) d.toNat r 0 c f))

/-! ## MMA.SEL and RACC -/

/-- The activation element X[i][k] of MMA.SEL (R390). -/
def selElem (f : Frag) (i k : Nat) : Nat := half (lane f (16 * (k / 8) + 4 * i + k % 8 / 2)) (k % 2)

/-- One element of MMA.SEL over the products its map selects (R390). -/
def mmaSelElem (s : State) (v : Env) (F : Fmt) (base : Nat) (map : BitVec 16) (X C : Frag) (i j : Nat) : Nat × Flags :=
  let c := bitsOf map 15 9
  let h := bitsOf map 8 8
  fp32.sum v.toRne 0 [fpIn v (lane C (8 * i + j))]
    ((below 8 fun b => map.getLsbD b).map fun b =>
      [F.read v.ftz (selElem X i (8 * h + b)),
       F.read v.ftz (readNat s.mem (base + sparseByte (16 * c + 8 * h + b) j) 2)])

/-- Lanes of the activations a map selects; a null map reads nothing (R390). -/
def selLanes (map : BitVec 16) (_ : List Frag) : List (BitVec 32) :=
  let bs := below 8 fun b => map.getLsbD b
  [bs.foldl (fun m b => (List.range 4).foldl (fun m i => setBit m (16 * bitsOf map 8 8 + 4 * i + b / 2) true) m) 0,
   if bs = [] then 0 else allLanes]

/-- Words of the weight rows a map reads, with no lane of their own. -/
def selWords (base : Nat) (map : BitVec 16) : List (Nat × Nat) :=
  let k0 := 16 * bitsOf map 15 9 + 8 * bitsOf map 8 8
  (List.range 32).map fun w => (w, base + 128 * (k0 / 8) + 4 * w)

/-- MMA.SEL: the map under MP selects the products; MP steps in every case, and the write counts as accumulating even when
the map is null (R390). -/
def execMmaSel (d a b : BitVec 6) (w : BitVec 3) (s : State) : MOut :=
  .next (slotRun s fun s0 =>
    let n := curCell s0
    let mp := tget 0 s0.mp n
    let map := tget 0 s0.pram (n * 256 + (tget 0 s0.mapBase n + mp) % 256)
    let s := { s0 with mp := tset 0 s0.mp n ((mp + 1) % 256) }
    withLanes s [b.toNat, d.toNat] (selLanes map) fun xs =>
      match cellTileChk s (.mmaSel d a b w) a.toNat with
      | .error e => locFault s e
      | .ok t =>
        if !t.sparse || t.type ≠ afOf s.cell.fmt then
          locFault s (withSlotWord (tileFault s 0x12 a.toNat 0 0) (.mmaSel d a b w))
        else chainHazard s d.toNat false
          (if bitsOf map 7 0 = 0 then noteAcc s d.toNat false
           else
             let k0 := 16 * bitsOf map 15 9 + 8 * bitsOf map 8 8
             let base := tileBase t n
             if k0 + 7 ≥ t.rows then locFault s (boundsFault s a.toNat (k0 + 7) 0)
             else match wordsFault s a.toNat (fun _ => k0 / 8) (selWords base map) with
               | some e => locFault s e
               | none =>
                 let v := curEnv s
                 let (r, fl) := accFrag (mmaSelElem s v (fmtOfCode (afOf s.cell.fmt)) base map (xs.getD 0 {}).frag (xs.getD 1 {}).frag)
                 noteAcc (writeReg (raiseFlags s fl) d.toNat r 0) d.toNat false))

/-- The lanes of B that RACC adds: valid and below the cut-off (R408). -/
def raccSet (f : Frag) (k : Nat) : List Nat := below 16 fun q => (lane f q).getLsbD 31 && bitsOf (lane f q) 21 16 < k

/-- Row `n`, element `k` of an FP32 or BF16 slice (R408). -/
def raccElem (s : State) (v : Env) (t : Tile) (base n k : Nat) : FVal :=
  if t.type = 0 then bf16.read v.ftz (readNat s.mem (base + 64 * n + 2 * k) 2)
  else fp32.read v.ftz (readNat s.mem (base + 128 * n + 4 * k) 4)

/-- Rows of a slice as RACC counts them (R408). -/
def raccRows (t : Tile) : Nat := if t.type = 0 then t.words / 16 else t.words / 32

/-- RACC: rows of the tile weighted by the rank-attenuation table (R408). -/
def execRacc (d a b : BitVec 6) (w : BitVec 3) (s : State) : MOut :=
  .next (slotRun s fun s => withLanes s [b.toNat, d.toNat] (fun _ => [hiLanes false, allLanes]) fun xs =>
    match cellTileChk s (.racc d a b w) a.toNat with
    | .error e => locFault s e
    | .ok t =>
      if t.type ≠ 6 && t.type ≠ 0 then locFault s (withSlotWord (tileFault s 0x12 a.toNat 0 0) (.racc d a b w))
      else
        let tab := curCellArr s
        let B := (xs.getD 0 {}).frag
        let C := (xs.getD 1 {}).frag
        let u := raccSet B tab.kcut
        let base := tileBase t (curCell s)
        let ix (q : Nat) : Nat := (lane B q).toNat % 2 ^ 16
        let bad := u.filter fun q => ix q ≥ raccRows t
        if bad ≠ [] then
          locFault s (boundsFault s a.toNat (ix (bad.headD 0)) (BitVec.ofNat 32 (bad.foldl (fun acc q => acc + 2 ^ q) 0)))
        else chainHazard s d.toNat false
          (let bytes := if t.type = 0 then 64 else 128
           let ws := u.flatMap fun q => (List.range (bytes / 4)).map fun k => (q, base + bytes * ix q + 4 * k)
           match wordsFault s a.toNat (fun q => if t.type = 0 then ix q / 2 else ix q) ws with
           | some e => locFault s e
           | none =>
             let v := curEnv s
             let (r, fl) := laneFn (fun k _ _ z =>
               fp32.sum v.toRne 0 [fpIn v z]
                 (u.map fun q => [raccElem s v t base (ix q) k,
                   fp16.read v.ftz (vget 0 tab.att (bitsOf (lane B q) 21 16)).toNat])) 0 0 C
             addExtra (noteAcc (writeReg (raiseFlags s fl) d.toNat r 0) d.toNat false)
               (ceilDiv u.length 4 - 1)))

/-! ## OPTUPD -/

/-- A rounding step of OPTUPD: the FP32 value read back, and its flags (R193). -/
def optRnd (v : Env) (adds : List FVal) (prods : List (List FVal)) : FVal × Flags :=
  let (r, fl) := fp32.sum v.toRne 0 adds prods
  (fp32.read v.ftz r, fl)

/-- Bits and flags of a last step. -/
def optBits (v : Env) (adds : List FVal) (prods : List (List FVal)) : Nat × Flags := fp32.sum v.toRne 0 adds prods

/-- One lane of OPTUPD: new W, M and V with the flags, or `none` where `.nf` skips it (R193). -/
def optLane (v : Env) (P : Frag) (nf : Bool) (a m0 v0 w0 : Lane) : Option (Nat × Nat × Nat) × Flags :=
  let p (i : Nat) : FVal := fpIn v (lane P i)
  let (g, f1) := optRnd v [] [[fpIn v a, p 9]]
  if nf && (g.isNan || g.isInf) then (none, f1)
  else
    let (mb, f2) := optBits v [] [[p 1, fpIn v m0], [p 2, g]]
    let (vb, f3) := optBits v [] [[p 3, fpIn v v0], [p 4, g, g]]
    let m := fp32.read v.ftz mb
    let vv := fp32.read v.ftz vb
    let (mh, f4) := optRnd v [] [[m, p 7]]
    let (vh, f5) := optRnd v [] [[vv, p 8]]
    let (rt, f6) := sqrtV v.toRne vh
    let (dd, f7) := optRnd v [fp32.read v.ftz rt, p 5] []
    let (ub, f8) := divV v.toRne mh dd
    let (tt, f9) := optRnd v [fp32.read v.ftz ub] [[p 6, fpIn v w0]]
    let (wb, f10) := optBits v [fpIn v w0] [[(p 0).neg, tt]]
    (some (wb, mb, vb), f1 ||| f2 ||| f3 ||| f4 ||| f5 ||| f6 ||| f7 ||| f8 ||| f9 ||| f10)

/-- The registers OPTUPD reads, in the order A, M, V, W, P, each with the lanes it reads (R193, R194). -/
def optReads (w a m : Nat) : List (Nat × BitVec 32) := [(a, allLanes), (m, allLanes), (m + 1, allLanes), (w, allLanes), (7, 0x3FF)]

/-- Lanes of OPTUPD held by a failing word: one with an uncorrectable error or a poison mark (R194). -/
def optHeld (s : State) (w a m : Nat) : BitVec 32 :=
  let e (c : Nat) : BitVec 32 := eccLanes s c ||| poisonLanes s c
  if e 7 &&& 0x3FF ≠ 0 then 0xFFFFFFFF else e a ||| e m ||| e (m + 1) ||| e w

/-- The fault of the lanes held: it names the first failing register, and is POISON_CONSUMED where no failing word has an ECC error
(R194). -/
def optFault (s : State) (w a m : Nat) : FaultInfo :=
  let rs := optReads w a m
  let ecc := rs.any fun r => eccLanes s r.1 &&& r.2 ≠ 0
  let reg := (rs.find? fun r => (eccLanes s r.1 ||| poisonLanes s r.1) &&& r.2 ≠ 0).map (·.1)
  { faultHere s (if ecc then 0x40 else 0x41) with tslot := reg.getD 0, lanes := optHeld s w a m }

/-- Count each word OPTUPD finds uncorrectable (R424). -/
def optCount (s0 s : State) (w a m : Nat) : State :=
  (optReads w a m).foldl (fun s r => (below 32 fun k => (eccLanes s0 r.1 &&& r.2).getLsbD k).foldl
    (fun s _ => countErr s (curCell s0 / 4096 * 8) true) s) s

/-- Put back the error and poison marks of the words of some registers of the cell as they stood in `s0`. -/
def keepEcc (s s0 : State) (codes : List Nat) : State :=
  let back (old new : Tab Bool) : Tab Bool := (old.filter fun e => codes.any fun c => e.1 / 32 = cellKey (curCell s) c).foldl
    (fun t e => tset false t e.1 e.2) new
  { s with cellEcc := back s0.cellEcc s.cellEcc, cellPoison := back s0.cellPoison s.cellPoison }

/-- OPTUPD: one optimiser step in every lane not held; held lanes keep their three registers as they are and make a located fault after
the others update, and the slot then sets no flags (R148, R193 to R195). The copy of W in L and C carries no error mark (log 72),
and the hazard window is met before the held lanes (log 46). -/
def execOptupd (d a b : BitVec 6) (_w : BitVec 3) (c f m : Bool) (s : State) : MOut :=
  .next (slotRun s fun s =>
    let n := curCell s
    noHazard s a.toNat
      (let held := optHeld s d.toNat a.toNat b.toNat
       let A := getFrag s n a.toNat
       let M := getFrag s n b.toNat
       let V := getFrag s n (b.toNat + 1)
       let W := getFrag s n d.toNat
       let P := getFrag s n 7
       let v := curEnv s
       let rs := (List.range 32).map fun k =>
         if held.getLsbD k then (none, 0) else optLane v P m (lane A k) (lane M k) (lane V k) (lane W k)
       let fl : Flags := rs.foldl (fun acc r => acc ||| r.2) 0
       let pick (g : Nat × Nat × Nat → Nat) (old : Frag) : Frag := fragOf fun k =>
         match (rs.getD k (none, 0)).1 with
         | some r => BitVec.ofNat 32 (g r)
         | none => lane old k
       let s1 := writeReg (raiseFlags s fl) b.toNat (pick (·.2.1) M) 0
       let s2 := writeReg s1 (b.toNat + 1) (pick (·.2.2) V) 0
       let s3 := writeResult s2 d.toNat (pick (·.1) W) 0 c (f && held = 0)
       if held = 0 then s3
       else takeLoc (optCount s (keepEcc s3 s [b.toNat, b.toNat + 1, d.toNat]) d.toNat a.toNat b.toNat) (optFault s d.toNat a.toNat b.toNat)))

end Sys2Proof.Machine
end

