-- ==== Sys2Proof/Machine/Translate.lean ====
section
/-! DEFINITION. Addresses, page-table entries, the walk and the TLBs (R336 to R345). -/

namespace Sys2Proof.Machine

/-! ## Page-table entries -/

/-- Fields of a page-table entry (R338). -/
def pteV (e : Word) : Bool := e.getLsbD 0
def pteP (e : Word) : Bool := e.getLsbD 1
def pteR (e : Word) : Bool := e.getLsbD 2
def pteW (e : Word) : Bool := e.getLsbD 3
def pteX (e : Word) : Bool := e.getLsbD 4
/-- KIND: 0 SO, 1 RC, 2 UN (R338). -/
def pteKind (e : Word) : Nat := bitsOf e 6 5
def pteSealed (e : Word) : Bool := e.getLsbD 7
def pteKey (e : Word) : Nat := bitsOf e 17 8
/-- LOC: 0 this chip, 1 peer, 2 host (R338). -/
def pteLoc (e : Word) : Nat := bitsOf e 19 18
def pteSize (e : Word) : Nat := bitsOf e 22 20
/-- Physical address of the frame or of the next table, within its space (R338). -/
def pteFrame (e : Word) : Nat := bitsOf e 60 23 * 4096
/-- Physical address of a leaf's frame, its space included (R336). -/
def ptePa (e : Word) : Nat := pteLoc e * 2 ^ 50 + pteFrame e

/-- Bytes of a leaf by SIZE code (R339). -/
def sizeBytes (c : Nat) : Nat := [49152, 3145728, 201326592, 4096, 65536].getD c 4096

/-- Bytes a leaf maps. -/
def leafBytes (e : Word) : Nat := sizeBytes (pteSize e)

/-- Memory die of a device physical address (R336). -/
def memDie (pa : Nat) : Nat := pa / 2 ^ 36 % 2 ^ 4

/-- Whether a physical address is this chip's device memory. -/
def isDevice (pa : Nat) : Bool := pa < 2 ^ 50

/-- Where an entry stands: levels 0 to 4, or a host table under level 3 or 4 (R339). -/
inductive Level where
  | l0
  | l1
  | l2
  | l3
  | l4
  | host3
  | host4
  deriving DecidableEq, Repr

/-- Bytes one entry of a level maps (R340, R348). -/
def Level.span : Level → Nat
  | .l0 => 4096 * 4096 * 201326592
  | .l1 => 4096 * 201326592
  | .l2 => 201326592
  | .l3 => 3145728
  | .l4 => 49152
  | .host3 => 65536
  | .host4 => 4096

/-- SIZE code a leaf carries at a level, if leaves may stand there (R339). -/
def leafSize : Level → Option Nat
  | .l0 => none
  | .l1 => none
  | .l2 => some 2
  | .l3 => some 1
  | .l4 => some 0
  | .host3 => some 4
  | .host4 => some 3

/-- Whether an entry is a table of either kind (R339). -/
def isTable (e : Word) : Bool := pteSize e = 6 || pteSize e = 7

/-- Whether a table entry may stand at a level (R339). -/
def tableOk (l : Level) (e : Word) : Bool :=
  match l with
  | .l0 | .l1 | .l2 => pteSize e = 6
  | .l3 => pteSize e = 6 || pteSize e = 7
  | .l4 => pteSize e = 7
  | .host3 | .host4 => false

/-- Whether a device or peer frame names a memory die that exists and starts at a multiple of its size (R208, R341). -/
def frameOk (e : Word) : Bool :=
  let fr := pteFrame e
  if pteLoc e = 2 then fr % leafBytes e = 0
  else if pteLoc e = 0 then fr < 2 ^ 40 && memDie fr < 12 && fr % 2 ^ 36 % leafBytes e = 0
    && fr % 2 ^ 36 + leafBytes e ≤ 2 ^ 36
  else fr < 2 ^ 46 && memDie fr < 12 && fr % 2 ^ 36 % leafBytes e = 0 && fr % 2 ^ 36 + leafBytes e ≤ 2 ^ 36

/-- Whether an entry has the form its level asks for (R338, R341). -/
def pteForm (l : Level) (e : Word) : Bool :=
  if bitsOf e 63 61 ≠ 0 then false
  else if isTable e then
    tableOk l e && pteLoc e = 0 && bitsOf e 17 1 = 0 && pteFrame e < 2 ^ 40 && memDie (pteFrame e) < 12
  else
    leafSize l = some (pteSize e) && pteKind e ≠ 3 && frameOk e
      && (match l with
          | .host3 | .host4 => pteLoc e = 2
          | _ => pteLoc e = 0 || pteLoc e = 1)
      && (pteLoc e = 0 || pteKey e = 0)

/-- Whether an entry is well formed at its level for a partition, whose key slot a leaf of this chip names: BADPTE otherwise (R341,
R358). -/
def pteOk (s : State) (p : Nat) (l : Level) (e : Word) : Bool :=
  pteForm l e && (isTable e || pteLoc e ≠ 0 || tget 0 s.keyOwner (pteKey e) = p + 1)

/-! ## The walk -/

/-- How a walk ends (R341): a leaf and where it is held, or a cause with the level it failed at. -/
inductive Walk where
  | leaf (e : Word) (at_ : Nat) (l : Level)
  | fail (cause : Nat) (l : Level)
  deriving DecidableEq, Repr

/-- Whether an ECC word under the `n` 4-byte words from `a` is poisoned or holds an uncorrectable error. -/
def badWords (s : State) (a n : Nat) : Bool :=
  (List.range n).any fun k => tget false s.poison (eccWord (a + 4 * k)) || tget false s.ecc (eccWord (a + 4 * k))

/-- Read and check entry `i` of the table at `t` (R340, R341): the entry, or how the walk fails. NOTPRESENT is decided by the
caller, so that P = 0 leaves can be sized (R348). -/
def walkEntry (s : State) (p : Nat) (l : Level) (t i : Nat) : Except Walk (Word × Nat) :=
  let a := t + 8 * i
  let e := BitVec.ofNat 64 (readNat s.mem a 8)
  if badWords s a 2 then .error (.fail 5 l)
  else if !pteV e then .error (.fail 2 l)
  else if !pteOk s p l e then .error (.fail 3 l)
  else .ok (e, a)

/-- Bits `[hi:lo]` of a number. -/
def nbits (n hi lo : Nat) : Nat := n / 2 ^ lo % 2 ^ (hi + 1 - lo)

/-- The walk of a virtual address, P = 0 leaves included (R340). -/
def walkAny (s : State) (p : Nat) (va : Word) : Walk :=
  if bitsOf va 63 57 ≠ 0 then .fail 1 .l0
  else
    let a := va.toNat
    let q := a / 201326592
    let r := a - q * 201326592
    match walkEntry s p .l0 (partAt s p).ptroot (nbits q 29 24) with
    | .error w => w
    | .ok (e0, _) =>
    match walkEntry s p .l1 (pteFrame e0) (nbits q 23 12) with
    | .error w => w
    | .ok (e1, _) =>
    match walkEntry s p .l2 (pteFrame e1) (nbits q 11 0) with
    | .error w => w
    | .ok (e2, a2) =>
    if !isTable e2 then .leaf e2 a2 .l2 else
    match walkEntry s p .l3 (pteFrame e2) (r / 3145728) with
    | .error w => w
    | .ok (e3, a3) =>
    if !isTable e3 then .leaf e3 a3 .l3
    else if pteSize e3 = 7 then
      match walkEntry s p .host3 (pteFrame e3) (r % 3145728 / 65536) with
      | .error w => w
      | .ok (e, a) => .leaf e a .host3
    else
    match walkEntry s p .l4 (pteFrame e3) (r % 3145728 / 49152) with
    | .error w => w
    | .ok (e4, a4) =>
    if !isTable e4 then .leaf e4 a4 .l4
    else
      match walkEntry s p .host4 (pteFrame e4) (r % 49152 / 4096) with
      | .error w => w
      | .ok (e, a) => .leaf e a .host4

/-- The walk of R340 with its last check: a leaf with P = 0 fails NOTPRESENT. Moves of a page are whole steps, so no walk
finds one in progress (R341, R357). -/
def walk (s : State) (p : Nat) (va : Word) : Walk :=
  match walkAny s p va with
  | .leaf e a l => if pteP e then .leaf e a l else .fail 4 l
  | w => w

/-- Virtual base of the page of `n` bytes that holds `va`. Host pages nest within the 48 KiB or 3 MiB span above them
(R337). -/
def pageBase (va : Nat) (n : Nat) : Nat :=
  if n = 65536 then va / 3145728 * 3145728 + va % 3145728 / 65536 * 65536
  else if n = 4096 then va / 49152 * 49152 + va % 49152 / 4096 * 4096
  else va / n * n

/-- Virtual base of the page a VALID handle names. -/
def Handle.base (h : Handle) : Nat := pageBase h.va.toNat (leafBytes h.leaf)

/-! ## Errors of memory words -/

/-- Number of the error record of the unit a byte address lies in: compute die × 8 + class, or 64 + 2 × memory die + part
(R424). -/
def errUnit (a : Nat) : Nat :=
  if a < onChip then 64 + 2 * memDie a + 1
  else
    let o := a - onChip
    if o < 2 ^ 30 then o / 2 ^ 25 * 8 + 2
    else if o < 2 ^ 31 then (o - 2 ^ 30) / 2 ^ 25 * 8 + 3
    else (o - 2 ^ 31) / 2 ^ 26 * 8 + 1

/-- First bytes of the ECC words that overlap `n` bytes from `a`. -/
def wordsOver (a n : Nat) : List Nat :=
  let z := eccSize a
  (List.range (ceilDiv (a + n) z - a / z)).map fun k => (a / z + k) * z

/-- Whether some word under an access is poisoned. -/
def anyPoison (s : State) (a n : Nat) : Bool := (wordsOver a n).any fun w => tget false s.poison w

/-- Whether some word under an access holds an uncorrectable error not yet marked. -/
def anyEcc (s : State) (a n : Nat) : Bool := (wordsOver a n).any fun w => tget false s.ecc w

/-- Mark the uncorrectable words under an access poisoned, counting each (R211, R424). -/
def markPoison (s : State) (a n : Nat) : State :=
  (wordsOver a n).foldl (fun s w =>
    if tget false s.ecc w then
      countErr { s with ecc := tdel s.ecc w, poison := tset false s.poison w true } (errUnit w) true
    else s) s

/-! ## Cache slices -/

/-- Ways in no partition's mask of a slice (R210). -/
def sharedWays (s : State) (m : Nat) : BitVec 16 :=
  ~~~ ((List.range 28).foldl (fun acc p => acc ||| tget 0 s.waymask (m * 28 + p)) (0 : BitVec 16))

/-- Ways a partition's misses may take in the slice of die `m` (R210). -/
def waysFor (s : State) (m p : Nat) : BitVec 16 :=
  let own := tget (0 : BitVec 16) s.waymask (m * 28 + p)
  if own = 0 then sharedWays s m else own

/-- The way a miss takes among those allowed: the lowest free one, else that of the least recently used line of its set, whose
lines are listed with the most recent first. -/
def victimWay (ways : BitVec 16) (set : List (Nat × Nat × Nat × Bool)) : Option Nat :=
  match (below 16 fun w => ways.getLsbD w && !set.any fun e => e.2.2.1 = w).head? with
  | some w => some w
  | none => (set.filter fun e => ways.getLsbD e.2.2.1).getLast?.map (·.2.2.1)

/-- Bytes of a line's number of bytes as HBM's line reads: those its slice holds, but where it is clean under a key replaced since
(R358). -/
def hbmClean (s : State) (pa : Nat) : Nat :=
  let now := readNat s.mem pa 192
  let x := tget (now, now) s.stale pa
  if x.1 = now then x.2 else now

/-- A clean line is about to be written in its slice: what HBM's line reads as from then on, until it leaves (R463). -/
def noteDirty (s : State) (pa : Nat) : State := { s with hbm := tset 0 s.hbm pa (hbmClean s pa), stale := tdel s.stale pa }

/-- A line leaves its slice: where it is clean and its key has been replaced since, its bytes are from then on what HBM's line reads as
under the new key; one whose bytes have changed since has been written, and is written back under that key (R358). -/
def evictLine (s : State) (pa : Nat) : State :=
  let x := tget (0, 0) s.stale pa
  let s1 := { s with stale := tdel s.stale pa }
  if readNat s.mem pa 192 = x.1 then { s1 with mem := writeNat s.mem pa 192 x.2 } else s1

/-- Lines that a test chooses, of a die, line number, way and dirty mark, leave their slices. -/
def evictLines (s : State) (gone : Nat × Nat × Nat × Bool → Bool) : State :=
  let s1 := (s.slices.filter gone).foldl (fun s x =>
    if (s.stale.any fun e => e.1 = x.1 * 2 ^ 36 + 192 * x.2.1) then evictLine s (x.1 * 2 ^ 36 + 192 * x.2.1) else s) s
  { s1 with slices := s.slices.filter fun x => !gone x
            hbm := if s.hbm = [] then [] else s.hbm.filter fun e => !(s.slices.filter gone).any fun x => e.1 = x.1 * 2 ^ 36 + 192 * x.2.1 }

/-- A line served by its slice: it becomes the most recently used of its set; a miss allocates in the partition's ways, or in the
shared ones when it has none, evicting the least recently used; where neither has a way the line is placed nowhere (R210). Slices
hold no values of their own here but those of `stale`: what they hold is what their memory holds, and a touch that dirties comes before
its write. -/
def sliceTouch (s : State) (p pa : Nat) (dirty : Bool) : State :=
  if !isDevice pa then s
  else
    let m := memDie pa
    let n := pa % 2 ^ 36 / 192
    let hit (e : Nat × Nat × Nat × Bool) : Bool := e.1 = m && e.2.1 = n
    match s.slices.find? hit with
    | some e =>
      let s1 := if dirty && !e.2.2.2 then noteDirty s (m * 2 ^ 36 + 192 * n) else s
      { s1 with slices := (m, n, e.2.2.1, e.2.2.2 || dirty) :: s.slices.filter fun x => !hit x }
    | none =>
      let sameSet (e : Nat × Nat × Nat × Bool) : Bool := e.1 = m && e.2.1 % 16384 = n % 16384
      match victimWay (waysFor s m p) (s.slices.filter sameSet) with
      | none => s
      | some w =>
        let s1 := evictLines s fun x => sameSet x && x.2.2.1 = w
        let s2 := if dirty then noteDirty s1 (m * 2 ^ 36 + 192 * n) else s1
        { s2 with slices := (m, n, w, dirty) :: s1.slices }

/-- The lines that some bytes lie in come into their slices. -/
def touchAll (s : State) (p : Nat) (l : List Nat) (dirty : Bool) : State :=
  ((l.filter isDevice).map fun x => memDie x * 2 ^ 36 + x % 2 ^ 36 / 192 * 192).eraseDups.foldl (fun s x => sliceTouch s p x dirty) s

/-- Addresses of the entries a walk reads, level by level (R340). -/
def walkReads (s : State) (p : Nat) (va : Word) : List Nat :=
  if bitsOf va 63 57 ≠ 0 then []
  else
    let q := va.toNat / 201326592
    let r := va.toNat % 201326592
    let go (l : Level) (t i : Nat) (k : Word → List Nat) : List Nat :=
      (t + 8 * i) :: match walkEntry s p l t i with
        | .error _ => []
        | .ok (e, _) => if isTable e then k e else []
    go .l0 (partAt s p).ptroot (nbits q 29 24) fun e => go .l1 (pteFrame e) (nbits q 23 12) fun e =>
      go .l2 (pteFrame e) (nbits q 11 0) fun e => go .l3 (pteFrame e) (r / 3145728) fun e =>
        if pteSize e = 7 then [pteFrame e + 8 * (r % 3145728 / 65536)]
        else go .l4 (pteFrame e) (r % 3145728 / 49152) fun e => [pteFrame e + 8 * (r % 49152 / 4096)]

/-- The entries a walk of a partition reads come through their slices, and an uncorrectable one is marked and counted (R210, R340, R341,
R424). -/
def walkTouch (s : State) (p : Nat) (va : Word) : State :=
  let l := walkReads s p va
  touchAll (l.foldl (fun s x => markPoison s x 8) s) p l false

/-! ## Performance counters -/

/-- Add to the performance counters of array `a` that select an event (R425, R426). -/
def pmcAdd (s : State) (a code n : Nat) : State :=
  modSeq s a fun q =>
    let add (v : Vector Word 8) : Vector Word 8 := Vector.ofFn fun (i : Fin 8) =>
      if code ≠ 0 && bitsOf q.pmctl (8 * i.val + 7) (8 * i.val) = code then v[i] + BitVec.ofNat 64 n else v[i]
    { q with pmc := add q.pmc, now := { q.now with pmc := add q.now.pmc } }

/-! ## TLBs -/

/-- The leaf a TLB holds for an address of a partition (R343). -/
def tlbFind (l : List TlbEntry) (p va : Nat) : Option Word :=
  match l with
  | [] => none
  | e :: t => if e.part = p && e.base ≤ va && va < e.base + leafBytes e.leaf then some e.leaf else tlbFind t p va

/-- Look an address up: array TLB, victim store, die TLB (R344). -/
def tlbLookup (s : State) (a p va : Nat) : Option Word :=
  match tlbFind (arr s a).tlb p va with
  | some e => some e
  | none => match tlbFind (arr s a).victim p va with
    | some e => some e
    | none => tlbFind (tget [] s.dieTlb (a / 4)) p va

/-- Capacity of an array TLB and of a die TLB (R343). -/
def arrTlbSize : Nat := 2048
def dieTlbSize : Nat := 32768

/-- Put a leaf first in a TLB, without its older copy. -/
def tlbPut (l : List TlbEntry) (e : TlbEntry) : List TlbEntry :=
  e :: l.filter fun x => !(x.part = e.part && x.base = e.base)

/-- Fill both TLBs with the leaf of a walk; what the array TLB evicts goes to the victim store (R343, R344). -/
def tlbFill (s : State) (a p va : Nat) (leaf : Word) : State :=
  let e : TlbEntry := { part := p, base := pageBase va (leafBytes leaf), leaf := leaf }
  let l := tlbPut (arr s a).tlb e
  let s1 := modArr s a fun x => { x with tlb := l.take arrTlbSize, victim := l.drop arrTlbSize ++ x.victim }
  { s1 with dieTlb := tset [] s1.dieTlb (a / 4) ((tlbPut (tget [] s.dieTlb (a / 4)) e).take dieTlbSize) }

/-- Count an array-TLB miss and, where it comes to that, a walk (R426). -/
def countMiss (s : State) (a : Nat) (walked : Bool) : State :=
  let s1 := pmcAdd s a 0x0B 1
  if walked then pmcAdd s1 a 0x0C 1 else s1

/-- A walk for array `a`: one that succeeds fills both TLBs (R343). -/
def walkFill (s : State) (a p : Nat) (va : Word) : State × Walk :=
  match walk s p va with
  | .leaf e at_ l => (tlbFill (walkTouch s p va) a p va.toNat e, .leaf e at_ l)
  | w => (walkTouch s p va, w)

/-- Translate for an agent of array `a` without a handle: TLBs, then a walk that fills them (R343, R345, R359). -/
def translate (s : State) (a p : Nat) (va : Word) : State × Walk :=
  if bitsOf va 63 57 ≠ 0 then (s, .fail 1 .l0)
  else match tlbLookup s a p va.toNat with
    | some e => ((if (tlbFind (arr s a).tlb p va.toNat).isSome then s else countMiss s a false), .leaf e 0 .l4)
    | none => walkFill (countMiss s a true) a p va

end Sys2Proof.Machine
end

