-- ==== Sys2Proof/Machine/Mem.lean ====
section
/-! DEFINITION. Memory as the agents reach it: bytes with their error marks (R211), the cache slices (R210), the array cache (R213,
R214, R227), and the performance and error counters beside them. -/

namespace Sys2Proof.Machine

/-! ## Where a home lies -/

/-- Compute die a memory die is attached to (R7). -/
def attachedDie (m : Nat) : Nat := [0, 0, 1, 2, 3, 3, 4, 4, 5, 6, 7, 7].getD m 0

/-- Die boundaries between two compute dies (R359). -/
def crossings (x y : Nat) : Nat := (x % 4 - y % 4) + (y % 4 - x % 4) + (x / 4 - y / 4) + (y / 4 - x / 4)

/-- Compute die of a home: that a memory die is attached to, or that of an on-chip address; none for host and peer memory, whose
links the manual places at no die (R7, R359; log 71). -/
def homeDie (s : State) (pa : Nat) : Option Nat :=
  if isDevice pa then some (attachedDie (memDie pa))
  else if pa < onChip then none
  else
    let o := pa - onChip
    some (dieOfArr s (if o < 2 ^ 30 then o / 2 ^ 23 else if o < 2 ^ 31 then (o - 2 ^ 30) / 2 ^ 25 * 4 else (o - 2 ^ 31) / 2 ^ 24))

/-- Count `n` flits that cross `k` die boundaries each (R426). -/
def countFlits (s : State) (a n k : Nat) : State :=
  if k = 0 then s else pmcAdd (pmcAdd s a 0x0E n) a 0x0F (n * k)

/-- Count the flits of a request of array `a` to a home and of its answer (R426). -/
def countTrip (s : State) (a pa : Nat) : State :=
  match homeDie s pa with
  | none => s
  | some d => countFlits s a 2 (crossings (dieOfArr s a) d)

/-- Count an access of array `a` by where its home lies: device memory by its die, and the flits of its request and answer
(R426). -/
def countHome (s : State) (a pa : Nat) : State :=
  match homeDie s pa with
  | none => s
  | some d => countTrip (if isDevice pa then pmcAdd s a (if crossings (dieOfArr s a) d = 0 then 0x10 else 0x11) 1 else s) a pa

/-! ## Bytes with their marks -/

/-- Write `n` bytes; a word written whole loses its error marks. -/
def putBytes (s : State) (a n v : Nat) : State :=
  let whole (w : Nat) : Bool := a ≤ w && w + eccSize w ≤ a + n
  { s with mem := writeNat s.mem a n v
           poison := s.poison.filter fun e => !whole e.1
           ecc := s.ecc.filter fun e => !whole e.1 }

/-- Write the bytes of a sector; a word written whole loses its marks, and the words whose source was poisoned are marked
(R211). -/
def putCells (s : State) (l : List Host.Cell) (bad : List Nat) : State :=
  let whole (w : Nat) : Bool := (List.range (eccSize w)).all fun k => l.any fun c => c.1 = w + k
  { s with
    mem := writeCells s.mem l
    poison := bad.foldl (fun t w => tset false t w true) (s.poison.filter fun e => !whole e.1)
    ecc := s.ecc.filter fun e => !whole e.1 }

/-- Write `n` bytes at their home, of at most two lines, for a partition: through the slices (R210). -/
def homeBytes (s : State) (p a n v : Nat) : State := putBytes (touchAll s p [a, a + (n - 1)] true) a n v

/-- Write the bytes of a sector at their home, through the slices (R210). -/
def homeCells (s : State) (p : Nat) (l : List Host.Cell) (bad : List Nat) : State :=
  putCells (touchAll s p (l.map (·.1)) true) l bad

/-- Read `n` bytes. -/
def getBytes (s : State) (a n : Nat) : Nat := readNat s.mem a n

/-! ## The array cache -/

/-- Sets and ways of the array cache (R213). -/
def cacheSets : Nat := 170
def cacheWays : Nat := 16

/-- Sectors of a line touched by `n` bytes from offset `o`. -/
def sectorsOf (o n : Nat) : List Nat := below 4 fun k => o < 48 * (k + 1) && 48 * k < o + n

/-- The 8-byte words of a line that `n` bytes from offset `o` touch, and those they cover whole (R211). -/
def lineWords (o n : Nat) : List Nat := below 24 fun k => o < 8 * k + 8 && 8 * k < o + n
def lineWhole (o n : Nat) : List Nat := below 24 fun k => o ≤ 8 * k && 8 * k + 8 ≤ o + n

/-- A line with other poison marks; PSN says that it holds one (R213). -/
def CacheLine.withBad (l : CacheLine) (b : BitVec 24) : CacheLine := { l with bad := b, psn := b ≠ 0 }

/-- Array `a` writes back a line, an access to its home: the bytes its mask marks in dirty sectors, with the marks of their words; the byte
marks and dirty bits clear (R211, R214, R227, R426). -/
def writeBack (s : State) (a : Nat) (l : CacheLine) : State × CacheLine :=
  let cells : List Host.Cell := (List.range 192).filterMap fun k =>
    if l.mask.getLsbD k && l.sd.getLsbD (k / 48) then
      some (l.pa + k, BitVec.ofNat 8 (l.data.toNat / 2 ^ (8 * k))) else none
  let bad := ((below 24 fun k => l.bad.getLsbD k).map fun k => l.pa + 8 * k).filter fun w => cells.any fun c => w ≤ c.1 && c.1 < w + 8
  (if cells = [] then s else countHome (homeCells s l.part cells bad) a l.pa,
   { l with sd := 0, stag := 0, mask := 0 })

/-- Write back every dirty line of array `a` that a test chooses (R232). -/
def writeBackAll (s : State) (a : Nat) (p : CacheLine → Bool) : State :=
  let (s', ls) := (arr s a).cache.foldl (fun (acc : State × List CacheLine) l =>
    if p l then
      let (s1, l1) := writeBack acc.1 a l
      (s1, acc.2 ++ [l1])
    else (acc.1, acc.2 ++ [l])) (s, [])
  modArr s' a fun x => { x with cache := ls }

/-- The acquire of R233: write back every dirty line, then drop every line but the sealed ones. -/
def invalidateCache (s : State) (a : Nat) : State :=
  modArr (writeBackAll s a fun _ => true) a fun x => { x with cache := x.cache.filter fun l => l.sld }

/-- The line of array `a` that holds a virtual line of a partition. -/
def cacheLine (s : State) (a p n : Nat) : Option CacheLine := (arr s a).cache.find? fun l => l.line = n && l.part = p

/-- A use of a line held puts it first. -/
def cacheFront (s : State) (a : Nat) (l : CacheLine) : State :=
  modArr s a fun x => { x with cache := l :: x.cache.filter fun y => !(y.line = l.line && y.part = l.part) }

/-- Put a line first in its set; a seventeenth is evicted with its dirty bytes written back (R213, R214). -/
def cachePut (s : State) (a : Nat) (l : CacheLine) : State :=
  let rest := (arr s a).cache.filter fun x => !(x.line = l.line && x.part = l.part)
  let inSet := rest.filter fun x => x.line % cacheSets = l.line % cacheSets
  match inSet.drop (cacheWays - 1) with
  | [] => modArr s a fun x => { x with cache := l :: rest }
  | v :: _ =>
    let (s1, _) := writeBack s a v
    modArr s1 a fun x => { x with cache := l :: rest.filter fun y => !(y.line = v.line && y.part = v.part) }

/-- An empty line for a virtual line whose leaf is known. -/
def newLine (p n pa : Nat) (leaf : Word) : CacheLine :=
  { line := n, part := p, pa := pa, un := pteKind leaf = 2, sv := 0, sd := 0, stag := 0, sld := pteSealed leaf,
    psn := false, bad := 0, mask := 0, data := 0 }

/-- Fill the missing sectors of a line from its home (R214). -/
def fillLine (s : State) (l : CacheLine) (o n : Nat) : State × CacheLine :=
  (sectorsOf o n).foldl (fun (acc : State × CacheLine) k =>
    let (s, l) := acc
    if l.sv.getLsbD k then acc
    else
      let s1 := sliceTouch (markPoison s (l.pa + 48 * k) 48) l.part l.pa false
      let v := getBytes s1 (l.pa + 48 * k) 48
      let bad := (lineWords (48 * k) 48).foldl (fun b w => setBit b w (anyPoison s1 (l.pa + 8 * w) 8)) l.bad
      (s1, { l.withBad bad with sv := setBit l.sv k true, data := setBits l.data (384 * k + 383) (384 * k) v })) (s, l)

/-- Whether the array cache of array `a` holds every sector of an access (R214). -/
def cacheHit (s : State) (a p va n : Nat) : Bool :=
  match cacheLine s a p (va / 192) with
  | none => false
  | some l => (sectorsOf (va % 192) n).all fun k => l.sv.getLsbD k

/-- Count a lookup of the array cache (R426). -/
def countLookup (s : State) (a : Nat) (hit : Bool) : State := pmcAdd s a (if hit then 0x09 else 0x0A) 1

/-- A load through the array cache of array `a`: the value, and the places in the access that lie in a poisoned word (R211,
R214). -/
def cacheLoad (s : State) (a p va pa n : Nat) (leaf : Word) : State × Nat × List Nat :=
  let o := va % 192
  let l0 := (cacheLine s a p (va / 192)).getD (newLine p (va / 192) (pa - o) leaf)
  let (s1, l1) := fillLine s l0 o n
  let s2 := countLookup (cachePut s1 a l1) a (cacheHit s a p va n)
  (s2, l1.data.toNat / 2 ^ (8 * o) % 2 ^ (8 * n), below n fun k => l1.bad.getLsbD ((o + k) / 8))

/-- The line with `n` bytes merged at offset `o`, marked dirty when `dirty`; a word written whole loses its poison mark (R211, R214,
R227). -/
def mergeLine (l : CacheLine) (o n v : Nat) (dirty : Bool) : CacheLine :=
  let m : BitVec 192 := BitVec.ofNat 192 ((2 ^ n - 1) * 2 ^ o)
  { l.withBad ((lineWhole o n).foldl (fun b k => setBit b k false) l.bad) with
           data := setBits l.data (8 * (o + n) - 1) (8 * o) v
           mask := if dirty then l.mask ||| m else l.mask
           sd := if dirty then (sectorsOf o n).foldl (fun b k => setBit b k true) l.sd else l.sd }

/-- A plain store on an RC page: its sector is filled if it misses, then merged and dirtied (R214). -/
def cacheStore (s : State) (a p va pa n v : Nat) (leaf : Word) : State :=
  let o := va % 192
  let l0 := (cacheLine s a p (va / 192)).getD (newLine p (va / 192) (pa - o) leaf)
  let (s1, l1) := fillLine s l0 o n
  countLookup (cachePut s1 a (mergeLine l1 o n v true)) a (cacheHit s a p va n)

/-- A store written through: performed at its home, and merged into the line where that is present, which is a use of it (R213,
R214). -/
def storeThrough (s : State) (a p va pa n v : Nat) : State :=
  let s1 := countLookup (homeBytes s p pa n v) a (cacheHit s a p va n)
  match cacheLine s1 a p (va / 192) with
  | none => s1
  | some l =>
    if (sectorsOf (va % 192) n).all fun k => l.sv.getLsbD k then
      cacheFront s1 a (mergeLine l (va % 192) n v false)
    else s1

/-- Write back and drop the line that holds a physical address, where array `a` has one (R245). -/
def dropPa (s : State) (a pa : Nat) : State :=
  let here (l : CacheLine) : Bool := l.pa ≤ pa && pa < l.pa + 192
  if !(arr s a).cache.any here then s
  else modArr (writeBackAll s a here) a fun x => { x with cache := x.cache.filter fun l => !here l }

/-- Before an access of array `a` through a page, its own lines that hold bytes of the same physical line under another virtual line or
partition are written back and dropped, so that its stores to one byte keep their order (R226). -/
def aliasWork (s : State) (a p va pa : Nat) : State :=
  let lo := pa - va % 192
  let other (l : CacheLine) : Bool := l.pa < lo + 192 && lo < l.pa + 192 && !(l.line = va / 192 && l.part = p)
  if !(arr s a).cache.any other then s
  else modArr (writeBackAll s a other) a fun x => { x with cache := x.cache.filter fun l => !other l }

/-- An atomic of the array's own sequencer first writes back its dirty bytes of the line and then drops it (R226). -/
def dropLine (s : State) (a p va : Nat) : State :=
  let s1 := writeBackAll s a fun l => l.line = va / 192 && l.part = p
  modArr s1 a fun x => { x with cache := x.cache.filter fun l => !(l.line = va / 192 && l.part = p) }

end Sys2Proof.Machine
end

