-- ==== Sys2Proof/Machine/Homes.lean ====
section
/-! DEFINITION. What the homes do: read-modify-writes and their arithmetic (R249 to R252, R255 to R257), the quota (R259), barrier
objects (R413 to R418) and the full/empty waiters of pad banks (R201, R222). -/

namespace Sys2Proof.Machine

/-! ## Scalar registers -/

/-- Write a scalar register of array `a`: s0 discards, and a write clears the poison mark (R99, R217). -/
def putReg (s : State) (a r : Nat) (v : Word) : State :=
  if r = 0 then s
  else modSeq s a fun q => { q with s := vset q.s r v, poisoned := setBit q.poisoned r false }

/-- Write a scalar register with a poisoned value (R217). -/
def putPoison (s : State) (a r : Nat) (v : Word) (bad : Bool) : State :=
  if r = 0 then s
  else modSeq s a fun q => { q with s := vset q.s r v, poisoned := setBit q.poisoned r bad }

/-! ## Home arithmetic -/

/-- A sum at the home: a NaN input gives the canonical NaN with NV (R251). -/
def homeAdd (F : Fmt) (x y : Nat) : Nat × Flags :=
  let a := F.read false x
  let b := F.read false y
  if a.isNan || b.isNan then (F.nan, fNV) else F.sum Env.rne 0 [a, b] []

/-- A maximum at the home (R251). -/
def homeMax (x y : Nat) : Nat × Flags :=
  let a := fp32.read false x
  let b := fp32.read false y
  if a.isNan || b.isNan then (fp32.nan, fNV)
  else if a.isZero && b.isZero then (if a.isNeg && b.isNeg then x else 0, 0)
  else if ltV a b then (y, 0) else (x, 0)

/-- The AMO functions 0–9 on `n`-bit values: the new value and flags (R249). -/
def amoNew (fn n old v : Nat) : Nat × Flags :=
  let x := BitVec.ofNat n old
  let y := BitVec.ofNat n v
  match fn with
  | 0 => ((x + y).toNat, 0)
  | 1 => ((x &&& y).toNat, 0)
  | 2 => ((x ||| y).toNat, 0)
  | 3 => ((x ^^^ y).toNat, 0)
  | 4 => ((if x.toInt ≤ y.toInt then x else y).toNat, 0)
  | 5 => ((if x.toInt ≤ y.toInt then y else x).toNat, 0)
  | 6 => ((if x.toNat ≤ y.toNat then x else y).toNat, 0)
  | 7 => ((if x.toNat ≤ y.toNat then y else x).toNat, 0)
  | 8 => (y.toNat, 0)
  | _ => homeAdd fp32 x.toNat y.toNat

/-- Bytes an accumulate writes: 2 for BFADD off tiles, else 4 (R246). -/
def accBytes (fn : Nat) (tile : Bool) : Nat := if fn = 2 && !tile then 2 else 4

/-- The ACC functions 0–3: old and addend to new, with flags; BFADD on a tile acts on both halves (R246, R256). -/
def accNew (fn : Nat) (tile : Bool) (old v : Nat) : Nat × Flags :=
  match fn with
  | 0 => ((old + v) % 2 ^ 32, 0)
  | 1 => homeAdd fp32 old v
  | 2 =>
    if tile then
      let (lo, f1) := homeAdd bf16 (old % 2 ^ 16) (v % 2 ^ 16)
      let (hi, f2) := homeAdd bf16 (old / 2 ^ 16) (v / 2 ^ 16 % 2 ^ 16)
      (lo + 2 ^ 16 * hi, f1 ||| f2)
    else homeAdd bf16 old v
  | _ => homeMax old v

/-- Key of the sticky flags of the home of an address, for a partition: home atomic units by memory die, banks by compute die
(R252). -/
def homeKey (pa p : Nat) : Nat := memDie pa * 28 + p
def bankKey (a p : Nat) : Nat := (if a - onChip < 2 ^ 30 then (a - onChip) / 2 ^ 25 else (a - onChip - 2 ^ 30) / 2 ^ 25) * 28 + p

/-- OR flags into the sticky set of the home of an address (R252). A peer's flags stay at the peer (R274). -/
def homeSticky (s : State) (pa p : Nat) (fl : Flags) : State :=
  if pa ≥ onChip then
    { s with bankFlags := tset 0 s.bankFlags (bankKey pa p) (tget 0 s.bankFlags (bankKey pa p) ||| fl) }
  else if isDevice pa then
    { s with homeFlags := tset 0 s.homeFlags (homeKey pa p) (tget 0 s.homeFlags (homeKey pa p) ||| fl) }
  else s

/-- Perform a read-modify-write at a home: the state, the old value, its flags, and whether the word is poisoned, in which case
nothing changes (R249, R255). -/
def rmw (s0 : State) (pa p n : Nat) (f : Nat → Option Nat × Flags) : State × Nat × Flags × Bool :=
  let s := markPoison s0 pa n
  let old := getBytes s pa n
  if anyPoison s pa n then (sliceTouch s p pa false, old, 0, true)
  else
    let (new, fl) := f old
    let s1 := sliceTouch (homeSticky s pa p fl) p pa true
    ((match new with
      | some v => putBytes s1 pa n v
      | none => s1), old, fl, false)

/-! ## The quota -/

/-- Key of a quota record: home and partition (R423). -/
def quotaKey (m p : Nat) : Nat := m * 28 + p

/-- Default quota record. -/
def quotaAt (s : State) (m p : Nat) : Quota := tget {} s.quotas (quotaKey m p)

def setQuota (s : State) (m p : Nat) (q : Quota) : State := { s with quotas := tset {} s.quotas (quotaKey m p) q }

/-- Key of a window count: home and sender array (R423). -/
def acntKey (m a : Nat) : Nat := m * 28 + a

/-- The sender of an accumulate that no array of this chip sends: no window count holds it (R271, R423). -/
def noArray : Nat := 28

/-- Count an accumulate accepted from an array, saturating at 2,047 (R423). -/
def bumpAcnt (s : State) (m a : Nat) : State :=
  if a ≥ noArray then s else
  let c := tget 0 s.acnt (acntKey m a)
  { s with acnt := tset 0 s.acnt (acntKey m a) (Nat.min 2047 (c + 1)) }

/-- Whether a home refuses an ordinary accumulate (R258, R259): device memory only, the count of its sender at the quota. -/
def refuses (s : State) (pa p a : Nat) : Bool :=
  isDevice pa && tget 0 s.acnt (acntKey (memDie pa) a) ≥ (quotaAt s (memDie pa) p).inForce

/-- Perform an accumulate at its home; at a poisoned word it is discarded and logged (R255, R256), in a log no
command reads (log 71). -/
def accPerform (s : State) (pa p a fn : Nat) (v : Nat) (must : Bool) : State :=
  let tile := pa ≥ onChip
  let (s1, _, _, bad) := rmw s pa p (accBytes fn tile) fun old =>
    let (x, fl) := accNew fn tile old v
    (some x, fl)
  let s2 := if bad then { s1 with homeLog := s1.homeLog ++ [(memDie pa, p, pa)] } else s1
  if isDevice pa then
    let s3 := bumpAcnt s2 (memDie pa) a
    if must then
      let q := quotaAt s3 (memDie pa) p
      setQuota s3 (memDie pa) p { q with macnt := satInc q.macnt }
    else s3
  else s2

/-! ## Barrier objects -/

/-- A barrier object as 128 bits (R413). -/
abbrev Bar := BitVec 128

def barAt (s : State) (addr : Nat) : Bar := BitVec.ofNat 128 (getBytes s addr 16)
def setBar (s : State) (addr : Nat) (b : Bar) : State := { s with mem := writeNat s.mem addr 16 b.toNat }

def barPend (b : Bar) : Nat := bitsOf b 31 0
def barExpb (b : Bar) : Nat := bitsOf b 63 32
def barExpa (b : Bar) : Nat := bitsOf b 79 64
def barArr (b : Bar) : Nat := bitsOf b 95 80
def barArrn (b : Bar) : Nat := bitsOf b 103 96
def barGroup (b : Bar) : Nat := bitsOf b 111 104
def barPhase (b : Bar) : Nat := bitsOf b 119 112
def barValid (b : Bar) : Bool := b.getLsbD 120
def barBroken (b : Bar) : Bool := b.getLsbD 121

/-- Whether the conditions of a phase end hold (R414). -/
def barDone (b : Bar) : Bool := barArr b ≥ barExpa b && barPend b = 0

/-- End a phase (R414). -/
def barEnd (b : Bar) : Bar :=
  let b1 := setBits b 119 112 (barPhase b + 1)
  setBits (setBits (setBits b1 95 80 (barArrn b)) 103 96 0) 63 32 0

/-- The check after an update: no phase, one, or two phases end (R414). -/
def barCheck (b : Bar) : Bar × Bool :=
  if barDone b then
    let b1 := barEnd b
    (if barArr b1 > 0 && barDone b1 then barEnd b1 else b1, true)
  else (b, false)

/-- Result of a CBWAIT: status and phase (R417). -/
def cbResult (status phase : Nat) : Word := BitVec.ofNat 64 (status * 2 ^ 32 + phase)

/-- Answer every CBWAIT waiting on an object, one per cycle in arrival order, the first now (R418). -/
def answerCb (s : State) (addr status phase : Nat) : State :=
  let s1 := (s.waiters.filter fun w => w.kind = 3 && w.addr = addr).zipIdx.foldl (fun s w =>
    modSeq s w.1.arr fun q => { q with cbDone := some (cbResult status phase), cbwaiting := false, cbAt := s.cyc + w.2 }) s
  { s1 with waiters := s1.waiters.filter fun w => !(w.kind = 3 && w.addr = addr) }

/-- The bytes of the attached residual tiles: first byte and count (R262). -/
def residSpans (s : State) : List (Nat × Nat) :=
  (s.arrs.toList.filterMap (·.seq.residTile)).map fun n => (tileBase (tileAt s n) 0, 4 * (tileAt s n).words)

/-- Whether a byte lies in an attached residual tile (R263). -/
def inResid (s : State) (a : Nat) : Bool := (residSpans s).any fun r => r.1 ≤ a && a < r.1 + r.2

/-- Apply an update to an object with VALID 1 and BROKEN 0, check it unless it is a withdrawal for pre-emption, and answer its
waiters when a phase ends (R414); other objects ignore it (R415, R417). Its words are read, with what that finds (R424); in an attached
residual tile no object is reached (R263; log 77). -/
def barUpdate (s0 : State) (addr : Nat) (check : Bool) (f : Bar → Bar) : State :=
  let s := if inResid s0 addr then s0 else markPoison s0 addr 16
  let b := barAt s addr
  if inResid s0 addr || !barValid b || barBroken b then s
  else
    let b1 := f b
    let (b2, ended) := if check then barCheck b1 else (b1, false)
    let s1 := setBar s addr b2
    if ended then answerCb s1 addr 0 (barPhase b2) else s1

/-- Subtract credited bytes from PEND (R415). -/
def barCredit (n : Nat) (b : Bar) : Bar := setBits b 31 0 ((barPend b + (2 ^ 32 - n % 2 ^ 32)) % 2 ^ 32)

/-- CBEXP, and the re-addition of R415: add bytes to PEND and EXPB. -/
def barExpect (n : Nat) (b : Bar) : Bar :=
  setBits (setBits b 31 0 ((barPend b + n) % 2 ^ 32)) 63 32 ((barExpb b + n) % 2 ^ 32)

/-- Withdraw bytes from PEND and EXPB (R415). -/
def barWithdraw (n : Nat) (b : Bar) : Bar :=
  let k := 2 ^ 32 - n % 2 ^ 32
  setBits (setBits b 31 0 ((barPend b + k) % 2 ^ 32)) 63 32 ((barExpb b + k) % 2 ^ 32)

/-- An arrival: counted in ARR, or, when ARR has reached EXPA, in ARRN with OVERRUN set (R414). -/
def barArrive (b : Bar) : Bar :=
  if barArr b ≥ barExpa b then setBit (setBits b 103 96 (Nat.min 255 (barArrn b + 1))) 122 true
  else setBits b 95 80 (barArr b + 1)

/-- Mark an object broken and answer its waiters (R419), but in an attached residual tile, which is not reached (R263; log 77). -/
def barBreak (s0 : State) (addr : Nat) : State :=
  let s := if inResid s0 addr then s0 else markPoison s0 addr 16
  let b := barAt s addr
  if inResid s0 addr then s else answerCb (setBar s addr (setBit b 121 true)) addr 1 (barPhase b)

/-! ## Full/empty words -/

/-- Bank of a pad byte address, by array and word mod 64 (R199). -/
def padBank (addr : Nat) : Nat := (addr - onChip) / 2 ^ 23 * 64 + (addr - onChip) % 2 ^ 23 / 4 % 64

/-! ## The order of service at a bank -/

/-- An agent that accesses a bank (R200, R202). -/
inductive Agent where
  | seq
  | eng (e : Nat)
  | loader
  | home
  deriving DecidableEq, Repr

/-- The bank of an on-chip byte address: 64 for each pad, and from 1,792 on 32 for each die-memory quarter (R199, R202). -/
def bankOf (pa : Nat) : Option Nat :=
  if pa < onChip then none
  else
    let o := pa - onChip
    if o < 2 ^ 30 then some (padBank pa)
    else if o < 2 ^ 31 then some (1792 + (o - 2 ^ 30) / 2 ^ 23 * 32 + (o - 2 ^ 30) / 4 % 32)
    else none

/-- The place of an access of array `a` in the order of service at a bank: the pad's own sequencer, engines and loaders, then other
arrays, then the home atomic operations; at die memory the four arrays of the die take the first places in quadrant order (R200,
R202). -/
def serviceRank (b a : Nat) (g : Agent) : Nat :=
  let own (e : Agent) : Nat := match e with
    | .seq => 0
    | .eng k => 1 + k
    | _ => 5
  if g = .home then 100 + a
  else if b < 1792 then (if b / 64 = a then own g else 6 + a)
  else if (b - 1792) / 128 = a / 4 then
    (match g with
     | .seq => a % 4
     | .eng k => 4 + 4 * (a % 4) + k
     | _ => 20 + a % 4)
  else 24 + a

/-- Number that stands for the deque of an array among the banks. -/
def dequeUnit (a : Nat) : Nat := 4096 + a

/-- Some banks, each with the place of an access of array `a` in its order of service. -/
def rankedAt (l : List Nat) (a : Nat) (g : Agent) : List (Nat × Nat) := l.eraseDups.map fun b => (b, serviceRank b a g)

/-- The banks an access to some bytes meets, each with its place in the order of service. -/
def servedAt (l : List Nat) (a : Nat) (g : Agent) : List (Nat × Nat) := rankedAt (l.filterMap bankOf) a g

/-- Whether nothing that follows some accesses in the orders of their banks and deques has been served in this cycle (R200, R331). -/
def orderOpen (s : State) (l : List (Nat × Nat)) : Bool := l.all fun x => x.2 + 1 ≥ tget 0 s.served x.1

/-- Whether some accesses may be made now: a bank serves one access in a cycle (R200, R202); at a deque the order alone counts (R331). -/
def serviceOpen (s : State) (l : List (Nat × Nat)) : Bool :=
  orderOpen s l && l.all fun x => x.1 ≥ dequeUnit 0 || tget 0 s.served x.1 = 0

/-- Accesses have been served in this cycle. -/
def markServed (s : State) (l : List (Nat × Nat)) : State :=
  { s with served := l.foldl (fun t x => tset 0 t x.1 (Nat.max (x.2 + 1) (tget 0 t x.1))) s.served }

/-! ## Waiters of full/empty words -/

/-- Whether a pad word is full (R199). -/
def isFull (s : State) (addr : Nat) : Bool := tget false s.full addr

/-- The bank answers the full/empty request of a held bundle, which issues with it: the status, the word, and whether it is poisoned
(R201, R222). -/
def answerFe (s : State) (a status : Nat) (v : BitVec 32) (bad : Bool) : State :=
  modSeq s a fun q => { q with feReq := none, feDone := some (BitVec.ofNat 64 (status * 2 ^ 32 + v.toNat), bad) }

/-- Serve the oldest waiter of a word that its state lets through, again and again while one is (R201). -/
def serveFe (s : State) (addr : Nat) : Nat → State
  | 0 => s
  | n + 1 =>
    let full := isFull s addr
    match s.waiters.find? fun w => w.addr = addr && (if full then w.kind ≤ 1 else w.kind = 2) with
    | none => s
    | some w =>
      let s1 := { s with waiters := s.waiters.erase w }
      match (seqAt s w.arr).feReq with
      | some r =>
        if w.kind = 2 then
          serveFe (answerFe { putBytes s1 addr 4 r.v.toNat with full := tset false s1.full addr true } w.arr 0 0 false) addr n
        else
          let s2 := markPoison s1 addr 4
          let bad := anyPoison s2 addr 4
          let s3 := if w.kind = 0 then { s2 with full := tset false s2.full addr false } else s2
          serveFe (answerFe s3 w.arr 0 (readW32 s2 addr) bad) addr n
      | none => serveFe s1 addr n

/-- After a word's bit changed, serve its waiters (R201). -/
def serveWord (s : State) (addr : Nat) : State := serveFe s addr (s.waiters.length + 1)

/-- Waiters queued at a bank (R201). -/
def bankCount' (s : State) (b : Nat) : Nat := (s.waiters.filter fun w => w.bank = b).length

/-- Answer BROKEN every full/empty waiter on a tile (R201). -/
def breakFe (s : State) (tile : Nat) : State :=
  let ws := s.waiters.filter fun w => w.kind ≤ 2 && w.tile = tile
  ws.foldl (fun s w => answerFe { s with waiters := s.waiters.erase w } w.arr 1 0 false) s

end Sys2Proof.Machine
end

