-- ==== Sys2Proof/Machine/Journal.lean ====
section
/-! DEFINITION. Virtual accesses of the interpreter, the stream controller and the trap logic (R310, R316, R430), and the journal
(R332, R333). -/

namespace Sys2Proof.Machine

/-- The physical address of a virtual byte for a partition, with its leaf; `none` where the walk fails. -/
def virtPa (s : State) (p va : Nat) : Option (Nat × Word) :=
  match walk s p (BitVec.ofNat 64 va) with
  | .leaf e _ _ => some (ptePa e + (va - pageBase va (leafBytes e)), e)
  | .fail _ _ => none

/-- Cause of a failing walk (R341); 0 where it succeeds. -/
def virtCause (s : State) (p va : Nat) : Nat :=
  match walk s p (BitVec.ofNat 64 va) with
  | .leaf _ _ _ => 0
  | .fail c _ => c

/-- Read `k` 8-byte units from a virtual address, performed at the homes; `none` where a page is missing or lacks R, or a word is
poisoned. -/
def virtRead (s : State) (p va : Nat) : Nat → Option Nat
  | 0 => some 0
  | k + 1 =>
    match virtPa s p va with
    | none => none
    | some (pa, e) =>
      if !pteR e || anyPoison s pa 8 || anyEcc s pa 8 then none
      else (virtRead s p (va + 8) k).map fun r => getBytes s pa 8 + 2 ^ 64 * r

/-- What a virtual access of `n` bytes meets in its first page: the walk, and the lines and marks of the bytes read there, and how many
bytes those are; all of them where nothing is read (R210, R340, R424). -/
def meetPage (s : State) (p va n : Nat) : State × Nat :=
  let s1 := walkTouch s p (BitVec.ofNat 64 va)
  match virtPa s p va with
  | none => (s1, n)
  | some (pa, e) =>
    if !pteR e then (s1, n)
    else
      let k := Nat.min n (pageBase va (leafBytes e) + leafBytes e - va)
      (touchAll (markPoison s1 pa k) p [pa, pa + (k - 1)] false, k)

/-- What reading up to 192 bytes from a virtual address does beside giving them, in two pages at most (R210, R211, R340, R424). -/
def virtMeet (s : State) (p va n : Nat) : State :=
  let (s1, k) := meetPage s p va n
  if k < n then (meetPage s1 p (va + k) (n - k)).1 else s1

/-- Write `n` bytes within one page, and whether they are written: not where the page is missing, lacks W or is sealed. -/
def virtWrite (s : State) (p va n v : Nat) : State × Bool :=
  let s1 := walkTouch s p (BitVec.ofNat 64 va)
  match virtPa s p va with
  | none => (s1, false)
  | some (pa, e) => if !pteW e || pteSealed e then (s1, false) else (homeBytes s1 p pa n v, true)

/-- Write 8-byte units one after another, up to one that is not written. -/
def virtWriteUnits (s : State) (p va : Nat) : List Nat → State
  | [] => s
  | v :: t =>
    let (s1, ok) := virtWrite s p va 8 v
    if ok then virtWriteUnits s1 p (va + 8) t else s1

/-! ## The journal -/

/-- CYC[41:10] (R332). -/
def jTime (s : State) : Nat := s.cyc / 2 ^ 10 % 2 ^ 32

/-- Virtual address of a journal entry (R332). -/
def jAddr (s : State) (p seq : Nat) : Nat := (partAt s p).jbase.toNat + 32 * (seq % 65536)

/-- Status codes of R332. -/
def jAccepted : Nat := 0
def jStarted : Nat := 1
def jDone : Nat := 2
def jFailed : Nat := 3
def jCancelled : Nat := 4

/-- Whether acceptance waits: the journal is full (R333). -/
def jFull (s : State) (p : Nat) : Bool := (partAt s p).jtail - (partAt s p).jhead = 65536

/-- Write a whole entry and then advance JTAIL (R333). A write that faults leaves no entry; JTAIL advances all the same. -/
def journalNew (s : State) (p queue kind status ref tid cookie detail : Nat) : State :=
  let q := (partAt s p).jtail.toNat
  let w0 := q + queue * 2 ^ 32 + kind * 2 ^ 48 + status * 2 ^ 56
  let s1 := virtWriteUnits s p (jAddr s p q) [w0, ref, tid + cookie * 2 ^ 32, detail + jTime s * 2 ^ 32]
  modPart s1 p fun x => { x with jtail := x.jtail + 1 }

/-- Rewrite STATUS, DETAIL and TIME of an entry in place (R333). -/
def journalSet (s : State) (p seq status detail : Nat) : State :=
  let a := jAddr s p seq
  let (s1, ok) := virtWrite s p (a + 7) 1 status
  if ok then (virtWrite s1 p (a + 24) 8 (detail % 2 ^ 32 + jTime s * 2 ^ 32)).1 else s1

end Sys2Proof.Machine
end

