-- ==== Sys2Proof/Machine/Outs.lean ====
section
/-! DEFINITION. The outstanding operations of a sequencer: when each may be performed (R226 to R236, R254), releases and acquires
(R232, R233), the residual tile (R257 to R268) and the reduction windows (R270 to R272), and the performing of loads, stores,
atomics and accumulates. -/

namespace Sys2Proof.Machine

/-! ## When an operation may be performed -/

/-- Whether an access is to a UN page (R229). -/
def isUn (o : Out) : Bool := o.pl.page && pteKind o.pl.leaf = 2

/-- Whether an access is to an SO page (R229). -/
def isSo (o : Out) : Bool := o.pl.page && pteKind o.pl.leaf = 0

/-- Whether an operation is the return of an AMO or CAS performed at its home. -/
def isReturn (o : Out) : Bool :=
  match o.op with
  | .amoRet _ _ _ _ => true
  | _ => false

/-- Whether an operation is an atomic already answered at its home, its answer on the way. -/
def atReturn (o : Out) : Bool :=
  match o.op with
  | .accRefused _ _ => true
  | _ => isReturn o

/-- Whether an operation reads or writes bytes at its place. -/
def hasBytes (o : Out) : Bool :=
  match o.op with
  | .load _ _ | .store _ | .stfk _ | .amo _ _ _ | .cas _ _ _ | .acc _ _
  | .cbinit _ | .cbexp _ | .cbarr _ | .cbtest _ => true
  | _ => false

/-- Whether the bytes of two operations meet. -/
def spansMeetOut (x y : Out) : Bool := x.pl.pa < y.pl.pa + y.size && y.pl.pa < x.pl.pa + x.size

/-- Whether two accesses share a byte. -/
def overlap (x y : Out) : Bool := hasBytes x && hasBytes y && spansMeetOut x y

/-- The link target of a physical address: a peer chip, or 64 for the host (R212, R242, R336). -/
def linkTarget (pa : Nat) : Option Nat :=
  if pa < 2 ^ 50 || onChip ≤ pa then none else if pa < 2 ^ 51 then some (pa / 2 ^ 40 % 64) else some 64

/-- Whether an operation is a posted write on a link (R212, R242). -/
def isPosted (o : Out) : Bool :=
  match o.op with
  | .store _ => (linkTarget o.pl.pa).isSome
  | _ => false

/-- Whether a CBARR releases: it flushes the residual tile at any scope (R33, R267). -/
def cbarrRel (o : Out) : Bool :=
  match o.op with
  | .cbarr _ => o.rel
  | _ => false

def isAcc' (o : Out) : Bool :=
  match o.op with
  | .acc _ _ | .accRefused _ _ => true
  | _ => false

def isAmo (o : Out) : Bool :=
  match o.op with
  | .amo _ _ _ | .cas _ _ _ | .amoRet _ _ _ _ => true
  | _ => false

/-- Whether an operation is a LOCQ, which accesses no page or tile and waits for nothing (R359). -/
def isLocq (o : Out) : Bool :=
  match o.op with
  | .locq _ _ => true
  | _ => false

def isLoad (o : Out) : Bool :=
  match o.op with
  | .load _ _ | .cbtest _ | .locq _ _ => true
  | _ => false

/-- Whether an operation is a release whose work flushes the residual tile (R232, R267). -/
def flushesResid (o : Out) : Bool := o.rel && !isReturn o && (o.scope ≥ 2 || cbarrRel o)

/-- Whether a release at a scope still waits for an earlier operation (R232): UN accesses and FLUSHRES are not ordered; at ARR the
atomics are not; a refused addend is awaited at DEV and SYS, whose work flushes it. -/
def releaseWaits (scope : Nat) (e : Out) : Bool :=
  if isUn e then false
  else match e.op with
    | .flushres | .locq _ _ | .dqRet _ _ _ _ => false
    | .accRefused _ _ => scope ≥ 2
    | .acc _ _ => scope ≥ 1
    | .amo _ _ _ | .cas _ _ _ | .amoRet _ _ _ _ => scope ≥ 1
    | _ => true

def isDq (o : Out) : Bool :=
  match o.op with
  | .dqpush _ _ _ | .dqpop _ _ | .dqsteal _ _ _ => true
  | _ => false

/-- Whether an earlier access of the sequencer comes before one of `n` bytes at an address: one that overlaps it, or an acquire (R226,
R233). -/
def accessBlocked (s : State) (a addr n : Nat) : Bool :=
  (seqAt s a).outs.any fun o => o.acq || (hasBytes o && !atReturn o && o.pl.pa < addr + n && addr < o.pl.pa + o.size)

/-- Whether a posted write of the sequencer to the target of an address is still on its way: a later read does not pass it (R242). -/
def postedBlocked (s : State) (a pa : Nat) : Bool :=
  (seqAt s a).outs.any fun o => isPosted o && linkTarget o.pl.pa = linkTarget pa

/-- Whether an earlier access of the sequencer, or its posted write to the same target, comes before one of `n` bytes at a virtual
address (R226, R242). -/
def virtBlocked (s : State) (a p va n : Nat) : Bool :=
  (List.range (ceilDiv n 8)).any fun k => match virtPa s p (va + 8 * k) with
    | none => false
    | some (pa, _) => accessBlocked s a pa 8 || postedBlocked s a pa

/-- Whether an earlier operation holds a later one back: same-address order at the home and of the returns (R226, R254), acquires
(R233), releases (R232, R33), SO pages (R229), deques (R330), the posted writes of one link target (R242), and the entries that a
FLUSHRES takes, which are those of the ACCs before it (R266). -/
def holdsBack (e o : Out) : Bool :=
  !isLocq o && ((overlap e o && !atReturn e)
  || (isReturn e && isReturn o && spansMeetOut e o)
  || (isPosted e && hasBytes o && linkTarget o.pl.pa = linkTarget e.pl.pa)
  || (e.op = .flushres && isAcc' o && atReturn o)
  || (cbarrRel o && isAcc' e)
  || (e.acq && !isUn o)
  || (e.op = .fenceRel && !isUn o && !isLoad o)
  || (o.rel && !isUn o && releaseWaits o.scope e)
  || (isSo o && isSo e && !atReturn e)
  || (isDq o && isDq e)
  || (o.op = .fenceRel && releaseWaits o.scope e))

/-- Whether the `k`-th outstanding operation may be performed now. -/
def outReady (l : List Out) (k : Nat) : Bool :=
  match l[k]? with
  | none => false
  | some o => (l.take k).all fun e => !holdsBack e o

/-! ## Counters of the sequencer -/

/-- An operation of the class ld ends (R410). -/
def dropLd (s : State) (a : Nat) : State := modSeq s a fun q => { q with ld := q.ld - 1 }

/-- An operation of the class st ends (R410). -/
def dropSt (s : State) (a : Nat) : State := modSeq s a fun q => { q with st := q.st - 1 }

/-- An access through a handle leaves INFLIGHT (R350). -/
def dropHdl (s : State) (a h : Nat) : State :=
  if h < 16 then modSeq s a fun q => { q with h := vmod {} q.h h fun x => { x with inflight := x.inflight - 1 } } else s

/-- Several accesses leave the INFLIGHT of their handles (R350). -/
def dropHdls (s : State) (a : Nat) (l : List Nat) : State := l.foldl (fun s h => dropHdl s a h) s

/-- Remove the `k`-th outstanding operation. -/
def delOut (s : State) (a k : Nat) : State := modSeq s a fun q => { q with outs := ldel q.outs k }

/-- Replace the `k`-th outstanding operation. -/
def setOut (s : State) (a k : Nat) (o : Out) : State := modSeq s a fun q => { q with outs := lmod q.outs k fun _ => o }

/-! ## Reduction windows -/

/-- The chip that holds an address, and the address there (R336). -/
def chipOf (s : State) (pa : Nat) : Nat × Nat := if pa < 2 ^ 50 then (s.pkg.chipId, pa) else (pa / 2 ^ 40 % 64, pa % 2 ^ 40)

/-- Whether `n` bytes of device memory, of this chip or a peer, meet a registered window at its home chip (R270). -/
def windowHit (s : State) (d : BitVec 256) (pa n : Nat) : Bool :=
  let (c, x) := chipOf s pa
  d.getLsbD 63 && pa < 2 ^ 51 && bitsOf d 103 98 = c && bitsOf d 51 0 < x + n && x < bitsOf d 51 0 + 192 * bitsOf d 95 64

/-- The window of a partition that holds an address, with its descriptor (R270). -/
def windowOf (s : State) (p pa : Nat) : Option (Nat × BitVec 256) :=
  ((List.range 16).map fun i => (i, vget 0 (partAt s p).redwin i)).find? fun w => windowHit s w.2 pa 1

/-- The window an accumulate of this chip goes into: that of its address and kind (R245, R270). An accumulate of another kind
reaches here only from a chip that is no member, and goes to the home unit (log 71). -/
def accWindow (s : State) (p pa fn : Nat) : Option (Nat × BitVec 256) :=
  (windowOf s p pa).filter fun w => bitsOf w.2 97 96 = fn

/-- The port of the merging switch that a chip stands on (R270, R271). -/
def windowPort (d : BitVec 256) (chip : Nat) : Nat := Config.switchPort (bitsOf d 111 104) chip

/-- The accumulate kind of a window (R270). -/
def windowFmt (d : BitVec 256) : Nat := bitsOf d 97 96

/-- The merge of two addends (R257): RNE of the exact sum, where a NaN gives the canonical NaN and raises nothing (R90), and the
maximum under R251. -/
def mergeNew (fn x y : Nat) : Nat × Flags :=
  match fn with
  | 1 => fp32.sum Env.rne 0 [fp32.read false x, fp32.read false y] []
  | 2 => bf16.sum Env.rne 0 [bf16.read false x, bf16.read false y] []
  | _ => accNew fn false x y

/-- Merge the partials of a combining entry in ascending port order (R271). -/
def mergePorts (fn : Nat) : List (Nat × BitVec 32) → Nat × Flags
  | [] => (0, 0)
  | (_, v) :: t => t.foldl (fun acc e =>
      let (x, fl) := mergeNew fn acc.1 e.2.toNat
      (x, acc.2 ||| fl)) (v.toNat, 0)

/-- Insert a port's partial, combining with what the port already holds, ports ascending (R271). -/
def portPut (fn port : Nat) (v : BitVec 32) : List (Nat × BitVec 32) → List (Nat × BitVec 32) × Flags
  | [] => ([(port, v)], 0)
  | (q, u) :: t =>
    if q = port then
      let (x, fl) := mergeNew fn u.toNat v.toNat
      ((q, BitVec.ofNat 32 x) :: t, fl)
    else if port < q then ((port, v) :: (q, u) :: t, 0)
    else
      let (r, fl) := portPut fn port v t
      ((q, u) :: r, fl)

/-- Emit a combining entry: merged in port order and delivered must-accept to the home (R271). -/
def windowEmit (s : State) (e : WinEntry) : State :=
  let d := vget 0 (partAt s e.part).redwin e.win
  let (v, fl) := mergePorts (windowFmt d) e.partials
  let s1 := { s with wins := s.wins.erase e }
  accPerform (homeSticky s1 e.addr e.part fl) e.addr e.part noArray (windowFmt d) v true

/-- The switch that merges an entry (R270). -/
def winSwitch (s : State) (e : WinEntry) : Nat := bitsOf (vget 0 (partAt s e.part).redwin e.win) 111 104

/-- Whether every member port of an entry holds a partial (R271). -/
def windowFull (s : State) (e : WinEntry) : Bool :=
  let d := vget 0 (partAt s e.part).redwin e.win
  (List.range 64).all fun i => !d.getLsbD (128 + i) || e.partials.any fun x => x.1 = windowPort d i

/-- A contribution reaches the merge switch: combined into its port's partial, and the entry emitted when every member has
contributed (R271). Entries stand in the order they were made. -/
def windowAdd (s : State) (p win addr chip : Nat) (v : BitVec 32) : State :=
  let d := vget 0 (partAt s p).redwin win
  let same (e : WinEntry) : Bool := e.part = p && e.win = win && e.addr = addr
  let old := (s.wins.find? same).getD { part := p, win := win, addr := addr, partials := [] }
  let (ps, fl) := portPut (windowFmt d) (windowPort d chip) v old.partials
  let e := { old with partials := ps }
  let l := if s.wins.any same then s.wins.map fun x => if same x then e else x else s.wins ++ [e]
  let s1 := homeSticky { s with wins := l } addr p fl
  if windowFull s1 e then windowEmit s1 e else s1

/-- Whether a flush from a chip emits an entry: it comes from a member port, or the entry holds a partial of the chip (R271,
R272). -/
def flushTakes (s : State) (chip : Nat) (e : WinEntry) : Bool :=
  let d := vget 0 (partAt s e.part).redwin e.win
  d.getLsbD (128 + chip) || e.partials.any fun x => x.1 = windowPort d chip

/-- A flush from a chip reaches the switch of every window of a partition (R271, R272). -/
def flushFrom (s : State) (p chip : Nat) : State :=
  (s.wins.filter fun e => e.part = p && flushTakes s chip e).foldl windowEmit s

/-- The window flush of a release of this chip (R272). -/
def flushWindows (s : State) (p : Nat) : State := flushFrom s p s.pkg.chipId

/-! ## The residual tile -/

/-- Entries of the residual tile of array `a`: its first byte and their count (R262). -/
def residOf (s : State) (a : Nat) : Option (Nat × Nat) :=
  (seqAt s a).residTile.map fun n =>
    let t := tileAt s n
    (tileBase t 0, t.words / 4)

/-- Fields of a residual entry (R264). -/
def resPa (e : BitVec 128) : Nat := bitsOf e 51 0
def resFn (e : BitVec 128) : Nat := bitsOf e 53 52
def resValid (e : BitVec 128) : Bool := e.getLsbD 63
def resVal (e : BitVec 128) : Nat := bitsOf e 95 64
def resStamp (e : BitVec 128) : Nat := bitsOf e 127 112

def resAt (s : State) (base k : Nat) : BitVec 128 := BitVec.ofNat 128 (getBytes s (base + 16 * k) 16)
def setRes (s : State) (base k : Nat) (e : BitVec 128) : State := putBytes s (base + 16 * k) 16 e.toNat

/-- Clear an entry: only its VALID bit is written (R266, R487). -/
def resClear (s : State) (base k : Nat) : State :=
  putBytes s (base + 16 * k + 4) 4 (getBytes s (base + 16 * k + 4) 4 % 2 ^ 31)

/-- The valid entry of a key (R257). -/
def resFind (s : State) (base n pa fn : Nat) : Option Nat :=
  (List.range n).find? fun k =>
    let e := resAt s base k
    resValid e && resPa e = pa && resFn e = fn

/-- Valid entries. -/
def resValidList (s : State) (base n : Nat) : List Nat := (List.range n).filter fun k => resValid (resAt s base k)

/-- A fault of the asynchronous class joins those pending for array `a` (R428, R491). -/
def report (s : State) (a : Nat) (f : FaultInfo) : State :=
  modSeq s a fun q => { q with pending := q.pending ++ [f] }

/-- Handles that count the addends waiting under a key of the residual tile (R350). -/
def residHdlsOf (q : Seq) (pa fn : Nat) : List Nat :=
  (q.residHdls.filter fun x => x.1 = pa && x.2.1 = fn).map (·.2.2)

/-- The addends under a key wait in the residual tile no longer. -/
def residTaken (s : State) (a pa fn : Nat) : State :=
  modSeq s a fun q => { q with residHdls := q.residHdls.filter fun x => !(x.1 = pa && x.2.1 = fn) }

/-- The addends under a key have been delivered or lost: they leave INFLIGHT (R268, R350). -/
def residDone (s : State) (a pa fn : Nat) : State :=
  residTaken (dropHdls s a (residHdlsOf (seqAt s a) pa fn)) a pa fn

/-- Whether an entry holds an uncorrectable word. -/
def resBad (s : State) (base k : Nat) : Bool := badWords s (base + 16 * k) 4

/-- An uncorrectable entry that is read is discarded, and its loss reported with the slot and offset of the tile (R264). -/
def resDiscard (s : State) (a base k : Nat) : State :=
  let e := resAt s base k
  report (residDone (resClear (markPoison s (base + 16 * k) 16) base k) a (resPa e) (resFn e)) a
    { code := 0x40, slot := 7, src := 3, cycle := s.cyc, tslot := (seqAt s a).residSlot, tvalid := true, offset := 4 * k }

/-- Send a residual entry to its home as must-accept and free it, its array's own copy of the line written back and dropped first (R245); an
uncorrectable entry is discarded and its loss reported (R264, R266). -/
def resFlushOne (s : State) (a base k : Nat) : State :=
  let e := resAt s base k
  let p := (seqAt s a).part
  if resBad s base k then resDiscard s a base k
  else
    let s1 := accPerform (dropPa s a (resPa e)) (resPa e) p a (resFn e) (resVal e) true
    pmcAdd (residDone (resClear (countHome s1 a (resPa e)) base k) a (resPa e) (resFn e)) a 0x14 1

/-- Placements since that of an entry, modulo 2^16: the greater, the older (R264). -/
def resAge (s : State) (a : Nat) (e : BitVec 128) : Nat := ((seqAt s a).stamp + 2 ^ 16 - resStamp e) % 2 ^ 16

/-- Valid entries, oldest placement first (R264, R265). -/
def resByAge (s : State) (a base n : Nat) : List Nat :=
  (resValidList s base n).mergeSort fun i j => resAge s a (resAt s base j) ≤ resAge s a (resAt s base i)

/-- Flush every valid entry of the residual tile, oldest placement first, with the acknowledgements in the same step (R266, R267;
log 49). -/
def flushResid (s : State) (a : Nat) : State :=
  match residOf s a with
  | none => s
  | some (base, n) => (resByAge s a base n).foldl (fun s k => resFlushOne s a base k) s

/-- Flags reach FPX (R96, R110). -/
def Seq.flagsArrive (q : Seq) (fl : Flags) : Seq := { q with fpx := q.fpx ||| fl, now := { q.now with fpx := q.now.fpx ||| fl } }

/-- Place a returning refused addend: combined into the entry of its key, else in the lowest free entry with the next STAMP; flags
of a combination go to FPX (R257, R264). -/
def resPlace (s0 : State) (a pa fn v : Nat) : State :=
  match residOf s0 a with
  | none => s0
  | some (base, n) =>
    let s := match resFind s0 base n pa fn with
      | some k => if resBad s0 base k then resDiscard s0 a base k else s0
      | none => s0
    match resFind s base n pa fn with
    | some k =>
      let e := resAt s base k
      let (x, fl) := mergeNew fn (resVal e) v
      let r := Nat.min 0xFFFF (bitsOf e 111 96 + 1)
      modSeq (setRes s base k (setBits (setBits e 95 64 x) 111 96 r)) a fun q => q.flagsArrive fl
    | none =>
      match (List.range n).find? fun k => !resValid (resAt s base k) with
      | none => s
      | some k =>
        let st := (seqAt s a).stamp + 1
        let e : BitVec 128 := BitVec.ofNat 128
          (pa + fn * 2 ^ 52 + 2 ^ 63 + v * 2 ^ 64 + 2 ^ 96 + st % 2 ^ 16 * 2 ^ 112)
        modSeq (setRes s base k e) a fun q => { q with stamp := st }

/-- Merge an ACC with the residual tile at its issue (R257): the addend to send, and the handles that count what it carries. -/
def resMerge (s : State) (a pa fn v : Nat) : State × Nat × List Nat :=
  match residOf s a with
  | none => (s, v, [])
  | some (base, n) =>
    match resFind s base n pa fn with
    | none => (s, v, [])
    | some k =>
      if resBad s base k then (resDiscard s a base k, v, []) else
      let e := resAt s base k
      let (x, fl) := mergeNew fn v (resVal e)
      (pmcAdd (modSeq (residTaken (resClear s base k) a pa fn) a fun q => q.flagsArrive fl) a 0x13 1, x, residHdlsOf (seqAt s a) pa fn)

/-! ## Releases and acquires -/

/-- The work of a release at a scope once the earlier accesses are performed (R232): write-backs at GRP and wider, the residual
flush at DEV and wider, the window flush at SYS (R272). -/
def releaseWork (s : State) (a scope : Nat) : State :=
  let s1 := if scope ≥ 1 then writeBackAll s a fun l : CacheLine => l.stag < scope else s
  let s2 := if scope ≥ 2 then flushResid s1 a else s1
  if scope ≥ 3 then flushWindows s2 (seqAt s2 a).part else s2

/-- The work of an acquire at a scope (R233). -/
def acquireWork (s : State) (a scope : Nat) : State := if scope ≥ 1 then invalidateCache s a else s

/-- Whether a release at a scope by array `a` still waits for one of its outstanding accesses (R232). -/
def releaseBlocked (s : State) (a scope : Nat) : Bool := (seqAt s a).outs.any (releaseWaits scope)

/-! ## Performing -/

/-- Extend a loaded value (R215). -/
def extend (sx : Bool) (n v : Nat) : Word :=
  if sx then (BitVec.ofNat (8 * n) v).signExtend 64 else BitVec.ofNat 64 v

/-! ### Bytes of gated stores under a load (R219) -/

/-- Handle `h` of array `a`. -/
def handleOf (s : State) (a h : Nat) : Handle := vget {} (seqAt s a).h h

/-- Virtual base of the page a handle names, as it stands: of its leaf, or of the page a walk of its held address finds. -/
def handleBase (s : State) (a h : Nat) : Nat :=
  let x := handleOf s a h
  if x.st = .valid then x.base
  else match walkAny s (seqAt s a).part x.va with
    | .leaf e _ _ => pageBase x.va.toNat (leafBytes e)
    | .fail _ _ => pageBase x.va.toNat 49152

/-- Virtual address of a load: its page offset within the page of its handle, as that handle stands (R219). -/
def loadVa (s : State) (a : Nat) (o : Out) : Nat :=
  if o.hdl < 16 then handleBase s a o.hdl + (o.pl.va.toNat - pageBase o.pl.va.toNat (leafBytes o.pl.leaf)) else o.pl.va.toNat

/-- Bytes a gated entry gives to a load, by place in it, as the handles stand (R219). -/
def gatedBytes (s : State) (a : Nat) (o : Out) (e : GateEntry) : List (Nat × Byte) :=
  let from_ (start z : Nat) (v : Word) (at_ : Nat) : List (Nat × Byte) :=
    (List.range o.size).filterMap fun k =>
      if start ≤ at_ + k && at_ + k < start + z then some (k, BitVec.ofNat 8 (v.toNat / 2 ^ (8 * (at_ + k - start)))) else none
  match e with
  | .fence _ => []
  | .store h off z v _ _ => if o.pl.page then from_ (handleBase s a h + off) z v (loadVa s a o) else []
  | .tile _ k x z v _ _ =>
    if !o.pl.page && o.pl.tile = k then from_ (tileBase (tileAt s k) 0 + 4 * x) z v o.pl.pa else []

/-- Bytes of gated stores under a load, the newest last (R219). -/
def gatedUnder (s : State) (a : Nat) (o : Out) : List (Nat × Byte) := o.gated.flatMap (gatedBytes s a o)

/-- Replace the bytes of a value that came from gated stores (R219). -/
def overlay (v : Nat) (l : List (Nat × Byte)) : Nat :=
  l.foldl (fun v x => (setBits (BitVec.ofNat 512 v) (8 * x.1 + 7) (8 * x.1) x.2.toNat).toNat) v

/-- Whether an access is served by the array cache: RC and UN pages of this chip (R212, R214). -/
def cached (o : Out) : Bool := o.pl.page && pteKind o.pl.leaf ≠ 0 && pteLoc o.pl.leaf = 0

/-- Before a UN access that a WAIT put after earlier stores is performed, those still dirty in the array cache are performed at
their homes (R230). -/
def unWork (s : State) (a : Nat) (o : Out) : State :=
  match (seqAt s a).unAfter with
  | none => s
  | some n =>
    if isUn o && n ≤ o.no then modSeq (writeBackAll s a fun _ => true) a fun q => { q with unAfter := none } else s

/-- An access through a page finds no bytes of its line under another virtual address in its own array cache (R226). -/
def aliasFor (s : State) (a : Nat) (o : Out) : State :=
  if o.pl.page then aliasWork s a (seqAt s a).part o.pl.va.toNat o.pl.pa else s

/-- Perform a load: through the array cache, or at its home or bank; the value, and whether it is poisoned (R214, R219, R233). A
word wholly replaced from gated stores is not one the load receives. -/
def readFor (s : State) (a : Nat) (o : Out) : State × Nat × Bool :=
  let s0 := aliasFor (if o.acq then acquireWork (unWork s a o) a o.scope else unWork s a o) a o
  let p := (seqAt s a).part
  let g := gatedUnder s0 a o
  let (s1, v, bad) :=
    if cached o then
      let (x, v, bad) := cacheLoad s0 a p o.pl.va.toNat o.pl.pa o.size o.pl.leaf
      (if cacheHit s0 a p o.pl.va.toNat o.size then x else countHome x a o.pl.pa, v, bad)
    else
      let x := countHome (sliceTouch (markPoison s0 o.pl.pa o.size) p o.pl.pa false) a o.pl.pa
      (x, getBytes x o.pl.pa o.size, below o.size fun k => anyPoison x (o.pl.pa + k) 1)
  (s1, overlay v g, bad.any fun k => !g.any fun b => b.1 = k)

/-- A load's data arrives: rd is written, ld and INFLIGHT fall (R218, R350); the load is performed at this step (R221; log 71). -/
def loadReturn (s : State) (a k : Nat) (o : Out) (rd : Nat) (sx : Bool) : State :=
  let (s1, v, bad) := readFor s a o
  delOut (dropHdl (dropLd (putPoison s1 a rd (extend sx o.size v) bad) a) a o.hdl) a k

/-- The release an operation carries, and what R230 puts before a UN access. -/
def releaseFor (s : State) (a : Nat) (o : Out) : State :=
  unWork (if o.rel then releaseWork s a o.scope else s) a o

/-- Before an atomic on a page its own array's copy of the line is written back and dropped (R226, R245). -/
def atomicFor (s : State) (a : Nat) (o : Out) : State :=
  let s1 := aliasFor (releaseFor s a o) a o
  if o.pl.page then dropLine s1 a (seqAt s a).part o.pl.va.toNat else s1

/-- A store reaches its end point (R212, R214, R225, R235), after the work of its release (R232); on another chip or the host it is
performed as it leaves st (log 71). -/
def storeEnd (s : State) (a k : Nat) (o : Out) (v : Word) : State :=
  let p := (seqAt s a).part
  let s0 := aliasFor (releaseFor s a o) a o
  let s1 :=
    if cached o then
      (if pteKind o.pl.leaf = 1 && !(o.rel && o.scope ≥ 1) then
        let x := cacheStore s0 a p o.pl.va.toNat o.pl.pa o.size (v.toNat % 2 ^ (8 * o.size)) o.pl.leaf
        if cacheHit s0 a p o.pl.va.toNat o.size then x else countHome x a o.pl.pa
      else countHome (storeThrough s0 a p o.pl.va.toNat o.pl.pa o.size v.toNat) a o.pl.pa)
    else countHome (homeBytes s0 p o.pl.pa o.size v.toNat) a o.pl.pa
  delOut (dropHdl (dropSt s1 a) a o.hdl) a k

/-- An AMO at its home: performed indivisibly, its old value on the way back (R249, R255). -/
def amoHome (s : State) (a k : Nat) (o : Out) (fn rd : Nat) (v : Word) : State :=
  let p := (seqAt s a).part
  let (s2, old, fl, bad) := rmw (atomicFor s a o) o.pl.pa p o.size fun old =>
    let (x, fl) := amoNew fn (8 * o.size) old (v.toNat % 2 ^ (8 * o.size))
    (some x, fl)
  setOut (countHome (dropHdl s2 a o.hdl) a o.pl.pa) a k
    { o with op := .amoRet rd (BitVec.ofNat 64 old) fl bad, hdl := 16 }

/-- A CAS at its home (R250). -/
def casHome (s : State) (a k : Nat) (o : Out) (rd : Nat) (cmp new : Word) : State :=
  let p := (seqAt s a).part
  let (s2, old, fl, bad) := rmw (atomicFor s a o) o.pl.pa p o.size fun old =>
    (if old = cmp.toNat % 2 ^ (8 * o.size) then some (new.toNat % 2 ^ (8 * o.size)) else none, 0)
  setOut (countHome (dropHdl s2 a o.hdl) a o.pl.pa) a k
    { o with op := .amoRet rd (BitVec.ofNat 64 old) fl bad, hdl := 16 }

/-- An atomic's old value reaches rd, its flags FPX; st falls and an acquire completes (R249, R253, R96). -/
def amoBack (s : State) (a k : Nat) (o : Out) (rd : Nat) (old : Word) (fl : Flags) (bad : Bool) : State :=
  let s1 := putPoison s a rd old bad
  let s2 := modSeq s1 a fun q => { q.flagsArrive fl with st := q.st - 1 }
  delOut (if o.acq then acquireWork s2 a o.scope else s2) a k

/-- An accumulate is accepted: it leaves st, and with the addends it carries INFLIGHT (R253, R350). -/
def accGone (s : State) (a : Nat) (o : Out) : State := dropHdls (dropSt s a) a (o.hdl :: o.carries)

/-- An accumulate at its home: into a window, accepted, or refused; INFLIGHT falls when it is performed (R255, R258, R259, R271,
R350). An accumulate to a window is never refused (R258), and reaches the merge switch at this step (log 71). -/
def accHome (s : State) (a k : Nat) (o : Out) (fn : Nat) (v : Word) : State :=
  let p := (seqAt s a).part
  let s0 := atomicFor s a o
  match accWindow s0 p o.pl.pa fn with
  | some (w, _) =>
    delOut (accGone (countTrip (windowAdd s0 p w o.pl.pa s.pkg.chipId (BitVec.ofNat 32 v.toNat)) a o.pl.pa) a o) a k
  | none =>
    if (windowOf s0 p o.pl.pa).isNone && refuses s0 o.pl.pa p a then
      let q := quotaAt s0 (memDie o.pl.pa) p
      let s1 := pmcAdd (setQuota s0 (memDie o.pl.pa) p { q with refcnt := satInc q.refcnt }) a 0x12 1
      setOut (countTrip s1 a o.pl.pa) a k { o with op := .accRefused fn v, rel := false, window := (s.cyc / 256 + 1) * 256 }
    else
      let bytes := accBytes fn (o.pl.pa ≥ onChip)
      let s1 := accPerform s0 o.pl.pa p a fn (v.toNat % 2 ^ (8 * bytes)) false
      delOut (countHome (accGone s1 a o) a o.pl.pa) a k

/-- Whether the residual tile of array `a` takes a returning addend: an entry of its key, or a free one (R264). A tile attached while
more ACCs than it has entries were in flight can be full then, and the addend is resent as with none attached (log 74). -/
def resTakes (s : State) (a pa fn : Nat) : Bool :=
  (residOf s a).any fun r => (resFind s r.1 r.2 pa fn).isSome || (List.range r.2).any fun k => !resValid (resAt s r.1 k)

/-- A refused addend is placed in the residual tile: it leaves st, and INFLIGHT when it is delivered (R253, R268, R350). -/
def accPlace (s : State) (a : Nat) (o : Out) (fn : Nat) (v : Word) : State :=
  let s1 := resPlace s a o.pl.pa fn (v.toNat % 2 ^ (8 * accBytes fn (o.pl.pa ≥ onChip)))
  modSeq (dropSt s1 a) a fun q => { q with
    residHdls := q.residHdls ++ ((o.hdl :: o.carries).filter (· < 16)).map fun h => (o.pl.pa, fn, h) }

/-- A refused addend is back: placed in the residual tile, or else issue stops until the quota window of its home begins that follows the
one of its refusal, or has begun (R253, R260, R488; log 49). -/
def accBack (s : State) (a k : Nat) (o : Out) (fn : Nat) (v : Word) : State :=
  if resTakes s a o.pl.pa fn then
    delOut (accPlace s a o fn v) a k
  else setOut s a k { o with due := o.window, again := true }

end Sys2Proof.Machine
end

