-- ==== Sys2Proof/Machine/Groups.lean ====
section
/-! DEFINITION. The group table (R372, R373): membership, the arrival at SYNC and at a transfer phase (R380, R384, R420, R421), and
the breaking of a group with its barrier objects (R419). -/

namespace Sys2Proof.Machine

/-- Entry of a local group id (R372). -/
def groupNo (s : State) (p g : Nat) : Nat := (partAt s p).gbase + g

/-- Whether a local group id lies in the partition's share (R14, R372). -/
def groupIn (s : State) (p g : Nat) : Bool := g < (partAt s p).gcount

/-- An entry of the group table. -/
def groupAt (s : State) (n : Nat) : Group := tget {} s.groups n

/-- Change an entry of the group table. -/
def modGroup (s : State) (n : Nat) (f : Group → Group) : State :=
  { s with groups := tset {} s.groups n (f (groupAt s n)) }

/-- Local group ids of a launch record: group 0, then those named (R22, R315). -/
def recGroups (r : BitVec 512) : List Nat :=
  0 :: [bitsOf r 47 40, bitsOf r 55 48, bitsOf r 63 56].filter fun g => g ≠ 0xFF

/-- Members of a group, by top array. -/
def membersOf (g : Group) : List Nat := below 28 fun a => g.members.getLsbD a

/-- A SYNC completes: ARRIVED clears, SPHASE flips, and every held member gets its answer (R420). -/
def syncComplete (s : State) (p g : Nat) : State :=
  let n := groupNo s p g
  let s1 := modGroup s n fun x => { x with arrived := 0, sphase := !x.sphase }
  let v : Word := if (groupAt s1 n).sphase then 1 else 0
  (membersOf (groupAt s n)).foldl (fun s a => modSeq s a fun q =>
    if q.syncGroup = some g then { q with syncDone := some v, syncGroup := none } else q) s1

/-- PHASE OPEN completes: frame 0 begins at the first multiple of 64 at or after T + 64 (R380). -/
def phaseBegin (s : State) (p g : Nat) : State :=
  let n := groupNo s p g
  let f := (s.cyc + 64 + 63) / 64 * 64
  let s1 := modGroup s n fun x => { x with arrived := 0, phopen := true, closing := false, frame0 := some f }
  (membersOf (groupAt s n)).foldl (fun s a => modSeq s a fun q =>
    if q.after = some (.phaseOpen g true) then { q with after := some (.frame g f) } else q) s1

/-- Whether an array has an XMIT that has not ended. -/
def xmitQueued (s : State) (a : Nat) : Bool := (arr s a).eng.toList.any fun g => g.queue.any fun c => c.op = 0x0B

/-- Whether some placement is in the phase of a group entry. -/
def inPhase (s : State) (n : Nat) : Bool :=
  (List.range 28).any fun a => (arr s a).task.isSome && (seqAt s a).phaseOf.any fun g => groupNo s (seqAt s a).part g = n

/-- The phase tables set for a group clear once no member is in its phase and none of its flits is on its way (R384). -/
def sweepImux (s : State) (n : Nat) : State :=
  if inPhase s n || s.flits.any (fun f => f.group = n) then s else { s with imux := s.imux.filter fun r => r.group ≠ n }

/-- PHASE CLOSE completes once no flit of the phase is on its way: the phase tables of the members clear, and each member acquires
at GRP and goes on (R384). -/
def phaseEnd (s : State) (p g : Nat) : State :=
  let n := groupNo s p g
  if !(groupAt s n).closing || s.flits.any (fun f => f.group = n) || (membersOf (groupAt s n)).any (xmitQueued s) then s
  else
    let ms := membersOf (groupAt s n)
    let s1 := modGroup s n fun x => { x with arrived := 0, phopen := false, closing := false, frame0 := none }
    let s2 := { s1 with imux := s1.imux.filter fun r => r.group ≠ n && !ms.contains r.arr }
    ms.foldl (fun s a => acquireWork (modSeq s a fun q0 =>
      let q := if q0.after = some (.phaseClose g) then q0.pendOver else q0
      { q with phase := false, phaseOf := none }) a 1) s2

/-- Complete what the arrivals of a group allow: every member has arrived, and none is parked (R380, R384, R420). -/
def groupCheck (s : State) (p g : Nat) : State :=
  let x := groupAt s (groupNo s p g)
  if x.broken || x.parked ≠ 0 || x.arrived = 0 || x.arrived ≠ x.members then s
  else if (membersOf x).any fun a => (seqAt s a).after = some (.phaseClose g) then
    phaseEnd (modGroup s (groupNo s p g) fun y => { y with closing := true }) p g
  else if (membersOf x).any fun a => (seqAt s a).after = some (.phaseOpen g true) then phaseBegin s p g
  else syncComplete s p g

/-- A member arrives (R372, R380, R384, R420). -/
def groupArrive (s : State) (p g a : Nat) : State :=
  groupCheck (modGroup s (groupNo s p g) fun x => { x with arrived := setBit x.arrived a true }) p g

/-- A member withdraws its arrival (R421). -/
def groupWithdraw (s : State) (p g a : Nat) : State :=
  modGroup s (groupNo s p g) fun x => { x with arrived := setBit x.arrived a false }

/-- A task's bit leaves MEMBERS and ARRIVED of its groups; an arrival awaited of it alone then completes (R23, R373, R421). -/
def leaveGroups (s : State) (p a : Nat) (gs : List Nat) : State :=
  gs.foldl (fun s g => groupCheck (modGroup s (groupNo s p g) fun x =>
    { x with members := setBit x.members a false, arrived := setBit x.arrived a false }) p g) s

/-- A task's bit enters MEMBERS of its groups (R373). -/
def joinGroups (s : State) (p a : Nat) (gs : List Nat) : State :=
  gs.foldl (fun s g => modGroup s (groupNo s p g) fun x => { x with members := setBit x.members a true }) s

/-- PARKED of a task's groups rises or falls by one (R373). -/
def parkGroups (s : State) (p : Nat) (gs : List Nat) (up : Bool) : State :=
  gs.foldl (fun s g =>
    let s1 := modGroup s (groupNo s p g) fun x => { x with parked := if up then x.parked + 1 else x.parked - 1 }
    if up then s1 else groupCheck s1 p g) s

/-- Barrier objects with VALID 1 in the partition's PAD tiles, FREED ones still in use among them, by address (R361, R413, R419); those of
tiles held in a save area stand there, and an attached residual tile holds none (R263). -/
def barObjects (s : State) (p : Nat) : List Nat :=
  s.mem.filterMap fun c =>
    if c.2.getLsbD 0 && s.tiles.any (fun e =>
        let b := tileBase e.2 0
        e.2.st ≠ .free && !isResid s e.1 && e.2.part = p && e.2.level = 1 && e.2.placed && !e.2.saved && b ≤ c.1 && c.1 < b + 4 * e.2.words
          && (c.1 - b) % 16 = 15)
    then some (c.1 - 15) else none

/-- The byte of a barrier object, in a saved tile, with BROKEN set (R413). -/
def breakByte (v : Byte) : Byte := v ||| 2

/-- Break the barrier objects of a saved tile that a test on their place and group chooses, where VALID is 1 (R419, R446). -/
def breakSavedTile (f : Nat → Nat → Bool) (v : SavedTile) : SavedTile :=
  { v with bytes := v.bytes.map fun c =>
      if c.1 % 16 = 15 && c.2.getLsbD 0 && f (c.1 / 16) (tget (0 : Byte) v.bytes (c.1 - 2)).toNat then (c.1, breakByte c.2) else c }

/-- Break barrier objects of the tiles a partition's save areas hold: a test on the tile number, the index and the group chooses
them. -/
def breakSaved (s : State) (p : Nat) (f : Nat → Nat → Nat → Bool) : State :=
  { s with tasks := s.tasks.map fun t =>
      if t.part = p then
        { t with saved := t.saved.map fun v => { v with tiles := v.tiles.map fun y =>
            if (tileAt s y.n).level = 1 then breakSavedTile (f y.n) y else y } }
      else t }

/-- Break groups, with every barrier object that names one of them (R419). Members held in a SYNC or a phase find the group broken
and go on (R421, R384). -/
def breakGroups (s : State) (p : Nat) (gs : List Nat) : State :=
  let s1 := breakSaved (gs.foldl (fun s g => modGroup s (groupNo s p g) fun x => { x with broken := true }) s) p
    fun _ _ g => gs.contains g
  (barObjects s1 p).foldl (fun s a => if gs.contains (barGroup (barAt s a)) then barBreak s a else s) s1

/-- Group 0 is cleared when the partition has no task RUNNING or PREEMPTED (R419). -/
def clearGroup0 (s : State) (p : Nat) : State :=
  if s.tasks.any fun t => t.part = p && (t.st = .running || t.st = .preempted) then s
  else modGroup s (groupNo s p 0) fun x => { x with broken := false }

end Sys2Proof.Machine
end

