-- ==== Sys2Proof/Machine/Perform.lean ====
section
/-! DEFINITION. The performing of the operations that are neither loads, stores nor atomics: barrier instructions (R417), deques
(R329 to R331), LOCQ of a page (R359), STFK and FLUSHRES; and the completion of whatever a sequencer has outstanding. -/

namespace Sys2Proof.Machine

/-! ## Barrier instructions -/

/-- CBINIT at the home (R417): every field is set anew, and waiting CBWAITs are answered RESET. -/
def cbInit (s : State) (p addr : Nat) (v : Word) : State :=
  let g := bitsOf v 23 16
  let broken := g ≠ 0xFF && (groupAt s (groupNo s p g)).broken
  let b := bitsOf v 15 0 * 2 ^ 64 + g * 2 ^ 104 + 2 ^ 120 + bnat broken * 2 ^ 121
  answerCb (putBytes s addr 16 b) addr 2 0

/-- Result of a CBARR on an object as it stands: the phase counted into and the status (R417). -/
def cbArrResult (b : Bar) : Word :=
  if !barValid b then cbResult 3 0
  else if barBroken b then cbResult 1 0
  else cbResult 0 ((barPhase b + (if barArr b ≥ barExpa b then 1 else 0)) % 256)

/-- Result of a CBTEST (R417). -/
def cbTestResult (b : Bar) : Word :=
  BitVec.ofNat 64 (barPend b + barPhase b * 2 ^ 32 + bnat (barValid b) * 2 ^ 40 + bnat (barBroken b) * 2 ^ 41
    + bnat (b.getLsbD 122) * 2 ^ 42 + barArr b * 2 ^ 48)

/-! ## Deques -/

/-- Whether an array is position 0 of a RUNNING placement (R330). -/
def isRunningTop (s : State) (a : Nat) : Bool :=
  match (arr s a).task with
  | none => false
  | some i => match taskAt s i with
    | none => false
    | some t => t.st = .running

/-- Push at the bottom of the deque of array `a`: the state, and whether there was room (R330). -/
def dqPush (s : State) (a : Nat) (v : Word) : State × Bool :=
  let x := arr s a
  if (x.dqBot - x.dqTop).toNat < 1024 then
    (modArr s a fun x => { x with deque := tset 0 x.deque (x.dqBot.toNat % 1024) v, dqBot := x.dqBot + 1 }, true)
  else (s, false)

/-- Pop at the bottom (R330). -/
def dqPop (s : State) (a : Nat) : State × Word × Bool :=
  let x := arr s a
  if x.dqBot ≠ x.dqTop then
    (modArr s a fun x => { x with dqBot := x.dqBot - 1 }, tget 0 x.deque ((x.dqBot - 1).toNat % 1024), true)
  else (s, 0, false)

/-- Steal at the top of the deque of array `v` (R330). -/
def dqSteal (s : State) (v : Nat) : State × Word × Bool :=
  let x := arr s v
  if isRunningTop s v && x.dqBot ≠ x.dqTop then
    (modArr s v fun x => { x with dqTop := x.dqTop + 1 }, tget 0 x.deque (x.dqTop.toNat % 1024), true)
  else (s, 0, false)

/-! ## LOCQ of a page -/

/-- The migration-table entry of a page, if a valid one names it: its address and its two words (R355). -/
def migEntry (s : State) (p base : Nat) : Option (Nat × Word × Word) :=
  let x := partAt s p
  ((List.range x.mtcount).map fun i =>
      let a := x.mtbase + 16 * i
      (a, BitVec.ofNat 64 (getBytes s a 8), BitVec.ofNat 64 (getBytes s (a + 8) 8))).find?
    fun (e : Nat × Word × Word) => e.2.1.getLsbD 58 && bitsOf e.2.1 56 0 = base

/-- The entries of the migration table read to find a page's come through their slices, the uncorrectable words marked and counted (R210,
R355, R424). -/
def migMeet (s : State) (p base : Nat) : State :=
  let x := partAt s p
  let n := match migEntry s p base with
    | some (ea, _, _) => (ea - x.mtbase) / 16 + 1
    | none => x.mtcount
  let l := (List.range n).map fun i => x.mtbase + 16 * i
  touchAll (l.foldl (fun s a => markPoison s a 16) s) p l false

/-- CYC[37:6] (R355). -/
def migNow (s : State) : Nat := s.cyc / 64 % 2 ^ 32

/-- Whether the window of an entry has passed (R356). -/
def migPassed (s : State) (w1 : Word) : Bool := (migNow s + 2 ^ 32 - bitsOf w1 63 32) % 2 ^ 32 < 2 ^ 31

/-- Result of query 0x3 (R359): translated as XLAT does, raising nothing. -/
def locqPage (s : State) (a : Nat) (va : Word) : State × Word :=
  let p := (seqAt s a).part
  let (s1, w) := translate s a p va
  match w with
  | .fail c _ => (s1, BitVec.ofNat 64 (c * 2 ^ 24))
  | .leaf e _ _ =>
    let pa := ptePa e
    let loc := pteLoc e
    let m := if loc = 2 then 0 else memDie pa
    let chip := if loc = 0 then s.pkg.chipId else if loc = 1 then pa / 2 ^ 40 % 64 else 0
    let cr := if loc = 0 then crossings (dieOfArr s a) (attachedDie m) else 0xF
    let mig := migEntry s p (pageBase va.toNat (leafBytes e))
    let (moves, pinned) := match mig with
      | none => (0, false)
      | some (_, _, w1) => (bitsOf w1 8 6, bitsOf w1 8 6 = 4 && !migPassed s w1)
    (migMeet s1 p (pageBase va.toNat (leafBytes e)),
     BitVec.ofNat 64 (1 + loc * 2 + m * 2 ^ 3 + chip * 2 ^ 7 + cr * 2 ^ 13 + moves * 2 ^ 17 + bnat pinned * 2 ^ 20
      + bnat (pteSealed e) * 2 ^ 21 + pteKind e * 2 ^ 22 + pteSize e * 2 ^ 28))

/-! ## Performing by class -/

/-- Whether an operation ends by writing its register and leaving ld (R410). -/
def ldClass (o : Out) : Bool :=
  match o.op with
  | .load _ _ | .cbtest _ | .locq _ _ | .dqpush _ _ _ | .dqpop _ _ | .dqsteal _ _ _ | .dqRet _ _ _ _ => true
  | _ => false

/-- Whether an operation ends by being performed and leaving st, or nothing (R410). -/
def stClass (o : Out) : Bool :=
  match o.op with
  | .store _ | .stfk _ | .cbinit _ | .cbexp _ | .cbarr _ | .fenceRel => true
  | _ => false

/-- Write the predicate of a deque operation; b0 discards it (R101, R330). -/
def putPred (s : State) (a b : Nat) (v : Bool) : State :=
  if b = 0 then s else modSeq s a fun q => { q with b := vset q.b b v }

/-- The part of a deque operation done at the deque; its answer goes on its way (R330, R331). -/
def dqHome (s : State) (a k : Nat) (o : Out) : State :=
  match o.op with
  | .dqpush rd b v =>
    let (s1, ok) := dqPush (releaseWork s a 1) a v
    setOut s1 a k { o with op := .dqRet rd b (if ok then 0 else 1) ok, rel := false }
  | .dqpop rd b =>
    let (s1, v, ok) := dqPop s a
    setOut s1 a k { o with op := .dqRet rd b v ok }
  | .dqsteal rd b x =>
    let (s1, v, ok) := dqSteal (countFlits s a 2 (crossings (dieOfArr s a) (dieOfArr s x))) x
    let s2 := if ok then acquireWork s1 a 1 else s1
    setOut s2 a k { o with op := .dqRet rd b v ok }
  | _ => s

/-- An operation of the class ld ends (R218, R330, R359, R417). -/
def ldEnd (s : State) (a k : Nat) (o : Out) : State :=
  match o.op with
  | .load rd sx => loadReturn s a k o rd sx
  | .cbtest rd =>
    let s1 := markPoison (acquireWork (countHome s a o.pl.pa) a 2) o.pl.pa 16
    delOut (dropLd (putReg s1 a rd (cbTestResult (barAt s1 o.pl.pa))) a) a k
  | .locq rd va =>
    let (s1, v) := locqPage s a va
    delOut (dropLd (putReg s1 a rd v) a) a k
  | .dqRet rd b v ok => delOut (dropLd (putPred (putReg s a rd v) a b ok) a) a k
  | _ => dqHome s a k o

/-- A full/empty store or a barrier operation is performed at its bank (R222, R235, R417); its flits count (R426). -/
def bankEnd (s0 : State) (a k : Nat) (o : Out) : State :=
  let s := countHome s0 a o.pl.pa
  let p := (seqAt s a).part
  match o.op with
  | .stfk v =>
    let s1 := putBytes (releaseWork s a 2) o.pl.pa 4 v.toNat
    let s2 := { s1 with full := tset false s1.full o.pl.pa true }
    serveWord (delOut (dropSt s2 a) a k) o.pl.pa
  | .cbinit v => delOut (dropSt (cbInit s p o.pl.pa v) a) a k
  | .cbexp v => delOut (dropSt (barUpdate s o.pl.pa true (barExpect (v.toNat % 2 ^ 32))) a) a k
  | .cbarr rd =>
    let s1 := if o.rel then flushResid (releaseWork s a o.scope) a else s
    let r := cbArrResult (barAt s1 o.pl.pa)
    let s2 := barUpdate s1 o.pl.pa true barArrive
    delOut (dropSt (putReg s2 a rd r) a) a k
  | _ => s0

/-- An operation of the class st is performed (R222, R232, R235, R417). -/
def stEnd (s : State) (a k : Nat) (o : Out) : State :=
  match o.op with
  | .store v => storeEnd s a k o v
  | .stfk _ | .cbinit _ | .cbexp _ | .cbarr _ => bankEnd s a k o
  | .fenceRel => delOut (releaseWork s a o.scope) a k
  | _ => s

/-- FLUSHRES completes once every ACC before it is accepted or placed (R266). -/
def flushEnd (s : State) (a k : Nat) : State := delOut (dropSt (flushResid s a) a) a k

/-- A refused addend whose task ends, with no residual tile to go to, is sent again without it, at the start of each quota window
(R260; log 49). -/
def accLeft (s : State) (a k : Nat) (o : Out) (fn : Nat) (v : Word) : State :=
  let s1 := delOut (accGone s a o) a k
  { s1 with accDue := s1.accDue ++ [{ part := (seqAt s a).part, arr := a, pl := o.pl, fn := fn, v := v }] }

/-- Complete the `k`-th outstanding operation, whatever it is. -/
def finishAt (s : State) (a k : Nat) : State :=
  match (seqAt s a).outs[k]? with
  | none => s
  | some o =>
    match o.op with
    | .amo fn rd v => amoHome s a k o fn rd v
    | .cas rd c n => casHome s a k o rd c n
    | .amoRet rd old fl bad => amoBack s a k o rd old fl bad
    | .acc fn v => accHome s a k o fn v
    | .accRefused fn v => if resTakes s a o.pl.pa fn then accBack s a k o fn v else accLeft s a k o fn v
    | .flushres => flushEnd s a k
    | _ => if ldClass o then ldEnd s a k o else stEnd s a k o

/-- Complete the outstanding operations that a test chooses, oldest first; every operation takes at most two steps. -/
def finishAll (p : Out → Bool) : Nat → State → Nat → State
  | 0, s, _ => s
  | n + 1, s, a => match (seqAt s a).outs.findIdx? p with
    | none => s
    | some k => finishAll p n (finishAt s a k) a

/-- Complete everything the sequencer of array `a` has outstanding. -/
def drainOuts (s : State) (a : Nat) : State := finishAll (fun _ => true) (2 * (seqAt s a).outs.length) s a

/-- Complete every access the sequencer of array `a` has outstanding but its accumulates, which their homes may refuse (R260); a query of a
page is none, and keeps its time (R359). -/
def drainAccesses (s : State) (a : Nat) : State :=
  finishAll (fun o => !isLocq o && !isAcc' o) (2 * (seqAt s a).outs.length) s a

end Sys2Proof.Machine
end

