-- ==== Sys2Proof/Machine/Sectors.lean ====
section
/-! DEFINITION. Location words (R288), sectors of copy commands landing at their homes and crediting barriers (R238, R291, R415), the
VERSION of the CELL tiles they write (R393), and the cancelling of commands (R489). -/

namespace Sys2Proof.Machine

/-! ## VERSION -/

/-- Invalidate the micro-program entries of every array that hold a tile number and, where given, a version (R393). -/
def dropProgs (s : State) (n : Nat) (v : Option (BitVec 16)) : State :=
  { s with arrs := s.arrs.map fun x => { x with progs := x.progs.map fun g =>
      if g.valid && g.tile = n && (match v with
          | none => true
          | some k => g.version = k) then { g with valid := false } else g } }

/-- A CELL tile's VERSION grows by one, and the micro-programs of the old one are invalidated (R393). -/
def bumpCell (s : State) (p n : Nat) : State :=
  match liveTile s p n with
  | none => s
  | some t =>
    if t.level ≠ 0 then s
    else dropProgs (modTile s n fun t => { t with version := t.version + 1 }) n (some t.version)

/-! ## Location words -/

/-- Fields of a location word (R288). -/
def locKind (v : Word) : Nat := bitsOf v 63 62
def locOff (v : Word) : Nat := bitsOf v 23 0
def locRow (v : Word) : Nat := bitsOf v 31 24
def locCol (v : Word) : Nat := bitsOf v 36 32
def locAllc (v : Word) : Bool := v.getLsbD 37
def locHdr (v : Word) : Bool := v.getLsbD 38
def locSlot (v : Word) : Nat := bitsOf v 45 40

/-- Tile slots a location word names. -/
def locSlots (v : Word) : List Nat := if locKind v = 1 then [locSlot v] else []

/-! ## Engines -/

/-- Engine `e` of array `a`. -/
def engAt (s : State) (a e : Nat) : Engine := vget {} (arr s a).eng e

/-- Change engine `e` of array `a`. -/
def modEng (s : State) (a e : Nat) (f : Engine → Engine) : State :=
  modArr s a fun x => { x with eng := vmod {} x.eng e f }

/-- Register x(n) as a command latched it. -/
def cmdX (c : Cmd) (n : Nat) : Word := vget 0 c.x n

/-- The tile a slot named when the command was issued (R371). -/
def cmdTile (c : Cmd) (slot : Nat) : Option Nat := (c.tiles.find? fun p => p.1 = slot).map (·.2)

/-- Address of the barrier object a command selects (R289). -/
def cmdBar (s : State) (c : Cmd) : Option Nat :=
  let sel := bitsOf c.word 1 0
  if sel = 0 || c.op ≥ 6 && c.op ≠ 0x0B then none
  else
    let r := cmdX c (7 + sel)
    (cmdTile c (bitsOf r 5 0)).map fun n => tileBase (tileAt s n) 0 + 16 * bitsOf r 23 8

/-- VERSION of the CELL tile a command wrote grows once more as it ends (R393). -/
def bumpDest (s : State) (c : Cmd) : State :=
  if 1 ≤ c.op && c.op ≤ 5 && locKind c.rb = 1 then
    (match cmdTile c (locSlot c.rb) with
     | none => s
     | some n => bumpCell s c.part n)
  else s

/-- Flits of earlier commands of an engine that are still on their way have their bytes at these addresses written over (R226, R239). -/
def coverFlits (s : State) (a e seq : Nat) (l : List Host.Cell) : State :=
  if s.flits = [] then s
  else { s with flits := s.flits.map fun f => if f.src = a && f.eng = e && f.seq < seq then { f with past := f.past ++ l.map (·.1) } else f }

/-- The cells that lie in no attached residual tile: a copy command reaches none (R263; log 77). -/
def offResid (s : State) (l : List Host.Cell) : List Host.Cell :=
  if residSpans s = [] then l else l.filter fun c => !inResid s c.1

/-- The cells that a command of an engine may still write: those which no flit of a later command, gone in its slot before, has written
(R226, R239, R381). -/
def lateBytes (s : State) (a e seq : Nat) (l : List Host.Cell) : List Host.Cell :=
  if (engAt s a e).wrote = [] then l else l.filter fun c => !(engAt s a e).wrote.any fun w => seq < w.1 && w.2 = c.1

/-- Whether commands before one of an engine have yet to write: they stand in its queue, or flits of theirs are on their way. -/
def yetToWrite (s : State) (a e seq : Nat) : Bool :=
  ((engAt s a e).queue.any fun c => c.seq < seq) || s.flits.any fun f => f.src = a && f.eng = e && f.seq < seq

/-- The bytes that a flit of a command writes are noted, while commands before it have yet to write; notes that no command needs go
(R226, R381). -/
def noteWrote (s : State) (a e seq : Nat) (l : List Host.Cell) : State :=
  let kept := (engAt s a e).wrote.filter fun w => yetToWrite s a e w.1
  modEng s a e fun g => { g with wrote := if yetToWrite s a e seq then kept ++ l.map fun c => (seq, c.1) else kept }

/-- A sector lands at its home and credits its barrier (R238, R291, R415); a row that is not written has no bytes to land and only credits
(R300, R301). -/
def landSector (s : State) (a e : Nat) (x : Sector) : State :=
  let p := (seqAt s a).part
  let s2 := match x.cells with
    | [] => s
    | (adr, _) :: _ =>
      let l := lateBytes s a e x.seq (offResid s x.cells)
      countHome (pmcAdd (homeCells (coverFlits s a e x.seq l) p l (x.poison.filter fun w => l.any fun c => eccWord c.1 = w)) a 0x0D 1) a adr
  let s3 := modEng s2 a e fun g => { g with queue := g.queue.map fun c =>
    if c.seq = x.seq then { c with landed := c.landed + x.credit } else c }
  match x.bar with
  | none => s3
  | some b => barUpdate s3 b true (barCredit x.credit)

/-- Land every sector an engine has in flight, oldest first. -/
def landAll (s : State) (a e : Nat) : State :=
  (engAt s a e).flight.foldl (fun s x => landSector s a e x) (modEng s a e fun g => { g with flight := [] })

/-- The tile and index of the barrier object a command selects (R289). -/
def cmdBarObj (c : Cmd) : Option (Nat × Nat) :=
  let r := cmdX c (7 + bitsOf c.word 1 0)
  (cmdTile c (bitsOf r 5 0)).map fun n => (n, bitsOf r 23 8)

/-- Cancel a command and break its barrier, as the end of a failed task does (R489); an object of a tile held in a save area is
broken there. -/
def breakCmd (s : State) (c : Cmd) : State :=
  match cmdBar s c with
  | none => s
  | some b => match cmdBarObj c with
    | none => s
    | some (n, k) =>
      if (tileAt s n).saved then breakSaved s (tileAt s n).part fun m i _ => m = n && i = k else barBreak s b

/-- Cancel every command of the four engines of array `a`: each ends CANCELLED and leaves cp, and the barriers they select break (R489). -/
def breakEngines (s : State) (a : Nat) : State :=
  (List.range 4).foldl (fun s e =>
    let s1 := landAll s a e
    let q := (engAt s1 a e).queue
    let s2 := modEng s1 a e fun g => { g with queue := [], halted := false, last := if q = [] then g.last else 1 }
    q.foldl (fun s c => bumpDest (breakCmd s c) c) (modSeq s2 a fun x => { x with cp := x.cp - q.length })) s

end Sys2Proof.Machine
end

