-- ==== Sys2Proof/Machine/TaskEnd.lean ====
section
/-! DEFINITION. The end of a task: its tiles (R317, R361, R362), its groups (R23, R419), its commands (R489), its completion word
(R328), its journal entry (R332), and the release of its placement (R28, R16). -/

namespace Sys2Proof.Machine

/-! ## Tiles no one uses any more -/

/-- Whether an access to a tile remains in flight (R361). -/
def tileInFlight (s : State) (n : Nat) : Bool :=
  s.arrs.toList.any fun x =>
    x.ports.any (fun p => p.2.pats.any fun t => t.tile = n)
    || x.eng.toList.any (fun g => g.queue.any (fun c => c.tiles.any fun t => t.2 = n) || g.flight.any fun c => c.tiles.contains n)
    || x.words.any (fun w => w.tiles.any fun t => t.2 = n)
    || x.seq.outs.any (fun o => hasBytes o && !o.pl.page && o.pl.tile = n)
    || s.waiters.any (fun w => w.kind ≤ 2 && w.tile = n)
    || s.imux.any (fun r => r.tile = n)

/-- A tile number whose entry has become FREE stands for no tile a started task has bound by its record any more (R317). -/
def forgetTile (s : State) (n : Nat) : State :=
  { s with tasks := s.tasks.map fun t => if t.started then { t with binds := t.binds.filter fun b => b.2 ≠ n } else t }

/-- FREED entries with no bind and nothing in flight become FREE (R361). -/
def sweepTiles (s : State) : State :=
  s.tiles.foldl (fun s e =>
    if e.2.st = .freed && e.2.binds = 0 && !tileInFlight s e.1 then dropProgs (forgetTile (setTile s e.1 {}) e.1) e.1 none else s) s

/-- A LIVE entry becomes FREED (R361). -/
def freeTile (s : State) (n : Nat) : State :=
  modTile s n fun t => if t.st = .live then { t with st := .freed } else t

/-- BINDS of the tiles of a partition among those given falls by one each (R361). -/
def dropBinds (s : State) (p : Nat) (l : List Nat) : State :=
  l.foldl (fun s n => modTile s n fun t => if t.st ≠ .free && t.part = p then { t with binds := t.binds - 1 } else t) s

/-- Tiles the slots of a sequencer hold. -/
def slotTiles (q : Seq) : List Nat := q.t.toList.filterMap slotTile

/-- Tiles whose BINDS counts a task's slots: those of its sequencer, of its save area, or those counted of its record (R361). -/
def boundTiles (s : State) (t : Task) : List Nat :=
  match t.st, t.saved with
  | .running, _ => slotTiles (seqAt s t.top)
  | _, some v => slotTiles v.seq
  | _, none => t.counted

/-- The tiles a task allocated with TALLOC are freed unless they persist; a CELL tile that does loses its storage (R28, R361,
R362). -/
def freeOwned (s : State) (t : Task) : State :=
  s.tiles.foldl (fun s e =>
    if e.2.owner ≠ some (t.part, t.tid) then s
    else if !e.2.persist then freeTile s e.1
    else if e.2.level = 0 then modTile s e.1 fun x => { x with placed := false, saved := false }
    else s) s

/-- The CELL tiles of a task's record lose their storage (R317, R362). -/
def unplaceBound (s : State) (t : Task) : State :=
  t.binds.foldl (fun s b => modTile s b.2 fun x =>
    if x.level = 0 && x.part = t.part then { x with placed := false, saved := false } else x) s

/-! ## Completion word and journal -/

/-- Completion word of a launch record; 0 for none (R315). -/
def recDone (r : BitVec 512) : Nat := bitsOf r 312 256

/-- Add to the completion word, and whether the write does not fault (R328). -/
def completionAdd (s : State) (t : Task) (n : Nat) : State × Bool :=
  let va := recDone t.lrec
  if va = 0 then (s, true)
  else
    let s1 := walkTouch s t.part (BitVec.ofNat 64 va)
    match virtPa s t.part va with
    | none => (s1, false)
    | some (pa, e) =>
      if !pteW e || pteSealed e then (s1, false)
      else ((rmw s1 pa t.part 8 fun old => (some ((old + n) % 2 ^ 64), 0)).1, true)

/-- The record of a device launch leaves the device launch queue (R326). -/
def dlqDrop (s : State) (t : Task) : State :=
  if t.queue = 256 then modPart s t.part fun p => { p with dlq := p.dlq.erase t.jseq } else s

/-- A task ends FAILED or CANCELLED: the journal first, then the failure count (R328, R332). -/
def taskFinal (s : State) (i : Nat) (st : TaskState) (code detail : Nat) : State :=
  match taskAt s i with
  | none => s
  | some t =>
    let s0 := modPart (dlqDrop s t) t.part fun p => if p.blocking = some i then { p with blocking := none } else p
    let s1 := modTask s0 i fun t => { t with st := st, saved := none, deps := [], detail := BitVec.ofNat 32 detail }
    let s2 := journalSet s1 t.part t.jseq code detail
    let (s3, ok) := completionAdd s2 t (2 ^ 32)
    if ok then s3
    else
      let d := detail + 2 ^ 31
      journalSet (modTask s3 i fun t => { t with detail := BitVec.ofNat 32 d }) t.part t.jseq code d

/-! ## The placement -/

/-- A sequencer as its task leaves it: its registers stand, and nothing is under way (R469, R487). -/
def idleSeq (q : Seq) : Seq :=
  { q with
    gate := [], pending := [], located := [], locks := [], openNext := false, fetched := false, stop := .run, after := none, afterNext := none, goOn := .run
    outs := [], retryAt := none, feReq := none, feDone := none, permAt := none, xlats := [], now := {}, syncGroup := none
    syncDone := none, cbwaiting := false, cbDone := none, unAfter := none, phase := false, phaseOf := none, play := none
    residTile := none, residHdls := [], mon := false, codeInval := false, monInval := false, preemptReq := false, stallEnd := none }

/-- The arrays of a placement return to their state without a task (R16, R26): its queues, ports, words and deque are empty, while the
registers and the micro-program cache keep what they hold until a task begins there (R387, R469, R487). The controller's next pass
takes the placement up (R324). -/
def releaseArrays (s : State) (top : Nat) : State :=
  modPart ((chainOf s top).foldl (fun s a => modArr s a fun x =>
    { x with owner := none, task := none, seq := idleSeq x.seq,
             eng := x.eng.map fun g => { g with queue := [], flight := [], halted := false }, ports := [], words := [],
             dqTop := 0, dqBot := 0, deque := [] }) s) (seqAt s top).part fun p => { p with passHeld := none }

/-- Withdraw the waiters a sequencer has at the banks. -/
def dropWaiters (s : State) (a : Nat) : State := { s with waiters := s.waiters.filter fun w => w.arr ≠ a }

/-- Answer BROKEN every full/empty waiter on a task's tiles, and every later one on those it allocated (R201). -/
def breakTaskFe (s : State) (t : Task) : State :=
  let s1 := s.tiles.foldl (fun s e => if e.2.owner = some (t.part, t.tid) then
    breakFe (modTile s e.1 fun x => { x with feBroken := true }) e.1 else s) s
  t.binds.foldl (fun s b => breakFe s b.2) s1

/-- A RUNNING task ends FAILED (R35, R419, R433, R489): everything outstanding completes, residuals are flushed (R267), its
groups, barriers and waiters break, its commands are cancelled, its placement is released and its journal entry is final. -/
def failRunning (s : State) (i detail : Nat) : State :=
  match taskAt s i with
  | none => s
  | some t =>
    let a := t.top
    let gs := recGroups t.lrec
    let s1 := flushResid (drainOuts (dropWaiters s a) a) a
    let s2 := breakEngines (breakGroups s1 t.part gs) a
    let s3 := breakTaskFe s2 t
    let held := boundTiles s3 t
    let s4 := unplaceBound (dropBinds (freeOwned s3 t) t.part held) t
    let s5 := gs.foldl (fun s g => sweepImux s (groupNo s t.part g)) (releaseArrays (leaveGroups s4 t.part a gs) a)
    clearGroup0 (sweepTiles (taskFinal s5 i .failed jFailed detail)) t.part

/-- A PREEMPTED task is killed, or a READY one that was pre-empted is cancelled (R334, R419, R489). -/
def failSaved (s : State) (i : Nat) (st : TaskState) (code : Nat) : State :=
  match taskAt s i with
  | none => s
  | some t =>
    let gs := recGroups t.lrec
    let s1 := parkGroups (breakGroups s t.part gs) t.part gs false
    let s2 := match t.saved with
      | none => s1
      | some v =>
        modPart ((v.eng.toList.flatMap (·.queue)).foldl breakCmd s1) t.part fun p =>
          { p with spused := p.spused.erase v.slot }
    let s3 := breakTaskFe s2 t
    let s4 := unplaceBound (dropBinds (freeOwned s3 t) t.part (boundTiles s3 t)) t
    clearGroup0 (sweepTiles (taskFinal s4 i st code 0)) t.part

/-- A task that never ran ends FAILED or CANCELLED (R24, R316); where it ends FAILED the waiters on its tiles are answered (R201). -/
def endUnstarted (s0 : State) (i : Nat) (st : TaskState) (code detail : Nat) : State :=
  match taskAt s0 i with
  | none => s0
  | some t =>
    let s := if st = .failed then breakTaskFe s0 t else s0
    sweepTiles (taskFinal (dropBinds s t.part (boundTiles s t)) i st code detail)

/-- Retirement completes (R28): residuals flushed, a release at the record's scope, the completion word, the tiles, the groups, the
placement, and the journal. -/
def retire (s : State) (i : Nat) : State :=
  match taskAt s i with
  | none => s
  | some t =>
    let a := t.top
    let gs := recGroups t.lrec
    let scope := if t.lrec.getLsbD 12 then 3 else 2
    let s1 := releaseWork (flushResid s a) a scope
    let (s2, ok) := completionAdd s1 t 1
    let d := if ok then 0 else 2 ^ 31
    let s3 := unplaceBound (dropBinds (freeOwned s2 t) t.part (boundTiles s2 t)) t
    let s4 := releaseArrays (leaveGroups s3 t.part a gs) a
    let s5 := modTask (dlqDrop s4 t) i fun t => { t with st := .done, detail := BitVec.ofNat 32 d }
    clearGroup0 (sweepTiles (journalSet s5 t.part t.jseq jDone d)) t.part

end Sys2Proof.Machine
end

