-- ==== Sys2Proof/Machine/Alloc.lean ====
section
/-! DEFINITION. Tile allocation (R361 to R368): descriptors, the lowest free run of a pad, a quarter or the slices of a placement, and
the state a new tile's storage has. -/

namespace Sys2Proof.Machine

/-! ## Owners of storage -/

/-- The partition an array belongs to (R13). -/
def partOfArr (s : State) (a : Nat) : Option Nat :=
  (List.range 28).find? fun p => (partAt s p).alive && (partAt s p).arrays.getLsbD a

/-- The partition of the die-memory quarter beside an array (R365). -/
def quarterPart (s : State) (a : Nat) : Option Nat :=
  match s.quarterOwner.find? fun e => e.1 = a with
  | some e => e.2
  | none => partOfArr s a

/-! ## Free runs -/

/-- Arrays as a mask. -/
def arrMask (l : List Nat) : BitVec 28 := l.foldl (fun m a => setBit m a true) 0

/-- A tile as it wants to lie in the arrays of a placement: a CELL tile has a slice in every cell of them (R360). -/
def Tile.inCells (t : Tile) (arrays : List Nat) : Tile := if t.level = 0 then { t with cells := arrMask arrays } else t

/-- Whether two CELL tiles lie in one array. -/
def sameCells (x y : Tile) : Bool := x.cells &&& y.cells ≠ 0

/-- Whether a tile holds storage of the level and place another wants (R362, R365). -/
def holdsPlace (want t : Tile) : Bool :=
  t.st ≠ .free && t.placed && !t.saved && t.level = want.level
    && (if want.level = 0 then sameCells t want
        else if want.level = 1 then t.homeArr = want.homeArr
        else t.homeArr / 4 = want.homeArr / 4)

/-- Storage in use where a tile wants to lie: first word and the word after the last. -/
def usedRuns (s : State) (want : Tile) : List (Nat × Nat) :=
  (s.tiles.filter fun e => holdsPlace want e.2).map fun e => (e.2.base, e.2.base + e.2.words)

/-- Bounds of the pad, quarter or slice a tile wants to lie in, in words (R364). -/
def placeBounds (want : Tile) : Nat × Nat :=
  if want.level = 0 then (0, 4096)
  else if want.level = 1 then (0, 2 ^ 21)
  else (want.homeArr % 4 * 2 ^ 21, (want.homeArr % 4 + 1) * 2 ^ 21)

/-- The least of a list. -/
def leastOf : List Nat → Option Nat
  | [] => none
  | x :: t => match leastOf t with
    | none => some x
    | some y => some (Nat.min x y)

/-- The lowest free BASE that fits (R365): the start of the space, or the end of a tile in it. -/
def lowestFit (s : State) (want : Tile) : Option Nat :=
  let used := usedRuns s want
  let (lo, hi) := placeBounds want
  leastOf ((lo :: used.map (·.2)).filter fun b =>
    lo ≤ b && b + want.words ≤ hi && used.all fun r => r.2 ≤ b || b + want.words ≤ r.1)

/-! ## Storage of a new tile -/

/-- Whether a byte address lies in a tile's storage; a CELL tile has a slice in every cell of the arrays given. -/
def inStorage (t : Tile) (arrays : List Nat) (x : Nat) : Bool :=
  if t.level = 0 then
    let y := x - (onChip + 2 ^ 31)
    onChip + 2 ^ 31 ≤ x && arrays.contains (y / 2 ^ 24) && 4 * t.base ≤ y % 2 ^ 14 && y % 2 ^ 14 < 4 * (t.base + t.words)
  else tileBase t 0 ≤ x && x < tileBase t 0 + 4 * t.words

/-- Zero a tile's storage: bytes, poison and error marks, full/empty bits (R368). -/
def zeroTile (s : State) (t : Tile) (arrays : List Nat) : State :=
  { s with mem := s.mem.filter fun c => !inStorage t arrays c.1
           poison := s.poison.filter fun c => !inStorage t arrays c.1
           ecc := s.ecc.filter fun c => !inStorage t arrays c.1
           full := if t.level = 1 then s.full.filter fun c => !inStorage t arrays c.1 else s.full }

/-- A new tile takes its place: its storage is zeroed, and pad storage drops the victim entries there (R344, R365, R368). -/
def placeTile (s : State) (n : Nat) (t : Tile) (arrays : List Nat) : State :=
  let s1 := setTile (zeroTile s t arrays) n t
  if t.level = 1 then modArr s1 t.homeArr fun x => { x with victim := [] } else s1

/-! ## Descriptors -/

/-- The tile a TALLOC descriptor describes, with its chain position and quarter (R367). -/
def descTile (v : Word) : Tile × Nat × Nat :=
  let t : Tile := { st := .live, sparse := v.getLsbD 42, fe := v.getLsbD 43, sealed := v.getLsbD 44, level := bitsOf v 36 35,
                    type := bitsOf v 34 32, layout := BitVec.ofNat 5 (bitsOf v 41 37), rows := bitsOf v 15 0, cols := bitsOf v 31 16 }
  ({ t with words := wordsOf t, hcount := t.rows }, bitsOf v 47 45, bitsOf v 49 48)

/-- Most words of a tile of a level (R364). -/
def levelLimit (level : Nat) : Nat := if level = 0 then 4096 else 2 ^ 21

/-- Whether a SPARSE descriptor is legal (R385): a CELL tile of BF16 or FP16, 8 columns, 16 to 512 rows, no layout. -/
def sparseOk (t : Tile) : Bool :=
  t.level = 0 && t.cols = 8 && t.rows % 16 = 0 && 16 ≤ t.rows && t.rows ≤ 512 && t.type ≤ 1 && t.layout = 0

/-- Whether the fields of a descriptor are legal, apart from where it is to lie (R368, step 2). -/
def descOk (t : Tile) : Bool :=
  t.level ≤ 2 && t.rows ≠ 0 && t.cols ≠ 0 && (t.type ≠ tyE2m1 || t.cols % 32 = 0) && (!t.sparse || sparseOk t)
    && (!t.fe || t.level = 1) && t.words ≤ levelLimit t.level

/-- Step 2 of R368 for a task. -/
def tallocOk (v : Word) (len : Nat) : Bool :=
  let (t, pos, qtr) := descTile v
  bitsOf v 63 50 = 0 && descOk t && (t.level ≠ 0 || pos = 0) && (t.level = 2 || qtr = 0) && pos < len

/-- The lowest FREE entry of a partition's share (R365). -/
def freeEntry (s : State) (p : Nat) : Option Nat :=
  ((List.range (partAt s p).tcount).map fun i => (partAt s p).tbase + i).find? fun n => (tileAt s n).st = .free

end Sys2Proof.Machine
end

