-- ==== Sys2Proof/Machine/Streams.lean ====
section
/-! DEFINITION. Edge streams, scale queues and scalar streams (R275 to R285), and the ranking network (R403, R404). -/

namespace Sys2Proof.Machine

/-! ## Ports -/

/-- Numbers of the ports: N, S, W and E of a chain position, a scalar register (R275). -/
def portN : Nat := 0
def portS : Nat := 2
def portW (p : Nat) : Nat := 16 + p
def portE (p : Nat) : Nat := 24 + p
def portReg (r : Nat) : Nat := r - 16

/-- Port number of a port code with a chain position (R275). -/
def portNo (code pos : Nat) : Nat := if code = 1 then portW pos else if code = 3 then portE pos else code

/-- A port of array `a`. -/
def portAt (s : State) (a n : Nat) : Port := tget {} (arr s a).ports n

/-- Change a port of array `a`. -/
def modPort (s : State) (a n : Nat) (f : Port → Port) : State :=
  modArr s a fun x => { x with ports := tset {} x.ports n (f (tget {} x.ports n)) }

/-- Whether a stream is bound to a port. -/
def Port.bound (p : Port) : Bool := p.pats ≠ []

/-- The active pattern. -/
def Port.active (p : Port) : Option Pattern := p.pats[p.act]?

/-- The following pattern. -/
def Port.next (p : Port) : Option Pattern := p.pats[p.act + 1]?

/-! ## Places of a tile's view -/

/-- Byte within the tile of logical view byte `x` (R204 to R207, R385). -/
def viewByte (t : Tile) (x : Nat) : Nat :=
  if t.sparse then sparseByte (x / 2 / 8) (x / 2 % 8) + x % 2
  else
    let e := elemBytes t.type
    let rb := viewCols t * e
    dataByte t (viewIndex t (x / rb) (x % rb / e)) (x % e)

/-- Byte within the tile of byte `x` of the header plane's view (R288). -/
def headView (t : Tile) (x : Nat) : Nat :=
  let rb := viewCols t * 2
  headByte t (viewIndex t (x / rb) (x % rb / 2)) + x % 2

/-- The tile of a pattern, in the view its command latched (R371). -/
def patTile (s : State) (x : Pattern) : Tile := (tileAt s x.tile).asViewed x.tr

/-- Bytes of a tile's view, and of its header plane's. -/
def viewBytes (t : Tile) (hdr : Bool) : Nat := viewRows t * viewCols t * (if hdr then 2 else elemBytes t.type)

/-- Whether a signed view offset starts `n` bytes within the view. -/
def inView (t : Tile) (o : Int) (n : Nat) : Bool := 0 ≤ o && o.toNat + n ≤ viewBytes t false

/-- Read `n` bytes of a tile's view. -/
def readView (s : State) (t : Tile) (o : Int) : Nat → Nat
  | 0 => 0
  | n + 1 => (readByte s.mem (tileBase t 0 + viewByte t o.toNat)).toNat + 256 * readView s t (o + 1) n

/-- Read `n` bytes of the header plane's view of a tile (R288). -/
def readHead (s : State) (t : Tile) (o : Int) : Nat → Nat
  | 0 => 0
  | n + 1 => (readByte s.mem (tileBase t 0 + headView t o.toNat)).toNat + 256 * readHead s t (o + 1) n

/-- Byte within the tile of byte `x` of its view, or of its header plane's (R288). -/
def planeByte (t : Tile) (hdr : Bool) (x : Nat) : Nat := if hdr then headView t x else viewByte t x

/-- Read `n` bytes of a tile's view, or of its header plane's (R288). -/
def readPlane (s : State) (t : Tile) (hdr : Bool) (o : Int) (n : Nat) : Nat := if hdr then readHead s t o n else readView s t o n

/-- Cells that write `n` bytes of a tile's view, or of its header plane's (R288). -/
def viewCells (t : Tile) (hdr : Bool) (o : Int) : Nat → Nat → List Host.Cell
  | 0, _ => []
  | n + 1, v => (tileBase t 0 + planeByte t hdr o.toNat, BitVec.ofNat 8 v) :: viewCells t hdr (o + 1) n (v / 256)

/-! ## Patterns -/

/-- Fragments a RANKX yields for each row (R403). -/
def rankFrags (k : Nat) : Nat := ceilDiv k 16

/-- Elements of a pattern (R277, R404). -/
def Pattern.size (p : Pattern) : Nat :=
  match p.rank with
  | some r => r.nrows * rankFrags r.cut
  | none => p.counts.foldl (· * ·) 1

/-- Sum of index times stride over the dimensions, innermost first (R277). -/
def dimOff : Nat → List Nat → List (BitVec 32) → Int
  | f, c :: cs, d :: ds => (f % c : Nat) * d.toInt + dimOff (f / c) cs ds
  | _, _, _ => 0

/-- Logical byte offset of element `f` (R277). -/
def Pattern.off (p : Pattern) (f : Nat) : Int := p.base + dimOff (f % Nat.max 1 p.size) p.counts p.strides

/-- Whether a pattern that does not repeat has given `n` elements, its last among them. -/
def Pattern.ended (p : Pattern) (n : Nat) : Bool := !p.rep && n ≥ p.size

/-! ## Input streams -/

/-- The fragment of element `f` (R277). -/
def patFrag (s : State) (p : Pattern) (t : Tile) (f : Nat) : Frag :=
  fragOf fun k => BitVec.ofNat 32 (readView s t (p.off f + k * p.lstr.toInt) 4)

/-- The uncorrectable words that element `f` reads are marked poisoned and counted (R211, R424). -/
def patMark (s : State) (p : Pattern) (t : Tile) (f : Nat) : State :=
  if s.ecc = [] then s
  else (List.range 128).foldl (fun s k => markPoison s (tileBase t 0 + viewByte t (p.off f + (k / 4 : Nat) * p.lstr.toInt + (k % 4 : Nat)).toNat) 1) s

/-- Lanes of the fragment of element `f` that lie in poisoned words (R211; log 53). -/
def patBad (s : State) (p : Pattern) (t : Tile) (f : Nat) : BitVec 32 :=
  if s.poison = [] then 0
  else BitVec.ofNat 32 ((below 32 fun k => (List.range 4).any fun j =>
    anyPoison s (tileBase t 0 + viewByte t (p.off f + (k : Nat) * p.lstr.toInt + j).toNat) 1).foldl (fun acc k => acc + 2 ^ k) 0)

/-- Offset of group `g` of a fragment where its four lanes are one whole block (R284). -/
def blockOff (p : Pattern) (t : Tile) (f g : Nat) : Option Nat :=
  let o := p.off f + (4 * g : Nat) * p.lstr.toInt
  if p.lstr = 4 && o % 16 = 0 && inView t o 16 then some o.toNat else none

/-- Bytes of the tile that hold the headers of element `f`, one for each group that is a whole block (R284). -/
def sideBytes (p : Pattern) (t : Tile) (f : Nat) : List Nat :=
  (List.range 8).filterMap fun g => (blockOff p t f g).map fun o =>
    headByte t (viewIndex t (o / (16 * viewCols t)) (o % (16 * viewCols t) / 16))

/-- The uncorrectable header words of element `f` are marked poisoned and counted (R211, R424). -/
def sideMark (s : State) (p : Pattern) (t : Tile) (f : Nat) : State :=
  (sideBytes p t f).foldl (fun s y => markPoison s (tileBase t 0 + y) 2) s

/-- The sidecar of element `f`, if the producer makes one (R283, R284); a header word marked poisoned counts as one with an uncorrectable
error (log 76). -/
def patSide (s : State) (p : Pattern) (t : Tile) (f : Nat) : Option Side :=
  let hs := (sideBytes p t f).map fun y => tileBase t 0 + y
  if hs.length = 8 && hs.all fun a => !tget false s.ecc (eccWord a) && !tget false s.poison (eccWord a)
  then some (BitVec.ofNat 128 ((hs.zip (List.range 8)).foldl (fun acc h => acc + readNat s.mem h.1 2 * 2 ^ (16 * h.2)) 0))
  else none

/-- A front pattern whose elements are all taken gives way to the one after it (R281). -/
def dropFront (p : Port) : Port :=
  match p.pats with
  | x :: rest => if x.ended p.taken && p.act > 0 then
      { p with pats := rest, act := p.act - 1, taken := 0, serial := p.serial + 1, gone := p.gone ++ [x] }
    else p
  | [] => p

/-- After the last element of the active pattern its follower becomes active (R281). -/
def portAdvance (p : Port) : Port :=
  match p.active, p.next with
  | some x, some _ => if x.ended p.pos then dropFront { p with act := p.act + 1, pos := 0, produced := 0 } else p
  | _, _ => p

/-- Whether a port's active pattern is a RANKX. -/
def isRankPort (p : Port) : Bool :=
  match p.active with
  | none => false
  | some x => x.rank.isSome

/-- Whether the loader of a port has something to fetch and room for it (R280, R285). -/
def canFetch (n : Nat) (p : Port) : Bool :=
  match p.active with
  | none => false
  | some x => !x.ended p.pos && n ≠ portS && n < 24
      && (if 8 ≤ n && n < 16 then p.elems.length < Config.scalarBuffer else p.buf.length < Config.edgeBuffer)

/-- Whether a port's loader may fetch: it can, and its tile is not attached as a residual tile, which it does not reach (R263; log 77). -/
def mayFetch (s : State) (n : Nat) (p : Port) : Bool := canFetch n p && !p.active.any fun x => isResid s x.tile

/-- Whether the scale producer of a port goes on alone: the buffer is full, its pattern has elements left and the scale queue room (R283,
R284; log 76). -/
def canProduce (s : State) (n : Nat) (p : Port) : Bool :=
  match p.active with
  | none => false
  | some x => x.rank.isNone && n ≠ portS && n < 24 && !(8 ≤ n && n < 16) && (patTile s x).type = tyE2m1 && !isResid s x.tile
      && p.buf.length ≥ Config.edgeBuffer && p.scales.length < Config.edgeBuffer && !x.ended (p.pos + p.ahead)

/-- The array a port of the placement topped by `a` stands at (R275). -/
def portArr (s : State) (a n : Nat) : Nat :=
  if 16 ≤ n then chainArr s a (seqAt s a).die2 (n % 8)
  else if n = portS then chainArr s a (seqAt s a).die2 ((seqAt s a).len - 1)
  else a

/-- The flits of a fragment that a port takes from a tile or gives to it, one each way (R426; log 22). -/
def streamFlits (s : State) (a n : Nat) (t : Tile) : State :=
  countFlits s a 2 (crossings (dieOfArr s (portArr s a n)) (dieOfArr s t.homeArr))

/-- Fetch the next element of a port (R280, R283, R285); those of a RANKX come through the ranking network (R404). -/
def fetchOne (s : State) (a n : Nat) : State :=
  let p := portAt s a n
  if !mayFetch s n p || isRankPort p then s
  else match p.active with
    | none => s
    | some x =>
      let t := patTile s x
      if 8 ≤ n && n < 16 then
        modPort (streamFlits s a n t) a n fun p => portAdvance
          { p with elems := p.elems ++ [BitVec.ofNat 64 (readView s t (x.off p.pos) 8)], pos := p.pos + 1 }
      else
        let sc := t.type = tyE2m1
        let side := if sc && p.ahead = 0 then patSide s x t p.pos else none
        let made := p.produced + bnat side.isSome
        let last := !x.rep && p.pos + 1 = x.size
        let s0 := patMark s x t p.pos
        let s1 := if sc && p.ahead = 0 then sideMark s0 x t p.pos else s0
        let f : Fetched := { frag := patFrag s x t p.pos, scaled := sc, ser := p.serial + p.act,
                             odd := sc && last && made ≠ x.size, bad := patBad s1 x t p.pos }
        modPort (streamFlits s1 a n t) a n fun p => portAdvance
          { p with buf := p.buf ++ [f], scales := p.scales ++ side.toList, produced := made, ahead := p.ahead - 1, pos := p.pos + 1 }

/-- A port once its scale producer has gone through one more element of pattern `x` beyond those fetched: its sidecar, if there is one, has
joined the queue (R283, R284). -/
def passSide (s : State) (x : Pattern) (p : Port) : Port :=
  let side := patSide s x (patTile s x) (p.pos + p.ahead)
  { p with scales := p.scales ++ side.toList, produced := p.produced + bnat side.isSome, ahead := p.ahead + 1 }

/-- The scale producer goes through the next element beyond those fetched (R283, R284). -/
def produceOne (s : State) (a n : Nat) : State :=
  let p := portAt s a n
  if !canProduce s n p then s
  else match p.active with
    | none => s
    | some x => modPort (sideMark s x (patTile s x) (p.pos + p.ahead)) a n (passSide s x)

/-! ### The loader's rate (R280) -/

/-- Cycles until the first fragments of a pattern on a tile reach a port's buffer, unloaded (R280). -/
def loaderDelay (s : State) (a n : Nat) (t : Tile) : Nat :=
  let h := portArr s a n
  if t.homeArr = h then (if t.level = 1 then 24 else 28)
  else 32 + 12 * crossings (dieOfArr s h) (dieOfArr s t.homeArr)

/-- Consecutive positions of a bank one access reads (R200, R202). -/
def bankSpan (t : Tile) : Nat := if t.level = 1 then 16 else 32

/-- Bank and position of the word that holds byte `y` of a PAD or DIE tile; banks are numbered over the device (R199, R202). -/
def bankPos (t : Tile) (y : Nat) : Nat × Nat :=
  let w := t.base + y / 4
  if t.level = 1 then (t.homeArr * 64 + w % 64, w / 64)
  else (28 * 64 + (t.homeArr / 4 * 4 + w / 2 ^ 21) * 32 + w % 32, w % 2 ^ 21 / 32)

/-- Banks and positions of the words that hold the four bytes at a view offset. -/
def viewSpots (t : Tile) (o : Int) : List (Nat × Nat) :=
  if o % 4 = 0 then [bankPos t (viewByte t o.toNat)] else [bankPos t (viewByte t o.toNat), bankPos t (viewByte t (o + 3).toNat)]

/-- Those of the 32 lanes of a fragment (R277). -/
def fragSpots (p : Pattern) (t : Tile) (f : Nat) : List (Nat × Nat) :=
  (List.range 32).flatMap fun k => viewSpots t (p.off f + (k : Nat) * p.lstr.toInt)

/-- Banks and positions of the header words of element `f` (R283). -/
def sideSpots (p : Pattern) (t : Tile) (f : Nat) : List (Nat × Nat) :=
  if t.type = tyE2m1 then (sideBytes p t f).map (bankPos t) else []

/-- Words of the element a port fetches next: of its 32 lanes and of its headers, unless the producer has read these; or of the 8 bytes of a
scalar stream (R277, R283). -/
def nextWords (s : State) (n : Nat) (p : Port) : Tile × List (Nat × Nat) :=
  match p.active with
  | none => ({}, [])
  | some x =>
    let t := patTile s x
    let o := x.off p.pos
    (t, if 8 ≤ n && n < 16 then viewSpots t o ++ viewSpots t (o + 4)
        else fragSpots x t p.pos ++ (if p.ahead = 0 then sideSpots x t p.pos else []))

/-- Add a word to the accesses of one cycle, each a bank with the span of positions read; none where the bank would need a second
access. -/
def bankAdd (span : Nat) : List (Nat × Nat × Nat) → Nat × Nat → Option (List (Nat × Nat × Nat))
  | [], w => some [(w.1, w.2, w.2)]
  | (b, lo, hi) :: t, w =>
    if b = w.1 then
      (if Nat.max hi w.2 < Nat.min lo w.2 + span then some ((b, Nat.min lo w.2, Nat.max hi w.2) :: t) else none)
    else (bankAdd span t w).map fun r => (b, lo, hi) :: r

/-- Accesses that rising positions of one bank need: the spans opened after position `lo`. -/
def spansOf (span : Nat) : Nat → List Nat → Nat
  | _, [] => 0
  | lo, p :: t => if p < lo + span then spansOf span lo t else 1 + spansOf span p t

/-- Cycles an element's words take from their banks. -/
def loadCycles (span : Nat) (l : List (Nat × Nat)) : Nat :=
  ((l.map (·.1)).eraseDups.map fun b =>
    match ((l.filter fun w => w.1 = b).map (·.2)).mergeSort (· ≤ ·) with
    | [] => 0
    | p :: t => 1 + spansOf span p t).foldl Nat.max 1

/-- Cycles after its predecessor, or after the delay of its BIND, at which the next element of a port arrives. -/
def nextCycles (s : State) (a n : Nat) : Nat :=
  if isRankPort (portAt s a n) then 1
  else
    let (t, l) := nextWords s n (portAt s a n)
    loadCycles (bankSpan t) l

/-- How a port's patterns and room stand once its next element is fetched. -/
def passNext (n : Nat) (p : Port) : Port :=
  portAdvance (if 8 ≤ n && n < 16 then { p with elems := p.elems ++ [0], pos := p.pos + 1 } else { p with buf := p.buf ++ [{}], ahead := p.ahead - 1, pos := p.pos + 1 })

/-- How many of the next `k` elements of a port its loader fetches in one cycle, no bank serving twice, with the accesses made. -/
def fillPlan (s : State) (n : Nat) : Nat → List (Nat × Nat × Nat) → Port → Nat × List (Nat × Nat × Nat)
  | 0, acc, _ => (0, acc)
  | k + 1, acc, p =>
    if !mayFetch s n p || isRankPort p then (0, acc)
    else
      let (t, l) := nextWords s n p
      match l.foldlM (bankAdd (bankSpan t)) acc with
      | some acc' => let (m, r) := fillPlan s n k acc' (passNext n p); (m + 1, r)
      | none => (0, acc)

/-- Fetch `k` elements. -/
def fetchMany : Nat → State → Nat → Nat → State
  | 0, s, _, _ => s
  | k + 1, s, a, n => fetchMany k (fetchOne s a n) a n

/-- Header words of the element the scale producer of a port goes through next. -/
def nextSides (s : State) (p : Port) : Tile × List (Nat × Nat) :=
  match p.active with
  | none => ({}, [])
  | some x => (patTile s x, sideSpots x (patTile s x) (p.pos + p.ahead))

/-- Through how many of the next `k` elements the scale producer of a port goes in one cycle, no bank serving twice, with the accesses
made (R200, R202, R283). -/
def producePlan (s : State) (n : Nat) : Nat → List (Nat × Nat × Nat) → Port → Nat × List (Nat × Nat × Nat)
  | 0, acc, _ => (0, acc)
  | k + 1, acc, p =>
    if !canProduce s n p then (0, acc)
    else match p.active with
    | none => (0, acc)
    | some x =>
      let (t, l) := nextSides s p
      match l.foldlM (bankAdd (bankSpan t)) acc with
      | some acc' => let (m, r) := producePlan s n k acc' (passSide s x p); (m + 1, r)
      | none => (0, acc)

/-- Take the scale producer of a port through up to `k` elements. -/
def produceMany : Nat → State → Nat → Nat → State
  | 0, s, _, _ => s
  | k + 1, s, a, n => produceMany k (produceOne s a n) a n

/-- One cycle of a loader: up to 32 fragments whose words their banks give in one access each, or the one whose accesses are now
all made (R280); with the buffer full, one of its scale producer, in the same way (R284). -/
def fillPort (s : State) (a n : Nat) : State :=
  if mayFetch s n (portAt s a n) then
    let s1 := fetchMany (Nat.max 1 (fillPlan s n 32 [] (portAt s a n)).1) s a n
    modPort s1 a n fun p => { p with fillAt := s.cyc + nextCycles s1 a n }
  else
    let s1 := produceMany (Nat.max 1 (producePlan s n 32 [] (portAt s a n)).1) s a n
    let (t, l) := nextSides s1 (portAt s1 a n)
    modPort s1 a n fun p => { p with fillAt := s.cyc + loadCycles (bankSpan t) l }

/-- Banks the loader of a port, or its scale producer, reads in one cycle (R200, R280, R283). -/
def fillBanks (s : State) (n : Nat) (p : Port) : List Nat :=
  let banks (plan : Nat × List (Nat × Nat × Nat)) (next : List (Nat × Nat)) : List Nat :=
    if plan.1 = 0 then next.map (·.1) else plan.2.map (·.1)
  if mayFetch s n p then banks (fillPlan s n 32 [] p) (nextWords s n p).2
  else if canProduce s n p then banks (producePlan s n 32 [] p) (nextSides s p).2
  else []

/-- Whether a port's loader may deliver now, or its scale producer go on (R280, R284). -/
def fillReady (s : State) (n : Nat) (p : Port) : Bool := (mayFetch s n p || canProduce s n p) && p.fillAt ≤ s.cyc

/-- Whether the producer of a fetched fragment's pattern has finished it. -/
def producerDone (p : Port) (f : Fetched) : Bool :=
  f.ser < p.serial + p.act || (match p.active with
    | none => true
    | some x => x.ended (p.pos + p.ahead))

/-- How many fragments of a buffer can be assigned: a scaled one waits for its sidecar until its producer has finished (R278,
R284). -/
def assignable (p : Port) : List Fetched → Nat → Nat
  | [], _ => 0
  | f :: t, k =>
    if !f.scaled then assignable p t k + 1
    else if k > 0 then assignable p t (k - 1) + 1
    else if producerDone p f then assignable p t 0 + 1
    else 0

/-- Unassigned fragments a word may take from a port (R279). -/
def Port.ready (p : Port) : Nat := assignable p p.buf p.scales.length

/-- One element of the front pattern is taken; a finished pattern leaves the front (R281). -/
def portTake (p : Port) : Port := if p.pats = [] then p else dropFront { p with taken := p.taken + 1 }

/-- Take the oldest fragment of a port, with its sidecar and its mark (R278, R283, R284). -/
def popFrag (p : Port) : Port × Popped :=
  match p.buf with
  | [] => (p, {})
  | f :: t =>
    let p1 := portTake { p with buf := t }
    if !f.scaled then (p1, { frag := f.frag, bad := f.bad })
    else match p.scales with
      | [] => (p1, { frag := f.frag, desync := true, bad := f.bad })
      | x :: xs => ({ p1 with scales := xs }, { frag := f.frag, side := x, desync := f.odd, bad := f.bad })

/-! ## Drains -/

/-- Free places of a drain that elements of its patterns can fill (R279, R282). -/
def drainRoom (p : Port) : Nat :=
  let left (x : Pattern) (n : Nat) : Nat := if x.rep then Config.edgeBuffer else x.size - n
  let els := match p.pats with
    | [] => 0
    | x :: rest => left x p.taken + (rest.map fun y => left y 0).sum
  Nat.min els (Config.edgeBuffer - p.places.length)

/-- A drain's pattern whose elements are all reserved gives way to its follower (R281, R282). -/
def drainAdvance (p : Port) : Port :=
  match p.pats with
  | x :: y :: rest =>
    if x.ended p.taken then { p with pats := y :: rest, serial := p.serial + 1, taken := 0, gone := p.gone ++ [x] } else p
  | _ => p

/-- Reserve a place for a push of a word (R282). -/
def reservePush (p : Port) (word cell : Nat) : Port :=
  match p.pats with
  | [] => p
  | x :: _ => drainAdvance
      { p with taken := p.taken + 1, places := p.places ++ [{ word := word, cell := cell, pat := x, elem := p.taken }] }

/-- Fill the place of a push, or pass over it (R282). -/
def fillPush (p : Port) (word cell : Nat) (v : Option Popped) : Port :=
  { p with places := p.places.map fun x =>
      if x.word = word && x.cell = cell then { x with val := v, passed := v.isNone } else x }

/-- Cells that write a pushed fragment, with its headers on an E2M1 tile (R282, R283). -/
def pushCells (s : State) (x : Push) (v : Popped) : List Host.Cell :=
  let t := patTile s x.pat
  let data := (List.range 32).flatMap fun k => viewCells t false (x.pat.off x.elem + (k : Nat) * x.pat.lstr.toInt) 4 (lane v.frag k).toNat
  let heads := if t.type ≠ tyE2m1 then []
    else (List.range 8).flatMap fun g => match blockOff x.pat t x.elem g with
      | none => []
      | some o =>
        let a := tileBase t 0 + headByte t (viewIndex t (o / (16 * viewCols t)) (o % (16 * viewCols t) / 16))
        let h := (header v.side g).toNat
        [(a, BitVec.ofNat 8 h), (a + 1, BitVec.ofNat 8 (h / 256))]
  data ++ heads

/-- Whether the oldest place of a drain can be written or passed over. -/
def canDrain (p : Port) : Bool :=
  match p.places with
  | [] => false
  | x :: _ => x.val.isSome || x.passed

/-- Sectors of an engine up to the last that a test chooses, and the rest. -/
def splitLast (f : Sector → Bool) (l : List Sector) : List Sector × List Sector :=
  let rest := (l.reverse.takeWhile fun x => !f x).reverse
  (l.take (l.length - rest.length), rest)

/-- Before bytes are written for a command of an engine, the sectors that earlier commands of it sent to them land (R223, R239). -/
def landUnder (s : State) (a e seq : Nat) (cells : List Host.Cell) : State :=
  let (due, rest) := splitLast (fun x => x.seq < seq && x.cells.any fun c => cells.any fun d => d.1 = c.1) (engAt s a e).flight
  due.foldl (fun s x => landSector s a e x) (modEng s a e fun g => { g with flight := rest })

/-- Write the oldest place of a drain and free it (R282); its writes are those of the engine that bound it (R223). A
SEALED tile does not stop it (log 71), and what would go to an attached residual tile is not written (R263; log 77). -/
def drainOne (s : State) (a n : Nat) : State :=
  match (portAt s a n).places with
  | [] => s
  | x :: t =>
    match x.val with
    | some v =>
      let cells := lateBytes s a x.pat.eng x.pat.seq (offResid s (pushCells s x v))
      let s1 := streamFlits s a n (patTile s x.pat)
      modPort (putCells (coverFlits (landUnder s1 a x.pat.eng x.pat.seq cells) a x.pat.eng x.pat.seq cells) cells []) a n fun p =>
        { p with places := t }
    | none => if x.passed then modPort s a n fun p => { p with places := t } else s

/-- Write up to `k` places. -/
def drainMany : Nat → State → Nat → Nat → State
  | 0, s, _, _ => s
  | k + 1, s, a, n => drainMany k (drainOne s a n) a n

/-- The words a place of a drain writes: its lanes and, on an E2M1 tile, its headers. -/
def pushSpots (s : State) (x : Push) : List (Nat × Nat) :=
  let t := patTile s x.pat
  fragSpots x.pat t x.elem ++ sideSpots x.pat t x.elem

/-- How many of the oldest `k` places of a drain are written or passed over in one cycle, no bank serving twice (R200, R202, R282). -/
def drainPlan (s : State) : Nat → List (Nat × Nat × Nat) → List Push → Nat
  | 0, _, _ => 0
  | _, _, [] => 0
  | k + 1, acc, x :: t =>
    if x.val.isNone then (if x.passed then drainPlan s k acc t + 1 else 0)
    else match (pushSpots s x).foldlM (bankAdd (bankSpan (patTile s x.pat))) acc with
      | some acc' => drainPlan s k acc' t + 1
      | none => 0

/-- One cycle of a drain: up to 32 places whose words their banks take in one access each; a place that needs several accesses of a bank
is written with the last of them (R200, R202, R282). -/
def drainPort (s : State) (a n : Nat) : State :=
  let p := portAt s a n
  let next (s : State) (c : Nat) : State := modPort s a n fun p => { p with drainAt := c }
  match drainPlan s 32 [] p.places, p.places with
  | 0, x :: _ =>
    if x.due.isSome then next (drainOne s a n) (s.cyc + 1)
    else
      let c := s.cyc + loadCycles (bankSpan (patTile s x.pat)) (pushSpots s x) - 1
      next (modPort s a n fun p => { p with places := lmod p.places 0 fun x => { x with due := some c } }) c
  | k, _ => next (drainMany k s a n) (s.cyc + 1)

/-- Banks a drain writes in one cycle, each with the engine that bound the pattern (R200, R223). -/
def drainBanks (s : State) (p : Port) : List (Nat × Nat) :=
  ((p.places.take (Nat.max 1 (drainPlan s 32 [] p.places))).filter fun x => x.val.isSome).flatMap fun x =>
    (pushSpots s x).map fun w => (w.1, x.pat.eng)

/-! ## The ranking network -/

/-- The values of a row that are ranked, with their indices (R403). -/
def ranked (F : Fmt) (pos : Bool) (l : List (Nat × Nat)) : List (Nat × FVal) :=
  (l.map fun e => (e.1, F.read false e.2)).filter fun e =>
    !e.2.isNan && (!pos || ltV (F.read false 0) e.2)

/-- Arrivals of a row: index and rank, best first (R403). -/
def rowArrivals (r : RankDesc) (vals : List Nat) : List (Nat × Nat) × Nat :=
  let F := if r.bf then bf16 else fp16
  let ix := (List.range vals.length).zip vals
  let nans := (ix.filter fun e => (F.read false e.2).isNan).length
  let order := (ranked F r.pos ix).mergeSort fun x y => ltV y.2 x.2 || (!ltV x.2 y.2 && x.1 ≤ y.1)
  (((order.map (·.1)).zip (List.range order.length)).filter fun e => e.2 < r.cut, nans)

/-- A fragment of arrivals: lane q holds arrival 16f + q (R403). -/
def arrivalFrag (r : RankDesc) (l : List (Nat × Nat)) (f : Nat) : Frag :=
  fragOf fun q => if q < 16 then
      match l[16 * f + q]? with
      | some (e, k) => BitVec.ofNat 32 ((e + r.ioff) % 2 ^ 16 + k * 2 ^ 16 + 2 ^ 31)
      | none => 0
    else 0

/-- Add to a saturating half of COUNTS (R287). -/
def bumpCounts (x : Word) (hi : Bool) (n : Nat) : Word :=
  if hi then setBits x 63 32 (Nat.min 0xFFFFFFFF (bitsOf x 63 32 + n)) else setBits x 31 0 (Nat.min 0xFFFFFFFF (bitsOf x 31 0 + n))

/-- Rank the row of the next fragment of a RANKX and put that fragment in the buffer (R403, R404). -/
def rankOne (s : State) (a n : Nat) : State :=
  let p := portAt s a n
  if !mayFetch s n p then s
  else match p.active with
    | none => s
    | some x => match x.rank with
      | none => s
      | some r =>
        let t := patTile s x
        let row := p.pos / rankFrags r.cut
        let f := p.pos % rankFrags r.cut
        let vals := (List.range (r.rowBytes / 2)).map fun (e : Nat) =>
          let o : Int := x.base + row * r.pitch.toInt + 2 * (e : Int)
          readPlane s t r.hdr o 2
        let (l, nans) := rowArrivals r vals
        let s1 := if f = 0 then modEng (streamFlits s a n t) a x.eng fun g => { g with x := vmod 0 g.x 14 fun c => bumpCounts c true nans } else s
        modPort s1 a n fun p => portAdvance
          { p with buf := p.buf ++ [{ frag := arrivalFrag r l f, ser := p.serial + p.act }], pos := p.pos + 1 }

/-- Put up to `k` fragments. -/
def rankMany : Nat → State → Nat → Nat → State
  | 0, s, _, _ => s
  | k + 1, s, a, n => rankMany k (rankOne s a n) a n

/-- Fragments left of the row under way. -/
def rankLeft (p : Port) : Nat :=
  match p.active with
  | none => 0
  | some x => match x.rank with
    | none => 0
    | some r => rankFrags r.cut - p.pos % Nat.max 1 (rankFrags r.cut)

/-- Banks that hold the row the ranking network reads next (R200, R403). -/
def rankBanks (s : State) (p : Port) : List Nat :=
  match p.active with
  | none => []
  | some x => match x.rank with
    | none => []
    | some r =>
      let t := patTile s x
      (List.range (r.rowBytes / 2)).map fun (e : Nat) =>
        let o : Nat := (x.base + p.pos / rankFrags r.cut * r.pitch.toInt + 2 * (e : Int)).toNat
        (bankPos t (planeByte t r.hdr o)).1

/-- One cycle of the ranking network of array `a`, which serves all its W ports: the fragments of one row of one of them (R402, R404). -/
def rankRow (s : State) (a n : Nat) : State :=
  modArr (modPort (rankMany (rankLeft (portAt s a n)) s a n) a n fun p => { p with fillAt := s.cyc + 1 }) a fun x =>
    { x with rankAt := s.cyc + 1 }

/-! ## Binding -/

/-- Whether a BIND can take effect at a port (R281). -/
def canBind (p : Port) : Bool := p.next.isNone

/-- Cycles after a BIND or RANKX takes effect until its first fragments arrive (R280, R404). -/
def firstDelay (s : State) (a n : Nat) (x : Pattern) : Nat :=
  loaderDelay s a n (tileAt s x.tile) + (if x.rank.isSome then 16 else 0)

/-- Whether a port's active pattern, if it has one, has delivered its last element. -/
def Port.drained (p : Port) : Bool :=
  match p.active with
  | none => true
  | some x => x.ended p.pos

/-- A pattern becomes active or following (R281, R303); one that becomes active now delivers after the delay of R280, one that
follows without a gap. -/
def bindPort (s : State) (a n : Nat) (x : Pattern) : State :=
  let idle := (portAt s a n).drained
  let s1 := modPort s a n fun p =>
    let q := { p with pats := p.pats ++ [x] }
    if n = portS || n ≥ 24 then drainAdvance q else portAdvance q
  if idle && n ≠ portS && n < 24 then
    modPort s1 a n fun p => { p with fillAt := s.cyc + firstDelay s a n x + (nextCycles s1 a n - 1) }
  else s1

/-- UNBIND (R303): the port is unbound and what it held is discarded; a drain has nothing left to write. A stream bound to it afterwards
has no shadowed position (R442). -/
def unbindPort (s : State) (a n : Nat) : State :=
  modSeq (modPort s a n fun _ => {}) a fun q => { q with shadow := { q.shadow with streams := q.shadow.streams.filter fun e => e.1 ≠ n } }

end Sys2Proof.Machine
end

