-- ==== Sys2Proof/Machine/Ops.lean ====
section
/-! DEFINITION. The shared operations of the sequencer: its registers (R98 to R104), predicates (R113), restart regions and the gate
buffer (R437 to R442), taking a trap (R428 to R433, R491) and the return from the monitor beside it (R436), and the checked
access through a handle (R217) or to a tile word (R220). -/

namespace Sys2Proof.Machine

/-! ## Registers -/

/-- Array number of the running sequencer. -/
def curA (s : State) : Nat := s.cur.val

/-- Whether scalar register `r` of array `a` is bound to a stream (R100, R285). -/
def isBound (s : State) (a r : Nat) : Bool := 24 ≤ r && r < 32 && (portAt s a (portReg r)).bound

/-- Read a scalar register: s0 is zero, a bound register gives its stream's next element (R99, R100). -/
def reg (s : State) (r : Nat) : Word :=
  if r = 0 then 0
  else if isBound s (curA s) r then (portAt s (curA s) (portReg r)).elems.headD 0
  else vget 0 (curSeq s).s r

/-- Read a predicate: b0 is true (R101). -/
def pred (s : State) (b : Nat) : Bool := b = 0 || vget false (curSeq s).b b

/-- Write a predicate; a write to b0 is discarded (R101). -/
def setPred (s : State) (b : Nat) (v : Bool) : State := if b = 0 then s else modCur s fun q => { q with b := vset q.b b v }

/-- Write a scalar register of the running sequencer (R99, R217). -/
def setReg (s : State) (r : Nat) (v : Word) : State := putReg s (curA s) r v

/-- Interlock a register (scalar 0–31, predicate 32–39, handle 40–55) until a cycle (R111). -/
def lock (s : State) (n due : Nat) : State :=
  if n = 0 then s else modCur s fun q => { q with locks := (n, due) :: q.locks.filter fun e => e.1 ≠ n }

/-- Write a result whose latency is `l` (R111). -/
def result (s : State) (r : Nat) (v : Word) (l : Nat) : State :=
  let s1 := setReg s r v
  if l ≤ 1 then s1 else lock s1 r (s.cyc + l)

/-- Hold the bundle under way this cycle. -/
def block (s : State) : State := { s with bun := { s.bun with blocked := true } }

/-- Hold the bundle under way this cycle for a counter at its limit (R409, R426). -/
def blockFull (s : State) : State := { s with bun := { s.bun with blocked := true, why := 0x08 } }

/-- What stops issue, with no bundle before a cycle; a later cycle already set stands. -/
def Stop.holdTo (x : Stop) (c : Nat) : Stop :=
  match x with
  | .run => .hold c
  | .hold b => .hold (Nat.max b c)
  | .pause b => if c ≤ b then .pause b else .hold c
  | x => x

/-- No bundle of a sequencer issues before a cycle. -/
def Seq.holdTo (q : Seq) (c : Nat) : Seq :=
  if q.stop = .pend then { q with goOn := q.goOn.holdTo c } else { q with stop := q.stop.holdTo c }

/-- No bundle issues before a cycle; a later cycle already set stands. -/
def holdUntil (s : State) (c : Nat) : State := modCur s fun q => q.holdTo c

/-- Whether a group's transfer phase has begun for the placement (R380). -/
def phaseOn (s : State) : Bool := (curSeq s).phaseOf.isSome || (curSeq s).phase

/-- DETAIL that names the open phase: its local group (R380). -/
def phaseDetail (s : State) : Word := BitVec.ofNat 64 ((curSeq s).phaseOf.getD 0)

/-! ## Restart regions -/

/-- The shadow of an array's sequencer (R441). -/
def shadowOf (x : Arr) : Shadow :=
  let q := x.seq
  { s := q.s, poisoned := q.poisoned, b := q.b, w := q.w, lc0 := q.lc0, lc1 := q.lc1, lb0 := q.lb0, lb1 := q.lb1,
    lstg := q.lstg, fmt := q.fmt,
    streams := x.ports.filterMap fun p =>
      if p.2.bound then some (p.1, p.2.serial, p.2.taken, p.2.pats) else none }

/-- Open a restart region: MARKPC, the shadow and empty name sets; a MARK also sets STAT.REGION (R437, R438). -/
def openRegion (s : State) (a pc : Nat) (mark : Bool) : State :=
  modArr s a fun x => { x with
    ports := x.ports.map fun e => (e.1, { e.2 with gone := [] })
    seq := { x.seq with shadow := shadowOf x, reads := [], writes := [], markpc := pc, region := x.seq.region || mark,
                        openNext := false } }

/-- A stream set back to element `k` of its first pattern, whose fragments are fetched again (R442, R448). -/
def rewind (p : Port) (k : Nat) : Port :=
  portAdvance { p with act := 0, pos := k, taken := k, buf := [], scales := [], elems := [], produced := k, ahead := 0, gone := [] }

/-- A stream at a restart: back to its shadowed position, or, bound since, to the start of its first pattern; the patterns that have left
its front since the region opened are bound again, and its unassigned fragments and held elements fetched again (R442). -/
def restoreStream (sh : Shadow) (n : Nat) (p : Port) : Port :=
  if !p.bound then p
  else rewind { p with pats := p.gone ++ p.pats, serial := p.serial - p.gone.length }
    (match sh.streams.find? fun e => e.1 = n with
     | none => 0
     | some (_, _, k, _) => k)

/-- Restore what a shadow holds (R442). -/
def restoreShadow (s : State) (a : Nat) : State :=
  let drained := (arr s a).ports.foldl (fun s e => drainMany e.2.places.length s a e.1) s
  modArr drained a fun x =>
    let sh := x.seq.shadow
    { x with
      ports := x.ports.map fun e => (e.1, restoreStream sh e.1 e.2)
      seq := { x.seq with s := sh.s, poisoned := sh.poisoned, b := sh.b, w := sh.w, lc0 := sh.lc0, lc1 := sh.lc1, lb0 := sh.lb0,
                          lb1 := sh.lb1, lstg := sh.lstg, fmt := sh.fmt, reads := [], writes := [], gate := [] } }

/-! ## Taking a trap -/

/-- Order of two located faults: by word, row, column and slot (R159). -/
def locLe (x y : FaultInfo) : Bool :=
  if x.wordn ≠ y.wordn then x.wordn < y.wordn
  else if x.row ≠ y.row then x.row < y.row
  else if x.col ≠ y.col then x.col < y.col
  else x.slot ≤ y.slot

/-- The located fault that is reported (R159). -/
def locBest : List FaultInfo → Option FaultInfo
  | [] => none
  | x :: t => match locBest t with
    | none => some x
    | some y => some (if locLe x y then x else y)

/-- Rank of a pending fault among those of one cycle: a TRAP or precise fault, then engines, then links and homes (R491). -/
def pendRank (f : FaultInfo) : Nat := if f.precise then 0 else if f.src = 2 then 1 + f.eng else 8 + f.code

/-- Whether a pending fault is taken before another (R491). -/
def pendLe (x y : FaultInfo) : Bool := x.cycle < y.cycle || (x.cycle = y.cycle && pendRank x ≤ pendRank y)

/-- The pending fault that is taken first (R491). -/
def pendBest : List FaultInfo → Option FaultInfo
  | [] => none
  | x :: t => match pendBest t with
    | none => some x
    | some y => some (if pendLe x y then x else y)

/-- The fault a trap reports, with the faults that stay pending and the count of further located ones (R431, R491). -/
def chooseFault (q : Seq) : Option (FaultInfo × List FaultInfo × Nat) :=
  match locBest q.located with
  | some f => some (f, q.pending.filter fun x => !x.precise || x.code = 0x60, q.located.length - 1)
  | none => match pendBest q.pending with
    | some f => some (f, q.pending.erase f, 0)
    | none => none

/-- The fault a trap of a sequencer delivers: in the monitor the precise one raised last, which is the one raised there (R433,
R434). -/
def trapFault (q : Seq) : Option (FaultInfo × List FaultInfo × Nat) :=
  if q.mon then (q.pending.reverse.find? (·.precise)).map fun f => (f, q.pending.erase f, 0) else chooseFault q

/-- Whether earlier accesses of array `a` come before the stores of its record, if it has one (R226, R242, R430). -/
def recordBlocked (s : State) (a : Nat) : Bool :=
  let p := (seqAt s a).part
  (partAt s p).mrbase ≠ 0 && virtBlocked s a p ((partAt s p).mrbase.toNat + 128 * a) 128

/-- Whether the trap of array `a` can be taken: the words in flight have drained, for a restart ld is 0, and, where a record is
written, the release at DEV that writing it carries waits for nothing more, and its stores for no earlier access (R430, R431, R442). -/
def mayTrap (s : State) (a : Nat) : Bool :=
  let q := seqAt s a
  (arr s a).words = [] && q.after.isNone
    && (match trapFault q with
        | none => false
        | some (f, _, _) => f.code ≠ 0x11 || q.ld = 0)
    && ((partAt s q.part).mrbase = 0 || !releaseBlocked s a 2) && !recordBlocked s a

/-- A fault record, as a number of 64 bytes (R429). -/
def recordOf (f : FaultInfo) (restart bcopy : Bool) (more : Nat) : Nat :=
  f.code + f.slot * 2 ^ 8 + bnat f.precise * 2 ^ 11 + bnat bcopy * 2 ^ 12 + f.src * 2 ^ 13 + bnat restart * 2 ^ 15
    + Nat.min 255 more * 2 ^ 16 + f.pc % 2 ^ 32 * 2 ^ 32 + f.row * 2 ^ 64 + f.col * 2 ^ 72 + f.eng * 2 ^ 80 + f.seq * 2 ^ 96
    + f.tslot * 2 ^ 128 + bnat f.tvalid * 2 ^ 134 + f.offset % 2 ^ 32 * 2 ^ 144 + f.lanes.toNat * 2 ^ 192
    + f.wordn % 2 ^ 32 * 2 ^ 224 + f.detail.toNat * 2 ^ 256 + f.cycle * 2 ^ 320 + f.addr.toNat * 2 ^ 384

/-- The 8-byte units of a number, low first. -/
def units : Nat → Nat → List Nat
  | 0, _ => []
  | n + 1, v => v % 2 ^ 64 :: units n (v / 2 ^ 64)

/-- The handle bundles are fetched through: h15, or the monitor's own (R351, R434). -/
def codeHandle (q : Seq) : Handle := if q.mon then q.mhandle else vget {} q.h 15

/-- Physical address of a code offset. -/
def codePa (q : Seq) (pc : Nat) : Nat := ptePa (codeHandle q).leaf + pc

/-- The line of code that holds an offset: its physical address, and the place of the offset in it. The lines are those of the frame,
cut every 192 bytes from its start, so that a bundle stands in one of them (R38, R209, R351). -/
def codeLine (q : Seq) (pc : Nat) : Nat := codePa q (pc / 192 * 192)

/-- The bytes of the bundle at an offset, where the instruction cache holds its line (R114). -/
def bundleAt (x : Arr) (pc : Nat) : Option Nat :=
  (x.icache.find? fun l => l.1 = codeLine x.seq pc).map fun l => l.2.toNat / 2 ^ (8 * (pc % 192)) % 2 ^ 192

/-- Store 8-byte units of a record through the pages of a partition, as the sequencer of array `a` stores with release at DEV: written
through, and merged into the array's own line where that is present (R214, R430); none where a page is missing, lacks W or is
sealed. -/
def recordStore (s0 : State) (a p va : Nat) : List Nat → Option State
  | [] => some s0
  | v :: t =>
    let s := walkTouch s0 p (BitVec.ofNat 64 va)
    match virtPa s p va with
    | none => none
    | some (pa, e) =>
      if !pteW e || pteSealed e then none
      else recordStore (if pteKind e ≠ 0 && pteLoc e = 0 then storeThrough (aliasWork s a p va pa) a p va pa 8 v else homeBytes s p pa 8 v) a p (va + 8) t

/-- Write the record of a fault, with the release at DEV that its stores carry: the state, the record's address, and whether its write
faulted, where MREC then reads 0 (R430). -/
def writeRecord (s0 : State) (a : Nat) (f : FaultInfo) (restart : Bool) (more : Nat) : State × Nat × Bool :=
  let p := (seqAt s0 a).part
  let base := (partAt s0 p).mrbase.toNat
  if base = 0 then (s0, 0, false)
  else
    let s := releaseWork s0 a 2
    let noRecord (s : State) : State := modSeq s a fun q => { q with mrec := 0 }
    let copy := if f.code = 2 then bundleAt (arr s a) f.pc else none
    let at_ := base + 128 * a
    match recordStore s a p at_ (units 8 (recordOf f restart copy.isSome more)) with
    | none => (noRecord (walkTouch s0 p (BitVec.ofNat 64 at_)), 0, true)
    | some s1 => match copy with
      | none => (s1, at_, false)
      | some v => match recordStore s1 a p (at_ + 64) (units 3 v) with
        | none => (noRecord s0, 0, true)
        | some s2 => (s2, at_, false)

/-- The task of array `a` ends FAILED with a fault (R433). -/
def failTop (s : State) (a : Nat) (f : FaultInfo) : State :=
  match (arr s a).task with
  | none => s
  | some i => failRunning s i f.code

/-- The restart for PAGE_NOT_PRESENT: the gate buffer is discarded, the shadow restored and the faulting handle INVALID (R442). -/
def restart (s : State) (a : Nat) (f : FaultInfo) : State :=
  modSeq (restoreShadow s a) a fun q =>
    { q with h := if f.hdl < 16 then vmod {} q.h f.hdl fun x => { x with st := .invalid, leaf := 0, cause := 0 } else q.h
             stamp := q.stamp }

/-- A held SYNC, CBWAIT or full/empty request is withdrawn: its bundle has not issued (R201, R418, R421). -/
def withdrawHeld (s : State) (a : Nat) : State :=
  let q := seqAt s a
  let s1 := match q.syncGroup with
    | some g => groupWithdraw s q.part g a
    | none => s
  modSeq { s1 with waiters := s1.waiters.filter fun w => w.arr ≠ a } a fun q =>
    { q with syncGroup := none, cbwaiting := false, feReq := none, permAt := none, retryAt := none
             cbDone := if s.cyc < q.cbAt then none else q.cbDone }

/-- Where MEPC points: MARKPC after a restart, the faulting bundle of a precise fault, else the next to issue (R432). -/
def resumeAt (q : Seq) (f : FaultInfo) (re : Bool) : Nat :=
  if re then q.markpc else if f.precise && f.code ≠ 0x60 then f.pc else q.pc

/-- The point at which an invalidation of the code handle takes effect (R351): the instruction cache drops every line, and h15 walks
its held address; the monitor's own handle is walked again where it is the one invalidated. -/
def dropCode (x : Arr) : Arr :=
  if !x.seq.codeInval && !x.seq.monInval then x
  else { x with
    icache := []
    seq := { x.seq with
      codeInval := false, monInval := false
      h := if x.seq.codeInval then vmod {} x.seq.h 15 fun h => { h with st := .walking, leaf := 0, cause := 0 } else x.seq.h
      mhandle := if x.seq.monInval then { x.seq.mhandle with st := .invalid, leaf := 0, cause := 0 } else x.seq.mhandle } }

/-- The point of array `a` at which a pending invalidation of the code handle takes effect; what is fetched from then on is read as by a
load with acquire at DEV performed at that point (R233, R351). -/
def codePoint (s : State) (a : Nat) : State :=
  if (seqAt s a).codeInval || (seqAt s a).monInval then acquireWork (modArr s a dropCode) a 2 else s

/-- Enter the monitor: MREC, MCAUSE and MEPC, STAT.MON, and the monitor's own code handle walked from MENTRY (R431, R434). -/
def enterMonitor (s0 : State) (a : Nat) (f : FaultInfo) (mepc rec_ : Nat) : State :=
  let p := (seqAt s0 a).part
  let va := (partAt s0 p).mentry
  let (s, w) := walkFill s0 a p va
  let h : Handle := match w with
    | .leaf e _ _ => { st := .valid, va := va, leaf := e }
    | .fail c _ => { st := .faulted, va := va, cause := c }
  let off := match w with
    | .leaf e _ _ => va.toNat - pageBase va.toNat (leafBytes e)
    | .fail _ _ => 0
  modArr (codePoint (countMiss s a true) a) a fun x => { x with
    seq := { x.seq with
      mcause := BitVec.ofNat 64 (f.code + f.slot * 2 ^ 8 + bnat f.precise * 2 ^ 11)
      mrec := BitVec.ofNat 64 rec_
      mepc := BitVec.ofNat 64 mepc
      mon := true, mhandle := h, pc := off, npc := off, fetched := false, stop := .run, located := [] } }

/-- Take the trap that is due (R431 to R433): choose the fault, restart where it is a PAGE_NOT_PRESENT, write the record, and
enter the monitor, or end the task FAILED. -/
def takeTrap (s : State) (a : Nat) : State :=
  let q := seqAt s a
  match trapFault q with
  | none => s
  | some (f, rest, more) =>
    let s0 := withdrawHeld s a
    let s1 := modSeq s0 a fun q => { q with pending := rest, located := [] }
    if q.mon || q.stop = .retiring || !(partAt s q.part).men then
      failTop (writeRecord s1 a f false more).1 a f
    else
      let re := f.code = 0x11
      let s2 := if re then restart s1 a f else s1
      let (s3, at_, bad) := writeRecord s2 a f re more
      if bad then failTop s3 a f
      else enterMonitor s3 a f (resumeAt (seqAt s2 a) f re) at_

/-- A precise fault of the slot under way (R428). -/
def slotFault (s : State) (code : Nat) : FaultInfo :=
  { code := code, slot := s.cell.slot, precise := true, pc := (curSeq s).pc, cycle := s.cyc }

/-- A precise fault whose DETAIL is a value. -/
def faultD (s : State) (code : Nat) (d : Word) : FaultInfo := { slotFault s code with detail := d }

/-- A precise fault whose DETAIL is the slot word (R428). -/
def faultW (s : State) (code : Nat) (i : Instr) : FaultInfo := faultD s code ((encode i).setWidth 64)

/-- Raise a precise fault at the running sequencer: issue stops, and the trap is taken at once when nothing has to drain first
(R428, R431). -/
def raise (s : State) (f : FaultInfo) : State :=
  let s1 := modCur { s with bun := { s.bun with raised := some f } } fun q =>
    { q with pending := q.pending ++ [f], stop := if q.stop = .retiring then .retiring else .trap }
  if mayTrap s1 (curA s) then takeTrap s1 (curA s) else s1

/-- Return from the monitor (R436): MEPC is checked, STAT.MON clears, and the bundle at MEPC is next; a held fault is taken at that
boundary. -/
def monitorReturn (s : State) : State :=
  let q := curSeq s
  if q.mepc.toNat % 24 ≠ 0 then raise s (faultD s 0x14 q.mepc)
  else modArr s (curA s) fun x => { x with
    seq := { x.seq with mon := false, npc := q.mepc.toNat, stop := if x.seq.pending = [] then .run else .trap } }

/-! ## Slots -/

/-- Whether a register is marked poisoned; a bound register holds its stream's element (R100, R217). -/
def isPoisoned (s : State) (r : Nat) : Bool := r ≠ 0 && (curSeq s).poisoned.getLsbD r && !isBound s (curA s) r

/-- Mark the bound registers a slot reads (R100). -/
def markPopped (s : State) (srcs : List Nat) : State :=
  { s with bun := { s.bun with popped := srcs.foldl (fun m r => if isBound s (curA s) r then setBit m r true else m) s.bun.popped } }

/-- Hold the bundle for an element of a stream that has not come, an interlock (R100, R112, R426). -/
def blockDry (s : State) : State := { s with bun := { s.bun with blocked := true, why := 0x05 } }

/-- Run an SC, KA or KB slot: with a false predicate it does nothing (R113); an empty stream holds it (R100); a poisoned source
raises POISON_CONSUMED (R217), a bound destination ILLEGAL with its number (R100). -/
def slotOp (s : State) (p : Nat) (srcs dsts : List Nat) (k : State → State) : State :=
  if !pred s p then s
  else if srcs.any fun r => isBound s (curA s) r && (portAt s (curA s) (portReg r)).elems = [] then blockDry s
  else if srcs.any (isPoisoned s) then raise s (slotFault s 0x41)
  else match dsts.find? (isBound s (curA s)) with
    | some r => raise s (faultD s 0x01 (BitVec.ofNat 64 r))
    | none => k (markPopped s srcs)

/-! ## Handles -/

/-- Handle `h` of the running sequencer. -/
def handle (s : State) (h : Nat) : Handle := vget {} (curSeq s).h h

/-- Change a handle of array `a`. -/
def modHandle (s : State) (a h : Nat) (f : Handle → Handle) : State :=
  modSeq s a fun q => { q with h := vmod {} q.h h f }

/-- Anchor of R215 and R346. -/
def Handle.anchor (h : Handle) : Nat := h.va.toNat - h.base

/-- What the checks of a handle access answer (R217). -/
inductive Chk where
  /-- The access may go on, at this place. -/
  | ok (pl : Place)
  /-- The handle is INVALID: its walk begins, and the bundle stalls. -/
  | walk
  /-- The bundle stalls. -/
  | wait
  | fault (f : FaultInfo)

/-- The fault of a FAULTED handle at its first use (R341, R217). -/
def handleFault (s : State) (h : Nat) (x : Handle) (addr : Word) : FaultInfo :=
  if x.cause = 5 then { slotFault s 0x40 with addr := addr }
  else { slotFault s 0x11 with detail := BitVec.ofNat 64 (x.cause + 16 * h), hdl := h, addr := addr }

/-- The checks of R217 for `z` bytes at an offset from the anchor (`rel`) or from the page's base; `r`, `w` are the rights
needed and `st` says that a sealed page refuses it. -/
def handleChk (s : State) (i : Instr) (h : Nat) (rel : Bool) (off : Int) (z : Nat) (r w st : Bool) : Chk :=
  let x := handle s h
  match x.st with
  | .invalid => .walk
  | .walking => .wait
  | .faulted =>
    .fault (handleFault s h x (if rel then x.va + BitVec.ofInt 64 off else BitVec.ofNat 64 (x.va.toNat / 49152 * 49152) + BitVec.ofInt 64 off))
  | .valid =>
    let P : Int := (if rel then (x.anchor : Int) else 0) + off
    let addr := BitVec.ofNat 64 x.base + BitVec.ofInt 64 P
    if P < 0 || P + z > (leafBytes x.leaf : Nat) then .fault { faultD s 0x10 (BitVec.ofInt 64 P) with addr := addr }
    else if P % z ≠ 0 then .fault { faultD s 0x14 (BitVec.ofInt 64 P) with addr := addr }
    else if (r && !pteR x.leaf) || (w && !pteW x.leaf) then .fault { faultW s 0x12 i with addr := addr }
    else if st && pteSealed x.leaf then .fault { faultW s 0x13 i with addr := addr }
    else if x.inflight ≥ 65535 then .wait
    else .ok { pa := ptePa x.leaf + P.toNat, va := addr, leaf := x.leaf, page := true }

/-- Begin the walk of an INVALID handle (R347). -/
def startWalk (s : State) (a h : Nat) : State :=
  modHandle s a h fun x => { x with st := .walking, leaf := 0, cause := 0 }

/-! ## Tile words -/

/-- The checks of R220 for words `x` to `x + n - 1` of the tile in slot `t`: the tile number and the tile. A full/empty form needs
FE (R222). -/
def tileChk (s : State) (i : Instr) (t : Nat) (x : Word) (n : Nat) (store fe : Bool) : Except FaultInfo (Nat × Tile) :=
  let f := { slotFault s 0x10 with tslot := t, tvalid := true, offset := x.toNat, detail := x }
  match curTile s t with
  | none => .error { faultW s 0x12 i with tslot := t, tvalid := true }
  | some (k, y) =>
    if y.level = 0 || isResid s k then .error { faultW s 0x12 i with tslot := t, tvalid := true, offset := x.toNat }
    else if x.toNat ≥ 2 ^ 32 || x.toNat + n > y.words then .error f
    else if n = 2 && x.toNat % 2 ≠ 0 then .error { f with code := 0x14 }
    else if store && y.sealed then .error { faultW s 0x13 i with tslot := t, tvalid := true, offset := x.toNat }
    else if fe && (!y.fe || y.level ≠ 1) then .error { faultW s 0x12 i with tslot := t, tvalid := true, offset := x.toNat }
    else .ok (k, y)

/-- Whether the tile in a slot is held in a save area: its accesses stall until it is restored (R446). -/
def tileSaved (s : State) (t : Nat) : Bool :=
  match slotNo s t with
  | none => false
  | some n => (tileAt s n).st = .live && (tileAt s n).part = curPart s && (tileAt s n).saved

/-- The place of word `x` of a tile. -/
def tilePlace (k : Nat) (t : Tile) (x : Nat) : Place := { pa := tileBase t 0 + 4 * x, tile := k }

/-! ## Outstanding operations -/

/-- Put an operation among those outstanding, in program order; it counts in the counters given and in its handle's INFLIGHT
(R350, R409). -/
def pushOut (s : State) (a : Nat) (o : Out) (ld st : Nat) : State :=
  let s1 := modSeq s a fun q =>
    { q with outs := q.outs ++ [{ o with no := q.outNo }], outNo := q.outNo + 1, ld := q.ld + ld, st := q.st + st }
  if o.hdl < 16 then modHandle s1 a o.hdl fun x => { x with inflight := x.inflight + 1 } else s1

/-- Place in the list of the operation pushed last. -/
def lastOut (s : State) (a : Nat) : Nat := (seqAt s a).outs.length - 1

/-- Perform the operation pushed last at once, if nothing before it holds it back. -/
def tryNow (s : State) (a : Nat) (f : State → Nat → Out → State) : State :=
  let l := (seqAt s a).outs
  match l[lastOut s a]? with
  | none => s
  | some o => if outReady l (lastOut s a) then f s (lastOut s a) o else s

/-! ## The gate buffer -/

/-- How the release of the gate buffer ends (R438). -/
inductive Rel where
  | done
  | wait
  /-- st stands at 255 (R409). -/
  | full
  | fault (f : FaultInfo)

/-- The first gated entry leaves. -/
def popGate (s : State) (a : Nat) : State := modSeq s a fun q => { q with gate := q.gate.drop 1 }

/-- Release gated entries in program order, each translated through its handle as it stands (R350, R438): the state, how many left,
and how it ended. A sealed page, a lost right, or a tile that has become a residual tile since faults as a store does, at the instruction
under way (R263; log 77); a store needs room in st (R409). -/
def gateGo (a : Nat) : List GateEntry → Nat → State → State × Nat × Rel
  | [], n, s => (s, n, .done)
  | .fence sc :: t, n, s => gateGo a t (n + 1) (pushOut (popGate s a) a { op := .fenceRel, rel := true, scope := sc } 0 0)
  | .tile sl k x z v rel sc :: t, n, s =>
    if (seqAt s a).st ≥ 255 then (s, n, .full)
    else if isResid s k then (s, n, .fault { faultW s 0x12 s.bun.ins with tslot := sl, tvalid := true, offset := x, gate := true })
    else gateGo a t (n + 1) (pushOut (popGate s a) a
      { op := .store v, pl := tilePlace k (tileAt s k) x, size := z, rel := rel, scope := sc } 0 1)
  | .store h off z v rel sc :: t, n, s =>
    if (seqAt s a).st ≥ 255 then (s, n, .full)
    else match handleChk s s.bun.ins h false off z false true true with
      | .ok pl => gateGo a t (n + 1) (pushOut (popGate s a) a
          { op := .store v, pl := pl, size := z, rel := rel, scope := sc, hdl := h } 0 1)
      | .walk => (startWalk s a h, n, .wait)
      | .wait => (s, n, .wait)
      | .fault f => (s, n, .fault { f with gate := true })

/-- Release the gate buffer of array `a`. -/
def gateRelease (s : State) (a : Nat) : State × Nat × Rel := gateGo a (seqAt s a).gate 0 s

/-- Release an open gate buffer and go on: one entry leaves per cycle; the bundle is held while a handle walks, and a failed walk
raises PAGE_NOT_PRESENT (R438). In the monitor nothing is gated (R434). -/
def withGate (s : State) (k : State → State) : State :=
  if (curSeq s).mon then k s
  else match gateRelease s (curA s) with
    | (s1, n, .done) => k (if n > 0 then holdUntil s1 (s.cyc + n) else s1)
    | (s1, _, .wait) => block s1
    | (s1, _, .full) => blockFull s1
    | (s1, _, .fault f) => raise s1 f

/-- A new region opens at the next bundle (R437); in the monitor none does (R434). -/
def regionNext (s : State) : State := if (curSeq s).mon then s else modCur s fun q => { q with openNext := true }

/-- Release the gate buffer as R437 says of every instruction that does: a new region opens at the next bundle. -/
def releasing (s : State) (k : State → State) : State :=
  withGate s fun s1 => k (regionNext s1)

/-- The same for an instruction that counts in st: the entries that have left may have filled the counter (R409). -/
def releasingSt (s : State) (k : State → State) : State :=
  withGate s fun s1 => if (curSeq s1).st ≥ 255 then blockFull s1 else k (regionNext s1)

/-- Put a store or a FENCE release into the gate buffer; with 64 entries held it first acts as a MARK (R439). -/
def gatePut (s : State) (e : GateEntry) : State :=
  let add (s : State) : State := modCur s fun q => { q with gate := q.gate ++ [e] }
  if (curSeq s).gate.length < Config.gateEntries then add s
  else withGate s fun s1 => add (openRegion s1 (curA s1) (curSeq s1).pc true)

end Sys2Proof.Machine
end

