-- ==== Sys2Proof/Machine/Send.lean ====
section
/-! DEFINITION. What a copy command sends (R291 to R302): the translation of its pages, the units and sectors of its runs, its rows,
batches and masks; and how it ends or halts (R293 to R295). -/

namespace Sys2Proof.Machine

/-! ## What a command latched -/

/-- ROWB and ROWS (R287). -/
def shapeRowb (x0 : Word) : Nat := bitsOf x0 31 0
def shapeRows (x0 : Word) : Nat := bitsOf x0 63 32

/-- Command-order bytes of a command that credits a barrier (R297 to R302, R381). -/
def cmdBytes (c : Cmd) : Nat :=
  if c.op = 0x0B then bitsOf (cmdX c 0) 31 0
  else if c.op ≤ 5 then shapeRowb (cmdX c 0) * shapeRows (cmdX c 0)
  else 0

/-- The tile a slot names for a command, in the view the command latched (R371). -/
def cmdView (s : State) (c : Cmd) (slot : Nat) : Tile :=
  match cmdTile c slot with
  | none => {}
  | some n => (tileAt s n).asViewed (c.trs.contains n)

/-- Rows and pitch of a table that is a tile, and of one at a virtual address (R298): base row, row count, pitch. -/
def tableRows (v : Word) (t : Option Tile) (x4 : Word) (pitch : Int) : Nat × Nat × Int :=
  match (if locKind v = 1 then t else none) with
  | some t => (t.hbase, t.hcount, (viewCols t * (if locHdr v then 2 else elemBytes t.type) : Nat))
  | none => (bitsOf x4 31 0, bitsOf x4 63 32, pitch)

/-- Offset of command-order byte `o` at a pitch (R297). -/
def rowOff (rowb : Nat) (pitch : Int) (o : Nat) : Int := (o / rowb : Nat) * pitch + (o % rowb : Nat)

/-- The tile slot of the barrier reference a command selects (R289). -/
def barSlotsOf (c : Cmd) : List Nat :=
  let sel := bitsOf c.word 1 0
  if sel = 0 || c.op ≥ 6 && c.op ≠ 0x0B then [] else [bitsOf (cmdX c (7 + sel)) 5 0]

/-- Tile slots that a command names: its sides, its list or mask, and its barrier (R263, R288, R289). -/
def sideSlots (c : Cmd) : List Nat :=
  barSlotsOf c ++ match c.op with
  | 1 => locSlots c.ra ++ locSlots c.rb
  | 2 | 3 => locSlots c.ra ++ locSlots c.rb ++ locSlots (cmdX c 3)
  | 4 => locSlots c.ra ++ locSlots c.rb ++ locSlots (cmdX c 5)
  | 5 | 0x0B => locSlots c.rb
  | 6 => [bitsOf (cmdX c 0) 5 0]
  | 8 => locSlots c.ra
  | _ => []

/-- Whether a command names an attached residual tile (R263). -/
def sideResid (s : State) (c : Cmd) : Bool := (sideSlots c).any fun k => match cmdTile c k with
  | none => false
  | some n => isResid s n

/-! ## Ends -/

/-- A cancelled command's uncredited bytes are withdrawn from its barrier (R304, R415), where pre-emption has not withdrawn them
already. -/
def withdrawCmd (s : State) (c : Cmd) : State :=
  match cmdBar s c with
  | none => s
  | some b => if c.readd then s else barUpdate s b true (barWithdraw (cmdBytes c - c.landed))

/-- A command ends and leaves cp with a status (R290). -/
def cmdGone (s : State) (a e st : Nat) : State :=
  modSeq (modEng s a e fun g => { g with queue := g.queue.drop 1, last := st, halted := false }) a fun q => { q with cp := q.cp - 1 }

/-- The head of a queue ends with a status and leaves cp (R238, R293). -/
def cmdEnd (s : State) (a e st : Nat) (c : Cmd) : State := bumpDest (cmdGone s a e st) c

/-- Report an engine's fault (R293, R429). -/
def engReport (s : State) (a e code st : Nat) (c : Cmd) (resume : Nat) (addr : Word) : State :=
  report s a { code := code, slot := 7, src := 2, eng := e, seq := c.seq, offset := resume, detail := BitVec.ofNat 64 st,
               cycle := s.cyc, addr := addr }

/-- Fault code a status raises (R293). -/
def statusFault (st : Nat) : Nat := if st = 6 then 0x32 else if st = 7 then 0x33 else 0x31

/-- A virtual address at a signed offset. -/
def vaAt (v : Word) (o : Int) : Word := BitVec.ofNat 64 (bitsOf v 56 0) + BitVec.ofInt 64 o

/-! ## Reaching bytes -/

/-- What one side of a command reaches from an offset: physical bytes by offset within a page or tile, the bytes of a sector there,
whether a link lies between, and whether neighbouring bytes of the view may lie apart. -/
structure Reach where
  at_ : Int → Option Nat
  block : Nat
  link : Bool
  mixed : Bool := false
  /-- It is an SO page (R229). -/
  so : Bool := false

/-- Chain cell a location names. -/
def locCell (s : State) (a : Nat) (v : Word) : Nat := cellAt s a (locRow v) (locCol v)

/-- Reach of a tile from a location (R288). -/
def reachTile (s : State) (a : Nat) (c : Cmd) (v : Word) : Reach :=
  let t := cmdView s c (locSlot v)
  let base := tileBase t (locCell s a v)
  { at_ := fun x =>
      let o := ((locOff v : Int) + x).toNat
      some (base + planeByte t (locHdr v) o)
    block := 128, link := false, mixed := t.layout ≠ 0 || t.sparse }

/-- Bytes of a sector in the memory a leaf names (R291). -/
def leafBlock (e : Word) : Nat := if pteLoc e = 0 then 48 else if pteLoc e = 1 then 192 else 64

/-- Reach of a page from a virtual address. -/
def reachPage (va : Nat) (e : Word) : Reach :=
  let lo := pageBase va (leafBytes e)
  { at_ := fun x => if (lo : Int) ≤ x && x < (lo + leafBytes e : Nat) then some (ptePa e + (x.toNat - lo)) else none
    block := leafBlock e, link := pteLoc e ≠ 0, so := pteKind e = 0 }

/-- Whether traffic to a chip finds its Rhodi port down: the ports whose partner it is, or, where the handshakes have named none, every
port (R295, R461). -/
def rhodiGone (s : State) (chip : Nat) : Bool :=
  let mine := below 16 fun k => vget none s.pkg.partner k = some chip
  !((if mine = [] then List.range 16 else mine).any fun k => vget .untrained s.pkg.rhodi k = .up)

/-- Whether the link to the memory of a leaf is down: the host's before it is enumerated, or a peer's (R295, R461). -/
def linkGone (s : State) (e : Word) : Bool :=
  if pteLoc e = 0 then false
  else if pteLoc e = 2 then !s.pkg.pcieUp
  else rhodiGone s ((linkTarget (ptePa e)).getD 64)

/-- Why a page stops a command, if it does: PAGE, PERM, SEALED, LINK_DOWN (R293). -/
def pageStatus (s : State) (e : Word) (write : Bool) : Nat :=
  if (write && !pteW e) || (!write && !pteR e) then 3
  else if write && pteSealed e then 4
  else if linkGone s e then 6
  else 0

/-- The leaf a side of a command was translated to, where it covers an address (R294). -/
def heldPage (c : Cmd) (k va : Nat) : Option Word :=
  match c.pages.find? fun x => x.1 = k with
  | none => none
  | some (_, b, e) => if b ≤ va && va < b + leafBytes e then some e else none

/-- Hold the leaf a side of the head command of an engine has been translated to. -/
def holdPage (s : State) (a e k va : Nat) (leaf : Word) : State :=
  modEng s a e fun g => { g with queue := lmod g.queue 0 fun c =>
    { c with pages := (k, pageBase va (leafBytes leaf), leaf) :: c.pages.filter fun x => x.1 ≠ k } }

/-- The leaf of a page of side `k` of the head command: the one held, or a translation, which may fill TLBs (R294). -/
def pageOf (s : State) (a e k : Nat) (c : Cmd) (va : Word) : State × Option Word :=
  match (engAt s a e).queue.head?.bind fun c => heldPage c k va.toNat with
  | some leaf => (s, some leaf)
  | none =>
    let (s1, w) := translate s a c.part va
    match w with
    | .fail _ _ => (s1, none)
    | .leaf leaf _ _ => (holdPage s1 a e k va.toNat leaf, some leaf)

/-- Resolve side `k` (0 read, 1 written, 2 list) at an offset; a status of R293 where it fails, with the virtual address. -/
def resolve (s : State) (a e k : Nat) (c : Cmd) (v : Word) (o : Int) : State × Except (Nat × Option Word) Reach :=
  if locKind v = 1 then
    if k = 1 && (cmdView s c (locSlot v)).sealed then (s, .error (4, none)) else (s, .ok (reachTile s a c v))
  else
    let va := vaAt v o
    match pageOf s a e k c va with
    | (s1, none) => (s1, .error (2, some va))
    | (s1, some leaf) =>
      let st := pageStatus s leaf (k = 1)
      if st ≠ 0 then (s1, .error (st, some va))
      else
        let r := reachPage va.toNat leaf
        (s1, .ok { r with at_ := fun x => r.at_ ((bitsOf v 56 0 : Nat) + x) })

/-- Number of the aligned block of a physical byte. -/
def blockNo (block pa : Nat) : Nat := if pa < onChip then pa / 2 ^ 36 * 2 ^ 36 + pa % 2 ^ 36 / block else pa / block

/-! ## Units and sectors -/

/-- How many of the bytes from offset `k` on lie in one sector: each at hand and its place reachable, all in one block. -/
def runLen (src : Nat → Bool) (dst : Nat → Option Nat) (same : Nat → Bool) : Nat → Nat → Nat
  | 0, k => k
  | f + 1, k =>
    match src k, dst k with
    | true, some d => if same d then runLen src dst same f (k + 1) else k
    | _, _ => k

/-- Where the bytes of a command come from. -/
structure Source where
  /-- The location bytes not given are read from, with an offset for each command-order byte. -/
  loc : Option (Word × (Nat → Int)) := none
  /-- Bytes at hand, with whether they lie in poisoned words. -/
  given : Nat → Option (Byte × Bool) := fun _ => none
  /-- Whether a byte is one the command is known to write. -/
  live : Nat → Bool := fun _ => true
  /-- Command-order bytes from here on are not known yet. -/
  lim : Nat
  /-- Rows are sent one by one, so that a unit may lie in several of them. -/
  share : Bool := false

/-- Command-order bytes outside a run, of those known, that share a 16-byte unit with it which the command writes whole from one source
unit: they go with the run's sector, so that the unit is written whole (R239, R291). `src` and `dst` give the places of a byte; a
byte with no source place is at hand. -/
def unitRest (x : Source) (src dst : Nat → Option Nat) (o n : Nat) : List Nat :=
  let unit (f : Nat → Option Nat) (k : Nat) : Option Nat := (f k).map (· / 16)
  let mine := (List.range n).map (o + ·)
  let covered (l : List Nat) (u : Nat) : Bool := (List.range 16).all fun b => l.any fun k => dst k = some (16 * u + b)
  let cut := ((mine.filterMap (unit dst)).eraseDups).filter fun u => !covered mine u
  if cut = [] then []
  else
    let rest := (List.range x.lim).filter fun k => (k < o || o + n ≤ k) && x.live k && (unit dst k).any cut.contains
    cut.flatMap fun u =>
      let l := rest.filter fun k => unit dst k = some u && ((x.given k).isSome || (src k).isSome)
      let from_ := (((mine.filter fun k => unit dst k = some u) ++ l).filterMap (unit src)).eraseDups
      if from_.length ≤ 1 && covered (mine ++ l) u then l else []

/-- Addresses a byte of the destination is written to: with ALLC, the same place in every cell of the placement (R288). -/
def spread (s : State) (a : Nat) (v : Word) (d : Nat) : List Nat :=
  if locKind v = 1 && locAllc v then
    let b := cellBase (locCell s a v)
    (chainCells s a).map fun n => d - b + cellBase n
  else [d]

/-- Sectors an array has outstanding (R291). -/
def inFlight (s : State) (a : Nat) : Nat := ((arr s a).eng.toList.map fun g => g.flight.length).sum

/-- Take sector `n` of an engine's flight and land it. -/
def landNth (s : State) (a e n : Nat) : State :=
  match (engAt s a e).flight[n]? with
  | none => s
  | some x => landSector (modEng s a e fun g => { g with flight := ldel g.flight n }) a e x

/-- With 4,096 sectors outstanding, one must land before another is sent: the engine's oldest, else the oldest of another (R291). -/
def sectorRoom (s : State) (a e : Nat) : State :=
  if inFlight s a < 4096 then s
  else match ([e, 0, 1, 2, 3].find? fun k => (engAt s a k).flight ≠ []) with
    | none => s
    | some k => landNth s a k 0

/-- Put a sector on its way. -/
def pushSector (s : State) (a e : Nat) (x : Sector) : State :=
  modEng (sectorRoom s a e) a e fun g => { g with flight := g.flight ++ [x] }

/-- A read of a host or peer target does not pass the engine's own earlier posted writes to it: they land first (R242). -/
def landPosted (s : State) (a e : Nat) (reads : List Nat) : State :=
  let ts := (reads.filterMap linkTarget).eraseDups
  if ts = [] then s
  else
    let (due, rest) := splitLast (fun x => x.cells.any fun c => (linkTarget c.1).any ts.contains) (engAt s a e).flight
    due.foldl (fun s x => landSector s a e x) (modEng s a e fun g => { g with flight := rest })

/-- An engine reads bytes: its posted writes to their targets have landed, errors are marked, and the lines come into their slices (R210,
R211, R242, R426). -/
def engRead (s : State) (a e p : Nat) (reads : List Nat) : State :=
  match reads with
  | [] => s
  | x :: _ => countHome (touchAll (reads.foldl (fun s x => markPoison s x 1) (landPosted s a e reads)) p reads false) a x

/-- Before an access of an engine to an SO page, its earlier writes to SO pages are performed (R229, R231). -/
def landSo (s : State) (a e : Nat) (so : Bool) : State :=
  if !so then s
  else
    let (due, rest) := splitLast (·.so) (engAt s a e).flight
    due.foldl (fun s x => landSector s a e x) (modEng s a e fun g => { g with flight := rest })

/-- What sending has come to: the state, the command-order offset reached, and a status with the address that met it. -/
abbrev Sent := State × Nat × Nat × Option Word

/-- The reach of a source at a byte, translated where the byte is to be read. -/
def sourceReach (s : State) (a e : Nat) (c : Cmd) (x : Source) (o : Nat) : State × Except (Nat × Option Word) (Option Reach) :=
  match x.loc with
  | none => (s, .ok none)
  | some (v, off) =>
    let (s1, r) := resolve s a e 0 c v (off o)
    if (x.given o).isSome then (s, .ok r.toOption) else (s1, r.map some)

/-- Send the sector that begins at command-order byte `o`, up to `stop`. -/
def sendRun (s : State) (a e : Nat) (c : Cmd) (o stop : Nat) (x : Source) (dv : Word) (doff : Nat → Int) : Sent :=
  let (s1, rs) := sourceReach s a e c x o
  match rs with
  | .error (st, va) => (s1, o, st, va)
  | .ok rs =>
    let (s2, rd) := resolve s1 a e 1 c dv (doff o)
    match rd with
    | .error (st, va) => (s2, o, st, va)
    | .ok rd =>
      let from_ (k : Nat) : Option Nat := match x.given k, x.loc, rs with
        | none, some (_, off), some r => r.at_ (off k)
        | _, _, _ => none
      let dst (k : Nat) : Option Nat := rd.at_ (doff k)
      let b0 := blockNo rd.block ((dst o).getD 0)
      let n := Nat.max 1 (runLen (fun k => (x.given (o + k)).isSome || (from_ (o + k)).isSome) (fun k => dst (o + k))
        (fun d => blockNo rd.block d = b0) (stop - o) 0)
      let rest := if rd.mixed || x.share then unitRest x from_ dst o n else []
      let ks := rest.filter (· < o) ++ (List.range n).map (o + ·) ++ rest.filter (o < ·)
      let s3 := engRead (landSo s2 a e (rd.so || (rs.map (·.so)).getD false)) a e c.part (ks.filterMap from_)
      let byte (k : Nat) : Byte × Bool := (x.given k).getD
        (readByte s3.mem ((from_ k).getD 0), anyPoison s3 ((from_ k).getD 0) 1)
      let cells : List Host.Cell := ks.flatMap fun k => (spread s a dv ((dst k).getD 0)).map fun d => (d, (byte k).1)
      let bad := (ks.filter fun k => (byte k).2).flatMap fun k => (spread s a dv ((dst k).getD 0)).map eccWord
      let sec : Sector :=
        { seq := c.seq, cells := cells, credit := n, off := o, poison := bad.eraseDups, bar := cmdBar s3 c,
          link := rd.link || (rs.map (·.link)).getD false, so := rd.so, tiles := c.tiles.map (·.2) }
      (pushSector s3 a e sec, o + n, 0, none)

/-- Send runs from `o` to `stop`. -/
def sendTo : Nat → State → Nat → Nat → Cmd → Nat → Nat → Source → Word → (Nat → Int) → Sent
  | 0, s, _, _, _, o, _, _, _, _ => (s, o, 0, none)
  | f + 1, s, a, e, c, o, stop, src, dv, doff =>
    if o ≥ stop then (s, o, 0, none)
    else
      let (s1, o1, st, va) := sendRun s a e c o stop src dv doff
      if st ≠ 0 then (s1, o, st, va) else sendTo f s1 a e c o1 stop src dv doff

/-- Credit a row that is not written (R300, R301). -/
def creditRow (s : State) (a e : Nat) (c : Cmd) (o n : Nat) : State :=
  pushSector s a e { seq := c.seq, cells := [], credit := n, off := o, bar := cmdBar s c }

/-- Set how far a command has sent. -/
def setSent (s : State) (a e o : Nat) : State := modEng s a e fun g => { g with queue := lmod g.queue 0 fun c => { c with sent := o } }

/-- Read the bytes of side `k` at offsets `off i` to `off (i + n - 1)`, with those in poisoned words; or the status and address met. -/
def readSpan (a e k : Nat) (c : Cmd) (v : Word) (off : Nat → Int) :
    Nat → Nat → State → State × Except (Nat × Option Word) (Nat × List Nat)
  | _, 0, s => (s, .ok (0, []))
  | i, n + 1, s =>
    let (s1, r) := resolve s a e k c v (off i)
    match r with
    | .error x => (s1, .error x)
    | .ok r =>
      let pa := (r.at_ (off i)).getD 0
      let s3 := if i = 0 || pa % 2 ^ 36 % r.block = 0 then engRead (landSo s1 a e r.so) a e c.part [pa] else markPoison s1 pa 1
      let (s4, m) := readSpan a e k c v off (i + 1) n s3
      (s4, m.map fun m => ((readByte s3.mem pa).toNat + 256 * m.1, if anyPoison s3 pa 1 then i :: m.2 else m.2))

/-! ## Gather and scatter -/

/-- Entry `k` of a batch of indices. -/
def idxOf (v : Nat) (wide : Bool) (k : Nat) : Nat := if wide then v / 2 ^ (16 * k) % 2 ^ 16 else v / 2 ^ (8 * k) % 2 ^ 8

/-- Count an out-of-range index (R287). -/
def countIndex (s : State) (a e : Nat) : State := modEng s a e fun g => { g with x := vmod 0 g.x 14 fun v => bumpCounts v false 1 }

/-- What the rows of a batch share: the command, its table's location with base row, count and pitch, the other side with its pitch,
and the bytes of a row. -/
structure RowsOf where
  c : Cmd
  table : Word
  tb : Nat
  tn : Nat
  tp : Int
  other : Word
  op : Int
  rowb : Nat

/-- Offset of byte `b` of table row `i`, and of the row `r` of the other side. -/
def RowsOf.toff (x : RowsOf) (i b : Nat) : Int := (x.tb + i : Nat) * x.tp + (b : Nat)
def RowsOf.ooff (x : RowsOf) (r b : Nat) : Int := (r : Nat) * x.op + (b : Nat)

/-- The address a row that cannot be sent whole has met, moved back to the row's first byte (R294, R298, R429). -/
def rowAddr (va : Option Word) (back : Nat) : Option Word := va.map fun v => v - BitVec.ofNat 64 back

/-- Rows of a batch as they have been read: index in the table, or number of the row, with its bytes and those in poisoned words. -/
abbrev RowsRead := List (Nat × Nat × List Nat)

/-- The read row an entry of a batch takes: a gather's by its index, a scatter's by its own number. -/
def rowKey (scatter : Bool) (y : Nat × Nat) : Nat := if scatter then y.1 else y.2

/-- Read the rows the entries of a batch take, each distinct one once and all before any is sent (R4, R298 to R300); an entry out of range
reads none. A row that cannot be read ends the reading: its entry's row with the status and address met. -/
def readRows (a e : Nat) (x : RowsOf) (scatter : Bool) : List (Nat × Nat) → RowsRead → State →
    State × RowsRead × Option (Nat × Nat × Option Word)
  | [], l, s => (s, l, none)
  | y :: t, l, s =>
    if y.2 ≥ x.tn || l.any (fun z => z.1 = rowKey scatter y) then readRows a e x scatter t l s
    else
      let (v, off) : Word × (Nat → Int) := if scatter then (x.other, x.ooff y.1) else (x.table, x.toff y.2)
      match readSpan a e 0 x.c v off 0 x.rowb s with
      | (s1, .error (st, va)) => (s1, l, some (y.1, st, va.map fun _ => vaAt v (off 0)))
      | (s1, .ok (w, bad)) => readRows a e x scatter t (l ++ [(rowKey scatter y, w, bad)]) s1

/-- The bytes of a batch whose rows below `stop` have been read: zeros for an entry of a gather out of range (R298). -/
def batchSource (x : RowsOf) (scatter : Bool) (rows : List (Nat × Nat)) (l : RowsRead) (stop : Nat) : Source :=
  let entry (k : Nat) : Option (Nat × Nat) := rows.find? fun y => y.1 = k / x.rowb && y.1 < stop
  let given (k : Nat) : Option (Byte × Bool) := (entry k).bind fun y =>
    if y.2 ≥ x.tn then (if scatter then none else some (0, false))
    else (l.find? fun z => z.1 = rowKey scatter y).map fun z =>
      (BitVec.ofNat 8 (z.2.1 / 2 ^ (8 * (k % x.rowb))), z.2.2.contains (k % x.rowb))
  { given := given, live := fun k => (given k).isSome, lim := stop * x.rowb, share := true }

/-- Where a byte of a batch goes: a gather's to its own row, a scatter's to the table row its entry names (R298, R300). -/
def batchDest (x : RowsOf) (scatter : Bool) (rows : List (Nat × Nat)) (k : Nat) : Int :=
  if scatter then x.toff (((rows.find? fun y => y.1 = k / x.rowb).map (·.2)).getD 0) (k % x.rowb) else x.ooff (k / x.rowb) (k % x.rowb)

/-- Send the rows of a batch from their bytes, each whole or not at all; an entry of a scatter out of range drops its row (R298, R300). -/
def sendRows (a e : Nat) (x : RowsOf) (scatter : Bool) (rows : List (Nat × Nat)) (src : Source) : List (Nat × Nat) → Nat → State → Sent
  | [], o, s => (s, o, 0, none)
  | (r, i) :: t, _, s =>
    let o := r * x.rowb
    let s0 := if i ≥ x.tn then countIndex s a e else s
    let (s1, o1, st, va) : Sent :=
      if scatter && i ≥ x.tn then (creditRow s0 a e x.c o x.rowb, o + x.rowb, 0, none)
      else sendTo x.rowb s0 a e x.c o (o + x.rowb) src (if scatter then x.table else x.other) (batchDest x scatter rows)
    if st ≠ 0 then (s, o, st, rowAddr va (o1 - o)) else sendRows a e x scatter rows src t o1 s1

/-- What a COPYG or COPYS works on. -/
def rowsOf (s : State) (c : Cmd) (scatter : Bool) : RowsOf :=
  let table := if scatter then c.rb else c.ra
  let (tb, tn, tp) := tableRows table (some (cmdView s c (locSlot table))) (cmdX c 4) (cmdX c (if scatter then 2 else 1)).toInt
  { c := c, table := table, tb := tb, tn := tn, tp := tp, other := if scatter then c.ra else c.rb,
    op := (cmdX c (if scatter then 1 else 2)).toInt, rowb := shapeRowb (cmdX c 0) }

/-- The batch under way: the one a halt has cut short, or the next one, whose indices are read together (R298, R299). -/
def batchOf (s : State) (a e : Nat) (c : Cmd) : State × Except (Nat × Option Word) Batch :=
  let q0 := c.sent / shapeRowb (cmdX c 0) / 8 * 8
  match c.batch with
  | some b => (s, .ok b)
  | none =>
    let n := Nat.min 8 (shapeRows (cmdX c 0) - q0)
    let wide := bitsOf c.word 9 6 % 2 = 1
    let w := if wide then 2 else 1
    let (s1, v) := readSpan a e 2 c (cmdX c 3) (fun k => ((q0 * w + k : Nat) : Int)) 0 (n * w) s
    (s1, v.map fun v => { first := q0, idx := (List.range n).map fun k => idxOf v.1 wide k })

/-- Keep or forget the batch of the head of a queue. -/
def setBatch (s : State) (a e : Nat) (b : Option Batch) : State :=
  modEng s a e fun g => { g with queue := lmod g.queue 0 fun c => { c with batch := b } }

/-! ### Ends and halts -/

/-- The index of an entry of a COPYG or COPYS, as its list stands. -/
def peekIndex (s : State) (a e : Nat) (c : Cmd) (r : Nat) : Option Nat :=
  match (batchOf s a e { c with sent := r * shapeRowb (cmdX c 0), batch := none }).2 with
  | .ok b => b.idx[r - b.first]?
  | .error _ => none

/-- Virtual address of command-order byte `o` on a side given by virtual address, the one read first; 0 where neither is (R429). A
gather names the row it writes and a scatter the row it reads, and the row of their table where that alone is virtual. -/
def cmdAddr (s : State) (a e : Nat) (c : Cmd) (o : Nat) : Word :=
  let rowb := shapeRowb (cmdX c 0)
  let src := vaAt c.ra (rowOff rowb (cmdX c 1).toInt o)
  let dst := vaAt c.rb (rowOff rowb (cmdX c 2).toInt o)
  if (c.op = 1 || c.op = 3 || c.op = 4) && locKind c.ra = 0 then src
  else if (c.op = 1 || c.op = 2 || c.op = 4 || c.op = 5) && locKind c.rb = 0 then dst
  else if c.op = 2 || c.op = 3 then
    let x := rowsOf s c (c.op = 3)
    if locKind x.table = 0 then ((peekIndex s a e c (o / rowb)).map fun i => vaAt x.table (x.toff i (o % rowb))).getD 0 else 0
  else 0

/-- A sector sent but not acknowledged when its link fails or its target refuses is wholly old or wholly new (R295): the state, and
whether it has landed. -/
def linkSector (s : State) (a e : Nat) (x : Sector) : State × Bool :=
  let (n, s1) := drawFree s
  if !x.link || Config.takeOpen n then (landSector s1 a e x, true) else (s1, false)

/-- What a command has on its way when its link fails: the state, and the first command-order byte of `o` and the sectors lost. -/
def linkSectors (a e : Nat) : List Sector → State → Nat → State × Nat
  | [], s, o => (s, o)
  | x :: t, s, o =>
    let (s1, k) := linkSector s a e x
    linkSectors a e t s1 (if k then o else Nat.min o x.off)

/-- LINK_DOWN and TARGET_FULL (R295): what the engine's earlier commands have on their way lands (R226, R239), what the command has lands
or is lost, and the barrier it selects is broken. The record names the first byte not moved. -/
def linkEnd (s : State) (a e st : Nat) (c : Cmd) (resume : Nat) (addr : Word) : State :=
  let fl := (engAt s a e).flight
  let s0 := (fl.filter fun x => x.seq ≠ c.seq).foldl (fun s x => landSector s a e x) (modEng s a e fun g => { g with flight := [] })
  let (s1, o) := linkSectors a e (fl.filter fun x => x.seq = c.seq) s0 resume
  engReport (cmdEnd (breakCmd s1 c) a e st c) a e (statusFault st) st c o (if o < resume then cmdAddr s a e c o else addr)

/-- A command meets a condition of R293 at a command-order offset; the address is that of the side that met it, where it is a
virtual one. -/
def cmdStop (s : State) (a e st o : Nat) (addr : Option Word) : State :=
  match (engAt s a e).queue.head? with
  | none => s
  | some c =>
    let va := addr.getD (cmdAddr s a e c o)
    if st = 2 || st = 3 then
      engReport (modEng s a e fun g => { g with
        halted := true, hcode := st, resume := o, queue := lmod g.queue 0 fun c => { c with pages := [] } }) a e 0x31 st c o va
    else if st = 6 || st = 7 then linkEnd s a e st c o va
    else engReport (cmdEnd s a e st c) a e 0x31 st c o va

/-- What a run or row leaves: its progress, and the halt or end it met. -/
def sendDone (r : Sent) (a e : Nat) : State :=
  let s1 := setSent r.1 a e r.2.1
  if r.2.2.1 ≠ 0 then cmdStop s1 a e r.2.2.1 r.2.1 r.2.2.2 else s1

/-- One batch of a COPYG or COPYS from its next row on: its rows are read, then written (R298 to R300). -/
def sendBatch (s : State) (a e : Nat) (c : Cmd) (scatter : Bool) : State :=
  let x := rowsOf s c scatter
  match batchOf s a e c with
  | (s1, .error (st, _)) => cmdStop s1 a e st c.sent none
  | (s1, .ok b) =>
    let rows := ((List.range b.idx.length).map (b.first + ·)).zip b.idx
    let left := rows.filter fun y => y.1 ≥ c.sent / x.rowb
    if bitsOf c.word 9 6 / 2 % 2 = 1 && left.any fun y => y.2 ≥ x.tn then cmdStop s1 a e 5 c.sent none
    else
      let (s2, l, f) := readRows a e x scatter left b.rows s1
      let stop := (f.map (·.1)).getD (b.first + b.idx.length)
      let (s3, o, st, va) := sendRows a e x scatter rows (batchSource x scatter rows l stop) (left.filter fun y => y.1 < stop) c.sent s2
      let r : Sent := match f with
        | some (_, st1, va1) => if st = 0 then (s3, o, st1, va1) else (s3, o, st, va)
        | none => (s3, o, st, va)
      sendDone (setBatch r.1 a e (if r.2.2.1 ≠ 0 then some { b with rows := l } else none), r.2) a e

/-! ## One step of a command -/

/-- The byte FILL writes at a command-order offset (R302). -/
def fillByte (c : Cmd) (rowb o : Nat) : Byte :=
  let w := 2 ^ bitsOf c.word 7 6
  BitVec.ofNat 8 (c.ra.toNat / 2 ^ (8 * (o % rowb % w)))

/-- Read mask bits ahead, eight rows a byte, up to those of row `rows - 1`; a byte that cannot be read ends the reading. -/
def readMask (a e : Nat) (c : Cmd) (rows : Nat) : Nat → List Nat → State → State × List Nat
  | 0, l, s => (s, l)
  | f + 1, l, s =>
    if l.length ≥ rows then (s, l)
    else match readSpan a e 2 c (cmdX c 5) (fun k => ((l.length / 8 + k : Nat) : Int)) 0 1 s with
      | (s1, .ok v) => readMask a e c rows f (l ++ (List.range 8).map fun k => v.1 / 2 ^ k % 2) s1
      | (_, .error _) => (s, l)

/-- Whether a unit of the destination of a command may lie in several of its rows (R291). -/
def rowsShare (s : State) (a : Nat) (c : Cmd) : Bool :=
  (locKind c.rb = 1 && (reachTile s a c c.rb).mixed) || shapeRowb (cmdX c 0) % 16 ≠ 0 || (cmdX c 2).toNat % 16 ≠ 0
    || (if locKind c.rb = 1 then locOff c.rb else c.rb.toNat) % 16 ≠ 0

/-- The mask bits a COPYM holds ahead of its rows: all it can read, where several rows may share a unit of its destination, so that
such a unit is written whole (R239, R301). -/
def maskAhead (s : State) (a e : Nat) (c : Cmd) : State × List Nat :=
  match c.batch with
  | some b => (s, b.idx)
  | none =>
    if rowsShare s a c then
      let rows := shapeRows (cmdX c 0)
      let (s1, l) := readMask a e c rows rows [] s
      (setBatch s1 a e (some { first := 0, idx := l }), l)
    else (s, [])

/-- One row of COPYM (R301): its mask bit is read before its source, and no source byte of a row masked off is read. -/
def sendMasked (s : State) (a e : Nat) (c : Cmd) : State :=
  let rowb := shapeRowb (cmdX c 0)
  let r := c.sent / rowb
  let stop := (r + 1) * rowb
  let (s0, ahead) := maskAhead s a e c
  let (s1, bit) : State × Except (Nat × Option Word) Nat := match ahead[r]? with
    | some b => (s0, .ok b)
    | none =>
      let (s1, v) := readSpan a e 2 c (cmdX c 5) (fun k => ((r / 8 + k : Nat) : Int)) 0 1 s0
      (s1, v.map fun v => v.1 / 2 ^ (r % 8) % 2)
  match bit with
  | .error (st, _) => cmdStop s1 a e st c.sent none
  | .ok b =>
    let zero := bitsOf c.word 9 6 % 2 = 1
    let on (k : Nat) : Option Nat := if k = r then some b else ahead[k]?
    let src : Source :=
      { loc := some (c.ra, rowOff rowb (cmdX c 1).toInt)
        given := fun k => if on (k / rowb) = some 0 then some (0, false) else none
        live := fun k => on (k / rowb) = some 1 || (zero && on (k / rowb) = some 0)
        lim := Nat.max ahead.length (r + 1) * rowb, share := true }
    if b = 0 && !zero then setSent (creditRow s1 a e c c.sent (stop - c.sent)) a e stop
    else sendDone (sendTo rowb s1 a e c c.sent stop src c.rb (rowOff rowb (cmdX c 2).toInt)) a e

/-- The engine translates the pages of its command's next bytes and sends their sector, row or batch (R291, R294); a side that has
become the residual tile ends the command (R263, R293). -/
def sendNext (s : State) (a e : Nat) (c : Cmd) : State :=
  let rowb := shapeRowb (cmdX c 0)
  let doff := rowOff rowb (cmdX c 2).toInt
  if sideResid s c then cmdStop s a e 8 c.sent none
  else match c.op with
    | 1 => sendDone (sendTo 1 s a e c c.sent (cmdBytes c)
        { loc := some (c.ra, rowOff rowb (cmdX c 1).toInt), lim := cmdBytes c } c.rb doff) a e
    | 2 => sendBatch s a e c false
    | 3 => sendBatch s a e c true
    | 4 => sendMasked s a e c
    | 5 => sendDone (sendTo 1 s a e c c.sent (cmdBytes c)
        { given := fun k => some (fillByte c rowb k, false), lim := cmdBytes c } c.rb doff) a e
    | _ => s

/-! ## Finishing the pages of a range -/

/-- Virtual address of the next byte of a command on side `k`, where the side's own order of bytes fixes it. -/
def nextVa (c : Cmd) (k : Nat) : Option Nat :=
  let rowb := shapeRowb (cmdX c 0)
  let src := if c.op = 1 || c.op = 3 || c.op = 4 then some c.ra else none
  let dst := if c.op = 1 || c.op = 2 || c.op = 4 || c.op = 5 then some c.rb else none
  ((if k = 0 then src else dst).filter fun v => locKind v = 0).map fun v =>
    (vaAt v (rowOff rowb (cmdX c (if k = 0 then 1 else 2)).toInt c.sent)).toNat

/-- Whether a command is in the middle of a page it translated that overlaps a range (R348 step 4). -/
def midPage (c : Cmd) (lo hi : Nat) : Bool :=
  c.started && c.sent < cmdBytes c && [0, 1].any fun k => match nextVa c k with
    | none => false
    | some va => match heldPage c k va with
      | none => false
      | some e => pageBase va (leafBytes e) < hi && lo < pageBase va (leafBytes e) + leafBytes e

/-- An engine finishes the sectors of the pages it translated that overlap a range, and translates them anew from then on (R348 step
4). -/
def finishPages (lo hi : Nat) : Nat → State → Nat → Nat → State
  | 0, s, a, e => landAll s a e
  | f + 1, s, a, e =>
    match (engAt s a e).queue with
    | [] => landAll s a e
    | c :: _ =>
      if !(engAt s a e).halted && midPage c lo hi then finishPages lo hi f (sendNext s a e c) a e
      else modEng (landAll s a e) a e fun g => { g with queue := lmod g.queue 0 fun c =>
        { c with pages := c.pages.filter fun x => !(x.2.1 < hi && lo < x.2.1 + leafBytes x.2.2) } }

/-- Bytes the head of a queue has still to send. -/
def bytesLeft (s : State) (a e : Nat) : Nat := (((engAt s a e).queue.head?).map cmdBytes).getD 0

end Sys2Proof.Machine
end

