-- ==== Sys2Proof/Machine/Inval.lean ====
section
/-! DEFINITION. Invalidation of a range of a partition's pages (R348), and SEAL and UNSEAL of pages (R352 to R354). -/

namespace Sys2Proof.Machine

/-- The page or span that holds an address: its base and its bytes (R348). -/
def spanAt (s : State) (p va : Nat) : Nat × Nat :=
  let n := match walkAny s p (BitVec.ofNat 64 va) with
    | .leaf e _ _ => leafBytes e
    | .fail _ l => l.span
  (pageBase va n, n)

/-- Where a range of consecutive pages ends; at the end of the canonical addresses if it would pass them (R348). -/
def rangeEnd (s : State) (p : Nat) : Nat → Nat → Nat
  | 0, va => va
  | k + 1, va =>
    if va ≥ 2 ^ 57 then 2 ^ 57
    else
      let (b, n) := spanAt s p va
      rangeEnd s p k (b + n)

/-- Whether a translation of `n` bytes at `base` overlaps a range. -/
def overlapsRange (lo hi base n : Nat) : Bool := lo < hi && base < hi && lo < base + n

/-- Whether a handle's page overlaps a range. -/
def handleIn (lo hi : Nat) (h : Handle) : Bool :=
  h.st = .valid && overlapsRange lo hi (pageBase h.va.toNat (leafBytes h.leaf)) (leafBytes h.leaf)

/-- TLB entries of a partition without those that overlap a range. -/
def dropTlb (l : List TlbEntry) (p lo hi : Nat) : List TlbEntry :=
  l.filter fun e => !(e.part = p && overlapsRange lo hi e.base (leafBytes e.leaf))

/-- Handles of a sequencer after step 2; h15 waits for its point (R348, R351). -/
def dropHandles (q : Seq) (lo hi : Nat) : Seq :=
  { q with
    h := (List.range 15).foldl (fun h i => vmod {} h i fun x => if handleIn lo hi x then { x with st := .invalid, leaf := 0, cause := 0 } else x) q.h
    codeInval := q.codeInval || handleIn lo hi (vget {} q.h 15)
    monInval := q.monInval || (q.mon && handleIn lo hi q.mhandle) }

/-- Write back and drop the lines of a partition in a range, in one array's cache. -/
def dropLines (s : State) (a p lo hi : Nat) : State :=
  let inside (l : CacheLine) : Bool := l.part = p && overlapsRange lo hi (192 * l.line) 192
  modArr (writeBackAll s a inside) a fun x => { x with cache := x.cache.filter fun l => !inside l }

/-- Whether a place lies in a page that overlaps a range. -/
def placeIn (lo hi : Nat) (pl : Place) : Bool := overlapsRange lo hi (pageBase pl.va.toNat (leafBytes pl.leaf)) (leafBytes pl.leaf)

/-- Whether array `a` is the top of a placement of partition `p`. -/
def topOf (s : State) (p a : Nat) : Bool := (seqAt s a).part = p && (arr s a).owner = some a

/-- Whether accumulates of a partition through pages that overlap a range are still to be accepted: an invalidation of the range completes
after them, since their homes may refuse them and they are sent again as they were (R260, R348 step 5; log 49). -/
def accsUnder (s : State) (p lo hi : Nat) : Bool :=
  (below 28 (topOf s p)).any (fun a => (seqAt s a).outs.any fun o => isAcc' o && o.hdl < 16 && placeIn lo hi o.pl)
    || s.accDue.any fun x => x.part = p && placeIn lo hi x.pl

/-- Whether the point of R351 is where array `a` stands: the bundle at its PC begins a line and has not been fetched, or is not in the
instruction cache, so that nothing is fetched from the old frame. -/
def codeFresh (s : State) (a : Nat) : Bool :=
  let q := seqAt s a
  (q.pc % 192 = 0 && !q.fetched && !(s.bun.pre.isSome && curA s = a)) || (bundleAt (arr s a) q.pc).isNone

/-- One array's part of an invalidation: accesses under way through a handle of the range complete to the old
frame, its engines finish the pages of the range they have translated, and then its handles and cache lose the range (R348). -/
def invalArray (s : State) (a p lo hi : Nat) : State :=
  let mine := topOf s p a
  let busy := mine && (seqAt s a).outs.any fun o => o.hdl < 16 && placeIn lo hi o.pl
  let s1 := if busy then drainAccesses s a else s
  let s2 := if mine then [0, 1, 2, 3].foldl (fun s e => finishPages lo hi (bytesLeft s a e) s a e) s1 else s1
  let s3 := dropLines (modSeq s2 a fun q => if mine then dropHandles q lo hi else q) a p lo hi
  if codeFresh s3 a then codePoint s3 a else s3

/-- Every array, victim and die TLB without the entries of a partition that overlap a range. -/
def dropTlbs (s : State) (p lo hi : Nat) : State :=
  { s with
    arrs := s.arrs.map fun x => { x with tlb := dropTlb x.tlb p lo hi, victim := dropTlb x.victim p lo hi }
    dieTlb := s.dieTlb.filterMap fun e =>
      let l := dropTlb e.2 p lo hi
      if l = [] then none else some (e.1, l) }

/-- Invalidate addresses `lo` to `hi - 1` of a partition in every array and die (R348). What the accesses that complete meanwhile have
walked is dropped again: such a walk waits for the end of a move (R341, R357). -/
def invalRange (s : State) (p lo hi : Nat) : State :=
  dropTlbs ((List.range 28).foldl (fun s a => invalArray s a p lo hi) (dropTlbs s p lo hi)) p lo hi

/-- Virtual addresses at which a range of pages is walked (R348). -/
def walkPages (s : State) (p : Nat) : Nat → Nat → List Nat
  | 0, _ => []
  | k + 1, va => if va ≥ 2 ^ 57 then [] else va :: walkPages s p k ((spanAt s p va).1 + (spanAt s p va).2)

/-- Flush the residual entries of a partition's arrays that lie in a frame (R357 step 2). -/
def flushFrame (s : State) (p old n : Nat) : State :=
  (below 28 (topOf s p)).foldl (fun s a =>
    match residOf s a with
    | none => s
    | some (base, m) => ((resValidList s base m).filter fun k =>
        let x := resPa (resAt s base k)
        old ≤ x && x < old + n).foldl (fun s k => resFlushOne s a base k) s) s

/-- Whether an invalidation of `n` pages from an address waits for accumulates (R260, R348). -/
def invalWaits (s : State) (p va n : Nat) : Bool :=
  (s.accDue ≠ [] || (below 28 (topOf s p)).any fun a => (seqAt s a).outs.any isAcc') && accsUnder s p va (rangeEnd s p n va)

/-- Frames of the pages of a range, P = 0 leaves included, by first byte and count. -/
def rangeFrames (s : State) (p n va : Nat) : List (Nat × Nat) :=
  (walkPages s p n va).filterMap fun x => match walkAny s p (BitVec.ofNat 64 x) with
    | .leaf e _ _ => some (ptePa e, leafBytes e)
    | .fail _ _ => none

/-- Frames that the TLBs and the handles of a partition name for pages of a range. -/
def heldFrames (s : State) (p lo hi : Nat) : List (Nat × Nat) :=
  let ofTlb (l : List TlbEntry) : List (Nat × Nat) :=
    (l.filter fun e => e.part = p && overlapsRange lo hi e.base (leafBytes e.leaf)).map fun e => (ptePa e.leaf, leafBytes e.leaf)
  (s.dieTlb.flatMap fun e => ofTlb e.2) ++ (List.range 28).flatMap fun a =>
    ofTlb ((arr s a).tlb ++ (arr s a).victim) ++
      (if topOf s p a then
        ((seqAt s a).h.toList.filter (handleIn lo hi)).map fun h => (ptePa h.leaf, leafBytes h.leaf) else [])

/-- Invalidate `n` consecutive pages from an address (R348). A refused addend that waits in a residual tile for a frame of the range was
issued under a removed translation and has not been performed (R350): it is delivered before completion (R354; log 75). -/
def invalidate (s : State) (p va n : Nat) : State :=
  let hi := rangeEnd s p n va
  let s1 := (walkPages s p n va).foldl (fun s x => walkTouch s p (BitVec.ofNat 64 x)) s
  (rangeFrames s p n va ++ heldFrames s p va hi).eraseDups.foldl (fun s f => flushFrame s p f.1 f.2) (invalRange s1 p va hi)

/-! ## Sealing -/

/-- Whether a frame lies in a registered reduction window of a partition (R352). -/
def inWindow (s : State) (p pa n : Nat) : Bool :=
  (List.range 16).any fun i => windowHit s (vget 0 (partAt s p).redwin i) pa n

/-- The checks of R352, page by page: the leaves with their addresses, or the status and value of rd. -/
def sealPages (s : State) (p : Nat) : Nat → Nat → Nat → Except (Nat × Nat) (List (Nat × Word))
  | 0, _, _ => .ok []
  | k + 1, i, va =>
    match walk s p (BitVec.ofNat 64 va) with
    | .fail c _ => .error (2, c + 16 * i)
    | .leaf e at_ _ =>
      if i = 0 && pageBase va (leafBytes e) ≠ va then .error (1, 0)
      else if !pteW e || pteLoc e ≠ 0 || inWindow s p (ptePa e) (leafBytes e) then .error (3, i)
      else match sealPages s p k (i + 1) (pageBase va (leafBytes e) + leafBytes e) with
        | .error x => .error x
        | .ok l => .ok ((at_, e) :: l)

/-- Set or clear SEALED in a list of leaves (R353). -/
def setSealed (s : State) (p : Nat) (on : Bool) : List (Nat × Word) → State
  | [] => s
  | (a, e) :: t => setSealed (homeBytes s p a 8 (setBit e 7 on).toNat) p on t

/-- SEAL or UNSEAL of pages by an array whose release has been done (R353, R354): the state and the value of rd. Every page is checked
before any is changed; the entries changed are written in their slices (R210, R352). -/
def sealRange (s : State) (p : Nat) (va n : Nat) (on : Bool) : State × Word :=
  if n = 0 || n > 4096 then (s, BitVec.ofNat 64 (2 ^ 32))
  else
    let u := (walkPages s p n va).foldl (fun s x => walkTouch s p (BitVec.ofNat 64 x)) s
    match sealPages s p n 0 va with
    | .error (st, v) => (u, BitVec.ofNat 64 (st * 2 ^ 32 + v))
    | .ok l => (invalidate (setSealed u p on l) p va n, 0)

end Sys2Proof.Machine
end

