-- ==== Sys2Proof/Machine/Launch.lean ====
section
/-! DEFINITION. Launch records (R315), the checks made of them at acceptance (R316), and the acceptance of a task (R24, R361). -/

namespace Sys2Proof.Machine

/-- Chain length of a launch record. -/
def recLen (r : BitVec 512) : Nat := 2 ^ bitsOf r 9 8

/-- Named group ids of a record. -/
def recNamed (r : BitVec 512) : List Nat := [bitsOf r 47 40, bitsOf r 55 48, bitsOf r 63 56].filter fun g => g ≠ 0xFF

/-- Whether no number stands twice in a list. -/
def noDup : List Nat → Bool
  | [] => true
  | x :: t => !t.contains x && noDup t

/-- Whether a record is refused before its argument block is read (R316). -/
def recBad (s : State) (p : Nat) (r : BitVec 512) (dev : Bool) : Bool :=
  bitsOf r 7 0 ≠ 1 || bitsOf r 15 13 ≠ 0 || bitsOf r 39 32 ≠ 0 || bitsOf r 127 121 ≠ 0 || bitsOf r 191 185 ≠ 0
    || bitsOf r 319 313 ≠ 0 || bitsOf r 383 378 ≠ 0
    || (recNamed r).any (fun g => g = 0 || !groupIn s p g) || !noDup (recNamed r)
    || (dev && [399, 415, 431, 447].any fun i => r.getLsbD i)

/-- Slots a record binds. -/
def recSlots (r : BitVec 512) : List Nat := below 64 fun n => r.getLsbD (448 + n)

/-- Argument words and bindings of an argument block (R315); `none` where a reserved field is not zero. -/
def readArgs (r : BitVec 512) (v : Nat) : Option (List Word × List (Nat × Nat)) :=
  let b := BitVec.ofNat 1536 v
  let binds := (recSlots r).map fun n => (n, bitsOf b (512 + 16 * n + 15) (512 + 16 * n))
  if binds.any fun x => x.2 ≥ 2 ^ 14 then none
  else some ((List.range 8).map fun k => BitVec.ofNat 64 (bitsOf b (64 * k + 63) (64 * k)), binds)

/-- The record and its argument block as R316 reads them; `none` is BADREC. -/
def readRecord (s : State) (p : Nat) (r : BitVec 512) (dev : Bool) : Option (List Word × List (Nat × Nat)) :=
  if recBad s p r dev then none
  else match virtRead s p (bitsOf r 184 128) 24 with
    | none => none
    | some v => readArgs r v

/-- Whether earlier accesses of array `a` come before reading the argument block of a record (R226, R242, R326). -/
def argsBlocked (s : State) (a p : Nat) (r : BitVec 512) : Bool := !recBad s p r true && virtBlocked s a p (bitsOf r 184 128) 192

/-- What reading the argument block of a record does beside giving it (R210, R316, R424). -/
def recordMeet (s : State) (p : Nat) (r : BitVec 512) (dev : Bool) : State :=
  if recBad s p r dev then s else virtMeet s p (bitsOf r 184 128) 192

/-- Whether BINDS of a tile counts the slots of tasks of partition `p`: its entry is not FREE, and that partition's (R361). -/
def countsBinds (s : State) (p n : Nat) : Bool := (tileAt s n).st ≠ .free && (tileAt s n).part = p

/-- An accepted record binds its tiles: BINDS rises and PERSIST is 1 (R361). -/
def bindTiles (s : State) (p : Nat) (l : List Nat) : State :=
  l.foldl (fun s n => modTile s n fun t =>
    if t.st ≠ .free && t.part = p then { t with binds := t.binds + 1, persist := true } else t) s

/-- Accept a launch: a journal entry, the task QUEUED (and READY at once where no XFER is awaited), and its TASKID (R24, R312,
R326). -/
def acceptTask (s : State) (p queue : Nat) (cookie : BitVec 32) (ref : Word) (r : BitVec 512) (args : List Word)
    (binds : List (Nat × Nat)) (deps : List Nat) : State × Nat :=
  let x := partAt s p
  let tid := x.nextTid.toNat
  let jseq := x.jtail.toNat
  let s1 := journalNew s p queue 1 jAccepted ref.toNat tid cookie.toNat 0
  let s2 := bindTiles (modPart s1 p fun x => { x with nextTid := x.nextTid + 1 }) p (binds.map (·.2))
  let task : Task :=
    { part := p, tid := tid, jseq := jseq, queue := queue, cookie := cookie, ref := ref, lrec := r, args := args, binds := binds,
      counted := (binds.map (·.2)).filter (countsBinds s p), st := if deps = [] then .ready else .queued, queuedAt := s.cyc, waitFrom := s.cyc, deps := deps }
  ({ s2 with tasks := s2.tasks ++ [task] }, tid)

/-- Records a device launch queue holds (R326). -/
def dlqSize : Nat := 1024

/-- Steps 4 and 5 of R326: the state and the value of rd. -/
def deviceLaunch (s0 : State) (p : Nat) (ref : Word) (r : BitVec 512) : State × Word :=
  let s := recordMeet s0 p r true
  match readRecord s0 p r true with
  | none => (s, BitVec.ofNat 64 (2 * 2 ^ 32))
  | some (args, binds) =>
    if (partAt s p).dlq.length ≥ dlqSize || jFull s p then (s, BitVec.ofNat 64 (2 ^ 32))
    else
      let jseq := (partAt s p).jtail.toNat
      let (s1, tid) := acceptTask s p 256 0 ref r args binds []
      (modPart s1 p fun x => { x with dlq := x.dlq ++ [jseq] }, BitVec.ofNat 64 tid)

end Sys2Proof.Machine
end

