-- ==== Sys2Proof/Machine/ScAlu.lean ====
section
/-! DEFINITION. The integer functions, immediates, constants, compares, predicate logic and SEL of the SC slot (R115 to R123), with
the latencies of R111. -/

namespace Sys2Proof.Machine

/-- A .W form acts on the low halves and sign-extends its 32-bit result (R118). -/
def wForm (w : Bool) (f : (n : Nat) → BitVec n → BitVec n → BitVec n) (x y : Word) : Word :=
  if w then (f 32 (x.setWidth 32) (y.setWidth 32)).signExtend 64 else f 64 x y

/-- The shift amount: the low 5 or 6 bits (R116, R118). -/
def shAmt {n : Nat} (y : BitVec n) : Nat := y.toNat % n

/-- A two-source function (R116). -/
def alu2 (s : State) (p : BitVec 3) (d a b : BitVec 5) (l : Nat) (f : Word → Word → Word) : State :=
  slotOp s p.toNat [a.toNat, b.toNat] [d.toNat] fun s => result s d.toNat (f (reg s a.toNat) (reg s b.toNat)) l

/-- A one-source function (R116). -/
def alu1 (s : State) (p : BitVec 3) (d a : BitVec 5) (f : Word → Word) : State :=
  slotOp s p.toNat [a.toNat] [d.toNat] fun s => result s d.toNat (f (reg s a.toNat)) 1

/-- An immediate form: imm12 sign-extended (R119). -/
def aluImm (s : State) (p : BitVec 3) (d a : BitVec 5) (i : BitVec 12) (l : Nat) (f : Word → Word → Word) : State :=
  slotOp s p.toNat [a.toNat] [d.toNat] fun s => result s d.toNat (f (reg s a.toNat) (i.signExtend 64)) l

/-- Quotient and remainder of R117. -/
def divS {n : Nat} (x y : BitVec n) : BitVec n :=
  if y = 0 then BitVec.allOnes n else BitVec.ofInt n (tdivI x.toInt y.toInt)
def divU {n : Nat} (x y : BitVec n) : BitVec n := if y = 0 then BitVec.allOnes n else BitVec.ofNat n (x.toNat / y.toNat)
def remS {n : Nat} (x y : BitVec n) : BitVec n :=
  if y = 0 then x else BitVec.ofInt n (x.toInt - tdivI x.toInt y.toInt * y.toInt)
def remU {n : Nat} (x y : BitVec n) : BitVec n := if y = 0 then x else BitVec.ofNat n (x.toNat % y.toNat)

/-- Signed and unsigned minimum and maximum (R116). -/
def minS {n : Nat} (x y : BitVec n) : BitVec n := if x.toInt ≤ y.toInt then x else y
def maxS {n : Nat} (x y : BitVec n) : BitVec n := if x.toInt ≤ y.toInt then y else x
def minU {n : Nat} (x y : BitVec n) : BitVec n := if x.toNat ≤ y.toNat then x else y
def maxU {n : Nat} (x y : BitVec n) : BitVec n := if x.toNat ≤ y.toNat then y else x

/-- A divide: it stalls while the divider is busy, and keeps it busy for 34 cycles (R111). -/
def divide (s : State) (p : BitVec 3) (d a b : BitVec 5) (f : Word → Word → Word) : State :=
  slotOp s p.toNat [a.toNat, b.toNat] [d.toNat] fun s =>
    if s.cyc < (curSeq s).divBusy then block s
    else modCur (result s d.toNat (f (reg s a.toNat) (reg s b.toNat)) 34) fun q => { q with divBusy := s.cyc + 34 }

/-- A compare writes a predicate; a write to b0 is discarded (R121, R101). -/
def compare2 (s : State) (p d : BitVec 3) (a b : BitVec 5) (f : Word → Word → Bool) : State :=
  slotOp s p.toNat [a.toNat, b.toNat] [] fun s => setPred s d.toNat (f (reg s a.toNat) (reg s b.toNat))

/-- A compare with an immediate (R121). -/
def compareImm (s : State) (p d : BitVec 3) (a : BitVec 5) (i : BitVec 12) (f : Word → Word → Bool) : State :=
  slotOp s p.toNat [a.toNat] [] fun s => setPred s d.toNat (f (reg s a.toNat) (i.signExtend 64))

/-- Predicate logic (R122). -/
def blog (s : State) (p d : BitVec 3) (f : State → Bool) : State := slotOp s p.toNat [] [] fun s => setPred s d.toNat (f s)

/-- ADD: rd := ra + rb (R116, R118). -/
def execAdd (p : BitVec 3) (d a b : BitVec 5) (w : Bool) (s : State) : MOut :=
  .next (alu2 s p d a b 1 (wForm w fun _ x y => x + y))

/-- SUB: rd := ra − rb (R116, R118). -/
def execSub (p : BitVec 3) (d a b : BitVec 5) (w : Bool) (s : State) : MOut :=
  .next (alu2 s p d a b 1 (wForm w fun _ x y => x - y))

/-- AND (R116). -/
def execAnd (p : BitVec 3) (d a b : BitVec 5) (s : State) : MOut := .next (alu2 s p d a b 1 fun x y => x &&& y)

/-- OR (R116). -/
def execOr (p : BitVec 3) (d a b : BitVec 5) (s : State) : MOut := .next (alu2 s p d a b 1 fun x y => x ||| y)

/-- XOR (R116). -/
def execXor (p : BitVec 3) (d a b : BitVec 5) (s : State) : MOut := .next (alu2 s p d a b 1 fun x y => x ^^^ y)

/-- ANDN: ra AND NOT rb (R116). -/
def execAndn (p : BitVec 3) (d a b : BitVec 5) (s : State) : MOut := .next (alu2 s p d a b 1 fun x y => x &&& ~~~y)

/-- SHL: left with zero fill (R116, R118). -/
def execShl (p : BitVec 3) (d a b : BitVec 5) (w : Bool) (s : State) : MOut :=
  .next (alu2 s p d a b 1 (wForm w fun _ x y => x <<< shAmt y))

/-- SHR: right with zero fill (R116, R118). -/
def execShr (p : BitVec 3) (d a b : BitVec 5) (w : Bool) (s : State) : MOut :=
  .next (alu2 s p d a b 1 (wForm w fun _ x y => x >>> shAmt y))

/-- SRA: right with sign fill (R116, R118). -/
def execSra (p : BitVec 3) (d a b : BitVec 5) (w : Bool) (s : State) : MOut :=
  .next (alu2 s p d a b 1 (wForm w fun _ x y => x.sshiftRight (shAmt y)))

/-- ROT: left (R116, R118). -/
def execRot (p : BitVec 3) (d a b : BitVec 5) (w : Bool) (s : State) : MOut :=
  .next (alu2 s p d a b 1 (wForm w fun _ x y => x.rotateLeft (shAmt y)))

/-- MIN, signed (R116, R118). -/
def execMin (p : BitVec 3) (d a b : BitVec 5) (w : Bool) (s : State) : MOut :=
  .next (alu2 s p d a b 1 (wForm w fun _ x y => minS x y))

/-- MAX, signed (R116, R118). -/
def execMax (p : BitVec 3) (d a b : BitVec 5) (w : Bool) (s : State) : MOut :=
  .next (alu2 s p d a b 1 (wForm w fun _ x y => maxS x y))

/-- MINN, unsigned (R116, R118). -/
def execMinn (p : BitVec 3) (d a b : BitVec 5) (w : Bool) (s : State) : MOut :=
  .next (alu2 s p d a b 1 (wForm w fun _ x y => minU x y))

/-- MAXN, unsigned (R116, R118). -/
def execMaxn (p : BitVec 3) (d a b : BitVec 5) (w : Bool) (s : State) : MOut :=
  .next (alu2 s p d a b 1 (wForm w fun _ x y => maxU x y))

/-- MUL: low half of the product (R116, R118), latency 3 (R111). -/
def execMul (p : BitVec 3) (d a b : BitVec 5) (w : Bool) (s : State) : MOut :=
  .next (alu2 s p d a b 3 (wForm w fun _ x y => x * y))

/-- MULH: high half of the signed product (R116). -/
def execMulh (p : BitVec 3) (d a b : BitVec 5) (s : State) : MOut := .next (alu2 s p d a b 3 fun x y => BitVec.ofInt 64 (x.toInt * y.toInt / 2 ^ 64))

/-- MULHN: high half of the unsigned product (R116). -/
def execMulhn (p : BitVec 3) (d a b : BitVec 5) (s : State) : MOut := .next (alu2 s p d a b 3 fun x y => BitVec.ofNat 64 (x.toNat * y.toNat / 2 ^ 64))

/-- DIV (R117). -/
def execDiv (p : BitVec 3) (d a b : BitVec 5) (w : Bool) (s : State) : MOut :=
  .next (divide s p d a b (wForm w fun _ x y => divS x y))

/-- DIVN (R117). -/
def execDivn (p : BitVec 3) (d a b : BitVec 5) (w : Bool) (s : State) : MOut :=
  .next (divide s p d a b (wForm w fun _ x y => divU x y))

/-- REM (R117). -/
def execRem (p : BitVec 3) (d a b : BitVec 5) (w : Bool) (s : State) : MOut :=
  .next (divide s p d a b (wForm w fun _ x y => remS x y))

/-- REMN (R117). -/
def execRemn (p : BitVec 3) (d a b : BitVec 5) (w : Bool) (s : State) : MOut :=
  .next (divide s p d a b (wForm w fun _ x y => remU x y))

/-- CLZ: leading zeros (R116, R118). -/
def execClz (p : BitVec 3) (d a : BitVec 5) (w : Bool) (s : State) : MOut :=
  .next (alu1 s p d a fun x => BitVec.ofNat 64 (if w then clzOf (x.setWidth 32) else clzOf x))

/-- POPC: one bits (R116, R118). -/
def execPopc (p : BitVec 3) (d a : BitVec 5) (w : Bool) (s : State) : MOut :=
  .next (alu1 s p d a fun x => BitVec.ofNat 64 (if w then popc (x.setWidth 32) else popc x))

/-- SEXT: the low 8, 16 or 32 bits sign-extended (R116). -/
def execSext (p : BitVec 3) (d a : BitVec 5) (c : BitVec 5) (s : State) : MOut :=
  .next (alu1 s p d a fun x => (x.setWidth (2 ^ (3 + c.toNat))).signExtend 64)

/-- ZEXT: the low 8, 16 or 32 bits zero-extended (R116). -/
def execZext (p : BitVec 3) (d a : BitVec 5) (c : BitVec 5) (s : State) : MOut :=
  .next (alu1 s p d a fun x => (x.setWidth (2 ^ (3 + c.toNat))).setWidth 64)

/-- ADDI (R119). -/
def execAddi (p : BitVec 3) (d a : BitVec 5) (i : BitVec 12) (s : State) : MOut := .next (aluImm s p d a i 1 fun x y => x + y)

/-- ANDI (R119). -/
def execAndi (p : BitVec 3) (d a : BitVec 5) (i : BitVec 12) (s : State) : MOut := .next (aluImm s p d a i 1 fun x y => x &&& y)

/-- ORI (R119). -/
def execOri (p : BitVec 3) (d a : BitVec 5) (i : BitVec 12) (s : State) : MOut := .next (aluImm s p d a i 1 fun x y => x ||| y)

/-- XORI (R119). -/
def execXori (p : BitVec 3) (d a : BitVec 5) (i : BitVec 12) (s : State) : MOut := .next (aluImm s p d a i 1 fun x y => x ^^^ y)

/-- SHLI (R119). -/
def execShli (p : BitVec 3) (d a : BitVec 5) (i : BitVec 12) (s : State) : MOut := .next (aluImm s p d a i 1 fun x y => x <<< y.toNat)

/-- SHRI (R119). -/
def execShri (p : BitVec 3) (d a : BitVec 5) (i : BitVec 12) (s : State) : MOut := .next (aluImm s p d a i 1 fun x y => x >>> y.toNat)

/-- SRAI (R119). -/
def execSrai (p : BitVec 3) (d a : BitVec 5) (i : BitVec 12) (s : State) : MOut := .next (aluImm s p d a i 1 fun x y => x.sshiftRight y.toNat)

/-- MULI (R119). -/
def execMuli (p : BitVec 3) (d a : BitVec 5) (i : BitVec 12) (s : State) : MOut := .next (aluImm s p d a i 3 fun x y => x * y)

/-- MINI (R119). -/
def execMini (p : BitVec 3) (d a : BitVec 5) (i : BitVec 12) (s : State) : MOut := .next (aluImm s p d a i 1 fun x y => minS x y)

/-- MAXI (R119). -/
def execMaxi (p : BitVec 3) (d a : BitVec 5) (i : BitVec 12) (s : State) : MOut := .next (aluImm s p d a i 1 fun x y => maxS x y)

/-- LI: rd := SEXT(imm17) (R120). -/
def execLi (p : BitVec 3) (d : BitVec 5) (i : BitVec 17) (s : State) : MOut :=
  .next (slotOp s p.toNat [] [d.toNat] fun s => result s d.toNat (i.signExtend 64) 1)

/-- LUI: rd := (rd << 17) OR imm17 (R120). -/
def execLui (p : BitVec 3) (d : BitVec 5) (i : BitVec 17) (s : State) : MOut :=
  .next (slotOp s p.toNat [d.toNat] [d.toNat] fun s =>
    result s d.toNat ((reg s d.toNat <<< 17) ||| i.setWidth 64) 1)

/-- CMP.EQ (R121). -/
def execCmpEq (p d : BitVec 3) (a b : BitVec 5) (s : State) : MOut := .next (compare2 s p d a b fun x y => x = y)

/-- CMP.NE (R121). -/
def execCmpNe (p d : BitVec 3) (a b : BitVec 5) (s : State) : MOut := .next (compare2 s p d a b fun x y => x ≠ y)

/-- CMP.LT (R121). -/
def execCmpLt (p d : BitVec 3) (a b : BitVec 5) (s : State) : MOut := .next (compare2 s p d a b fun x y => x.toInt < y.toInt)

/-- CMP.LE (R121). -/
def execCmpLe (p d : BitVec 3) (a b : BitVec 5) (s : State) : MOut := .next (compare2 s p d a b fun x y => x.toInt ≤ y.toInt)

/-- CMP.LTN (R121). -/
def execCmpLtn (p d : BitVec 3) (a b : BitVec 5) (s : State) : MOut := .next (compare2 s p d a b fun x y => x.toNat < y.toNat)

/-- CMP.LEN (R121). -/
def execCmpLen (p d : BitVec 3) (a b : BitVec 5) (s : State) : MOut := .next (compare2 s p d a b fun x y => x.toNat ≤ y.toNat)

/-- CMPI.EQ (R121). -/
def execCmpiEq (p d : BitVec 3) (a : BitVec 5) (i : BitVec 12) (s : State) : MOut := .next (compareImm s p d a i fun x y => x = y)

/-- CMPI.LT (R121). -/
def execCmpiLt (p d : BitVec 3) (a : BitVec 5) (i : BitVec 12) (s : State) : MOut := .next (compareImm s p d a i fun x y => x.toInt < y.toInt)

/-- CMPI.LTN (R121). -/
def execCmpiLtn (p d : BitVec 3) (a : BitVec 5) (i : BitVec 12) (s : State) : MOut := .next (compareImm s p d a i fun x y => x.toNat < y.toNat)

/-- BAND (R122). -/
def execBand (p d a b : BitVec 3) (s : State) : MOut := .next (blog s p d fun s => pred s a.toNat && pred s b.toNat)

/-- BOR (R122). -/
def execBor (p d a b : BitVec 3) (s : State) : MOut := .next (blog s p d fun s => pred s a.toNat || pred s b.toNat)

/-- BXOR (R122). -/
def execBxor (p d a b : BitVec 3) (s : State) : MOut := .next (blog s p d fun s => pred s a.toNat != pred s b.toNat)

/-- BANDN (R122). -/
def execBandn (p d a b : BitVec 3) (s : State) : MOut := .next (blog s p d fun s => pred s a.toNat && !pred s b.toNat)

/-- BMOV (R122). -/
def execBmov (p d a : BitVec 3) (s : State) : MOut := .next (blog s p d fun s => pred s a.toNat)

/-- SEL: rd := ra if the selecting predicate is true, and rb otherwise (R123). -/
def execSel (p : BitVec 3) (d a b : BitVec 5) (c : BitVec 3) (s : State) : MOut :=
  .next (slotOp s p.toNat [a.toNat, b.toNat] [d.toNat] fun s =>
    result s d.toNat (if pred s c.toNat then reg s a.toNat else reg s b.toNat) 1)

/-- NOP does nothing in any slot (R40). -/
def execNop (s : State) : MOut := .next s

end Sys2Proof.Machine
end

