-- ==== Sys2Proof/Machine/ScCtl.lean ====
section
/-! DEFINITION. Control flow, hardware loops, control registers, selector pairs, aggregates, MARK, PAUSE, WAIT, TEND, TRAP and ERET
(R105 to R110, R124 to R134, R158, R182, R411, R422, R435 to R438, R447). -/

namespace Sys2Proof.Machine

/-! ## Control flow -/

/-- Target of an SB branch, modulo 2^32 so that one before the page lies far outside it (R39, R124). -/
def branchTarget (pc : Nat) (o : BitVec 22) : Nat := (((pc : Int) + 24 * o.toInt) % 2 ^ 32).toNat

/-- The next bundle is at a target, after the bubbles of R114; a pending invalidation of the code handle takes effect (R351). -/
def jumpTo (s : State) (t bubble : Nat) : State :=
  codePoint (holdUntil (modCur s fun q => { q with npc := t }) (s.cyc + bubble)) (curA s)

/-- BR: PC := target when the condition predicate is true (R124). -/
def execBr (p : BitVec 3) (o : BitVec 22) (s : State) : MOut :=
  .next (slotOp s p.toNat [] [] fun s => jumpTo s (branchTarget (curSeq s).pc o) 3)

/-- J (R124). -/
def execJ (o : BitVec 22) (s : State) : MOut := .next (jumpTo s (branchTarget (curSeq s).pc o) 3)

/-- JAL: s31 := PC + 24, PC := target (R124). -/
def execJal (p : BitVec 3) (o : BitVec 22) (s : State) : MOut :=
  .next (slotOp s p.toNat [] [31] fun s =>
    jumpTo (result s 31 (BitVec.ofNat 64 ((curSeq s).pc + 24)) 1) (branchTarget (curSeq s).pc o) 3)

/-- JR: the target is read before the link is written; one that is not a multiple of 24 raises MISALIGNED (R39, R124). -/
def execJr (p : BitVec 3) (d a : BitVec 5) (s : State) : MOut :=
  .next (slotOp s p.toNat [a.toNat] [d.toNat] fun s =>
    let t := reg s a.toNat
    if t.toNat % 24 ≠ 0 then raise s (faultD s 0x14 t)
    else jumpTo (result s d.toNat (BitVec.ofNat 64 ((curSeq s).pc + 24)) 1) t.toNat 4)

/-! ## Hardware loops -/

/-- START and LAST of a bounds register (R108). -/
def lbStart (x : Word) : Nat := bitsOf x 31 0
def lbLast (x : Word) : Nat := bitsOf x 63 32

/-- A bounds register. -/
def lbOf (start last : Nat) : Word := BitVec.ofNat 64 (start % 2 ^ 32 + last % 2 ^ 32 * 2 ^ 32)

/-- Stage count and iteration of LSTG (R108). -/
def stgS (x : Word) : Nat := bitsOf x 2 0
def stgI (x : Word) : Nat := bitsOf x 39 8

/-- b4 to b(3 + S) become `f j`. -/
def stagePreds (b : Vector Bool 8) (n : Nat) (f : Nat → Bool) : Vector Bool 8 :=
  (List.range n).foldl (fun b j => vset b (4 + j) (f j)) b

/-- A staged loop ends as its last iteration would end it (R126, R127). -/
def endStaged (q : Seq) : Seq := { q with b := stagePreds q.b (stgS q.lstg) fun _ => false, lstg := 0 }

/-- The predicates of iteration `i`, with the trip count recomputed from LC0 (R127, R129). -/
def beginIter (q : Seq) (i : Nat) : Seq :=
  let S := stgS q.lstg
  let n : Int := (q.lc0.toNat : Int) + i - S + 1
  { q with b := stagePreds q.b S fun j => j ≤ i && decide ((i : Int) < n + j), lstg := setBits q.lstg 39 8 i }

/-- The body of a level 1 loop lies wholly within that of level 0 (R126). -/
def nested (q : Seq) (start last : Nat) : Bool := lbStart q.lb0 ≤ start && last ≤ lbLast q.lb0

/-- LOOP (R125, R126). -/
def execLoop (p : BitVec 3) (l : Bool) (a : BitVec 5) (i : BitVec 12) (s : State) : MOut :=
  .next (slotOp s p.toNat [a.toNat] [] fun s =>
    let n := bitsOf (reg s a.toNat) 31 0
    let pc := (curSeq s).pc
    let start := pc + 24
    let last := pc + 24 * i.toNat
    let next := if n = 0 then last + 24 else pc + 24
    if l && (curSeq s).lc0 ≠ 0 && !nested (curSeq s) start last then raise s (faultW s 0x01 (.loop p l a i))
    else modCur s fun q =>
      if l then { q with lb1 := lbOf start last, lc1 := BitVec.ofNat 64 n, npc := next }
      else { endStaged q with lb0 := lbOf start last, lc0 := BitVec.ofNat 64 n, lc1 := 0, npc := next })

/-- LOOPS: a staged loop on level 0 (R125, R127). -/
def execLoops (p : BitVec 3) (c : BitVec 3) (a : BitVec 5) (i : BitVec 12) (s : State) : MOut :=
  .next (slotOp s p.toNat [a.toNat] [] fun s =>
    let n := bitsOf (reg s a.toNat) 31 0
    modCur s fun q =>
      let q1 := { q with lb0 := lbOf (q.pc + 24) (q.pc + 24 * i.toNat), lc1 := 0, b := stagePreds q.b 4 fun _ => false }
      if n = 0 then { q1 with lc0 := 0, lstg := 0, npc := q.pc + 24 * i.toNat + 24 }
      else beginIter { q1 with lc0 := BitVec.ofNat 64 (n + c.toNat - 1), lstg := BitVec.ofNat 64 c.toNat, npc := q.pc + 24 } 0)

/-- The end of an iteration at the issue of a bundle that is the last of an active level (R126, R127): level 1 first, then level 0
unless level 1 looped back. -/
def loopEnd (q : Seq) : Seq :=
  if q.mon then q
  else
    let at1 := q.pc % 2 ^ 32 = lbLast q.lb1 && q.lc1 ≠ 0
    let q1 := if at1 then { q with lc1 := q.lc1 - 1, npc := if q.lc1 ≠ 1 then lbStart q.lb1 else q.npc } else q
    if at1 && q1.lc1 ≠ 0 then q1
    else if q.pc % 2 ^ 32 = lbLast q.lb0 && q.lc0 ≠ 0 then
      let q2 := { q1 with lc0 := q1.lc0 - 1 }
      if q2.lc0 ≠ 0 then
        let q3 := { q2 with npc := lbStart q.lb0 }
        if stgS q3.lstg ≠ 0 then beginIter q3 (stgI q3.lstg + 1) else q3
      else if stgS q2.lstg ≠ 0 then endStaged q2 else q2
    else q1

/-- Whether the bundle at the PC is the last of an active level (R128). -/
def isLoopLast (q : Seq) : Bool :=
  !q.mon && ((q.pc % 2 ^ 32 = lbLast q.lb1 && q.lc1 ≠ 0) || (q.pc % 2 ^ 32 = lbLast q.lb0 && q.lc0 ≠ 0))

/-! ## MARK, PAUSE, WAIT, TEND, TRAP, ERET -/

/-- MARK: the gated entries leave, and a new region opens at it (R438); nothing in the monitor (R434). -/
def execMark (p : BitVec 3) (s : State) : MOut :=
  .next (slotOp s p.toNat [] [] fun s =>
    if (curSeq s).mon then s else withGate s fun s => openRegion s (curA s) (curSeq s).pc true)

/-- PAUSE: the next bundle issues no earlier than t + 1 + n (R422). -/
def execPause (p : BitVec 3) (i : BitVec 17) (s : State) : MOut :=
  .next (slotOp s p.toNat [] [] fun s => modCur s fun q => { q with stop := .pause (s.cyc + 1 + i.toNat) })

/-- WAIT: the bundle is held until every counter is at or below its field (R412); UN accesses from there on follow what has left the
counters (R230). -/
def execWait (p : BitVec 3) (l t : BitVec 5) (c f : BitVec 6) (s : State) : MOut :=
  .next (slotOp s p.toNat [] [] fun s =>
    let q := curSeq s
    if q.ld ≤ l.toNat && q.st ≤ t.toNat && q.cp ≤ c.toNat && q.wf ≤ f.toNat then
      modCur s fun q => { q with unAfter := some (q.unAfter.getD q.outNo) }
    else block s)

/-- TEND: an open gate buffer is released, and retirement begins (R28, R134); PRIV in the monitor, whatever the predicate
(R43). -/
def execTend (p : BitVec 3) (s : State) : MOut :=
  .next (if (curSeq s).mon then raise s (faultW s 0x03 (.tend p))
    else slotOp s p.toNat [] [] fun s => withGate s fun s => modCur s fun q => { q with stop := .retiring })

/-- TRAP: its whole bundle issues, and the trap is taken at the next bundle boundary (R447). -/
def execTrap (p : BitVec 3) (t : BitVec 17) (s : State) : MOut :=
  .next (slotOp s p.toNat [] [] fun s => modCur s fun q =>
    { q with pending := q.pending ++ [faultD s 0x60 (t.setWidth 64)], stop := .trap })

/-- ERET: PRIV outside the monitor; inside it, the return of R436. -/
def execEret (s : State) : MOut :=
  .next (if (curSeq s).mon then monitorReturn s else raise s (faultW s 0x03 .eret))

/-! ## Control registers -/

/-- STAT (R108). -/
def statOf (s : State) : Word :=
  let q := curSeq s
  BitVec.ofNat 64 (q.pri + bnat q.mon * 4 + bnat q.region * 8 + bnat q.phase * 16 + bnat q.residTile.isSome * 32
    + bnat ((List.range 8).any fun i => (portAt s (curA s) (8 + i)).bound) * 64 + bnat (stgS q.lstg ≠ 0) * 128
    + q.resumes * 2 ^ 16)

/-- PLACE (R108). -/
def placeOf (s : State) : Word :=
  let q := curSeq s
  BitVec.ofNat 64 (curA s + q.len * 2 ^ 8 + (if q.len = 8 then q.die2 else 0) * 2 ^ 16)

/-- OUTS (R107). -/
def outsOf (q : Seq) : Word := BitVec.ofNat 64 (q.ld + q.st * 2 ^ 8 + q.cp * 2 ^ 16 + q.wf * 2 ^ 24)

/-- MFC of FMT: the value of the latest SETFMT issued (R183). -/
def fmtLatest (x : FmtState) : Word := (x.pending.getLast?.map (·.1)).getD x.inForce

/-- FEAT1 and FEAT2 (R61). -/
def feat1 : Word := 0x031C0101
def feat2 : Word := 0xFF

/-- Whether a control register is reached in the monitor only (R105, R107). -/
def ctlPriv (n : Nat) : Bool := 0x100 ≤ n && n ≤ 0x106

/-- Read a control register (R105, R107). -/
def ctlRead (s : State) (n : Nat) : Word :=
  let q := curSeq s
  match n with
  | 0x000 => fmtLatest q.fmt
  | 0x001 => q.fpx.setWidth 64
  | 0x002 => statOf s
  | 0x003 => BitVec.ofNat 64 s.cyc
  | 0x004 => q.wstall
  | 0x009 => feat1
  | 0x00A => feat2
  | 0x010 => q.taskid.setWidth 64
  | 0x011 => placeOf s
  | 0x012 => q.grps
  | 0x013 => BitVec.ofNat 64 q.part
  | 0x014 => q.seed
  | 0x018 => outsOf q
  | 0x020 => q.lc0
  | 0x021 => q.lc1
  | 0x022 => q.lstg
  | 0x024 => q.lb0
  | 0x025 => q.lb1
  | 0x028 => BitVec.ofNat 64 q.markpc
  | 0x100 => q.mepc
  | 0x101 => q.mcause
  | 0x102 => q.mrec
  | 0x200 => q.pmctl
  | n =>
    if 0x103 ≤ n && n ≤ 0x106 then vget 0 q.mscr (n - 0x103)
    else if 0x208 ≤ n && n ≤ 0x20F then vget 0 q.pmc (n - 0x208)
    else 0

/-- Write a control register; one that is read-only is unchanged (R105, R107). -/
def ctlWrite (q : Seq) (n : Nat) (v : Word) : Seq :=
  match n with
  | 0x001 => { q with fpx := v.setWidth 6 ||| q.now.fpx }
  | 0x004 => { q with wstall := v + q.now.wstall }
  | 0x020 => { q with lc0 := v, lstg := if v = 0 then 0 else q.lstg }
  | 0x021 => { q with lc1 := v }
  | 0x100 => { q with mepc := v }
  | 0x101 => { q with mcause := v &&& 0xFFF }
  | 0x102 => { q with mrec := v }
  | 0x200 => { q with pmctl := v }
  | n =>
    if 0x103 ≤ n && n ≤ 0x106 then { q with mscr := vset q.mscr (n - 0x103) v }
    else if 0x208 ≤ n && n ≤ 0x20F then { q with pmc := vset q.pmc (n - 0x208) (v + vget 0 q.now.pmc (n - 0x208)) }
    else q

/-- Whether PMCTL names only events of R426. -/
def pmctlOk (v : Word) : Bool := (List.range 8).all fun i => bitsOf v (8 * i + 7) (8 * i) ≤ 0x1A

/-- MFC (R130); PRIV outside the monitor for an RWP register, whatever the predicate (R43). -/
def execMfc (p : BitVec 3) (d : BitVec 5) (n : BitVec 12) (s : State) : MOut :=
  .next (if ctlPriv n.toNat && !(curSeq s).mon then raise s (faultW s 0x03 (.mfc p d n))
    else slotOp s p.toNat [] [d.toNat] fun s => result s d.toNat (ctlRead s n.toNat) 1)

/-- MTC (R130, R425). -/
def execMtc (p : BitVec 3) (a : BitVec 5) (n : BitVec 12) (s : State) : MOut :=
  .next (if ctlPriv n.toNat && !(curSeq s).mon then raise s (faultW s 0x03 (.mtc p a n))
    else slotOp s p.toNat [a.toNat] [] fun s =>
      let v := reg s a.toNat
      if n.toNat = 0x200 && !pmctlOk v then raise s (faultW s 0x01 (.mtc p a n))
      else modCur s fun q => ctlWrite q n.toNat v)

/-- Whether a value may be written to FMT (R181, R182). -/
def fmtOk (v : Word) : Bool :=
  let af := bitsOf v 10 8
  let bf := bitsOf v 14 12
  bitsOf v 7 4 = 0 && !v.getLsbD 11 && !v.getLsbD 15 && bitsOf v 63 19 = 0 && bitsOf v 2 0 ≤ 4
    && af ≤ 5 && bf ≤ 5 && bitsOf v 18 16 ≤ 4 && (af = bf || ((af = 2 || af = 3) && (bf = 2 || bf = 3)))

/-- SETFMT: the value is in force from the fourth bundle on (R182, R183). -/
def execSetfmt (p : BitVec 3) (a : BitVec 5) (s : State) : MOut :=
  .next (slotOp s p.toNat [a.toNat] [] fun s =>
    let v := reg s a.toNat
    if !fmtOk v then raise s (faultD s 0x01 (v &&& 0xFFFFFFFF))
    else modCur s fun q => { q with fmt := { q.fmt with pending := q.fmt.pending ++ [(v, 4)] } })

/-- One bundle has issued: every pending FMT value is one bundle nearer, and one that is due comes into force (R183). -/
def fmtStep (x : FmtState) : FmtState :=
  let l := x.pending.map fun e => (e.1, e.2 - 1)
  { inForce := ((l.filter fun e => e.2 = 0).getLast?.map (·.1)).getD x.inForce, pending := l.filter fun e => e.2 ≠ 0 }

/-! ## Selector pairs -/

/-- Selector pair `w`. -/
def selPair (s : State) (w : Nat) : SelPair := vget {} (curSeq s).w w

/-- MTW: write a part of a pair (R104, R131). -/
def execMtw (p : BitVec 3) (w : BitVec 3) (a : BitVec 5) (n : BitVec 3) (s : State) : MOut :=
  .next (slotOp s p.toNat [a.toNat] [] fun s =>
    let v := reg s a.toNat
    modCur s fun q => { q with w := vmod {} q.w w.toNat fun x =>
      if n.toNat < 4 then { x with rows := setBits x.rows (64 * n.toNat + 63) (64 * n.toNat) v.toNat }
      else { x with cols := v.setWidth 32 } })

/-- MFW: read a part of a pair (R104, R131). -/
def execMfw (p : BitVec 3) (d : BitVec 5) (w n : BitVec 3) (s : State) : MOut :=
  .next (slotOp s p.toNat [] [d.toNat] fun s =>
    let x := selPair s w.toNat
    result s d.toNat (if n.toNat < 4 then BitVec.ofNat 64 (x.rows.toNat / 2 ^ (64 * n.toNat)) else x.cols.setWidth 64) 1)

/-- Move the low `w` bits of `x` by `a` places, toward lower indices when `down`; rotate, or shift filling with 0 (R132). -/
def moveBits (x w a : Nat) (down shift : Bool) : Nat :=
  let y := x % 2 ^ w
  let m := if shift then Nat.min a w else a % w
  let up := y * 2 ^ m
  let dn := y / 2 ^ m
  if shift then (if down then dn else up % 2 ^ w)
  else if down then dn + y % 2 ^ m * 2 ^ (w - m)
  else up % 2 ^ w + y / 2 ^ (w - m)

/-- WROT: rotate or shift a mask (R132). -/
def execWrot (p : BitVec 3) (w : BitVec 3) (a : BitVec 5) (k : BitVec 2) (v : Bool) (m : BitVec 9) (s : State) : MOut :=
  .next (slotOp s p.toNat [a.toNat] [] fun s =>
    let n := (reg s a.toNat + m.setWidth 64).toNat
    let height := 32 * (curSeq s).len
    let f (x : SelPair) : SelPair :=
      if k.getLsbD 0 then { x with cols := BitVec.ofNat 32 (moveBits x.cols.toNat 32 n v (k.getLsbD 1)) }
      else { x with rows := setBits x.rows (height - 1) 0 (moveBits x.rows.toNat height n v (k.getLsbD 1)) }
    modCur s fun q => { q with w := vmod {} q.w w.toNat f })

/-! ## Aggregates -/

/-- 64 row bits of a mask. -/
def rowPart (x : BitVec 256) (v : Word) : Word := BitVec.ofNat 64 (x.toNat / 2 ^ (64 * bitsOf v 1 0))

/-- MFA rowany (R158). -/
def execMfaRowany (p : BitVec 3) (d a : BitVec 5) (s : State) : MOut :=
  .next (alu1 s p d a fun v => rowPart (curSeq s).agg.rowAny v)

/-- MFA rowall (R158). -/
def execMfaRowall (p : BitVec 3) (d a : BitVec 5) (s : State) : MOut :=
  .next (alu1 s p d a fun v => rowPart (curSeq s).agg.rowAll v)

/-- Write a result without sources. -/
def alu0 (s : State) (p : BitVec 3) (d : BitVec 5) (f : State → Word) : State :=
  slotOp s p.toNat [] [d.toNat] fun s => result s d.toNat (f s) 1

/-- MFA colany (R158). -/
def execMfaColany (p : BitVec 3) (d : BitVec 5) (s : State) : MOut :=
  .next (alu0 s p d fun s => (curSeq s).agg.colAny.setWidth 64)

/-- MFA colall (R158). -/
def execMfaColall (p : BitVec 3) (d : BitVec 5) (s : State) : MOut :=
  .next (alu0 s p d fun s => (curSeq s).agg.colAll.setWidth 64)

/-- MFA summary (R158). -/
def execMfaSummary (p : BitVec 3) (d : BitVec 5) (s : State) : MOut :=
  .next (alu0 s p d fun s =>
    let g := (curSeq s).agg
    BitVec.ofNat 64 (bnat g.any + bnat g.all * 2 + bnat g.err * 4 + g.flags.toNat * 8 + g.wordNo.toNat * 2 ^ 32))

end Sys2Proof.Machine
end

