-- ==== Sys2Proof/Machine/ScMem.lean ====
section
/-! DEFINITION. Scalar memory: loads and stores through page handles (R215 to R219), XLAT, HINV and HINFO (R346 to R349), tile-word
instructions (R220) and full/empty instructions (R222). -/

namespace Sys2Proof.Machine

/-! ## Shared -/

/-- Go on with an access its checks let through; hold the bundle, begin the walk, or raise what they found (R217). -/
def onChk (s : State) (h : Nat) (c : Chk) (k : Place → State) : State :=
  match c with
  | .ok pl => k pl
  | .walk => block (startWalk s (curA s) h)
  | .wait => block s
  | .fault f => raise s f

/-- Earliest cycle a load's answer is written: the figures of R111 where they apply, else any later cycle (R221). -/
def loadDue (s : State) (pl : Place) : Nat :=
  let a := curA s
  if pl.page then
    (if (cacheLine s a (curPart s) (pl.va.toNat / 192)).isSome then s.cyc + 12 else s.cyc + 1)
  else if padBase a ≤ pl.pa && pl.pa < padBase (a + 1) then s.cyc + 18 else s.cyc + 1

/-- The outstanding operation of a load at a place (R218, R219). -/
def loadOut (s : State) (pl : Place) (h z rd : Nat) (sx acq : Bool) (scope : Nat) : Out :=
  { op := .load rd sx, pl := pl, size := z, acq := acq, scope := scope, hdl := h, gated := (curSeq s).gate,
    due := loadDue s pl }

/-- Scope of a tile access: SYS is performed at DEV (R48, R235). -/
def tileScope (c : BitVec 2) : Nat := Nat.min 2 c.toNat

/-- The low `z` bytes of a value. -/
def lowBytes (v : Word) (z : Nat) : Word := BitVec.ofNat 64 (v.toNat % 2 ^ (8 * z))

/-! ## LD, LDN, ST -/

/-- A load through a handle at its anchor (R215, R217). -/
def handleLoad (i : Instr) (p : BitVec 3) (d : BitVec 5) (h : BitVec 4) (q : Bool) (c : BitVec 2) (f : BitVec 9)
    (z : Nat) (sx : Bool) (s : State) : State :=
  slotOp s p.toNat [] [d.toNat] fun s =>
    onChk s h.toNat (handleChk s i h.toNat true (f.toInt * z) z true false false) fun pl =>
      pushOut s (curA s) (loadOut s pl h.toNat z d.toNat sx q c.toNat) 1 0

/-- Put a store through a handle on its way: into the gate buffer of the open region, or, in the monitor, at once (R219, R434). -/
def handleStore (s : State) (pl : Place) (h z : Nat) (v : Word) (rel : Bool) (scope : Nat) : State :=
  if (curSeq s).mon then
    pushOut s (curA s) { op := .store (lowBytes v z), pl := pl, size := z, rel := rel, scope := scope, hdl := h } 0 1
  else gatePut s (.store h (pl.pa - ptePa pl.leaf) z (lowBytes v z) rel scope)

/-- A store through a handle at its anchor (R215, R217). -/
def handleSt (i : Instr) (p : BitVec 3) (d : BitVec 5) (h : BitVec 4) (q : Bool) (c : BitVec 2) (f : BitVec 9)
    (z : Nat) (s : State) : State :=
  slotOp s p.toNat [d.toNat] [] fun s =>
    onChk s h.toNat (handleChk s i h.toNat true (f.toInt * z) z false true true) fun pl =>
      handleStore s pl h.toNat z (reg s d.toNat) q c.toNat

/-- LD.b (R215). -/
def execLdB (p : BitVec 3) (d : BitVec 5) (h : BitVec 4) (q : Bool) (c : BitVec 2) (f : BitVec 9) (s : State) : MOut :=
  .next (handleLoad (.ldB p d h q c f) p d h q c f 1 true s)

/-- LD.h (R215). -/
def execLdH (p : BitVec 3) (d : BitVec 5) (h : BitVec 4) (q : Bool) (c : BitVec 2) (f : BitVec 9) (s : State) : MOut :=
  .next (handleLoad (.ldH p d h q c f) p d h q c f 2 true s)

/-- LD.w (R215). -/
def execLdW (p : BitVec 3) (d : BitVec 5) (h : BitVec 4) (q : Bool) (c : BitVec 2) (f : BitVec 9) (s : State) : MOut :=
  .next (handleLoad (.ldW p d h q c f) p d h q c f 4 true s)

/-- LD.d (R215). -/
def execLdD (p : BitVec 3) (d : BitVec 5) (h : BitVec 4) (q : Bool) (c : BitVec 2) (f : BitVec 9) (s : State) : MOut :=
  .next (handleLoad (.ldD p d h q c f) p d h q c f 8 false s)

/-- LDN.b (R215). -/
def execLdnB (p : BitVec 3) (d : BitVec 5) (h : BitVec 4) (q : Bool) (c : BitVec 2) (f : BitVec 9) (s : State) : MOut :=
  .next (handleLoad (.ldnB p d h q c f) p d h q c f 1 false s)

/-- LDN.h (R215). -/
def execLdnH (p : BitVec 3) (d : BitVec 5) (h : BitVec 4) (q : Bool) (c : BitVec 2) (f : BitVec 9) (s : State) : MOut :=
  .next (handleLoad (.ldnH p d h q c f) p d h q c f 2 false s)

/-- LDN.w (R215). -/
def execLdnW (p : BitVec 3) (d : BitVec 5) (h : BitVec 4) (q : Bool) (c : BitVec 2) (f : BitVec 9) (s : State) : MOut :=
  .next (handleLoad (.ldnW p d h q c f) p d h q c f 4 false s)

/-- ST.b (R215). -/
def execStB (p : BitVec 3) (d : BitVec 5) (h : BitVec 4) (q : Bool) (c : BitVec 2) (f : BitVec 9) (s : State) : MOut :=
  .next (handleSt (.stB p d h q c f) p d h q c f 1 s)

/-- ST.h (R215). -/
def execStH (p : BitVec 3) (d : BitVec 5) (h : BitVec 4) (q : Bool) (c : BitVec 2) (f : BitVec 9) (s : State) : MOut :=
  .next (handleSt (.stH p d h q c f) p d h q c f 2 s)

/-- ST.w (R215). -/
def execStW (p : BitVec 3) (d : BitVec 5) (h : BitVec 4) (q : Bool) (c : BitVec 2) (f : BitVec 9) (s : State) : MOut :=
  .next (handleSt (.stW p d h q c f) p d h q c f 4 s)

/-- ST.d (R215). -/
def execStD (p : BitVec 3) (d : BitVec 5) (h : BitVec 4) (q : Bool) (c : BitVec 2) (f : BitVec 9) (s : State) : MOut :=
  .next (handleSt (.stD p d h q c f) p d h q c f 8 s)

/-! ## LDP, STP -/

/-- The next value of an offset register (R216). -/
def offsetNext (v : Word) (i : BitVec 8) (z : Nat) : Word := v + BitVec.ofInt 64 (i.toInt * z)

/-- The checks of an access at an offset register (R216, R217). -/
def offsetChk (s : State) (i : Instr) (h : Nat) (v : Word) (z : Nat) (store : Bool) : Chk :=
  if bitsOf v 63 57 ≠ 0 then .fault (faultD s 0x10 v)
  else handleChk s i h false (bitsOf v 56 0 : Nat) z (!store) store store

/-- A load at an offset register, which then steps (R216). A bound offset register raises ILLEGAL (R100). -/
def offsetLoad (i : Instr) (p : BitVec 3) (d : BitVec 5) (h : BitVec 4) (a : BitVec 5) (k : BitVec 8) (z : Nat) (sx : Bool)
    (s : State) : State :=
  slotOp s p.toNat (if isBound s (curA s) a.toNat then [] else [a.toNat]) [d.toNat, a.toNat] fun s =>
    let v := reg s a.toNat
    onChk s h.toNat (offsetChk s i h.toNat v z false) fun pl =>
      result (pushOut s (curA s) (loadOut s pl h.toNat z d.toNat sx false 0) 1 0) a.toNat (offsetNext v k z) 1

/-- A store at an offset register, which then steps (R216). -/
def offsetStore (i : Instr) (p : BitVec 3) (d : BitVec 5) (h : BitVec 4) (a : BitVec 5) (k : BitVec 8) (z : Nat) (s : State) : State :=
  slotOp s p.toNat (d.toNat :: if isBound s (curA s) a.toNat then [] else [a.toNat]) [a.toNat] fun s =>
    let v := reg s a.toNat
    let x := reg s d.toNat
    onChk s h.toNat (offsetChk s i h.toNat v z true) fun pl =>
      let s1 := handleStore s pl h.toNat z x false 0
      if s1.bun.blocked || s1.bun.raised.isSome then s1 else result s1 a.toNat (offsetNext v k z) 1

/-- LDP.w (R216). -/
def execLdpW (p : BitVec 3) (d : BitVec 5) (h : BitVec 4) (a : BitVec 5) (k : BitVec 8) (s : State) : MOut :=
  .next (offsetLoad (.ldpW p d h a k) p d h a k 4 true s)

/-- LDP.d (R216). -/
def execLdpD (p : BitVec 3) (d : BitVec 5) (h : BitVec 4) (a : BitVec 5) (k : BitVec 8) (s : State) : MOut :=
  .next (offsetLoad (.ldpD p d h a k) p d h a k 8 false s)

/-- STP.w (R216). -/
def execStpW (p : BitVec 3) (d : BitVec 5) (h : BitVec 4) (a : BitVec 5) (k : BitVec 8) (s : State) : MOut :=
  .next (offsetStore (.stpW p d h a k) p d h a k 4 s)

/-- STP.d (R216). -/
def execStpD (p : BitVec 3) (d : BitVec 5) (h : BitVec 4) (a : BitVec 5) (k : BitVec 8) (s : State) : MOut :=
  .next (offsetStore (.stpD p d h a k) p d h a k 8 s)

/-! ## Handles -/

/-- The handle XLAT leaves (R341, R347). -/
def xlatHandle (s : State) (a : Nat) (x : Handle) (va : Word) : Handle :=
  if bitsOf va 63 57 ≠ 0 then { x with st := .faulted, va := va, leaf := 0, cause := 1 }
  else match tlbLookup s a (seqAt s a).part va.toNat with
    | some e => { x with st := .valid, va := va, leaf := e, cause := 0 }
    | none => { x with st := .walking, va := va, leaf := 0, cause := 0 }

/-- The first XLAT whose 16 cycles are over takes effect: its handle is set, a walk under way discarded (R347). -/
def xlatDue (s : State) (a : Nat) : State :=
  match (seqAt s a).xlats.find? fun x => x.1 ≤ s.cyc with
  | none => s
  | some x => modSeq (modHandle s a x.2.1 fun h => xlatHandle s a h x.2.2) a fun q => { q with xlats := q.xlats.erase x }

/-- XLAT: the handle changes 16 cycles after issue, and is interlocked until then (R347, R349); h15 raises PRIV outside the monitor,
whatever the predicate (R102). -/
def execXlat (p : BitVec 3) (h : BitVec 4) (a : BitVec 5) (s : State) : MOut :=
  .next (if h = 15 && !(curSeq s).mon then raise s (faultW s 0x03 (.xlat p h a))
    else slotOp s p.toNat [a.toNat] [] fun s =>
      let va := reg s a.toNat
      lock (modCur s fun q => { q with xlats := q.xlats ++ [(s.cyc + 16, h.toNat, va)] }) (40 + h.toNat) (s.cyc + 16))

/-- HINV: the handle is INVALID and keeps its address; for h15, at the point of R351 (R349). -/
def execHinv (p : BitVec 3) (h : BitVec 4) (s : State) : MOut :=
  .next (slotOp s p.toNat [] [] fun s =>
    if h = 15 then modCur s fun q => { q with codeInval := true }
    else modHandle s (curA s) h.toNat fun x => { x with st := .invalid, leaf := 0, cause := 0 })

/-- Part 0 of HINFO (R346). -/
def handleInfo (x : Handle) : Word :=
  let st := match x.st with
    | .invalid => 0
    | .walking => 1
    | .valid => 2
    | .faulted => 3
  let v := x.st = .valid
  let e := if v then x.leaf else 0
  BitVec.ofNat 64 (st + bnat (pteR e) * 2 ^ 2 + bnat (pteW e) * 2 ^ 3 + bnat (pteX e) * 2 ^ 4 + pteKind e * 2 ^ 5
    + bnat (pteSealed e) * 2 ^ 7 + pteLoc e * 2 ^ 8 + pteSize e * 2 ^ 10 + x.inflight * 2 ^ 16
    + (if x.st = .faulted then x.cause else 0) * 2 ^ 32 + (if v then x.anchor else 0) * 2 ^ 36)

/-- HINFO (R346, R349); it waits for the interlock of an XLAT of the same handle (R111). -/
def execHinfo (p : BitVec 3) (d a : BitVec 5) (s : State) : MOut :=
  .next (slotOp s p.toNat [a.toNat] [d.toNat] fun s =>
    let v := reg s a.toNat
    let h := bitsOf v 3 0
    if (curSeq s).locks.any fun e => e.1 = 40 + h && s.cyc < e.2 then block s
    else result s d.toNat (if v.getLsbD 4 then (handle s h).va else handleInfo (handle s h)) 1)

/-! ## Tile words -/

/-- A load of tile words (R220). -/
def tileLoad (i : Instr) (p : BitVec 3) (d : BitVec 5) (t : BitVec 6) (a : BitVec 5) (q : Bool) (c : BitVec 2) (n : Nat) (s : State) : State :=
  slotOp s p.toNat [a.toNat] [d.toNat] fun s =>
    let x := reg s a.toNat
    if tileSaved s t.toNat then block s
    else match tileChk s i t.toNat x n false false with
    | .error f => raise s f
    | .ok (k, y) => pushOut s (curA s) (loadOut s (tilePlace k y x.toNat) 16 (4 * n) d.toNat false q (tileScope c)) 1 0

/-- A store of tile words, gated outside the monitor (R219, R220). -/
def tileStore (i : Instr) (p : BitVec 3) (d : BitVec 5) (t : BitVec 6) (a : BitVec 5) (q : Bool) (c : BitVec 2) (n : Nat) (s : State) : State :=
  slotOp s p.toNat [d.toNat, a.toNat] [] fun s =>
    let x := reg s a.toNat
    let v := lowBytes (reg s d.toNat) (4 * n)
    if tileSaved s t.toNat then block s
    else match tileChk s i t.toNat x n true false with
    | .error f => raise s f
    | .ok (k, y) =>
      if (curSeq s).mon then
        pushOut s (curA s) { op := .store v, pl := tilePlace k y x.toNat, size := 4 * n, rel := q, scope := tileScope c } 0 1
      else gatePut s (.tile t.toNat k x.toNat (4 * n) v q (tileScope c))

/-- LDT.w (R220). -/
def execLdtW (p : BitVec 3) (d : BitVec 5) (t : BitVec 6) (a : BitVec 5) (q : Bool) (c : BitVec 2) (s : State) : MOut :=
  .next (tileLoad (.ldtW p d t a q c) p d t a q c 1 s)

/-- LDT.d (R220). -/
def execLdtD (p : BitVec 3) (d : BitVec 5) (t : BitVec 6) (a : BitVec 5) (q : Bool) (c : BitVec 2) (s : State) : MOut :=
  .next (tileLoad (.ldtD p d t a q c) p d t a q c 2 s)

/-- STT.w (R220). -/
def execSttW (p : BitVec 3) (d : BitVec 5) (t : BitVec 6) (a : BitVec 5) (q : Bool) (c : BitVec 2) (s : State) : MOut :=
  .next (tileStore (.sttW p d t a q c) p d t a q c 1 s)

/-- STT.d (R220). -/
def execSttD (p : BitVec 3) (d : BitVec 5) (t : BitVec 6) (a : BitVec 5) (q : Bool) (c : BitVec 2) (s : State) : MOut :=
  .next (tileStore (.sttD p d t a q c) p d t a q c 2 s)

/-! ## Full/empty instructions -/

/-- Whether an earlier access comes before a full/empty request: one of the same bytes, an acquire, or what the release of STE awaits
(R226, R233, R235). -/
def feBlocked (s : State) (a kind addr : Nat) : Bool := (kind = 2 && releaseBlocked s a 2) || accessBlocked s a addr 4

/-- The request of a full/empty instruction reaches its bank, once the work of STE's release is done (R201, R222, R235): a tile of a failed
task answers BROKEN; beyond the 64th waiter the request is refused, to be sent again 64 cycles after it was; else it waits in order,
and is served at once where its condition holds. -/
def feArrive (s : State) (a : Nat) : State :=
  match (seqAt s a).feReq with
  | none => s
  | some r =>
    if r.queued then s
    else if (tileAt s r.tile).feBroken then answerFe s a 1 0 false
    else if bankCount' s (padBank r.addr) ≥ Config.bankWaiters && (if r.kind = 2 then isFull s r.addr else !isFull s r.addr) then
      modSeq (pmcAdd s a 0x18 1) a fun q => { q with feReq := none, retryAt := some (s.cyc + 63) }
    else
      let s1 := if r.kind = 2 then releaseWork s a 2 else s
      let s2 := modSeq s1 a fun q => { q with feReq := some { r with queued := true } }
      let w : Waiter := { bank := padBank r.addr, arr := a, no := (seqAt s a).outNo, addr := r.addr, kind := r.kind, tile := r.tile }
      serveWord { s2 with waiters := s2.waiters ++ [w] } r.addr

/-- A full/empty instruction issues with its answer, rd interlocked for L of R111: STE leaves the low half of rd; LDF and LDFK answered OK acquire at DEV; the next
bundle opens a new region (R222, R233, R437). -/
def feIssue (s : State) (d kind : Nat) (w : Word) (bad : Bool) : State :=
  let v := if kind = 2 then setBits w 31 0 (bitsOf (reg s d) 31 0) else w
  let s1 := lock (putPoison s (curA s) d v bad) d (curSeq s).feDue
  let s2 := if kind ≠ 2 && bitsOf w 63 32 = 0 then acquireWork s1 (curA s) 2 else s1
  regionNext (modCur s2 fun q => { q with feReq := none, feDone := none, retryAt := none })

/-- Send the request of a full/empty instruction, once nothing before it holds it back; its bundle is held until the answer. -/
def feSend (s : State) (kind tile addr : Nat) (v : BitVec 32) : State :=
  if feBlocked s (curA s) kind addr then block s
  else
    let own := kind ≠ 2 && padBase (curA s) ≤ addr && addr < padBase (curA s + 1)
    block (modCur s fun q => { q with
      feReq := some { kind := kind, tile := tile, addr := addr, v := v, due := s.cyc + 1 }, feDue := if own then s.cyc + 18 else 0 })

/-- LDF, LDFK and STE: the bundle is held until the bank answers (R30, R201, R222). -/
def feOp (i : Instr) (p : BitVec 3) (d : BitVec 5) (t : BitVec 6) (a : BitVec 5) (kind : Nat) (s : State) : State :=
  slotOp s p.toNat (if kind = 2 then [d.toNat, a.toNat] else [a.toNat]) [d.toNat] fun s =>
    match (curSeq s).feDone with
    | some r => feIssue s d.toNat kind r.1 r.2
    | none =>
      let x := reg s a.toNat
      let v := BitVec.ofNat 32 (reg s d.toNat).toNat
      if (curSeq s).feReq.isSome || (curSeq s).retryAt.isSome || tileSaved s t.toNat then block s
      else match tileChk s i t.toNat x 1 (kind = 2) true with
      | .error f => raise s f
      | .ok (k, y) => withGate s fun s => feSend s kind k (tilePlace k y x.toNat).pa v

/-- LDF (R222). -/
def execLdf (p : BitVec 3) (d : BitVec 5) (t : BitVec 6) (a : BitVec 5) (s : State) : MOut := .next (feOp (.ldf p d t a) p d t a 0 s)

/-- LDFK (R222). -/
def execLdfk (p : BitVec 3) (d : BitVec 5) (t : BitVec 6) (a : BitVec 5) (s : State) : MOut := .next (feOp (.ldfk p d t a) p d t a 1 s)

/-- STE (R222). -/
def execSte (p : BitVec 3) (d : BitVec 5) (t : BitVec 6) (a : BitVec 5) (s : State) : MOut := .next (feOp (.ste p d t a) p d t a 2 s)

/-- STFK: a releasing write at DEV that does not wait (R222, R235). -/
def execStfk (p : BitVec 3) (d : BitVec 5) (t : BitVec 6) (a : BitVec 5) (s : State) : MOut :=
  .next (slotOp s p.toNat [d.toNat, a.toNat] [] fun s =>
    let x := reg s a.toNat
    let v := BitVec.ofNat 32 (reg s d.toNat).toNat
    if tileSaved s t.toNat then block s
    else match tileChk s (.stfk p d t a) t.toNat x 1 true true with
    | .error f => raise s f
    | .ok (k, y) => releasingSt s fun s =>
      pushOut s (curA s) { op := .stfk v, pl := tilePlace k y x.toNat, size := 4, rel := true, scope := 2 } 0 1)

end Sys2Proof.Machine
end

