-- ==== Sys2Proof/Machine/ScAtomic.lean ====
section
/-! DEFINITION. Atomics at their home (R245 to R256), the residual tile (R261 to R267) and FENCE (R269). -/

namespace Sys2Proof.Machine

/-! ## Targets -/

/-- Bytes of an AMO or CAS by its descriptor and target (R246). -/
def amoSize (fadd : Bool) (h : Nat) (v : Word) : Nat := if h = 15 || fadd || v.getLsbD 63 then 4 else 8

/-- Bytes of an ACC by its kind and target (R246). -/
def accSize (fn h : Nat) : Nat := if fn = 2 && h ≠ 15 then 2 else 4

/-- DETAIL of ATOMIC_UNSUPPORTED (R273). -/
def unsupported (s : State) (fn major : Nat) (v : Word) (pl : Place) : FaultInfo :=
  { faultD s 0x30 (BitVec.ofNat 64 (fn + major * 2 ^ 4 + bnat (v.getLsbD 63) * 2 ^ 11)) with addr := pl.va }

/-- Whether the host link performs an atomic of this kind and width (R273). -/
def hostAtomic (s : State) (fn major z : Nat) : Bool :=
  (major = 0x3D || (major = 0x3C && (fn = 0 || fn = 8)) || (major = 0x3E && fn = 0))
    && (if z = 4 then s.pkg.atom32 else z = 8 && s.pkg.atom64)

/-- The checks of an atomic with descriptor `v` (R50, R246, R270, R273): its zero bits before the state of its handle (log 71). -/
def atomicChk (s : State) (i : Instr) (h : Nat) (v : Word) (fn major z : Nat) (r : Bool) : Chk :=
  if h = 15 then
    if bitsOf v 63 30 ≠ 0 then .fault (faultD s 0x10 v)
    else if tileSaved s (bitsOf v 29 24) then .wait
    else match tileChk s i (bitsOf v 29 24) (BitVec.ofNat 64 (bitsOf v 23 0)) 1 true false with
      | .error f => .fault f
      | .ok (k, y) => .ok (tilePlace k y (bitsOf v 23 0))
  else if bitsOf v 62 57 ≠ 0 then .fault (faultD s 0x10 v)
  else match handleChk s i h false (bitsOf v 56 0 : Nat) z r true true with
    | .ok pl =>
      if pteLoc pl.leaf = 2 && !hostAtomic s fn major z then .fault (unsupported s fn major v pl)
      else if major = 0x3E && (windowOf s (curPart s) pl.pa).any fun w => w.2.getLsbD (128 + s.pkg.chipId) && windowFmt w.2 ≠ fn then
        .fault (unsupported s fn major v pl)
      else .ok pl
    | c => c

/-- Handle an atomic counts in: none for a tile. -/
def atomicHandle (h : Nat) : Nat := if h = 15 then 16 else h

/-- Scope of an atomic: SYS is performed at DEV on a tile (R48). -/
def atomicScope (h : Nat) (c : BitVec 2) : Nat := if h = 15 then tileScope c else c.toNat

/-! ## AMO -/

/-- An AMO: not gated, performed at its home after its issue (R247, R249). -/
def amo (i : Instr) (fn : Nat) (p : BitVec 3) (d : BitVec 5) (h : BitVec 4) (a : BitVec 5) (q r : Bool) (c : BitVec 2) (s : State) : State :=
  slotOp s p.toNat [d.toNat, a.toNat] [d.toNat] fun s =>
    let v := reg s a.toNat
    let x := reg s d.toNat
    let z := amoSize (fn = 9) h.toNat v
    onChk s h.toNat (atomicChk s i h.toNat v fn 0x3C z true) fun pl =>
      releasingSt s fun s => pushOut s (curA s)
        { op := .amo fn d.toNat x, pl := pl, size := z, acq := q, rel := r, scope := atomicScope h.toNat c,
          hdl := atomicHandle h.toNat } 0 1

/-- AMO.ADD (R249). -/
def execAmoAdd (p : BitVec 3) (d : BitVec 5) (h : BitVec 4) (a : BitVec 5) (q r : Bool) (c : BitVec 2) (s : State) : MOut :=
  .next (amo (.amoAdd p d h a q r c) 0 p d h a q r c s)

/-- AMO.AND (R249). -/
def execAmoAnd (p : BitVec 3) (d : BitVec 5) (h : BitVec 4) (a : BitVec 5) (q r : Bool) (c : BitVec 2) (s : State) : MOut :=
  .next (amo (.amoAnd p d h a q r c) 1 p d h a q r c s)

/-- AMO.OR (R249). -/
def execAmoOr (p : BitVec 3) (d : BitVec 5) (h : BitVec 4) (a : BitVec 5) (q r : Bool) (c : BitVec 2) (s : State) : MOut :=
  .next (amo (.amoOr p d h a q r c) 2 p d h a q r c s)

/-- AMO.XOR (R249). -/
def execAmoXor (p : BitVec 3) (d : BitVec 5) (h : BitVec 4) (a : BitVec 5) (q r : Bool) (c : BitVec 2) (s : State) : MOut :=
  .next (amo (.amoXor p d h a q r c) 3 p d h a q r c s)

/-- AMO.MIN (R249). -/
def execAmoMin (p : BitVec 3) (d : BitVec 5) (h : BitVec 4) (a : BitVec 5) (q r : Bool) (c : BitVec 2) (s : State) : MOut :=
  .next (amo (.amoMin p d h a q r c) 4 p d h a q r c s)

/-- AMO.MAX (R249). -/
def execAmoMax (p : BitVec 3) (d : BitVec 5) (h : BitVec 4) (a : BitVec 5) (q r : Bool) (c : BitVec 2) (s : State) : MOut :=
  .next (amo (.amoMax p d h a q r c) 5 p d h a q r c s)

/-- AMO.MINN (R249). -/
def execAmoMinn (p : BitVec 3) (d : BitVec 5) (h : BitVec 4) (a : BitVec 5) (q r : Bool) (c : BitVec 2) (s : State) : MOut :=
  .next (amo (.amoMinn p d h a q r c) 6 p d h a q r c s)

/-- AMO.MAXN (R249). -/
def execAmoMaxn (p : BitVec 3) (d : BitVec 5) (h : BitVec 4) (a : BitVec 5) (q r : Bool) (c : BitVec 2) (s : State) : MOut :=
  .next (amo (.amoMaxn p d h a q r c) 7 p d h a q r c s)

/-- AMO.SWAP (R249). -/
def execAmoSwap (p : BitVec 3) (d : BitVec 5) (h : BitVec 4) (a : BitVec 5) (q r : Bool) (c : BitVec 2) (s : State) : MOut :=
  .next (amo (.amoSwap p d h a q r c) 8 p d h a q r c s)

/-- AMO.FADD (R249, R251). -/
def execAmoFadd (p : BitVec 3) (d : BitVec 5) (h : BitVec 4) (a : BitVec 5) (q r : Bool) (c : BitVec 2) (s : State) : MOut :=
  .next (amo (.amoFadd p d h a q r c) 9 p d h a q r c s)

/-- CAS: compare value in the even register of the pair `d`, new value in the odd one (R250). -/
def execCas (p : BitVec 3) (d : BitVec 4) (h : BitVec 4) (a : BitVec 5) (q r : Bool) (c : BitVec 2) (s : State) : MOut :=
  .next (slotOp s p.toNat [2 * d.toNat, 2 * d.toNat + 1, a.toNat] [2 * d.toNat] fun s =>
    let v := reg s a.toNat
    let x := reg s (2 * d.toNat)
    let y := reg s (2 * d.toNat + 1)
    let z := amoSize false h.toNat v
    onChk s h.toNat (atomicChk s (.cas p d h a q r c) h.toNat v 0 0x3D z true) fun pl =>
      releasingSt s fun s => pushOut s (curA s)
        { op := .cas (2 * d.toNat) x y, pl := pl, size := z, acq := q, rel := r, scope := atomicScope h.toNat c,
          hdl := atomicHandle h.toNat } 0 1)

/-! ## ACC -/

/-- ACCs of a sequencer not yet accepted or placed (R265). -/
def accInFlight (s : State) (a : Nat) : Nat := ((seqAt s a).outs.filter isAcc').length

/-- Whether the residual tile has no room for one more ACC to be refused (R265). -/
def residFull (s : State) (a : Nat) : Bool :=
  match residOf s a with
  | none => false
  | some (base, n) => (resValidList s base n).length + accInFlight s a ≥ n

/-- Flush the entry with the oldest STAMP (R265). -/
def flushOldest (s : State) (a : Nat) : State :=
  match residOf s a with
  | none => s
  | some (base, n) =>
    match resByAge s a base n with
    | [] => s
    | k :: _ => resFlushOne s a base k

/-- An ACC: merged with the residual tile, then sent to its home (R256, R257); with the residual tile full it waits while the oldest
entry is flushed (R265). -/
def acc (i : Instr) (fn : Nat) (p : BitVec 3) (d : BitVec 5) (h : BitVec 4) (a : BitVec 5) (r : Bool) (c : BitVec 2) (s : State) : State :=
  slotOp s p.toNat [d.toNat, a.toNat] [] fun s =>
    let v := reg s a.toNat
    let x := reg s d.toNat
    let z := accSize fn h.toNat
    onChk s h.toNat (atomicChk s i h.toNat v fn 0x3E z false) fun pl =>
      if residFull s (curA s) then block (flushOldest s (curA s))
      else releasingSt s fun s =>
        let (s1, w, l) := resMerge s (curA s) pl.pa fn (x.toNat % 2 ^ (8 * accBytes fn (pl.pa ≥ onChip)))
        pushOut s1 (curA s)
          { op := .acc fn (BitVec.ofNat 64 w), pl := pl, size := z, rel := r, scope := atomicScope h.toNat c,
            hdl := atomicHandle h.toNat, carries := l } 0 1

/-- ACC.ADD (R256). -/
def execAccAdd (p : BitVec 3) (d : BitVec 5) (h : BitVec 4) (a : BitVec 5) (r : Bool) (c : BitVec 2) (s : State) : MOut :=
  .next (acc (.accAdd p d h a r c) 0 p d h a r c s)

/-- ACC.FADD (R251, R256). -/
def execAccFadd (p : BitVec 3) (d : BitVec 5) (h : BitVec 4) (a : BitVec 5) (r : Bool) (c : BitVec 2) (s : State) : MOut :=
  .next (acc (.accFadd p d h a r c) 1 p d h a r c s)

/-- ACC.BFADD (R251, R256). -/
def execAccBfadd (p : BitVec 3) (d : BitVec 5) (h : BitVec 4) (a : BitVec 5) (r : Bool) (c : BitVec 2) (s : State) : MOut :=
  .next (acc (.accBfadd p d h a r c) 2 p d h a r c s)

/-- ACC.FMAX (R251, R256). -/
def execAccFmax (p : BitVec 3) (d : BitVec 5) (h : BitVec 4) (a : BitVec 5) (r : Bool) (c : BitVec 2) (s : State) : MOut :=
  .next (acc (.accFmax p d h a r c) 3 p d h a r c s)

/-! ## FENCE, FLUSHRES, RESID -/

/-- What stopped issue is done. -/
def pendDone (s : State) (a : Nat) : State := modSeq s a Seq.pendOver

/-- Issue stops until `x` is done. -/
def pendOn (s : State) (x : Pend) : State := modCur s fun q => q.pendFor x

/-- The rest of a FENCE: its release once nothing earlier holds it, then its acquire once earlier loads have returned (R232, R233,
R269; log 10). -/
def resumeFence (s : State) (a : Nat) (acq rel : Bool) (scope : Nat) : State :=
  let waits := (rel && releaseBlocked s a scope) || (acq && (seqAt s a).outs.any fun o => ldClass o && !isUn o)
  if waits then s
  else
    let s1 := if rel then releaseWork s a scope else s
    pendDone (if acq then acquireWork s1 a scope else s1) a

/-- FENCE: inside a restart region its release is gated (R236, R269). -/
def execFence (p : BitVec 3) (q : BitVec 2) (c : BitVec 2) (s : State) : MOut :=
  .next (slotOp s p.toNat [] [] fun s =>
    let acq := q.getLsbD 0
    let rel := q.getLsbD 1
    let mon := (curSeq s).mon
    let s1 := if rel && !mon then gatePut s (.fence c.toNat) else s
    if s1.bun.blocked || s1.bun.raised.isSome then s1
    else if acq || (rel && mon) then
      resumeFence (pendOn s1 (.fence acq (rel && mon) c.toNat)) (curA s) acq (rel && mon) c.toNat
    else s1)

/-- FLUSHRES (R266). -/
def execFlushres (p : BitVec 3) (s : State) : MOut :=
  .next (slotOp s p.toNat [] [] fun s => pushOut s (curA s) { op := .flushres } 0 1)

/-- The checks of RESID on the tile it attaches (R262). -/
def residChk (s : State) (i : Instr) (t : Nat) : Except FaultInfo Nat :=
  match curTile s t with
  | none => .error { faultW s 0x12 i with tslot := t, tvalid := true }
  | some (k, y) =>
    let n := 4 * y.words
    if y.level ≠ 1 || y.fe || y.sealed || n % 16 ≠ 0 || n < 16 || n > 32768 then
      .error { faultW s 0x12 i with tslot := t, tvalid := true }
    else .ok k

/-- Mark every entry of a new residual tile free (R262). -/
def clearEntries (s : State) (base n : Nat) : State :=
  (List.range n).foldl (fun s k => resClear s base k) s

/-- Whether an operation on a tile has been issued, by any sequencer, and is not yet performed. -/
def opsOnTile (s : State) (n : Nat) : Bool :=
  s.arrs.toList.any fun x => x.seq.outs.any fun o => hasBytes o && !atReturn o && !o.pl.page && o.pl.tile = n

/-- The rest of RESID: flush and detach, then attach and clear, once every operation issued on the tile before has been performed (R262,
R263; log 77). -/
def resumeResid (s : State) (a : Nat) (x : Option (Nat × Nat)) : State :=
  if ((seqAt s a).residTile.isSome && accInFlight s a > 0) || x.any (fun k => opsOnTile s k.2) then s
  else
    let s1 := modSeq (flushResid s a) a fun q => { q with residTile := none }
    match x with
    | none => pendDone s1 a
    | some k =>
      let s2 := modSeq s1 a fun q => { q with residTile := some k.2, residSlot := k.1, stamp := 0 }
      match residOf s2 a with
      | none => pendDone s2 a
      | some (base, n) =>
        modSeq (pendDone (clearEntries s2 base n) a) a fun q => q.holdTo (s.cyc + ceilDiv n 16)

/-- RESID (R261, R262). -/
def execResid (p : BitVec 3) (x : Bool) (t : BitVec 6) (s : State) : MOut :=
  .next (slotOp s p.toNat [] [] fun s =>
    if x then
      if tileSaved s t.toNat then block s
      else match residChk s (.resid p x t) t.toNat with
      | .error f => raise s f
      | .ok k => resumeResid (pendOn s (.resid (some (t.toNat, k)))) (curA s) (some (t.toNat, k))
    else resumeResid (pendOn s (.resid none)) (curA s) none)

end Sys2Proof.Machine
end

