-- ==== Sys2Proof/Machine/ScTile.lean ====
section
/-! DEFINITION. Tiles (R366 to R371), SYNC (R420), barrier instructions (R416 to R418), deques (R330), TLAUNCH (R326), LOCQ (R359),
SEAL and UNSEAL (R352). -/

namespace Sys2Proof.Machine

/-! ## TALLOC -/

/-- A status result: code in [63:32], value in [31:0]. -/
def statusWord (code v : Nat) : Word := BitVec.ofNat 64 (code * 2 ^ 32 + v % 2 ^ 32)

/-- The home array of a tile a task describes by chain position and quarter (R360, R367). -/
def homeOf (s : State) (t : Tile) (pos qtr : Nat) : Nat :=
  let top := curA s
  let a := chainArr s top (curSeq s).die2 pos
  if t.level = 0 then top else if t.level = 1 then a else a / 4 * 4 + qtr

/-- log2 of a chain length, as records code it. -/
def lenCode (len : Nat) : Nat := if len ≤ 1 then 0 else if len = 2 then 1 else if len = 4 then 2 else 3

/-- Words zeroed in a cycle (R368). -/
def zeroRate (level : Nat) : Nat := if level = 1 then 64 else 32

/-- A slot that names an unreachable tile gives up its bind when another takes its place (R361). -/
def bindSlot (s : State) (k n : Nat) : State :=
  let s1 := match slotNo s k with
    | none => s
    | some old => dropBinds s (curPart s) [old]
  modCur s1 fun q => { q with t := vset q.t k (BitVec.ofNat 15 (n + 2 ^ 14)) }

/-- The task number of the running task. -/
def curTid (s : State) : Nat :=
  match (curArr s).task with
  | none => (curSeq s).taskid.toNat
  | some i => match taskAt s i with
    | none => (curSeq s).taskid.toNat
    | some t => t.tid

/-- PERMISSION of a TALLOC is raised at a cycle, its bundle held until then (R368). -/
def tallocDenied (s : State) (f : FaultInfo) (c : Nat) : State :=
  match (curSeq s).permAt with
  | none => block (modCur s fun q => { q with permAt := some c })
  | some c => if s.cyc < c then block s else raise (modCur s fun q => { q with permAt := none }) f

/-- Steps 3 to 6 of R368. -/
def tallocGo (s : State) (i : Instr) (d t : Nat) (v : Word) : State :=
  let (want, pos, qtr) := descTile v
  let home := homeOf s want pos qtr
  let tile := { want.inCells (chainOf s (curA s)) with
                  part := curPart s, homeArr := home, len := if want.level = 0 then lenCode (curSeq s).len else 0, placed := true,
                  binds := 1, owner := some (curPart s, curTid s) }
  let late := 12 * crossings (dieOfArr s (curA s)) (dieOfArr s home)
  if want.level = 2 && quarterPart s home ≠ some (curPart s) then
    tallocDenied s { faultW s 0x12 i with tslot := t, tvalid := true } (s.cyc + 8 + late)
  else match freeEntry s (curPart s) with
    | none => holdUntil (setReg s d (statusWord 1 0)) (s.cyc + 8 + late)
    | some n => match lowestFit s tile with
      | none => holdUntil (setReg s d (statusWord 2 0)) (s.cyc + 8 + late)
      | some b =>
        let s1 := placeTile s n { tile with base := b } (chainOf s (curA s))
        holdUntil (setReg (bindSlot s1 t n) d (statusWord 0 n)) (s.cyc + 8 + ceilDiv tile.words (zeroRate tile.level) + late)

/-- TALLOC (R368): issue stops until it ends. -/
def execTalloc (p : BitVec 3) (d : BitVec 5) (t : BitVec 6) (a : BitVec 5) (s : State) : MOut :=
  .next (slotOp s p.toNat [a.toNat] [d.toNat] fun s =>
    let v := reg s a.toNat
    releasing s fun s =>
      if (curTile s t.toNat).isSome || tileSaved s t.toNat then holdUntil (setReg s d.toNat (statusWord 4 0)) (s.cyc + 8)
      else if !tallocOk v (curSeq s).len then holdUntil (setReg s d.toNat (statusWord 3 0)) (s.cyc + 8)
      else tallocGo s (.talloc p d t a) d.toNat t.toNat v)

/-! ## TFREE, TINFO, TMOVE -/

/-- Whether a stream of the placement is bound to a tile (R369, R371). -/
def streamOn (s : State) (a n : Nat) : Bool := (arr s a).ports.any fun p => p.2.pats.any fun x => x.tile = n

/-- Whether words are in flight, or a command of the placement names a tile (R369, step 3). -/
def tileBusy (s : State) (a n : Nat) : Bool :=
  (arr s a).words ≠ [] || (arr s a).eng.toList.any fun g => g.queue.any fun c => c.tiles.any fun t => t.2 = n

/-- The tile of a slot for TFREE, TMOVE and TINFO: PERMISSION for an unbound slot or, where `resid` says so, the residual tile (R263,
R369 to R371). -/
def slotChk (s : State) (i : Instr) (t : Nat) (resid : Bool) : Except FaultInfo (Nat × Tile) :=
  match curTile s t with
  | none => .error { faultW s 0x12 i with tslot := t, tvalid := true }
  | some (k, y) =>
    if resid && isResid s k then .error { faultW s 0x12 i with tslot := t, tvalid := true } else .ok (k, y)

/-- The rest of TFREE: once nothing uses the tile, the slot is unbound, the entry FREED and its programs invalid (R369, R393). -/
def resumeTfree (s : State) (a t : Nat) : State :=
  match slotTile (vget 0 (seqAt s a).t t) with
  | none => pendDone s a
  | some n =>
    if tileBusy s a n then s
    else
      let s1 := modSeq s a fun q => { q with t := vset q.t t 0 }
      pendDone (sweepTiles (dropProgs (freeTile (dropBinds s1 (seqAt s a).part [n]) n) n none)) a

/-- TFREE (R369). -/
def execTfree (p : BitVec 3) (t : BitVec 6) (s : State) : MOut :=
  .next (slotOp s p.toNat [] [] fun s =>
    if tileSaved s t.toNat then block s
    else match slotChk s (.tfree p t) t.toNat true with
    | .error f => raise s f
    | .ok (n, _) =>
      if streamOn s (curA s) n then raise s { faultW s 0x12 (.tfree p t) with tslot := t.toNat, tvalid := true }
      else releasing s fun s => pendOn s (.tfree t.toNat))

/-- A code for the state of an entry (R360). -/
def tileStateCode (x : TileState) : Nat :=
  match x with
  | .free => 0
  | .live => 1
  | .freed => 2

/-- An entry of the tile table as 192 bits (R360). -/
def tileEntry (t : Tile) : Nat :=
  tileStateCode t.st + t.part * 2 ^ 2 + bnat t.persist * 2 ^ 7 + bnat t.sparse * 2 ^ 8 + bnat t.fe * 2 ^ 9 + bnat t.sealed * 2 ^ 10
    + t.level * 2 ^ 11 + t.type * 2 ^ 13 + t.layout.toNat * 2 ^ 16 + t.homeArr % 32 * 2 ^ 21 + t.len * 2 ^ 26 + bnat t.placed * 2 ^ 28
    + bnat t.saved * 2 ^ 29 + t.rows * 2 ^ 32 + t.cols * 2 ^ 48 + t.base % 2 ^ 23 * 2 ^ 64 + t.words * 2 ^ 96 + t.binds % 1024 * 2 ^ 118
    + t.hbase % 2 ^ 16 * 2 ^ 128 + t.hcount % 2 ^ 16 * 2 ^ 144 + t.version.toNat * 2 ^ 160

/-- What TINFO reads for a selector (R370). -/
def tinfoValue (t : Tile) (v : Word) : Word :=
  if v.toNat < 3 then BitVec.ofNat 64 (tileEntry t / 2 ^ (64 * v.toNat))
  else if v = 3 then t.layout.setWidth 64
  else BitVec.allOnes 64

/-- TINFO (R366, R370). -/
def execTinfo (p : BitVec 3) (d : BitVec 5) (t : BitVec 6) (a : BitVec 5) (s : State) : MOut :=
  .next (slotOp s p.toNat [a.toNat] [d.toNat] fun s =>
    if tileSaved s t.toNat then block s
    else match slotChk s (.tinfo p d t a) t.toNat false with
    | .error f => raise s f
    | .ok (_, y) => result s d.toNat (tinfoValue y (reg s a.toNat)) 4)

/-- The end of a TMOVE: VERSION rises when it is OK, the programs of the old one are invalid, and rd gets status and VERSION (R371,
R393). -/
def tmoveEnd (s : State) (a d n st : Nat) (f : Tile → Tile) : State :=
  let s1 := if st = 0 then dropProgs (modTile s n fun t => f { t with version := t.version + 1 }) n (some (tileAt s n).version) else s
  putReg s1 a d (statusWord st (tileAt s1 n).version.toNat)

/-- The rest of TMOVE SEAL (R371). -/
def resumeTseal (s : State) (a d t : Nat) : State :=
  match slotTile (vget 0 (seqAt s a).t t) with
  | none => pendDone s a
  | some n => if tileBusy s a n then s else pendDone (tmoveEnd s a d n 0 fun t => { t with sealed := true }) a

/-- What TMOVE does for its control word (R371). -/
def tmoveGo (s : State) (d t n : Nat) (y : Tile) (v : Word) : State :=
  let a := curA s
  match bitsOf v 3 0 with
  | 0 =>
    let k := bitsOf v 13 8
    if bitsOf v 63 14 ≠ 0 || bitsOf v 7 4 ≠ 0 then tmoveEnd s a d n 2 id
    else if (curTile s k).isSome || tileSaved s k then tmoveEnd s a d n 1 id
    else
      let s1 := bindSlot s k n
      tmoveEnd (modCur s1 fun q => { q with t := vset q.t t 0 }) a d n 0 id
  | 1 =>
    if bitsOf v 63 9 ≠ 0 || bitsOf v 7 4 ≠ 0 then tmoveEnd s a d n 2 id
    else if streamOn s a n then tmoveEnd s a d n 1 id
    else tmoveEnd s a d n 0 fun x => { x with layout := setBit x.layout 4 (v.getLsbD 8) }
  | 2 =>
    let hb := bitsOf v 23 8
    let hc := bitsOf v 39 24
    if bitsOf v 63 40 ≠ 0 || bitsOf v 7 4 ≠ 0 || hb + hc > y.rows then tmoveEnd s a d n 2 id
    else tmoveEnd s a d n 0 fun x => { x with hbase := hb, hcount := hc }
  | 3 =>
    if bitsOf v 63 8 ≠ 0 || bitsOf v 7 4 ≠ 0 then tmoveEnd s a d n 2 id
    else pendOn s (.tseal d t)
  | _ => tmoveEnd s a d n 2 id

/-- TMOVE (R371). -/
def execTmove (p : BitVec 3) (d : BitVec 5) (t : BitVec 6) (a : BitVec 5) (s : State) : MOut :=
  .next (slotOp s p.toNat [a.toNat] [d.toNat] fun s =>
    let v := reg s a.toNat
    if tileSaved s t.toNat then block s
    else match slotChk s (.tmove p d t a) t.toNat true with
    | .error f => raise s f
    | .ok (n, y) => releasing s fun s => tmoveGo s d.toNat t.toNat n y v)

/-! ## SYNC -/

/-- Whether every copy command of a sequencer has landed in full, its flits too, and every accumulate is accepted or placed (R240, step 2). -/
def copiesLanded (s : State) (a : Nat) : Bool :=
  ((arr s a).eng.toList.all fun g => g.queue = [] && g.flight = []) && (s.flits.all fun f => f.src ≠ a) && accInFlight s a = 0

/-- SYNC issues with its answer: an acquire at GRP, and rd (R240, R420). -/
def syncIssue (s : State) (d : Nat) (v : Word) : State :=
  let s1 := acquireWork s (curA s) 1
  regionNext (modCur (setReg s1 d v) fun q => { q with syncDone := none, syncGroup := none })

/-- Answer of a SYNC on a broken group (R421): SPHASE as it stands. -/
def syncBroken (x : Group) : Word := BitVec.ofNat 64 (2 ^ 32 + bnat x.sphase)

/-- SYNC (R240, R420, R421): the bundle is held until its answer. -/
def execSync (p : BitVec 3) (d : BitVec 5) (g : BitVec 12) (s : State) : MOut :=
  .next (slotOp s p.toNat [] [d.toNat] fun s =>
    let a := curA s
    let n := groupNo s (curPart s) g.toNat
    match (curSeq s).syncDone with
    | some v => syncIssue s d.toNat v
    | none =>
      if (curSeq s).syncGroup.isSome then
        (if (groupAt s n).broken then
          syncIssue (groupWithdraw s (curPart s) g.toNat a) d.toNat (syncBroken (groupAt s n)) else block s)
      else if !groupIn s (curPart s) g.toNat || !(groupAt s n).members.getLsbD a then raise s (faultW s 0x12 (.sync p d g))
      else if phaseOn s then raise s (faultW s 0x01 (.sync p d g))
      else withGate s fun s =>
        if releaseBlocked s a 1 || !copiesLanded s a then block s
        else
          let s1 := flushResid (releaseWork s a 1) a
          if (groupAt s1 n).broken then syncIssue s1 d.toNat (syncBroken (groupAt s1 n))
          else
            let s2 := groupArrive (modCur s1 fun q => { q with syncGroup := some g.toNat }) (curPart s) g.toNat a
            match (curSeq s2).syncDone with
            | some v => syncIssue s2 d.toNat v
            | none => block s2)

/-! ## Barrier instructions -/

/-- The checks of R416: the place of the object. -/
def barChk (s : State) (i : Instr) (t : Nat) (x : Word) (upd : Bool) : Except FaultInfo Place :=
  let f := { faultW s 0x12 i with tslot := t, tvalid := true }
  match curTile s t with
  | none => .error f
  | some (k, y) =>
    if y.level ≠ 1 || isResid s k then .error f
    else if x.toNat ≥ 2 ^ 32 || 4 * x.toNat + 4 > y.words then .error { f with code := 0x10, offset := 4 * x.toNat, detail := x }
    else if upd && y.sealed then .error { f with code := 0x13, offset := 4 * x.toNat }
    else .ok (tilePlace k y (4 * x.toNat))

/-- An update of a barrier object (R416, R417). -/
def barOp (i : Instr) (p : BitVec 3) (srcs dsts : List Nat) (t : BitVec 6) (a : BitVec 5) (s : State) (k : State → Place → State) : State :=
  slotOp s p.toNat (a.toNat :: srcs) dsts fun s =>
    if tileSaved s t.toNat then block s
    else match barChk s i t.toNat (reg s a.toNat) true with
    | .error f => raise s f
    | .ok pl => k s pl

/-- CBINIT (R416, R417). -/
def execCbinit (p : BitVec 3) (d : BitVec 5) (t : BitVec 6) (a : BitVec 5) (s : State) : MOut :=
  .next (barOp (.cbinit p d t a) p [d.toNat] [] t a s fun s pl =>
    let v := reg s d.toNat
    if bitsOf v 23 16 ≠ 0xFF && !groupIn s (curPart s) (bitsOf v 23 16) then
      raise s { faultW s 0x12 (.cbinit p d t a) with tslot := t.toNat, tvalid := true }
    else releasingSt s fun s => pushOut s (curA s) { op := .cbinit v, pl := pl, size := 16 } 0 1)

/-- CBEXP (R417). -/
def execCbexp (p : BitVec 3) (d : BitVec 5) (t : BitVec 6) (a : BitVec 5) (s : State) : MOut :=
  .next (barOp (.cbexp p d t a) p [d.toNat] [] t a s fun s pl =>
    let v := reg s d.toNat
    releasingSt s fun s => pushOut s (curA s) { op := .cbexp v, pl := pl, size := 16 } 0 1)

/-- CBARR (R417): with ord 10, a release with the residual flush comes first. -/
def execCbarr (p : BitVec 3) (d : BitVec 5) (t : BitVec 6) (a : BitVec 5) (q : Bool) (c : BitVec 2) (s : State) : MOut :=
  .next (barOp (.cbarr p d t a q c) p [] [d.toNat] t a s fun s pl =>
    releasingSt s fun s =>
      pushOut s (curA s) { op := .cbarr d.toNat, pl := pl, size := 16, rel := q, scope := tileScope c } 0 1)

/-- CBWAIT issues with its answer; answered OK it is an acquire at DEV (R418). -/
def cbwaitIssue (s : State) (d : Nat) (v : Word) : State :=
  let s1 := if bitsOf v 63 32 = 0 then acquireWork s (curA s) 2 else s
  modCur (setReg s1 d v) fun q => { q with cbDone := none, cbwaiting := false, retryAt := none }

/-- What the home answers a CBWAIT at once, if it does (R417, R418). -/
def cbwaitAnswer (b : Bar) (phase : Nat) : Option Word :=
  if !barValid b then some (cbResult 3 0)
  else if barBroken b then some (cbResult 1 (barPhase b))
  else if barPhase b ≠ phase then some (cbResult 0 (barPhase b))
  else none

/-- Queue a CBWAIT at its bank, or send it again 64 cycles later when the bank is full (R418). -/
def cbwaitQueue (s : State) (addr phase : Nat) : State :=
  if bankCount' s (padBank addr) ≥ Config.bankWaiters then
    block (modCur (pmcAdd s (curA s) 0x18 1) fun q => { q with retryAt := some (s.cyc + 64) })
  else
    let w : Waiter := { bank := padBank addr, arr := curA s, no := (curSeq s).outNo, addr := addr, kind := 3, phase := phase }
    block { modCur s (fun q => { q with cbwaiting := true, retryAt := none }) with waiters := s.waiters ++ [w] }

/-- The banks of a barrier object, with the place of array `a`'s sequencer in their order of service (R200). -/
def barServed (a pa : Nat) : List (Nat × Nat) := servedAt ((List.range 4).map fun k => pa + 4 * k) a .seq

/-- CBWAIT (R417, R418): the bundle is held until its answer; its request and answer are flits (R426). -/
def execCbwait (p : BitVec 3) (d : BitVec 5) (t : BitVec 6) (a : BitVec 5) (s : State) : MOut :=
  .next (slotOp s p.toNat [d.toNat, a.toNat] [d.toNat] fun s =>
    match (curSeq s).cbDone with
    | some v => if s.cyc < (curSeq s).cbAt then block s else cbwaitIssue s d.toNat v
    | none =>
      if (curSeq s).cbwaiting || (curSeq s).retryAt.isSome || tileSaved s t.toNat then block s
      else match barChk s (.cbwait p d t a) t.toNat (reg s a.toNat) false with
      | .error f => raise s f
      | .ok pl =>
        let l := barServed (curA s) pl.pa
        let s' := markServed (countHome (markPoison s pl.pa 16) (curA s) pl.pa) l
        if feBlocked s (curA s) 0 pl.pa || !serviceOpen s l then block s
        else match cbwaitAnswer (barAt s pl.pa) (bitsOf (reg s d.toNat) 7 0) with
        | some v => cbwaitIssue s' d.toNat v
        | none => cbwaitQueue s' pl.pa (bitsOf (reg s d.toNat) 7 0))

/-- CBTEST: an acquire at DEV (R417). -/
def execCbtest (p : BitVec 3) (d : BitVec 5) (t : BitVec 6) (a : BitVec 5) (s : State) : MOut :=
  .next (slotOp s p.toNat [a.toNat] [d.toNat] fun s =>
    if tileSaved s t.toNat then block s
    else match barChk s (.cbtest p d t a) t.toNat (reg s a.toNat) false with
    | .error f => raise s f
    | .ok pl => pushOut s (curA s) { op := .cbtest d.toNat, pl := pl, size := 16, acq := true, scope := 2 } 1 0)

/-! ## Deques -/

/-- Put a deque operation among those outstanding; the owner's is performed at once when nothing holds it (R330, R331). -/
def dequeOp (s : State) (o : Out) (now : Bool) : State :=
  releasing s fun s =>
    let s1 := pushOut s (curA s) o 1 0
    if now then tryNow s1 (curA s) fun s k o => dqHome s (curA s) k o else s1

/-- DQPUSH (R330, R331). -/
def execDqpush (p : BitVec 3) (d a : BitVec 5) (b : BitVec 3) (s : State) : MOut :=
  .next (slotOp s p.toNat [a.toNat] [d.toNat] fun s =>
    dequeOp s { op := .dqpush d.toNat b.toNat (reg s a.toNat), rel := true, scope := 1, due := s.cyc + 4 } true)

/-- DQPOP (R330). -/
def execDqpop (p : BitVec 3) (d : BitVec 5) (b : BitVec 3) (s : State) : MOut :=
  .next (slotOp s p.toNat [] [d.toNat] fun s => dequeOp s { op := .dqpop d.toNat b.toNat, due := s.cyc + 4 } true)

/-- DQSTEAL (R330, R331): the array lies in rb[4:0], and rb is below 28 and within the partition. -/
def execDqsteal (p : BitVec 3) (d r : BitVec 5) (b : BitVec 3) (s : State) : MOut :=
  .next (slotOp s p.toNat [r.toNat] [d.toNat] fun s =>
    let v := reg s r.toNat
    if v.toNat ≥ 28 || partOfArr s v.toNat ≠ some (curPart s) then raise s (faultW s 0x12 (.dqsteal p d r b))
    else dequeOp s { op := .dqsteal d.toNat b.toNat v.toNat, acq := true, scope := 1, due := s.cyc + 1 } false)

/-! ## TLAUNCH, LOCQ, SEAL -/

/-- TLAUNCH (R316, R326): held until its release is done; then the record is read with acquire at DEV and its argument block
after it, each after the earlier accesses that come before it, and the launch accepted or refused. -/
def execTlaunch (p : BitVec 3) (d : BitVec 5) (h : BitVec 4) (f : BitVec 9) (s : State) : MOut :=
  .next (slotOp s p.toNat [] [d.toNat] fun s =>
    withGate s fun s =>
      if releaseBlocked s (curA s) 2 then block s
      else
        let s1 := releaseWork s (curA s) 2
        onChk s1 h.toNat (handleChk s1 (.tlaunch p d h f) h.toNat true (f.toInt * 64) 64 true false false) fun pl =>
          if accessBlocked s1 (curA s) pl.pa 64 || postedBlocked s1 (curA s) pl.pa then block s1 else
          let (s2, v, bad) := readFor s1 (curA s) { op := .load d.toNat false, pl := pl, size := 64, acq := true, scope := 2 }
          if bad then raise s2 { slotFault s2 0x41 with addr := pl.va }
          else if argsBlocked s1 (curA s) (curPart s) (BitVec.ofNat 512 v) then block s1
          else
            let (s3, r) := deviceLaunch s2 (curPart s2) pl.va (BitVec.ofNat 512 v)
            regionNext (setReg s3 d.toNat r))

/-- Queries 0x0 to 0x2 of LOCQ (R359). -/
def locqNow (s : State) (v : Word) : Word :=
  let top := curA s
  let die := dieOfArr s top
  match bitsOf v 63 60 with
  | 0 => BitVec.ofNat 64 (top + top % 4 * 2 ^ 5 + die * 2 ^ 8 + s.pkg.harvested * 2 ^ 12 + s.pkg.chipId * 2 ^ 16)
  | 1 =>
    let a := bitsOf v 4 0
    if a ≥ 28 then BitVec.allOnes 64
    else BitVec.ofNat 64 (a % 4 * 2 ^ 5 + dieOfArr s a * 2 ^ 8 + crossings die (dieOfArr s a) * 2 ^ 16)
  | 2 =>
    let m := bitsOf v 3 0
    if m ≥ 12 then BitVec.allOnes 64
    else BitVec.ofNat 64 (attachedDie m * 2 ^ 8 + crossings die (attachedDie m) * 2 ^ 16)
  | _ => BitVec.allOnes 64

/-- LOCQ (R359): query 0x3 is answered 16 cycles later or when its walk ends. -/
def execLocq (p : BitVec 3) (d a : BitVec 5) (s : State) : MOut :=
  .next (slotOp s p.toNat [a.toNat] [d.toNat] fun s =>
    let v := reg s a.toNat
    if bitsOf v 63 60 = 3 then
      pushOut s (curA s) { op := .locq d.toNat (BitVec.ofNat 64 (bitsOf v 56 0)), due := s.cyc + 16 } 1 0
    else result s d.toNat (locqNow s v) 1)

/-- SEAL and UNSEAL: held until their release is done, and while accumulates to their pages are still to be accepted, then performed whole
(R260, R353, R354). -/
def sealOp (p : BitVec 3) (d a b : BitVec 5) (on : Bool) (s : State) : State :=
  slotOp s p.toNat [a.toNat, b.toNat] [d.toNat] fun s =>
    let va := (reg s a.toNat).toNat
    let n := (reg s b.toNat).toNat
    withGate s fun s =>
      if releaseBlocked s (curA s) 2 || (0 < n && n ≤ 4096 && invalWaits s (curPart s) va n) then block s
      else
        let (s1, v) := sealRange (releaseWork s (curA s) 2) (curPart s) va n on
        regionNext (setReg s1 d.toNat v)

/-- SEAL (R352, R353). -/
def execSeal (p : BitVec 3) (d a b : BitVec 5) (s : State) : MOut := .next (sealOp p d a b true s)

/-- UNSEAL (R352, R353). -/
def execUnseal (p : BitVec 3) (d a b : BitVec 5) (s : State) : MOut := .next (sealOp p d a b false s)

end Sys2Proof.Machine
end

