-- ==== Sys2Proof/Machine/WordUse.lean ====
section
/-! DEFINITION. What a cell instruction's fields name: sources, destination, tile slot and drain (R52, R153, R160, R187), the port
rule (R153), the drain-port conflict (R154), and the read and write sets of a restart region (R440). -/

namespace Sys2Proof.Machine

/-- What the fields of a cell slot name. -/
structure CellUse where
  /-- Registers read, by operand code, implicit reads of dst included. -/
  srcs : List Nat := []
  /-- Registers written, by operand code, apart from C under the c modifier and L. -/
  dsts : List Nat := []
  /-- Tile slot read or written in field A. -/
  tileRead : Option Nat := none
  tileWrite : Option Nat := none
  /-- The result also goes to L (R138). -/
  toL : Bool := false
  /-- The c modifier. -/
  toC : Bool := false
  /-- Drain of a MOV.d, by operand code (R166). -/
  drain : Option Nat := none
  /-- Selector pair. -/
  w : Nat := 0
  /-- The slot holds an instruction. -/
  live : Bool := true
  deriving DecidableEq, Repr

/-- A vector instruction: sources, destination. -/
def vecUse (srcs : List (BitVec 6)) (d : BitVec 6) (w : BitVec 3) (c : Bool) : CellUse :=
  { srcs := srcs.map (·.toNat), dsts := [d.toNat], toL := true, toC := c, w := w.toNat }

/-- One with an immediate form. -/
def immUse (d a b : BitVec 6) (w : BitVec 3) (c m : Bool) : CellUse := vecUse (if m then [a] else [a, b]) d w c

/-- What the fields of an instruction in VA, VB or MX name; `outf` is FMT.OUTF, which decides whether ARND reads B (R190). -/
def cellUse (outf : Nat) (i : Instr) : CellUse :=
  match i with
  | .fadd d a b w c _ | .fsub d a b w c _ | .fmul d a b w c _ _ | .fmin d a b w c _ | .fmax d a b w c _
  | .fcmpEq d a b w c _ | .fcmpNe d a b w c _ | .fcmpLt d a b w c _ | .fcmpLe d a b w c _ | .hadd2 d a b w c _
  | .cvtF32E4m3 d a b w c _ | .cvtF32E5m2 d a b w c _ | .imul d a b w c _ | .cellSel d a b w c _ | .vperm d a b w c _
  | .flag d a b w c => vecUse [a, b] d w c
  | .fma d a b w c _ _ | .hfma2 d a b w c _ _ | .bfma2 d a b w c _ _ | .imad d a b w c _
  | .cvtE4m3F32 d a b w c _ | .cvtE5m2F32 d a b w c _ => vecUse [a, b, d] d w c
  | .frcp d a w c _ | .frsq d a w c _ | .fsqrt d a w c _ | .fex2 d a w c _ | .flg2 d a w c _
  | .cvtF32F16 d a w c _ _ | .cvtF32Bf16 d a w c _ _ | .cvtI32F32 d a w c _ | .cvtF32I32 d a w c _ | .iabs d a w c _
  | .vredAdd d a w c _ | .vredMax d a w c _ | .vredMin d a w c _ | .vredOr d a w c _ | .srng d a w c _ | .rkval d a w c _ =>
    vecUse [a] d w c
  | .cvtF16F32 d a w c _ _ | .cvtBf16F32 d a w c _ _ => vecUse [a, d] d w c
  | .iadd d a b w c _ m | .isub d a b w c _ m | .imin d a b w c _ m | .imax d a b w c _ m | .cellAnd d a b w c _ m
  | .cellOr d a b w c _ m | .cellXor d a b w c _ m | .cellShl d a b w c _ m | .cellShr d a b w c _ m | .cellSra d a b w c _ m
  | .icmpEq d a b w c _ m | .icmpNe d a b w c _ m | .icmpLt d a b w c _ m | .icmpLtn d a b w c _ m | .vbcast d a b w c _ m =>
    immUse d a b w c m
  | .mov d a b w c _ m => { vecUse [a] d w c with drain := if m then some b.toNat else none }
  | .ldc d a b w c _ m => { vecUse (if m then [] else [b]) d w c with tileRead := some a.toNat }
  | .vgath d a b w c _ => { vecUse [b] d w c with tileRead := some a.toNat }
  | .stc d a b w m => { srcs := if m then [d.toNat] else [b.toNat, d.toNat], tileWrite := some a.toNat, w := w.toNat }
  | .vscat d a b w => { srcs := [b.toNat, d.toNat], tileWrite := some a.toNat, w := w.toNat }
  | .optupd d a b w c _ _ =>
    { srcs := [a.toNat, b.toNat, b.toNat + 1, d.toNat, 7], dsts := [b.toNat, b.toNat + 1, d.toNat], toL := true, toC := c, w := w.toNat }
  | .mma d a b w _ | .mmaNeg d a b w _ => { srcs := [a.toNat, b.toNat, d.toNat], dsts := [d.toNat], w := w.toNat }
  | .mmaSel d a b w | .racc d a b w => { srcs := [b.toNat, d.toNat], dsts := [d.toNat], tileRead := some a.toNat, w := w.toNat }
  | .aclr d w => { dsts := [d.toNat], w := w.toNat }
  | .amov d a w c _ | .ald d a w c _ => vecUse [a] d w c
  | .arnd d a b w c _ _ => vecUse (if outf ≥ 2 then [a, b, d] else [a, d]) d w c
  | _ => { live := false }

/-! ## The port rule -/

/-- Main-file reads and writes of a slot (R153, R187, R191). -/
def mainReads (u : CellUse) : Nat := (u.srcs.filter isMain).length
def mainWrites (u : CellUse) : Nat := (u.dsts.filter isMain).length

/-- Whether VA or VB names an accumulator where none may stand (R153, R175). -/
def accMisuse (i : Instr) : Bool :=
  match i with
  | .optupd d _ _ _ _ _ _ => isAcc d.toNat
  | _ => let u := cellUse 2 i
    u.srcs.any isAcc || u.dsts.any isAcc

/-- The slot, by number, at which a word breaks the port rule, going through its slots in order. -/
def portBreak : List (Nat × Instr) → Nat → Nat → Option Nat
  | [], _, _ => none
  | (k, i) :: t, r, w =>
    let u := cellUse 2 i
    if (k ≤ 2 && accMisuse i) || r + mainReads u > 3 || w + mainWrites u > 2 then some k
    else portBreak t (r + mainReads u) (w + mainWrites u)

/-- The slots of a word with their numbers in fault records. -/
def wordSlots (va vb mx : Instr) : List (Nat × Instr) := [(1, va), (2, vb), (3, mx)]

/-- DETAIL of PORT: reads and writes counted (R153, R428). -/
def portDetail (va vb mx : Instr) : Word :=
  let us := [va, vb, mx].map (cellUse 2)
  BitVec.ofNat 64 ((us.map mainReads).sum + (us.map mainWrites).sum * 16)

/-- Two MOV.d of one word name one drain port (R154). -/
def drainClash (va vb : Instr) : Bool :=
  match (cellUse 0 va).drain, (cellUse 0 vb).drain with
  | some x, some y => x = y
  | _, _ => false

/-! ## Restart regions -/

/-- Names a source code counts as: neighbours are C; Z and I are none (R440). -/
def nameOf (c : Nat) : List Nat :=
  if c = codeZ || c = codeI then []
  else if c = codeN || c = codeS || c = codeE || c = codeW then [codeC]
  else [c]

/-- Name of a tile slot (R440). -/
def tileName (t : Nat) : Nat := 64 + t

/-- Names a slot reads. -/
def readNames (u : CellUse) : List Nat := u.srcs.flatMap nameOf ++ (u.tileRead.map tileName).toList

/-- Cells a selector pair chooses that push to a drain: those of the bottom row to S, or those of column 31 at a chain position to its
E port (R282). -/
def pushCount (x : Arr) (sel : SelPair) (n : Nat) : Nat :=
  if n = portS then (if sel.rows.getLsbD (32 * x.seq.len - 1) then ((List.range 32).filter fun c => sel.cols.getLsbD c).length else 0)
  else if sel.cols.getLsbD 31 then ((List.range 32).filter fun r => sel.rows.getLsbD (32 * (n - 24) + r)).length else 0

/-- Tile slots that `n` pushes to a drain write: that of the pattern under way, which counts whether or not a cell is selected, and that of
its follower where they run into it (R281, R440). -/
def pushSlots (p : Port) (n : Nat) : List Nat :=
  match p.pats with
  | [] => []
  | x :: rest =>
    (if x.ended p.taken && rest ≠ [] then [] else [tileName x.slot])
      ++ (if x.ended p.taken || (!x.rep && x.size < p.taken + n) then (rest.take 1).map fun y => tileName y.slot else [])

/-- Tile slots the drains a MOV.d may push to write, as their BINDs latched them. -/
def drainSlots (x : Arr) (sels : Vector SelPair 8) (u : CellUse) : List Nat :=
  match u.drain with
  | none => []
  | some c => x.ports.flatMap fun p =>
      if (if c = codeS then p.1 = portS else p.1 ≥ 24) then pushSlots p.2 (pushCount x (vget {} sels u.w) p.1) else []

/-- Names a slot writes. -/
def writeNames (x : Arr) (sels : Vector SelPair 8) (u : CellUse) : List Nat :=
  u.dsts ++ (if u.toC then [codeC] else []) ++ (if u.toL then [codeL] else []) ++ (u.tileWrite.map tileName).toList
    ++ drainSlots x sels u

/-- Go through instructions in order: the read and write sets, or the name whose write could not be replayed, since the region has read it
and had not written it before (R440). -/
def regionGo (x : Arr) (sels : Vector SelPair 8) (outf : Nat) : List Instr → List Nat → List Nat → Except Nat (List Nat × List Nat)
  | [], r, w => .ok (r, w)
  | i :: t, r, w =>
    let u := cellUse outf i
    let r1 := r ++ (readNames u).filter fun n => !r.contains n
    match (writeNames x sels u).find? fun n => r1.contains n && !w.contains n with
    | some n => .error n
    | none => regionGo x sels outf t r1 (w ++ (writeNames x sels u).filter fun n => !w.contains n)

/-- FMT.OUTF (R181). -/
def fmtOutf (fmt : Word) : Nat := bitsOf fmt 18 16

/-- Check the instructions of words to be issued against the open region of array `a`; their selectors are those before the bundle
(R145). -/
def regionCheck (s : State) (a : Nat) (fmt : Word) (is_ : List Instr) : Except Nat (List Nat × List Nat) :=
  regionGo (arr s a) ((s.bun.pre.map (·.w)).getD (seqAt s a).w) (fmtOutf fmt) is_ (seqAt s a).reads (seqAt s a).writes

end Sys2Proof.Machine
end

