-- ==== Sys2Proof/Machine/WordIssue.lean ====
section
/-! DEFINITION. The issue of a word: what it latches (R20, R145), the fragments assigned to it (R278, R279), the drain places it
reserves (R282), and the checks of its FMT (R187, R389). -/

namespace Sys2Proof.Machine

/-- A word about to issue. -/
structure WordIn where
  va : Instr := .nop
  vb : Instr := .nop
  mx : Instr := .nop
  /-- Masks of its three slots. -/
  mva : SelPair := {}
  mvb : SelPair := {}
  mmx : SelPair := {}
  fmt : Word := 0
  pc : Nat := 0
  playStart : Option Nat := none
  /-- Tile slots as they stand at its issue. -/
  t : Vector (BitVec 15) 64 := Vector.replicate 64 0
  deriving DecidableEq, Repr

/-- What the slots of a word name, each with its masks. -/
def WordIn.uses (w : WordIn) : List (CellUse × SelPair) :=
  let o := fmtOutf w.fmt
  [(cellUse o w.va, w.mva), (cellUse o w.vb, w.mvb), (cellUse o w.mx, w.mmx)]

/-- Columns whose cell in chain row 0 pops N (R278). -/
def northPops (l : List (CellUse × SelPair)) : List Nat :=
  below 32 fun c => l.any fun x => x.1.srcs.contains codeN && x.2.rows.getLsbD 0 && x.2.cols.getLsbD c

/-- Chain rows whose cell in column 0 pops W (R278). -/
def westPops (l : List (CellUse × SelPair)) (rows : Nat) : List Nat :=
  below rows fun r => l.any fun x => x.1.srcs.contains codeW && x.2.rows.getLsbD r && x.2.cols.getLsbD 0

/-- Columns whose cell in the last chain row may push S (R282). -/
def southPushes (l : List (CellUse × SelPair)) (rows : Nat) : List Nat :=
  below 32 fun c => l.any fun x => x.1.drain = some codeS && x.2.rows.getLsbD (rows - 1) && x.2.cols.getLsbD c

/-- Chain rows whose cell in column 31 may push E (R282). -/
def eastPushes (l : List (CellUse × SelPair)) (rows : Nat) : List Nat :=
  below rows fun r => l.any fun x => x.1.drain = some codeE && x.2.rows.getLsbD r && x.2.cols.getLsbD 31

/-- Members of a list of chain rows that lie at a chain position. -/
def rowsAt (l : List Nat) (p : Nat) : List Nat := l.filter fun r => r / 32 = p

/-- Whether the streams and drains of array `a` let a word issue (R279). -/
def wordReady (s : State) (a : Nat) (w : WordIn) : Bool :=
  let l := w.uses
  let rows := chainRows s a
  let gives (n k : Nat) : Bool := !(portAt s a n).bound || k ≤ (portAt s a n).ready
  let takes (n k : Nat) : Bool := !(portAt s a n).bound || k ≤ drainRoom (portAt s a n)
  gives portN (northPops l).length && takes portS (southPushes l rows).length
    && (List.range (rows / 32)).all fun p =>
        gives (portW p) (rowsAt (westPops l rows) p).length && takes (portE p) (rowsAt (eastPushes l rows) p).length

/-- Assign the oldest fragments of a bound port to cells in order (R278). -/
def assignPort (s : State) (a n : Nat) : List Nat → State × List (Nat × Popped)
  | [] => (s, [])
  | c :: t =>
    let (p, x) := popFrag (portAt s a n)
    let (s1, l) := assignPort (modPort s a n fun _ => p) a n t
    (s1, (c, x) :: l)

/-- Assign a port's fragments, if it is bound. -/
def assignIf (s : State) (a n : Nat) (cells : List Nat) : State × List (Nat × Popped) :=
  if (portAt s a n).bound then assignPort s a n cells else (s, [])

/-- Assign the W ports of every position of a chain. -/
def assignWest (s : State) (a : Nat) (cells : List Nat) : List Nat → State × List (Nat × Popped)
  | [] => (s, [])
  | p :: t =>
    let (s1, l1) := assignIf s a (portW p) (rowsAt cells p)
    let (s2, l2) := assignWest s1 a cells t
    (s2, l1 ++ l2)

/-- Reserve drain places for cells in order, if the port is bound (R282). -/
def reserveIf (s : State) (a n word : Nat) (cells : List Nat) : State :=
  if (portAt s a n).bound then cells.foldl (fun s c => modPort s a n fun p => reservePush p word c) s else s

/-- The tile slots a word names with the tiles they hold (R361). -/
def wordTiles (w : WordIn) : List (Nat × Nat) :=
  (w.uses.flatMap fun x => (x.1.tileRead.toList ++ x.1.tileWrite.toList)).filterMap fun k =>
    (slotTile (vget 0 w.t k)).map fun n => (k, n)

/-- Tiles a word writes, each once (R393). -/
def wordWrites (w : WordIn) : List Nat :=
  ((w.uses.filterMap fun x => x.1.tileWrite).filterMap fun k => slotTile (vget 0 w.t k)).eraseDups

/-- Before a word issues, what commands that have left cp have sent to cell SRAM lands: the word sees it in every cell (R168). -/
def landCells (s : State) (a : Nat) : State :=
  [0, 1, 2, 3].foldl (fun s e =>
    let g := engAt s a e
    let (due, rest) := splitLast (fun x => g.queue.all (fun c => c.seq ≠ x.seq) && x.cells.any fun c => c.1 ≥ cellBase 0) g.flight
    due.foldl (fun s x => landSector s a e x) (modEng s a e fun g => { g with flight := rest })) s

/-- Issue a word: it takes the next number, its fragments and places, and counts in wf (R20, R145, R278, R282, R393, R409); what completed commands wrote to the cells
stands before it (R168). -/
def issueWord (s0 : State) (a : Nat) (w : WordIn) : State :=
  let s := landCells s0 a
  let q := seqAt s a
  let rows := chainRows s a
  let l := w.uses
  let (s1, north) := assignIf s a portN (northPops l)
  let (s2, west) := assignWest s1 a (westPops l rows) (List.range (rows / 32))
  let s3 := reserveIf s2 a portS q.wordNo (southPushes l rows)
  let s4 := (List.range (rows / 32)).foldl (fun s p => reserveIf s a (portE p) q.wordNo (rowsAt (eastPushes l rows) p)) s3
  let s5 := (wordWrites w).foldl (fun s n => bumpCell s q.part n) s4
  let f : WordF := { no := q.wordNo, issued := s.cyc, pc := w.pc, va := w.va, vb := w.vb, mx := w.mx, mva := w.mva, mvb := w.mvb,
                     mmx := w.mmx, fmt := w.fmt, tiles := wordTiles w, playStart := w.playStart, west := west, north := north,
                     sigma0 := q.sigma }
  modArr s5 a fun x => { x with words := x.words ++ [f], seq := { x.seq with wordNo := x.seq.wordNo + 1, wf := x.seq.wf + 1 } }

/-! ## Checks against FMT -/

/-- Whether ARND agrees with FMT.OUTF (R187, R190). -/
def arndOk (fmt : Word) (b : BitVec 6) (m : Bool) : Bool := if fmtOutf fmt < 2 then b = 0 else !m

/-- The slot word whose check against the word's FMT fails, if one does (R187, R389). -/
def fmtBreak (fmt : Word) (i : Instr) : Bool :=
  match i with
  | .arnd _ _ b _ _ _ m => !arndOk fmt b m
  | .mmaSel _ _ _ _ => !(bitsOf fmt 10 8 = bitsOf fmt 14 12 && bitsOf fmt 10 8 ≤ 1)
  | _ => false

end Sys2Proof.Machine
end

