-- ==== Sys2Proof/Machine/ScPattern.lean ====
section
/-! DEFINITION. Pattern micro-programs (R385 to R401): the micro-program cache, Madder's compile, PLAY and PATC; and LDATT (R406). -/

namespace Sys2Proof.Machine

/-! ## The micro-program cache -/

/-- FMT[14:8]. -/
def fmtKey (fmt : Word) : BitVec 7 := BitVec.ofNat 7 (bitsOf fmt 14 8)

/-- Whether an entry's key matches a tile (R392). -/
def progMatch (g : Prog) (n : Nat) (t : Tile) (fmt : Word) : Bool :=
  g.valid && g.tile = n && g.version = t.version && g.rows = t.rows && g.fmtk = fmtKey fmt

/-- Entry `k` of the cache of array `a`. -/
def progAt (s : State) (a k : Nat) : Prog := vget {} (arr s a).progs k

/-- Change an entry of the cache. -/
def modProg (s : State) (a k : Nat) (f : Prog → Prog) : State := modArr s a fun x => { x with progs := vmod {} x.progs k f }

/-- An entry is used: a PLAY or PATC has found it (R395; log 69). -/
def touchProg (s : State) (a k : Nat) : State := modProg s a k fun g => { g with used := s.cyc }

/-- Find the entry of a tile (R392). -/
def findProg (s : State) (a n : Nat) (t : Tile) (fmt : Word) : Option Nat :=
  (List.range 32).find? fun k => progMatch (progAt s a k) n t fmt

/-- Whether an entry is in use by a PLAY: until its last word issues (R392). -/
def progInUse (s : State) (a k : Nat) : Bool :=
  match (seqAt s a).play with
  | none => false
  | some y => y.entry = k && y.words ≠ []

/-- The entry with the oldest use among those given. -/
def oldestProg (s : State) (a : Nat) : List Nat → Option Nat
  | [] => none
  | k :: t => match oldestProg s a t with
    | none => some k
    | some j => some (if (progAt s a k).used ≤ (progAt s a j).used then k else j)

/-- Entries that may be evicted: READY or DENSE, and not in use (R395). -/
def evictable (s : State) (a : Nat) : List Nat :=
  below 32 fun k => (progAt s a k).valid && (progAt s a k).st ≠ 0 && !progInUse s a k

/-- The entry a new trigger takes: a free one, else the least recently used that may go; `none` drops the trigger (R394). -/
def entryFor (s : State) (a : Nat) : Option Nat :=
  match (List.range 32).find? fun k => !(progAt s a k).valid && !progInUse s a k with
  | some k => some k
  | none => oldestProg s a (evictable s a)

/-- Trigger a compile (R394): the state, and whether an entry was made. -/
def triggerCompile (s : State) (a n : Nat) (t : Tile) (fmt : Word) (thr : Nat) : State × Bool :=
  match entryFor s a with
  | none => (s, false)
  | some k =>
    let g : Prog := { valid := true, st := 0, tile := n, version := t.version, rows := t.rows, fmtk := fmtKey fmt, thr := thr,
                      afterWord := (seqAt s a).wordNo, used := s.cyc }
    (modProg (pmcAdd s a 0x17 1) a k fun _ => g, true)

/-! ## Madder -/

/-- Whether a row of a cell's slice is non-zero (R386). -/
def rowNonZero (s : State) (base k : Nat) : Bool :=
  (List.range 8).any fun j => readNat s.mem (base + sparseByte k j) 2 % 2 ^ 15 ≠ 0

/-- LANES of a half of a chunk in a slice; `n` is 2c + h (R386, R395). -/
def halfLanes (s : State) (base n : Nat) : Nat :=
  (List.range 8).foldl (fun acc b => if rowNonZero s base (8 * n + b) then acc + 2 ^ b else acc) 0

/-- Non-zero rows of a tile in a cell (R386). -/
def cellNz (s : State) (t : Tile) (c : Nat) : Nat := ((List.range t.rows).filter fun k => rowNonZero s (tileBase t c) k).length

/-- The largest non-zero count over the placement (R391). -/
def maxNz (s : State) (a : Nat) (t : Tile) : Nat := (chainCells s a).foldl (fun m c => Nat.max m (cellNz s t c)) 0

/-- The list Lv, by 2c + h (R395). -/
def halvesUsed (s : State) (a : Nat) (t : Tile) : List Nat :=
  below (t.rows / 8) fun n => (chainCells s a).any fun c => halfLanes s (tileBase t c) n ≠ 0

/-- Whether a compile may begin: none runs, it is the oldest waiting, and the words before its trigger have reported (R394). -/
def compileNext (s : State) (a : Nat) : Option Nat :=
  let waiting := below 32 fun k => (progAt s a k).valid && (progAt s a k).st = 0 && (progAt s a k).ends.isNone
  if (List.range 32).any fun k => (progAt s a k).valid && (progAt s a k).ends.isSome then none
  else match oldestProg s a waiting with
    | none => none
    | some k => if (arr s a).words.any fun w => w.no < (progAt s a k).afterWord then none else some k

/-- The uncorrectable words that Madder meets as it reads a tile's slices (R211, R424). -/
def compileMeet (s : State) (a : Nat) (t : Tile) : State :=
  let inside (w : Nat) : Bool := (chainCells s a).any fun c => tileBase t c ≤ w && w < tileBase t c + 4 * t.words
  (s.ecc.filter fun e => inside e.1).foldl (fun s e => markPoison s e.1 4) s

/-- COMPILE_BEGIN (R394): the tile's slices are read. -/
def compileBegins (s : State) (a : Nat) : State :=
  match compileNext s a with
  | none => s
  | some k =>
    let t := tileAt s (progAt s a k).tile
    modProg (compileMeet s a t) a k fun g => { g with maxnz := maxNz s a t, ends := some (s.cyc + 64 + 2 * maxNz s a t) }

/-- Entries whose blocks and maps are taken (R392, R395). -/
def holdsStore (s : State) (a k : Nat) : Bool :=
  ((progAt s a k).valid || progInUse s a k) && (progAt s a k).st = 1

/-- The lowest run of `n` free maps (R395). -/
def freeMaps (s : State) (a n : Nat) : Option Nat :=
  (List.range (257 - n)).find? fun b => (List.range 32).all fun k =>
    !holdsStore s a k || (progAt s a k).mapBase + (progAt s a k).len ≤ b || b + n ≤ (progAt s a k).mapBase

/-- Free program-store blocks, lowest first (R391). -/
def freeBlocks (s : State) (a : Nat) : List Nat :=
  below 32 fun b => (List.range 32).all fun k => !(holdsStore s a k && (progAt s a k).blocks.getLsbD b)

/-- Blocks and the first map for a program of `len` words, where both fit (R395). -/
def roomFor (s : State) (a len : Nat) : Option (BitVec 32 × Nat) :=
  let bs := freeBlocks s a
  match freeMaps s a len with
  | none => none
  | some b =>
    if ceilDiv len 128 ≤ bs.length then some ((bs.take (ceilDiv len 128)).foldl (fun m k => setBit m k true) 0, b) else none

/-- Make room for a program of `len` words, evicting least recently used entries until it fits or none is left: the state, and the
blocks and first map (R395). -/
def makeRoom : Nat → State → Nat → Nat → State × Option (BitVec 32 × Nat)
  | 0, s, a, len => (s, roomFor s a len)
  | f + 1, s, a, len =>
    match roomFor s a len with
    | some x => (s, some x)
    | none => match oldestProg s a (evictable s a) with
      | none => (s, none)
      | some k => makeRoom f (modProg s a k fun g => { g with valid := false }) a len

/-- Write every cell's maps of a program (R388, R395). -/
def writeMaps (s : State) (a : Nat) (t : Tile) (base : Nat) (lv : List Nat) : State :=
  (chainCells s a).foldl (fun s c =>
    ((lv.zip (List.range lv.length)).foldl (fun s x =>
      let l := halfLanes s (tileBase t c) x.1
      let m := if l = 0 then 0 else l + x.1 % 2 * 2 ^ 8 + x.1 / 2 * 2 ^ 9
      { s with pram := tset 0 s.pram (c * 256 + (base + x.2) % 256) (BitVec.ofNat 16 m) }) s)) s

/-- COMPILE_END of entry `k` (R395). -/
def compileEnds (s : State) (a k : Nat) : State :=
  let g := progAt s a k
  let t := tileAt s g.tile
  let lv := halvesUsed s a t
  let dense (s : State) (c : Nat) : State := modProg s a k fun g => { g with st := 2, cause := c, ends := none, used := s.cyc }
  if (chainCells s a).any fun c => 16 * cellNz s t c > g.thr * t.rows then dense s 0
  else if lv.length > 256 then dense s 1
  else if lv.length = 0 then modProg s a k fun g => { g with st := 1, len := 0, lv := [], ends := none, used := s.cyc }
  else match makeRoom 33 s a lv.length with
    | (s1, none) => dense s1 2
    | (s1, some (bl, b)) =>
      modProg (writeMaps s1 a t b lv) a k fun g =>
        { g with st := 1, blocks := bl, mapBase := b, len := lv.length, lv := lv.map fun n => (n / 2, n % 2), ends := none, used := s.cyc }

/-- The entry whose compile ends now, if one does. -/
def compileDue (s : State) (a : Nat) : Option Nat :=
  (List.range 32).find? fun k => (progAt s a k).valid && (match (progAt s a k).ends with
    | none => false
    | some c => c ≤ s.cyc)

/-! ## PLAY -/

/-- Threshold in sixteenths: 0 means 8 (R396). -/
def thrOf (n : Nat) : Nat := if n = 0 then 8 else n

/-- Fields of a play descriptor (R397). -/
def playX (v : Word) : Nat := bitsOf v 5 0
def playAcc (v : Word) : Nat := 16 + bitsOf v 9 6
def playXreg (v : Word) : Nat := bitsOf v 12 10
def playWreg (v : Word) : Nat := bitsOf v 15 13
def playSel (v : Word) : Nat := bitsOf v 18 16

/-- An operand code as a field. -/
def fld6 (n : Nat) : BitVec 6 := BitVec.ofNat 6 n

/-- LDC.imm of a fragment of a tile slot. -/
def ldcImm (reg slot frag sel : Nat) : Instr := .ldc (fld6 reg) (fld6 slot) (fld6 frag) (BitVec.ofNat 3 sel) false false true

/-- The words of a sparse run; `prev` is the chunk of the word before (R399). -/
def sparseWords (v : Word) (wslot : Nat) : Option Nat → Bool → List (Nat × Nat) → List (Instr × Instr × Instr × Bool)
  | _, _, [] => []
  | prev, first, (c, _) :: t =>
    (if prev = some c then .nop else ldcImm (playXreg v) (playX v) c (playSel v), .nop,
      .mmaSel (fld6 (playAcc v)) (fld6 wslot) (fld6 (playXreg v)) (BitVec.ofNat 3 (playSel v)), first)
      :: sparseWords v wslot (some c) false t

/-- The words of a dense run of `n` chunks (R399). -/
def denseWords (v : Word) (wslot n : Nat) : List (Instr × Instr × Instr × Bool) :=
  (List.range n).flatMap fun c =>
    let mm (hi : Bool) : Instr := .mma (fld6 (playAcc v)) (fld6 (playXreg v)) (fld6 (playWreg v)) (BitVec.ofNat 3 (playSel v)) hi
    [(ldcImm (playXreg v) (playX v) c (playSel v), ldcImm (playWreg v) wslot (2 * c) (playSel v), mm false, false),
     (.nop, ldcImm (playWreg v) wslot (2 * c + 1) (playSel v), mm true, false)]

/-- The cell slots of a list of words, in issue order. -/
def wordInstrs (l : List (Instr × Instr × Instr × Bool)) : List Instr := l.flatMap fun w => [w.1, w.2.1, w.2.2.1]

/-- Begin a run: its names are checked, after those of the bundle's own word, and its words wait to issue (R399); the monitor issues
no word (R434). -/
def playRun (s : State) (i : Instr) (d : Nat) (v : Word) (words : List (Instr × Instr × Instr × Bool)) (entry mapBase : Nat) (status : Word) :
    State :=
  let a := curA s
  let fmt := (curSeq s).fmt.inForce
  if (curSeq s).mon && words ≠ [] then raise s (faultW s 0x01 i)
  else match regionCheck s a fmt (s.bun.word ++ wordInstrs words) with
  | .error n => raise s (faultD s 0x21 (BitVec.ofNat 64 n))
  | .ok (r, w) =>
    let s1 := touchProg s a entry
    if words = [] then modCur (result s1 d status 1) fun q => { q with reads := r, writes := w }
    else modCur s1 fun q =>
      { q with reads := r, writes := w, stop := .play
               play := some { rd := d, fmt := fmt, mask := vget {} q.w (playSel v), words := words, mapBase := mapBase,
                              status := status, pc := q.pc, entry := entry } }

/-- A sparse run of a READY entry. -/
def playSparse (s : State) (i : Instr) (d wslot : Nat) (v : Word) (k : Nat) : State :=
  let g := progAt s (curA s) k
  playRun s i d v (sparseWords v wslot none true g.lv) k g.mapBase (statusWord 0 g.len)

/-- A dense run, of a DENSE entry or of none (32). -/
def playDense (s : State) (i : Instr) (d wslot : Nat) (v : Word) (t : Tile) (k : Nat) : State :=
  playRun s i d v (denseWords v wslot (t.rows / 16)) k 0 (statusWord 1 (t.rows / 8))

/-- The tile of a PLAY or PATC: CELL and SPARSE (R398). -/
def playTile (s : State) (i : Instr) (t : Nat) : Except FaultInfo (Nat × Tile) :=
  match curTile s t with
  | none => .error { faultW s 0x12 i with tslot := t, tvalid := true }
  | some (n, y) => if y.level = 0 && y.sparse then .ok (n, y) else .error { faultW s 0x12 i with tslot := t, tvalid := true }

/-- Whether FMT matches the TYPE of a tile (R398, step 4). -/
def fmtMatches (fmt : Word) (t : Tile) : Bool := bitsOf fmt 10 8 = t.type && bitsOf fmt 14 12 = t.type

/-- Steps 2 to 5 of R398. -/
def playFault (s : State) (i : Instr) (v : Word) (y : Tile) : Option FaultInfo :=
  let bad (code : Nat) : FaultInfo := { faultW s code i with tslot := playX v, tvalid := true }
  match curTile s (playX v) with
  | none => some (bad 0x12)
  | some (_, x) =>
    if x.level ≠ 0 then some (bad 0x12)
    else if bitsOf v 63 19 ≠ 0 || playXreg v = playWreg v then some (faultD s 0x01 (v &&& 0xFFFFFFFF))
    else if !fmtMatches (curSeq s).fmt.inForce y then some (faultW s 0x01 i)
    else if phaseOn s then some (faultD s 0x01 (phaseDetail s))
    else none

/-- PLAY (R398, R399); `waits` for PLAY.W. -/
def play (i : Instr) (p : BitVec 3) (d a h : BitVec 5) (t : BitVec 6) (waits : Bool) (s : State) : State :=
  slotOp s p.toNat [a.toNat] [d.toNat] fun s =>
    let v := reg s a.toNat
    if tileSaved s t.toNat then block s
    else match playTile s i t.toNat with
    | .error f => raise s f
    | .ok (n, y) => match playFault s i v y with
      | some f => raise s f
      | none =>
        let fmt := (curSeq s).fmt.inForce
        match findProg s (curA s) n y fmt with
        | some k =>
          if (progAt s (curA s) k).st = 1 then playSparse (pmcAdd s (curA s) 0x16 1) i d.toNat t.toNat v k
          else if (progAt s (curA s) k).st = 2 then playDense s i d.toNat t.toNat v y k
          else if !waits then playDense s i d.toNat t.toNat v y 32
          else block s
        | none =>
          let (s1, made) := triggerCompile s (curA s) n y fmt (thrOf h.toNat)
          if waits && made then block s1 else playDense s1 i d.toNat t.toNat v y 32

/-- PLAY.W (R398, R399). -/
def execPlayW (p : BitVec 3) (d a h : BitVec 5) (t : BitVec 6) (s : State) : MOut :=
  .next (play (.playW p d a h t) p d a h t true s)

/-- PLAY.D (R398, R399). -/
def execPlayD (p : BitVec 3) (d a h : BitVec 5) (t : BitVec 6) (s : State) : MOut :=
  .next (play (.playD p d a h t) p d a h t false s)

/-- The next generated word of the run of array `a` (R399). -/
def playWord (q : Seq) (y : Play) : Option WordIn :=
  match y.words with
  | [] => none
  | w :: _ => some { va := w.1, vb := w.2.1, mx := w.2.2.1, mva := y.mask, mvb := y.mask, mmx := y.mask, fmt := y.fmt, pc := y.pc,
                     playStart := if w.2.2.2 then some y.mapBase else none, t := q.t }

/-- The end of a run: rd is written one cycle after its last word issues (R399). -/
def playEnd (s : State) (a : Nat) (y : Play) : State :=
  modSeq (putReg s a y.rd y.status) a fun q => { q with play := none, stop := if q.stop = .play then .run else q.stop }

/-- PATC (R396, R401). -/
def execPatc (p : BitVec 3) (d a : BitVec 5) (t : BitVec 6) (s : State) : MOut :=
  .next (slotOp s p.toNat [a.toNat] [d.toNat] fun s =>
    let v := reg s a.toNat
    if bitsOf v 63 5 ≠ 0 || bitsOf v 4 0 > 16 then raise s (faultD s 0x01 (v &&& 0xFFFFFFFF))
    else if tileSaved s t.toNat then block s
    else match playTile s (.patc p d a t) t.toNat with
    | .error f => raise s f
    | .ok (n, y) =>
      let fmt := (curSeq s).fmt.inForce
      if !fmtMatches fmt y then result s d.toNat (statusWord 5 0) 1
      else match findProg s (curA s) n y fmt with
      | some k =>
        let g := progAt s (curA s) k
        if g.st = 1 then result (touchProg s (curA s) k) d.toNat (statusWord 1 g.len) 1
        else if g.st = 2 then result (touchProg s (curA s) k) d.toNat (statusWord 2 g.cause) 1
        else result s d.toNat (statusWord 3 0) 1
      | none =>
        let (s1, made) := triggerCompile s (curA s) n y fmt (thrOf (bitsOf v 4 0))
        result s1 d.toNat (statusWord (if made then 0 else 4) 0) 1)

/-! ## LDATT -/

/-- The load of word `x` of a tile that an LDATT makes. -/
def attLoad (s : State) (tile x : Nat) : Out :=
  { op := .load 0 false, pl := tilePlace tile (tileAt s tile) x, size := 4, gated := (curSeq s).gate }

/-- Word `x` of a tile as an LDATT reads it: the bytes of gated stores come first (R219). -/
def attWord (s : State) (tile x : Nat) : Nat :=
  overlay (getBytes s (attLoad s tile x).pl.pa 4) (gatedUnder s (curA s) (attLoad s tile x))

/-- Whether memory gives no byte of that word: gated stores give them all. -/
def attGated (s : State) (tile x : Nat) : Bool :=
  (List.range 4).all fun k => (gatedUnder s (curA s) (attLoad s tile x)).any fun b => b.1 = k

/-- FP16 values of 64 words of a tile from word `x`, the low half of each first (R406). -/
def attValues (s : State) (tile x : Nat) : List (BitVec 16) :=
  (List.range 64).flatMap fun k => let w := attWord s tile (x + k); [BitVec.ofNat 16 w, BitVec.ofNat 16 (w / 2 ^ 16)]

/-- Why the words of an LDATT cannot be used, if they cannot (R406). -/
def ldattBad (s : State) (tile x : Nat) : Option Nat :=
  let pa (k : Nat) : Nat := (attLoad s tile (x + k)).pl.pa
  let read := (List.range 64).filter fun k => !attGated s tile (x + k)
  if read.any fun k => anyEcc s (pa k) 4 then some 0x40 else if read.any fun k => anyPoison s (pa k) 4 then some 0x41 else none

/-- The banks an LDATT reads, with its place in their order of service (R200, R202, R406). -/
def attServed (s : State) (tile x : Nat) : List (Nat × Nat) :=
  servedAt ((List.range 64).map fun k => (attLoad s tile (x + k)).pl.pa) (curA s) .seq

/-- The rest of LDATT: once the words issued before it have drained, both tables and K go to every array of the chain (R406). -/
def resumeLdatt (s : State) (a : Nat) (k : Word) (vals : List (BitVec 16)) : State :=
  if (arr s a).words ≠ [] then s
  else
    let tab (n : Nat) : Vector (BitVec 16) 64 := Vector.ofFn fun (i : Fin 64) => vals.getD (n + i.val) 0
    dropLd (pendDone ((chainOf s a).foldl (fun s b =>
      modArr s b fun y => { y with att := tab 0, recv := tab 64, kcut := k.toNat }) s) a) a

/-- LDATT (R406): held until the words in flight have drained and the accesses before it, its own and at its banks, let its words be read; the word of its own
bundle sees the old tables; its request and answer are flits (R426; log 22). -/
def execLdatt (p : BitVec 3) (d : BitVec 5) (t : BitVec 6) (a : BitVec 5) (s : State) : MOut :=
  .next (slotOp s p.toNat [d.toNat, a.toNat] [] fun s =>
    let x := (reg s a.toNat).toNat
    let k := reg s d.toNat
    if tileSaved s t.toNat then block s
    else match tileChk s (.ldatt p d t a) t.toNat (reg s a.toNat) 64 false false with
    | .error f => raise s f
    | .ok (n, y) =>
      if k = 0 || k.toNat > 64 then raise s (faultD s 0x01 (k &&& 0xFFFFFFFF))
      else if (curArr s).words ≠ [] || accessBlocked s (curA s) (tilePlace n y x).pa 256 || !serviceOpen s (attServed s n x) then block s
      else match ldattBad s n x with
      | some c => raise (markPoison s (tilePlace n y x).pa 256) { slotFault s c with tslot := t.toNat, tvalid := true, offset := x }
      | none =>
        let vals := attValues s n x
        let s1 := pendOn (modCur (markServed (countHome s (curA s) (tilePlace n y x).pa) (attServed s n x)) fun q => { q with ld := q.ld + 1 }) (.ldatt k vals)
        if s.bun.word.all (· = .nop) then resumeLdatt s1 (curA s) k vals else s1)

end Sys2Proof.Machine
end

