-- ==== Sys2Proof/Machine/Copy.lean ====
section
/-! DEFINITION. The copy slots KA and KB (R286 to R306): reading registers as they stood before the bundle (R111), the checks of
R292, the entering of an engine's queue, and MTX, MFX, ERESUME and ECANCEL, which act at issue. -/

namespace Sys2Proof.Machine

/-! ## Reading before the bundle -/

/-- Registers a copy slot reads: those before the bundle (R111). -/
def preOf (s : State) : Pre :=
  match s.bun.pre with
  | some x => x
  | none =>
    let q := curSeq s
    { s := q.s, poisoned := q.poisoned, b := q.b, t := q.t, w := q.w }

/-- A scalar register as a copy slot reads it. -/
def kreg (s : State) (r : Nat) : Word :=
  if r = 0 then 0
  else if isBound s (curA s) r then (portAt s (curA s) (portReg r)).elems.headD 0
  else vget 0 (preOf s).s r

/-- A predicate as a copy slot reads it. -/
def kpred (s : State) (b : Nat) : Bool := b = 0 || vget false (preOf s).b b

/-- The tile in a slot as a copy slot finds it. -/
def kslot (s : State) (k : Nat) : Option Nat := slotTile (vget 0 (preOf s).t k)

/-- The reachable tile in a slot, with its number. -/
def kTile (s : State) (k : Nat) : Option (Nat × Tile) :=
  match kslot s k with
  | none => none
  | some n => (liveTile s (curPart s) n).map fun t => (n, t)

/-- Whether a slot's tile is held in a save area (R446). -/
def kSaved (s : State) (k : Nat) : Bool :=
  match kslot s k with
  | none => false
  | some n => (tileAt s n).st = .live && (tileAt s n).part = curPart s && (tileAt s n).saved

/-- Run a copy slot, as `slotOp` runs an SC slot (R100, R113, R217). -/
def copyOp (s : State) (p : Nat) (srcs dsts : List Nat) (k : State → State) : State :=
  if !kpred s p then s
  else if srcs.any fun r => isBound s (curA s) r && (portAt s (curA s) (portReg r)).elems = [] then blockDry s
  else if srcs.any fun r => r ≠ 0 && (preOf s).poisoned.getLsbD r && !isBound s (curA s) r then raise s (slotFault s 0x41)
  else match dsts.find? (isBound s (curA s)) with
    | some r => raise s (faultD s 0x01 (BitVec.ofNat 64 r))
    | none => k (markPopped s srcs)

/-! ## Checks -/

/-- ENGINE, raised precisely (R292). -/
def engFault (s : State) (e : Nat) : FaultInfo :=
  { slotFault s 0x31 with src := 2, eng := e, seq := (engAt s (curA s) e).seqNext.toNat }

/-- A precise fault of a copy slot that names a tile slot. -/
def slotTFault (s : State) (code : Nat) (i : Instr) (k : Nat) : FaultInfo := { faultW s code i with tslot := k, tvalid := true }

/-- Least and greatest-plus-one offset of `rows` rows of `n` bytes at a pitch; `none` where no byte is reached. -/
def rowSpan (rows n : Nat) (pitch : Int) : Option (Int × Int) :=
  if rows = 0 || n = 0 then none
  else some (min 0 ((rows - 1 : Nat) * pitch), max 0 ((rows - 1 : Nat) * pitch) + n)

/-- One end of a command (R288): its location word, whether it is written, the levels it may name, and the span the command reaches
from it. -/
structure LocUse where
  word : Word
  dest : Bool := false
  levels : List Nat := [0, 1, 2]
  span : Option (Int × Int) := none
  deriving DecidableEq, Repr

/-- A reserved KIND or a non-zero reserved field (R288, R292). -/
def locBad (v : Word) : Bool :=
  locKind v ≥ 2 || (locKind v = 0 && bitsOf v 61 57 ≠ 0) || (locKind v = 1 && (bitsOf v 61 46 ≠ 0 || v.getLsbD 39))

/-- The tile of a location, where it has one. -/
def locTile (s : State) (v : Word) : Option (Nat × Tile) := if locKind v = 1 then kTile s (locSlot v) else none

/-- The level, ALLC, ROW and HDR rules of a location (R292). -/
def locRule (s : State) (l : LocUse) : Bool :=
  match locTile s l.word with
  | none => true
  | some (_, t) =>
    l.levels.contains t.level && !(locAllc l.word && (!l.dest || t.level ≠ 0))
      && !(t.level = 0 && locRow l.word ≥ chainRows s (curA s)) && !(locHdr l.word && t.type ≠ tyE2m1)

/-- Whether the bytes a command reaches from a location lie within its tile's view (R292). -/
def locWithin (s : State) (l : LocUse) : Bool :=
  match locTile s l.word, l.span with
  | some (_, t), some (lo, hi) =>
    (locOff l.word : Int) + lo ≥ 0 && (locOff l.word : Int) + hi ≤ (viewBytes t (locHdr l.word) : Nat)
  | _, _ => true

/-- The barrier reference a command selects (R289). -/
def barRef (s : State) (e sel : Nat) : Word := vget 0 (engAt s (curA s) e).x (7 + sel)

/-- The slot of a valid barrier reference. -/
def barRefSlots (s : State) (e sel : Nat) : List Nat :=
  if sel ≠ 0 && (barRef s e sel).getLsbD 7 then [bitsOf (barRef s e sel) 5 0] else []

/-- The rules of a barrier reference (R289, R292). -/
def barRule (s : State) (e sel : Nat) : Bool :=
  sel = 0 || ((barRef s e sel).getLsbD 7 && match kTile s (bitsOf (barRef s e sel) 5 0) with
    | none => false
    | some (_, t) => t.level = 1 && 4 * bitsOf (barRef s e sel) 23 8 + 4 ≤ t.words)

/-- The checks of R292 in order: location words, bound slots, levels, the barrier reference, the description's own rules, and last
the bounds (log 14). The answer is the tiles the command holds. -/
def cmdChk (s : State) (i : Instr) (e : Nat) (locs : List LocUse) (sel : Nat) (rule : Bool) : Except FaultInfo (List (Nat × Nat)) :=
  let slots := locs.flatMap (fun l => locSlots l.word) ++ barRefSlots s e sel
  if locs.any fun l => locBad l.word then .error (engFault s e)
  else match slots.find? fun k => (kTile s k).isNone with
    | some k => .error (slotTFault s 0x12 i k)
    | none =>
      if !locs.all (locRule s) || !barRule s e sel || !rule then .error (engFault s e)
      else match locs.find? fun l => !locWithin s l with
        | some l => .error { slotTFault s 0x10 i (locSlot l.word) with offset := locOff l.word, detail := l.word }
        | none => .ok (slots.filterMap fun k => (kTile s k).map fun x => (k, x.1))

/-- Register x(n) of an engine of the running sequencer. -/
def engX (s : State) (e n : Nat) : Word := vget 0 (engAt s (curA s) e).x n

/-- ROWB of a copy lies in 0 to 2^30 (R287). -/
def shapeOk (x0 : Word) : Bool := shapeRowb x0 ≤ 2 ^ 30

/-! ## Entering the queue -/

/-- Copy opcode of an instruction (R59). -/
def copyOpcode (i : Instr) : Nat := bitsOf (encode i) 31 25

/-- The command that enters the queue of engine `e` with what it latches (R286). -/
def newCmd (s : State) (i : Instr) (e : Nat) (ra rb : Word) (tiles : List (Nat × Nat)) : Cmd :=
  let g := engAt s (curA s) e
  { op := copyOpcode i, word := encode i, ra := ra, rb := rb, x := Vector.ofFn fun k : Fin 11 => vget 0 g.x k.val,
    seq := g.seqNext.toNat, tiles := tiles,
    trs := (tiles.map (·.2)).filter fun n => (tileAt s n).layout.getLsbD 4, part := curPart s, stamp := (curSeq s).outNo, issued := s.cyc,
    group := groupNo s (curPart s) ((curSeq s).phaseOf.getD 0),
    frame0 := ((groupAt s (groupNo s (curPart s) ((curSeq s).phaseOf.getD 0))).frame0).getD 0 }

/-- CELL tiles a command will write (R393): the tile its destination names. -/
def cellDest (s : State) (tiles : List (Nat × Nat)) (dst : Option Word) : List Nat :=
  match dst with
  | none => []
  | some v => ((tiles.filter fun x => locKind v = 1 && x.1 = locSlot v).map (·.2)).eraseDups.filter fun n => (tileAt s n).level = 0

/-- A checked command enters its queue, once the gate buffer has been released and both cp and the queue have room (R55, R286, R393,
R412, R437). -/
def enqueue (s : State) (i : Instr) (e : Nat) (ra rb : Word) (dst : Option Word) (c : Except FaultInfo (List (Nat × Nat))) : State :=
  match c with
  | .error f => raise s f
  | .ok tiles =>
    if (curSeq s).cp ≥ 255 then blockFull s
    else if (engAt s (curA s) e).queue.length ≥ 64 then block s
    else releasing s fun s =>
      let c := newCmd s i e ra rb tiles
      let s1 := (cellDest s tiles dst).foldl (fun s n => bumpCell s (curPart s) n) s
      modCur (modEng s1 (curA s1) e fun g => { g with queue := g.queue ++ [c], seqNext := g.seqNext + 1 }) fun q =>
        { q with cp := q.cp + 1 }

/-- Whether some slot of a list names a tile held in a save area. -/
def anySaved (s : State) (l : List Nat) : Bool := l.any (kSaved s)

/-- Slots a barrier select names. -/
def barSlots (s : State) (e sel : Nat) : List Nat := if sel = 0 then [] else [bitsOf (engX s e (7 + sel)) 5 0]

/-! ## COPY, COPYG, COPYS, COPYM, FILL -/

/-- Levels a location may name (R297, R298). -/
def allLevels : List Nat := [0, 1, 2]
def bankLevels : List Nat := [1, 2]

/-- COPY (R297). -/
def execCopy (p : BitVec 3) (a b : BitVec 5) (e : BitVec 2) (q r : Bool) (c x : BitVec 2) (s : State) : MOut :=
  .next (copyOp s p.toNat [a.toNat, b.toNat] [] fun s =>
    let i : Instr := .copy p a b e q r c x
    let ra := kreg s a.toNat
    let rb := kreg s b.toNat
    let sh := engX s e.toNat 0
    if anySaved s (locSlots ra ++ locSlots rb ++ barSlots s e.toNat x.toNat) then block s
    else enqueue s i e.toNat ra rb (some rb)
      (cmdChk s i e.toNat [⟨ra, false, allLevels, rowSpan (shapeRows sh) (shapeRowb sh) (engX s e.toNat 1).toInt⟩,
        ⟨rb, true, allLevels, rowSpan (shapeRows sh) (shapeRowb sh) (engX s e.toNat 2).toInt⟩] x.toNat (shapeOk sh)))

/-- The mask or index list at a register (R298, R301); a command of shape `sh` with no row or no byte reads none of it (log 61). -/
def listUse (s : State) (e n : Nat) (sh : Word) (bytes : Nat) : LocUse :=
  ⟨engX s e n, false, allLevels, if bytes = 0 || shapeRowb sh = 0 then none else some (0, (bytes : Int))⟩

/-- Span of the rows of a table from its location, for a command of `rows` entries; none where no byte is reached. -/
def tableSpan (b n : Nat) (pitch : Int) (rowb rows : Nat) : Option (Int × Int) :=
  if n = 0 || rowb = 0 || rows = 0 then none
  else some (min (b * pitch) ((b + n - 1 : Nat) * pitch), max (b * pitch) ((b + n - 1 : Nat) * pitch) + rowb)

/-- The alignments of COPYG and COPYS (R298, R300). -/
def gatherRule (s : State) (e : Nat) (table other : Word) (tp op : Int) : Bool :=
  shapeRowb (engX s e 0) % 16 = 0 && op % 16 = 0 && (if locKind other = 1 then locOff other else bitsOf other 56 0) % 16 = 0
    && (locKind table = 1 || (tp % 16 = 0 && bitsOf table 56 0 % 16 = 0))

/-- COPYG and COPYS share their checks: the table, the rows on the other side, the index list and the barrier (R298, R300). -/
def gatherOp (i : Instr) (p : BitVec 3) (a b : BitVec 5) (e : BitVec 2) (wide scatter : Bool) (x : BitVec 2) (s : State) : State :=
  copyOp s p.toNat [a.toNat, b.toNat] [] fun s =>
    let ra := kreg s a.toNat
    let rb := kreg s b.toNat
    let sh := engX s e.toNat 0
    let table := if scatter then rb else ra
    let other := if scatter then ra else rb
    let tp := (engX s e.toNat (if scatter then 2 else 1)).toInt
    let op := (engX s e.toNat (if scatter then 1 else 2)).toInt
    let (tb, tn, pitch) := tableRows table ((kTile s (locSlot table)).map (·.2)) (engX s e.toNat 4) tp
    if anySaved s (locSlots ra ++ locSlots rb ++ locSlots (engX s e.toNat 3) ++ barSlots s e.toNat x.toNat) then block s
    else
      let tc : LocUse := ⟨table, scatter, bankLevels, tableSpan tb tn pitch (shapeRowb sh) (shapeRows sh)⟩
      let oc : LocUse := ⟨other, !scatter, allLevels, rowSpan (shapeRows sh) (shapeRowb sh) op⟩
      enqueue s i e.toNat ra rb (some rb)
        (cmdChk s i e.toNat [if scatter then oc else tc, if scatter then tc else oc,
          listUse s e.toNat 3 sh (shapeRows sh * (if wide then 2 else 1))] x.toNat
          (shapeOk sh && gatherRule s e.toNat table other tp op))

/-- COPYG (R298). -/
def execCopyg (p : BitVec 3) (a b : BitVec 5) (e : BitVec 2) (f i q r : Bool) (c x : BitVec 2) (s : State) : MOut :=
  .next (gatherOp (.copyg p a b e f i q r c x) p a b e i false x s)

/-- COPYS (R300). -/
def execCopys (p : BitVec 3) (a b : BitVec 5) (e : BitVec 2) (f i q r : Bool) (c x : BitVec 2) (s : State) : MOut :=
  .next (gatherOp (.copys p a b e f i q r c x) p a b e i true x s)

/-- COPYM (R301). -/
def execCopym (p : BitVec 3) (a b : BitVec 5) (e : BitVec 2) (z q r : Bool) (c x : BitVec 2) (s : State) : MOut :=
  .next (copyOp s p.toNat [a.toNat, b.toNat] [] fun s =>
    let i : Instr := .copym p a b e z q r c x
    let ra := kreg s a.toNat
    let rb := kreg s b.toNat
    let sh := engX s e.toNat 0
    if anySaved s (locSlots ra ++ locSlots rb ++ locSlots (engX s e.toNat 5) ++ barSlots s e.toNat x.toNat) then block s
    else enqueue s i e.toNat ra rb (some rb)
      (cmdChk s i e.toNat [⟨ra, false, allLevels, rowSpan (shapeRows sh) (shapeRowb sh) (engX s e.toNat 1).toInt⟩,
        ⟨rb, true, allLevels, rowSpan (shapeRows sh) (shapeRowb sh) (engX s e.toNat 2).toInt⟩,
        listUse s e.toNat 5 sh (ceilDiv (shapeRows sh) 8)] x.toNat (shapeOk sh)))

/-- FILL (R302). -/
def execFill (p : BitVec 3) (a b : BitVec 5) (e w : BitVec 2) (q r : Bool) (c x : BitVec 2) (s : State) : MOut :=
  .next (copyOp s p.toNat [a.toNat, b.toNat] [] fun s =>
    let i : Instr := .fill p a b e w q r c x
    let ra := kreg s a.toNat
    let rb := kreg s b.toNat
    let sh := engX s e.toNat 0
    if anySaved s (locSlots rb ++ barSlots s e.toNat x.toNat) then block s
    else enqueue s i e.toNat ra rb (some rb)
      (cmdChk s i e.toNat [⟨rb, true, allLevels, rowSpan (shapeRows sh) (shapeRowb sh) (engX s e.toNat 2).toInt⟩] x.toNat
        (shapeOk sh && shapeRowb sh % 2 ^ w.toNat = 0)))

/-! ## BIND, UNBIND, RANKX -/

/-- The port number of a code and position that may stand (R275, R303). -/
def portOk (code pos len : Nat) : Option Nat :=
  if 4 ≤ code && code < 8 || pos ≥ len || (code ≠ 1 && code ≠ 3 && pos ≠ 0) then none else some (portNo code pos)

/-- The pattern registers x0 to x5 describe (R276). -/
def patternOf (x : Nat → Word) (tile eng : Nat) : Pattern :=
  { tile := tile, slot := bitsOf (x 0) 5 0, base := bitsOf (x 0) 63 32, rep := (x 0).getLsbD 15,
    counts := [1, 2, 3, 4].map fun k => bitsOf (x k) 31 0,
    strides := [1, 2, 3, 4].map fun k => BitVec.ofNat 32 (bitsOf (x k) 63 32),
    lstr := BitVec.ofNat 32 (bitsOf (x 5) 31 0), eng := eng }

/-- Strides that are used: those of dimensions with more than one element. -/
def usedStrides (p : Pattern) : List Int := ((p.counts.zip p.strides).filter fun x => x.1 > 1).map fun x => x.2.toInt

/-- Least and greatest-plus-one view offset of a pattern (R277, R292). -/
def patternSpan (p : Pattern) (scalar : Bool) : Int × Int :=
  let ends : List Int := (p.counts.zip p.strides).map fun x => ((x.1 - 1 : Nat) : Int) * x.2.toInt
  let ls : Int := if scalar then 0 else 31 * p.lstr.toInt
  (p.base + (ends.map fun z => min 0 z).sum + min 0 ls, p.base + (ends.map fun z => max 0 z).sum + max 0 ls + (if scalar then 8 else 4))

/-- Whether a pattern's offsets are multiples of a number (R303). -/
def patternMult (p : Pattern) (m : Int) (lanes : Bool) : Bool :=
  (p.base : Int) % m = 0 && (usedStrides p).all (fun d => d % m = 0) && (!lanes || p.lstr.toInt % m = 0)

/-- The rules of BIND (R303). -/
def bindRule (p : Pattern) (t : Tile) (n : Nat) : Bool :=
  let scalar := 8 ≤ n && n < 16
  let drain := n = portS || n ≥ 24
  bankLevels.contains t.level && p.counts.all (fun c => c ≠ 0) && patternMult p (if scalar then 8 else 4) (!scalar)
    && (!(drain && t.type = tyE2m1) || (p.lstr = 4 && patternMult p 16 false))

/-- The checks of BIND on its tile (R263, R292, R303). -/
def bindChk (s : State) (i : Instr) (e : Nat) (x : Nat → Word) : Except FaultInfo (List (Nat × Nat)) :=
  let k := bitsOf (x 0) 5 0
  match portOk (bitsOf (x 0) 11 8) (bitsOf (x 0) 14 12) (curSeq s).len with
  | none => .error (engFault s e)
  | some n => match kTile s k with
    | none => .error (slotTFault s 0x12 i k)
    | some (m, t) =>
      let p := patternOf x m e
      let (lo, hi) := patternSpan p (8 ≤ n && n < 16)
      if isResid s m then .error (slotTFault s 0x12 i k)
      else if !bindRule p t n then .error (engFault s e)
      else if lo < 0 || hi > (viewBytes t false : Nat) then
        .error { slotTFault s 0x10 i k with offset := p.base, detail := x 0 }
      else .ok [(k, m)]

/-- BIND (R303). -/
def execBind (p : BitVec 3) (e : BitVec 2) (s : State) : MOut :=
  .next (copyOp s p.toNat [] [] fun s =>
    if anySaved s [bitsOf (engX s e.toNat 0) 5 0] then block s
    else enqueue s (.bind p e) e.toNat 0 0 none (bindChk s (.bind p e) e.toNat (engX s e.toNat)))

/-- UNBIND (R303). -/
def execUnbind (p : BitVec 3) (n : BitVec 5) (e : BitVec 2) (x : BitVec 4) (s : State) : MOut :=
  .next (copyOp s p.toNat [] [] fun s =>
    enqueue s (.unbind p n e x) e.toNat 0 0 none
      (if (portOk x.toNat n.toNat (curSeq s).len).isSome then .ok [] else .error (engFault s e.toNat)))

/-- The rules of RANKX (R402). -/
def rankRule (s : State) (e : Nat) (v : Word) : Bool :=
  let sh := engX s e 0
  let rb := shapeRowb sh
  rb % 2 = 0 && rb ≠ 0 && rb ≤ 128 && shapeRows sh ≠ 0 && (engX s e 1).toNat % 2 = 0 && bitsOf v 6 0 ≠ 0 && bitsOf v 6 0 ≤ 64
    && bitsOf v 10 8 < (curSeq s).len && !v.getLsbD 7 && bitsOf v 15 11 = 0 && bitsOf v 63 32 = 0

/-- RANKX (R402, R404). -/
def execRankx (p : BitVec 3) (a b : BitVec 5) (e : BitVec 2) (h o : Bool) (s : State) : MOut :=
  .next (copyOp s p.toNat [a.toNat, b.toNat] [] fun s =>
    let i : Instr := .rankx p a b e h o
    let ra := kreg s a.toNat
    let rb := kreg s b.toNat
    let sh := engX s e.toNat 0
    if anySaved s (locSlots ra) then block s
    else enqueue s i e.toNat ra rb none
      (cmdChk s i e.toNat [⟨ra, false, bankLevels, rowSpan (shapeRows sh) (shapeRowb sh) (engX s e.toNat 1).toInt⟩] 0
        (locKind ra ≠ 0 && rankRule s e.toNat rb)))

/-! ## TPREF, TFLUSH -/

/-- TPREF (R306). -/
def execTpref (p : BitVec 3) (a b : BitVec 5) (e : BitVec 2) (l : Bool) (s : State) : MOut :=
  .next (copyOp s p.toNat [a.toNat, b.toNat] [] fun s =>
    enqueue s (.tpref p a b e l) e.toNat (kreg s a.toNat) (kreg s b.toNat) none (.ok []))

/-- TFLUSH (R306). -/
def execTflush (p : BitVec 3) (a b : BitVec 5) (e : BitVec 2) (s : State) : MOut :=
  .next (copyOp s p.toNat [a.toNat, b.toNat] [] fun s =>
    enqueue s (.tflush p a b e) e.toNat (kreg s a.toNat) (kreg s b.toNat) none (.ok []))

/-! ## MTX, MFX -/

/-- What an engine register holds after a write: reserved fields keep 0, read-only registers keep their value (R2, R287). -/
def xWritten (n : Nat) (old v : Word) : Word :=
  if n = 6 || n = 7 || n = 11 then 0
  else if 8 ≤ n && n ≤ 10 then v &&& 0xFFFFBF
  else if n = 12 || n = 13 || n = 15 then old
  else v

/-- Write register x(n) of an engine of array `a`. -/
def putX (s : State) (a e n : Nat) (v : Word) : State := modEng s a e fun g => { g with x := vmod 0 g.x n fun old => xWritten n old v }

/-- MTX (R305). -/
def execMtx (p : BitVec 3) (a b : BitVec 5) (e : BitVec 2) (n : BitVec 4) (s : State) : MOut :=
  .next (copyOp s p.toNat [a.toNat, b.toNat] [] fun s =>
    let s1 := putX s (curA s) e.toNat n.toNat (kreg s a.toNat)
    if b = 0 then s1 else putX s1 (curA s) e.toNat (n.toNat + 1) (kreg s b.toNat))

/-- STATUS of an engine (R290). -/
def engStatus (g : Engine) : Word :=
  let run := g.queue.head?.any fun c => c.started
  BitVec.ofNat 64 ((if g.halted then 2 else if run then 1 else 0) + g.last % 16 * 2 ^ 4 + (if g.halted then g.hcode % 16 else 0) * 2 ^ 8
    + g.queue.length * 2 ^ 16 + (if g.halted || run then (g.queue.head?.map (·.seq)).getD 0 else 0) % 2 ^ 32 * 2 ^ 32)

/-- What MFX reads (R287, R290). -/
def xRead (g : Engine) (n : Nat) : Word :=
  if n = 12 then engStatus g
  else if n = 13 then BitVec.ofNat 64 (if g.halted then g.resume % 2 ^ 32 else 0)
  else if n = 15 then g.seqNext.setWidth 64
  else vget 0 g.x n

/-- MFX (R305): its register is written 4 cycles later. -/
def execMfx (p : BitVec 3) (d : BitVec 5) (e : BitVec 2) (n : BitVec 4) (s : State) : MOut :=
  .next (copyOp s p.toNat [] [d.toNat] fun s => result s d.toNat (xRead (engAt s (curA s) e.toNat) n.toNat) 4)

/-! ## ERESUME, ECANCEL -/

/-- Cancel the first command of a queue (R304). -/
def cancelHead (s : State) (a e : Nat) : State :=
  match (engAt s a e).queue with
  | [] => s
  | c :: _ => cmdEnd (withdrawCmd s c) a e 1 c

/-- Cancel the first `n` commands of a queue, after what they have sent has landed. -/
def cancelMany (s : State) (a e : Nat) : Nat → State
  | 0 => s
  | n + 1 => cancelMany (cancelHead s a e) a e n

/-- ERESUME (R304): a halted command starts again where it stopped. -/
def execEresume (p : BitVec 3) (e : BitVec 2) (s : State) : MOut :=
  .next (copyOp s p.toNat [] [] fun s => releasing s fun s =>
    modEng s (curA s) e.toNat fun g =>
      if g.halted then { g with halted := false, queue := lmod g.queue 0 fun c => { c with started := false, pages := [], sent := g.resume } } else g)

/-- ECANCEL (R304). -/
def execEcancel (p : BitVec 3) (e : BitVec 2) (l : Bool) (s : State) : MOut :=
  .next (copyOp s p.toNat [] [] fun s => releasing s fun s =>
    let a := curA s
    let g := engAt s a e.toNat
    if l || g.halted then
      let s1 := landAll s a e.toNat
      cancelMany s1 a e.toNat (if l then (engAt s1 a e.toNat).queue.length else 1)
    else s)

end Sys2Proof.Machine
end

