-- ==== Sys2Proof/Machine/Phase.lean ====
section
/-! DEFINITION. Transfer phases (R375, R379 to R384): PHASE, XMIT, IMUX, and the flits on their way. -/

namespace Sys2Proof.Machine

/-! ## Ports and slots -/

/-- Number of an output port of router (q, j) of a die: toward router (q, k) for k below 4, the long link 4, the ejection port 5
(R374). -/
def portKey (die q j k : Nat) : Nat := ((die * 4 + q) * 4 + j) * 8 + k

/-- Key of a reservation entry: port, plane and slot (R376). -/
def slotKey (port plane slot : Nat) : Nat := (port * 16 + plane) * 64 + slot % 64

/-- The ports of the minimal route between two arrays of a die, with their slot offsets (R375). -/
def routePorts (a d : Nat) : List (Nat × Nat) :=
  let die := a / 4
  if a % 4 = d % 4 then [(portKey die (a % 4) (a % 4) 5, 0)]
  else [(portKey die (a % 4) (a % 4) (d % 4), 0), (portKey die (a % 4) (d % 4) 4, 2), (portKey die (d % 4) (a % 4) (d % 4), 7),
        (portKey die (d % 4) (d % 4) 5, 9)]

/-- Slots between the first output port of a route and its ejection (R375). -/
def ejectAfter (a d : Nat) : Nat := if a % 4 = d % 4 then 0 else 9

/-- The partition and PHASE of the reservation of an entry that is in force: from its first frame on, and, once released, to the end of the
frame, also where the entry has been reserved anew in it (R377). -/
def slotInForce (s : State) (x : Slot) : Option (Nat × Bool) :=
  if x.valid && x.since ≤ s.cyc || !x.valid && s.cyc < x.ends then some (x.part, x.phase)
  else (x.prev.filter fun y => s.cyc < y.2.2).map fun y => (y.1, y.2.1)

/-- Whether every port of a route has a PHASE slot of a partition at each slot it needs (R382). -/
def routeReserved (s : State) (p a d plane slot count : Nat) : Bool :=
  (routePorts a d).all fun r => (List.range count).all fun i =>
    slotInForce s (tget {} s.netRes (slotKey r.1 plane (slot + i + r.2))) = some (p, true)

/-! ## Control words -/

/-- Fields of the control words of XMIT and IMUX (R381). -/
def ctlSlot (v : Word) : Nat := bitsOf v 5 0
def ctlCount (v : Word) : Nat := bitsOf v 12 6
def ctlPlane (v : Word) : Nat := bitsOf v 16 13
def ctlArr (v : Word) : Nat := bitsOf v 21 17
def ctlFrame (v : Word) : Nat := bitsOf v 39 24
def ctlFlits (v : Word) : Nat := bitsOf v 63 40

/-- The group whose phase is open for the running placement, with its frame 0 (R380). -/
def openPhase (s : State) : Option (Nat × Nat) :=
  match (curSeq s).phaseOf with
  | none => none
  | some g => ((groupAt s (groupNo s (curPart s) g)).frame0).map fun f => (groupNo s (curPart s) g, f)

/-- Whether an array is a member of a group on the same die as another (R382). -/
def memberHere (x : Group) (a d : Nat) : Bool := d < 28 && x.members.getLsbD d && d / 4 = a / 4

/-- The rules XMIT and IMUX share: phase, plane, fields and time (R382). -/
def phaseRule (s : State) (v : Word) : Bool :=
  match openPhase s with
  | none => false
  | some (n, f) =>
    let x := groupAt s n
    x.planes.getLsbD (ctlPlane v) && bitsOf v 23 22 = 0 && ctlCount v ≥ 1 && ctlSlot v + ctlCount v ≤ 64
      && f + 64 * ctlFrame v ≥ s.cyc + 16

/-- Arrays an XMIT sends to (R381, R382); none where its DEST breaks a rule. -/
def xmitDests (s : State) (a : Nat) (v : Word) : List Nat :=
  match openPhase s with
  | none => []
  | some (n, _) =>
    let x := groupAt s n
    if ctlArr v = 31 then
      (if x.mcast then (membersOf x).filter fun d => d ≠ a && d / 4 = a / 4 else [])
    else if memberHere x a (ctlArr v) then [ctlArr v] else []

/-- A location of a phase: a PAD or DIE tile, its offset a multiple of 128, its bytes within the tile; ENGINE otherwise (R381,
R382). -/
def phaseUse (v : Word) (dest : Bool) : LocUse := ⟨v, dest, bankLevels, none⟩

/-- The rules of a location of a phase for `n` bytes. -/
def phaseLocRule (s : State) (v : Word) (n : Nat) : Bool :=
  locKind v ≠ 0 && locOff v % 128 = 0 && locWithin s ⟨v, false, bankLevels, if n = 0 then none else some (0, (n : Int))⟩

/-! ## PHASE -/

/-- PHASE checks its group: within the share, and the task a member of it (R380). -/
def phaseMember (s : State) (g : Nat) : Bool :=
  groupIn s (curPart s) g && (groupAt s (groupNo s (curPart s) g)).members.getLsbD (curA s)

/-- The rest of PHASE OPEN: once the words have drained and the release at GRP is done, the member arrives; a broken group completes
it with no phase (R380). -/
def resumePhaseOpen (s : State) (a g : Nat) (arrived : Bool) : State :=
  let p := (seqAt s a).part
  if (groupAt s (groupNo s p g)).broken then pendDone (groupWithdraw s p g a) a
  else if arrived || (arr s a).words ≠ [] || releaseBlocked s a 1 then s
  else groupArrive (modSeq (releaseWork s a 1) a fun q => { q with after := some (.phaseOpen g true) }) p g a

/-- Frame 0 of an opened phase begins: STAT.PHASE, and issue goes on (R380). -/
def frameStart (s : State) (a g : Nat) : State :=
  modSeq (pendDone s a) a fun q => { q with phase := true, phaseOf := some g }

/-- PHASE OPEN (R380). -/
def execPhaseOpen (p : BitVec 3) (a : BitVec 5) (s : State) : MOut :=
  .next (copyOp s p.toNat [a.toNat] [] fun s =>
    let g := bitsOf (kreg s a.toNat) 7 0
    if !phaseMember s g then raise s (faultW s 0x12 (.phaseOpen p a))
    else if phaseOn s then raise s (faultW s 0x01 (.phaseOpen p a))
    else releasing s fun s => pendOn s (.phaseOpen g false))

/-- A CLOSE on a broken group completes at once for the member: its array's phase table, PHOPEN and STAT.PHASE clear, and it acquires
at GRP; with the last member the phase tables of members that have failed clear too (R384). -/
def closeBroken (s : State) (a g : Nat) : State :=
  let p := (seqAt s a).part
  let s1 := groupWithdraw { s with imux := s.imux.filter fun r => r.arr ≠ a } p g a
  let s2 := modGroup s1 (groupNo s1 p g) fun x => { x with phopen := false, closing := false }
  sweepImux (acquireWork (modSeq (pendDone s2 a) a fun q => { q with phase := false, phaseOf := none }) a 1) (groupNo s p g)

/-- The rest of PHASE CLOSE (R384). -/
def resumePhaseClose (s : State) (a g : Nat) : State :=
  let p := (seqAt s a).part
  if (groupAt s (groupNo s p g)).broken then closeBroken s a g else phaseEnd s p g

/-- PHASE CLOSE (R384). -/
def execPhaseClose (p : BitVec 3) (a : BitVec 5) (s : State) : MOut :=
  .next (copyOp s p.toNat [a.toNat] [] fun s =>
    let g := bitsOf (kreg s a.toNat) 7 0
    if !phaseMember s g then raise s (faultW s 0x12 (.phaseClose p a))
    else releasing s fun s =>
      let s1 := pendOn s (.phaseClose g)
      resumePhaseClose (groupArrive s1 (curPart s1) g (curA s1)) (curA s1) g)

/-! ## XMIT, IMUX -/

/-- The rules of XMIT (R381, R382). -/
def xmitRule (s : State) (e : Nat) (v : Word) : Bool :=
  let ds := xmitDests s (curA s) v
  phaseRule s v && bitsOf v 63 40 = 0 && bitsOf (engX s e 0) 31 0 % 128 = 0 && ds ≠ []
    && ds.all fun d => routeReserved s (curPart s) (curA s) d (ctlPlane v) (ctlSlot v) (ctlCount v)

/-- XMIT (R381, R382). -/
def execXmit (p : BitVec 3) (a b : BitVec 5) (e : BitVec 2) (q r : Bool) (c x : BitVec 2) (s : State) : MOut :=
  .next (copyOp s p.toNat [a.toNat, b.toNat] [] fun s =>
    let i : Instr := .xmit p a b e q r c x
    let ra := kreg s a.toNat
    let rb := kreg s b.toNat
    if anySaved s (locSlots rb ++ barSlots s e.toNat x.toNat) then block s
    else enqueue s i e.toNat ra rb none
      (cmdChk s i e.toNat [phaseUse rb false] x.toNat
        (xmitRule s e.toNat ra && phaseLocRule s rb (bitsOf (engX s e.toNat 0) 31 0))))

/-- Frames an IMUX uses at its `i`-th slot, as first and count, and the ejection slot (R375, R381). -/
def imuxFrames (src dst slot count frame nflits i : Nat) : Nat × Nat × Nat :=
  let x := slot + i + ejectAfter src dst
  (x % 64, frame + x / 64, (nflits - i + count - 1) / count)

/-- Ejection slots with their frames that an IMUX uses. -/
def imuxUses (src dst slot count frame nflits : Nat) : List (Nat × Nat × Nat) :=
  ((List.range count).map (imuxFrames src dst slot count frame nflits)).filter fun u => u.2.2 > 0

/-- Slots with their frames of a range already set. -/
def rangeUses (r : ImuxRange) : List (Nat × Nat × Nat) := imuxUses r.src r.arr r.slot r.count r.frame r.nflits

/-- Whether two uses share a slot of a frame. -/
def useClash (u v : Nat × Nat × Nat) : Bool := u.1 = v.1 && u.2.1 < v.2.1 + v.2.2 && v.2.1 < u.2.1 + u.2.2

/-- The first use of an IMUX that another range of its array overlaps, with that range's sender (R382). -/
def imuxClash (l : List ImuxRange) (plane : Nat) (us : List (Nat × Nat × Nat)) : Option ((Nat × Nat × Nat) × Nat) :=
  us.findSome? fun u => (l.find? fun r => r.plane = plane && (rangeUses r).any (useClash u)).map fun r => (u, r.src)

/-- Whether some ejection slot of an IMUX already holds four ranges (R382). -/
def imuxFull (l : List ImuxRange) (plane : Nat) (us : List (Nat × Nat × Nat)) : Bool :=
  us.any fun u => (l.filter fun r => r.plane = plane && (rangeUses r).any fun v => v.1 = u.1).length ≥ 4

/-- DETAIL of PHASE_COLLISION at a port of an array's own router: toward quadrant `k`, or 5 for the ejection port (R383; log 8). -/
def collisionAt (d k plane slot frame other : Nat) : Word :=
  Config.collisionDetail (d / 4) (d % 4 * 4 + d % 4) k plane slot frame other

/-- DETAIL of PHASE_COLLISION at the ejection port of an array. -/
def collision (d plane slot frame other : Nat) : Word := collisionAt d 5 plane slot frame other

/-- The rules of IMUX (R381, R382). -/
def imuxRule (s : State) (v : Word) : Bool :=
  match openPhase s with
  | none => false
  | some (n, _) =>
    phaseRule s v && ctlFlits v ≥ 1 && memberHere (groupAt s n) (curA s) (ctlArr v)
      && routeReserved s (curPart s) (ctlArr v) (curA s) (ctlPlane v) (ctlSlot v) (ctlCount v)

/-- IMUX acts at issue: it sets the phase table of its array's ejection port (R379, R381, R382). -/
def execImux (p : BitVec 3) (a b : BitVec 5) (e : BitVec 2) (s : State) : MOut :=
  .next (copyOp s p.toNat [a.toNat, b.toNat] [] fun s =>
    let i : Instr := .imux p a b e
    let v := kreg s a.toNat
    let rb := kreg s b.toNat
    let mine := s.imux.filter fun r => r.arr = curA s && some r.group = (openPhase s).map (·.1)
    let us := imuxUses (ctlArr v) (curA s) (ctlSlot v) (ctlCount v) (ctlFrame v) (ctlFlits v)
    if anySaved s (locSlots rb) then block s
    else match cmdChk s i e.toNat [phaseUse rb true] 0 (imuxRule s v && phaseLocRule s rb (128 * ctlFlits v)
        && !(locTile s rb).any fun x => isResid s x.1) with
    | .error f => raise s f
    | .ok l => match imuxClash mine (ctlPlane v) us with
      | some (u, other) =>
        raise s { engFault s e.toNat with code := 0x22, detail := collision (curA s) (ctlPlane v) u.1 u.2.1 other }
      | none =>
        if imuxFull mine (ctlPlane v) us then raise s (engFault s e.toNat)
        else releasing s fun s => { s with imux := s.imux ++ [
          { arr := curA s, src := ctlArr v, slot := ctlSlot v, count := ctlCount v, plane := ctlPlane v, frame := ctlFrame v,
            nflits := ctlFlits v, dst := rb, tile := (l.head?.map (·.2)).getD 0, group := ((openPhase s).map (·.1)).getD 0
            tr := (tileAt s ((l.head?.map (·.2)).getD 0)).layout.getLsbD 4 }] })

/-! ## Flits -/

/-- Cycle a flit of an XMIT leaves (R381). -/
def flitCycle (c : Cmd) (m : Nat) : Nat :=
  c.frame0 + 64 * (ctlFrame c.ra + m / ctlCount c.ra) + ctlSlot c.ra + m % ctlCount c.ra

/-- Scope of a command (R54). -/
def cmdScope (c : Cmd) : Nat := bitsOf c.word 3 2

/-- Whether a command's acquire still waits for an earlier access of its sequencer (R237); as a release, it waits for none to a UN page
(R229, R232; log 10). -/
def acquireWaits (s : State) (a : Nat) (c : Cmd) : Bool :=
  c.word.getLsbD 5 && (seqAt s a).outs.any fun o => o.no < c.stamp && releaseWaits (cmdScope c) o

/-- The work of a command's acquire: a release at its scope, and the write-back of every dirty sector (R237). -/
def cmdAcquire (s : State) (a : Nat) (c : Cmd) : State :=
  if c.word.getLsbD 5 then releaseWork (writeBackAll s a fun _ => true) a (cmdScope c) else s

/-- Whether a command may send a flit at this cycle: a slot of it has come, and no flit of it has left in this cycle (R381). -/
def flitSlot (s : State) (a e : Nat) (c : Cmd) : Bool :=
  let pos := s.cyc - c.frame0
  ctlSlot c.ra ≤ pos % 64 && pos % 64 < ctlSlot c.ra + ctlCount c.ra
    && !s.flits.any fun f => f.src = a && f.eng = e && f.seq = c.seq && 64 * f.frame + f.slot = pos

/-- Whether the next flit of a command leaves now: its slot has come, whatever stands before the command in its queue, but not while the
engine is halted or the command's acquire waits; a flit that missed its slot so takes the next one of the command (R237, R293, R381;
log 63). -/
def flitNow (s : State) (a e : Nat) (c : Cmd) : Bool :=
  c.op = 0x0B && !(engAt s a e).halted && c.sent < cmdBytes c && flitCycle c (c.sent / 128) ≤ s.cyc && flitSlot s a e c && !sideResid s c
    && !acquireWaits s a c

/-- The command of an engine whose next flit leaves now, by its place in the queue. -/
def flitDue (s : State) (a e : Nat) : Option Nat := (engAt s a e).queue.findIdx? (flitNow s a e)

/-- The tile and offset of a location a command latched. -/
def cmdLoc (s : State) (c : Cmd) (v : Word) : Tile × Nat := (cmdView s c (locSlot v), locOff v)

/-- Arrays the flits of an XMIT of array `a` go to (R381). -/
def flitDests (s : State) (a : Nat) (c : Cmd) : List Nat :=
  if ctlArr c.ra = 31 then (membersOf (groupAt s c.group)).filter fun d => d ≠ a && d / 4 = a / 4 else [ctlArr c.ra]

/-- Whether an XMIT of array `a` has yet to send a flit that a receiver's ejection port sees at a cycle. -/
def comesAt (s : State) (a : Nat) (c : Cmd) (plane d t : Nat) : Bool :=
  let pos := t - ejectAfter a d - c.frame0
  let m := (pos / 64 - ctlFrame c.ra) * ctlCount c.ra + (pos % 64 - ctlSlot c.ra)
  c.op = 0x0B && ctlPlane c.ra = plane && (flitDests s a c).contains d && ejectAfter a d + c.frame0 ≤ t
    && ctlFrame c.ra ≤ pos / 64 && ctlSlot c.ra ≤ pos % 64 && pos % 64 < ctlSlot c.ra + ctlCount c.ra
    && c.sent ≤ 128 * m && 128 * m < cmdBytes c

/-- Senders of the flits that reach an ejection port at a cycle, those still to leave included; an array that sends two stands twice. -/
def sendersAt (s : State) (plane d t : Nat) : List Nat :=
  ((s.flits.filter fun f => f.dst = d && f.plane = plane && f.eject = t).map (·.src))
    ++ (List.range 28).flatMap fun a => ((arr s a).eng.toList.flatMap fun g => g.queue.filter fun c => comesAt s a c plane d t).map fun _ => a

/-- Those of some senders whose flits reach the ejection port: two flits of one array meet at its first output port and are dropped
there, since that port leads to one receiver (R375, R383). -/
def reaching (l : List Nat) : List Nat := l.filter fun a => l.count a = 1

/-- The IMUX range that assigns a flit's slot to its sender (R383). -/
def imuxOf (s : State) (f : Flit) : Option Nat :=
  (List.range s.imux.length).find? fun k => match s.imux[k]? with
    | none => false
    | some r => r.arr = f.dst && r.src = f.src && r.plane = f.plane && r.slot ≤ f.slot && f.slot < r.slot + r.count
        && r.frame ≤ f.frame && (f.frame - r.frame) * r.count + (f.slot - r.slot) < r.nflits

/-- Credit what a flit carries to its XMIT's barrier (R382, R415). -/
def creditFlit (s : State) (f : Flit) : State :=
  if f.credit = 0 then s
  else
    let s1 := modEng s f.src f.eng fun g => { g with queue := g.queue.map fun c =>
      if c.seq = f.seq then { c with landed := c.landed + f.credit } else c }
    match f.bar with
    | none => s1
    | some b => barUpdate s1 b true (barCredit f.credit)

/-- A flit enters the network. Its barrier is credited as it leaves, unless it will collide: every flit that can meet it has been
queued by then, since a phase's first frames begin 16 cycles after issue at the earliest (R375, R382, R383). -/
def flitEnter (s : State) (f : Flit) : State :=
  let s1 := { s with flits := s.flits ++ [f] }
  if reaching (sendersAt s1 f.plane f.dst f.eject) = [f.src] && (imuxOf s1 f).isSome then
    creditFlit { s with flits := s.flits ++ [{ f with credit := 0 }] } f
  else s1

/-- The next flit of the command at place `k` of a queue leaves its first output port; under MCAST, one for each receiver, the first of
which carries the credit (R381); the first flit of a command does the work of its acquire, before it is read (R237). -/
def flitLeave (s : State) (a e k : Nat) : State :=
  match (engAt s a e).queue[k]? with
  | none => s
  | some c =>
    let s := if c.sent = 0 then cmdAcquire s a c else s
    let (t, off) := cmdLoc s c c.rb
    let from_ (b : Nat) : Nat := tileBase t 0 + planeByte t (locHdr c.rb) (off + c.sent + b)
    let s := (List.range 128).foldl (fun s b => markPoison s (from_ b) 1) s
    let data : BitVec 1024 := BitVec.ofNat 1024 (readPlane s t (locHdr c.rb) ((off + c.sent : Nat) : Int) 128)
    let pos := s.cyc - c.frame0
    let ds := flitDests s a c
    let fs := (ds.zip (List.range ds.length)).map fun d =>
      ({ src := a, dst := d.1, plane := ctlPlane c.ra, slot := pos % 64, frame := pos / 64, data := data, eng := e, seq := c.seq,
         group := c.group, bad := below 128 fun b => anyPoison s (from_ b) 1, eject := s.cyc + ejectAfter a d.1, credit := if d.2 = 0 then 128 else 0, bar := cmdBar s c } : Flit)
    let s1 := ds.foldl (fun s d => countFlits s a 1 (crossings (dieOfArr s a) (dieOfArr s d))) s
    fs.foldl flitEnter (modEng s1 a e fun g => { g with queue := lmod g.queue k fun c => { c with sent := c.sent + 128 } })

/-- Bytes of a tile that a flit at an offset of its view, or of its header plane's, reads or writes (R288). -/
def flitBytes (t : Tile) (hdr : Bool) (off : Nat) : List Nat := (List.range 128).map fun b => tileBase t 0 + planeByte t hdr (off + b)

/-- Bytes the next flit of a command is read from. -/
def leaveBytes (s : State) (c : Cmd) : List Nat :=
  let (t, off) := cmdLoc s c c.rb
  flitBytes t (locHdr c.rb) (off + c.sent)

/-- Bytes a flit accepted under an IMUX range is written to. -/
def landBytes (s : State) (r : ImuxRange) : List Nat :=
  flitBytes ((tileAt s r.tile).asViewed r.tr) (locHdr r.dst) (locOff r.dst + 128 * r.accepted)

/-- The flit whose ejection slot has come. -/
def ejectDue (s : State) : Option Flit := s.flits.find? fun f => f.eject ≤ s.cyc

/-- Two flits bound for one ejection port, plane, slot and frame (R383). -/
def flitsMeet (f g : Flit) : Bool := f.dst = g.dst && f.plane = g.plane && f.eject = g.eject

/-- PHASE_COLLISION for the sender of a dropped flit (R383): at its first output port where another flit of the same array has met it
there, else at the ejection port. -/
def dropFlit (s : State) (f : Flit) (other : Nat) : State :=
  if (arr s f.src).task.isNone then s
  else
    let pos := 64 * f.frame + f.slot + ejectAfter f.src f.dst
    report s f.src
      { code := 0x22, slot := 7, src := 2, eng := f.eng, seq := f.seq, cycle := s.cyc,
        detail := if other = f.src && f.src ≠ f.dst then collisionAt f.src (f.dst % 4) f.plane f.slot f.frame other
                  else collision f.dst f.plane (pos % 64) (pos / 64) other }

/-- A flit accepted at its bank, after what earlier commands of its engine wrote there and before what later ones did (R226): written at
128k, and its bytes credited where they have not been (R381, R382); a tile that has become the residual tile since is not reached (R263;
log 77). -/
def landFlit (s : State) (f : Flit) (k : Nat) : State :=
  match s.imux[k]? with
  | none => s
  | some r =>
    let t := (tileAt s r.tile).asViewed r.tr
    let all := viewCells t (locHdr r.dst) ((locOff r.dst + 128 * r.accepted : Nat) : Int) 128 f.data.toNat
    let open_ := lateBytes s f.src f.eng f.seq all
    let bytes := (all.zip (List.range 128)).filter fun x => open_.contains x.1 && !f.past.contains x.1.1
    let cells := bytes.map (·.1)
    let s0 := noteWrote (coverFlits (landUnder s f.src f.eng f.seq cells) f.src f.eng f.seq cells) f.src f.eng f.seq cells
    let s1 := if isResid s r.tile then s else putCells s0 cells ((bytes.filter fun x => f.bad.contains x.2).map fun x => eccWord x.1.1).eraseDups
    creditFlit { s1 with imux := lmod s1.imux k fun r => { r with accepted := r.accepted + 1 } } f

/-- Complete the CLOSE of a group whose last flit has gone; the phase tables left of members that have failed clear too (R384). -/
def flitsGone (s : State) (n : Nat) : State :=
  sweepImux ((List.range 28).foldl (fun s a =>
    match (seqAt s a).after with
    | some (.phaseClose g) => if groupNo s (seqAt s a).part g = n then phaseEnd s (seqAt s a).part g else s
    | _ => s) s) n

/-- The flits that have come to one ejection slot: those that met at a first output port, or meet here, are dropped; one that comes alone
is accepted where an IMUX assigns the slot to its sender (R383). -/
def flitEject (s : State) : State :=
  match ejectDue s with
  | none => s
  | some f =>
    let meet := s.flits.filter fun g => flitsMeet f g
    let here := reaching (meet.map (·.src))
    let s1 := { s with flits := s.flits.filter fun g => !flitsMeet f g }
    let s2 := meet.foldl (fun s x =>
      if !here.contains x.src then dropFlit s x x.src
      else match here.find? fun a => a ≠ x.src with
        | some a => dropFlit s x a
        | none => match imuxOf s x with
          | some k => landFlit s x k
          | none => dropFlit s x 31) s1
    (meet.map (·.group)).eraseDups.foldl flitsGone s2

end Sys2Proof.Machine
end

