-- ==== Sys2Proof/Machine/Engine.lean ====
section
/-! DEFINITION. The running of copy commands (R237, R238, R286, R306): their start, their end, and the events of an engine. -/

namespace Sys2Proof.Machine

/-! ## Starting -/

/-- Whether pre-emption lets a command go on: only one that has sent a sector (R444). -/
def mayRun (s : State) (a : Nat) (c : Cmd) : Bool := (seqAt s a).stop ≠ .preempt || c.sent > 0

/-- Whether a command that takes effect at a port stands at its queue: BIND, UNBIND or RANKX, which act from the cycle after their bundle
(R279, R281, R465). -/
def bindHeld (s : State) (c : Cmd) : Bool := 6 ≤ c.op && c.op ≤ 8 && s.cyc ≤ c.issued

/-- Whether an engine can start its next command now (R286). -/
def canStart (s : State) (a e : Nat) : Bool :=
  match (engAt s a e).queue.head? with
  | none => false
  | some c => !c.started && !(engAt s a e).halted && mayRun s a c && !acquireWaits s a c && !bindHeld s c

/-- An engine starts its next command (R237, R263, R286). -/
def startCmd (s : State) (a e : Nat) : State :=
  match (engAt s a e).queue.head? with
  | none => s
  | some c =>
    if sideResid s c then cmdStop s a e 8 c.sent none
    else modEng (cmdAcquire s a c) a e fun g => { g with queue := lmod g.queue 0 fun c => { c with started := true } }

/-! ## Ending -/

/-- Whether a command with the release bit has landed all it sent (R238). -/
def cmdLanded (s : State) (a e : Nat) (c : Cmd) : Bool :=
  (engAt s a e).flight.all (fun x => x.seq ≠ c.seq)
    && s.flits.all fun f => !(f.src = a && f.eng = e && f.seq = c.seq)

/-- The canonical part of the range of a TPREF or TFLUSH: its first address and its end (R306). -/
def cmdRange (c : Cmd) : Nat × Nat :=
  let lo := c.ra.toNat
  (lo, if lo < 2 ^ 57 then Nat.min (2 ^ 57) (lo + c.rb.toNat) else lo)

/-- What a TPREF or TFLUSH walks of its range: one piece for each 4 KiB, as first address and end. -/
def rangePieces (c : Cmd) : List (Nat × Nat) :=
  let (lo, hi) := cmdRange c
  if hi ≤ lo then []
  else (List.range (ceilDiv hi 4096 - lo / 4096)).map fun k =>
    let b := (lo / 4096 + k) * 4096
    (Nat.max lo b, Nat.min hi (b + 4096))

/-- The lines of a device page that hold addresses `lo` to `hi - 1` of it come into their slices. -/
def touchLines (s : State) (p lo hi : Nat) (e : Word) : State :=
  let b := pageBase lo (leafBytes e)
  (List.range (ceilDiv (hi - b) 192 - (lo - b) / 192)).foldl (fun s k => sliceTouch s p (ptePa e + 192 * ((lo - b) / 192 + k)) false) s

/-- TPREF: the leaves walked fill both TLBs, and with `.lines` the range's device-memory lines come into their slices; a page that is not present
or lacks R is skipped (R306). -/
def tprefRun (s : State) (a : Nat) (c : Cmd) : State :=
  (rangePieces c).foldl (fun s x =>
    let s0 := (translate s a c.part (BitVec.ofNat 64 x.1)).1
    match walk s c.part (BitVec.ofNat 64 x.1) with
    | .fail _ _ => s0
    | .leaf e _ _ =>
      if !pteR e then s0
      else
        let s1 := tlbFill s0 a c.part x.1 e
        if bitsOf c.word 9 6 % 2 = 1 && pteLoc e = 0 then touchLines s1 c.part x.1 x.2 e else s1) s

/-- The device memory a TFLUSH flushes, as first byte and count: pages that are not present, or lack R and W, are skipped (R306). -/
def flushPas (s : State) (c : Cmd) : List (Nat × Nat) :=
  (rangePieces c).filterMap fun x =>
    match walk s c.part (BitVec.ofNat 64 x.1) with
    | .leaf e _ _ =>
      if pteLoc e = 0 && (pteR e || pteW e) then some (ptePa e + (x.1 - pageBase x.1 (leafBytes e)), x.2 - x.1) else none
    | .fail _ _ => none

/-- TFLUSH: the range is walked, and its lines leave their slices and the array TLB its entries; the victim store keeps its own (R306;
log 71). -/
def tflushRun (s0 : State) (a : Nat) (c : Cmd) : State :=
  let ps := flushPas s0 c
  let s := (rangePieces c).foldl (fun s x => walkTouch s c.part (BitVec.ofNat 64 x.1)) s0
  let gone (e : Nat × Nat × Nat × Bool) : Bool := ps.any fun r => r.1 < e.1 * 2 ^ 36 + 192 * e.2.1 + 192 && e.1 * 2 ^ 36 + 192 * e.2.1 < r.1 + r.2
  modArr (evictLines s gone) a fun x =>
    { x with tlb := dropTlb x.tlb c.part (cmdRange c).1 (cmdRange c).2 }

/-- The port a BIND, UNBIND or RANKX names. -/
def cmdPort (c : Cmd) : Nat :=
  if c.op = 6 then portNo (bitsOf (cmdX c 0) 11 8) (bitsOf (cmdX c 0) 14 12)
  else if c.op = 8 then portW (bitsOf c.rb 10 8)
  else portNo (bitsOf c.word 9 6) (bitsOf c.word 21 17)

/-- The pattern a BIND or RANKX binds (R276, R402, R404). -/
def cmdPattern (c : Cmd) (e : Nat) : Pattern :=
  let tr (k : Nat) : Bool := ((cmdTile c k).map c.trs.contains).getD false
  if c.op = 6 then
    { patternOf (cmdX c) ((cmdTile c (bitsOf (cmdX c 0) 5 0)).getD 0) e with seq := c.seq, tr := tr (bitsOf (cmdX c 0) 5 0) }
  else
    let sh := cmdX c 0
    { tile := (cmdTile c (locSlot c.ra)).getD 0, slot := locSlot c.ra, base := locOff c.ra, eng := e, seq := c.seq,
      tr := tr (locSlot c.ra),
      rank := some { nrows := shapeRows sh, rowBytes := shapeRowb sh, pitch := cmdX c 1, cut := bitsOf c.rb 6 0, ioff := bitsOf c.rb 31 16,
                     bf := c.word.getLsbD 7, pos := c.word.getLsbD 6, hdr := locHdr c.ra } }

/-- Whether the head of a queue has done all it has to before it leaves cp (R238, R303, R306). -/
def canEnd (s : State) (a e : Nat) : Bool :=
  match (engAt s a e).queue.head? with
  | none => false
  | some c =>
    c.started && !(engAt s a e).halted && mayRun s a c &&
    (match c.op with
     | 6 | 8 => canBind (portAt s a (cmdPort c))
     | 7 => (portAt s a (cmdPort c)).places = []
     | 0x10 | 0x11 => true
     | 0x0B => sideResid s c || (c.sent ≥ cmdBytes c && (!c.word.getLsbD 4 || cmdLanded s a e c))
     | _ => c.sent ≥ cmdBytes c && (!c.word.getLsbD 4 || cmdLanded s a e c))

/-- What a command does as it leaves. -/
def endWork (s : State) (a e : Nat) (c : Cmd) : State :=
  match c.op with
  | 6 | 8 => bindPort s a (cmdPort c) (cmdPattern c e)
  | 7 => unbindPort s a (cmdPort c)
  | 0x10 => tprefRun s a c
  | 0x11 => tflushRun s a c
  | _ => s

/-- The head of a queue ends DONE and leaves cp (R238); an XMIT whose tile has become the residual tile before its last flit has left ends
with RESID (R263, R293). -/
def finishCmd (s : State) (a e : Nat) : State :=
  match (engAt s a e).queue.head? with
  | none => s
  | some c =>
    let s1 := if c.op = 0x0B && c.sent < cmdBytes c then cmdStop s a e 8 c.sent none else cmdEnd (endWork s a e c) a e 0 c
    if c.op = 0x0B then flitsGone s1 c.group else s1

/-- Whether the head of a queue has bytes to send. -/
def canSend (s : State) (a e : Nat) : Bool :=
  match (engAt s a e).queue.head? with
  | none => false
  | some c => c.started && !(engAt s a e).halted && mayRun s a c && 1 ≤ c.op && c.op ≤ 5 && c.sent < cmdBytes c && inFlight s a < 4096

/-- Whether the head of a queue is a BIND, UNBIND or RANKX, which takes effect as soon as nothing holds it (R279, R281; log 15). -/
def headBinds (s : State) (a e : Nat) : Bool :=
  match (engAt s a e).queue.head? with
  | none => false
  | some c => 6 ≤ c.op && c.op ≤ 8

/-- Whether a BIND, UNBIND or RANKX starts now. -/
def bindStarts (s : State) (a e : Nat) : Bool := headBinds s a e && canStart s a e

/-- Whether a BIND, UNBIND or RANKX takes effect now. -/
def bindEnds (s : State) (a e : Nat) : Bool := headBinds s a e && canEnd s a e

/-! ## Events -/

/-- COMMAND_START (R286): engine `ev.k` of array `ev.a`. -/
def execCommandStart (s : State) : MOut :=
  .next (if canStart s s.ev.a s.ev.k then startCmd s s.ev.a s.ev.k else s)

/-- ENGINE_PAGE_TRANSLATE (R294). -/
def execEnginePageTranslate (s : State) : MOut :=
  .next (if canSend s s.ev.a s.ev.k then
    (match (engAt s s.ev.a s.ev.k).queue.head? with
     | none => s
     | some c => sendNext s s.ev.a s.ev.k c)
   else s)

/-- SECTOR_LAND (R238): the oldest sector engine `ev.k` of array `ev.a` has sent; those of one engine land in the order sent (R226). -/
def execSectorLand (s : State) : MOut := .next (landNth s s.ev.a s.ev.k 0)

/-- COMMAND_END (R238). -/
def execCommandEnd (s : State) : MOut := .next (if canEnd s s.ev.a s.ev.k then finishCmd s s.ev.a s.ev.k else s)

/-- Virtual addresses, one for each 4 KiB and the last, of rows of `n` bytes of a location given by virtual address. -/
def vaSpots (v : Word) (off : Nat → Int) (n : Nat) (rows : List Nat) : List Word :=
  if locKind v ≠ 0 || n = 0 then []
  else rows.flatMap fun r =>
    vaAt v (off r + (n - 1 : Nat)) :: (List.range (ceilDiv n 4096)).map fun k => vaAt v (off r + (4096 * k : Nat))

/-- Virtual addresses of what a command has still to reach: its sides, a row masked off or out of range read or written nowhere, and its
list or mask (R297 to R302). -/
def cmdSpots (s : State) (a e : Nat) (c : Cmd) : List Word :=
  let rowb := shapeRowb (cmdX c 0)
  let n := shapeRows (cmdX c 0)
  let left := (List.range n).filter fun r => c.sent / Nat.max 1 rowb ≤ r
  let at_ (k : Nat) (r : Nat) : Int := (r : Nat) * (cmdX c k).toInt
  let list (k m : Nat) : List Word := vaSpots (cmdX c k) (fun _ => 0) m [0]
  match c.op with
  | 1 => vaSpots c.ra (at_ 1) rowb left ++ vaSpots c.rb (at_ 2) rowb left
  | 2 | 3 =>
    let x := rowsOf s c (c.op = 3)
    let here := left.filter fun r => (peekIndex s a e c r).any fun i => i < x.tn
    let wide := if bitsOf c.word 9 6 % 2 = 1 then 2 else 1
    list 3 (n * wide) ++ vaSpots x.table (fun r => x.toff ((peekIndex s a e c r).getD 0) 0) rowb here
      ++ vaSpots x.other (fun r => x.ooff r 0) rowb (if c.op = 3 then here else left)
  | 4 =>
    let on := left.filter fun r => match (readSpan a e 2 c (cmdX c 5) (fun k => ((r / 8 + k : Nat) : Int)) 0 1 s).2 with
      | .ok v => v.1.testBit (r % 8)
      | .error _ => true
    list 5 (ceilDiv n 8) ++ vaSpots c.ra (at_ 1) rowb on
      ++ vaSpots c.rb (at_ 2) rowb (if bitsOf c.word 9 6 % 2 = 1 then left else on)
  | 5 => vaSpots c.rb (at_ 2) rowb left
  | _ => []

/-- Whether the command at the head of an engine uses the host link or a Rhodi link: a sector on its way does, or bytes it has still to
reach lie beyond one (R295). -/
def usesLink (s : State) (a e : Nat) (c : Cmd) : Bool :=
  (engAt s a e).flight.any (fun x => x.link && x.seq = c.seq)
    || (cmdSpots s a e c).any fun v => match walk s c.part v with
      | .leaf x _ _ => pteLoc x ≠ 0
      | .fail _ _ => false

/-- LINK_FAILURE (R295): the link or target fails the running command of engine `ev.k` of array `ev.a`; `ev.flag` for TARGET_FULL. -/
def execLinkFailure (s : State) : MOut :=
  .next (match (engAt s s.ev.a s.ev.k).queue.head? with
    | none => s
    | some c =>
      if c.started && !(engAt s s.ev.a s.ev.k).halted && usesLink s s.ev.a s.ev.k c then
        linkEnd s s.ev.a s.ev.k (if s.ev.flag then 7 else 6) c c.sent (cmdAddr s s.ev.a s.ev.k c c.sent)
      else s)

/-- Whether the placement of an array is frozen by a global stall (R146). -/
def stalled (s : State) (a : Nat) : Bool :=
  match (seqAt s a).stallEnd with
  | none => false
  | some (e, k) => e - k ≤ s.cyc

/-- Whether the loader of a port may deliver: it is ready, no global stall freezes its placement, and the ranking network, where it serves
the port, has not taken a row in this cycle (R146, R280, R404). -/
def portReady (s : State) (a n : Nat) : Bool :=
  fillReady s n (portAt s a n) && !stalled s a && (!isRankPort (portAt s a n) || (arr s a).rankAt ≤ s.cyc)

/-- EDGE_LOADER_FILL (R280, R285): port `ev.k` of array `ev.a` receives what its loader delivers this cycle. -/
def execEdgeLoaderFill (s : State) : MOut :=
  .next (if !isRankPort (portAt s s.ev.a s.ev.k) && portReady s s.ev.a s.ev.k then fillPort s s.ev.a s.ev.k else s)

/-- IMPALA_RANK (R403, R404): a row is ranked, and its fragments reach port `ev.k` of array `ev.a`. -/
def execImpalaRank (s : State) : MOut :=
  .next (if isRankPort (portAt s s.ev.a s.ev.k) && portReady s s.ev.a s.ev.k then rankRow s s.ev.a s.ev.k else s)

/-- Whether the drain of a port may write or pass over its oldest place: no global stall freezes its placement, and it has had no other
turn in this cycle (R146, R282). -/
def drainReady (s : State) (a n : Nat) : Bool := !stalled s a && (portAt s a n).drainAt ≤ s.cyc && canDrain (portAt s a n)

/-- DRAIN_WRITE (R282): one cycle of the drain of port `ev.k` of array `ev.a`. -/
def execDrainWrite (s : State) : MOut := .next (if drainReady s s.ev.a s.ev.k then drainPort s s.ev.a s.ev.k else s)

/-- PHASE_FRAME_START (R380): frame 0 of the phase array `ev.a` waits for begins. -/
def execPhaseFrameStart (s : State) : MOut :=
  .next (match (seqAt s s.ev.a).after with
    | some (.frame g c) => if c ≤ s.cyc then frameStart s s.ev.a g else s
    | _ => s)

/-- PHASE_FLIT (R381, R383): the next flit of engine `ev.k` of array `ev.a` leaves if its slot has come, else a flit whose slot has
come is ejected. -/
def execPhaseFlit (s : State) : MOut :=
  .next (match flitDue s s.ev.a s.ev.k with
    | some k => flitLeave s s.ev.a s.ev.k k
    | none => flitEject s)

/-- WINDOW_CONTRIBUTION (R271): another chip, number `ev.k`, reaches the merge switch: its accumulate to address `ev.x0` of partition
`ev.p` with value `ev.x1`, or, with `ev.flag`, its flush. With `ev.flag` and a number from 64 on the combining store of switch `ev.k - 64` is full,
and its oldest entry is emitted. -/
def execWindowContribution (s : State) : MOut :=
  let p := s.ev.p
  .next (if s.ev.flag then
    (if s.ev.k = s.pkg.chipId then s
     else if s.ev.k < 64 then flushFrom s p s.ev.k
     else match s.wins.find? fun e => winSwitch s e + 64 = s.ev.k with
       | none => s
       | some e => windowEmit s e)
  else match windowOf s p s.ev.x0.toNat with
    | none => s
    | some (w, d) =>
      if s.ev.k < 64 && d.getLsbD (128 + s.ev.k) && s.ev.k ≠ s.pkg.chipId then
        windowAdd s p w s.ev.x0.toNat s.ev.k (BitVec.ofNat 32 s.ev.x1.toNat)
      else s)

end Sys2Proof.Machine
end

