-- ==== Sys2Proof/Machine/SeqEvents.lean ====
section
/-! DEFINITION. The events of a sequencer: what it still has to do of an issued instruction, its outstanding operations (R218, R214,
R249, R259, R260, R266), its walks (R347), its pauses (R422), its compiles (R394, R395), its retirement (R28), and its fetches
(R114). Event arguments: `ev.a` the array, `ev.k` a place in its list or a handle. -/

namespace Sys2Proof.Machine

/-- Go on with an issued instruction that stops issue. -/
def resumePend (s : State) (a : Nat) : State :=
  match (seqAt s a).after with
  | none => s
  | some (.fence acq rel scope) => resumeFence s a acq rel scope
  | some (.resid x) => resumeResid s a x
  | some (.ldatt k vals) => resumeLdatt s a k vals
  | some (.tfree t) => resumeTfree s a t
  | some (.tseal rd t) => resumeTseal s a rd t
  | some (.phaseOpen g arrived) => resumePhaseOpen s a g arrived
  | some (.frame _ _) => s
  | some (.phaseClose g) => resumePhaseClose s a g

/-- Whether an array tops a placement whose task is RUNNING. -/
def runs (s : State) (a : Nat) : Bool := a < 28 && isRunningTop s a

/-! ## Pauses and retirement -/

/-- PAUSE_EXPIRE (R422). -/
def execPauseExpire (s : State) : MOut :=
  .next (modSeq s s.ev.a fun q => match q.stop with
    | .pause c => if c ≤ s.cyc then { q with stop := .run } else q
    | _ => q)

/-- Whether retirement has drained (R28, steps 1 to 5): words, copy commands, drains, outstanding operations. -/
def canRetire (s : State) (a : Nat) : Bool :=
  let q := seqAt s a
  runs s a && q.stop = .retiring && q.pending = [] && q.located = [] && (arr s a).words = [] && q.outs = []
    && (arr s a).eng.toList.all (fun g => g.queue = [] && g.flight = []) && (arr s a).ports.all fun p => p.2.places = []

/-- RETIREMENT_COMPLETE (R28). -/
def execRetirementComplete (s : State) : MOut :=
  .next (if canRetire s s.ev.a then
    (match (arr s s.ev.a).task with
     | none => s
     | some i => retire s i)
   else s)

/-! ## Outstanding operations -/

/-- Perform operation `ev.k` of array `ev.a` where a test allows it and its place in order lets it. -/
def onOut (s : State) (ok : Out → Bool) (f : State → Nat → Nat → Out → State) : State :=
  match (seqAt s s.ev.a).outs[s.ev.k]? with
  | none => s
  | some o => if ok o && outReady (seqAt s s.ev.a).outs s.ev.k then f s s.ev.a s.ev.k o else s

/-- LOAD_RETURN (R218): an operation of the class ld ends, no earlier than its answer is due. -/
def execLoadReturn (s : State) : MOut := .next (onOut s (fun o => ldClass o && o.due ≤ s.cyc) ldEnd)

/-- STORE_PERFORMED (R214). -/
def execStorePerformed (s : State) : MOut := .next (onOut s stClass stEnd)

/-- AMO_AT_HOME (R249, R250). -/
def execAmoAtHome (s : State) : MOut :=
  .next (onOut s (fun _ => true) fun s a k o => match o.op with
    | .amo fn rd v => amoHome s a k o fn rd v
    | .cas rd c n => casHome s a k o rd c n
    | _ => s)

/-- ATOMIC_RETURN (R249). -/
def execAtomicReturn (s : State) : MOut :=
  .next (onOut s (fun _ => true) fun s a k o => match o.op with
    | .amoRet rd old fl bad => amoBack s a k o rd old fl bad
    | _ => s)

/-- ACC_AT_HOME (R259). -/
def execAccAtHome (s : State) : MOut :=
  .next (onOut s (fun _ => true) fun s a k o => match o.op with
    | .acc fn v => accHome s a k o fn v
    | _ => s)

/-- ACC_REFUSED (R260). -/
def execAccRefused (s : State) : MOut :=
  .next (onOut s (fun o => o.due = 0) fun s a k o => match o.op with
    | .accRefused fn v => accBack s a k o fn v
    | _ => s)

/-- ACC_RESEND (R260): at the home's next quota window the addend is sent again, not must-accept. -/
def execAccResend (s : State) : MOut :=
  .next (onOut s (fun o => 0 < o.due && o.due ≤ s.cyc) fun s a k o => match o.op with
    | .accRefused fn v => setOut s a k { o with op := .acc fn v, due := 0 }
    | _ => s)

/-- A refused addend of a task that has ended is sent again at the start of a window: into a reduction window that has come to stand there,
or accepted and performed, or refused and due again at the next (R258 to R260, R423; log 49). -/
def acceptDue (s : State) (x : Resend) : State :=
  let pa := x.pl.pa
  match accWindow s x.part pa x.fn with
  | some (w, _) => windowAdd s x.part w pa s.pkg.chipId (BitVec.ofNat 32 x.v.toNat)
  | none =>
    if (windowOf s x.part pa).isNone && refuses s pa x.part x.arr then
      let q := quotaAt s (memDie pa) x.part
      let s1 := setQuota s (memDie pa) x.part { q with refcnt := satInc q.refcnt }
      { s1 with accDue := s1.accDue ++ [x] }
    else accPerform s pa x.part x.arr x.fn (x.v.toNat % 2 ^ (8 * accBytes x.fn false)) false

/-- QUOTA_WINDOW_START (R259, R423): every home clears its counts, and a written quota comes into force. -/
def execQuotaWindowStart (s : State) : MOut :=
  .next (if s.window < s.cyc / 256 then
    s.accDue.foldl acceptDue
      { s with window := s.cyc / 256, acnt := [], accDue := []
               quotas := s.quotas.filterMap fun e =>
                 let q := { e.2 with inForce := e.2.qlim }
                 if q = {} then none else some (e.1, q) }
   else s)

/-- Whether an accumulate issued before operation `k` is neither accepted nor placed (R266). -/
def accBefore (s : State) (a k : Nat) : Bool := ((seqAt s a).outs.take k).any isAcc'

/-- FLUSHRES_COMPLETE (R266). -/
def execFlushresComplete (s : State) : MOut :=
  .next (match (seqAt s s.ev.a).outs[s.ev.k]? with
    | some o => if o.op = .flushres && !accBefore s s.ev.a s.ev.k then flushEnd s s.ev.a s.ev.k else s
    | none => s)

/-- Whether a refused request is to be sent again now (R201). -/
def retryDue (s : State) (a : Nat) : Bool := (seqAt s a).retryAt.any fun c => c ≤ s.cyc

/-- FE_RETRY (R201, R418): 64 cycles after a request that a full bank refused, its held bundle sends it again. -/
def execFeRetry (s : State) : MOut :=
  .next (if retryDue s s.ev.a then modSeq s s.ev.a fun q => { q with retryAt := none } else s)

/-! ## Walks and fetches -/

/-- How a handle stands after a walk of its held address (R347). -/
def walkedHandle (h : Handle) (w : Walk) : Handle :=
  match w with
  | .leaf e _ _ => { h with st := .valid, leaf := e, cause := 0 }
  | .fail c _ => { h with st := .faulted, leaf := 0, cause := c }

/-- The walk of a WALKING handle of array `a` ends (R343, R347). -/
def walkEnd (s : State) (a k : Nat) : State :=
  let h := vget {} (seqAt s a).h k
  if h.st ≠ .walking then s
  else
    let (s1, w) := walkFill s a (seqAt s a).part h.va
    modHandle (countMiss s1 a true) a k fun h => walkedHandle h w

/-- HANDLE_WALK_END (R347): handle `ev.k` of array `ev.a`. -/
def execHandleWalkEnd (s : State) : MOut := .next (if s.ev.k < 16 then walkEnd s s.ev.a s.ev.k else s)

/-- Lines the instruction cache holds (R114). -/
def icacheLines : Nat := 1024

/-- The line of the bundle array `a` fetches next, where its handle is VALID and the line is not held (R114). -/
def missingLine (s : State) (a : Nat) : Option Nat :=
  let q := seqAt s a
  let h := codeHandle q
  if h.st = .valid && pteX h.leaf && q.pc + 24 ≤ leafBytes h.leaf && (bundleAt (arr s a) q.pc).isNone then
    some (codeLine q q.pc) else none

/-- The line of the bundle an array fetches next is read at its home, where it is missing, its uncorrectable words marked and counted; what
the victim store held there is dropped (R211, R344, R351, R424, R426). -/
def fillCode (s : State) (a : Nat) : State :=
  match missingLine s a with
  | none => s
  | some pa =>
    let s1 := countHome (sliceTouch (markPoison s pa 192) (seqAt s a).part pa false) a pa
    modArr s1 a fun x => { x with icache := ((pa, BitVec.ofNat 1536 (readNat s1.mem pa 192)) :: x.icache).take icacheLines, victim := [] }

/-- INSTRUCTION_CACHE_FILL (R114, R351). -/
def execInstructionCacheFill (s : State) : MOut := .next (fillCode s s.ev.a)

/-! ## Compiles -/

/-- COMPILE_BEGIN (R394). -/
def execCompileBegin (s : State) : MOut := .next (compileBegins s s.ev.a)

/-- COMPILE_END (R395). -/
def execCompileEnd (s : State) : MOut :=
  .next (match compileDue s s.ev.a with
    | none => s
    | some k => compileEnds s s.ev.a k)

end Sys2Proof.Machine
end

