-- ==== Sys2Proof/Machine/Grid.lean ====
section
/-! DEFINITION. The grid: words executing in their cells (R144 to R159), global stalls (R146), the aggregates (R156, R157), and the
traps and the watchdog of a sequencer (R35, R431). -/

namespace Sys2Proof.Machine

/-! ## One cell -/

/-- The meaning of a cell slot's instruction; a slot of another class does nothing in a cell. -/
def cellDispatch (i : Instr) (s : State) : MOut :=
  match i with
  | .fadd x0 x1 x2 x3 x4 x5 => execFadd x0 x1 x2 x3 x4 x5 s
  | .fsub x0 x1 x2 x3 x4 x5 => execFsub x0 x1 x2 x3 x4 x5 s
  | .fmul x0 x1 x2 x3 x4 x5 x6 => execFmul x0 x1 x2 x3 x4 x5 x6 s
  | .fma x0 x1 x2 x3 x4 x5 x6 => execFma x0 x1 x2 x3 x4 x5 x6 s
  | .fmin x0 x1 x2 x3 x4 x5 => execFmin x0 x1 x2 x3 x4 x5 s
  | .fmax x0 x1 x2 x3 x4 x5 => execFmax x0 x1 x2 x3 x4 x5 s
  | .fcmpEq x0 x1 x2 x3 x4 x5 => execFcmpEq x0 x1 x2 x3 x4 x5 s
  | .fcmpNe x0 x1 x2 x3 x4 x5 => execFcmpNe x0 x1 x2 x3 x4 x5 s
  | .fcmpLt x0 x1 x2 x3 x4 x5 => execFcmpLt x0 x1 x2 x3 x4 x5 s
  | .fcmpLe x0 x1 x2 x3 x4 x5 => execFcmpLe x0 x1 x2 x3 x4 x5 s
  | .frcp x0 x1 x2 x3 x4 => execFrcp x0 x1 x2 x3 x4 s
  | .frsq x0 x1 x2 x3 x4 => execFrsq x0 x1 x2 x3 x4 s
  | .fsqrt x0 x1 x2 x3 x4 => execFsqrt x0 x1 x2 x3 x4 s
  | .fex2 x0 x1 x2 x3 x4 => execFex2 x0 x1 x2 x3 x4 s
  | .flg2 x0 x1 x2 x3 x4 => execFlg2 x0 x1 x2 x3 x4 s
  | .hadd2 x0 x1 x2 x3 x4 x5 => execHadd2 x0 x1 x2 x3 x4 x5 s
  | .hfma2 x0 x1 x2 x3 x4 x5 x6 => execHfma2 x0 x1 x2 x3 x4 x5 x6 s
  | .bfma2 x0 x1 x2 x3 x4 x5 x6 => execBfma2 x0 x1 x2 x3 x4 x5 x6 s
  | .cvtF16F32 x0 x1 x2 x3 x4 x5 => execCvtF16F32 x0 x1 x2 x3 x4 x5 s
  | .cvtF32F16 x0 x1 x2 x3 x4 x5 => execCvtF32F16 x0 x1 x2 x3 x4 x5 s
  | .cvtBf16F32 x0 x1 x2 x3 x4 x5 => execCvtBf16F32 x0 x1 x2 x3 x4 x5 s
  | .cvtF32Bf16 x0 x1 x2 x3 x4 x5 => execCvtF32Bf16 x0 x1 x2 x3 x4 x5 s
  | .cvtE4m3F32 x0 x1 x2 x3 x4 x5 => execCvtE4m3F32 x0 x1 x2 x3 x4 x5 s
  | .cvtE5m2F32 x0 x1 x2 x3 x4 x5 => execCvtE5m2F32 x0 x1 x2 x3 x4 x5 s
  | .cvtF32E4m3 x0 x1 x2 x3 x4 x5 => execCvtF32E4m3 x0 x1 x2 x3 x4 x5 s
  | .cvtF32E5m2 x0 x1 x2 x3 x4 x5 => execCvtF32E5m2 x0 x1 x2 x3 x4 x5 s
  | .cvtI32F32 x0 x1 x2 x3 x4 => execCvtI32F32 x0 x1 x2 x3 x4 s
  | .cvtF32I32 x0 x1 x2 x3 x4 => execCvtF32I32 x0 x1 x2 x3 x4 s
  | .iadd x0 x1 x2 x3 x4 x5 x6 => execIadd x0 x1 x2 x3 x4 x5 x6 s
  | .isub x0 x1 x2 x3 x4 x5 x6 => execIsub x0 x1 x2 x3 x4 x5 x6 s
  | .imul x0 x1 x2 x3 x4 x5 => execImul x0 x1 x2 x3 x4 x5 s
  | .imad x0 x1 x2 x3 x4 x5 => execImad x0 x1 x2 x3 x4 x5 s
  | .iabs x0 x1 x2 x3 x4 => execIabs x0 x1 x2 x3 x4 s
  | .imin x0 x1 x2 x3 x4 x5 x6 => execImin x0 x1 x2 x3 x4 x5 x6 s
  | .imax x0 x1 x2 x3 x4 x5 x6 => execImax x0 x1 x2 x3 x4 x5 x6 s
  | .cellAnd x0 x1 x2 x3 x4 x5 x6 => execCellAnd x0 x1 x2 x3 x4 x5 x6 s
  | .cellOr x0 x1 x2 x3 x4 x5 x6 => execCellOr x0 x1 x2 x3 x4 x5 x6 s
  | .cellXor x0 x1 x2 x3 x4 x5 x6 => execCellXor x0 x1 x2 x3 x4 x5 x6 s
  | .cellShl x0 x1 x2 x3 x4 x5 x6 => execCellShl x0 x1 x2 x3 x4 x5 x6 s
  | .cellShr x0 x1 x2 x3 x4 x5 x6 => execCellShr x0 x1 x2 x3 x4 x5 x6 s
  | .cellSra x0 x1 x2 x3 x4 x5 x6 => execCellSra x0 x1 x2 x3 x4 x5 x6 s
  | .icmpEq x0 x1 x2 x3 x4 x5 x6 => execIcmpEq x0 x1 x2 x3 x4 x5 x6 s
  | .icmpNe x0 x1 x2 x3 x4 x5 x6 => execIcmpNe x0 x1 x2 x3 x4 x5 x6 s
  | .icmpLt x0 x1 x2 x3 x4 x5 x6 => execIcmpLt x0 x1 x2 x3 x4 x5 x6 s
  | .icmpLtn x0 x1 x2 x3 x4 x5 x6 => execIcmpLtn x0 x1 x2 x3 x4 x5 x6 s
  | .cellSel x0 x1 x2 x3 x4 x5 => execCellSel x0 x1 x2 x3 x4 x5 s
  | .mov x0 x1 x2 x3 x4 x5 x6 => execMov x0 x1 x2 x3 x4 x5 x6 s
  | .ldc x0 x1 x2 x3 x4 x5 x6 => execLdc x0 x1 x2 x3 x4 x5 x6 s
  | .stc x0 x1 x2 x3 x4 => execStc x0 x1 x2 x3 x4 s
  | .vgath x0 x1 x2 x3 x4 x5 => execVgath x0 x1 x2 x3 x4 x5 s
  | .vscat x0 x1 x2 x3 => execVscat x0 x1 x2 x3 s
  | .vredAdd x0 x1 x2 x3 x4 => execVredAdd x0 x1 x2 x3 x4 s
  | .vredMax x0 x1 x2 x3 x4 => execVredMax x0 x1 x2 x3 x4 s
  | .vredMin x0 x1 x2 x3 x4 => execVredMin x0 x1 x2 x3 x4 s
  | .vredOr x0 x1 x2 x3 x4 => execVredOr x0 x1 x2 x3 x4 s
  | .vperm x0 x1 x2 x3 x4 x5 => execVperm x0 x1 x2 x3 x4 x5 s
  | .vbcast x0 x1 x2 x3 x4 x5 x6 => execVbcast x0 x1 x2 x3 x4 x5 x6 s
  | .flag x0 x1 x2 x3 x4 => execFlag x0 x1 x2 x3 x4 s
  | .srng x0 x1 x2 x3 x4 => execSrng x0 x1 x2 x3 x4 s
  | .rkval x0 x1 x2 x3 x4 => execRkval x0 x1 x2 x3 x4 s
  | .optupd x0 x1 x2 x3 x4 x5 x6 => execOptupd x0 x1 x2 x3 x4 x5 x6 s
  | .mma x0 x1 x2 x3 x4 => execMma x0 x1 x2 x3 x4 s
  | .mmaSel x0 x1 x2 x3 => execMmaSel x0 x1 x2 x3 s
  | .mmaNeg x0 x1 x2 x3 x4 => execMmaNeg x0 x1 x2 x3 x4 s
  | .aclr x0 x1 => execAclr x0 x1 s
  | .amov x0 x1 x2 x3 x4 => execAmov x0 x1 x2 x3 x4 s
  | .ald x0 x1 x2 x3 x4 => execAld x0 x1 x2 x3 x4 s
  | .arnd x0 x1 x2 x3 x4 x5 x6 => execArnd x0 x1 x2 x3 x4 x5 x6 s
  | .racc x0 x1 x2 x3 => execRacc x0 x1 x2 x3 s
  | _ => .next s

/-- The state a meaning answers. -/
def outState (m : MOut) (s : State) : State :=
  match m with
  | .next t => t
  | _ => s

/-- Run slot `k` of a word in the cell under the cursor. -/
def runSlot (s : State) (k : Nat) (mask : SelPair) (i : Instr) : State :=
  if i = .nop then s
  else
    let s1 := { s with cell := { s.cell with slot := k, mask := mask } }
    outState (cellDispatch i s1) s1

/-- Fill the drain places a cell reserved in a word, after its three slots: C where its MOV.d took effect, else passed over (R166,
R282). -/
def pushDrains (s : State) (top row col : Nat) (w : WordF) : State :=
  let n := cellAt s top row col
  let c : Popped := { frag := getFrag s n codeC, side := getSide s n codeC }
  let did (d : Nat) : Option Popped := if s.cell.pushes.contains d then some c else none
  let s1 := if row + 1 = chainRows s top then modPort s top portS fun p => fillPush p w.no col (did codeS) else s
  if col = 31 then modPort s1 top (portE (row / 32)) fun p => fillPush p w.no row (did codeE) else s1

/-- What a cell adds to its word's aggregates (R148, R156). -/
def contribute (w : WordF) (s : State) (row col : Nat) : WordF :=
  let x := s.cell
  let cf := cfOf (getF s (cellAt s x.top row col))
  let part (w : WordF) : WordF :=
    if !x.takesPart then w
    else if cf then { w with rowSet := setBit w.rowSet row true, colSet := setBit w.colSet col true }
    else { w with rowClr := setBit w.rowClr row true, colClr := setBit w.colClr col true }
  let w1 := part w
  { w1 with err := w1.err || x.err, flags := w1.flags ||| x.flags, faults := w1.faults ++ x.fault.toList }

/-- A word's fragment for a cell, if one was assigned (R278). -/
def popOf (l : List (Nat × Popped)) (k : Nat) : Popped := ((l.find? fun x => x.1 = k).map (·.2)).getD {}

/-- A word executes in one cell: VA, VB, MX in order, then its pushes; the first word of a play sets MP and MAPBASE in every cell,
selected or not (R144, R147, R399): the state and the word. -/
def cellExecute (s : State) (top row col : Nat) (w : WordF) : State × WordF :=
  let n := cellAt s top row col
  let s0 := match w.playStart with
    | some b => { s with mp := tset 0 s.mp n 0, mapBase := tset 0 s.mapBase n b }
    | none => s
  let s1 := { s0 with cell :=
    { top := top, row := row, col := col, tiles := w.tiles, wordNo := w.no, pc := w.pc, fmt := w.fmt,
      west := if col = 0 then popOf w.west row else {}, north := if row = 0 then popOf w.north col else {} } }
  let s2 := runSlot (runSlot (runSlot s1 1 w.mva w.va) 2 w.mvb w.vb) 3 w.mmx w.mx
  (pushDrains s2 top row col w, contribute w s2 row col)

/-! ## The wavefront -/

/-- Column of the cell of a row on a diagonal, if it has one (R144). -/
def diagCol (diag row : Nat) : Option Nat :=
  let k := row + jointOf row
  if k ≤ diag && diag - k < 32 then some (diag - k) else none

/-- The first row at or after `row` with a cell on a diagonal. -/
def rowFrom (rows diag row : Nat) : Option Nat :=
  (List.range (rows - row)).findSome? fun k => (diagCol diag (row + k)).map fun _ => row + k

/-- Last diagonal of a placement. -/
def lastDiag (rows : Nat) : Nat := rows - 1 + jointOf (rows - 1) + 31

/-- The cell a word executes in next: its diagonal, row and column. -/
def nextCell (rows : Nat) (w : WordF) : Option (Nat × Nat × Nat) :=
  match rowFrom rows w.diag w.row with
  | some r => (diagCol w.diag r).map fun c => (w.diag, r, c)
  | none =>
    if w.diag < lastDiag rows then (rowFrom rows (w.diag + 1) 0).bind fun r => (diagCol (w.diag + 1) r).map fun c => (w.diag + 1, r, c)
    else none

/-- Cycle a word executes on a diagonal, by the stalls that have ended (R144). -/
def diagCycle (s : State) (a : Nat) (w : WordF) (diag : Nat) : Nat := w.issued + 2 + diag + ((seqAt s a).sigma - w.sigma0)

/-- Whether word `k` of an array's list executes in its next cell now. -/
def wordDue (s : State) (a k : Nat) : Bool :=
  match (arr s a).words[k]? with
  | none => false
  | some w => !w.done && !stalled s a && (match nextCell (chainRows s a) w with
      | none => true
      | some (d, _, _) => diagCycle s a w d ≤ s.cyc)

/-- A freeze of `k` cycles after this one; the largest of the cycle's cells counts (R146). -/
def freezeFor (q : Seq) (cyc k : Nat) : Seq :=
  if k = 0 then q
  else { q with stallEnd := match q.stallEnd with
    | some (e, j) => some (if j ≥ k then (e, j) else (cyc + 1 + k, k))
    | none => some (cyc + 1 + k, k) }

/-- Word `k` executes in its next cell (R144 to R146). -/
def wordStep (s : State) (a k : Nat) : State :=
  match (arr s a).words[k]? with
  | none => s
  | some w => match nextCell (chainRows s a) w with
    | none => modArr s a fun x => { x with words := lmod x.words k fun w => { w with done := true } }
    | some (d, r, c) =>
      let (s1, w1) := cellExecute s a r c w
      modArr s1 a fun x => { x with
        words := lmod x.words k fun _ => { w1 with diag := d, row := r + 1 }
        seq := freezeFor x.seq s.cyc s1.cell.extra }

/-- WORD_EXECUTE (R144): word `ev.k` of the list of array `ev.a` executes in the next cell of its diagonal. -/
def execWordExecute (s : State) : MOut := .next (if wordDue s s.ev.a s.ev.k then wordStep s s.ev.a s.ev.k else s)

/-- GLOBAL_STALL_END (R146): WSTALL grows by the freeze. -/
def execGlobalStallEnd (s : State) : MOut :=
  .next (match (seqAt s s.ev.a).stallEnd with
    | none => s
    | some (e, k) =>
      if s.cyc < e then s
      else modSeq (pmcAdd s s.ev.a 0x07 k) s.ev.a fun q =>
        { q with stallEnd := none, sigma := q.sigma + k, wstall := q.wstall + BitVec.ofNat 64 k
                 now := { q.now with wstall := q.now.wstall + BitVec.ofNat 64 k } })

/-- Whether the aggregates of an array's oldest word arrive now (R157). -/
def aggDue (s : State) (a : Nat) : Bool :=
  match (arr s a).words with
  | [] => false
  | w :: _ => w.done && !stalled s a && w.issued + aggOffset (seqAt s a).len + ((seqAt s a).sigma - w.sigma0) ≤ s.cyc

/-- AGGREGATES_ARRIVE (R157, R159): the sequencer's aggregates, FPX and wf; located faults stop issue. -/
def execAggregatesArrive (s : State) : MOut :=
  .next (if aggDue s s.ev.a then
    (match (arr s s.ev.a).words with
     | [] => s
     | w :: t => modArr s s.ev.a fun x => { x with
         words := t
         seq := { x.seq with
           agg := aggregatesOf w (chainRows s s.ev.a), fpx := x.seq.fpx ||| w.flags, now := { x.seq.now with fpx := x.seq.now.fpx ||| w.flags }, wf := x.seq.wf - 1,
           located := x.seq.located ++ w.faults } })
   else s)

/-! ## Traps and the watchdog -/

/-- Whether issue stands at a bundle boundary, where a fault may be taken (R428, R431). -/
def atBoundary (cyc : Nat) (q : Seq) : Bool :=
  q.after.isNone && q.syncDone.isNone && (q.cbDone.isNone || cyc < q.cbAt) && q.feDone.isNone && q.stop ≠ .play

/-- Whether array `a` has a fault to be delivered: any outside the monitor, there only one raised in it (R433, R434); once
pre-emption has stopped issue, only what the draining words met (R444). -/
def trapWaits (s : State) (a : Nat) : Bool :=
  let q := seqAt s a
  runs s a && (if q.mon then q.stop = .trap else if q.stop = .preempt then q.located ≠ [] else q.pending ≠ [] || q.located ≠ []) && atBoundary s.cyc q

/-- Whether the trap of array `a` is taken now (R431). -/
def trapDue (s : State) (a : Nat) : Bool := trapWaits s a && mayTrap s a

/-- TRAP_TAKEN (R431). -/
def execTrapTaken (s : State) : MOut := .next (if trapDue s s.ev.a then takeTrap s s.ev.a else s)

/-- Whether the watchdog of array `a` has expired, and its record can be written (R35, R430). -/
def watchdogDue (s : State) (a : Nat) : Bool :=
  let q := seqAt s a
  runs s a && q.wdog ≠ 0 && s.cyc - q.lastIssue ≥ q.wdog * 65536 && !recordBlocked s a

/-- WATCHDOG (R35, R428, R433): the task ends FAILED, with its record. -/
def execWatchdog (s : State) : MOut :=
  .next (if watchdogDue s s.ev.a then
    let q := seqAt s s.ev.a
    let f : FaultInfo := { code := 0x50, slot := 7, pc := q.pc, detail := BitVec.ofNat 64 q.wdog, cycle := s.cyc }
    failTop (writeRecord (withdrawHeld s s.ev.a) s.ev.a f false 0).1 s.ev.a f
   else s)

end Sys2Proof.Machine
end

