-- ==== Sys2Proof/Machine/Interp.lean ====
section
/-! DEFINITION. The command-list interpreter (R307 to R322, R490): ring entries, list entries of every kind, waits, transfers and
halts. Event arguments: `ev.q` the global queue, `ev.k` a place in the scoreboard's transfers. -/

namespace Sys2Proof.Machine

/-! ## Queues -/

/-- Launch queue `q` (R307). -/
def queueAt (s : State) (q : Nat) : Queue := tget {} s.queues q

/-- STATE of a queue that is not halted (R307). -/
def Queue.settle (x : Queue) : Queue :=
  { x with st :=
      if x.st = .halted then .halted
      else if !x.en then .disabled
      else if x.lpc.isNone && x.head = x.tail then .idle
      else .active }

/-- Change a queue. -/
def modQueue (s : State) (q : Nat) (f : Queue → Queue) : State :=
  { s with queues := tset {} s.queues q (f (queueAt s q)).settle }

/-- Halt a queue with a cause and the bytes a SKIP passes over; one already halted keeps its cause (R322). -/
def haltQueue (s : State) (q cause skip : Nat) : State :=
  modQueue s q fun x => if x.st = .halted then x else { x with st := .halted, cause := cause, skipLen := skip }

/-- Halt causes of R322. -/
def hHaltq : Nat := 1
def hBadent : Nat := 2
def hDepth : Nat := 3
def hPage : Nat := 4
def hXfer : Nat := 5
def hTimeout : Nat := 6
def hBadrec : Nat := 7
def hRing : Nat := 8

/-- Whether a queue reads entries: assigned, enabled, not halted, and waiting for nothing (R307, R310, R322). -/
def walks (x : Queue) : Bool := x.owner.isSome && x.en && x.st ≠ .halted && x.wait.isNone

/-! ## Ring entries -/

/-- RING_ENTRY (R308, R309, R490). -/
def ringRead (s : State) (q : Nat) : State :=
  let x := queueAt s q
  if !walks x || x.lpc.isSome || x.head = x.tail then s
  else
    let va := x.qbase.toNat + 16 * (x.head.toNat % 2 ^ x.log2n)
    let s1 := virtMeet s (x.owner.getD 0) va 16
    match virtRead s (x.owner.getD 0) va 2 with
    | none => haltQueue s1 q hPage 32
    | some v =>
      let e := BitVec.ofNat 128 v
      if bitsOf e 63 57 ≠ 0 || bitsOf e 127 96 ≠ 0 || bitsOf e 4 0 ≠ 0 then haltQueue s1 q hBadent 32
      else modQueue s1 q fun x =>
        { x with head := x.head + 1, lpc := some (bitsOf e 56 0), stack := [], cookie := BitVec.ofNat 32 (bitsOf e 95 64) }

/-- RING_ENTRY (R308, R309). -/
def execRingEntry (s : State) : MOut := .next (ringRead s s.ev.q)

/-! ## List entries -/

/-- What the interpreter finds at the next entry of a list. -/
inductive ListNext where
  /-- Nothing is read now. -/
  | idle
  /-- The read faults. -/
  | fault
  | entry (p a : Nat) (e : BitVec 256)
  deriving DecidableEq, Repr

/-- Read the next list entry of a queue (R310). -/
def listNext (s : State) (q : Nat) : ListNext :=
  let x := queueAt s q
  if !walks x then .idle
  else match x.owner, x.lpc with
    | some p, some a => match virtRead s p a 4 with
      | none => .fault
      | some v => .entry p a (BitVec.ofNat 256 v)
    | _, _ => .idle

/-- KIND of an entry. -/
def entKind (e : BitVec 256) : Nat := bitsOf e 7 0

/-- Fields of an entry (R310). -/
def entRel (e : BitVec 256) : Nat := bitsOf e 10 8
def entAddr (e : BitVec 256) : Nat := bitsOf e 127 64
def entW32 (e : BitVec 256) : Bool := e.getLsbD 12
def entHigh (e : BitVec 256) : Nat := bitsOf e 31 16

/-- Whether a queue location is malformed (R311). -/
def qlocBad (v : Nat) : Bool :=
  let w := BitVec.ofNat 64 v
  if bitsOf w 63 62 = 0 then bitsOf w 61 57 ≠ 0
  else bitsOf w 63 62 ≠ 1 || bitsOf w 15 14 ≠ 0 || bitsOf w 61 48 ≠ 0

/-- Whether an entry halts its queue with BADENT (R310, R321). -/
def entryBad (s : State) (p : Nat) (e : BitVec 256) : Bool :=
  let zero (hi lo : Nat) : Bool := bitsOf e hi lo = 0
  let misaligned : Bool := entAddr e % (if entW32 e then 4 else 8) ≠ 0
  match entKind e with
  | 1 => false
  | 2 => !zero 15 9 || e.getLsbD 31 || zero 63 32 || qlocBad (entAddr e) || qlocBad (bitsOf e 191 128) || !zero 255 192
  | 3 => !zero 15 13 || zero 31 16 || !zero 63 32 || entRel e ≥ 6 || misaligned
  | 4 => !zero 63 8 || entAddr e % 32 ≠ 0 || !zero 255 128
  | 5 => !zero 63 8 || entAddr e % 32 ≠ 0 || !zero 255 128
  | 6 => !zero 255 8
  | 7 => !zero 15 13 || !zero 63 32 || entRel e ≥ 6 || misaligned
  | 8 => !zero 15 11 || entHigh e ≥ Config.vectors || !zero 63 32
      || entAddr e % (if e.getLsbD 10 then 4 else 8) ≠ 0 || !zero 255 192
  | 9 => !zero 255 8
  | 10 => !zero 15 9 || entHigh e = 0 || !groupIn s p (entHigh e) || !zero 63 32 || !zero 127 81 || !zero 255 128
  | 11 => !zero 63 8 || !zero 255 96
  | 12 => !zero 255 8
  | _ => true

/-- What the read of a list entry at `a` does beside giving it (R210, R310, R424). -/
def entryMeet (s : State) (p a : Nat) : State := virtMeet s p a 32

/-- Act on the next entry of a queue where it is of a kind: a faulting read halts it with PAGE, a bad entry with BADENT (R310,
R490). -/
def onEntry (s : State) (q kind : Nat) (f : State → Nat → Nat → BitVec 256 → State) : State :=
  match listNext s q with
  | .idle => s
  | .fault => haltQueue (entryMeet s ((queueAt s q).owner.getD 0) ((queueAt s q).lpc.getD 0)) q hPage 32
  | .entry p a e =>
    if entKind e = 0 || entKind e > 12 then haltQueue (entryMeet s p a) q hBadent 32
    else if entKind e ≠ kind then s
    else if entryBad s p e then haltQueue (entryMeet s p a) q hBadent 32
    else f (entryMeet s p a) p a e

/-- Accept an entry: its journal entry is written ACCEPTED (R312); it waits while the journal is full (R333). -/
def accepting (s : State) (q p a kind detail : Nat) (f : State → Nat → State) : State :=
  if jFull s p then s
  else f (journalNew s p q kind jAccepted a 0 (queueAt s q).cookie.toNat detail) (partAt s p).jtail.toNat

/-- The walk goes on at an address. -/
def goTo (s : State) (q a : Nat) : State := modQueue s q fun x => { x with lpc := some a }

/-- Accept an entry whose action is performed at once (R312). -/
def immediate (s : State) (q p a kind : Nat) (f : State → State) : State :=
  accepting s q p a kind 0 fun s seq => journalSet (f s) p seq jDone 0

/-! ## LAUNCH -/

/-- Scoreboard entries a partition holds (R323): its host tasks and its transfers. -/
def sbHeld (s : State) (p : Nat) : Nat :=
  (s.tasks.filter fun t => t.part = p && t.queue < 256 && t.st ≠ .done && t.st ≠ .failed && t.st ≠ .cancelled).length
    + (s.xfers.filter fun x => x.part = p).length

/-- Whether a partition's share of the scoreboard is full (R323). -/
def sbFull (s : State) (p : Nat) : Bool := sbHeld s p ≥ (partAt s p).sbShare

/-- The transfer a tag names: the latest of the queue that holds a scoreboard entry (R314). -/
def tagXfer (s : State) (p q tag : Nat) : Option Xfer := (s.xfers.filter fun x => x.part = p && x.queue = q && x.tag = tag).getLast?

/-- Transfers the DEPS of a record name (R314, R315). -/
def depsOf (s : State) (p q : Nat) (r : BitVec 512) : List Nat :=
  [384, 400, 416, 432].filterMap fun lo =>
    if r.getLsbD (lo + 15) then (tagXfer s p q (bitsOf r (lo + 14) lo)).map (·.seq) else none

/-- Status of a transfer on the scoreboard; DONE where it is not there. -/
def xferStatus (s : State) (p seq : Nat) : Nat := ((s.xfers.find? fun x => x.part = p && x.seq = seq).map (·.status)).getD 2

/-- QUEUED tasks whose transfers have all completed become READY (R24), which the controller's next pass takes up (R324). -/
def promote (s : State) : State :=
  let due (t : Task) : Bool := t.st = .queued && t.deps.all fun d => xferStatus s t.part d = 2
  { s with
    tasks := s.tasks.map fun t => if due t then { t with st := .ready, deps := [], waitFrom := s.cyc } else t
    parts := if s.tasks.any due then s.parts.map fun x => { x with passHeld := none } else s.parts }

/-- A DONE transfer that no QUEUED task names leaves the scoreboard (R314). -/
def pruneXfers (s : State) : State :=
  { s with xfers := s.xfers.filter fun x =>
      x.status < 2 || s.tasks.any fun t => t.st = .queued && t.part = x.part && t.deps.contains x.seq }

/-- LAUNCH (R310, R315, R316, R323): the record is read, checked and accepted. -/
def launchEntry (s0 : State) (q p a : Nat) (lo : BitVec 256) : State :=
  let s := virtMeet s0 p (a + 32) 32
  match virtRead s0 p (a + 32) 4 with
  | none => haltQueue s q hPage 64
  | some hi =>
    if sbFull s p || jFull s p then s
    else
      let r := BitVec.ofNat 512 (lo.toNat + 2 ^ 256 * hi)
      let u := recordMeet s p r false
      match readRecord s p r false with
      | none => haltQueue u q hBadrec 64
      | some (args, binds) =>
        let s1 := (acceptTask u p q (queueAt s q).cookie (BitVec.ofNat 64 a) r args binds (depsOf s p q r)).1
        goTo (pruneXfers (promote s1)) q (a + 64)

/-- LAUNCH. -/
def execLaunch (s : State) : MOut :=
  let q := s.ev.q
  .next (onEntry s q 1 fun s p a e => launchEntry s q p a e)

/-! ## XFER -/

/-- Whether a queue location names a tile. -/
def qlocTile (v : Word) : Option Nat := if bitsOf v 63 62 = 1 then some (bitsOf v 13 0) else none

/-- Logical byte offset of a queue location in its tile's view. -/
def qlocOff (v : Word) : Nat := bitsOf v 47 16

/-- Whether a tile side of a transfer is refused: a CELL tile, one not allocated to the partition or not placed, or a region beyond its view
(R313; log 8). -/
def sideBad (s : State) (p len : Nat) (v : Word) : Bool :=
  match qlocTile v with
  | none => false
  | some n => match liveTile s p n with
    | none => true
    | some t => t.level = 0 || qlocOff v + len > viewBytes t false

/-- Whether a side of a transfer waits for its tile to be restored (R446). -/
def sideSaved (s : State) (v : Word) : Bool :=
  match qlocTile v with
  | none => false
  | some n => (tileAt s n).st = .live && (tileAt s n).saved

/-- Whether a side of a transfer is an attached residual tile (R263, R293). -/
def sideAttached (s : State) (v : Word) : Bool := (qlocTile v).any (isResid s)

/-- The physical byte at offset `o` of one side of a transfer, or the status of R293 it stops with. -/
def sideByte (s : State) (p : Nat) (v : Word) (o : Nat) (write : Bool) : Except Nat Nat :=
  match qlocTile v with
  | some n =>
    let t := tileAt s n
    if write && t.sealed then .error 4 else .ok (tileBase t 0 + viewByte t (qlocOff v + o))
  | none =>
    let va := bitsOf v 56 0 + o
    match virtPa s p va with
    | none => .error 2
    | some (pa, e) => if pageStatus s e write ≠ 0 then .error (pageStatus s e write) else .ok pa

/-- Bytes of a transfer from offset `o` on, up to one that stops it: (source, destination) addresses, and the status, 0 for none. -/
def xferRun (s : State) (p : Nat) (src dst : Word) : Nat → Nat → List (Nat × Nat) × Nat
  | 0, _ => ([], 0)
  | n + 1, o =>
    match sideByte s p src o false, sideByte s p dst o true with
    | .ok a, .ok b =>
      let r := xferRun s p src dst n (o + 1)
      ((a, b) :: r.1, r.2)
    | .error c, _ => ([], c)
    | .ok _, .error c => ([], c)

/-- Cancel every LAUNCH of a queue still QUEUED on a transfer (R313, R334). -/
def cancelOn (s : State) (p seq : Nat) : State :=
  (List.range s.tasks.length).foldl (fun s i =>
    match taskAt s i with
    | some t => if t.part = p && t.st = .queued && t.deps.contains seq then endUnstarted s i .cancelled jCancelled 0 else s
    | none => s) s

/-- A queue no longer waits for a transfer. -/
def unwaitXfer (s : State) (q seq : Nat) : State :=
  modQueue s q fun x => if x.wait = some (.xfer seq) then { x with wait := none } else x

/-- A transfer ends without being DONE: FAILED halts its queue, CANCELLED does not; its scoreboard entry is released (R313, R323,
R334). -/
def xferDrop (s : State) (x : Xfer) (failed : Bool) (detail : Nat) : State :=
  let s1 := journalSet s x.part x.seq (if failed then jFailed else jCancelled) detail
  let s2 := cancelOn { s1 with xfers := s1.xfers.filter fun y => !(y.part = x.part && y.seq = x.seq) } x.part x.seq
  let s3 := unwaitXfer s2 x.queue x.seq
  pruneXfers (promote (if failed then haltQueue s3 x.queue hXfer 0 else s3))

/-- DETAIL of a failed transfer: the status of R293 (R332). -/
def xferDetail (st : Nat) : Nat := st * 2 ^ 8

/-- A transfer with a refused side is FAILED; the manual gives DETAIL no status for it (R313; log 8). -/
def xferRefuse (s : State) (x : Xfer) : State :=
  let (n, s1) := drawFree s
  xferDrop s1 x true (xferDetail (Config.xferStatus n).toNat)

/-- XFER is accepted; one with a refused side is FAILED at once (R312, R313). -/
def xferEntry (s : State) (q p a : Nat) (e : BitVec 256) : State :=
  if sbFull s p then s
  else accepting s q p a 2 0 fun s seq =>
    let x : Xfer := { part := p, queue := q, seq := seq, tag := bitsOf e 30 16, len := bitsOf e 63 32,
                      src := BitVec.ofNat 64 (entAddr e), dst := BitVec.ofNat 64 (bitsOf e 191 128), wait := e.getLsbD 8, status := 0 }
    let s1 := modQueue { s with xfers := s.xfers ++ [x] } q fun y =>
      { y with lpc := some (a + 32), wait := if x.wait then some (.xfer seq) else none }
    if sideBad s1 p x.len x.src || sideBad s1 p x.len x.dst then xferRefuse s1 x else s1

/-- XFER. -/
def execXfer (s : State) : MOut :=
  let q := s.ev.q
  .next (onEntry s q 2 fun s p a e => xferEntry s q p a e)

/-- The bytes of a transfer move: each lands at its home in command order (R291, R313); poisoned source words stay marked (R211). -/
def xferMove (s : State) (p : Nat) (l : List (Nat × Nat)) : State :=
  let s1 := l.foldl (fun s x => markPoison s x.1 1) s
  let cells : List Host.Cell := l.map fun x => (x.2, readByte s1.mem x.1)
  let bad := ((l.filter fun x => anyPoison s1 x.1 1).map fun x => eccWord x.2).eraseDups
  homeCells (touchAll s1 p (l.map (·.1)) false) p cells bad

/-- The walks of a transfer's two sides, for each 4 KiB (R210, R340). -/
def sideWalks (s : State) (p len : Nat) (v : Word) : State :=
  if (qlocTile v).isSome then s
  else (List.range (ceilDiv (bitsOf v 11 0 + len) 4096)).foldl (fun s k =>
    walkTouch s p (BitVec.ofNat 64 (if k = 0 then bitsOf v 56 0 else (bitsOf v 56 0 / 4096 + k) * 4096))) s

/-- Whether transfer `k` of the scoreboard may go on. -/
def xferDue (s : State) (k : Nat) : Bool :=
  match s.xfers[k]? with
  | none => false
  | some x => x.status < 2 && !sideSaved s x.src && !sideSaved s x.dst

/-- XFER_COMPLETE (R312, R313): its first byte is read, and STARTED written; then its bytes land, and it is DONE or FAILED. A side
whose tile has been freed meanwhile is refused, and one that is an attached residual tile ends it with status 8, no byte moved (R293). -/
def xferStep (s : State) (k : Nat) : State :=
  match s.xfers[k]? with
  | none => s
  | some x =>
    if sideBad s x.part x.len x.src || sideBad s x.part x.len x.dst then xferRefuse s x
    else if sideAttached s x.src || sideAttached s x.dst then xferDrop s x true (xferDetail 8)
    else if x.status = 0 then
      journalSet { s with xfers := lmod s.xfers k fun x => { x with status := 1 } } x.part x.seq jStarted 0
    else
      let (l, st) := xferRun s x.part x.src x.dst x.len 0
      let s1 := xferMove (sideWalks (sideWalks s x.part x.len x.src) x.part x.len x.dst) x.part l
      if st ≠ 0 then xferDrop s1 x true (xferDetail st)
      else
        let s2 := journalSet { s1 with xfers := lmod s1.xfers k fun x => { x with status := 2 } } x.part x.seq jDone 0
        pruneXfers (promote (unwaitXfer s2 x.queue x.seq))

/-- XFER_COMPLETE: transfer `ev.k` of the scoreboard. -/
def execXferComplete (s : State) : MOut := .next (if xferDue s s.ev.k then xferStep s s.ev.k else s)

/-! ## Conditions -/

/-- The fault code of a virtual access of `n` bytes that faults (R332, R428): PAGE_NOT_PRESENT, PERMISSION, SEALED_STORE, UNCORRECTABLE
or POISON_CONSUMED; 0 where it does not. -/
def virtFault (s : State) (p va n : Nat) (write : Bool) : Nat :=
  match virtPa s p va with
  | none => 0x11
  | some (pa, e) =>
    if (if write then !pteW e else !pteR e) then 0x12
    else if write && pteSealed e then 0x13
    else if !write && anyEcc s pa n then 0x40
    else if !write && anyPoison s pa n then 0x41
    else 0

/-- Read a 4- or 8-byte word at a virtual address; `none` where it faults. -/
def virtWord (s : State) (p va n : Nat) : Option Nat :=
  match virtPa s p va with
  | none => none
  | some (pa, e) => if !pteR e || anyPoison s pa n || anyEcc s pa n then none else some (getBytes s pa n)

/-- A number of `n` bits as signed. -/
def asSigned (n v : Nat) : Int := if v < 2 ^ (n - 1) then v else (v : Int) - (2 ^ n : Nat)

/-- x rel v (R318). -/
def relHolds (rel n : Nat) (u : Bool) (x v : Nat) : Bool :=
  let a : Int := if u then x else asSigned n x
  let b : Int := if u then v else asSigned n v
  match rel with
  | 0 => a = b
  | 1 => a ≠ b
  | 2 => a < b
  | 3 => a ≤ b
  | 4 => a > b
  | _ => a ≥ b

/-- Whether the condition of a SKIPIF or WAITC holds; `none` where its read faults (R318). -/
def condHolds (s : State) (p : Nat) (e : BitVec 256) : Option Bool :=
  let n := if entW32 e then 32 else 64
  (virtWord s p (entAddr e) (n / 8)).map fun w =>
    relHolds (entRel e) n (e.getLsbD 11) (w &&& bitsOf e (191 + n) 192) (bitsOf e (127 + n) 128)

/-- What the read of a condition's word does beside giving it (R210, R318, R424). -/
def condMeet (s : State) (p : Nat) (e : BitVec 256) : State := virtMeet s p (entAddr e) (if entW32 e then 4 else 8)

/-- An accepted entry's action faults, or its time is over: FAILED with the fault code, 0 where there is none, and the queue halts at the
entry (R318, R320, R332). -/
def entryFails (s : State) (q p seq cause code : Nat) : State :=
  haltQueue (modQueue (journalSet s p seq jFailed code) q fun x => { x with wait := none }) q cause 32

/-- SKIPIF (R318). -/
def execSkipif (s : State) : MOut :=
  let q := s.ev.q
  .next (onEntry s q 3 fun s p a e => accepting s q p a 3 0 fun s seq =>
    let u := condMeet s p e
    match condHolds s p e with
    | none => entryFails u q p seq hPage (virtFault s p (entAddr e) (if entW32 e then 4 else 8) false)
    | some c => goTo (journalSet u p seq jDone 0) q (if c then a + 32 + 32 * entHigh e else a + 32))

/-- JUMP (R319). -/
def execJump (s : State) : MOut :=
  let q := s.ev.q
  .next (onEntry s q 4 fun s p a e => immediate s q p a 4 fun s => goTo s q (entAddr e))

/-- CALL (R319): at DEPTH 8 it halts the queue and is not accepted. -/
def execCall (s : State) : MOut :=
  let q := s.ev.q
  .next (onEntry s q 5 fun s p a e =>
    if (queueAt s q).stack.length ≥ 8 then haltQueue s q hDepth 32
    else immediate s q p a 5 fun s =>
      modQueue s q fun x => { x with stack := (a + 32) :: x.stack, lpc := some (entAddr e) })

/-- RET (R319). -/
def execRet (s : State) : MOut :=
  let q := s.ev.q
  .next (onEntry s q 6 fun s p a _ => immediate s q p a 6 fun s =>
    modQueue s q fun x => match x.stack with
      | [] => { x with lpc := none }
      | b :: t => { x with stack := t, lpc := some b })

/-- One read of a waiting WAITC (R318). -/
def waitcRead (s : State) (q seq began : Nat) : State :=
  let x := queueAt s q
  let p := x.owner.getD 0
  let u := condMeet s p x.ent
  match condHolds s p x.ent with
  | none => entryFails u q p seq hPage (virtFault s p (entAddr x.ent) (if entW32 x.ent then 4 else 8) false)
  | some true => modQueue (journalSet u p seq jDone 0) q fun x => { x with wait := none, lpc := x.lpc.map (· + 32) }
  | some false => modQueue u q fun x => { x with wait := some (.waitc seq u.cyc began) }

/-- WAITC is accepted, and reads its word at once (R318). -/
def execWaitc (s : State) : MOut :=
  let q := s.ev.q
  .next (onEntry s q 7 fun s p a e => accepting s q p a 7 0 fun s seq =>
    waitcRead (modQueue s q fun x => { x with wait := some (.waitc seq s.cyc s.cyc), ent := e }) q seq s.cyc)

/-- WAITC_POLL (R318): a waiting WAITC reads its word again. -/
def execWaitcPoll (s : State) : MOut :=
  let q := s.ev.q
  .next (match (queueAt s q).wait with
    | some (.waitc seq _ began) => waitcRead s q seq began
    | _ => s)

/-- Whether the WAITC of a queue has waited out its TIMEOUT (R318). -/
def waitcLate (s : State) (q : Nat) : Bool :=
  let x := queueAt s q
  match x.wait with
  | some (.waitc _ _ began) => entHigh x.ent ≠ 0 && s.cyc - began ≥ 65536 * entHigh x.ent
  | _ => false

/-- WAITC_TIMEOUT (R318). -/
def execWaitcTimeout (s : State) : MOut :=
  let q := s.ev.q
  .next (match (queueAt s q).wait with
    | some (.waitc seq _ _) =>
      if waitcLate s q then entryFails s q ((queueAt s q).owner.getD 0) seq hTimeout 0 else s
    | _ => s)

/-! ## FENCE, SIGNAL, GROUPSET, NOTE, HALTQ -/

/-- FENCE is accepted and waits (R320). -/
def execListFence (s : State) : MOut :=
  let q := s.ev.q
  .next (onEntry s q 9 fun s p a _ => accepting s q p a 9 0 fun s seq =>
    modQueue s q fun x => { x with wait := some (.fence seq) })

/-- Whether every earlier entry of a queue has a final status (R320). -/
def queueFinal (s : State) (q : Nat) : Bool :=
  s.tasks.all (fun t => t.queue ≠ q || t.st = .done || t.st = .failed || t.st = .cancelled)
    && s.xfers.all fun x => x.queue ≠ q || x.status ≥ 2

/-- LIST_FENCE_DONE (R320). -/
def execListFenceDone (s : State) : MOut :=
  let q := s.ev.q
  .next (match (queueAt s q).wait with
    | some (.fence seq) =>
      if queueFinal s q then
        modQueue (journalSet s ((queueAt s q).owner.getD 0) seq jDone 0) q fun x =>
          { x with wait := none, lpc := x.lpc.map (· + 32) }
      else s
    | _ => s)

/-- Raise an MSI-X vector of a function: 0 the physical function, p + 1 the virtual function of partition p (R320, R449). -/
def raiseIrq (s : State) (fn vec : Nat) : State := { s with pkg := { s.pkg with irqs := (fn, vec) :: s.pkg.irqs } }

/-- What a SIGNAL writes, and whether ADDR does not fault (R320). -/
def signalWrite (s : State) (p : Nat) (e : BitVec 256) : State × Bool :=
  let n := if e.getLsbD 10 then 4 else 8
  let v := bitsOf e 191 128 % 2 ^ (8 * n)
  let s1 := walkTouch s p (BitVec.ofNat 64 (entAddr e))
  match virtPa s p (entAddr e) with
  | none => (s1, false)
  | some (pa, x) =>
    if !pteW x || pteSealed x then (s1, false)
    else if e.getLsbD 8 then ((rmw s1 pa p n fun old => (some ((old + v) % 2 ^ (8 * n)), 0)).1, true)
    else virtWrite s p (entAddr e) n v

/-- SIGNAL (R320). -/
def execSignal (s : State) : MOut :=
  let q := s.ev.q
  .next (onEntry s q 8 fun s p a e => accepting s q p a 8 0 fun s seq =>
    let (s1, ok) := signalWrite s p e
    if !ok then entryFails s1 q p seq hPage (virtFault s p (entAddr e) (if e.getLsbD 10 then 4 else 8) true)
    else
      let s2 := if e.getLsbD 9 then raiseIrq s1 (p + 1) (entHigh e) else s1
      goTo (journalSet s2 p seq jDone 0) q (a + 32))

/-- GROUPSET is accepted and waits (R321). -/
def execGroupset (s : State) : MOut :=
  let q := s.ev.q
  .next (onEntry s q 10 fun s p a e => accepting s q p a 10 0 fun s seq =>
    modQueue s q fun x => { x with wait := some (.groupset seq), ent := e })

/-- GROUPSET_DONE (R321): the group has no member RUNNING or PREEMPTED. -/
def execGroupsetDone (s : State) : MOut :=
  let q := s.ev.q
  .next (let x := queueAt s q
    match x.wait with
    | some (.groupset seq) =>
      let p := x.owner.getD 0
      let n := groupNo s p (entHigh x.ent)
      if (groupAt s n).members = 0 && (groupAt s n).parked = 0 then
        let s1 := modGroup s n fun g =>
          { g with planes := BitVec.ofNat 16 (bitsOf x.ent 79 64), mcast := x.ent.getLsbD 80
                   members := if x.ent.getLsbD 8 then 0 else g.members
                   broken := if x.ent.getLsbD 8 then false else g.broken, closing := false }
        modQueue (journalSet s1 p seq jDone 0) q fun x => { x with wait := none, lpc := x.lpc.map (· + 32) }
      else s
    | _ => s)

/-- NOTE (R321). -/
def execNote (s : State) : MOut :=
  let q := s.ev.q
  .next (onEntry s q 11 fun s p a e =>
    let v := bitsOf e 95 64
    accepting s q p a 11 v fun s seq => goTo (journalSet s p seq jDone v) q (a + 32))

/-- HALTQ (R321, R322): the walk resumes at the next entry. -/
def execHaltq (s : State) : MOut :=
  let q := s.ev.q
  .next (onEntry s q 12 fun s p a _ =>
    if jFull s p then s
    else haltQueue (immediate s q p a 12 fun s => goTo s q (a + 32)) q hHaltq 0)

end Sys2Proof.Machine
end

