-- ==== Sys2Proof/Machine/Tasks.lean ====
section
/-! DEFINITION. The stream controller (R16, R24, R26, R27, R315, R316, R323, R324, R362): which READY task starts where, aging and the
blocking task, the placing of tiles, and the state a task begins with. -/

namespace Sys2Proof.Machine

/-! ## Priority -/

/-- Cycles of R324's aging step. -/
def ageStep : Nat := 3000000

/-- Cycles a task has spent READY or PREEMPTED (R25, R324). -/
def waitedCycles (s : State) (t : Task) : Nat :=
  t.waited + (if t.st = .ready || t.st = .preempted then s.cyc - t.waitFrom else 0)

/-- Effective priority of a task (R324). -/
def effPri (s : State) (t : Task) : Nat := Nat.min 3 (bitsOf t.lrec 11 10 + waitedCycles s t / ageStep)

/-- Whether a task waits for a placement. -/
def awaits (t : Task) : Bool := t.st = .ready && !t.assigned

/-- Waiting tasks of a partition in selection order: by descending priority, then oldest first (R324). -/
def readyOrder (s : State) (p : Nat) : List (Nat × Task) :=
  let l := (List.range s.tasks.length).filterMap fun i =>
    match taskAt s i with
    | some t => if t.part = p && awaits t then some (i, t) else none
    | none => none
  [3, 2, 1, 0].flatMap fun e => l.filter fun x => x.2.eff = e

/-- Whether some task's priority has risen above the one last applied. -/
def agingDue (s : State) (p : Nat) : Bool :=
  s.tasks.any fun t => t.part = p && (awaits t || t.st = .preempted) && effPri s t ≠ t.eff

/-- AGING_STEP (R324): the priorities of partition `ev.p` are applied anew. -/
def execAgingStep (s : State) : MOut :=
  .next (modPart { s with tasks := s.tasks.map fun t =>
    if t.part = s.ev.p && (awaits t || t.st = .preempted) then { t with eff := effPri s t } else t } s.ev.p fun x =>
      { x with passHeld := none })

/-! ## Placements -/

/-- A placement: top array, second die, and its arrays in chain order. -/
abbrev Placement := Nat × Nat × List Nat

/-- Every array set that forms a chain of a length, by top array and then second die (R16). -/
def allPlacements (s : State) (len : Nat) : List Placement :=
  match len with
  | 1 => (List.range 28).map fun a => (a, 0, [a])
  | 2 => (below 28 fun a => a % 2 = 0).map fun a => (a, 0, [a, a + 1])
  | 4 => (below 28 fun a => a % 4 = 0).map fun a => (a, 0, [a, a + 1, a + 2, a + 3])
  | _ => (below 8 fun d => d ≠ s.pkg.harvested).flatMap fun x =>
      (below 8 fun y => x < y && y ≠ s.pkg.harvested && crossings x y = 1).map fun y =>
        let a := 4 * liveOf s x
        let b := 4 * liveOf s y
        (a, y, [a, a + 1, a + 2, a + 3, b, b + 1, b + 2, b + 3])

/-- Placements of a length within a partition. -/
def partPlacements (s : State) (p len : Nat) : List Placement :=
  (allPlacements s len).filter fun x => x.2.2.all fun a => (partAt s p).arrays.getLsbD a

/-- Arrays of a placement in use. -/
def inUse (s : State) (x : Placement) : List Nat := x.2.2.filter fun a => (arr s a).owner.isSome

/-- Free placements of a length within a partition. -/
def freePlacements (s : State) (p len : Nat) : List Placement := (partPlacements s p len).filter fun x => inUse s x = []

/-- The first placement of a list with the fewest arrays in use. -/
def leastUsed (s : State) : List Placement → Option Placement
  | [] => none
  | x :: t => match leastUsed s t with
    | none => some x
    | some y => some (if (inUse s x).length ≤ (inUse s y).length then x else y)

/-- The blocking task of a partition, while it still waits (R324). -/
def blockingOf (s : State) (p : Nat) : Option (Nat × Task) :=
  match (partAt s p).blocking with
  | none => none
  | some i => match taskAt s i with
    | some t => if awaits t then some (i, t) else none
    | none => none

/-- Held set of the blocking task (R324): computed at each pass of the controller, and fixed for the rest of it. -/
def heldSet (s : State) (p : Nat) (t : Task) : List Nat :=
  match (partAt s p).passHeld.filter fun x => x.1 = s.cyc with
  | some x => x.2
  | none => match leastUsed s (partPlacements s p (recLen t.lrec)) with
    | none => []
    | some x => x.2.2

/-- The pass under way keeps the held set it began with (R324). -/
def keepPass (s : State) (p : Nat) : State :=
  match blockingOf s p with
  | none => s
  | some (_, t) => modPart s p fun x => { x with passHeld := some (s.cyc, heldSet s p t) }

/-- Whether a task is skipped for the blocking task (R324). -/
def yields (s : State) (p i len : Nat) : Bool :=
  match blockingOf s p with
  | none => false
  | some (b, t) => b ≠ i && (freePlacements s p len).all fun x => x.2.2.any fun a => (heldSet s p t).contains a

/-! ## Storage of a placement's tiles -/

/-- The home array of a tile with a chain position in a placement (R362, R448). -/
def homeIn (x : Placement) (t : Tile) (pos : Nat) : Nat :=
  if t.level = 0 then x.1 else x.2.2.getD pos x.1

/-- Whether a tile may be placed at its home: a DIE tile only in a quarter of its partition (R365). -/
def homeOk (s : State) (t : Tile) (home : Nat) : Bool := t.level ≠ 2 || quarterPart s home = some t.part

/-- Place a tile in a placement at the lowest free BASE that fits; `none` where it does not (R362, R448). -/
def putTile (s : State) (x : Placement) (n pos : Nat) (t : Tile) : Option State :=
  let home := homeIn x t pos
  let u := t.inCells x.2.2
  let want : Tile := { u with homeArr := home, placed := true, saved := false, len := if t.level = 0 then lenCode x.2.2.length else t.len }
  if !homeOk s want home then none
  else (lowestFit s want).map fun b => placeTile s n { want with base := b } x.2.2

/-- Place the unplaced tiles a record binds; `none` where R362 ends the task with PERMISSION. -/
def placeBinds (x : Placement) : List Nat → State → Option State
  | [], s => some s
  | n :: l, s =>
    let t := tileAt s n
    if t.placed then (if t.level = 0 then none else placeBinds x l s)
    else if t.level ≠ 0 && t.homeArr % 8 ≥ x.2.2.length then none
    else match putTile s x n (t.homeArr % 8) t with
      | none => none
      | some s1 => placeBinds x l s1

/-- The cell number a save area's cell number names in a placement: 1,024 for each chain position. -/
def chainCellNo (x : Placement) (m : Nat) : Nat := x.2.2.getD (m / 1024) 0 * 1024 + m % 1024

/-- Byte address of place `rel` of a saved tile restored as `t`. -/
def savedAddr (x : Placement) (t : Tile) (rel : Nat) : Nat :=
  if t.level = 0 then cellBase (chainCellNo x (rel / 2 ^ 14)) + 4 * t.base + rel % 2 ^ 14 else tileBase t 0 + rel

/-- Allocate a saved tile anew with its contents; VERSION grows by 1 (R448). -/
def restoreTile (s : State) (x : Placement) (v : SavedTile) : Option State :=
  (putTile s x v.n v.pos (tileAt s v.n)).map fun s1 =>
    let t := tileAt s1 v.n
    let at_ (r : Nat) : Nat := savedAddr x t r
    { modTile s1 v.n (fun t => { t with version := t.version + 1 }) with
      mem := writeCells s1.mem (v.bytes.map fun c => (at_ c.1, c.2))
      full := v.full.foldl (fun m r => tset false m (at_ r) true) s1.full
      poison := v.poison.foldl (fun m r => tset false m (at_ r) true) s1.poison
      ecc := v.ecc.foldl (fun m r => tset false m (at_ r) true) s1.ecc }

/-- Restore every saved tile that is still LIVE, or none (R448). -/
def restoreTiles (x : Placement) : List SavedTile → State → Option State
  | [], s => some s
  | v :: l, s =>
    if (tileAt s v.n).st ≠ .live then restoreTiles x l s
    else match restoreTile s x v with
      | none => none
      | some s1 => restoreTiles x l s1

/-! ## Choosing -/

/-- The placement a waiting task would start on, if any (R324, R448). -/
def startPlace (s : State) (p i : Nat) (t : Task) : Option Placement :=
  if yields s p i (recLen t.lrec) then none
  else match freePlacements s p (recLen t.lrec) with
    | [] => none
    | x :: _ => match t.saved with
      | none => some x
      | some v => if (restoreTiles x v.tiles s).isSome then some x else none

/-- The task that starts next in a partition, and where (R324). -/
def nextStart (s : State) (p : Nat) : Option (Nat × Placement) :=
  (readyOrder s p).findSome? fun x => (startPlace s p x.1 x.2).map fun y => (x.1, y)

/-- READY tasks at e = 3 older than one that starts note when they were first skipped (R324). -/
def noteSkips (s : State) (p i : Nat) : State :=
  (List.range i).foldl (fun s j => modTask s j fun t =>
    if t.part = p && awaits t && t.eff = 3 && t.skippedAt.isNone then { t with skippedAt := some s.cyc } else t) s

/-- The task that becomes blocking: the oldest skipped for 3,000,000 cycles, where it is not so yet (R324). -/
def nextBlocking (s : State) (p : Nat) : Option Nat :=
  ((List.range s.tasks.length).find? fun i =>
    match taskAt s i with
    | some t => t.part = p && awaits t && t.eff = 3 && t.skippedAt.any fun c => s.cyc - c ≥ ageStep
    | none => false).filter fun i => (partAt s p).blocking ≠ some i

/-- BLOCKING_TASK_TIMEOUT (R324): partition `ev.p`. -/
def execBlockingTaskTimeout (s : State) : MOut :=
  .next (match nextBlocking s s.ev.p with
    | none => s
    | some i => modPart s s.ev.p fun x => { x with blocking := some i, passHeld := none })

/-! ## Pre-emption by the controller -/

/-- Registers of the cell part a used-state mask saves, by operand code (R445). -/
def saveCodes (m : Nat) : List Nat :=
  let w := BitVec.ofNat 64 m
  let all := m = 0
  below 64 fun c =>
    if c < 8 then all || w.getLsbD c
    else if c = codeL then all || w.getLsbD 57
    else if c = codeC then all || w.getLsbD 56
    else if isAcc c then all || w.getLsbD (40 + (c - codeA0))
    else if isMain c then all || w.getLsbD (8 + (c - codeM0))
    else false

/-- Used-state mask of a record. -/
def recUse (r : BitVec 512) : Nat := bitsOf r 383 320

/-- Tiles a pre-emption saves, with their chain positions (R446). -/
def savedTiles (s : State) (t : Task) : List (Nat × Nat) :=
  let ch := chainOf s t.top
  s.tiles.filterMap fun e =>
    if e.2.st ≠ .live || e.2.part ≠ t.part || !e.2.placed || e.2.saved then none
    else if e.2.level = 0 then (if e.2.homeArr = t.top then some (e.1, 0) else none)
    else if e.2.level = 1 && !e.2.persist && e.2.owner = some (t.part, t.tid) then (ch.findIdx? (· = e.2.homeArr)).map fun k => (e.1, k)
    else none

/-- Bytes of a task's save area (R446). -/
def saveSize (s : State) (t : Task) : Nat :=
  let ts := (savedTiles s t).map fun x => tileAt s x.1
  let cellW := ((ts.filter fun x => x.level = 0).map (·.words)).foldl (· + ·) 0
  let padB := ((ts.filter fun x => x.level = 1).map fun x => 32 + 4 * x.words + ceilDiv x.words 8).foldl (· + ·) 0
  let regs := ((saveCodes (recUse t.lrec)).map fun c => if hasSide c then 144 else 128).foldl (· + ·) 0
  51200 + chainRows s t.top * 32 * (32 + regs + 4 * cellW) + padB

/-- Whether a RUNNING task can ever be saved (R443). -/
def fitsSave (s : State) (t : Task) : Bool := saveSize s t ≤ (partAt s t.part).spsize

/-- Request the pre-emption of a RUNNING task; ignored for one that does not fit (R30, R443). -/
def requestPreempt (s : State) (i : Nat) : State :=
  match taskAt s i with
  | none => s
  | some t => if t.st = .running && fitsSave s t then modSeq s t.top fun q => { q with preemptReq := true } else s

/-- RUNNING tasks on the arrays of a placement, by index; `none` where one of them cannot give way to priority `e` (R30). -/
def victims (s : State) (e : Nat) (x : Placement) : Option (List Nat) :=
  let tops := (x.2.2.filterMap fun a => (arr s a).owner).eraseDups
  let is := tops.filterMap fun a => (arr s a).task
  if is ≠ [] && is.length = tops.length && is.all (fun i => match taskAt s i with
      | some t => t.st = .running && (seqAt s t.top).pri < e && fitsSave s t
      | none => false)
  then some is else none

/-- The placement of a list whose tasks can give way to priority `e` and are the fewest, the first of those, with these tasks; one that
reaches an array already claimed is passed over (R30; log 28). -/
def fewest (s : State) (e : Nat) (claimed : List Nat) : List Placement → Option (List Nat × List Nat)
  | [] => none
  | x :: l =>
    match (if x.2.2.any claimed.contains then none else victims s e x), fewest s e claimed l with
    | none, r => r
    | some v, none => some (v, x.2.2)
    | some v, some (w, y) => some (if v.length ≤ w.length then (v, x.2.2) else (w, y))

/-- The RUNNING tasks asked to give way to READY tasks in order, each with a placement of its own (R30; log 28). -/
def evictGo (s : State) (p : Nat) : List Nat → List (Nat × Task) → List Nat
  | _, [] => []
  | claimed, (_, t) :: l =>
    if freePlacements s p (recLen t.lrec) ≠ [] then evictGo s p claimed l
    else match fewest s t.eff claimed (partPlacements s p (recLen t.lrec)) with
      | none => evictGo s p claimed l
      | some (v, arrs) => v ++ evictGo s p (arrs ++ claimed) l

/-- The RUNNING tasks the controller asks to give way now: for every READY task that no free placement fits, those of the placement of
its length with the fewest tasks, all of lower priority, and then the lowest top array (R30; log 28). -/
def evictions (s : State) (p : Nat) : List Nat :=
  (evictGo s p [] (readyOrder s p)).eraseDups.filter fun i => match taskAt s i with
    | some t => !(seqAt s t.top).preemptReq
    | none => false

/-! ## Assignment -/

/-- Why a task cannot begin on a placement: FETCH or PERMISSION (R316); the state with its tiles placed otherwise (R362). -/
def assignChecks (s : State) (x : Placement) (t : Task) : Except Nat State :=
  let va := bitsOf t.lrec 120 64
  match walk s t.part (BitVec.ofNat 64 va) with
  | .fail _ _ => .error 0x15
  | .leaf e _ _ =>
    if !pteX e || (va - pageBase va (leafBytes e)) % 24 ≠ 0 then .error 0x15
    else if t.binds.any fun b => (tileAt s b.2).st ≠ .live || (tileAt s b.2).part ≠ t.part then .error 0x12
    else match placeBinds x (t.binds.map (·.2)).eraseDups s with
      | none => .error 0x12
      | some s1 => .ok s1

/-- Take the arrays of a placement for a task (R16). -/
def takeArrays (s : State) (x : Placement) : State :=
  x.2.2.foldl (fun s a => modArr s a fun y => { y with owner := some x.1 }) s

/-- Cycle a task becomes RUNNING at the earliest: the one before the first bundle, 480 cycles after TLAUNCH for a device launch
(R24, R27). -/
def startCycle (s : State) (t : Task) : Nat :=
  if t.queue = 256 && t.saved.isNone then Nat.max s.cyc (t.queuedAt + 479) else s.cyc

/-- The assignment of a placement to a task (R16, R24). -/
def assign (s0 : State) (p i : Nat) (x : Placement) (t : Task) : State :=
  let s := keepPass s0 p
  let hold (s : State) : State :=
    let s1 := modPart (noteSkips s p i) p fun y => if y.blocking = some i then { y with blocking := none } else y
    modTask (takeArrays s1 x) i fun t =>
      { t with assigned := true, startAt := startCycle s t, top := x.1, die2 := x.2.1, skippedAt := none }
  match t.saved with
  | some v => match restoreTiles x v.tiles s with
    | none => s
    | some s1 => hold s1
  | none => match assignChecks (walkTouch s t.part (BitVec.ofNat 64 (bitsOf t.lrec 120 64))) x t with
    | .error c => endUnstarted s i .failed jFailed c
    | .ok s1 => hold s1

/-! ## The first bundle -/

/-- Array a cell number lies in. -/
def arrOfCell (n : Nat) : Nat := n / 1024

/-- Drop the entries of a table whose cell lies in the arrays given; `k` keys stand for one cell. -/
def dropCells {V : Type} (t : Tab V) (l : List Nat) (k : Nat) : Tab V := t.filter fun e => !l.contains (arrOfCell (e.1 / k))

/-- Every cell register of the arrays of a placement reads 0 (R26, R387). -/
def clearCells (s : State) (l : List Nat) : State :=
  { s with
    frags := dropCells s.frags l 64
    sides := dropCells s.sides l 64
    flags := dropCells s.flags l 1
    gens := dropCells s.gens l 1
    ages := dropCells s.ages l 16
    chist := dropCells s.chist l 1
    pram := dropCells s.pram l 256
    mp := dropCells s.mp l 1
    mapBase := dropCells s.mapBase l 1
    cellEcc := dropCells s.cellEcc l 2048
    cellPoison := dropCells s.cellPoison l 2048 }

/-- The seed of a cell's generator (R143). -/
def cellSeed (seed : Word) (r c : Nat) : BitVec 32 :=
  let x := BitVec.ofNat 32 (bitsOf seed 31 0) ^^^ BitVec.ofNat 32 (bitsOf seed 63 32)
  let g := x ^^^ BitVec.ofNat 32 (0x9E3779B9 * (256 * r + c + 1))
  if g = 0 then 1 else g

/-- Seed the generators of a placement (R143). -/
def seedCells (s : State) (x : Placement) (seed : Word) : State :=
  (List.range (1024 * x.2.2.length)).foldl (fun s m =>
    setG s (chainCellNo x m) (cellSeed seed (m / 32) (m % 32))) s

/-- The code handle of a task whose held address is `va` (R26, R448). -/
def codeWalk (s : State) (p : Nat) (va : Word) : Handle := walkedHandle { va := va } (walk s p va)

/-- GRPS of a record (R108). -/
def grpsOf (r : BitVec 512) : Word := BitVec.ofNat 64 (2 ^ 8 * bitsOf r 63 40)

/-- The sequencer at a task's first bundle (R26, R108). -/
def firstSeq (s : State) (x : Placement) (t : Task) : Seq :=
  let entry : Word := BitVec.ofNat 64 (bitsOf t.lrec 120 64)
  let h := codeWalk s t.part entry
  let pc := entry.toNat - pageBase entry.toNat (leafBytes h.leaf)
  let n := x.2.2.length
  { s := (List.range 8).foldl (fun v k => vset v (k + 1) (t.args.getD k 0)) (Vector.replicate 32 0)
    h := vset (Vector.replicate 16 {}) 15 h
    w := vset (Vector.replicate 8 {}) 0 { rows := lowMask 256 (32 * n), cols := lowMask 32 32 }
    t := t.binds.foldl (fun v b => vset v b.1 (BitVec.ofNat 15 (2 ^ 14 + b.2))) (Vector.replicate 64 0)
    pc := pc, npc := pc, pri := t.eff, taskid := BitVec.ofNat 32 t.tid, seed := BitVec.ofNat 64 (bitsOf t.lrec 255 192)
    grps := grpsOf t.lrec, part := t.part, len := n, die2 := x.2.1, stop := .hold (s.cyc + 1)
    wdog := bitsOf t.lrec 31 16, lastIssue := s.cyc, markpc := pc }

/-- The arrays of a placement as a task finds them: tables, caches of micro-programs and lines of code empty (R26, R387, R405). -/
def freshArrays (s : State) (x : Placement) : State :=
  x.2.2.foldl (fun s a => modArr s a fun y =>
    { y with owner := some x.1, task := none, seq := {}, eng := Vector.replicate 4 {}, ports := [], words := [], dqTop := 0, dqBot := 0,
             deque := [], att := Vector.replicate 64 0, recv := Vector.replicate 64 0, kcut := 64,
             progs := Vector.replicate 32 {}, icache := [] }) s

/-- Slots of a record whose tile its acceptance could not count are counted as the task starts (R361). -/
def bindLate (s : State) (t : Task) : State :=
  bindTiles s t.part ((t.binds.map (·.2)).filter fun n => !t.counted.contains n)

/-- A task becomes RUNNING for the first time (R24, R26, R373): the walk of its code page fills the TLBs (R343), lines an earlier task left
in the top array's cache are dropped, so that it sees what its parent ordered before it (R327), the entry region opens over its initial
state, and its first bundle, whose line is at hand, is the next cycle's. -/
def beginTask (s : State) (i : Nat) (x : Placement) (t : Task) : State :=
  let q := firstSeq s x t
  let s0 := (walkFill (invalidateCache s x.1) x.1 t.part (BitVec.ofNat 64 (bitsOf t.lrec 120 64))).1
  let s1 := seedCells (clearCells (freshArrays (bindLate s0 t) x) x.2.2) x q.seed
  let s2 := modArr s1 x.1 fun y => { y with task := some i, seq := q }
  let s3 := openRegion (fillCode s2 x.1) x.1 q.pc false
  modTask (joinGroups s3 t.part x.1 (recGroups t.lrec)) i fun t =>
    { t with st := .running, assigned := false, waited := waitedCycles s t, skippedAt := none }

/-- The placement assigned to a task. -/
def placementOf (s : State) (t : Task) : Placement :=
  (t.top, t.die2, (List.range (recLen t.lrec)).map (chainArr s t.top t.die2))

/-- Tasks of a partition, resumed or not, whose assigned placement they may now enter. -/
def beginners (s : State) (p : Nat) (resumed : Bool) : List (Nat × Task) :=
  (List.range s.tasks.length).filterMap fun i =>
    match taskAt s i with
    | some t => if t.part = p && t.st = .ready && t.assigned && t.startAt ≤ s.cyc && t.saved.isSome = resumed then some (i, t) else none
    | none => none

/-- The device launch of a partition whose cycle to become RUNNING has come (R27). -/
def deviceBegin (s : State) (p : Nat) : Option (Nat × Task) := (beginners s p false).find? fun x => x.2.queue = 256

/-- A task of a partition whose assigned placement it now enters, a device launch before others. -/
def nextBegin (s : State) (p : Nat) (resumed : Bool) : Option (Nat × Task) :=
  (if resumed then none else deviceBegin s p).or (beginners s p resumed).head?

/-- The READY task of a partition that is assigned a placement now, resumed or not, and where (R324). -/
def assigns (s : State) (p : Nat) (resumed : Bool) : Option (Nat × Placement × Task) :=
  match nextStart s p with
  | none => none
  | some (i, x) => match taskAt s i with
    | none => none
    | some t => if t.saved.isSome = resumed then some (i, x, t) else none

/-- Whether the controller has something to do at once for a partition: a placement to assign, a request to give way to make, or a
device launch to start (R27, R30, R324). -/
def startDue (s : State) (p : Nat) : Bool :=
  (assigns s p false).isSome || evictions s p ≠ [] || (deviceBegin s p).isSome

/-- TASK_START (R24, R27, R324): in partition `ev.p` the next task in order is assigned a placement; else the controller asks RUNNING
tasks to give way (R30); else an assigned task becomes RUNNING. A task that was pre-empted is for RESUMPTION. -/
def execTaskStart (s : State) : MOut :=
  .next (match assigns s s.ev.p false with
    | some (i, x, t) => assign s s.ev.p i x t
    | none =>
      if evictions s s.ev.p ≠ [] then (evictions s s.ev.p).foldl requestPreempt s
      else match nextBegin s s.ev.p false with
        | some (i, t) => beginTask s i (placementOf s t) t
        | none => s)

/-- STARTED is journalled when a task's first bundle issues (R24, R312). -/
def noteStarted (s : State) (a : Nat) : State :=
  match (arr s a).task with
  | none => s
  | some i => match taskAt s i with
    | none => s
    | some t => if t.started then s
      else journalSet (modTask s i fun t => { t with started := true }) t.part t.jseq jStarted 0

/-! ## Cancelling and killing -/

/-- The arrays a READY task has been assigned are free again. -/
def dropAssigned (s : State) (t : Task) : State :=
  if t.assigned then (placementOf s t).2.2.foldl (fun s a => modArr s a fun y => { y with owner := none }) s else s

/-- The task of a partition with a sequence number that is not final: numbers are used anew after a reset of the partition. -/
def liveTask (s : State) (p seq : Nat) : Option Nat :=
  (List.range s.tasks.length).find? fun i => match taskAt s i with
    | some t => t.part = p && t.jseq = seq && t.st ≠ .done && t.st ≠ .failed && t.st ≠ .cancelled
    | none => false

/-- JCTL with KILL 0 (R334): task or transfer `seq` of a partition. -/
def cancelSeq (s : State) (p seq : Nat) : State :=
  match liveTask s p seq with
  | some i => (match taskAt s i with
    | some t =>
      if t.st = .queued then pruneXfers (endUnstarted s i .cancelled jCancelled 0)
      else if t.st = .ready then
        let s1 := dropAssigned s t
        if t.saved.isSome then failSaved s1 i .cancelled jCancelled
        else endUnstarted (if t.assigned then unplaceBound s1 t else s1) i .cancelled jCancelled 0
      else s
    | none => s)
  | none => match s.xfers.find? fun x => x.part = p && x.seq = seq && x.status = 0 with
    | some x => xferDrop s x false 0
    | none => s

/-- JCTL with KILL 1 (R334). -/
def killSeq (s : State) (p seq : Nat) : State :=
  match liveTask s p seq with
  | some i => (match taskAt s i with
    | some t =>
      if t.st = .running then failRunning (withdrawHeld s t.top) i 0
      else if t.st = .preempted then failSaved s i .failed jFailed
      else s
    | none => s)
  | none => s

end Sys2Proof.Machine
end

