-- ==== Sys2Proof/Machine/SaveArea.lean ====
section
/-! DEFINITION. The bytes of a save area (R445, R446): its control part, its cell part and its pad part, as fields with an offset, a
number of bytes and a value. -/

namespace Sys2Proof.Machine

/-- A field of a save area: offset, bytes, value. -/
abbrev SaveField := Nat × Nat × Nat

/-- 64-bit words one after another. -/
def saveWords (off : Nat) (l : List Word) : List SaveField :=
  (List.range l.length).map fun k => (off + 8 * k, 8, (l.getD k 0).toNat)

/-- Bytes whose layout R446 does not give: free values of draw `k` (log 29). -/
def saveOpen (k off n : Nat) : List SaveField :=
  (List.range n).map fun i => (off + i, 1, (Config.saveByte k (off + i)).toNat)

/-- The five parts of a selector pair (R104). -/
def pairParts (x : SelPair) : List Word :=
  (List.range 4).map (fun k => BitVec.ofNat 64 (x.rows.toNat / 2 ^ (64 * k))) ++ [x.cols.setWidth 64]

/-- Eight predicates as a byte; b0 is true (R26, R101). -/
def predByte (v : Vector Bool 8) : Nat := (below 8 fun k => k = 0 || vget false v k).foldl (fun x k => x + 2 ^ k) 0

/-- The count word of the pending FMT values: byte `g` counts for value `g` (R446). -/
def fmtCounts (x : FmtState) : Word :=
  BitVec.ofNat 64 ((List.range 4).foldl (fun n g => n + ((x.pending[g]?).map (·.2)).getD 0 * 2 ^ (8 * g)) 0)

/-- The four slots of the pending FMT values (R446). -/
def fmtSlots (x : FmtState) : List Word := (List.range 4).map fun g => ((x.pending[g]?).map (·.1)).getD 0

/-- Sixty-four 16-bit values as 128 bytes. -/
def halfBytes (v : Vector (BitVec 16) 64) : Nat := v.toList.foldr (fun x n => x.toNat + 2 ^ 16 * n) 0

/-- Bytes of one cell's record (R446). -/
def cellRecSize (t : Task) (cells : List Tile) : Nat :=
  32 + ((saveCodes (recUse t.lrec)).map fun c => if hasSide c then 144 else 128).foldl (· + ·) 0
    + (cells.map fun x => 4 * x.words).foldl (· + ·) 0

/-- The saved tiles of one level, by ascending number, with their chain positions and entries. -/
def savedOf (s : State) (t : Task) (level : Nat) : List (Nat × Nat × Tile) :=
  ((savedTiles s t).map fun x => (x.1, x.2, tileAt s x.1)).filter fun x => x.2.2.level = level

/-- The header (R446). -/
def saveHeader (s : State) (t : Task) (q : Seq) (ncmd : Nat) : Nat :=
  let cells := savedOf s t 0
  let padOff := 51200 + 1024 * q.len * cellRecSize t (cells.map (·.2.2))
  1 + q.len * 2 ^ 8 + t.top * 2 ^ 12 + q.taskid.toNat * 2 ^ 32 + recUse t.lrec * 2 ^ 64 + ncmd * 2 ^ 128
    + cells.length * 2 ^ 144 + (savedOf s t 1).length * 2 ^ 160 + 51200 * 2 ^ 192 + padOff * 2 ^ 256
    + saveSize s t * 2 ^ 320 + s.cyc % 2 ^ 64 * 2 ^ 384

/-- The sequencer block of the control part (R446). -/
def saveSeq (stat : Word) (q : Seq) : List SaveField :=
  saveWords 0x100 q.s.toList ++ saveWords 0x200 q.shadow.s.toList
    ++ [(0x300, 8, predByte q.b + 2 ^ 8 * predByte q.shadow.b)]
    ++ saveWords 0x308 [BitVec.ofNat 64 q.pc, BitVec.ofNat 64 q.markpc]
    ++ saveWords 0x318 [q.fmt.inForce, fmtCounts q.fmt, q.shadow.fmt.inForce, fmtCounts q.shadow.fmt, 0, 0]
    ++ saveWords 0x348 [q.lc0, q.lc1, q.lb0, q.lb1, q.lstg, q.shadow.lc0, q.shadow.lc1, q.shadow.lb0, q.shadow.lb1, q.shadow.lstg]
    ++ saveWords 0x398 [q.fpx.setWidth 64, q.wstall, BitVec.ofNat 64 q.wordNo, stat]
    ++ saveWords 0x3D8 [BitVec.ofNat 64 q.gate.length]
    ++ saveWords 0x3E0 (q.w.toList.flatMap pairParts ++ q.shadow.w.toList.flatMap pairParts)
    ++ [(0x660, 128, q.t.toList.foldr (fun x n => x.toNat + 2 ^ 16 * n) 0)]
    ++ saveWords 0x6E0 (q.h.toList.map (·.va))
    ++ saveWords 0x760 ([q.mepc, q.mcause, q.mrec] ++ q.mscr.toList)
    ++ saveWords 0x798 (q.pmctl :: q.pmc.toList)
    ++ saveWords 0xAF0 (fmtSlots q.fmt ++ fmtSlots q.shadow.fmt)

/-- The record of a command kept whole: sixteen words, in the order in which R446 names its contents, which fill its 128 bytes; its
status is CANCELLED (R482; log 29). -/
def saveCmd (c : Cmd) : List Word :=
  [c.word.setWidth 64, c.ra, c.rb] ++ c.x.toList ++ [1, BitVec.ofNat 64 c.landed]

/-- The command records: 64 for each engine, zeros where it has fewer commands (R446). -/
def saveCmds (v : Saved) : List SaveField :=
  (List.range 4).flatMap fun e => (List.range 64).flatMap fun k =>
    saveWords (0x4800 + 8192 * e + 128 * k) (match (vget {} v.eng e).queue[k]? with
      | some c => saveCmd c
      | none => List.replicate 16 0)

/-- A set of names of R440 as a mask of 128 bits: bit `k` for operand code `k`, bit 0x40 + n for tile slot n (log 29). -/
def nameMask (l : List Nat) : Nat := (below 128 l.contains).foldl (fun x k => x + 2 ^ k) 0

/-- The ports in the order of their stream records (R446). -/
def streamOrder : List Nat := [portN, portS] ++ (List.range 8).map portW ++ (List.range 8).map portE ++ (List.range 8).map (8 + ·)

/-- Records of `n` bytes at an offset: free bytes where one is present, zeros where none is (R482; log 29). -/
def saveRecords (k off n : Nat) (l : List Bool) : List SaveField :=
  (List.range l.length).flatMap fun i => if l.getD i false then saveOpen k (off + n * i) n else [(off + n * i, n, 0)]

/-- The control part: what R446 lays out to the bit, zeros where it is reserved or nothing stands, and free bytes where it names contents
without their places (gate entries and stream records). -/
def saveControl (s : State) (a k : Nat) (t : Task) (v : Saved) : List SaveField :=
  let ncmd := (v.eng.toList.map fun g => g.queue.length).foldl (· + ·) 0
  [(0, 256, saveHeader s t v.seq ncmd)]
    ++ saveSeq (statOf { s with cur := Fin.ofNat 28 a }) v.seq
    ++ [(0x7E0, 128, halfBytes v.att), (0x860, 128, halfBytes v.recv)]
    ++ saveWords 0x8E0 [BitVec.ofNat 64 v.kcut]
    ++ [(0x8E8, 4, v.dqTop.toNat), (0x8EC, 4, v.dqBot.toNat)]
    ++ saveWords 0x8F0 (v.eng.toList.flatMap fun g => g.x.toList)
    ++ [(0xB30, 1232, 0)]
    ++ saveWords 0x2800 ((List.range 1024).map fun i => tget 0 v.deque i)
    ++ [(0x3B8, 16, nameMask v.seq.reads), (0x3C8, 16, nameMask v.seq.writes)]
    ++ saveRecords k 0x1000 32 ((List.range 64).map (· < v.seq.gate.length))
    ++ saveRecords k 0x1800 128 ((List.range 32).map fun i => (streamOrder[i]?).any fun n => (tget {} v.ports n).bound)
    ++ saveCmds v

/-- A list of sizes and values laid one after another. -/
def packFields : Nat → List (Nat × Nat) → List SaveField
  | _, [] => []
  | off, (n, x) :: l => (off, n, x) :: packFields (off + n) l

/-- The record of the cell at place `m` of the placement (R446): the 20 bytes after F and G hold a free byte for the hazard age of each
accumulator saved, and zeros (R482; log 29). -/
def saveCellRec (s : State) (k off m : Nat) (ch : List Nat) (codes : List Nat) (v : Saved) (cells : List Tile) : List SaveField :=
  let n := ch.getD (m / 1024) 0 * 1024 + m % 1024
  [(off, 8, (tget 0 v.flags m).toNat), (off + 8, 4, (tget 1 v.gens m).toNat)]
    ++ saveRecords k (off + 12) 1 ((List.range 16).map fun i => codes.contains (codeA0 + i)) ++ [(off + 28, 4, 0)]
    ++ packFields (off + 32)
      (codes.flatMap (fun c => (128, (tget 0 v.frags (cellKey m c)).toNat)
          :: (if hasSide c then [(16, (tget 0 v.sides (cellKey m c)).toNat)] else []))
        ++ cells.map fun x => (4 * x.words, getBytes s (cellBase n + 4 * x.base) (4 * x.words)))

/-- The full/empty bits of the words of a PAD tile, one per word (R446). -/
def fullBits (s : State) (t : Tile) : Nat :=
  (below t.words fun i => tget false s.full (tileBase t 0 + 4 * i)).foldl (fun x i => x + 2 ^ i) 0

/-- The pad part from an offset: for each tile a descriptor, its number, chain position, WORDS and FE in a word each, its data and its
bits (R446; log 29). -/
def savePads (s : State) : Nat → List (Nat × Nat × Tile) → List SaveField
  | _, [] => []
  | off, (m, pos, t) :: l =>
    let n := ceilDiv t.words 8
    saveWords off ([m, pos, t.words, bnat t.fe].map (BitVec.ofNat 64))
      ++ [(off + 32, 4 * t.words, getBytes s (tileBase t 0) (4 * t.words)), (off + 32 + 4 * t.words, n, fullBits s t)]
      ++ savePads s (off + 32 + 4 * t.words + n) l

/-- Every field of the save area of the task of array `a`; `k` is the draw of its free bytes. -/
def saveFields (s : State) (a k : Nat) (t : Task) (v : Saved) : List SaveField :=
  let ch := chainOf s a
  let codes := saveCodes (recUse t.lrec)
  let cells := (savedOf s t 0).map (·.2.2)
  let size := cellRecSize t cells
  saveControl s a k t v
    ++ (List.range (1024 * v.seq.len)).flatMap (fun m => saveCellRec s k (51200 + m * size) m ch codes v cells)
    ++ savePads s (51200 + 1024 * v.seq.len * size) (savedOf s t 1)

/-- Where the slot of a save area begins (R443). -/
def saveBase (s : State) (p : Nat) (v : Saved) : Nat := (partAt s p).spbase + v.slot * (partAt s p).spsize

/-- The lines of the save area of a task of partition `p` come into their slices (R210). -/
def touchSave (s : State) (p : Nat) (v : Saved) (dirty : Bool) : State :=
  let n := saveBase s p v / 192
  (List.range (ceilDiv (saveBase s p v + v.total) 192 - n)).foldl (fun s k => sliceTouch s p (192 * (n + k)) dirty) s

/-- Write the save area of a task into its slot of the partition's pool, through the slices (R210, R443, R446). -/
def writeSaveArea (s : State) (a : Nat) (t : Task) (v : Saved) : State :=
  let (k, s1) := drawFree (touchSave s t.part v true)
  (saveFields s a k t v).foldl (fun s x => putBytes s (saveBase s t.part v + x.1) x.2.1 x.2.2) s1

/-- The save area of a task is read, through the slices; its uncorrectable words are met (R210, R211, R448). -/
def readSaveArea (s : State) (p : Nat) (v : Saved) : State :=
  markPoison (touchSave s p v false) (saveBase s p v) v.total

end Sys2Proof.Machine
end

