-- ==== Sys2Proof/Machine/Preempt.lean ====
section
/-! DEFINITION. Pre-emption and resumption (R30, R31, R373, R443 to R448). Event arguments: `ev.a` the top array of the placement for
PREEMPTION and QUIESCE_EXPIRE, `ev.p` the partition for RESUMPTION. -/

namespace Sys2Proof.Machine

/-! ## Stopping -/

/-- Placements of a partition whose pre-emption is under way. -/
def stopping (s : State) (p : Nat) : Nat :=
  (below 28 fun a => runs s a && (seqAt s a).part = p && (seqAt s a).stop = .preempt).length

/-- Whether a save slot is free, those spoken for left out (R443). -/
def slotFree (s : State) (p : Nat) : Bool := (partAt s p).spused.length + stopping s p < (partAt s p).spcount

/-- The RUNNING task of array `a`, with its index. -/
def taskOf (s : State) (a : Nat) : Option (Nat × Task) := (arr s a).task.bind fun i => (taskAt s i).map fun t => (i, t)

/-- Whether a requested pre-emption of array `a` takes effect now: at a bundle boundary, a bundle that waits not having issued, with a
slot free that the task fits (R30, R443, R444 step 1). -/
def canStop (s : State) (a : Nat) : Bool :=
  let q := seqAt s a
  runs s a && q.preemptReq && (match q.stop with
      | .retiring => false
      | .preempt => false
      | .trap => false
      | _ => true)
    && q.pending = [] && q.located = [] && q.phaseOf.isNone && !q.phase && slotFree s q.part
    && (match taskOf s a with
        | none => false
        | some (_, t) => fitsSave s t)
    && atBoundary s.cyc q

/-- Issue stops; what the bundle waits for is withdrawn (R30, R201, R418, R421, R422). -/
def stopIssue (s : State) (a : Nat) : State :=
  modSeq (withdrawHeld s a) a fun q => { q with stop := .preempt, goOn := .run }

/-- Whether the words of a stopping placement have drained and its drains have written (R444 step 2); a located fault the draining words
met is delivered first (R431). -/
def drained (s : State) (a : Nat) : Bool :=
  runs s a && (seqAt s a).stop = .preempt && (arr s a).words = [] && (seqAt s a).located = [] && (seqAt s a).stallEnd.isNone
    && (arr s a).ports.all fun p => p.2.places = []

/-- Cycles a command that has sent a sector may run on (R444 step 3). -/
def graceCycles : Nat := 2048

/-! ## Cancelling the commands -/

/-- A command as it is kept whole for its issue anew: CANCELLED, with the bytes it has credited, as its record gives them until then (R444,
R446, R448). -/
def keepCmd (c : Cmd) : Cmd :=
  { c with sent := 0, started := false, pages := [], batch := none, readd := true }

/-- Withdraw the bytes a cancelled command has not credited; no phase ends (R415, R444 step 4). -/
def withdrawQuiet (s : State) (c : Cmd) : State :=
  match cmdBar s c with
  | none => s
  | some b => if c.readd then s else barUpdate s b false (barWithdraw (cmdBytes c - c.landed))

/-- The commands of one engine are cancelled and kept (R444 steps 3 and 4). -/
def keepEngine (s : State) (a e : Nat) : State :=
  let s1 := landAll s a e
  let q := (engAt s1 a e).queue
  let s2 := modEng (q.foldl (fun s c => bumpDest (withdrawQuiet s c) c) s1) a e fun g =>
    { g with queue := q.map keepCmd, halted := false, last := if q = [] then g.last else 1 }
  modSeq s2 a fun x => { x with cp := x.cp - q.length }

/-- Whether a command still runs on in its grace. -/
def graceRuns (s : State) (a : Nat) : Bool :=
  (arr s a).eng.toList.any fun g => !g.halted && (match g.queue with
    | [] => false
    | c :: _ => c.sent > 0)

/-- Whether the quiescing of array `a` ends now: its time is over, or nothing is left to run (R444). -/
def quiesceEnds (s : State) (a : Nat) : Bool :=
  match taskOf s a with
  | none => false
  | some (_, t) => match t.quiesce with
    | none => false
    | some d => d ≠ 0 && drained s a && (s.cyc ≥ d || !graceRuns s a)

/-- QUIESCE_EXPIRE (R444): every command not yet ended is cancelled and kept whole, with its pending faults discarded. -/
def execQuiesceExpire (s : State) : MOut :=
  let a := s.ev.a
  .next (if quiesceEnds s a then
    (match taskOf s a with
     | none => s
     | some (i, _) =>
       let s1 := (List.range 4).foldl (fun s e => keepEngine s a e) s
       let s2 := modSeq s1 a fun q => { q with pending := q.pending.filter fun f => !(f.src = 2 && !f.precise) }
       modTask s2 i fun t => { t with quiesce := some 0 })
   else s)

/-! ## Saving -/

/-- Place of a cell of a placement among its cells, 1,024 for each chain position. -/
def cellPlace (ch : List Nat) (n : Nat) : Option Nat := (ch.findIdx? (· = n / 1024)).map fun k => k * 1024 + n % 1024

/-- Entries of a table of the cells of a placement, keyed by place; `k` keys stand for one cell, of which `keep` are kept. -/
def saveCells {V : Type} (t : Tab V) (ch : List Nat) (k : Nat) (keep : Nat → Bool) : Tab V :=
  t.filterMap fun e => if keep (e.1 % k) then (cellPlace ch (e.1 / k)).map fun m => (m * k + e.1 % k, e.2) else none

/-- The offset of a byte within a saved tile, if it lies there (R446). -/
def savedPlace (ch : List Nat) (t : Tile) (x : Nat) : Option Nat :=
  if !inStorage t ch x then none
  else if t.level = 0 then
    let y := x - (onChip + 2 ^ 31)
    (cellPlace ch (y / 2 ^ 14)).map fun m => m * 2 ^ 14 + (y % 2 ^ 14 - 4 * t.base)
  else some (x - tileBase t 0)

/-- A tile as it enters the save area (R446). -/
def saveTile (s : State) (ch : List Nat) (n pos : Nat) : SavedTile :=
  let t := tileAt s n
  { n := n, pos := pos
    bytes := s.mem.filterMap fun c => (savedPlace ch t c.1).map fun r => (r, c.2)
    full := s.full.filterMap fun c => savedPlace ch t c.1
    poison := s.poison.filterMap fun c => savedPlace ch t c.1
    ecc := s.ecc.filterMap fun c => savedPlace ch t c.1 }

/-- A stream as it stands in the save area: its patterns from the front on, at its position; what was fetched is fetched again
(R446, R448). -/
def savePort (p : Port) : Port :=
  { p with act := 0, pos := p.taken, buf := [], scales := [], elems := [], produced := p.taken, ahead := 0, places := [] }

/-- The lowest save slot not in use (R443). -/
def saveSlot (s : State) (p : Nat) : Nat :=
  ((List.range (partAt s p).spcount).find? fun k => !(partAt s p).spused.contains k).getD 0

/-- The save area of a task (R446). -/
def saveArea (s : State) (t : Task) : Saved :=
  let x := arr s t.top
  let ch := chainOf s t.top
  let codes := saveCodes (recUse t.lrec)
  { slot := saveSlot s t.part, seq := x.seq, eng := x.eng, ports := x.ports.map fun p => (p.1, savePort p.2)
    dqTop := x.dqTop, dqBot := x.dqBot, deque := x.deque, att := x.att, recv := x.recv, kcut := x.kcut
    frags := saveCells s.frags ch 64 codes.contains
    sides := saveCells s.sides ch 64 codes.contains
    flags := saveCells s.flags ch 1 fun _ => true
    gens := saveCells s.gens ch 1 fun _ => true
    ages := saveCells s.ages ch 16 fun k => codes.contains (codeA0 + k)
    chist := if codes.contains codeC then saveCells s.chist ch 1 fun _ => true else []
    errs := saveCells s.cellEcc ch 2048 fun k => codes.contains (k / 32)
    marks := saveCells s.cellPoison ch 2048 fun k => codes.contains (k / 32)
    tiles := (savedTiles s t).map fun y => saveTile s ch y.1 y.2
    total := saveSize s t, oldTop := t.top }

/-- Whether a stopping task can be saved: quiesced, and nothing outstanding (R444). -/
def canSave (s : State) (a : Nat) : Bool :=
  drained s a && (seqAt s a).outs = [] && (seqAt s a).xlats = [] && (match taskOf s a with
    | none => false
    | some (_, t) => t.quiesce = some 0)

/-- Steps 5 and 6 of R444: what the sequencer has accumulated is delivered, and the save area written; the task is PREEMPTED, its
placement released and its bits parked (R33, R373). -/
def savePreempted (s : State) (a i : Nat) (t : Task) : State :=
  let p := t.part
  let gs := recGroups t.lrec
  let s1 := invalidateCache (flushWindows (flushResid s a) p) a
  let v := saveArea s1 t
  let s2 := v.tiles.foldl (fun s y => modTile s y.n fun z => { z with saved := true }) (writeSaveArea s1 a t v)
  let s3 := leaveGroups (parkGroups s2 p gs true) p a gs
  let s4 := modPart (releaseArrays s3 a) p fun y => { y with spused := v.slot :: y.spused }
  modTask s4 i fun t => { t with st := .preempted, saved := some v, quiesce := none, waitFrom := s.cyc }

/-- PREEMPTION (R30, R444): the steps that are due for array `ev.a`. -/
def execPreemption (s : State) : MOut :=
  .next (let a := s.ev.a
    if canStop s a then stopIssue s a
    else match taskOf s a with
      | none => s
      | some (i, t) =>
        if drained s a && t.quiesce.isNone then modTask s i fun t => { t with quiesce := some (s.cyc + graceCycles) }
        else if canSave s a then savePreempted s a i t
        else s)

/-! ## Resuming -/

/-- Put the saved entries of a table back in a placement's cells. -/
def putCellsBack {V : Type} (t : Tab V) (x : Placement) (k : Nat) (l : Tab V) : Tab V :=
  l.foldl (fun t e => tins (chainCellNo x (e.1 / k) * k + e.1 % k) e.2 t) t

/-- The cell part is restored; what the mask left out reads 0 (R445, R448). -/
def restoreCells (s : State) (x : Placement) (v : Saved) : State :=
  let s1 := clearCells s x.2.2
  { s1 with
    frags := putCellsBack s1.frags x 64 v.frags
    sides := putCellsBack s1.sides x 64 v.sides
    flags := putCellsBack s1.flags x 1 v.flags
    gens := putCellsBack s1.gens x 1 v.gens
    ages := putCellsBack s1.ages x 16 v.ages
    chist := putCellsBack s1.chist x 1 v.chist
    cellEcc := putCellsBack s1.cellEcc x 2048 v.errs
    cellPoison := putCellsBack s1.cellPoison x 2048 v.marks }

/-- A handle after resumption: INVALID, with its held address (R350, R448). -/
def coldHandle (h : Handle) : Handle := { va := h.va }

/-- The sequencer block as restored (R448 step 3). -/
def resumedSeq (s : State) (x : Placement) (t : Task) (v : Saved) : Seq :=
  let q := v.seq
  let h := vset (q.h.map coldHandle) 15 (codeWalk s t.part (vget {} q.h 15).va)
  { q with
    h := h
    mhandle := if q.mon then codeWalk s t.part (partAt s t.part).mentry else {}
    part := t.part, len := x.2.2.length, die2 := x.2.1, pri := t.eff, resumes := Nat.min 0xFFFF (q.resumes + 1)
    cp := (v.eng.toList.map fun g => g.queue.length).foldl (· + ·) 0
    wf := 0, locks := [], codeInval := false, monInval := false, preemptReq := false, lastIssue := s.cyc, stamp := 0
    stop := .hold (s.cyc + 1), goOn := .run, retryAt := none, fetched := false }

/-- The commands of a resumed task are issued again: each re-adds its bytes to its barrier and counts as an entry of its queue (R393,
R415, R448 step 5). -/
def reissue (s : State) (a : Nat) : State :=
  let l := (arr s a).eng.toList.flatMap (·.queue)
  let s1 := l.foldl (fun s c =>
    let s1 := bumpDest s c
    match cmdBar s1 c with
    | none => s1
    | some b => if c.readd then barUpdate s1 b true (barExpect (cmdBytes c)) else s1) s
  modArr s1 a fun x => { x with eng := x.eng.map fun g => { g with wrote := [], queue := g.queue.map fun c => { c with readd := false, landed := 0, issued := s.cyc } } }

/-- A pre-empted task becomes RUNNING again (R31, R373, R448): its save area is read, and the walks of its code handles fill the TLBs
(R343). -/
def resumeTask (s : State) (i : Nat) (x : Placement) (t : Task) (v : Saved) : State :=
  let gs := recGroups t.lrec
  let s0 := (walkFill (readSaveArea s t.part v) x.1 t.part (vget {} v.seq.h 15).va).1
  let s00 := if v.seq.mon then (walkFill s0 x.1 t.part (partAt s t.part).mentry).1 else s0
  let s1 := restoreCells (freshArrays s00 x) x v
  let s2 := x.2.2.foldl (fun s a => modArr s a fun y => { y with att := v.att, recv := v.recv, kcut := v.kcut }) s1
  let q := resumedSeq s x t v
  let s3 := modArr s2 x.1 fun y =>
    { y with task := some i, seq := q, eng := v.eng, ports := v.ports, dqTop := v.dqTop, dqBot := v.dqBot, deque := v.deque }
  let s30 := if v.seq.mon then countMiss (countMiss s3 x.1 true) x.1 true else countMiss s3 x.1 true
  let s4 := parkGroups (joinGroups (invalidateCache (reissue (fillCode s30 x.1) x.1) x.1) t.part x.1 gs) t.part gs false
  modTask (modPart s4 t.part fun y => { y with spused := y.spused.erase v.slot }) i fun t =>
    { t with st := .running, assigned := false, saved := none, resumes := t.resumes + 1, waited := waitedCycles s t, skippedAt := none }

/-- The first PREEMPTED task of a partition. -/
def savedTask (s : State) (p : Nat) : Option Nat :=
  (List.range s.tasks.length).find? fun i => match taskAt s i with
    | some t => t.part = p && t.st = .preempted
    | none => false

/-- RESUMPTION (R24, R25, R448): in partition `ev.p`, the next task in order, if it was pre-empted, is assigned a placement and its tiles
are restored; else a task whose save area is complete becomes READY; else one whose placement is assigned resumes. -/
def execResumption (s : State) : MOut :=
  .next (match assigns s s.ev.p true with
    | some (i, x, t) => assign s s.ev.p i x t
    | none => match savedTask s s.ev.p with
      | some i => clearGroup0 (modPart (modTask s i fun t => { t with st := .ready }) s.ev.p fun x => { x with passHeld := none }) s.ev.p
      | none => match nextBegin s s.ev.p true with
        | some (i, t) => (match t.saved with
          | some v => resumeTask s i (placementOf s t) t v
          | none => s)
        | none => s)

end Sys2Proof.Machine
end

