-- ==== Sys2Proof/Machine/Front.lean ====
section
/-! DEFINITION. The registers of the functions (R307, R308, R322, R333, R334, R452): doorbells, queue configuration and control, the
journal's head, and plain registers. Event arguments: `ev.p` the partition of the virtual function, `ev.q` a local queue, `ev.x0` the
value; for REGISTER_WRITE `ev.a` the function (0 the physical one, p + 1 the virtual one of partition p), `ev.k` the offset and
`ev.flag` a 64-bit write. Registers are reached over the host link. -/

namespace Sys2Proof.Machine

/-! ## Queues of a function -/

/-- Global queues of a partition, in ascending number (R307). -/
def ownQueues (s : State) (p : Nat) : List Nat := below Config.queues fun q => (queueAt s q).owner = some p

/-- The global queue behind local queue `i` of a partition (R307). -/
def localQueue (s : State) (p i : Nat) : Option Nat := (ownQueues s p)[i]?

/-- Whether a register that takes writes stands at an offset of a virtual function (R307). -/
def vfHere (s : State) (p off : Nat) : Bool :=
  if off < 0x1000 then off < 8 || (0x10 ≤ off && off < 0x20) else (localQueue s p ((off - 0x1000) / 32)).isSome

/-- Where the low half of a register is held: at its offset, or, for a register of a queue, at that of the queue's global number. -/
def lowKey (s : State) (p off : Nat) : Nat :=
  if off < 0x1000 then off
  else match localQueue s p ((off - 0x1000) / 32) with
    | none => off
    | some q => 0x1000 + 32 * q + off % 32

/-- A 64-bit register takes no low half held before its last change (R307). -/
def dropLow (s : State) (p off : Nat) : State :=
  modPart s p fun x => { x with lows := x.lows.filter fun e => e.1 ≠ lowKey s p off }

/-- Act on a local queue of a partition, while the host link is up. -/
def onLocal (s : State) (p i : Nat) (f : State → Nat → State) : State :=
  if !s.pkg.pcieUp then s
  else match localQueue s p i with
    | none => s
    | some q => f s q

/-- A doorbell write of `t` (R308); one that both of the rule's first two cases fit sets the tail (log 79). -/
def doorbell (s : State) (q : Nat) (t : BitVec 32) : State :=
  let x := queueAt s q
  if (t - x.head).toNat ≤ 2 ^ x.log2n then modQueue s q fun x => { x with tail := t }
  else if (t - x.tail).toNat ≥ 2 ^ 31 then s
  else haltQueue s q hRing 0

/-- DOORBELL (R308). -/
def execDoorbell (s : State) : MOut :=
  .next (onLocal s s.ev.p s.ev.q fun s q => doorbell s q (BitVec.ofNat 32 s.ev.x0.toNat))

/-- A write of QCFG (R307). -/
def writeQcfg (s : State) (q : Nat) (v : Word) : State :=
  modQueue s q fun x => { x with log2n := bitsOf v 4 0, en := v.getLsbD 8 && 4 ≤ bitsOf v 4 0 && bitsOf v 4 0 ≤ 16 }

/-- QCFG (R307): one 64-bit write. -/
def execQcfg (s : State) : MOut :=
  .next (onLocal s s.ev.p s.ev.q fun s q => writeQcfg (dropLow s s.ev.p (0x1008 + 32 * s.ev.q)) q s.ev.x0)

/-- The walk of a halted queue starts again (R322). -/
def restartQueue (s : State) (q : Nat) (f : Queue → Queue) : State :=
  if (queueAt s q).st ≠ .halted then s else modQueue s q fun x => { f x with st := .idle, cause := 0, skipLen := 0 }

/-- QCTL.RESUME (R322, R490). -/
def resumeQueue (s : State) (q : Nat) : State := restartQueue s q id

/-- QCTL.SKIP (R322, R490): past the ring or list entry that halted the queue; for RING the tail becomes QHEAD. -/
def skipQueue (s : State) (q : Nat) : State :=
  restartQueue s q fun x =>
    if x.cause = hRing then { x with tail := x.head }
    else match x.lpc with
      | some a => { x with lpc := some (a + x.skipLen) }
      | none => if x.skipLen = 0 then x else { x with head := x.head + 1 }

/-- QCTL_RESUME (R322). -/
def execQctlResume (s : State) : MOut := .next (onLocal s s.ev.p s.ev.q resumeQueue)

/-- QCTL_SKIP (R322). -/
def execQctlSkip (s : State) : MOut := .next (onLocal s s.ev.p s.ev.q skipQueue)

/-! ## The journal -/

/-- JCTL_CANCEL: a whole write of JCTL (R307, R334). -/
def execJctlCancel (s : State) : MOut :=
  .next (if s.pkg.pcieUp then cancelSeq (dropLow s s.ev.p 0x0018) s.ev.p (bitsOf s.ev.x0 31 0) else s)

/-- JCTL_KILL: a whole write of JCTL (R307, R334). -/
def execJctlKill (s : State) : MOut :=
  .next (if s.pkg.pcieUp then killSeq (dropLow s s.ev.p 0x0018) s.ev.p (bitsOf s.ev.x0 31 0) else s)

/-- Sequence numbers of a partition's journal entries whose status is not final. -/
def openSeqs (s : State) (p : Nat) : List Nat :=
  (s.tasks.filterMap fun t =>
      if t.part = p && t.st ≠ .done && t.st ≠ .failed && t.st ≠ .cancelled then some t.jseq else none)
    ++ (s.xfers.filterMap fun x => if x.part = p && x.status < 2 then some x.seq else none)
    ++ s.queues.filterMap fun e => if e.2.owner ≠ some p then none else match e.2.wait with
      | some (.waitc n _ _) => some n
      | some (.fence n) => some n
      | some (.groupset n) => some n
      | _ => none

/-- How far past JHEAD the oldest entry without a final status lies; the whole journal where every status is final. -/
def openSpan (s : State) (p : Nat) : Nat :=
  let x := partAt s p
  (openSeqs s p).foldl (fun m n => Nat.min m (BitVec.ofNat 32 n - x.jhead).toNat) (x.jtail - x.jhead).toNat

/-- A write of JHEAD: ignored below the present one or beyond JTAIL, clamped to the oldest entry not final (R333). -/
def writeJhead (s : State) (p : Nat) (v : BitVec 32) : State :=
  let x := partAt s p
  let d := (v - x.jhead).toNat
  if d > (x.jtail - x.jhead).toNat then s
  else modPart (dropLow s p 0x0010) p fun x => { x with jhead := x.jhead + BitVec.ofNat 32 (Nat.min d (openSpan s p)) }

/-- JHEAD (R333): one 64-bit write. -/
def execJhead (s : State) : MOut :=
  .next (if s.pkg.pcieUp then writeJhead s s.ev.p (BitVec.ofNat 32 s.ev.x0.toNat) else s)

/-! ## Plain registers -/

/-- Whether a write of JBASE is ignored: a queue of the partition is enabled, or a device launch is pending (R307). -/
def jbaseHeld (s : State) (p : Nat) : Bool := (ownQueues s p).any (fun q => (queueAt s q).en) || (partAt s p).dlq ≠ []

/-- A whole value reaches the 64-bit register at an offset of a virtual function (R2, R307): reserved bits and the bits a multiple
fixes are not stored; RO and unknown offsets take nothing. A write that is ignored leaves a held low half as it is. -/
def writeVf64 (s : State) (p off : Nat) (v : Word) : State :=
  if off = 0x0000 then
    (if jbaseHeld s p then s else modPart (dropLow s p off) p fun x => { x with jbase := BitVec.ofNat 64 (bitsOf v 56 5 * 32) })
  else if off = 0x0010 then writeJhead s p (BitVec.ofNat 32 (bitsOf v 31 0))
  else if off = 0x0018 then (let w := dropLow s p off
    if v.getLsbD 32 then killSeq w p (bitsOf v 31 0) else cancelSeq w p (bitsOf v 31 0))
  else if off < 0x1000 then s
  else match localQueue s p ((off - 0x1000) / 32) with
    | none => s
    | some q =>
      if off % 32 = 0 then modQueue (dropLow s p off) q fun x => { x with qbase := BitVec.ofNat 64 (bitsOf v 56 12 * 4096) }
      else if off % 32 = 8 then writeQcfg (dropLow s p off) q v
      else s

/-- A 32-bit register of a virtual function (R307). -/
def writeVf32 (s : State) (p off : Nat) (v : BitVec 32) : State :=
  if off < 0x1000 then s
  else match localQueue s p ((off - 0x1000) / 32) with
    | none => s
    | some q =>
      if off % 32 = 0x10 then doorbell s q v
      else if off % 32 = 0x1C then
        -- RESUME first where both bits are set (log 79)
        (if v.getLsbD 0 then resumeQueue s q else if v.getLsbD 1 then skipQueue s q else s)
      else s

/-- The held low half for a 64-bit register, or its present low half (R307). -/
def lowHalf (lows : List (Nat × BitVec 32)) (off : Nat) (now : Word) : Nat :=
  match lows.find? fun e => e.1 = off with
  | some e => e.2.toNat
  | none => bitsOf now 31 0

/-- Hold the low half written to a 64-bit register (R307). -/
def holdLow (lows : List (Nat × BitVec 32)) (off : Nat) (v : BitVec 32) : List (Nat × BitVec 32) :=
  (off, v) :: lows.filter fun e => e.1 ≠ off

/-- The present value of a 64-bit register of a virtual function that a high half alone would keep (R307); JCTL is write-only and counts
as 0 here (log 79). -/
def readVf64 (s : State) (p off : Nat) : Word :=
  let x := partAt s p
  if off = 0x0000 then x.jbase
  else if off = 0x0010 then x.jhead.setWidth 64
  else if off < 0x1000 then 0
  else match localQueue s p ((off - 0x1000) / 32) with
    | none => 0
    | some q =>
      let y := queueAt s q
      if off % 32 = 0 then y.qbase else if off % 32 = 8 then BitVec.ofNat 64 (y.log2n + bnat y.en * 2 ^ 8 + q * 2 ^ 16) else 0

/-- Whether an offset of a virtual function lies in a 64-bit register, and not in one of 32 bits. -/
def wideVf (off : Nat) : Bool := off < 0x1000 || off % 32 < 0x10

/-- A register write to a virtual function (R307). -/
def vfWrite (s : State) (p off : Nat) (wide : Bool) (v : Word) : State :=
  if !vfHere s p off then s
  else if wide then (if off % 8 = 0 && wideVf off then writeVf64 s p off v else s)
  else
    let v32 := BitVec.ofNat 32 (bitsOf v 31 0)
    if !wideVf off then writeVf32 s p off v32
    else if off % 8 = 0 then modPart s p fun x => { x with lows := holdLow x.lows (lowKey s p off) v32 }
    else if off % 8 = 4 then
      let o := off - 4
      let lo := lowHalf (partAt s p).lows (lowKey s p o) (readVf64 s p o)
      writeVf64 s p o (BitVec.ofNat 64 (lo + v32.toNat * 2 ^ 32))
    else s

/-! ## Function 0 -/

/-- Physical address of a host bus address (R336). -/
def hostPa (a : Nat) : Nat := 2 * 2 ^ 50 + a % 2 ^ 50

/-- A write of AQCFG (R452): writing EN 0 and then 1 clears ERROR and sets AQHEAD to the tail. -/
def writeAqcfg (s : State) (v : Word) : State :=
  let n := bitsOf v 3 0
  let en := v.getLsbD 8 && 4 ≤ n && n ≤ 12
  let x := s.admin
  let fresh := en && !x.en
  let tail : BitVec 32 := BitVec.ofNat 32 (getBytes s (hostPa x.tailAddr) 4)
  { s with admin := { x with
      log2n := n, en := en
      head := if fresh && x.st = 3 then tail else x.head
      st := if fresh then 1 else if en then x.st else if x.st = 3 then 3 else 0 } }

/-- A 64-bit register of function 0 takes no low half held before its last change (R307, R452). -/
def dropPfLow (s : State) (off : Nat) : State :=
  { s with admin := { s.admin with lows := s.admin.lows.filter fun e => e.1 ≠ off } }

/-- AQCFG (R452): one 64-bit write. -/
def execAqcfg (s : State) : MOut := .next (if s.pkg.pcieUp then writeAqcfg (dropPfLow s 0x0008) s.ev.x0 else s)

/-- A whole value reaches the 64-bit register at an offset of function 0 (R452). -/
def writePf64 (s : State) (off : Nat) (v : Word) : State :=
  if off = 0x0000 then (if s.admin.en then s else { s with admin := { s.admin with base := bitsOf v 51 12 * 4096 } })
  else if off = 0x0008 then writeAqcfg s v
  else if off = 0x0010 then { s with admin := { s.admin with tailAddr := bitsOf v 51 2 * 4 } }
  else s

/-- The present value of a 64-bit register of function 0. -/
def readPf64 (s : State) (off : Nat) : Word :=
  if off = 0x0000 then BitVec.ofNat 64 s.admin.base
  else if off = 0x0008 then BitVec.ofNat 64 (s.admin.log2n + bnat s.admin.en * 2 ^ 8)
  else if off = 0x0010 then BitVec.ofNat 64 s.admin.tailAddr
  else 0

/-- A register write to function 0 (R452). -/
def pfWrite (s : State) (off : Nat) (wide : Bool) (v : Word) : State :=
  let v32 := BitVec.ofNat 32 (bitsOf v 31 0)
  if wide then (if off % 8 = 0 then writePf64 (dropPfLow s off) off v else s)
  else if off = 0x0020 then { s with admin := { s.admin with vec := v32 &&& 0x800007FF } }
  else if off % 8 = 0 then { s with admin := { s.admin with lows := holdLow s.admin.lows off v32 } }
  else if off % 8 = 4 then
    let o := off - 4
    let lo := lowHalf s.admin.lows o (readPf64 s o)
    writePf64 (dropPfLow s o) o (BitVec.ofNat 64 (lo + v32.toNat * 2 ^ 32))
  else s

/-- REGISTER_WRITE (R307, R452). -/
def execRegisterWrite (s : State) : MOut :=
  .next (if !s.pkg.pcieUp then s
    else if s.ev.a = 0 then pfWrite s s.ev.k s.ev.flag s.ev.x0
    else if s.ev.a ≤ 28 then vfWrite s (s.ev.a - 1) s.ev.k s.ev.flag s.ev.x0
    else s)

end Sys2Proof.Machine
end

