-- ==== Sys2Proof/Machine/Admin.lean ====
section
/-! DEFINITION. The administrative function (R451 to R458): its queue and completions, and each command. Event arguments: `ev.p` is
PART, `ev.x0` to `ev.x5` are P0 to P5. -/

namespace Sys2Proof.Machine

/-! ## Completions -/

/-- What a command answers: the state, STATUS and RESULT (R453). -/
abbrev Answer := State × Nat × Word

/-- Statuses of R453. -/
def aOk : Nat := 0
def aBusy : Nat := 1
def aRange : Nat := 2
def aDenied : Nat := 3
def aNoslot : Nat := 4
def aPinned : Nat := 5
def aNoframe : Nat := 6
def aBadcmd : Nat := 7

/-- A command that changes something and ends OK with a result. -/
def done (s : State) (r : Nat) : Answer := (s, aOk, BitVec.ofNat 64 r)

/-- A command refused with a status: nothing changes. -/
def refuse (s : State) (st : Nat) : Answer := (s, st, 0)

/-- The completion record of a command (R453). -/
def completion (tag : BitVec 32) (st : Nat) (v : Word) : Nat := tag.toNat + st * 2 ^ 32 + v.toNat * 2 ^ 64

/-- Answer a command over MCTP (R455). -/
def answerMctp (s : State) (v : Nat) : State := { s with pkg := { s.pkg with mctpOut := BitVec.ofNat 128 v :: s.pkg.mctpOut } }

/-- Complete the command under way (R452, R453, R455): its record is written to the host, then the vector raised; a command that came
over MCTP is answered there. -/
def completeAdmin (r : Answer) : State :=
  let (s, st, v) := r
  let s1 := { s with admin := { s.admin with
    cur := none, mctp := false, status := st, result := v, st := if s.admin.st = 2 then 1 else s.admin.st
    doneAt := some (s.admin.doneAt.getD s.cyc) } }
  match s.admin.cur with
  | none => s1
  | some (tag, cpl) =>
    if s.admin.mctp then answerMctp s1 (completion tag st v)
    else
      let s2 := if cpl = 0 then s1 else putBytes s1 (hostPa cpl) 16 (completion tag st v)
      if s.admin.vec.getLsbD 31 then raiseIrq s2 0 (bitsOf s.admin.vec 10 0) else s2

/-- Parameter `n` of the command under way. -/
def param (s : State) (n : Nat) : Word := [s.ev.x0, s.ev.x1, s.ev.x2, s.ev.x3, s.ev.x4, s.ev.x5].getD n 0

/-- Run a command that uses `n` parameters (R453): DENIED in recovery, BADCMD where an unused one is not zero. -/
def command (s : State) (n : Nat) (f : State → Answer) : State :=
  completeAdmin (
    if s.pkg.recovery then refuse s aDenied
    else if (List.range (6 - n)).any fun k => param s (n + k) ≠ 0 then refuse s aBadcmd
    else f s)

/-- Run a command that names a partition (R453, R456): RANGE beyond 27, DENIED where it does not exist. -/
def partCommand (s : State) (n : Nat) (f : State → Nat → Answer) : State :=
  command s n fun s =>
    if s.ev.p ≥ 28 then refuse s aRange
    else if !(partAt s s.ev.p).alive then refuse s aDenied
    else f s s.ev.p

/-! ## The queue -/

/-- The command an opcode names (R454). -/
def opcodeInstr (op : Nat) : Option Instr :=
  [Instr.partCreate, .partArrays, .partDissolve, .ptroot, .invalidate, .keyLoad, .keyAssign, .shares, .queueAssign, .waymask,
   .netReserve, .hbmReserve, .channels, .clockLock, .redwin, .migtable, .migrate, .quota, .readrec, .monitor, .savepool, .tileAlloc,
   .tileFree, .preempt, .power, .freeze, .debugUnlock][op - 1]?.filter fun _ => op ≠ 0

/-- Fields of a command entry (R453). -/
def cmdOpcode (e : BitVec 512) : Nat := bitsOf e 7 0
def cmdCpl (e : BitVec 512) : Nat := bitsOf e 511 448

/-- Whether an entry completes BADCMD before its command is looked at (R453). -/
def cmdBad (e : BitVec 512) : Bool := bitsOf e 15 8 ≠ 0 || bitsOf e 31 24 ≠ 0 || (opcodeInstr (cmdOpcode e)).isNone

/-- The next entry becomes the command under way: its fields become the arguments of its event. The queue is BUSY with a command it
reads itself, unless it is DISABLED or in ERROR (R452). -/
def loadCommand (s : State) : State :=
  match s.admin.fetched with
  | [] => s
  | m :: t =>
    let e := m.e
    let x (k : Nat) : Word := BitVec.ofNat 64 (bitsOf e (127 + 64 * k) (64 + 64 * k))
    { s with
      admin := { s.admin with
        fetched := t, cur := some (BitVec.ofNat 32 (bitsOf e 63 32), cmdCpl e), mctp := m.mctp
        st := if s.admin.st = 1 && !m.mctp then 2 else s.admin.st }
      ev := { p := bitsOf e 23 16, x0 := x 0, x1 := x 1, x2 := x 2, x3 := x 3, x4 := x 4, x5 := x 5 } }

/-- Read the ring's entries from AQHEAD to a tail (R452). -/
def readRing (s : State) : Nat → State
  | 0 => s
  | n + 1 =>
    let x := s.admin
    let e := BitVec.ofNat 512 (getBytes s (hostPa (x.base + 64 * (x.head.toNat % 2 ^ x.log2n))) 64)
    readRing { s with admin := { x with head := x.head + 1, fetched := x.fetched ++ [{ e := e }] } } n

/-- The device reads the tail word, and the entries it makes valid; another tail is an ERROR (R452). -/
def pollTail (s : State) : State :=
  let x := s.admin
  if !x.en || x.st = 3 then s
  else
    let d := (BitVec.ofNat 32 (getBytes s (hostPa x.tailAddr) 4) - x.head).toNat
    let s1 := { s with admin := { x with polled := s.cyc, doneAt := none } }
    if d ≤ 2 ^ x.log2n then readRing s1 d else { s1 with admin := { s1.admin with st := 3 } }

/-- AQ_TAIL_POLL (R452): a malformed entry accepted before is completed BADCMD, or DENIED in recovery (R455); else the tail is read. -/
def execAqTailPoll (s : State) : MOut :=
  .next (match s.admin.fetched with
    | m :: _ =>
      if cmdBad m.e && s.admin.cur.isNone then completeAdmin (refuse (loadCommand s) (if s.pkg.recovery then aDenied else aBadcmd))
      else pollTail s
    | [] => pollTail s)

/-! ## MCTP -/

/-- The entry that carries a command given by its event's arguments (R453). -/
def entryOf (op : Nat) (e : Ev) : BitVec 512 :=
  BitVec.ofNat 512 (op + e.p * 2 ^ 16 + ofBytes ([e.x0, e.x1, e.x2, e.x3, e.x4, e.x5].flatMap fun x => bytesOf 8 x.toNat) * 2 ^ 64)

/-- The opcode of a command (R454). -/
def opcodeOf (i : Instr) : Option Nat := (List.range 28).find? fun k => opcodeInstr k = some i

/-- Whether an entry is a well-formed FREEZE, which does not wait (R451); it has no parameters (R453, R454). -/
def isFreezeEntry (e : BitVec 512) : Bool := !cmdBad e && cmdOpcode e = 0x1A && bitsOf e 447 64 = 0

/-- The messages that have arrived join the commands in arrival order (R451, R455). -/
def acceptMctp (s : State) : State :=
  let l := s.mctp.filter fun m => m.1 ≤ s.cyc && !isFreezeEntry m.2
  if l.isEmpty then s
  else { s with
    mctp := s.mctp.filter fun m => !(m.1 ≤ s.cyc && !isFreezeEntry m.2)
    admin := { s.admin with fetched := s.admin.fetched ++ l.map fun m => { e := m.2, mctp := true } } }

/-! ## Partitions -/

/-- Whether some task of a partition is RUNNING. -/
def anyRunning (s : State) (p : Nat) : Bool := s.tasks.any fun t => t.part = p && t.st = .running

/-- Whether some task of a partition has no final status. -/
def anyLive (s : State) (p : Nat) : Bool :=
  s.tasks.any fun t => t.part = p && t.st ≠ .done && t.st ≠ .failed && t.st ≠ .cancelled

/-- Live partitions other than one. -/
def others (s : State) (p : Nat) : List Part := (below 28 fun q => q ≠ p && (partAt s q).alive).map (partAt s)

/-- Whether a mask of arrays may be a partition's: live arrays, none of another partition (R13). -/
def arraysFree (s : State) (p : Nat) (m : BitVec 28) : Bool := (others s p).all fun x => x.arrays &&& m = 0

/-- The lowest group-table entry in no partition's share (R456). -/
def freeGroup (s : State) (p : Nat) : Option Nat :=
  (List.range 256).find? fun g => (others s p).all fun x => g < x.gbase || x.gbase + x.gcount ≤ g

/-- Scoreboard entries given to other partitions. -/
def sbGiven (s : State) (p : Nat) : Nat := ((others s p).map (·.sbShare)).foldl (· + ·) 0

/-- PART_CREATE (R456). -/
def execPartCreate (s : State) : MOut :=
  .next (command s 1 fun s =>
    let p := s.ev.p
    if p ≥ 28 || bitsOf s.ev.x0 63 28 ≠ 0 then refuse s aRange
    else
      let m := BitVec.ofNat 28 (bitsOf s.ev.x0 27 0)
      if (partAt s p).alive || !arraysFree s p m || sbGiven s p ≥ 256 then refuse s aDenied
      else match freeGroup s p with
        | none => refuse s aDenied
        | some g =>
          done (modGroup (modPart s p fun _ => { alive := true, arrays := m, gbase := g, gcount := 1, sbShare := 1 }) g fun _ => {}) 0)

/-- The READY tasks of a partition that hold a placement outside its arrays lose it, so that no array of no partition runs a task (R13;
log 32). -/
def dropOutside (s : State) (p : Nat) : State :=
  (List.range s.tasks.length).foldl (fun s i => match taskAt s i with
    | none => s
    | some t =>
      let held := below 28 fun a => (arr s a).owner = some t.top
      if t.part = p && t.st = .ready && t.assigned && held.any (fun a => !(partAt s p).arrays.getLsbD a) then
        let s1 := if t.saved.isNone then unplaceBound s t else s
        modTask (held.foldl (fun s a => modArr s a fun x => { x with owner := none }) s1) i fun t => { t with assigned := false }
      else s) s

/-- PART_ARRAYS (R13): BUSY while a task of the partition is RUNNING. -/
def execPartArrays (s : State) : MOut :=
  .next (partCommand s 1 fun s p =>
    if bitsOf s.ev.x0 63 28 ≠ 0 then refuse s aRange
    else
      let m := BitVec.ofNat 28 (bitsOf s.ev.x0 27 0)
      if anyRunning s p then refuse s aBusy
      else if !arraysFree s p m then refuse s aDenied
      else done (dropOutside (modPart s p fun x => { x with arrays := m }) p) 0)

/-- What a partition held is free again: tiles, groups, queues, reservations, way masks, key slots, quotas (R456). -/
def dissolve (s : State) (p : Nat) : State :=
  let x := partAt s p
  let s1 := (s.tiles.filter fun e => e.2.part = p && e.2.st ≠ .free).foldl (fun s e => dropProgs (setTile s e.1 {}) e.1 none) s
  let s2 := (List.range x.gcount).foldl (fun s g => modGroup s (x.gbase + g) fun _ => {}) s1
  modPart { s2 with
    queues := s2.queues.filter fun e => e.2.owner ≠ some p
    netRes := s2.netRes.filter fun e => e.2.part ≠ p
    hbmRes := s2.hbmRes.filter fun e => e.2.part ≠ p
    waymask := s2.waymask.filter fun e => e.1 % 28 ≠ p
    keyOwner := s2.keyOwner.filter fun e => e.2 ≠ p + 1
    quotas := s2.quotas.filter fun e => e.1 % 28 ≠ p
    quarterOwner := s2.quarterOwner.filter fun e => e.2 ≠ some p
    migCount := s2.migCount.filter fun e => e.1 ≠ p
    pageKeys := s2.pageKeys.filter fun e => e.1 / 2 ^ 57 ≠ p } p fun _ => {}

/-- PART_DISSOLVE (R456). -/
def execPartDissolve (s : State) : MOut :=
  .next (partCommand s 0 fun s p => if anyLive s p then refuse s aBusy else done (dissolve s p) 0)

/-- PTROOT (R337). -/
def execPtroot (s : State) : MOut :=
  .next (partCommand s 1 fun s p =>
    if anyRunning s p then refuse s aBusy
    else if s.ev.x0.toNat ≥ 2 ^ 40 || memDie s.ev.x0.toNat ≥ 12 then refuse s aRange
    else done (modPart s p fun x => { x with ptroot := s.ev.x0.toNat }) 0)

/-- INVALIDATE (R348). -/
def execInvalidate (s : State) : MOut :=
  .next (partCommand s 2 fun s p =>
    if s.ev.x0.toNat ≥ 2 ^ 57 then refuse s aRange else done (invalidate s p s.ev.x0.toNat s.ev.x1.toNat) 0)

/-! ## Keys -/

/-- Leaves of a partition's tables, by level: `i` counts down the entries of the table at `t`. A leaf names its key slot whether or not
the slot is the partition's now (R358). -/
def leavesAt (s : State) (p : Nat) : Nat → Level → Nat → Nat → List Word
  | 0, _, _, _ => []
  | f + 1, l, t, n =>
    (List.range n).flatMap fun i =>
      let e := BitVec.ofNat 64 (readNat s.mem (t + 8 * i) 8)
      if badWords s (t + 8 * i) 2 || !pteV e || !pteForm l e then []
      else if !isTable e then [e]
        else match l with
          | .l0 => leavesAt s p f .l1 (pteFrame e) 4096
          | .l1 => leavesAt s p f .l2 (pteFrame e) 4096
          | .l2 => leavesAt s p f .l3 (pteFrame e) 64
          | .l3 => if pteSize e = 7 then [] else leavesAt s p f .l4 (pteFrame e) 64
          | _ => []

/-- Lines of device frames whose leaf names a key slot (R358). -/
def keyLines (s : State) (slot : Nat) : List Nat :=
  ((below 28 fun p => (partAt s p).alive).flatMap fun p => leavesAt s p 5 .l0 (partAt s p).ptroot 64).eraseDups.flatMap fun e =>
    if pteLoc e = 0 && pteKey e = slot then (List.range (leafBytes e / 192)).map fun k => ptePa e + 192 * k else []

/-- Whether an entry of the slices is that of a line, which it holds in plain text. -/
def inSlice (pa : Nat) (x : Nat × Nat × Nat × Bool) : Bool := x.1 = memDie pa && x.2.1 = pa % 2 ^ 36 / 192

/-- Lines that leaves still name under a slot stay in HBM as they were encrypted under its old key (R358): a line outside its slice reads
as what the new key decrypts of it; a clean one in its slice keeps its bytes until it leaves; a dirty one will be written back under the
new key. -/
def rekey (s : State) (slot : Nat) (old new : BitVec 512) : State :=
  if old = new then s
  else (keyLines s slot).foldl (fun s pa =>
    let now := readNat s.mem pa 192
    let swap (v : Nat) : Nat := lineDecrypt new (pa / 192) (lineEncrypt old (pa / 192) v)
    match s.slices.find? (inSlice pa) with
    | none => { s with mem := writeNat s.mem pa 192 (swap now) }
    | some x =>
      if x.2.2.2 then { s with hbm := tset 0 s.hbm pa (swap (tget 0 s.hbm pa)) }
      else
        let y := tget (now, now) s.stale pa
        { s with stale := tset (0, 0) s.stale pa (now, swap (if y.1 = now then y.2 else now)) }) s

/-- KEY_LOAD (R358). -/
def execKeyLoad (s : State) : MOut :=
  .next (command s 2 fun s =>
    let k := s.ev.x0.toNat
    if k = 0 || k ≥ Config.keySlots || s.ev.x1.toNat ≥ 2 ^ 50 then refuse s aRange
    else
      let new := BitVec.ofNat 512 (getBytes s (hostPa s.ev.x1.toNat) 64)
      let s1 := rekey s k (tget 0 s.keys k) new
      done { s1 with keys := tset 0 s1.keys k new } 0)

/-- KEY_ASSIGN (R358). -/
def execKeyAssign (s : State) : MOut :=
  .next (command s 1 fun s =>
    let k := s.ev.x0.toNat
    if k = 0 || k ≥ Config.keySlots || (s.ev.p ≥ 28 && s.ev.p ≠ 0xFF) then refuse s aRange
    else if s.ev.p = 0xFF then done { s with keyOwner := tset 0 s.keyOwner k 0 } 0
    else if !(partAt s s.ev.p).alive then refuse s aDenied
    else done { s with keyOwner := tset 0 s.keyOwner k (s.ev.p + 1) } 0)

/-! ## Shares and queues -/

/-- Whether two spans of numbers meet. -/
def spansMeet (b n c m : Nat) : Bool := n ≠ 0 && m ≠ 0 && b < c + m && c < b + n

/-- SHARES (R323, R360, R372). -/
def execShares (s : State) : MOut :=
  .next (partCommand s 1 fun s p =>
    let v := s.ev.x0
    let tb := bitsOf v 13 0
    let tn := bitsOf v 29 16
    let gb := bitsOf v 39 32
    let gn := bitsOf v 47 40
    let sb := bitsOf v 56 48
    if bitsOf v 15 14 ≠ 0 || bitsOf v 31 30 ≠ 0 || bitsOf v 63 57 ≠ 0 then refuse s aBadcmd
    else if s.tasks.any fun t => t.part = p && (t.st = .running || t.st = .preempted) then refuse s aBusy
    else if tb + tn > 2 ^ 14 || gn = 0 || gb + gn > 256 || sb = 0 || sb > 256 then refuse s aRange
    else if (others s p).any (fun x => spansMeet tb tn x.tbase x.tcount || spansMeet gb gn x.gbase x.gcount) || sbGiven s p + sb > 256 then
      refuse s aDenied
    else done (modPart s p fun x => { x with tbase := tb, tcount := tn, gbase := gb, gcount := gn, sbShare := sb }) 0)

/-- Queue `q` is assigned anew, or to no partition: it is as at reset, and no low half of its registers is held (R307; log 24). -/
def resetQueue (s : State) (q : Nat) (owner : Option Nat) : State :=
  let held (e : Nat × BitVec 32) : Bool := 0x1000 + 32 * q ≤ e.1 && e.1 < 0x1020 + 32 * q
  { s with
    queues := if owner.isSome then tset {} s.queues q { owner := owner } else tdel s.queues q
    parts := s.parts.map fun x => { x with lows := x.lows.filter fun e => !held e } }

/-- QUEUE_ASSIGN (R307): RESULT is the local queue number. -/
def execQueueAssign (s : State) : MOut :=
  .next (command s 1 fun s =>
    let q := s.ev.x0.toNat
    if q ≥ Config.queues || (s.ev.p ≥ 28 && s.ev.p ≠ 0xFF) then refuse s aRange
    else if s.ev.p = 0xFF then done (resetQueue s q none) 0
    else if !(partAt s s.ev.p).alive then refuse s aDenied
    else
      let s1 := if (queueAt s q).owner = some s.ev.p then s else resetQueue s q (some s.ev.p)
      done s1 ((ownQueues s1 s.ev.p).filter fun k => k < q).length)

/-- WAYMASK (R210): masks of different partitions do not overlap. -/
def execWaymask (s : State) : MOut :=
  .next (partCommand s 2 fun s p =>
    let m := s.ev.x0.toNat
    if m ≥ 12 || s.ev.x1.toNat ≥ 2 ^ 16 then refuse s aRange
    else
      let w : BitVec 16 := BitVec.ofNat 16 s.ev.x1.toNat
      if (below 28 fun q => q ≠ p).any fun q => tget (0 : BitVec 16) s.waymask (m * 28 + q) &&& w ≠ 0 then refuse s aDenied
      else done { s with waymask := tset 0 s.waymask (m * 28 + p) w } 0)

/-! ## Reservations -/

/-- Bits of a mask. -/
def maskBits (n v : Nat) : List Nat := below n fun k => v.testBit k

/-- The keys of the chains of first slot `x` on every port of a route and every plane of a mask (R375, R377). -/
def chainKeys (a d planes x : Nat) : List Nat :=
  (maskBits 16 planes).flatMap fun pl => (routePorts a d).map fun r => slotKey r.1 pl (x + r.2)

/-- The lowest first slots whose keys all meet a test, `n` of them (R377, R378). -/
def firstSlots (lim n : Nat) (ok : Nat → Bool) : Option (List Nat) :=
  let l := (below lim ok).take n
  if l.length = n then some l else none

/-- Whether Ochre may take an entry: a free one to reserve it, or one that the partition holds so to release it (R377). -/
def ochreTakes (rel : Bool) (want e : Slot) : Bool := if rel then { e with since := 0, prev := none } = want else !e.valid

/-- The next frame boundary of a frame of `n` cycles. -/
def nextFrame (s : State) (n : Nat) : Nat := (s.cyc / n + 1) * n

/-- An entry as Ochre writes it: reserved, or released, from cycle `c` on; a reservation released in this frame stands to its end also
where the entry is reserved anew (R377). -/
def ochreSet (s : State) (rel : Bool) (c : Nat) (want e : Slot) : Slot :=
  if !rel then
    { want with since := c, prev := if !e.valid && s.cyc < e.ends then some (e.part, e.phase, e.ends) else none }
  else if s.cyc < e.since then (match e.prev with
    | some (p, x, n) => if s.cyc < n then { part := p, phase := x, ends := n } else {}
    | none => {})
  else { want with valid := false, ends := c }

/-- Write a chain of entries. -/
def ochreWrite (s : State) (rel : Bool) (c : Nat) (want : Slot) (ks : List Nat) (t : Tab Slot) : Tab Slot :=
  ks.foldl (fun t k => tset ({} : Slot) t k (ochreSet s rel c want (tget ({} : Slot) t k))) t

/-- NET_RESERVE (R377). -/
def execNetReserve (s : State) : MOut :=
  .next (partCommand s 1 fun s p =>
    let v := s.ev.x0
    let die := bitsOf v 18 16
    let n := bitsOf v 30 24
    if v.getLsbD 19 || bitsOf v 63 33 ≠ 0 then refuse s aBadcmd
    else if n = 0 || n > 64 || bitsOf v 15 0 = 0 || die = s.pkg.harvested then refuse s aRange
    else
      let a := 4 * liveOf s die + bitsOf v 21 20
      let d := 4 * liveOf s die + bitsOf v 23 22
      let keys := chainKeys a d (bitsOf v 15 0)
      let want : Slot := { part := p, valid := true, phase := v.getLsbD 31 }
      let rel := v.getLsbD 32
      match firstSlots 64 n fun x => (keys x).all fun k => ochreTakes rel want (tget ({} : Slot) s.netRes k) with
      | none => refuse s aNoslot
      | some l =>
        done { s with netRes := ochreWrite s rel (nextFrame s 64) want (l.flatMap keys) s.netRes }
          (l.headD 0))

/-- HBM_RESERVE (R378): slots 62 and 63 are never reserved. -/
def execHbmReserve (s : State) : MOut :=
  .next (partCommand s 3 fun s p =>
    let m := s.ev.x0.toNat
    let n := bitsOf s.ev.x2 5 0
    if bitsOf s.ev.x2 7 6 ≠ 0 || bitsOf s.ev.x2 63 9 ≠ 0 then refuse s aBadcmd
    else if m ≥ 12 || s.ev.x1.toNat ≥ 2 ^ 32 || s.ev.x1 = 0 || n = 0 || n > 62 then refuse s aRange
    else
      let keys (x : Nat) : List Nat := (maskBits 32 s.ev.x1.toNat).map fun c => (m * 32 + c) * 64 + x
      let want : Slot := { part := p, valid := true }
      let rel := s.ev.x2.getLsbD 8
      match firstSlots 62 n fun x => (keys x).all fun k => ochreTakes rel want (tget ({} : Slot) s.hbmRes k) with
      | none => refuse s aNoslot
      | some l =>
        done { s with hbmRes := ochreWrite s rel (nextFrame s 192) want (l.flatMap keys) s.hbmRes }
          (l.headD 0))

/-- CHANNELS (R457): one to four channels, given to no other partition. -/
def execChannels (s : State) : MOut :=
  .next (partCommand s 1 fun s p =>
    let w : BitVec 16 := BitVec.ofNat 16 s.ev.x0.toNat
    if s.ev.x0.toNat ≥ 2 ^ 16 || popc w = 0 || popc w > 4 then refuse s aRange
    else if (others s p).any fun x => x.channels &&& w ≠ 0 then refuse s aDenied
    else done (modPart s p fun x => { x with channels := w }) 0)

/-! ## Clock locks -/

/-- The lock record of a partition (R458). -/
def lockRecord (x : Part) : Nat := x.lockDies.toNat + x.lockLapsed.toNat * 2 ^ 8 + x.lockFreq * 2 ^ 16

/-- Whether a lock on a die at a step may be held: none is held on it at another, by whatever partition (R458). -/
def lockOk (s : State) (d f : Nat) : Bool := s.parts.toList.all fun x => !x.lockDies.getLsbD d || x.lockFreq = f

/-- CLOCK_LOCK (R458): a die no partition has locked takes the step; a lock joined while it is lapsed is LAPSED too. Reserved and read-only
bits of the record are ignored (R2; log 35). -/
def execClockLock (s : State) : MOut :=
  .next (partCommand s 1 fun s p =>
    let v := s.ev.x0
    let dies := maskBits 8 (bitsOf v 7 0)
    let f := bitsOf v 23 16
    if f > 15 then refuse s aRange
    else if !dies.all fun d => lockOk s d f then refuse s aDenied
    else
      let old := (partAt s p).lockDies
      let moved := dies.filter fun d => !old.getLsbD d && !(others s p).any fun x => x.lockDies.getLsbD d
      let joined := dies.filter fun d => !old.getLsbD d && !moved.contains d && vget 0 s.pkg.steps d ≠ f
      let s1 := modPart s p fun x =>
        { x with lockDies := BitVec.ofNat 8 (bitsOf v 7 0), lockFreq := f, lockLapsed := joined.foldl (fun b d => setBit b d true) (x.lockLapsed &&& BitVec.ofNat 8 (bitsOf v 7 0)) }
      let s2 := { s1 with pkg := { s1.pkg with steps := moved.foldl (fun t d => vset t d f) s1.pkg.steps } }
      done s2 (lockRecord (partAt s2 p)))

/-! ## Windows, migration, quotas -/

/-- REDWIN (R270): the descriptor is read from the host; VALID 0 removes the window. -/
def execRedwin (s : State) : MOut :=
  .next (partCommand s 2 fun s p =>
    let i := s.ev.x0.toNat
    let d := BitVec.ofNat 256 (getBytes s (hostPa s.ev.x1.toNat) 32)
    if i ≥ 16 || s.ev.x1.toNat ≥ 2 ^ 50 then refuse s aRange
    else if anyRunning s p then refuse s aBusy
    else if !d.getLsbD 63 then done (modPart s p fun x => { x with redwin := vset x.redwin i 0 }) 0
    else if bitsOf d 62 52 ≠ 0 || bitsOf d 127 112 ≠ 0 || bitsOf d 255 192 ≠ 0 then refuse s aBadcmd
    else if bitsOf d 51 0 % 192 ≠ 0 || bitsOf d 95 64 = 0 || bitsOf d 95 64 > 2 ^ 20 then refuse s aRange
    else done (modPart s p fun x => { x with redwin := vset x.redwin i d }) 0)

/-- MIGTABLE (R355, R356): the pool's frames are 48 KiB each, from its base on (log 37). -/
def execMigtable (s : State) : MOut :=
  .next (partCommand s 5 fun s p =>
    let thr := bitsOf s.ev.x2 15 0
    if bitsOf s.ev.x2 63 16 ≠ 0 then refuse s aBadcmd
    else if thr = 0 || s.ev.x0.toNat ≥ 2 ^ 40 || s.ev.x1.toNat ≥ 2 ^ 32 || s.ev.x3.toNat ≥ 2 ^ 40
        || s.ev.x4.toNat ≥ 2 ^ 32 then refuse s aRange
    else done (modPart s p fun x =>
      { x with mtbase := s.ev.x0.toNat, mtcount := s.ev.x1.toNat, mthr := thr, mpool := s.ev.x3.toNat, mframes := s.ev.x4.toNat
               mfree := (List.range s.ev.x4.toNat).map fun k => s.ev.x3.toNat + 49152 * k }) 0)

/-- The first run of free frames that holds a page of `n` bytes at a multiple of its size within a die. -/
def takeFrame (l : List Nat) (n : Nat) : Option Nat :=
  l.find? fun b => b % 2 ^ 36 % n = 0 && (List.range (n / 49152)).all fun k => l.contains (b + 49152 * k)

/-- Frames of a page of `n` bytes at `b`. -/
def framesOf (b n : Nat) : List Nat := (List.range (n / 49152)).map fun k => b + 49152 * k

/-- Move the bytes of a frame, with their marks (R357 step 3): they are written to the new frame's HBM, whose slice no longer holds its
lines, nor what they held before (log 38). -/
def moveFrame (s : State) (old new n : Nat) : State :=
  let inOld (a : Nat) : Bool := old ≤ a && a < old + n
  let inNew (a : Nat) : Bool := new ≤ a && a < new + n
  let shift {V : Type} (t : Tab V) : Tab V :=
    (t.filter fun e => inOld e.1).foldl (fun m e => tins (e.1 - old + new) e.2 m) (t.filter fun e => !inNew e.1)
  { s with
    mem := shift s.mem, poison := shift s.poison, ecc := shift s.ecc
    slices := s.slices.filter fun e => !inNew (e.1 * 2 ^ 36 + 192 * e.2.1)
    stale := s.stale.filter fun e => !inNew e.1
    hbm := s.hbm.filter fun e => !inNew e.1 }

/-- A leaf as a move leaves it on this chip: the frame at a physical address, present; a peer leaf names no key, and a frame of this
chip is encrypted under the page's key slot (R338, R341, R357 steps 3 and 4). -/
def movedLeaf (e : Word) (pa key : Nat) : Word :=
  let loc := pa / 2 ^ 50
  setBits (setBits (setBits (setBit e 1 true) 19 18 loc) 17 8 (if loc = 0 then key else 0)) 60 23 (pa % 2 ^ 50 / 4096)

/-- The key slot of a page that moves: the one its leaf names here, or the one it had when it left; where this chip never held the page,
`other` (log 37). -/
def pageKey (s : State) (p base : Nat) (e : Word) (other : Nat) : Nat :=
  if pteLoc e = 0 then pteKey e else match s.pageKeys.find? fun x => x.1 = p * 2 ^ 57 + base with
    | some x => x.2
    | none => other

/-- Remember the key slot of a page. -/
def keepKey (s : State) (p base key : Nat) : State := { s with pageKeys := tset 0 s.pageKeys (p * 2 ^ 57 + base) key }

/-- The pool of a partition's free frames after a page of `n` bytes has moved between two frames: a frame of this chip leaves it, and one
goes back to it (R357 step 4). -/
def movePool (s : State) (p old new n : Nat) : State :=
  modPart s p fun x => { x with
    mfree := (x.mfree.filter fun b => !(framesOf new n).contains b) ++ (if old < 2 ^ 50 then framesOf old n else []) }

/-- The frame a page of `n` bytes gets on a chip: of this chip's pool, or what another chip's pool gives (R356). -/
def targetFrame (s : State) (p c n : Nat) : State × Option Nat :=
  if c = s.pkg.chipId then (s, takeFrame (partAt s p).mfree n)
  else
    let (k, s1) := drawFree s
    (s1, (Config.peerFrame k).map fun f => 2 ^ 50 + c * 2 ^ 40 + f / 2 ^ 36 % 12 * 2 ^ 36 + (f % 2 ^ 36 - f % 2 ^ 36 % n))

/-- Move a page of a partition to a chip, as one step (R356, R357): the state, or the status that refuses it. -/
def movePage (s : State) (p va c : Nat) : Except Nat State :=
  match walk s p (BitVec.ofNat 64 va) with
  | .fail _ _ => .error aDenied
  | .leaf e at_ _ =>
    let n := leafBytes e
    let base := pageBase va n
    match migEntry s p base with
    | none => .error aDenied
    | some (ea, w0, w1) =>
      let passed := migPassed s w1
      if pteLoc e ≥ 2 then .error aDenied
      else if bitsOf w1 5 0 = c then .ok s
      else if bitsOf w1 8 6 ≥ 4 && !passed then .error aPinned
      else if pteSealed e || inWindow s p (ptePa e) n then .error aDenied
      else
        let (s0, f) := targetFrame s p c n
        match f with
        | none => .error aNoframe
        | some new =>
          let old := ptePa e
          let (d, sk) := drawFree s0
          let key := pageKey sk p base e (Config.peerKey d).toNat
          let s1 := flushFrame (invalRange (migMeet (walkTouch sk p (BitVec.ofNat 64 va)) p base) p base (base + n)) p old n
          let s2 := keepKey (moveFrame s1 old new n) p base key
          let s3 := homeBytes s2 p at_ 8 (movedLeaf e new key).toNat
          let moves := if passed then 1 else bitsOf w1 8 6 + 1
          let wend := if passed then (migNow s + 375000) % 2 ^ 32 else bitsOf w1 63 32
          let s4 := homeBytes s3 p ea 16 (w0.toNat + 2 ^ 64 * (setBits (setBits (setBits w1 5 0 c) 9 6 moves) 63 32 wend).toNat)
          .ok (movePool s4 p old new n)

/-- MIGRATE (R356). -/
def execMigrate (s : State) : MOut :=
  .next (partCommand s 2 fun s p =>
    if s.ev.x0.toNat ≥ 2 ^ 57 || s.ev.x1.toNat ≥ 64 then refuse s aRange
    else match movePage s p s.ev.x0.toNat s.ev.x1.toNat with
      | .error st => refuse s st
      | .ok s1 => done s1 0)

/-- Accesses to a page from a chip within the last 2^20 cycles (R356). -/
def peerLines (s : State) (p page c : Nat) : Nat :=
  s.migCount.foldl (fun n e => if e.1 = p && e.2.1 = page && e.2.2.1 = c && s.cyc - e.2.2.2.2 < 2 ^ 20 then n + e.2.2.2.1 else n) 0

/-- A page whose accesses from a chip within 2^20 cycles have reached its partition's threshold, where it allows automatic moves and is
held here, once no accumulate to it is still to be accepted (R260, R356). -/
def triggerDue (s : State) : Option (Nat × Nat × Nat) :=
  (s.migCount.find? fun e =>
    let (p, page, c, _, _) := e
    peerLines s p page c ≥ (partAt s p).mthr && (partAt s p).mthr ≠ 0 && !invalWaits s p page 1 && (match migEntry s p page with
      | some (_, w0, w1) => w0.getLsbD 57 && bitsOf w1 5 0 = s.pkg.chipId
      | none => false)).map fun e => (e.1, e.2.1, e.2.2.1)

/-- MIGRATION_TRIGGER (R356): an automatic move starts, or is dropped where it is not permitted; its count begins anew. -/
def execMigrationTrigger (s : State) : MOut :=
  .next (match triggerDue s with
    | none => s
    | some (p, page, c) =>
      let s1 := { s with migCount := s.migCount.filter fun e => !(e.1 = p && e.2.1 = page && e.2.2.1 = c) }
      match movePage s1 p page c with
      | .error _ => s1
      | .ok s2 => s2)

/-- The first 64 bits of a quota record (R423). -/
def quotaWord (q : Quota) : Nat := q.qlim + q.refcnt.toNat * 2 ^ 32

/-- QUOTA (R423): a QLIM outside 1 to 1,024 is ignored, as the reserved bits of the record are (R2; log 35); the written quota governs from the next window. -/
def execQuota (s : State) : MOut :=
  .next (partCommand s 2 fun s p =>
    let m := s.ev.x0.toNat
    if m ≥ 12 then refuse s aRange
    else
      let l := bitsOf s.ev.x1 10 0
      let q := quotaAt s m p
      let s1 := setQuota s m p { q with qlim := if 1 ≤ l && l ≤ 1024 then l else q.qlim, refcnt := BitVec.ofNat 32 (bitsOf s.ev.x1 63 32) }
      done s1 (quotaWord (quotaAt s1 m p)))

/-! ## Records -/

/-- Whether an error record exists: seven classes of each of the seven live dies, two of each memory die (R6, R424; log 36). -/
def unitOk (u : Nat) : Bool := (u < 56 && u % 8 ≠ 7) || (64 ≤ u && u < 88)

/-- A record READREC reads: its bytes and its value, and the state once it is cleared (R454): of a quota record the counters that a write
sets, REFCNT and MACNT (R423; log 35). -/
def readRecordOf (s : State) (p kind u : Nat) : Option (Nat × Nat × State) :=
  match kind with
  | 0 => if u ≥ 12 then none else
      let q := quotaAt s u p
      some (16, quotaWord q + q.macnt.toNat * 2 ^ 64, setQuota s u p { q with refcnt := 0, macnt := 0 })
  | 1 => if u ≥ 12 then none else
      some (56, (List.range 28).foldl (fun v a => v + tget 0 s.acnt (acntKey u a) * 2 ^ (16 * a)) 0, s)
  | 2 => if u < 12 then some (1, (tget (0 : BitVec 6) s.homeFlags (u * 28 + p)).toNat, { s with homeFlags := tset 0 s.homeFlags (u * 28 + p) 0 })
      else if u < 20 && u - 12 ≠ s.pkg.harvested then
        let k := liveOf s (u - 12) * 28 + p
        some (1, (tget (0 : BitVec 6) s.bankFlags k).toNat, { s with bankFlags := tset 0 s.bankFlags k 0 })
      else none
  | 3 => if !unitOk u then none else
      let e := tget ((0 : BitVec 32), (0 : BitVec 32)) s.errs u
      some (8, e.1.toNat + e.2.toNat * 2 ^ 32, { s with errs := tdel s.errs u })
  | 4 => some (8, lockRecord (partAt s p), s)
  | 5 => if u ≥ 2 ^ 14 then none else some (24, tileEntry (tileAt s u), s)
  | _ => none

/-- READREC (R454): the record goes to the host; reading a lock record clears LAPSED (R458). -/
def execReadrec (s : State) : MOut :=
  .next (command s 4 fun s =>
    let kind := s.ev.x0.toNat
    let p := s.ev.p
    if bitsOf s.ev.x3 63 1 ≠ 0 then refuse s aBadcmd
    else if s.ev.x2.toNat ≥ 2 ^ 50 || (p ≥ 28 && (kind = 0 || kind = 2 || kind = 4)) then refuse s aRange
    else match readRecordOf s p kind s.ev.x1.toNat with
      | none => refuse s aRange
      | some (n, v, cleared) =>
        let s1 := if kind = 4 then modPart s p fun x => { x with lockLapsed := 0 }
          else if s.ev.x3.getLsbD 0 then cleared else s
        done (putBytes s1 (hostPa s.ev.x2.toNat) n v) n)

/-! ## Monitor, save pool, tiles -/

/-- MONITOR (R430). -/
def execMonitor (s : State) : MOut :=
  .next (partCommand s 3 fun s p =>
    if bitsOf s.ev.x0 63 1 ≠ 0 then refuse s aBadcmd
    else if anyRunning s p then refuse s aBusy
    else if s.ev.x1.toNat ≥ 2 ^ 57 || s.ev.x2.toNat ≥ 2 ^ 57 || s.ev.x2.toNat % 128 ≠ 0
        || (match walk s p s.ev.x1 with
            | .leaf e _ _ => (s.ev.x1.toNat - pageBase s.ev.x1.toNat (leafBytes e)) % 24 ≠ 0
            | .fail _ _ => false) then refuse s aRange
    else done (modPart s p fun x => { x with men := s.ev.x0.getLsbD 0, mentry := s.ev.x1, mrbase := s.ev.x2 }) 0)

/-- SAVEPOOL (R443). -/
def execSavepool (s : State) : MOut :=
  .next (partCommand s 3 fun s p =>
    if s.ev.x0.toNat ≥ 2 ^ 40 || memDie s.ev.x0.toNat ≥ 12 then refuse s aRange
    else done (modPart s p fun x => { x with spbase := s.ev.x0.toNat, spcount := s.ev.x1.toNat, spsize := s.ev.x2.toNat }) 0)

/-- The tile TILE_ALLOC describes: its home, or its chain position where it is unplaced; PERSIST is 1 (R70, R361, R362). P1 gives the
position and the quarter, and those of the descriptor are not read (DEDUCED, log 58). -/
def adminTile (s : State) (p : Nat) (v w : Word) : Except Nat Tile :=
  let (t, _, _) := descTile v
  let unplaced := w.getLsbD 0
  let a := bitsOf w 12 8
  if bitsOf v 63 50 ≠ 0 || bitsOf w 3 1 ≠ 0 || w.getLsbD 7 || bitsOf w 15 13 ≠ 0 || bitsOf w 63 18 ≠ 0 then .error aBadcmd
  else if !descOk t || (t.level = 0 && !unplaced) || (!unplaced && a ≥ 28) then .error aRange
  else
    let x := { t with part := p, persist := true }
    if unplaced then .ok { x with homeArr := if t.level = 0 then 0 else bitsOf w 6 4 }
    else
      let home := if t.level = 2 then a / 4 * 4 + bitsOf w 17 16 else a
      if t.level = 1 && !(partAt s p).arrays.getLsbD a then .error aDenied
      else if t.level = 2 && quarterPart s home ≠ some p then .error aDenied
      else match lowestFit s { x with homeArr := home } with
        | none => .error aDenied
        | some b => .ok { x with homeArr := home, base := b, placed := true }

/-- TILE_ALLOC (R70, R362): RESULT is the tile number. -/
def execTileAlloc (s : State) : MOut :=
  .next (partCommand s 2 fun s p =>
    match adminTile s p s.ev.x0 s.ev.x1 with
    | .error st => refuse s st
    | .ok t => match freeEntry s p with
      | none => refuse s aDenied
      | some n =>
        let t1 := { t with version := (tileAt s n).version }
        done (if t.placed then placeTile s n t1 [] else setTile s n t1) n)

/-- TILE_FREE (R361). -/
def execTileFree (s : State) : MOut :=
  .next (partCommand s 1 fun s p =>
    let n := s.ev.x0.toNat
    if n ≥ 2 ^ 14 then refuse s aRange
    else if (tileAt s n).st ≠ .live || (tileAt s n).part ≠ p then refuse s aDenied
    else done (sweepTiles (freeTile s n)) 0)

/-- PREEMPT (R30): the journal sequence number of a RUNNING task. -/
def execPreempt (s : State) : MOut :=
  .next (partCommand s 1 fun s p =>
    match (List.range s.tasks.length).find? fun i => match taskAt s i with
        | some t => t.part = p && t.jseq = s.ev.x0.toNat && t.st = .running
        | none => false with
    | none => refuse s aRange
    | some i => done (requestPreempt s i) 0)

/-! ## Power and debug -/

/-- POWER (R459). -/
def execPower (s : State) : MOut :=
  .next (command s 1 fun s =>
    let w := s.ev.x0.toNat
    if w < 1600 || w > 3200 || w % 50 ≠ 0 then refuse s aRange else done { s with pkg := { s.pkg with limit := w } } 0)

/-- Stop every clock of the package (R463), if debug is unlocked (R464). -/
def freezePackage (s : State) : State := if s.pkg.debugUnlocked then { s with pkg := { s.pkg with frozen := true } } else s

/-- FREEZE (R454, R463, R464): over MCTP only, whatever command is under way; BADCMD with a parameter, DENIED on the queue and while debug
is locked. `ev.flag` marks a message, and `ev.k` is its TAG. -/
def execFreeze (s : State) : MOut :=
  .next (if s.admin.cur.isSome && !s.ev.flag then command s 0 fun s => refuse s aDenied
    else if (List.range 6).any fun k => param s k ≠ 0 then
      answerMctp { s with admin := { s.admin with status := aBadcmd, result := 0 } } (completion (BitVec.ofNat 32 s.ev.k) aBadcmd 0)
    else if s.pkg.debugUnlocked then freezePackage s
    else answerMctp { s with admin := { s.admin with status := aDenied, result := 0 } }
      (completion (BitVec.ofNat 32 s.ev.k) aDenied 0))

/-- FRZ_N driven low (R463, R464). -/
def execFrzN (s : State) : MOut := .next (freezePackage s)

/-- DEBUG_UNLOCK (R464): the token must verify; the unlock is recorded in the measurements. -/
def execDebugUnlock (s : State) : MOut :=
  .next (command s 2 fun s =>
    if s.ev.x0.toNat ≥ 2 ^ 50 then refuse s aRange
    else
      let (n, s1) := drawFree s
      if Config.tokenValid n then done { s1 with pkg := { s1.pkg with debugUnlocked := true, unlockRecorded := true } } 0
      else refuse s1 aDenied)

end Sys2Proof.Machine
end

