-- ==== Sys2Proof/Machine/Outside.lean ====
section
/-! DEFINITION. What the outside does to the package (R142, R242, R274, R356, R424, R449, R450, R459 to R464): the host's and peers'
requests, resets, bring-up, identity, power and errors. Event arguments stand in `ev`, as each definition says. -/

namespace Sys2Proof.Machine

/-! ## The host -/

/-- Whether `n` bytes of device memory lie at an address as a host atomic needs (R449). -/
def hostWordOk (s : State) (pa n : Nat) : Bool :=
  s.pkg.pcieUp && isDevice pa && pa < 2 ^ 40 && memDie pa < 12 && (n = 4 || n = 8) && pa % n = 0

/-- A completion goes to the host (R449). -/
def completeHost (s : State) (v : Option Nat) : State := { s with pkg := { s.pkg with hostOut := v :: s.pkg.hostOut } }

/-- A host AtomicOp of `ev.q` bytes at device address `ev.k` for the function of partition `ev.p`: it completes with the old value. Other
widths complete as Unsupported Request and change nothing (R449); so do other addresses (log 21). -/
def hostRmw (s : State) (f : Nat → Option Nat) : State :=
  if !s.pkg.pcieUp then s
  else if hostWordOk s s.ev.k s.ev.q then
    let (s1, old, _, _) := rmw s s.ev.k s.ev.p s.ev.q fun old => (f old, 0)
    completeHost s1 (some old)
  else completeHost s none

/-- HOST_FETCHADD: adds `ev.x0`. -/
def execHostFetchadd (s : State) : MOut :=
  .next (hostRmw s fun old => some ((old + s.ev.x0.toNat) % 2 ^ (8 * s.ev.q)))

/-- HOST_SWAP: stores `ev.x0`. -/
def execHostSwap (s : State) : MOut := .next (hostRmw s fun _ => some (s.ev.x0.toNat % 2 ^ (8 * s.ev.q)))

/-- HOST_CAS: stores `ev.x1` where the word equals `ev.x0`. -/
def execHostCas (s : State) : MOut :=
  .next (hostRmw s fun old =>
    if old = s.ev.x0.toNat % 2 ^ (8 * s.ev.q) then some (s.ev.x1.toNat % 2 ^ (8 * s.ev.q)) else none)

/-- HOST_WRITE (R242): the low `ev.q` bytes, at most 64, of `ev.data` at physical address `ev.k`: device memory over the link, or the
host's own memory. -/
def execHostWrite (s : State) : MOut :=
  .next (
    let n := Nat.min 64 s.ev.q
    let a := s.ev.k
    if a + n ≤ 2 ^ 40 then
      (if s.pkg.pcieUp && memDie a < 12 then homeBytes s s.ev.p a n s.ev.data.toNat else s)
    else if 2 * 2 ^ 50 ≤ a && a + n ≤ 3 * 2 ^ 50 then putBytes s a n s.ev.data.toNat
    else s)

/-! ## Peer chips -/

/-- The migratable page of a partition whose frame holds a physical address (R355). -/
def pageOfPa (s : State) (p pa : Nat) : Option Nat :=
  (List.range (partAt s p).mtcount).findSome? fun i =>
    let w := BitVec.ofNat 64 (getBytes s ((partAt s p).mtbase + 16 * i) 8)
    if !w.getLsbD 58 then none
    else match walk s p (BitVec.ofNat 64 (bitsOf w 56 0)) with
      | .leaf e _ _ => if ptePa e ≤ pa && pa < ptePa e + leafBytes e then some (bitsOf w 56 0) else none
      | .fail _ _ => none

/-- Count an access of a chip to a migratable page, one line, at its cycle; accesses 2^20 cycles old count no more (R356). -/
def countPeer (s : State) (p pa chip : Nat) : State :=
  match pageOfPa s p pa with
  | none => s
  | some page =>
    let same (e : Nat × Nat × Nat × Nat × Nat) : Bool := e.1 = p && e.2.1 = page && e.2.2.1 = chip && e.2.2.2.2 = s.cyc
    let rest := s.migCount.filter fun e => !same e && s.cyc - e.2.2.2.2 < 2 ^ 20
    let n := match s.migCount.find? same with
      | some e => e.2.2.2.1
      | none => 0
    { s with migCount := (p, page, chip, n + 1, s.cyc) :: rest }

/-- Another chip's move of a page reaches this one (R357): its old translation is dropped, its frame is copied, its leaf and table entry
are written, and its old frame goes back to its pool: virtual base `va`, the new home, the frame as this chip sees it, MOVES, the time
left and the page's key slot there. -/
def migrationUpdate (s : State) (p va home pa moves left key : Nat) : State :=
  match walkAny s p (BitVec.ofNat 64 va) with
  | .fail _ _ => s
  | .leaf e at_ _ =>
    let n := leafBytes e
    let base := pageBase va n
    match migEntry s p base with
    | none => s
    | some (ea, w0, w1) =>
      let old := ptePa e
      let k := if pteLoc e = 0 then pteKey e else key
      let s1 := moveFrame (flushFrame (invalRange (migMeet (walkTouch s p (BitVec.ofNat 64 va)) p base) p base (base + n)) p old n) old pa n
      let s2 := keepKey (homeBytes s1 p at_ 8 (movedLeaf e pa k).toNat) p base k
      let w := setBits (setBits (setBits w1 5 0 home) 9 6 moves) 63 32 ((migNow s + left) % 2 ^ 32)
      movePool (homeBytes s2 p ea 16 (w0.toNat + 2 ^ 64 * w.toNat)) p old pa n

/-- A peer's access at this chip's home (R274): kind 0 load, 1 store, 2 AMO, 3 CAS, 4 accumulate, which is never refused, 5 migration
update. -/
def peerRequest (s : State) (kind p pa n chip : Nat) : State :=
  let v := s.ev.x0.toNat
  let ok := isDevice pa && pa < 2 ^ 40 && memDie pa < 12
  match kind with
  | 0 => if ok then countPeer (touchAll (markPoison s pa n) p [pa, pa + (n - 1)] false) p pa chip else s
  | 1 => if ok then countPeer (homeBytes s p pa (Nat.min 64 n) s.ev.data.toNat) p pa chip else s
  | 2 => if ok && (n = 4 || n = 8) then
      countPeer (rmw s pa p n fun old =>
        let (x, fl) := amoNew s.ev.x2.toNat (8 * n) old (v % 2 ^ (8 * n))
        (some x, fl)).1 p pa chip else s
  | 3 => if ok && (n = 4 || n = 8) then
      countPeer (rmw s pa p n fun old =>
        (if old = s.ev.x1.toNat % 2 ^ (8 * n) then some (v % 2 ^ (8 * n)) else none, 0)).1 p pa chip else s
  | 4 => if ok then
      let (s1, _, _, bad) := rmw s pa p (accBytes s.ev.x2.toNat false) fun old =>
        let (x, fl) := accNew s.ev.x2.toNat false old v
        (some x, fl)
      countPeer (if bad then { s1 with homeLog := s1.homeLog ++ [(memDie pa, p, pa)] } else s1) p pa chip else s
  | _ => migrationUpdate s p v s.ev.x1.toNat s.ev.x2.toNat s.ev.x3.toNat s.ev.x4.toNat (bitsOf s.ev.data 9 0)

/-- PEER_REQUEST: kind `ev.q`, partition `ev.p`, address `ev.k`, bytes `ev.a`, sending chip `ev.x5`, value `ev.x0` or `ev.data`. -/
def execPeerRequest (s : State) : MOut :=
  .next (if !rhodiGone s s.ev.x5.toNat then peerRequest s s.ev.q s.ev.p s.ev.k s.ev.a s.ev.x5.toNat else s)

/-! ## Errors -/

/-- The array whose pad or cells hold a byte address (R196). -/
def arrOfByte (k : Nat) : Option Nat :=
  if k < onChip then none
  else
    let o := k - onChip
    if o < 2 ^ 30 then some (o / 2 ^ 23) else if o < 2 ^ 31 then none else some ((o - 2 ^ 31) / 2 ^ 24)

/-- Whether the ECC word of a byte address exists on this chip (R6). -/
def eccHere (k : Nat) : Bool :=
  if k < onChip then k < 2 ^ 40 && memDie k < 12
  else
    let o := k - onChip
    if o < 2 ^ 30 then o / 2 ^ 23 < 28 else if o < 2 ^ 31 then (o - 2 ^ 30) / 2 ^ 25 < 7 else (o - 2 ^ 31) / 2 ^ 24 < 28

/-- Count a corrected error of a unit, and for the placement that holds the array it lies in (R424, R426). -/
def countCorrected (s : State) (u : Nat) (a : Option Nat) : State :=
  let s1 := countErr s u false
  match a.bind fun a => (arr s1 a).owner with
  | none => s1
  | some top => pmcAdd s1 top 0x15 1

/-- ECC_ERROR (R142, R211, R424): `ev.q` 0, a memory word at byte address `ev.k`; 1, a lane of a cell register, by its key; 3, such a lane,
which comes to carry a poison mark (R194; log 53); else a word of a unit `ev.k` that holds copies only, of array `ev.a`. With `ev.flag` it
is uncorrectable, and is met by the next reader; else it is corrected and counted. A unit the package does not have has no errors (R6). -/
def execEccError (s : State) : MOut :=
  .next (match s.ev.q with
    | 0 =>
      if !eccHere s.ev.k then s
      else if !s.ev.flag then countCorrected s (errUnit s.ev.k) (arrOfByte s.ev.k)
      else { s with ecc := tset false s.ecc (eccWord s.ev.k) true }
    | 1 =>
      if s.ev.k / 2048 / 1024 ≥ 28 then s
      else if s.ev.flag then { s with cellEcc := tset false s.cellEcc s.ev.k true }
      else countCorrected s (s.ev.k / 2048 / 4096 * 8) (some (s.ev.k / 2048 / 1024))
    | 3 => if s.ev.k / 2048 / 1024 ≥ 28 || !s.ev.flag then s else { s with cellPoison := tset false s.cellPoison s.ev.k true }
    | _ => if !unitOk s.ev.k then s else if s.ev.flag then countErr s s.ev.k true else countCorrected s s.ev.k (if s.ev.k < 64 then some s.ev.a else none))

/-! ## Resets and bring-up -/

/-- Cancel or fail every task of a partition, as a reset of its function does (R450). -/
def endTasks (s : State) (p : Nat) : State :=
  (List.range s.tasks.length).foldl (fun s i => match taskAt s i with
    | some t => if t.part ≠ p then s
      else match t.st with
        | .running => failRunning (withdrawHeld s t.top) i 0
        | .preempted => failSaved s i .failed jFailed
        | .queued | .ready => cancelSeq s p t.jseq
        | _ => s
    | none => s) s

/-- The registers of R307 of a function at their reset values. -/
def clearVf (s : State) (p : Nat) : State :=
  modPart { s with queues := s.queues.map fun e => if e.2.owner = some p then (e.1, { owner := some p }) else e } p fun x =>
    { x with jbase := 0, jtail := 0, jhead := 0, lows := [], dlq := [] }

/-- FLR (R450): the virtual function of partition `ev.p`. -/
def execFlr (s : State) : MOut :=
  .next (if s.ev.p ≥ 28 then s
    else
      let s1 := endTasks s s.ev.p
      let s2 := (s1.xfers.filter fun x => x.part = s.ev.p && x.status < 2).foldl (fun s x => xferDrop s x false 0) s1
      clearVf { s2 with xfers := s2.xfers.filter fun x => x.part ≠ s.ev.p } s.ev.p)

/-- The package at reset, with its fuses, its firmware and what lies outside it: host and peer memory, and the actions to come. -/
def resetPackage (s : State) : State :=
  { State.reset with
    pkg := { harvested := s.pkg.harvested, chipId := s.pkg.chipId, keyHash := s.pkg.keyHash, securityVersion := s.pkg.securityVersion,
             identityKey := s.pkg.identityKey, digests := s.pkg.digests, fwVersion := s.pkg.fwVersion }
    mem := s.mem.filter fun c => 2 ^ 50 ≤ c.1 && c.1 < onChip
    inputs := s.inputs, mctp := s.mctp, free := s.free }

/-- Memory as the homes hold it: under a line of a slice, what HBM's line reads as (R463; log 40). -/
def homeView (s : State) : List Host.Cell :=
  s.slices.foldl (fun m x =>
    let pa := x.1 * 2 ^ 36 + 192 * x.2.1
    if x.2.2.2 then writeNat m pa 192 (tget 0 s.hbm pa)
    else if s.stale.any fun e => e.1 = pa then writeNat m pa 192 (hbmClean s pa) else m) s.mem

/-- What the scan networks read of a frozen package, refused unless debug is unlocked: its state as it stands, device memory as it stands
at its homes, with key slots and the identity key reading as zero, and the bytes of each line its slices hold (R463, R464). -/
def scanView (s : State) : Option (State × List ((Nat × Nat × Nat × Bool) × Nat)) :=
  if !s.pkg.frozen || !s.pkg.debugUnlocked then none
  else some ({ s with mem := homeView s, keys := [], pkg := { s.pkg with identityKey := 0 } },
    s.slices.map fun x => (x, readNat s.mem (x.1 * 2 ^ 36 + 192 * x.2.1) 192))

/-- FUNCTION0_RESET (R450): an unlock of debug, and its record in the measurements, hold until the next cold reset (R464). -/
def execFunction0Reset (s : State) : MOut :=
  let r := resetPackage s
  .next { r with pkg := { r.pkg with debugUnlocked := s.pkg.debugUnlocked, unlockRecorded := s.pkg.unlockRecorded } }

/-- COLD_RESET (R461): `ev.flag`: the signature of the boot firmware verifies; stages 1 and 2, or recovery. -/
def execColdReset (s : State) : MOut :=
  .next (
    let s1 := resetPackage s
    { s1 with pkg := if s.ev.flag then { s1.pkg with stage := 2, passThrough := true } else { s1.pkg with recovery := true } })

/-- A stage of bring-up that follows stage `n` (R461, R463). -/
def bringUp (s : State) (n : Nat) (f : Package → Package) : State :=
  if s.pkg.stage = n && !s.pkg.recovery && !s.pkg.stopped then { s with pkg := f s.pkg } else s

/-- Bring-up stops at a stage, and the failing link is reported over MCTP (R461). -/
def stopBringUp (x : Package) (stage link : Nat) : Package := { x with stopped := true, linkReports := (stage, link) :: x.linkReports }

/-- UCIE_LINK_TRAIN (R461): `ev.flag` where every link trains, else link `ev.k` fails. -/
def execUcieLinkTrain (s : State) : MOut :=
  .next (bringUp s 2 fun x => if s.ev.flag then { x with stage := 3, ucieUp := true } else stopBringUp x 3 s.ev.k)

/-- Device memory zeroed with correct ECC (R461). -/
def zeroDevice (s : State) : State :=
  { s with mem := s.mem.filter fun c => 2 ^ 50 ≤ c.1, poison := s.poison.filter fun c => 2 ^ 50 ≤ c.1,
           ecc := s.ecc.filter fun c => 2 ^ 50 ≤ c.1 }

/-- HBM_TRAIN (R461): `ev.flag` where all twelve stacks train, else stack `ev.k` fails. -/
def execHbmTrain (s : State) : MOut :=
  .next (
    let t := bringUp s 3 fun x => if s.ev.flag then { x with stage := 4, hbmUp := true } else stopBringUp x 4 s.ev.k
    if t.pkg.stage = 4 && s.pkg.stage = 3 then zeroDevice t else t)

/-- PCIE_ENUMERATE (R461): `ev.flag` where the link trains; the AtomicOp widths enabled stand in `ev.x0` (R273). -/
def execPcieEnumerate (s : State) : MOut :=
  .next (bringUp s 4 fun x =>
    { x with stage := 5, pcieUp := s.ev.flag, atom32 := s.ev.x0.getLsbD 0, atom64 := s.ev.x0.getLsbD 1 })

/-- RHODI_PORT_TRAIN (R461): port `ev.k` is up or down; a handshake that succeeds brings the partner's chip id `ev.q`, the lane map `ev.x0`
and the channel credits `ev.x1`. -/
def execRhodiPortTrain (s : State) : MOut :=
  .next (if s.pkg.stage ≥ 5 && s.ev.k < 16 then
    let t := { s with pkg := { s.pkg with stage := 6, rhodi := vset s.pkg.rhodi s.ev.k (if s.ev.flag then .up else .down) } }
    if s.ev.flag then
      { t with pkg := { t.pkg with
        partner := vset t.pkg.partner s.ev.k (some s.ev.q)
        laneMap := vset t.pkg.laneMap s.ev.k (BitVec.ofNat 32 s.ev.x0.toNat)
        credits := vset t.pkg.credits s.ev.k s.ev.x1 } }
    else t
   else s)

/-! ## Identity -/

/-- Hand out a response on the DOE mailbox. -/
def respond (s : State) (v : BitVec 512) : State := { s with pkg := { s.pkg with responses := v :: s.pkg.responses } }

/-- GET_CERTIFICATE (R462): the part's one certificate chain, which the spec does not give. -/
def execGetCertificate (s : State) : MOut :=
  .next (if !s.pkg.pcieUp then s else respond s (Config.certificate s.pkg.chipId))

/-- The measurements (R462, R464): the digest of each firmware image, the fuse record, the chip id and whether debug was unlocked. -/
def measurements (s : State) : List Nat :=
  s.pkg.digests.map (·.toNat) ++ [s.pkg.harvested + 2 ^ 8 * 1, s.pkg.chipId, bnat s.pkg.unlockRecorded]

/-- GET_MEASUREMENTS (R462): each measurement, then its signature. -/
def execGetMeasurements (s : State) : MOut :=
  .next (if !s.pkg.pcieUp then s
    else (measurements s).foldl (fun s m =>
      let (n, s1) := drawFree s
      respond (respond s1 (BitVec.ofNat 512 m)) (Config.signature n)) s)

/-- The digests of the firmware images running, image `k` replaced; a number beyond the last adds an image. -/
def putImage (l : List (BitVec 256)) (k : Nat) (d : BitVec 256) : List (BitVec 256) :=
  if k < l.length then lmod l k fun _ => d else l ++ [d]

/-- FIRMWARE_UPDATE (R462): image `ev.k`, digest in `ev.data`, security version `ev.q`, `ev.flag` where the signature verifies. -/
def execFirmwareUpdate (s : State) : MOut :=
  .next (if s.ev.flag && s.ev.q ≥ s.pkg.securityVersion then
    { s with pkg := { s.pkg with digests := putImage s.pkg.digests s.ev.k (BitVec.ofNat 256 s.ev.data.toNat), fwVersion := s.ev.q } }
   else s)

/-- SPDM_KEY_EXCHANGE (R449): stream `ev.k`: 0 the link stream, f + 1 the selective stream of function f. -/
def execSpdmKeyExchange (s : State) : MOut :=
  .next (if !s.pkg.pcieUp || s.ev.k > 29 then s
    else
      let (n, s1) := drawFree s
      let v := Config.sessionKey n
      { s1 with pkg := if s.ev.k = 0 then { s1.pkg with linkKey := some v }
          else { s1.pkg with selKeys := (s.ev.k - 1, v) :: s1.pkg.selKeys.filter fun e => e.1 ≠ s.ev.k - 1 } })

/-! ## Power -/

/-- Put a die at a step; the locks held on it at another step lapse (R458, R460). -/
def putStep (s : State) (d f : Nat) : State :=
  { s with
    pkg := { s.pkg with steps := vset s.pkg.steps d f }
    parts := s.parts.map fun x =>
      if x.lockDies.getLsbD d && x.lockFreq ≠ f then { x with lockLapsed := setBit x.lockLapsed d true } else x }

/-- Whether some partition holds a lock on a die. -/
def dieLocked (s : State) (d : Nat) : Bool := s.parts.toList.any fun x => x.lockDies.getLsbD d

/-- Live dies. -/
def liveDies (s : State) : List Nat := below 8 fun d => d ≠ s.pkg.harvested

/-- The step of a die. -/
def stepOf (s : State) (d : Nat) : Nat := vget 0 s.pkg.steps d

/-- The step a die stands at when nothing limits it: its locked one, else 15. -/
def restStep (s : State) (d : Nat) : Nat :=
  match s.parts.toList.find? fun x => x.lockDies.getLsbD d with
  | some x => x.lockFreq
  | none => 15

/-- The die that is lowered next: unlocked ones first, by lowest index (R460). -/
def lowerDie (s : State) : Option Nat :=
  let l := (liveDies s).filter fun d => stepOf s d > 0
  match l.find? fun d => !dieLocked s d with
  | some d => some d
  | none => l.head?

/-- POWER_WINDOW (R460): `ev.k` W measured over the window; above the limit one die is lowered a step. When a lowered die returns is not
said: below the limit, one may. -/
def execPowerWindow (s : State) : MOut :=
  .next (
    let s1 := { s with pkg := { s.pkg with measured := s.ev.k } }
    if s.ev.k > s.pkg.limit then (match lowerDie s1 with
      | some d => putStep s1 d (stepOf s1 d - 1)
      | none => s1)
    else
      let (n, s2) := drawFree s1
      match (liveDies s2).find? fun d => stepOf s2 d < restStep s2 d with
      | some d => if Config.takeOpen n then putStep s2 d (stepOf s2 d + 1) else s2
      | none => s2)

/-- THERMAL_TRIP (R460): live die `ev.k` is lowered, and its locks lapse. -/
def execThermalTrip (s : State) : MOut :=
  .next (if (liveDies s).contains s.ev.k then putStep s s.ev.k (stepOf s s.ev.k - 1) else s)

end Sys2Proof.Machine
end

