-- ==== Sys2Proof/Machine/Dispatch.lean ====
section
/-! DEFINITION. `exec`: one arm per constructor of `Instr`, each a direct call of its meaning. -/

namespace Sys2Proof.Machine

def exec (i : Instr) (s : State) : Host.Outcome State Fault Refusal :=
  match i with
  | .nop => Sys2Proof.Machine.execNop s
  | .add p d a b w => Sys2Proof.Machine.execAdd p d a b w s
  | .sub p d a b w => Sys2Proof.Machine.execSub p d a b w s
  | .and p d a b => Sys2Proof.Machine.execAnd p d a b s
  | .or p d a b => Sys2Proof.Machine.execOr p d a b s
  | .xor p d a b => Sys2Proof.Machine.execXor p d a b s
  | .andn p d a b => Sys2Proof.Machine.execAndn p d a b s
  | .shl p d a b w => Sys2Proof.Machine.execShl p d a b w s
  | .shr p d a b w => Sys2Proof.Machine.execShr p d a b w s
  | .sra p d a b w => Sys2Proof.Machine.execSra p d a b w s
  | .rot p d a b w => Sys2Proof.Machine.execRot p d a b w s
  | .min p d a b w => Sys2Proof.Machine.execMin p d a b w s
  | .max p d a b w => Sys2Proof.Machine.execMax p d a b w s
  | .minn p d a b w => Sys2Proof.Machine.execMinn p d a b w s
  | .maxn p d a b w => Sys2Proof.Machine.execMaxn p d a b w s
  | .mul p d a b w => Sys2Proof.Machine.execMul p d a b w s
  | .mulh p d a b => Sys2Proof.Machine.execMulh p d a b s
  | .mulhn p d a b => Sys2Proof.Machine.execMulhn p d a b s
  | .div p d a b w => Sys2Proof.Machine.execDiv p d a b w s
  | .divn p d a b w => Sys2Proof.Machine.execDivn p d a b w s
  | .rem p d a b w => Sys2Proof.Machine.execRem p d a b w s
  | .remn p d a b w => Sys2Proof.Machine.execRemn p d a b w s
  | .clz p d a w => Sys2Proof.Machine.execClz p d a w s
  | .popc p d a w => Sys2Proof.Machine.execPopc p d a w s
  | .sext p d a x => Sys2Proof.Machine.execSext p d a x s
  | .zext p d a x => Sys2Proof.Machine.execZext p d a x s
  | .addi p d a v => Sys2Proof.Machine.execAddi p d a v s
  | .andi p d a v => Sys2Proof.Machine.execAndi p d a v s
  | .ori p d a v => Sys2Proof.Machine.execOri p d a v s
  | .xori p d a v => Sys2Proof.Machine.execXori p d a v s
  | .shli p d a v => Sys2Proof.Machine.execShli p d a v s
  | .shri p d a v => Sys2Proof.Machine.execShri p d a v s
  | .srai p d a v => Sys2Proof.Machine.execSrai p d a v s
  | .muli p d a v => Sys2Proof.Machine.execMuli p d a v s
  | .mini p d a v => Sys2Proof.Machine.execMini p d a v s
  | .maxi p d a v => Sys2Proof.Machine.execMaxi p d a v s
  | .li p d v => Sys2Proof.Machine.execLi p d v s
  | .lui p d v => Sys2Proof.Machine.execLui p d v s
  | .cmpEq p d a b => Sys2Proof.Machine.execCmpEq p d a b s
  | .cmpNe p d a b => Sys2Proof.Machine.execCmpNe p d a b s
  | .cmpLt p d a b => Sys2Proof.Machine.execCmpLt p d a b s
  | .cmpLe p d a b => Sys2Proof.Machine.execCmpLe p d a b s
  | .cmpLtn p d a b => Sys2Proof.Machine.execCmpLtn p d a b s
  | .cmpLen p d a b => Sys2Proof.Machine.execCmpLen p d a b s
  | .cmpiEq p d a v => Sys2Proof.Machine.execCmpiEq p d a v s
  | .cmpiLt p d a v => Sys2Proof.Machine.execCmpiLt p d a v s
  | .cmpiLtn p d a v => Sys2Proof.Machine.execCmpiLtn p d a v s
  | .band p d a b => Sys2Proof.Machine.execBand p d a b s
  | .bor p d a b => Sys2Proof.Machine.execBor p d a b s
  | .bxor p d a b => Sys2Proof.Machine.execBxor p d a b s
  | .bandn p d a b => Sys2Proof.Machine.execBandn p d a b s
  | .bmov p d a => Sys2Proof.Machine.execBmov p d a s
  | .sel p d a b v => Sys2Proof.Machine.execSel p d a b v s
  | .br p o => Sys2Proof.Machine.execBr p o s
  | .j o => Sys2Proof.Machine.execJ o s
  | .jal p o => Sys2Proof.Machine.execJal p o s
  | .jr p d a => Sys2Proof.Machine.execJr p d a s
  | .loop p l a v => Sys2Proof.Machine.execLoop p l a v s
  | .loops p v a u => Sys2Proof.Machine.execLoops p v a u s
  | .mark p => Sys2Proof.Machine.execMark p s
  | .pause p v => Sys2Proof.Machine.execPause p v s
  | .wait p l v c f => Sys2Proof.Machine.execWait p l v c f s
  | .tend p => Sys2Proof.Machine.execTend p s
  | .trap p t => Sys2Proof.Machine.execTrap p t s
  | .eret => Sys2Proof.Machine.execEret s
  | .ldB p d h q c f => Sys2Proof.Machine.execLdB p d h q c f s
  | .ldH p d h q c f => Sys2Proof.Machine.execLdH p d h q c f s
  | .ldW p d h q c f => Sys2Proof.Machine.execLdW p d h q c f s
  | .ldD p d h q c f => Sys2Proof.Machine.execLdD p d h q c f s
  | .ldnB p d h q c f => Sys2Proof.Machine.execLdnB p d h q c f s
  | .ldnH p d h q c f => Sys2Proof.Machine.execLdnH p d h q c f s
  | .ldnW p d h q c f => Sys2Proof.Machine.execLdnW p d h q c f s
  | .stB p d h q c f => Sys2Proof.Machine.execStB p d h q c f s
  | .stH p d h q c f => Sys2Proof.Machine.execStH p d h q c f s
  | .stW p d h q c f => Sys2Proof.Machine.execStW p d h q c f s
  | .stD p d h q c f => Sys2Proof.Machine.execStD p d h q c f s
  | .ldpW p d h a v => Sys2Proof.Machine.execLdpW p d h a v s
  | .ldpD p d h a v => Sys2Proof.Machine.execLdpD p d h a v s
  | .stpW p d h a v => Sys2Proof.Machine.execStpW p d h a v s
  | .stpD p d h a v => Sys2Proof.Machine.execStpD p d h a v s
  | .xlat p h a => Sys2Proof.Machine.execXlat p h a s
  | .hinv p h => Sys2Proof.Machine.execHinv p h s
  | .hinfo p d a => Sys2Proof.Machine.execHinfo p d a s
  | .ldtW p d t a q c => Sys2Proof.Machine.execLdtW p d t a q c s
  | .ldtD p d t a q c => Sys2Proof.Machine.execLdtD p d t a q c s
  | .sttW p d t a q c => Sys2Proof.Machine.execSttW p d t a q c s
  | .sttD p d t a q c => Sys2Proof.Machine.execSttD p d t a q c s
  | .ldf p d t a => Sys2Proof.Machine.execLdf p d t a s
  | .ldfk p d t a => Sys2Proof.Machine.execLdfk p d t a s
  | .ste p d t a => Sys2Proof.Machine.execSte p d t a s
  | .stfk p d t a => Sys2Proof.Machine.execStfk p d t a s
  | .amoAdd p d h a q r c => Sys2Proof.Machine.execAmoAdd p d h a q r c s
  | .amoAnd p d h a q r c => Sys2Proof.Machine.execAmoAnd p d h a q r c s
  | .amoOr p d h a q r c => Sys2Proof.Machine.execAmoOr p d h a q r c s
  | .amoXor p d h a q r c => Sys2Proof.Machine.execAmoXor p d h a q r c s
  | .amoMin p d h a q r c => Sys2Proof.Machine.execAmoMin p d h a q r c s
  | .amoMax p d h a q r c => Sys2Proof.Machine.execAmoMax p d h a q r c s
  | .amoMinn p d h a q r c => Sys2Proof.Machine.execAmoMinn p d h a q r c s
  | .amoMaxn p d h a q r c => Sys2Proof.Machine.execAmoMaxn p d h a q r c s
  | .amoSwap p d h a q r c => Sys2Proof.Machine.execAmoSwap p d h a q r c s
  | .amoFadd p d h a q r c => Sys2Proof.Machine.execAmoFadd p d h a q r c s
  | .cas p d h a q r c => Sys2Proof.Machine.execCas p d h a q r c s
  | .accAdd p d h a r c => Sys2Proof.Machine.execAccAdd p d h a r c s
  | .accFadd p d h a r c => Sys2Proof.Machine.execAccFadd p d h a r c s
  | .accBfadd p d h a r c => Sys2Proof.Machine.execAccBfadd p d h a r c s
  | .accFmax p d h a r c => Sys2Proof.Machine.execAccFmax p d h a r c s
  | .fence p q c => Sys2Proof.Machine.execFence p q c s
  | .flushres p => Sys2Proof.Machine.execFlushres p s
  | .resid p x t => Sys2Proof.Machine.execResid p x t s
  | .mfc p d n => Sys2Proof.Machine.execMfc p d n s
  | .mtc p a n => Sys2Proof.Machine.execMtc p a n s
  | .setfmt p a => Sys2Proof.Machine.execSetfmt p a s
  | .mtw p w a n => Sys2Proof.Machine.execMtw p w a n s
  | .mfw p d w n => Sys2Proof.Machine.execMfw p d w n s
  | .wrot p w a k v m => Sys2Proof.Machine.execWrot p w a k v m s
  | .mfaRowany p d a => Sys2Proof.Machine.execMfaRowany p d a s
  | .mfaRowall p d a => Sys2Proof.Machine.execMfaRowall p d a s
  | .mfaColany p d => Sys2Proof.Machine.execMfaColany p d s
  | .mfaColall p d => Sys2Proof.Machine.execMfaColall p d s
  | .mfaSummary p d => Sys2Proof.Machine.execMfaSummary p d s
  | .talloc p d t a => Sys2Proof.Machine.execTalloc p d t a s
  | .tfree p t => Sys2Proof.Machine.execTfree p t s
  | .tinfo p d t a => Sys2Proof.Machine.execTinfo p d t a s
  | .tmove p d t a => Sys2Proof.Machine.execTmove p d t a s
  | .sync p d g => Sys2Proof.Machine.execSync p d g s
  | .cbinit p d t a => Sys2Proof.Machine.execCbinit p d t a s
  | .cbexp p d t a => Sys2Proof.Machine.execCbexp p d t a s
  | .cbarr p d t a q c => Sys2Proof.Machine.execCbarr p d t a q c s
  | .cbwait p d t a => Sys2Proof.Machine.execCbwait p d t a s
  | .cbtest p d t a => Sys2Proof.Machine.execCbtest p d t a s
  | .dqpush p d a b => Sys2Proof.Machine.execDqpush p d a b s
  | .dqpop p d b => Sys2Proof.Machine.execDqpop p d b s
  | .dqsteal p d r b => Sys2Proof.Machine.execDqsteal p d r b s
  | .tlaunch p d h f => Sys2Proof.Machine.execTlaunch p d h f s
  | .locq p d a => Sys2Proof.Machine.execLocq p d a s
  | .seal p d a b => Sys2Proof.Machine.execSeal p d a b s
  | .unseal p d a b => Sys2Proof.Machine.execUnseal p d a b s
  | .playW p d a h t => Sys2Proof.Machine.execPlayW p d a h t s
  | .playD p d a h t => Sys2Proof.Machine.execPlayD p d a h t s
  | .patc p d a t => Sys2Proof.Machine.execPatc p d a t s
  | .ldatt p d t a => Sys2Proof.Machine.execLdatt p d t a s
  | .fadd d a b w c f => Sys2Proof.Machine.execFadd d a b w c f s
  | .fsub d a b w c f => Sys2Proof.Machine.execFsub d a b w c f s
  | .fmul d a b w c f m => Sys2Proof.Machine.execFmul d a b w c f m s
  | .fma d a b w c f m => Sys2Proof.Machine.execFma d a b w c f m s
  | .fmin d a b w c f => Sys2Proof.Machine.execFmin d a b w c f s
  | .fmax d a b w c f => Sys2Proof.Machine.execFmax d a b w c f s
  | .fcmpEq d a b w c f => Sys2Proof.Machine.execFcmpEq d a b w c f s
  | .fcmpNe d a b w c f => Sys2Proof.Machine.execFcmpNe d a b w c f s
  | .fcmpLt d a b w c f => Sys2Proof.Machine.execFcmpLt d a b w c f s
  | .fcmpLe d a b w c f => Sys2Proof.Machine.execFcmpLe d a b w c f s
  | .frcp d a w c f => Sys2Proof.Machine.execFrcp d a w c f s
  | .frsq d a w c f => Sys2Proof.Machine.execFrsq d a w c f s
  | .fsqrt d a w c f => Sys2Proof.Machine.execFsqrt d a w c f s
  | .fex2 d a w c f => Sys2Proof.Machine.execFex2 d a w c f s
  | .flg2 d a w c f => Sys2Proof.Machine.execFlg2 d a w c f s
  | .hadd2 d a b w c f => Sys2Proof.Machine.execHadd2 d a b w c f s
  | .hfma2 d a b w c f m => Sys2Proof.Machine.execHfma2 d a b w c f m s
  | .bfma2 d a b w c f m => Sys2Proof.Machine.execBfma2 d a b w c f m s
  | .cvtF16F32 d a w c f m => Sys2Proof.Machine.execCvtF16F32 d a w c f m s
  | .cvtF32F16 d a w c f m => Sys2Proof.Machine.execCvtF32F16 d a w c f m s
  | .cvtBf16F32 d a w c f m => Sys2Proof.Machine.execCvtBf16F32 d a w c f m s
  | .cvtF32Bf16 d a w c f m => Sys2Proof.Machine.execCvtF32Bf16 d a w c f m s
  | .cvtE4m3F32 d a b w c f => Sys2Proof.Machine.execCvtE4m3F32 d a b w c f s
  | .cvtE5m2F32 d a b w c f => Sys2Proof.Machine.execCvtE5m2F32 d a b w c f s
  | .cvtF32E4m3 d a b w c f => Sys2Proof.Machine.execCvtF32E4m3 d a b w c f s
  | .cvtF32E5m2 d a b w c f => Sys2Proof.Machine.execCvtF32E5m2 d a b w c f s
  | .cvtI32F32 d a w c f => Sys2Proof.Machine.execCvtI32F32 d a w c f s
  | .cvtF32I32 d a w c f => Sys2Proof.Machine.execCvtF32I32 d a w c f s
  | .iadd d a b w c f m => Sys2Proof.Machine.execIadd d a b w c f m s
  | .isub d a b w c f m => Sys2Proof.Machine.execIsub d a b w c f m s
  | .imul d a b w c f => Sys2Proof.Machine.execImul d a b w c f s
  | .imad d a b w c f => Sys2Proof.Machine.execImad d a b w c f s
  | .iabs d a w c f => Sys2Proof.Machine.execIabs d a w c f s
  | .imin d a b w c f m => Sys2Proof.Machine.execImin d a b w c f m s
  | .imax d a b w c f m => Sys2Proof.Machine.execImax d a b w c f m s
  | .cellAnd d a b w c f m => Sys2Proof.Machine.execCellAnd d a b w c f m s
  | .cellOr d a b w c f m => Sys2Proof.Machine.execCellOr d a b w c f m s
  | .cellXor d a b w c f m => Sys2Proof.Machine.execCellXor d a b w c f m s
  | .cellShl d a b w c f m => Sys2Proof.Machine.execCellShl d a b w c f m s
  | .cellShr d a b w c f m => Sys2Proof.Machine.execCellShr d a b w c f m s
  | .cellSra d a b w c f m => Sys2Proof.Machine.execCellSra d a b w c f m s
  | .icmpEq d a b w c f m => Sys2Proof.Machine.execIcmpEq d a b w c f m s
  | .icmpNe d a b w c f m => Sys2Proof.Machine.execIcmpNe d a b w c f m s
  | .icmpLt d a b w c f m => Sys2Proof.Machine.execIcmpLt d a b w c f m s
  | .icmpLtn d a b w c f m => Sys2Proof.Machine.execIcmpLtn d a b w c f m s
  | .cellSel d a b w c f => Sys2Proof.Machine.execCellSel d a b w c f s
  | .mov d a b w c f m => Sys2Proof.Machine.execMov d a b w c f m s
  | .ldc d a b w c f m => Sys2Proof.Machine.execLdc d a b w c f m s
  | .stc d a b w m => Sys2Proof.Machine.execStc d a b w m s
  | .vgath d a b w c f => Sys2Proof.Machine.execVgath d a b w c f s
  | .vscat d a b w => Sys2Proof.Machine.execVscat d a b w s
  | .vredAdd d a w c f => Sys2Proof.Machine.execVredAdd d a w c f s
  | .vredMax d a w c f => Sys2Proof.Machine.execVredMax d a w c f s
  | .vredMin d a w c f => Sys2Proof.Machine.execVredMin d a w c f s
  | .vredOr d a w c f => Sys2Proof.Machine.execVredOr d a w c f s
  | .vperm d a b w c f => Sys2Proof.Machine.execVperm d a b w c f s
  | .vbcast d a b w c f m => Sys2Proof.Machine.execVbcast d a b w c f m s
  | .flag d a b w c => Sys2Proof.Machine.execFlag d a b w c s
  | .srng d a w c f => Sys2Proof.Machine.execSrng d a w c f s
  | .rkval d a w c f => Sys2Proof.Machine.execRkval d a w c f s
  | .optupd d a b w c f m => Sys2Proof.Machine.execOptupd d a b w c f m s
  | .mma d a b w m => Sys2Proof.Machine.execMma d a b w m s
  | .mmaSel d a b w => Sys2Proof.Machine.execMmaSel d a b w s
  | .mmaNeg d a b w m => Sys2Proof.Machine.execMmaNeg d a b w m s
  | .aclr d w => Sys2Proof.Machine.execAclr d w s
  | .amov d a w c f => Sys2Proof.Machine.execAmov d a w c f s
  | .ald d a w c f => Sys2Proof.Machine.execAld d a w c f s
  | .arnd d a b w c f m => Sys2Proof.Machine.execArnd d a b w c f m s
  | .racc d a b w => Sys2Proof.Machine.execRacc d a b w s
  | .copy p a b e q r c x => Sys2Proof.Machine.execCopy p a b e q r c x s
  | .copyg p a b e f v q r c x => Sys2Proof.Machine.execCopyg p a b e f v q r c x s
  | .copys p a b e f v q r c x => Sys2Proof.Machine.execCopys p a b e f v q r c x s
  | .copym p a b e z q r c x => Sys2Proof.Machine.execCopym p a b e z q r c x s
  | .fill p a b e w q r c x => Sys2Proof.Machine.execFill p a b e w q r c x s
  | .bind p e => Sys2Proof.Machine.execBind p e s
  | .unbind p n e v => Sys2Proof.Machine.execUnbind p n e v s
  | .rankx p a b e h o => Sys2Proof.Machine.execRankx p a b e h o s
  | .eresume p e => Sys2Proof.Machine.execEresume p e s
  | .ecancel p e l => Sys2Proof.Machine.execEcancel p e l s
  | .xmit p a b e q r c x => Sys2Proof.Machine.execXmit p a b e q r c x s
  | .imux p a b e => Sys2Proof.Machine.execImux p a b e s
  | .phaseOpen p a => Sys2Proof.Machine.execPhaseOpen p a s
  | .phaseClose p a => Sys2Proof.Machine.execPhaseClose p a s
  | .mtx p a b e n => Sys2Proof.Machine.execMtx p a b e n s
  | .mfx p d e n => Sys2Proof.Machine.execMfx p d e n s
  | .tpref p a b e l => Sys2Proof.Machine.execTpref p a b e l s
  | .tflush p a b e => Sys2Proof.Machine.execTflush p a b e s
  | .pauseExpire => Sys2Proof.Machine.execPauseExpire s
  | .retirementComplete => Sys2Proof.Machine.execRetirementComplete s
  | .loadReturn => Sys2Proof.Machine.execLoadReturn s
  | .storePerformed => Sys2Proof.Machine.execStorePerformed s
  | .handleWalkEnd => Sys2Proof.Machine.execHandleWalkEnd s
  | .feRetry => Sys2Proof.Machine.execFeRetry s
  | .amoAtHome => Sys2Proof.Machine.execAmoAtHome s
  | .atomicReturn => Sys2Proof.Machine.execAtomicReturn s
  | .accAtHome => Sys2Proof.Machine.execAccAtHome s
  | .accRefused => Sys2Proof.Machine.execAccRefused s
  | .accResend => Sys2Proof.Machine.execAccResend s
  | .quotaWindowStart => Sys2Proof.Machine.execQuotaWindowStart s
  | .flushresComplete => Sys2Proof.Machine.execFlushresComplete s
  | .compileBegin => Sys2Proof.Machine.execCompileBegin s
  | .compileEnd => Sys2Proof.Machine.execCompileEnd s
  | .wordExecute => Sys2Proof.Machine.execWordExecute s
  | .globalStallEnd => Sys2Proof.Machine.execGlobalStallEnd s
  | .aggregatesArrive => Sys2Proof.Machine.execAggregatesArrive s
  | .trapTaken => Sys2Proof.Machine.execTrapTaken s
  | .watchdog => Sys2Proof.Machine.execWatchdog s
  | .phaseFrameStart => Sys2Proof.Machine.execPhaseFrameStart s
  | .phaseFlit => Sys2Proof.Machine.execPhaseFlit s
  | .commandStart => Sys2Proof.Machine.execCommandStart s
  | .enginePageTranslate => Sys2Proof.Machine.execEnginePageTranslate s
  | .sectorLand => Sys2Proof.Machine.execSectorLand s
  | .commandEnd => Sys2Proof.Machine.execCommandEnd s
  | .linkFailure => Sys2Proof.Machine.execLinkFailure s
  | .edgeLoaderFill => Sys2Proof.Machine.execEdgeLoaderFill s
  | .drainWrite => Sys2Proof.Machine.execDrainWrite s
  | .impalaRank => Sys2Proof.Machine.execImpalaRank s
  | .windowContribution => Sys2Proof.Machine.execWindowContribution s
  | .ringEntry => Sys2Proof.Machine.execRingEntry s
  | .launch => Sys2Proof.Machine.execLaunch s
  | .xfer => Sys2Proof.Machine.execXfer s
  | .xferComplete => Sys2Proof.Machine.execXferComplete s
  | .skipif => Sys2Proof.Machine.execSkipif s
  | .jump => Sys2Proof.Machine.execJump s
  | .call => Sys2Proof.Machine.execCall s
  | .ret => Sys2Proof.Machine.execRet s
  | .waitc => Sys2Proof.Machine.execWaitc s
  | .waitcPoll => Sys2Proof.Machine.execWaitcPoll s
  | .waitcTimeout => Sys2Proof.Machine.execWaitcTimeout s
  | .listFence => Sys2Proof.Machine.execListFence s
  | .listFenceDone => Sys2Proof.Machine.execListFenceDone s
  | .signal => Sys2Proof.Machine.execSignal s
  | .groupset => Sys2Proof.Machine.execGroupset s
  | .groupsetDone => Sys2Proof.Machine.execGroupsetDone s
  | .note => Sys2Proof.Machine.execNote s
  | .haltq => Sys2Proof.Machine.execHaltq s
  | .taskStart => Sys2Proof.Machine.execTaskStart s
  | .agingStep => Sys2Proof.Machine.execAgingStep s
  | .preemption => Sys2Proof.Machine.execPreemption s
  | .quiesceExpire => Sys2Proof.Machine.execQuiesceExpire s
  | .resumption => Sys2Proof.Machine.execResumption s
  | .doorbell => Sys2Proof.Machine.execDoorbell s
  | .qcfg => Sys2Proof.Machine.execQcfg s
  | .qctlResume => Sys2Proof.Machine.execQctlResume s
  | .qctlSkip => Sys2Proof.Machine.execQctlSkip s
  | .jctlCancel => Sys2Proof.Machine.execJctlCancel s
  | .jctlKill => Sys2Proof.Machine.execJctlKill s
  | .jhead => Sys2Proof.Machine.execJhead s
  | .aqcfg => Sys2Proof.Machine.execAqcfg s
  | .registerWrite => Sys2Proof.Machine.execRegisterWrite s
  | .aqTailPoll => Sys2Proof.Machine.execAqTailPoll s
  | .partCreate => Sys2Proof.Machine.execPartCreate s
  | .partArrays => Sys2Proof.Machine.execPartArrays s
  | .partDissolve => Sys2Proof.Machine.execPartDissolve s
  | .ptroot => Sys2Proof.Machine.execPtroot s
  | .invalidate => Sys2Proof.Machine.execInvalidate s
  | .keyLoad => Sys2Proof.Machine.execKeyLoad s
  | .keyAssign => Sys2Proof.Machine.execKeyAssign s
  | .shares => Sys2Proof.Machine.execShares s
  | .queueAssign => Sys2Proof.Machine.execQueueAssign s
  | .waymask => Sys2Proof.Machine.execWaymask s
  | .netReserve => Sys2Proof.Machine.execNetReserve s
  | .hbmReserve => Sys2Proof.Machine.execHbmReserve s
  | .channels => Sys2Proof.Machine.execChannels s
  | .clockLock => Sys2Proof.Machine.execClockLock s
  | .redwin => Sys2Proof.Machine.execRedwin s
  | .migtable => Sys2Proof.Machine.execMigtable s
  | .migrate => Sys2Proof.Machine.execMigrate s
  | .migrationTrigger => Sys2Proof.Machine.execMigrationTrigger s
  | .quota => Sys2Proof.Machine.execQuota s
  | .readrec => Sys2Proof.Machine.execReadrec s
  | .monitor => Sys2Proof.Machine.execMonitor s
  | .savepool => Sys2Proof.Machine.execSavepool s
  | .tileAlloc => Sys2Proof.Machine.execTileAlloc s
  | .tileFree => Sys2Proof.Machine.execTileFree s
  | .preempt => Sys2Proof.Machine.execPreempt s
  | .power => Sys2Proof.Machine.execPower s
  | .freeze => Sys2Proof.Machine.execFreeze s
  | .debugUnlock => Sys2Proof.Machine.execDebugUnlock s
  | .frzN => Sys2Proof.Machine.execFrzN s
  | .powerWindow => Sys2Proof.Machine.execPowerWindow s
  | .thermalTrip => Sys2Proof.Machine.execThermalTrip s
  | .hostFetchadd => Sys2Proof.Machine.execHostFetchadd s
  | .hostSwap => Sys2Proof.Machine.execHostSwap s
  | .hostCas => Sys2Proof.Machine.execHostCas s
  | .flr => Sys2Proof.Machine.execFlr s
  | .function0Reset => Sys2Proof.Machine.execFunction0Reset s
  | .coldReset => Sys2Proof.Machine.execColdReset s
  | .ucieLinkTrain => Sys2Proof.Machine.execUcieLinkTrain s
  | .hbmTrain => Sys2Proof.Machine.execHbmTrain s
  | .pcieEnumerate => Sys2Proof.Machine.execPcieEnumerate s
  | .rhodiPortTrain => Sys2Proof.Machine.execRhodiPortTrain s
  | .getCertificate => Sys2Proof.Machine.execGetCertificate s
  | .getMeasurements => Sys2Proof.Machine.execGetMeasurements s
  | .firmwareUpdate => Sys2Proof.Machine.execFirmwareUpdate s
  | .instructionCacheFill => Sys2Proof.Machine.execInstructionCacheFill s
  | .hostWrite => Sys2Proof.Machine.execHostWrite s
  | .peerRequest => Sys2Proof.Machine.execPeerRequest s
  | .eccError => Sys2Proof.Machine.execEccError s
  | .blockingTaskTimeout => Sys2Proof.Machine.execBlockingTaskTimeout s
  | .spdmKeyExchange => Sys2Proof.Machine.execSpdmKeyExchange s

end Sys2Proof.Machine
end

