-- ==== Sys2Proof/Machine/Issue.lean ====
section
/-! DEFINITION. The issue of a bundle: its fetch (R39, R114, R351), its decoding and the fate of every encoding (R42 to R46), what
holds it (R32, R111, R409), and how its slots take effect together (R42, R223); the turn of an array in a cycle. -/

namespace Sys2Proof.Machine

/-! ## What a scalar or copy instruction names -/

/-- Registers an SC, KA or KB instruction names: scalar 0–31, predicates from 32, handles from 40 (R111 to R113). -/
def slotNames (i : Instr) : List Nat :=
  match i with
  | .add p d a b _ | .sub p d a b _ | .and p d a b | .or p d a b | .xor p d a b | .andn p d a b | .shl p d a b _
  | .shr p d a b _ | .sra p d a b _ | .rot p d a b _ | .min p d a b _ | .max p d a b _ | .minn p d a b _ | .maxn p d a b _
  | .mul p d a b _ | .mulh p d a b | .mulhn p d a b | .div p d a b _ | .divn p d a b _ | .rem p d a b _ | .remn p d a b _
  | .seal p d a b | .unseal p d a b => [32 + p.toNat, d.toNat, a.toNat, b.toNat]
  | .clz p d a _ | .popc p d a _ | .sext p d a _ | .zext p d a _ | .addi p d a _ | .andi p d a _ | .ori p d a _ | .xori p d a _
  | .shli p d a _ | .shri p d a _ | .srai p d a _ | .muli p d a _ | .mini p d a _ | .maxi p d a _ | .jr p d a | .hinfo p d a
  | .ldtW p d _ a _ _ | .ldtD p d _ a _ _ | .sttW p d _ a _ _ | .sttD p d _ a _ _ | .ldf p d _ a | .ldfk p d _ a | .ste p d _ a
  | .stfk p d _ a | .mfaRowany p d a | .mfaRowall p d a | .talloc p d _ a | .tinfo p d _ a | .tmove p d _ a | .cbinit p d _ a
  | .cbexp p d _ a | .cbarr p d _ a _ _ | .cbwait p d _ a | .cbtest p d _ a | .locq p d a | .playW p d a _ _ | .playD p d a _ _
  | .patc p d a _ | .ldatt p d _ a => [32 + p.toNat, d.toNat, a.toNat]
  | .li p d _ | .lui p d _ | .mfc p d _ | .mfw p d _ _ | .mfaColany p d | .mfaColall p d | .mfaSummary p d | .sync p d _ =>
    [32 + p.toNat, d.toNat]
  | .cmpEq p d a b | .cmpNe p d a b | .cmpLt p d a b | .cmpLe p d a b | .cmpLtn p d a b | .cmpLen p d a b =>
    [32 + p.toNat, 32 + d.toNat, a.toNat, b.toNat]
  | .cmpiEq p d a _ | .cmpiLt p d a _ | .cmpiLtn p d a _ => [32 + p.toNat, 32 + d.toNat, a.toNat]
  | .band p d a b | .bor p d a b | .bxor p d a b | .bandn p d a b =>
    [32 + p.toNat, 32 + d.toNat, 32 + a.toNat, 32 + b.toNat]
  | .bmov p d a => [32 + p.toNat, 32 + d.toNat, 32 + a.toNat]
  | .sel p d a b s => [32 + p.toNat, d.toNat, a.toNat, b.toNat, 32 + s.toNat]
  | .br p _ | .mark p | .pause p _ | .wait p _ _ _ _ | .tend p | .trap p _ | .fence p _ _ | .flushres p | .resid p _ _
  | .tfree p _ => [32 + p.toNat]
  | .jal p _ => [32 + p.toNat, 31]
  | .loops p _ a _ => [32 + p.toNat, a.toNat, 36, 37, 38, 39]
  | .loop p _ a _ | .mtc p a _ | .setfmt p a | .mtw p _ a _ | .wrot p _ a _ _ _ => [32 + p.toNat, a.toNat]
  | .ldB p d h _ _ _ | .ldH p d h _ _ _ | .ldW p d h _ _ _ | .ldD p d h _ _ _ | .ldnB p d h _ _ _ | .ldnH p d h _ _ _
  | .ldnW p d h _ _ _ | .stB p d h _ _ _ | .stH p d h _ _ _ | .stW p d h _ _ _ | .stD p d h _ _ _ | .tlaunch p d h _ =>
    [32 + p.toNat, d.toNat, 40 + h.toNat]
  | .ldpW p d h a _ | .ldpD p d h a _ | .stpW p d h a _ | .stpD p d h a _ | .amoAdd p d h a _ _ _ | .amoAnd p d h a _ _ _
  | .amoOr p d h a _ _ _ | .amoXor p d h a _ _ _ | .amoMin p d h a _ _ _ | .amoMax p d h a _ _ _ | .amoMinn p d h a _ _ _
  | .amoMaxn p d h a _ _ _ | .amoSwap p d h a _ _ _ | .amoFadd p d h a _ _ _ | .accAdd p d h a _ _ | .accFadd p d h a _ _
  | .accBfadd p d h a _ _ | .accFmax p d h a _ _ => [32 + p.toNat, d.toNat, 40 + h.toNat, a.toNat]
  | .xlat p h a => [32 + p.toNat, 40 + h.toNat, a.toNat]
  | .hinv p h => [32 + p.toNat, 40 + h.toNat]
  | .cas p d h a _ _ _ => [32 + p.toNat, 2 * d.toNat, 2 * d.toNat + 1, 40 + h.toNat, a.toNat]
  | .dqpush p d a b => [32 + p.toNat, d.toNat, a.toNat, 32 + b.toNat]
  | .dqpop p d b => [32 + p.toNat, d.toNat, 32 + b.toNat]
  | .dqsteal p d r b => [32 + p.toNat, d.toNat, r.toNat, 32 + b.toNat]
  | .copy p a b _ _ _ _ _ | .copyg p a b _ _ _ _ _ _ _ | .copys p a b _ _ _ _ _ _ _ | .copym p a b _ _ _ _ _ _
  | .fill p a b _ _ _ _ _ _ | .rankx p a b _ _ _ | .xmit p a b _ _ _ _ _ | .imux p a b _ | .mtx p a b _ _ | .tpref p a b _ _
  | .tflush p a b _ => [32 + p.toNat, a.toNat, b.toNat]
  | .bind p _ | .unbind p _ _ _ | .eresume p _ | .ecancel p _ _ => [32 + p.toNat]
  | .phaseOpen p a | .phaseClose p a => [32 + p.toNat, a.toNat]
  | .mfx p d _ _ => [32 + p.toNat, d.toNat]
  | _ => []

/-- Scalar registers an SC, KA or KB instruction writes (R46). -/
def slotWrites (i : Instr) : List Nat :=
  match i with
  | .add _ d _ _ _ | .sub _ d _ _ _ | .and _ d _ _ | .or _ d _ _ | .xor _ d _ _ | .andn _ d _ _ | .shl _ d _ _ _
  | .shr _ d _ _ _ | .sra _ d _ _ _ | .rot _ d _ _ _ | .min _ d _ _ _ | .max _ d _ _ _ | .minn _ d _ _ _ | .maxn _ d _ _ _
  | .mul _ d _ _ _ | .mulh _ d _ _ | .mulhn _ d _ _ | .div _ d _ _ _ | .divn _ d _ _ _ | .rem _ d _ _ _ | .remn _ d _ _ _
  | .clz _ d _ _ | .popc _ d _ _ | .sext _ d _ _ | .zext _ d _ _ | .addi _ d _ _ | .andi _ d _ _ | .ori _ d _ _ | .xori _ d _ _
  | .shli _ d _ _ | .shri _ d _ _ | .srai _ d _ _ | .muli _ d _ _ | .mini _ d _ _ | .maxi _ d _ _ | .li _ d _ | .lui _ d _
  | .sel _ d _ _ _ | .jr _ d _ | .ldB _ d _ _ _ _ | .ldH _ d _ _ _ _ | .ldW _ d _ _ _ _ | .ldD _ d _ _ _ _ | .ldnB _ d _ _ _ _
  | .ldnH _ d _ _ _ _ | .ldnW _ d _ _ _ _ | .hinfo _ d _ | .ldtW _ d _ _ _ _ | .ldtD _ d _ _ _ _ | .ldf _ d _ _ | .ldfk _ d _ _
  | .ste _ d _ _ | .amoAdd _ d _ _ _ _ _ | .amoAnd _ d _ _ _ _ _ | .amoOr _ d _ _ _ _ _ | .amoXor _ d _ _ _ _ _
  | .amoMin _ d _ _ _ _ _ | .amoMax _ d _ _ _ _ _ | .amoMinn _ d _ _ _ _ _ | .amoMaxn _ d _ _ _ _ _ | .amoSwap _ d _ _ _ _ _
  | .amoFadd _ d _ _ _ _ _ | .mfc _ d _ | .mfw _ d _ _ | .mfaRowany _ d _ | .mfaRowall _ d _ | .mfaColany _ d | .mfaColall _ d
  | .mfaSummary _ d | .talloc _ d _ _ | .tinfo _ d _ _ | .tmove _ d _ _ | .sync _ d _ | .cbarr _ d _ _ _ _ | .cbwait _ d _ _
  | .cbtest _ d _ _ | .dqpush _ d _ _ | .dqpop _ d _ | .dqsteal _ d _ _ | .tlaunch _ d _ _ | .locq _ d _ | .seal _ d _ _
  | .unseal _ d _ _ | .playW _ d _ _ _ | .playD _ d _ _ _ | .patc _ d _ _ => [d.toNat]
  | .jal _ _ => [31]
  | .ldpW _ d _ a _ | .ldpD _ d _ a _ => [d.toNat, a.toNat]
  | .stpW _ _ _ a _ | .stpD _ _ _ a _ => [a.toNat]
  | .cas _ d _ _ _ _ _ => [2 * d.toNat]
  | .mfx _ d _ _ => [d.toNat]
  | _ => []

/-- How much an SC instruction raises ld and st, but for LOCQ, whose query decides (R409, R410); a store raises st at its issue in the monitor only, where nothing is
gated (R219, R434). -/
def slotRises (mon : Bool) (i : Instr) : Nat × Nat :=
  match i with
  | .ldB _ _ _ _ _ _ | .ldH _ _ _ _ _ _ | .ldW _ _ _ _ _ _ | .ldD _ _ _ _ _ _ | .ldnB _ _ _ _ _ _ | .ldnH _ _ _ _ _ _
  | .ldnW _ _ _ _ _ _ | .ldpW _ _ _ _ _ | .ldpD _ _ _ _ _ | .ldtW _ _ _ _ _ _ | .ldtD _ _ _ _ _ _ | .ldf _ _ _ _ | .ldfk _ _ _ _
  | .cbwait _ _ _ _ | .cbtest _ _ _ _ | .dqpush _ _ _ _ | .dqpop _ _ _ | .dqsteal _ _ _ _ | .ldatt _ _ _ _ => (1, 0)
  | .ste _ _ _ _ | .stfk _ _ _ _ | .amoAdd _ _ _ _ _ _ _ | .amoAnd _ _ _ _ _ _ _ | .amoOr _ _ _ _ _ _ _ | .amoXor _ _ _ _ _ _ _
  | .amoMin _ _ _ _ _ _ _ | .amoMax _ _ _ _ _ _ _ | .amoMinn _ _ _ _ _ _ _ | .amoMaxn _ _ _ _ _ _ _ | .amoSwap _ _ _ _ _ _ _
  | .amoFadd _ _ _ _ _ _ _ | .cas _ _ _ _ _ _ _ | .accAdd _ _ _ _ _ _ | .accFadd _ _ _ _ _ _ | .accBfadd _ _ _ _ _ _
  | .accFmax _ _ _ _ _ _ | .flushres _ | .cbinit _ _ _ _ | .cbexp _ _ _ _ | .cbarr _ _ _ _ _ _ | .tlaunch _ _ _ _ => (0, 1)
  | .stB _ _ _ _ _ _ | .stH _ _ _ _ _ _ | .stW _ _ _ _ _ _ | .stD _ _ _ _ _ _ | .stpW _ _ _ _ _ | .stpD _ _ _ _ _
  | .sttW _ _ _ _ _ _ | .sttD _ _ _ _ _ _ => (0, bnat mon)
  | _ => (0, 0)

/-! ## Decoding a bundle -/

/-- The six slots of a bundle (R37). -/
structure Slots where
  sc : Instr := .nop
  va : Instr := .nop
  vb : Instr := .nop
  mx : Instr := .nop
  ka : Instr := .nop
  kb : Instr := .nop
  deriving DecidableEq, Repr

/-- A fault found before a bundle issues: its code, slot and DETAIL (R428). -/
structure BundleFault where
  code : Nat
  slot : Nat
  detail : Word
  deriving DecidableEq, Repr

/-- Slot word `k` of a bundle of 24 bytes (R37). -/
def slotWord (v k : Nat) : BitVec 32 := BitVec.ofNat 32 (v / 2 ^ (32 * k))

/-- The privileged class of R43: what the mode refuses. -/
def privBreak (mon : Bool) (i : Instr) : Bool :=
  match i with
  | .eret => !mon
  | .tend _ => mon
  | .xlat _ h _ => h = 15 && !mon
  | .mfc _ _ n | .mtc _ _ n => ctlPriv n.toNat && !mon
  | _ => false

/-- The class of a slot word (R43): its instruction, or its fault. -/
def slotClassify (mon : Bool) (v k : Nat) (r : Except Reject Instr) : Except BundleFault Instr :=
  let d := (slotWord v k).setWidth 64
  match r with
  | .error .extension => .error { code := 0x02, slot := k, detail := d }
  | .error _ => .error { code := 0x01, slot := k, detail := d }
  | .ok i => if privBreak mon i then .error { code := 0x03, slot := k, detail := d } else .ok i

/-- Decode the six slots; the first faulting slot decides (R45, item 2). -/
def decodeSlots (mon : Bool) (v : Nat) : Except BundleFault Slots :=
  match slotClassify mon v 0 (decodeSc (slotWord v 0)) with
  | .error f => .error f
  | .ok sc => match slotClassify mon v 1 (decodeCell .va (slotWord v 1)) with
    | .error f => .error f
    | .ok va => match slotClassify mon v 2 (decodeCell .vb (slotWord v 2)) with
      | .error f => .error f
      | .ok vb => match slotClassify mon v 3 (decodeCell .mx (slotWord v 3)) with
        | .error f => .error f
        | .ok mx => match slotClassify mon v 4 (decodeCopy (slotWord v 4)) with
          | .error f => .error f
          | .ok ka => match slotClassify mon v 5 (decodeCopy (slotWord v 5)) with
            | .error f => .error f
            | .ok kb => .ok { sc := sc, va := va, vb := vb, mx := mx, ka := ka, kb := kb }

/-- Two slots write one register other than s0 (R46). -/
def writesMeet (l m : List Nat) : Bool := l.any fun r => r ≠ 0 && m.contains r

/-- The later slot of a register conflict or of two MOV.d that name one drain port (R45, item 3). -/
def slotClash (b : Slots) : Option Nat :=
  if drainClash b.va b.vb then some 2
  else if writesMeet (slotWrites b.sc) (slotWrites b.ka) then some 4
  else if writesMeet (slotWrites b.sc ++ slotWrites b.ka) (slotWrites b.kb) then some 5
  else none

/-- Decode a bundle, or find the one fault it reports (R45). -/
def decodeBundle (mon : Bool) (v : Nat) : Except BundleFault Slots :=
  match decodeSlots mon v with
  | .error f => .error f
  | .ok b => match slotClash b with
    | some k => .error { code := 0x01, slot := k, detail := (slotWord v k).setWidth 64 }
    | none => match portBreak (wordSlots b.va b.vb b.mx) 0 0 with
      | some k => .error { code := 0x24, slot := k, detail := portDetail b.va b.vb b.mx }
      | none => .ok b

/-- Whether a bundle issues a word (R20, R41). -/
def Slots.hasWord (b : Slots) : Bool := !(b.va = .nop && b.vb = .nop && b.mx = .nop)

/-! ## Fetching -/

/-- What the fetch of the next bundle finds. -/
inductive Fetch where
  /-- Nothing yet: the state goes on. -/
  | wait (s : State)
  | fault (f : FaultInfo)
  /-- The 24 bytes, as a number. -/
  | bytes (v : Nat)

/-- A fault of the fetch at array `a` (R428, R429). -/
def fetchFault (s : State) (a code cause : Nat) : FaultInfo :=
  let q := seqAt s a
  let h := codeHandle q
  let base := if h.st = .valid then h.base else h.va.toNat / 49152 * 49152
  { code := code, slot := 7, precise := true, pc := q.pc, cycle := s.cyc, hdl := if q.mon then 16 else 15,
    detail := BitVec.ofNat 64 (if code = 0x11 then cause + 0xF0 else cause), addr := BitVec.ofNat 64 (base + q.pc) }

/-- The monitor's own code handle is walked again, a walk as a handle's is (R426). -/
def walkMonitor (s : State) (a : Nat) : State :=
  let (s1, w) := walkFill s a (seqAt s a).part (seqAt s a).mhandle.va
  modSeq (countMiss s1 a true) a fun q => { q with mhandle := walkedHandle { va := q.mhandle.va } w }

/-- Fetch the bundle at the PC (R39, R114, R351); any leaf with X may be a code page (log 71). -/
def fetch (s : State) (a : Nat) : Fetch :=
  let q := seqAt s a
  let h := codeHandle q
  match h.st with
  | .invalid => .wait (if q.mon then walkMonitor s a else startWalk s a 15)
  | .walking => .wait s
  | .faulted => .fault (if h.cause = 4 then fetchFault s a 0x11 4 else fetchFault s a 0x15 h.cause)
  | .valid =>
    if !pteX h.leaf || q.pc % 24 ≠ 0 || q.pc + 24 > leafBytes h.leaf then .fault (fetchFault s a 0x15 0)
    else match bundleAt (arr s a) q.pc with
      | none => .wait s
      | some v => .bytes v

/-! ## What holds a bundle -/

/-- Registers an outstanding operation will write (R111). -/
def outNames (o : Out) : List Nat :=
  let dq (rd b : Nat) : List Nat := if b = 0 then [rd] else [rd, 32 + b]
  match o.op with
  | .load rd _ | .amo _ rd _ | .cas rd _ _ | .amoRet rd _ _ _ | .cbarr rd | .cbtest rd | .locq rd _ => [rd]
  | .dqpush rd b _ | .dqpop rd b | .dqsteal rd b _ | .dqRet rd b _ _ => dq rd b
  | _ => []

/-- Registers the scalar slots of a bundle name. -/
def Slots.names (b : Slots) : List Nat := slotNames b.sc ++ slotNames b.ka ++ slotNames b.kb

/-- Predicates that the end of a staged iteration or loop writes at a bundle: at the last bundle of the body, or at a LOOP of level 0
(R126, R127). -/
def stageNames (q : Seq) (i : Instr) : List Nat :=
  let ends := (loopEnd q).lstg ≠ q.lstg || (match i with
    | .loop _ l _ _ => !l
    | _ => false)
  if ends then (List.range (stgS q.lstg)).map (36 + ·) else []

/-- The predicate register of an SC, KA or KB instruction. -/
def guardOf (i : Instr) : Nat :=
  match slotNames i with
  | [] => 0
  | n :: _ => n - 32

/-- Whether an instruction whose predicate is true reads a bound register whose next element has not come (R100, R112). -/
def elementMissing (s : State) (a : Nat) (i : Instr) : Bool :=
  (guardOf i = 0 || vget false (seqAt s a).b (guardOf i)) && (slotNames i).any fun r =>
    r < 32 && !(slotWrites i).contains r && isBound s a r && (portAt s a (portReg r)).elems = []

/-- Whether a bundle is interlocked: a register it names or writes has a write pending, whatever the predicates, or a stream element it
reads has not come (R111 to R113). -/
def interlocked (s : State) (a : Nat) (b : Slots) : Bool :=
  let q := seqAt s a
  ((b.names ++ stageNames q b.sc).any fun n =>
      n ≠ 0 && (q.locks.any (fun e => e.1 = n && s.cyc < e.2) || q.outs.any fun o => (outNames o).contains n))
    || [b.sc, b.ka, b.kb].any (elementMissing s a)

/-- How much the SC slot of a bundle of array `a` raises ld and st (R409, R410): of LOCQ, query 0x3 alone counts. -/
def scRises (s : State) (a : Nat) (i : Instr) : Nat × Nat :=
  match i with
  | .locq _ _ x => (bnat (bitsOf (reg { s with cur := Fin.ofNat 28 a } x.toNat) 63 60 = 3), 0)
  | _ => slotRises (seqAt s a).mon i

/-- Whether a counter stands at its limit for a bundle (R409). -/
def countersFull (s : State) (a : Nat) (b : Slots) : Bool :=
  let q := seqAt s a
  let r := if guardOf b.sc = 0 || vget false q.b (guardOf b.sc) then scRises s a b.sc else (0, 0)
  q.ld + r.1 > 255 || q.st + r.2 > 255 || (b.hasWord && q.wf ≥ 255)

/-- SC instructions that may not stand in the last bundle of an active loop body (R128). -/
def notLast (i : Instr) : Bool :=
  match i with
  | .br _ _ | .j _ | .jal _ _ | .jr _ _ _ | .loop _ _ _ _ | .loops _ _ _ _ | .tend _ | .trap _ _ | .eret => true
  | _ => false

/-- The first slot of a bundle's word that holds an instruction, with it. -/
def Slots.firstCell (b : Slots) : Nat × Instr :=
  ((wordSlots b.va b.vb b.mx).find? fun x => x.2 ≠ .nop).getD (7, .nop)

/-- The fault of a bundle that decodes but may not issue as it stands: the last bundle of a loop (R128), a word in the monitor (R434)
or in a transfer phase (R380), a check against FMT (R187, R389). -/
def bundleBreak (s : State) (a : Nat) (b : Slots) : Option BundleFault :=
  let q := seqAt s a
  let ill (k : Nat) (d : Word) : Option BundleFault := some { code := 0x01, slot := k, detail := d }
  if isLoopLast q && notLast b.sc then ill 0 ((encode b.sc).setWidth 64)
  else if b.hasWord && q.mon then ill b.firstCell.1 ((encode b.firstCell.2).setWidth 64)
  else if b.hasWord && q.phase then ill b.firstCell.1 (BitVec.ofNat 64 (q.phaseOf.getD 0))
  else match (wordSlots b.va b.vb b.mx).find? fun x => fmtBreak q.fmt.inForce x.2 with
    | some x => ill x.1 ((encode x.2).setWidth 64)
    | none => none

/-- The word a bundle issues: its masks, FMT and tile slots are those before the bundle (R20, R133). -/
def wordIn (q : Seq) (b : Slots) : WordIn :=
  let m (i : Instr) : SelPair := vget {} q.w (cellUse 0 i).w
  { va := b.va, vb := b.vb, mx := b.mx, mva := m b.va, mvb := m b.vb, mmx := m b.mx, fmt := q.fmt.inForce, pc := q.pc, t := q.t }

/-! ## Taking effect -/

/-- Array `a` begins a bundle: a region that is to open opens, whatever the bundle then does (R437). -/
def beginBundle (s : State) (a : Nat) : State :=
  let s1 := { s with cur := Fin.ofNat 28 a, cell := {}, bun := {} }
  let q := seqAt s1 a
  if q.openNext && !q.mon then openRegion s1 a q.pc false else s1

/-- The state in which the slots of a bundle take effect: it has begun, and its next bundle follows. -/
def enterBundle (s : State) (a : Nat) (b : Slots) : State :=
  let s2 := beginBundle s a
  let s3 := modSeq s2 a fun q => { q with npc := q.pc + 24, stop := .run }
  { s3 with bun := { pre := some (preOf s3), word := [b.va, b.vb, b.mx] } }

/-- Run one slot of a bundle on the state the slots before it left; a bundle already held or faulted runs no further slot. -/
def runBundleSlot (s : State) (k : Nat) (i : Instr) : State :=
  if s.bun.raised.isSome || s.bun.blocked then s
  else
    let s1 := { s with cell := { slot := k }, bun := { s.bun with ins := i } }
    outState (exec i s1) s1

/-- Nothing of a bundle is under way. -/
def leaveBundle (s : State) (a : Nat) : State := { s with cell := {}, bun := {}, turn := a + 1 }

/-- Raise a precise fault at array `a` on the state before its bundle: no slot takes effect (R42), and no bundle issues in the cycle
(R426); the marks a failed check left in the memories stay (R211). -/
def raiseAt (base after : State) (a : Nat) (f : FaultInfo) : State :=
  let b := pmcAdd (if f.gate then (gateRelease base a).1 else base) a 0x04 1
  leaveBundle (raise { b with poison := after.poison, ecc := after.ecc, errs := after.errs } f) a

/-- The turn of array `a` passes without a bundle; `code` is the event of R426 that says why. -/
def heldTurn (s : State) (a code : Nat) : State := leaveBundle (pmcAdd (pmcAdd s a 0x04 1) a code 1) a

/-- The event of R426 for a bundle its SC slot holds: a counter at its limit, or what the instruction awaits. -/
def holdEvent (s : State) (i : Instr) : Nat :=
  if s.bun.why ≠ 0 then s.bun.why
  else match i with
  | .wait _ _ _ _ _ | .cbwait _ _ _ _ | .sync _ _ _ => 0x19
  | _ => 0

/-- A held bundle keeps what its SC slot has begun, and the event that its held cycles count under; a region that was to open opens at the
bundle's issue (R426, R437). -/
def keepHeld (s : State) (a : Nat) (open_ : Bool) (code : Nat) : State :=
  modSeq s a fun q => { q with openNext := open_ || q.openNext, heldFor := code, fetched := true }

/-- What a bundle held by KA or KB keeps: the entries that have left its gate buffer, and the walk they wait for (R438). -/
def keepGate (base after : State) (a : Nat) : State :=
  if (seqAt after a).h ≠ (seqAt base a).h || (seqAt after a).gate ≠ (seqAt base a).gate then (gateRelease base a).1 else base

/-- Advance the streams whose registers a bundle has read (R100). -/
def popStreams (s : State) (a : Nat) : State :=
  (List.range 8).foldl (fun s i =>
    if s.bun.popped.getLsbD (24 + i) then modPort s a (8 + i) fun p => portTake { p with elems := p.elems.tail } else s) s

/-- The sequencer once a bundle has issued: loop ends outside the monitor (R126), the next PC, and the FMT counts (R183). -/
def commitSeq (cyc : Nat) (mon : Bool) (q : Seq) : Seq :=
  let q1 := if mon then q else loopEnd q
  { q1 with pc := q1.npc, heldFor := 0, fetched := false, fmt := fmtStep q1.fmt, lastIssue := cyc, locks := q1.locks.filter fun e => cyc + 1 < e.2 }

/-- A bundle has issued; a pending invalidation of the code handle takes effect where the next bundle is not the next of its line; a taken
branch has met it itself (R351). -/
def commitBundle (base s : State) (a : Nat) : State :=
  let mon := (seqAt base a).mon
  let pc := (seqAt base a).pc
  let s1 := modSeq (popStreams s a) a (commitSeq s.cyc mon)
  let q := seqAt s1 a
  let s2 := if q.pc ≠ pc + 24 || q.pc % 192 = 0 || q.mon ≠ mon then codePoint s1 a else s1
  leaveBundle (noteStarted (pmcAdd s2 a 0x02 1) a) a

/-- The word of a bundle issues, and its names enter the region's sets (R20, R440). -/
def bundleWord (s : State) (a : Nat) (w : WordIn) (names : List Nat × List Nat) : State :=
  pmcAdd (issueWord (modSeq s a fun q => { q with reads := names.1, writes := names.2 }) a w) a 0x03 1

/-- The check of a bundle's word against its region (R440): the names it adds, or the fault REGION. -/
def wordRegion (base s : State) (a : Nat) (b : Slots) (w : WordIn) : Except FaultInfo (List Nat × List Nat) :=
  match (if b.hasWord then regionCheck s a w.fmt [b.va, b.vb, b.mx] else .ok ([], [])) with
  | .error n => .error { slotFault base 0x21 with slot := 7, detail := BitVec.ofNat 64 n }
  | .ok names => .ok names

/-- Whether the SC slot of a held bundle has just sent a full/empty request or made a SYNC's arrival. -/
def sendsNow (base s : State) (a : Nat) : Bool :=
  ((seqAt base a).feReq.isNone && (seqAt s a).feReq.isSome) || ((seqAt base a).syncGroup.isNone && (seqAt s a).syncGroup.isSome)

/-- The KA and KB slots of a bundle whose SC slot has sent a request and waits, run before it leaves: a fault, since no slot of a faulting
bundle takes effect, or the state in which they could take effect, or are held (R42; log 33). -/
def laterSlots (base s : State) (a : Nat) (b : Slots) (w : WordIn) : Except FaultInfo State :=
  match wordRegion base s a b w with
  | .error f => .error f
  | .ok _ =>
    let t := runBundleSlot (runBundleSlot { s with bun := { s.bun with blocked := false } } 4 b.ka) 5 b.kb
    match t.bun.raised with
    | some f => .error f
    | none => .ok t

/-- Run a bundle of array `a` whose checks it has passed: SC, KA and KB in order, then its word (R42, R223). -/
def runBundle (s : State) (a : Nat) (b : Slots) : State :=
  let base := enterBundle s a b
  let w := wordIn (seqAt base a) b
  let s1 := runBundleSlot base 0 b.sc
  match s1.bun.raised with
  | some f => raiseAt base s1 a f
  | none =>
    if s1.bun.blocked then
      (match (if sendsNow base s1 a then laterSlots base s1 a b w else .ok s1) with
       | .error f => raiseAt base base a f
       | .ok t =>
         if sendsNow base s1 a && t.bun.blocked then heldTurn (keepHeld (keepGate base t a) a (seqAt s a).openNext 0) a t.bun.why
         else heldTurn (keepHeld s1 a (seqAt s a).openNext (holdEvent s1 b.sc)) a (holdEvent s1 b.sc))
    else match wordRegion base s1 a b w with
    | .error f => raiseAt base s1 a f
    | .ok names =>
      let s2 := runBundleSlot (runBundleSlot s1 4 b.ka) 5 b.kb
      match s2.bun.raised with
      | some f => raiseAt base s2 a f
      | none =>
        if s2.bun.blocked then heldTurn (keepHeld (keepGate base s2 a) a (seqAt s a).openNext 0) a s2.bun.why
        else commitBundle base (if b.hasWord then bundleWord s2 a w names else s2) a

/-- A precise fault found before any slot of array `a` runs. -/
def raiseEarly (s : State) (a : Nat) (f : FaultInfo) : State :=
  let s1 := beginBundle s a
  raiseAt s1 s1 a f

/-- The fault record's fields of a bundle fault. -/
def faultOf (s : State) (a : Nat) (f : BundleFault) : FaultInfo :=
  { code := f.code, slot := f.slot, precise := true, pc := (seqAt s a).pc, cycle := s.cyc, detail := f.detail }

/-- A bundle that has been fetched is held before any slot of it runs; `code` is the event of R426 that says why (R351). -/
def heldFetched (s : State) (a code : Nat) : State := heldTurn (modSeq s a fun q => { q with fetched := true }) a code

/-- A decoded bundle at the head of array `a`: held, faulting, or run. -/
def tryBundle (s : State) (a : Nat) (b : Slots) : State :=
  if interlocked s a b then heldFetched s a 0x05
  else if countersFull s a b then heldFetched s a 0x08
  else match bundleBreak s a b with
    | some f => raiseEarly s a (faultOf s a f)
    | none =>
      if b.hasWord && !wordReady s a (wordIn (seqAt s a) b) then heldFetched s a 0x06
      else runBundle s a b

/-! ## The turn of an array -/

/-- A refused accumulate is sent again and again with no residual tile attached: issue stops until it is accepted (R260). -/
def accStops (s : State) (a : Nat) : Bool := (seqAt s a).outs.any (·.again)

/-- Whether the release of a FENCE that has left the gate buffer still stops issue (R236, R269; log 16). -/
def fenceStops (s : State) (a : Nat) : Bool := (seqAt s a).outs.any fun o => o.op = .fenceRel

/-- Whether a release at DEV or SYS not yet performed still has to flush the residual tile: issue stops until that flush is
acknowledged (R267). -/
def flushStops (s : State) (a : Nat) : Bool := (seqAt s a).residTile.isSome && (seqAt s a).outs.any flushesResid

/-- Whether an operation under way stops the issue of bundles and of generated words (R32, R236, R260, R267). -/
def issueStops (s : State) (a : Nat) : Bool := accStops s a || fenceStops s a || flushStops s a

/-- Array `a` issues its next bundle, unless something holds it (R32, R431). -/
def bundleTurn (s : State) (a : Nat) : State :=
  if trapWaits s a || issueStops s a then heldTurn s a 0
  else match fetch s a with
  | .wait s1 => heldTurn s1 a 0
  | .fault f => raiseEarly s a f
  | .bytes v => match decodeBundle (seqAt s a).mon v with
    | .error f => raiseEarly s a (faultOf s a f)
    | .ok b => tryBundle s a b

/-- The next generated word of a PLAY issues; after the last, rd is written and the next bundle may issue (R399). -/
def playTurn (s : State) (a : Nat) : State :=
  match (seqAt s a).play with
  | none => heldTurn s a 0
  | some y => match playWord (seqAt s a) y with
    | none => bundleTurn (playEnd s a y) a
    | some w =>
      if issueStops s a then heldTurn s a 0
      else if (seqAt s a).wf ≥ 255 then heldTurn s a 0x08
      else if !wordReady s a w then heldTurn s a 0x06
      else
        let s1 := issueWord s a w
        heldTurn (pmcAdd (modSeq s1 a fun q => { q with play := some { y with words := y.words.drop 1 } }) a 0x03 1) a 0

/-- The turn of array `a`, whose task is RUNNING, in a cycle (R32). -/
def arrayTurn (s0 : State) (a : Nat) : State :=
  let s := pmcAdd s0 a 0x01 1
  if stalled s a then heldTurn s a 0
  else match (seqAt s a).stop with
  | .run => bundleTurn s a
  | .hold c => if s.cyc < c then heldTurn s a (seqAt s a).heldFor else bundleTurn s a
  | .play => playTurn s a
  | .pend => heldTurn (resumePend s a) a 0
  | .pause _ => heldTurn s a 0x1A
  | _ => heldTurn s a 0

end Sys2Proof.Machine
end

