-- ==== Sys2Proof/Machine/Schedule.lean ====
section
/-! DEFINITION. What happens next (log 2): the outside action that is due, the events whose cycle the manual fixes, the events that may
happen at any time, and otherwise the turns of the arrays and the next cycle. -/

namespace Sys2Proof.Machine

/-- An event with its arguments. -/
abbrev Happening := Ev × Instr

/-- The first place of a list that meets a test. -/
def firstIx {α : Type} (l : List α) (p : Nat → Bool) : Option Nat := (List.range l.length).find? p

/-! ## Outside actions -/

/-- Events the outside brings about: the host's, peers', the pins' and the administrative function's over MCTP. -/
def isOutside (i : Instr) : Bool :=
  match i with
  | .linkFailure | .windowContribution | .doorbell | .qcfg | .qctlResume | .qctlSkip | .jctlCancel | .jctlKill | .jhead | .aqcfg
  | .registerWrite | .partCreate | .partArrays | .partDissolve | .ptroot | .invalidate | .keyLoad | .keyAssign | .shares
  | .queueAssign | .waymask | .netReserve | .hbmReserve | .channels | .clockLock | .redwin | .migtable | .migrate | .quota
  | .readrec | .monitor | .savepool | .tileAlloc | .tileFree | .preempt | .power | .freeze | .debugUnlock | .frzN | .powerWindow
  | .thermalTrip | .hostFetchadd | .hostSwap | .hostCas | .flr | .function0Reset | .coldReset | .ucieLinkTrain | .hbmTrain
  | .pcieEnumerate | .rhodiPortTrain | .getCertificate | .getMeasurements | .firmwareUpdate | .hostWrite | .peerRequest | .eccError
  | .spdmKeyExchange => true
  | _ => false

/-- A stage of bring-up (R461). -/
def isBringUp (i : Instr) : Bool :=
  match i with
  | .coldReset | .ucieLinkTrain | .hbmTrain | .pcieEnumerate | .rhodiPortTrain => true
  | _ => false

/-- A request to freeze the package (R463). -/
def isFreeze (i : Instr) : Bool :=
  match i with
  | .freeze | .frzN => true
  | _ => false

/-- Whether an outside action waits: another chip's move of a page, while accumulates to that page are still to be accepted (R260, R357). -/
def inputWaits (s : State) (e : Ev) (i : Instr) : Bool := i = .peerRequest && e.q ≥ 5 && invalWaits s e.p e.x0.toNat 1

/-- Of a list of outside actions, the one whose cycle has come, with those that remain; a freeze requested together with a stage of bring-up
goes first (R463). -/
def dueIn (s : State) : List (Nat × Ev × Instr) → Option (Happening × List (Nat × Ev × Instr))
  | [] => none
  | (c, e, i) :: t =>
    if s.cyc < c then none
    else if inputWaits s e i then (dueIn s t).map fun r => (r.1, (c, e, i) :: r.2)
    else if isBringUp i then
      (match (List.range t.length).find? fun k => match t[k]? with
          | some x => x.1 = c && isFreeze x.2.2
          | none => false with
       | some k => (t[k]?).map fun x => ((x.2.1, x.2.2), (c, e, i) :: ldel t k)
       | none => some ((e, i), t))
    else some ((e, i), t)

/-- The outside action whose cycle has come, with those that remain. -/
def dueInput (s : State) : Option (Happening × List (Nat × Ev × Instr)) := dueIn s s.inputs

/-! ## The order of service of one cycle -/

/-- Banks and deques an outstanding operation acts on, with its place in their order (R200, R202, R331). -/
def outServed (a : Nat) (o : Out) : List (Nat × Nat) :=
  let words : List Nat := (List.range (ceilDiv o.size 4)).map fun k => o.pl.pa + 4 * k
  match o.op with
  | .amo _ _ _ | .cas _ _ _ | .acc _ _ => servedAt words a .home
  | .dqpush _ _ _ | .dqpop _ _ => [(dequeUnit a, 0)]
  | .dqsteal _ _ x => [(dequeUnit x, 1 + a)]
  | _ => if hasBytes o then servedAt words a .seq else []

/-- Bytes of a tile's storage of which one cycle of all banks takes some. -/
def tileWords (t : Tile) : List Nat := (List.range (Nat.min 64 t.words)).map fun k => tileBase t 0 + 4 * k

/-- Bytes of the tiles a list of slots names for a command. -/
def cmdWords (s : State) (c : Cmd) (slots : List Nat) : List Nat :=
  slots.flatMap fun k => match cmdTile c k with
    | none => []
    | some n => tileWords (tileAt s n)

/-- Tile slots a command reads through: its source, and its list or mask (R298, R301). -/
def readSlots (c : Cmd) : List Nat :=
  match c.op with
  | 1 => locSlots c.ra
  | 2 | 3 => locSlots c.ra ++ locSlots (cmdX c 3)
  | 4 => locSlots c.ra ++ locSlots (cmdX c 5)
  | _ => []

/-- Banks the flush of an array's residual tile acts on: those of the tile, and those of its entries' homes (R266). -/
def residServed (s : State) (a : Nat) : List (Nat × Nat) :=
  match residOf s a with
  | none => []
  | some (base, m) =>
    let l := resValidList s base m
    servedAt (l.map fun k => base + 16 * k) a .seq ++ servedAt (l.map fun k => resPa (resAt s base k)) a .home

/-- Banks and deques an event acts on, with its place in their order of service. -/
def eventServed (s : State) (h : Happening) : List (Nat × Nat) :=
  let a := h.1.a
  let k := h.1.k
  match h.2 with
  | .loadReturn | .storePerformed | .amoAtHome | .accAtHome => (((seqAt s a).outs[k]?).map (outServed a)).getD []
  | .flushresComplete | .retirementComplete => residServed s a
  | .nop => (((seqAt s a).feReq).map fun r => servedAt [r.addr] a .seq).getD []
  | .sectorLand => (((engAt s a k).flight.head?).map fun x => servedAt (x.cells.map (·.1)) a (.eng k)).getD []
  | .enginePageTranslate => (((engAt s a k).queue.head?).map fun c => servedAt (cmdWords s c (readSlots c)) a (.eng k)).getD []
  | .phaseFlit =>
    if a < 28 then
      (((flitDue s a k).bind fun i => (engAt s a k).queue[i]?).map fun c => servedAt (leaveBytes s c) a (.eng k)).getD []
    else match ejectDue s with
      | none => []
      | some f => (((imuxOf s f).bind fun i => s.imux[i]?).map fun r => servedAt (landBytes s r) f.src (.eng f.eng)).getD []
  | .edgeLoaderFill => rankedAt (fillBanks s k (portAt s a k)) a .loader
  | .impalaRank => rankedAt (rankBanks s (portAt s a k)) a .loader
  | .drainWrite => ((drainBanks s (portAt s a k)).eraseDups).map fun w => (w.1, serviceRank w.1 a (.eng w.2))
  | _ => []

/-- Whether an event may still happen in this cycle: the banks it reads or writes have served nothing in it, and a thief comes after the
owner's turn (R200, R202, R331). -/
def inTurn (s : State) (h : Happening) : Bool :=
  let l := eventServed s h
  serviceOpen s l && l.all fun x => x.1 < dequeUnit 0 || x.2 = 0 || !runs s (x.1 - dequeUnit 0) || s.turn > x.1 - dequeUnit 0

/-- The event in which the loader of a port delivers (R280, R404). -/
def fillEvent (p : Port) : Instr := if isRankPort p then .impalaRank else .edgeLoaderFill

/-- Whether the loader of a port delivers now: it is ready, and the banks it reads have served nothing else in this cycle (R200, R280). -/
def fillDue (s : State) (a n : Nat) : Bool := portReady s a n && inTurn s ({ a := a, k := n }, fillEvent (portAt s a n))

/-! ## Events whose cycle is fixed -/

/-- The array whose turn it is in this cycle. -/
def nextTurn (s : State) : Option Nat := (List.range 28).find? fun a => s.turn ≤ a && runs s a

/-- A pre-emption of array `a` that takes effect, or begins to quiesce, now (R30, R444); one that finds the bundle held in SYNC waits for
the arrivals of the cycle, since a completion comes first (R421). -/
def preemptNow (s : State) (a : Nat) : Bool :=
  (canStop s a && ((seqAt s a).syncGroup.isNone || (nextTurn s).isNone)) || (drained s a && (match taskOf s a with
    | none => false
    | some (_, t) => t.quiesce.isNone))

/-- Whether the pause of a sequencer has run out (R422). -/
def pauseOver (s : State) (a : Nat) : Bool :=
  match (seqAt s a).stop with
  | .pause c => c ≤ s.cyc
  | _ => false

/-- Whether the freeze of a placement ends now (R146). -/
def stallOver (s : State) (a : Nat) : Bool :=
  match (seqAt s a).stallEnd with
  | none => false
  | some (e, _) => e ≤ s.cyc

/-- Whether frame 0 of the phase a sequencer waits for begins now (R380). -/
def frameNow (s : State) (a : Nat) : Bool :=
  match (seqAt s a).after with
  | some (.frame _ c) => c ≤ s.cyc
  | _ => false

/-- LOCQ 0x3 on a page its array's TLB holds is answered at its cycle (R359). -/
def locqDue (s : State) (a k : Nat) : Bool :=
  let l := (seqAt s a).outs
  match l[k]? with
  | none => false
  | some o => (match o.op with
    | .locq _ va => o.due ≤ s.cyc && (tlbLookup s a (seqAt s a).part va.toNat).isSome && outReady l k
    | _ => false)

/-- A refused accumulate is sent again at the start of the quota window it waits for (R260). -/
def resendDue (s : State) (a k : Nat) : Bool :=
  let l := (seqAt s a).outs
  match l[k]? with
  | none => false
  | some o => (match o.op with
    | .accRefused _ _ => 0 < o.due && o.due ≤ s.cyc && outReady l k
    | _ => false)

/-- Whether the sequencer of array `a` fetches a bundle in this cycle whose line its instruction cache lacks: the line arrives at once, as
the cycles of the wavefront programs have it (R114, R465, R468; log 2). -/
def codeWanted (s : State) (a : Nat) : Bool :=
  (missingLine s a).isSome && s.turn ≤ a && !stalled s a && !trapWaits s a && !issueStops s a && (match (seqAt s a).stop with
    | .run => true
    | .hold c => c ≤ s.cyc
    | .play => (seqAt s a).play.any fun y => y.words = []
    | _ => false)

/-- Whether a flit of an engine leaves now: one is due, and nothing that follows it in a bank's order has been served in this cycle. It keeps
its slot though a bank has served an access before it (R200, R381; log 68). -/
def flitLeaves (s : State) (a e : Nat) : Bool :=
  (flitDue s a e).isSome && orderOpen s (eventServed s ({ a := a, k := e }, .phaseFlit))

/-- Whether the flits of an ejection slot land now, in the same way. -/
def flitsLand (s : State) : Bool := (ejectDue s).isSome && orderOpen s (eventServed s ({ a := 28 }, .phaseFlit))

/-- Whether the full/empty request of array `a` reaches its bank now (R200, R201). -/
def feComes (s : State) (a : Nat) : Bool :=
  ((seqAt s a).feReq.any fun r => !r.queued && r.due ≤ s.cyc) && serviceOpen s (eventServed s ({ a := a }, .nop))

/-- The request of array `a` reaches its bank (R200, R201). -/
def feServe (s : State) (a : Nat) : State :=
  match (seqAt s a).feReq with
  | none => s
  | some r => feArrive (countHome s a r.addr) a

/-- The event of a RUNNING placement that happens now, with its place or engine. -/
def arrDue (s : State) (a : Nat) : Option (Nat × Instr) :=
  if stallOver s a then some (0, .globalStallEnd)
  else match firstIx (arr s a).words (wordDue s a) with
  | some k => some (k, .wordExecute)
  | none =>
    if aggDue s a then some (0, .aggregatesArrive)
    else if frameNow s a then some (0, .phaseFrameStart)
    else match (List.range 4).find? (flitLeaves s a) with
    | some e => some (e, .phaseFlit)
    | none =>
      if let some k := firstIx (seqAt s a).outs (locqDue s a) then some (k, .loadReturn)
      else if let some k := firstIx (seqAt s a).outs (resendDue s a) then some (k, .accResend)
      else if retryDue s a then some (0, .feRetry)
      else if let some e := (List.range 4).find? (bindStarts s a) then some (e, .commandStart)
      else if let some e := (List.range 4).find? (bindEnds s a) then some (e, .commandEnd)
      else if let some x := (arr s a).ports.find? fun x => fillDue s a x.1 then
        some (x.1, fillEvent x.2)
      else if (compileDue s a).isSome then some (0, .compileEnd)
      else if (compileNext s a).isSome then some (0, .compileBegin)
      else if pauseOver s a then some (0, .pauseExpire)
      else if watchdogDue s a then some (0, .watchdog)
      else if trapDue s a then some (0, .trapTaken)
      else if preemptNow s a then some (0, .preemption)
      else if quiesceEnds s a then some (0, .quiesceExpire)
      else if codeWanted s a then some (0, .instructionCacheFill)
      else none

/-- The event of a launch queue that happens now: a WAITC past its timeout, or whose word is to be read again (R318). -/
def queueDue (s : State) (q : Nat) : Option Instr :=
  if waitcLate s q then some .waitcTimeout
  else match (queueAt s q).wait with
  | some (.waitc _ last _) => if s.cyc - last ≥ 1024 then some .waitcPoll else none
  | _ => none

/-- The event of a partition that happens now (R27, R30, R324, R448). -/
def partDue (s : State) (p : Nat) : Option Instr :=
  if agingDue s p then some .agingStep
  else if (nextBlocking s p).isSome then some .blockingTaskTimeout
  else if (assigns s p true).isSome then some .resumption
  else if startDue s p then some .taskStart
  else none

/-- Whether the administrative tail is read now: 65,536 cycles after its last read, or 64 after a command has completed (R452). -/
def tailDue (s : State) : Bool :=
  s.admin.en && s.admin.st ≠ 3 && (s.cyc - s.admin.polled ≥ 65536 || s.admin.doneAt.any fun c => s.cyc - c ≥ 64)

/-- The first event of a list of places that happens now. -/
def firstDue (l : List Nat) (f : Nat → Option Happening) : Option Happening := l.findSome? f

/-- The event that happens now, if there is one whose cycle is fixed. -/
def dueEvent (s : State) : Option Happening :=
  if s.window < s.cyc / 256 then some ({}, .quotaWindowStart)
  else if let some a := (List.range 28).find? (feComes s) then some ({ a := a }, .nop)
  else match firstDue (below 28 (runs s)) fun a => (arrDue s a).map fun x => ({ a := a, k := x.1 }, x.2) with
  | some h => some h
  | none =>
    if flitsLand s then some ({ a := 28 }, .phaseFlit)
    else match firstDue (s.queues.map (·.1)) fun q => (queueDue s q).map fun i => ({ q := q }, i) with
    | some h => some h
    | none => match firstDue (below 28 fun p => (partAt s p).alive) fun p => (partDue s p).map fun i => ({ p := p }, i) with
      | some h => some h
      | none =>
        if (triggerDue s).isSome then some ({}, .migrationTrigger)
        else if tailDue s then some ({}, .aqTailPoll) else none

/-- The accesses of banks whose cycle has come: full/empty requests, flits, and what loaders deliver. -/
def dueAccesses (s : State) : List Happening :=
  (below 28 (feComes s)).map (fun a => ({ a := a }, .nop))
    ++ (below 28 (runs s)).flatMap (fun a =>
      (below 4 (flitLeaves s a)).map (fun e => ({ a := a, k := e }, .phaseFlit))
        ++ ((arr s a).ports.filter fun x => fillDue s a x.1).map fun x => ({ a := a, k := x.1 }, fillEvent x.2))
    ++ (if flitsLand s then [({ a := 28 }, .phaseFlit)] else [])

/-- Whether accesses stand before others in the order of a bank they share (R200, R202). -/
def precedes (l m : List (Nat × Nat)) : Bool := l.any fun y => m.any fun z => z.1 = y.1 && y.2 < z.2

/-- Of the accesses whose cycle has come, one that a bank serves before a due one, and so on; else that one. -/
def firstServed (s : State) : Nat → Happening → Happening
  | 0, h => h
  | n + 1, h => match eventServed s h with
    | [] => h
    | l => match (dueAccesses s).find? fun x => precedes (eventServed s x) l with
      | none => h
      | some x => firstServed s n x

/-! ## Events that may happen at any time -/

/-- The event an outstanding operation waits for, if it may be performed now. -/
def outOpen (s : State) (a k : Nat) (o : Out) : Option Instr :=
  let ready := outReady (seqAt s a).outs k
  match o.op with
  | .flushres => if accBefore s a k then none else some .flushresComplete
  | .amo _ _ _ | .cas _ _ _ => if ready then some .amoAtHome else none
  | .amoRet _ _ _ _ => if ready then some .atomicReturn else none
  | .acc _ _ => if ready then some .accAtHome else none
  | .accRefused _ _ => if ready && o.due = 0 then some .accRefused else none
  | _ => if !ready then none else if ldClass o then (if o.due ≤ s.cyc then some .loadReturn else none) else some .storePerformed

/-- Events of the sequencer of a RUNNING placement. -/
def seqOpen (s : State) (a : Nat) : List (Nat × Instr) :=
  let q := seqAt s a
  ((List.range q.outs.length).filterMap fun k => (q.outs[k]?).bind fun o => (outOpen s a k o).map fun i => (k, i))
    ++ ((below 16 fun k => (vget {} q.h k).st = .walking).map fun k => (k, .handleWalkEnd))
    ++ (if canRetire s a then [(0, .retirementComplete)] else [])
    ++ (if canSave s a then [(0, .preemption)] else [])

/-- Events of the engines of a RUNNING placement. -/
def engOpen (s : State) (a : Nat) : List (Nat × Instr) :=
  (List.range 4).flatMap fun e =>
    (if canStart s a e then [(e, .commandStart)] else [])
      ++ (if canSend s a e then [(e, .enginePageTranslate)] else [])
      ++ (if (engAt s a e).flight ≠ [] then [(e, .sectorLand)] else [])
      ++ (if canEnd s a e then [(e, .commandEnd)] else [])

/-- Events of the ports of a RUNNING placement; what a loader delivers is due where its banks are free (`fillDue`). -/
def portOpen (s : State) (a : Nat) : List (Nat × Instr) :=
  if stalled s a then []
  else (arr s a).ports.flatMap fun p => if drainReady s a p.1 then [(p.1, .drainWrite)] else []

/-- The event of the interpreter that reads an entry, by its KIND; a faulting read or an unknown KIND halts the queue whichever event
reads it (R490). -/
def entryEvent (s : State) (q : Nat) : Option Instr :=
  match listNext s q with
  | .idle => none
  | .fault => some .launch
  | .entry _ _ e => some (match entKind e with
    | 2 => .xfer
    | 3 => .skipif
    | 4 => .jump
    | 5 => .call
    | 6 => .ret
    | 7 => .waitc
    | 8 => .signal
    | 9 => .listFence
    | 10 => .groupset
    | 11 => .note
    | 12 => .haltq
    | _ => .launch)

/-- Events of a launch queue (R309, R310, R318, R320, R321). -/
def queueOpen (s : State) (q : Nat) : List Instr :=
  let x := queueAt s q
  match x.wait with
  | some (.waitc _ _ _) => [.waitcPoll]
  | some (.fence _) => if queueFinal s q then [.listFenceDone] else []
  | some (.groupset _) => [.groupsetDone]
  | some (.xfer _) => []
  | none => if !walks x then [] else if x.lpc.isNone then (if x.head = x.tail then [] else [.ringEntry]) else (entryEvent s q).toList

/-- Events of a partition: assignment, start and resumption of its tasks (R24, R30, R324, R448). -/
def partOpen (s : State) (p : Nat) : List Instr :=
  if s.tasks.any fun t => t.part = p && (t.st = .ready || t.st = .preempted) then [.taskStart, .resumption] else []

/-- Whether a command waits for accumulates that are still to be accepted: an invalidation or a move of their page, or the end of their
partition (R260, R348, R357; log 49). -/
def commandWaits (s : State) (e : BitVec 512) : Bool :=
  let p := bitsOf e 23 16
  match opcodeInstr (cmdOpcode e) with
  | some .invalidate => invalWaits s p (bitsOf e 127 64) (bitsOf e 191 128)
  | some .migrate => invalWaits s p (bitsOf e 127 64) 1
  | some .partDissolve => s.accDue.any fun x => x.part = p
  | _ => false

/-- The administrative function's next step: the command read first, or a read of the tail (R452, R453). -/
def adminOpen (s : State) : List Instr :=
  if s.admin.cur.isSome then []
  else match s.admin.fetched with
  | m :: _ => if cmdBad m.e then [.aqTailPoll] else if commandWaits s m.e then [] else (opcodeInstr (cmdOpcode m.e)).toList
  | [] => if s.admin.en && s.admin.st ≠ 3 then [.aqTailPoll] else []

/-- Every event that may happen now and may as well wait. -/
def openEvents (s : State) : List Happening :=
  let l : List Happening :=
    (below 28 (runs s)).flatMap (fun a => (seqOpen s a ++ engOpen s a ++ portOpen s a).map fun x => ({ a := a, k := x.1 }, x.2))
      ++ s.queues.flatMap (fun q => (queueOpen s q.1).map fun i => ({ q := q.1 }, i))
      ++ ((List.range s.xfers.length).filter (xferDue s)).map (fun k => ({ k := k }, .xferComplete))
      ++ (List.range 28).flatMap (fun p => (partOpen s p).map fun i => ({ p := p }, i))
      ++ (adminOpen s).map (fun i => (({} : Ev), i))
  l.filter (inTurn s)

/-! ## What comes next -/

/-- What one step does. -/
inductive Next where
  /-- FREEZE has stopped every clock (R463). -/
  | frozen
  /-- An event happens. -/
  | event (i : Instr) (s : State)
  /-- An array has its turn. -/
  | turn (a : Nat) (s : State)
  /-- The cycle ends. -/
  | tick (s : State)

/-- The turn of an array, or the end of the cycle. -/
def turnOrTick (s : State) : Next :=
  match nextTurn s with
  | some a => .turn a s
  | none => .tick s

/-- An administrative command is read from the ring as its event begins (R453). -/
def beginEvent (s : State) (h : Happening) : State :=
  match adminOpen s with
  | i :: _ => if i = h.2 && i ≠ .aqTailPoll then loadCommand s else { s with ev := h.1 }
  | [] => { s with ev := h.1 }

/-- An event happens: its accesses have been served, and a command is read as it begins; a full/empty request, which is no event of its own,
reaches its bank. -/
def takeEvent (s : State) (h : Happening) : Next :=
  let s1 := markServed s (eventServed s h)
  if h.2 = .nop then .event .nop (feServe s1 h.1.a) else .event h.2 (beginEvent s1 h)

/-- Choose among the events that may happen now: two free values say whether one does, and which; otherwise `rest` happens (log 2). -/
def chooseOpen (s : State) (l : List Happening) (rest : State → Next) : Next :=
  let s1 := { s with free := s.free + 2 }
  if Config.takeOpen s.free then
    (match l[Config.pick (s.free + 1) % l.length]? with
     | some h => takeEvent s1 h
     | none => rest s1)
  else rest s1

/-- Events that may happen now, and stand before an event in the order of service of a bank it acts on (R200, R202). -/
def servedBefore (s : State) (h : Happening) : List Happening :=
  match eventServed s h with
  | [] => []
  | l => (openEvents s).filter fun x => precedes (eventServed s x) l

/-- A FREEZE message that has come: it does not wait (R451). -/
def freezeDue (s : State) : Option (Nat × BitVec 512) := s.mctp.find? fun m => m.1 ≤ s.cyc && isFreezeEntry m.2

/-- An outside action happens: a command that is no FREEZE joins those in arrival order (R451); an input that is no outside event is
dropped. -/
def takeInput (s : State) (h : Happening) : Next :=
  match opcodeOf h.2 with
  | some op =>
    if isFreeze h.2 then .event h.2 s
    else .event .nop { s with admin := { s.admin with fetched := s.admin.fetched ++ [{ e := entryOf op h.1, mctp := true }] } }
  | none => .event (if isOutside h.2 then h.2 else .nop) s

/-- The first cold reset to come: nothing else lands once every clock has stopped, and what was to come before it is lost (R463). -/
def resetInput (s : State) : Option (Happening × List (Nat × Ev × Instr)) :=
  (s.inputs.findIdx? fun x => x.2.2 = .coldReset).bind fun k => (s.inputs[k]?).map fun x => ((x.2.1, x.2.2), s.inputs.drop (k + 1))

/-- What the machine does while the outside does nothing: an event whose cycle has come, in the order in which a bank serves those that meet
there, once the open ones have had their chance that a bank serves before it; an open event; the turn of an array; or the next cycle. -/
def ownStep (s : State) : Next :=
  match dueEvent s with
  | some h0 => let h := firstServed s 256 h0; (match servedBefore s h with
    | [] => takeEvent s h
    | l => chooseOpen s l fun s => takeEvent s h)
  | none => match openEvents s with
    | [] => turnOrTick s
    | l => chooseOpen s l turnOrTick

/-- A FREEZE message begins. -/
def takeFreeze (s : State) (m : Nat × BitVec 512) : Next :=
  .event .freeze { s with mctp := s.mctp.erase m, ev := { flag := true, k := bitsOf m.2 63 32 } }

/-- What the machine does next: an outside action that is due, a FREEZE message, which goes before a stage of bring-up (R463), or what it
does of itself. -/
def nextStep (s : State) : Next :=
  if s.pkg.frozen then (match resetInput s with
    | some (h, rest) => .event h.2 { s with inputs := rest, ev := h.1 }
    | none => .frozen)
  else match dueInput s, freezeDue s with
    | some (h, rest), m =>
      (match m.filter fun _ => isBringUp h.2 with
       | some m => takeFreeze s m
       | none => takeInput { s with inputs := rest, ev := h.1 } h)
    | none, some m => takeFreeze s m
    | none, none => ownStep s

/-! ## The next cycle -/

/-- The XLATs whose 16 cycles are over take effect (R347). -/
def xlatsTake (s : State) : State :=
  (below 28 fun a => (seqAt s a).xlats ≠ []).foldl (fun s a => (seqAt s a).xlats.foldl (fun s _ => xlatDue s a) s) s

/-- The next cycle begins: nothing has arrived or been served in it yet; what stands at its cycle takes effect: XLATs, entries of the
tile table that nothing uses any more, and messages. -/
def tick (s : State) : State :=
  let s1 := { s with cyc := s.cyc + 1, turn := 0, served := [], arrs := s.arrs.map fun x => { x with seq := { x.seq with now := {} } } }
  let s2 := acceptMctp (xlatsTake s1)
  if s2.tiles.any fun e => e.2.st = .freed then sweepTiles s2 else s2

/-! ## A program loaded from outside -/

/-- A leaf of the first 48 KiB of device memory that may be read, written and executed (R338). -/
def programLeaf : Word := 0x3F

/-- The task a loaded program runs as: task 0 of partition 0 on array 0. -/
def programTask : Task :=
  { part := 0, tid := 0, jseq := 0, queue := 0, cookie := 0, ref := 0, lrec := 0, args := [], binds := [], st := .running,
    started := true }

/-- Array 0 as it runs a loaded program: its sequencer fetches through h15, at offset 0, a line that holds the program. -/
def programArr (x : Arr) (i line : Nat) : Arr :=
  { x with
    owner := some 0
    task := some i
    icache := [(0, BitVec.ofNat 1536 line)]
    seq := { x.seq with
      pc := 0, mon := false, stop := .run, after := none, pending := [], located := [], locks := [], play := none, codeInval := false
      monInval := false
      feReq := none, feDone := none, permAt := none, retryAt := none, preemptReq := false, stallEnd := none
      h := vset x.seq.h 15 { st := .valid, va := 0, leaf := programLeaf } } }

/-- Load a bundle, given as a number of 24 bytes, at address 0, and start a task of partition 0 on array 0 that fetches it next; the
outside does nothing more (log 11). -/
def loadBundle (s : State) (v : Nat) : State :=
  let i := s.tasks.length
  { s with
    mem := writeNat s.mem 0 24 v
    inputs := []
    mctp := []
    turn := 0
    tasks := s.tasks ++ [programTask]
    parts := vmod {} s.parts 0 fun p => { p with alive := true, arrays := p.arrays ||| 1 }
    arrs := vmod {} s.arrs 0 fun x => programArr x i v }

/-- The bundle that holds an instruction word in the first slot that accepts it, the other slots NOP (log 7). -/
def bundleOf (w : Nat) : Nat :=
  match decodeWord (BitVec.ofNat 32 w) with
  | some (k, _) => w % 2 ^ 32 * 2 ^ (32 * k)
  | none => w % 2 ^ 32

end Sys2Proof.Machine
end

