-- ==== Sys2Proof/Machine/Step.lean ====
section
/-! DEFINITION. One step of the machine: an event happens, or an array has its turn, or the cycle ends. -/

namespace Sys2Proof.Machine

/-- One step. -/
def step (s : State) : Host.Outcome State Fault Refusal :=
  match nextStep s with
  | .frozen => .fault .frozen
  | .event i t => exec i t
  | .turn a t => .next (arrayTurn t a)
  | .tick t => .next (tick t)

/-- The state in which `step` fetches and runs the instruction whose table bits are `w`: a program of one bundle is loaded. -/
def State.withFetchWord (s : State) (_nbits w : Nat) : State := loadBundle s (bundleOf w)

end Sys2Proof.Machine
end

