-- ==== Sys2Proof/Safety.lean ====
section
/-! DEFINITION. What counts as a safe run, in the terms the claims use: runs of the machine, the canonical form of its tables, and the
conditions under which an instruction takes its own effect. -/

namespace Sys2Proof.Machine

/-- A state that `n` steps lead to (the outside's actions stand in the first state's inputs). -/
inductive Reaches : State → Nat → State → Prop where
  | refl (s : State) : Reaches s 0 s
  | step {s t u : State} {n : Nat} (h : Reaches s n t) (hs : Machine.step t = .next u) : Reaches s (n + 1) u

/-- The memories are in their one canonical form. -/
def State.MemCanonical (s : State) : Prop := Memory.wf s.mem = true

/-- What an SC, KA or KB slot needs to take its own effect: its predicate holds (R113), every bound register it reads has an element
(R100), no register it reads is marked poisoned (R217), and no register it writes is bound (R100). -/
def SlotReady (s : State) (p : Nat) (srcs dsts : List Nat) : Prop :=
  pred s p = true ∧ (∀ r ∈ srcs, isBound s (curA s) r = true → (portAt s (curA s) (portReg r)).elems ≠ []) ∧
    (∀ r ∈ srcs, isPoisoned s r = false) ∧ ∀ r ∈ dsts, isBound s (curA s) r = false

/-- The state in which an instruction that releases the gate buffer goes on: the monitor gates nothing (R434); elsewhere every entry
has left, one each cycle (R438). -/
def Released (s t : State) : Prop :=
  ((curSeq s).mon = true ∧ t = s) ∨
  ((curSeq s).mon = false ∧ ∃ u n, gateRelease s (curA s) = (u, n, .done) ∧ t = if n > 0 then holdUntil u (s.cyc + n) else u)

/-- The state after an entry has gone into the gate buffer of the open region: with 64 entries held the buffer is first released and a
new region opens at the bundle, as at a MARK (R439). -/
def Gated (s : State) (e : GateEntry) (t : State) : Prop :=
  ((curSeq s).gate.length < 64 ∧ t = modCur s fun q => { q with gate := q.gate ++ [e] }) ∨
  (64 ≤ (curSeq s).gate.length ∧
    ∃ u, Released s u ∧ t = modCur (openRegion u (curA u) (curSeq u).pc true) fun q => { q with gate := q.gate ++ [e] })

/-- What a cell slot that reads the lanes `m` of its operands needs to take its own effect in the cell under the cursor: its selector
pair selects the cell, no earlier slot of the word faulted there (R147, R159), and no operand is in error in a lane it reads, or
desynchronised (R142, R284). -/
def CellReadyOn (s : State) (codes : List Nat) (m : List Frag → List (BitVec 32)) : Prop :=
  slotLive s = true ∧ firstFault s (codes.zip (m ((codes.map (readOp s)).map (·.frag)))) = none

/-- The same for a slot that reads every lane of its operands. -/
def CellReady (s : State) (codes : List Nat) : Prop := CellReadyOn s codes fun _ => codes.map fun _ => allLanes

/-- What a KA or KB slot needs to take its own effect: as `SlotReady`, of the registers as they stood before the bundle (R42, R100,
R111, R113, R217). -/
def CopyReady (s : State) (p : Nat) (srcs dsts : List Nat) : Prop :=
  kpred s p = true ∧ (∀ r ∈ srcs, isBound s (curA s) r = true → (portAt s (curA s) (portReg r)).elems ≠ []) ∧
    (∀ r ∈ srcs, r = 0 ∨ (preOf s).poisoned.getLsbD r = false ∨ isBound s (curA s) r = true) ∧
    ∀ r ∈ dsts, isBound s (curA s) r = false

/-- The state in which a checked command has entered the queue of engine `e`: it stands last, with what it latched (R286), the next
sequence number is taken, cp counts it, and the CELL tiles it will write have a new VERSION (R393). -/
def commandEntered (s : State) (i : Instr) (e : Nat) (ra rb : Word) (dst : Option Word) (tiles : List (Nat × Nat)) : State :=
  let v : State := (cellDest s tiles dst).foldl (fun s n => bumpCell s (curPart s) n) s
  modCur (modEng v (curA v) e fun g => { g with queue := g.queue ++ [newCmd s i e ra rb tiles], seqNext := g.seqNext + 1 }) fun q =>
    { q with cp := q.cp + 1 }

/-- The state in which the run of a PLAY has begun on checked words (R399): a run without words has written rd; one with words keeps
them, with the masks of selector pair `w`, to be issued in the turns that follow. -/
def runBegun (u : State) (d w : Nat) (words : List (Instr × Instr × Instr × Bool)) (entry mapBase : Nat) (status : Word)
    (reads writes : List Nat) : State :=
  let v := touchProg u (curA u) entry
  if words = [] then modCur (result v d status 1) fun q => { q with reads := reads, writes := writes }
  else modCur v fun q =>
    { q with reads := reads, writes := writes, stop := .play
             play := some { rd := d, fmt := (curSeq u).fmt.inForce, mask := vget {} q.w w, words := words, mapBase := mapBase,
                            status := status, pc := q.pc, entry := entry } }

/-- What a queue must hold for its next list entry `e`, of a kind, to take its own effect: the walk reads it at `a` for partition `p`,
it is well formed, and the journal has room (R310, R312, R333). -/
def EntryAt (s : State) (q kind p a : Nat) (e : BitVec 256) : Prop :=
  listNext s q = .entry p a e ∧ entKind e = kind ∧ entryBad s p e = false ∧ jFull s p = false

/-- The state in which an entry of a list at `a` has been read and accepted: its journal entry is written, ACCEPTED (R312). -/
def entryAccepted (s : State) (q p a kind detail : Nat) : State :=
  journalNew (entryMeet s p a) p q kind jAccepted a 0 (queueAt s q).cookie.toNat detail

/-- What an administrative command needs to be looked at: the chip is not in recovery, and its unused parameters are zero (R453). -/
def AdminRuns (s : State) (n : Nat) : Prop := s.pkg.recovery = false ∧ ∀ k, k < 6 → n ≤ k → param s k = 0

/-- The same for a command that names a partition: it exists (R453, R456). -/
def AdminPart (s : State) (n : Nat) : Prop := AdminRuns s n ∧ s.ev.p < 28 ∧ (partAt s s.ev.p).alive = true

/-- The state in which a command that changed `t` has completed OK with a result (R453). -/
def adminDone (t : State) (r : Nat) : State := completeAdmin (t, 0, BitVec.ofNat 64 r)

/-- SC instructions of two scalar sources and one destination, and DIV and its kin, for one choice of their fields. -/
def twoSourceOps (p : BitVec 3) (d a b : BitVec 5) (w : Bool) : List Instr :=
  [.add p d a b w, .sub p d a b w, .and p d a b, .or p d a b, .xor p d a b, .andn p d a b, .shl p d a b w, .shr p d a b w,
   .sra p d a b w, .rot p d a b w, .min p d a b w, .max p d a b w, .minn p d a b w, .maxn p d a b w, .mul p d a b w, .mulh p d a b,
   .mulhn p d a b, .div p d a b w, .divn p d a b w, .rem p d a b w, .remn p d a b w]

/-- SC instructions of one scalar source and one destination, for one choice of their fields. -/
def oneSourceOps (p : BitVec 3) (d a x : BitVec 5) (i : BitVec 12) (w : Bool) : List Instr :=
  [.clz p d a w, .popc p d a w, .sext p d a x, .zext p d a x, .addi p d a i, .andi p d a i, .ori p d a i, .xori p d a i, .shli p d a i,
   .shri p d a i, .srai p d a i, .muli p d a i, .mini p d a i, .maxi p d a i]

/-- SC instructions that only write a predicate, for one choice of their fields. -/
def predicateOps (p d e f : BitVec 3) (a b : BitVec 5) (i : BitVec 12) : List Instr :=
  [.cmpEq p d a b, .cmpNe p d a b, .cmpLt p d a b, .cmpLe p d a b, .cmpLtn p d a b, .cmpLen p d a b, .cmpiEq p d a i, .cmpiLt p d a i,
   .cmpiLtn p d a i, .band p d e f, .bor p d e f, .bxor p d e f, .bandn p d e f, .bmov p d e]

/-- Cell instructions on FP32 and integer lanes with one destination fragment, for one choice of their fields. -/
def cellLaneOps (d a b : BitVec 6) (w : BitVec 3) (c f m : Bool) : List Instr :=
  [.fadd d a b w c f, .fsub d a b w c f, .fmul d a b w c f m, .fma d a b w c f m, .fmin d a b w c f, .fmax d a b w c f,
   .fcmpEq d a b w c f, .fcmpNe d a b w c f, .fcmpLt d a b w c f, .fcmpLe d a b w c f, .frcp d a w c f, .frsq d a w c f,
   .fsqrt d a w c f, .fex2 d a w c f, .flg2 d a w c f, .vredAdd d a w c f, .vredMax d a w c f, .vredMin d a w c f, .vredOr d a w c f,
   .vperm d a b w c f, .vbcast d a b w c f m]

/-- The other cell instructions on lanes and whole fragments with one destination fragment: packed pairs, conversions, integer lanes,
SEL, MOV, FLAG, SRNG and RKVAL, for one choice of their fields. -/
def cellWordOps (d a b : BitVec 6) (w : BitVec 3) (c f m : Bool) : List Instr :=
  [.hadd2 d a b w c f, .hfma2 d a b w c f m, .bfma2 d a b w c f m, .cvtF16F32 d a w c f m, .cvtF32F16 d a w c f m,
   .cvtBf16F32 d a w c f m, .cvtF32Bf16 d a w c f m, .cvtE4m3F32 d a b w c f, .cvtE5m2F32 d a b w c f, .cvtF32E4m3 d a b w c f,
   .cvtF32E5m2 d a b w c f, .cvtI32F32 d a w c f, .cvtF32I32 d a w c f] ++
  [.iadd d a b w c f m, .isub d a b w c f m, .imul d a b w c f, .imad d a b w c f, .iabs d a w c f, .imin d a b w c f m,
   .imax d a b w c f m, .cellAnd d a b w c f m, .cellOr d a b w c f m, .cellXor d a b w c f m, .cellShl d a b w c f m,
   .cellShr d a b w c f m, .cellSra d a b w c f m, .icmpEq d a b w c f m, .icmpNe d a b w c f m, .icmpLt d a b w c f m,
   .icmpLtn d a b w c f m, .cellSel d a b w c f, .mov d a b w c f m, .flag d a b w c, .srng d a w c f, .rkval d a w c f]

/-- The other SC instructions that only write a scalar register from registers, each with its sources, for one choice of their fields. -/
def registerOps (p c w k : BitVec 3) (d a b : BitVec 5) (i : BitVec 17) (n : BitVec 12) : List (Instr × List Nat) :=
  [(.li p d i, []), (.lui p d i, [d.toNat]), (.sel p d a b c, [a.toNat, b.toNat]), (.mfc p d n, []), (.mfw p d w k, []),
   (.mfaRowany p d a, [a.toNat]), (.mfaRowall p d a, [a.toNat]), (.mfaColany p d, []), (.mfaColall p d, []), (.mfaSummary p d, [])]

/-- SC instructions that bring a value from memory to a register through a handle or a tile slot, for one choice of their fields. -/
def memoryReadOps (p : BitVec 3) (d a : BitVec 5) (h : BitVec 4) (t : BitVec 6) (q r : Bool) (c : BitVec 2) (f : BitVec 9)
    (k : BitVec 8) : List Instr :=
  [.ldB p d h q c f, .ldH p d h q c f, .ldW p d h q c f, .ldD p d h q c f, .ldnB p d h q c f, .ldnH p d h q c f, .ldnW p d h q c f,
   .ldpW p d h a k, .ldpD p d h a k, .ldtW p d t a q c, .ldtD p d t a q c, .amoAdd p d h a q r c, .amoAnd p d h a q r c,
   .amoOr p d h a q r c, .amoXor p d h a q r c, .amoMin p d h a q r c, .amoMax p d h a q r c, .amoMinn p d h a q r c,
   .amoMaxn p d h a q r c, .amoSwap p d h a q r c, .amoFadd p d h a q r c]

/-- SC instructions that accumulate to memory through a handle, for one choice of their fields. -/
def accumulateOps (p : BitVec 3) (d a : BitVec 5) (h : BitVec 4) (r : Bool) (c : BitVec 2) : List Instr :=
  [.accAdd p d h a r c, .accFadd p d h a r c, .accBfadd p d h a r c, .accFmax p d h a r c]

/-- SC instructions that only store to memory through a handle or a tile slot, for one choice of their fields. -/
def memoryWriteOps (p : BitVec 3) (d a : BitVec 5) (h : BitVec 4) (t : BitVec 6) (q : Bool) (c : BitVec 2) (f : BitVec 9)
    (k : BitVec 8) : List Instr :=
  [.stB p d h q c f, .stH p d h q c f, .stW p d h q c f, .stD p d h q c f, .stpW p d h a k, .stpD p d h a k, .sttW p d t a q c,
   .sttD p d t a q c]

/-- What a register instruction leaves as it was, in a step from `s` to `t` that writes scalar register `d`: every byte of memory,
every other register, predicate, flag, special register and counter of its sequencer, every other array, and all else. -/
def RegisterFrame (s t : State) (d : Nat) : Prop :=
  (∀ x, readByte t.mem x = readByte s.mem x) ∧ (∀ r, r ≠ d → reg t r = reg s r ∧ isPoisoned t r = isPoisoned s r) ∧
    (∀ b, pred t b = pred s b) ∧
    curSeq t = { curSeq s with s := (curSeq t).s, poisoned := (curSeq t).poisoned, locks := (curSeq t).locks,
                               divBusy := (curSeq t).divBusy } ∧
    arr t (curA s) = { arr s (curA s) with seq := curSeq t } ∧ (∀ a, a ≠ curA s → arr t a = arr s a) ∧
    t = { s with arrs := t.arrs, bun := t.bun }

/-- What an instruction on special state of its sequencer leaves as it was, in a step from `s` to `t`: every byte of memory, every scalar
register and predicate, every other array and the rest of its own, and all else; what its sequencer keeps is said beside. -/
def SpecialFrame (s t : State) : Prop :=
  (∀ x, readByte t.mem x = readByte s.mem x) ∧ (∀ r, reg t r = reg s r ∧ isPoisoned t r = isPoisoned s r) ∧
    (∀ b, pred t b = pred s b) ∧ arr t (curA s) = { arr s (curA s) with seq := curSeq t } ∧
    (∀ a, a ≠ curA s → arr t a = arr s a) ∧ t = { s with arrs := t.arrs, bun := t.bun }

end Sys2Proof.Machine
end

