-- ==== Sys2Proof/Certificates/Slice0/Obligations.lean ====
section
/-! DEFINITION. The statements for the provers: what each instruction and event does, what stops it, and what every step keeps. -/

open Sys2Proof Sys2Proof.Machine

/-- Where its slot is ready (predicate true, sources readable and not poisoned, destination not bound), each of ADD, SUB, SHL,
SHR, SRA, ROT, MIN, MAX, MINN, MAXN and MUL (base and .W form), MULH, MULHN, AND, OR, XOR and ANDN answers the next state in
which rd holds the result of R116 (the .W form of R118 sign-extended), ready after the latency of R111, and nothing else
changes but the marks of consumed streams. (spec/05_regs_sequencer.md) -/
def Obligations.ScTwoSourceFunctions : Prop :=
  ∀ (s : State) (p : BitVec 3) (d a b : BitVec 5), SlotReady s p.toNat [a.toNat, b.toNat] [d.toNat] →
    let x : Word := reg s a.toNat
    let y : Word := reg s b.toNat
    let u : BitVec 32 := x.setWidth 32
    let v : BitVec 32 := y.setWidth 32
    let ok : Word → Nat → MOut := fun r l => .next (result (markPopped s [a.toNat, b.toNat]) d.toNat r l)
    exec (.add p d a b false) s = ok (x + y) 1 ∧
    exec (.add p d a b true) s = ok (BitVec.signExtend 64 (u + v)) 1 ∧
    exec (.sub p d a b false) s = ok (x - y) 1 ∧
    exec (.sub p d a b true) s = ok (BitVec.signExtend 64 (u - v)) 1 ∧
    exec (.shl p d a b false) s = ok (x <<< (y.toNat % 64)) 1 ∧
    exec (.shl p d a b true) s = ok (BitVec.signExtend 64 (u <<< (v.toNat % 32))) 1 ∧
    exec (.shr p d a b false) s = ok (x >>> (y.toNat % 64)) 1 ∧
    exec (.shr p d a b true) s = ok (BitVec.signExtend 64 (u >>> (v.toNat % 32))) 1 ∧
    exec (.sra p d a b false) s = ok (x.sshiftRight (y.toNat % 64)) 1 ∧
    exec (.sra p d a b true) s = ok (BitVec.signExtend 64 (u.sshiftRight (v.toNat % 32))) 1 ∧
    exec (.rot p d a b false) s = ok (x.rotateLeft (y.toNat % 64)) 1 ∧
    exec (.rot p d a b true) s = ok (BitVec.signExtend 64 (u.rotateLeft (v.toNat % 32))) 1 ∧
    exec (.min p d a b false) s = ok (if x.toInt ≤ y.toInt then x else y) 1 ∧
    exec (.min p d a b true) s = ok (BitVec.signExtend 64 (if u.toInt ≤ v.toInt then u else v)) 1 ∧
    exec (.max p d a b false) s = ok (if x.toInt ≤ y.toInt then y else x) 1 ∧
    exec (.max p d a b true) s = ok (BitVec.signExtend 64 (if u.toInt ≤ v.toInt then v else u)) 1 ∧
    exec (.minn p d a b false) s = ok (if x.toNat ≤ y.toNat then x else y) 1 ∧
    exec (.minn p d a b true) s = ok (BitVec.signExtend 64 (if u.toNat ≤ v.toNat then u else v)) 1 ∧
    exec (.maxn p d a b false) s = ok (if x.toNat ≤ y.toNat then y else x) 1 ∧
    exec (.maxn p d a b true) s = ok (BitVec.signExtend 64 (if u.toNat ≤ v.toNat then v else u)) 1 ∧
    exec (.mul p d a b false) s = ok (x * y) 3 ∧
    exec (.mul p d a b true) s = ok (BitVec.signExtend 64 (u * v)) 3 ∧
    exec (.mulh p d a b) s = ok (BitVec.ofInt 64 (x.toInt * y.toInt / 2 ^ 64)) 3 ∧
    exec (.mulhn p d a b) s = ok (BitVec.ofNat 64 (x.toNat * y.toNat / 2 ^ 64)) 3 ∧
    exec (.and p d a b) s = ok (x &&& y) 1 ∧
    exec (.or p d a b) s = ok (x ||| y) 1 ∧
    exec (.xor p d a b) s = ok (x ^^^ y) 1 ∧
    exec (.andn p d a b) s = ok (x &&& ~~~y) 1

/-- Where its slot is ready, CLZ and POPC (base and .W form) and SEXT and ZEXT of 8, 16 and 32 bits answer the next state in which
rd holds the count or the extension. (spec/05_regs_sequencer.md) -/
def Obligations.ScOneSourceFunctions : Prop :=
  ∀ (s : State) (p : BitVec 3) (d a : BitVec 5), SlotReady s p.toNat [a.toNat] [d.toNat] →
    let x : Word := reg s a.toNat
    let ok : Word → MOut := fun r => .next (result (markPopped s [a.toNat]) d.toNat r 1)
    exec (.clz p d a false) s = ok (BitVec.ofNat 64 (clzOf x)) ∧
    exec (.clz p d a true) s = ok (BitVec.ofNat 64 (clzOf (x.setWidth 32))) ∧
    exec (.popc p d a false) s = ok (BitVec.ofNat 64 (popc x)) ∧
    exec (.popc p d a true) s = ok (BitVec.ofNat 64 (popc (x.setWidth 32))) ∧
    exec (.sext p d a 0) s = ok ((x.setWidth 8).signExtend 64) ∧
    exec (.sext p d a 1) s = ok ((x.setWidth 16).signExtend 64) ∧
    exec (.sext p d a 2) s = ok ((x.setWidth 32).signExtend 64) ∧
    exec (.zext p d a 0) s = ok ((x.setWidth 8).setWidth 64) ∧
    exec (.zext p d a 1) s = ok ((x.setWidth 16).setWidth 64) ∧
    exec (.zext p d a 2) s = ok ((x.setWidth 32).setWidth 64)

/-- At every width the count CLZ gives is the number of zero bits above the highest one bit (the width for zero), and the count
POPC gives is that of adding one for each one bit. (spec/05_regs_sequencer.md) -/
def Obligations.LeadingZeroAndOneBitCounts : Prop :=
  ∀ (w : Nat) (x : BitVec w),
    clzOf x ≤ w ∧ (∀ i, w - clzOf x ≤ i → x.getLsbD i = false) ∧
    (x ≠ 0 → clzOf x < w ∧ x.getLsbD (w - 1 - clzOf x) = true) ∧
    popc (0 : BitVec w) = 0 ∧ ∀ i, i < w → x.getLsbD i = false → popc (x ||| BitVec.twoPow w i) = popc x + 1

/-- Where its slot is ready and the divider is free, DIV, DIVN, REM and REMN complete: a zero divisor gives all ones and the
dividend, the most negative number by minus one gives itself and 0, and otherwise the quotient is truncated toward zero and
the remainder is ra minus quotient times rb; the .W forms do so at width 32 and sign-extend; the divider stays busy for 34
cycles. (spec/05_regs_sequencer.md) -/
def Obligations.ScDivision : Prop :=
  ∀ (s : State) (p : BitVec 3) (d a b : BitVec 5), SlotReady s p.toNat [a.toNat, b.toNat] [d.toNat] →
    (curSeq s).divBusy ≤ s.cyc →
    let x : Word := reg s a.toNat
    let y : Word := reg s b.toNat
    let u : BitVec 32 := x.setWidth 32
    let v : BitVec 32 := y.setWidth 32
    let ok : Word → MOut := fun r =>
      .next (modCur (result (markPopped s [a.toNat, b.toNat]) d.toNat r 34) fun q => { q with divBusy := s.cyc + 34 })
    exec (.div p d a b false) s = ok (if y = 0 then BitVec.allOnes 64 else if x = BitVec.intMin 64 ∧ y = -1 then x else x.sdiv y) ∧
    exec (.divn p d a b false) s = ok (if y = 0 then BitVec.allOnes 64 else x / y) ∧
    exec (.rem p d a b false) s = ok (if y = 0 then x else if x = BitVec.intMin 64 ∧ y = -1 then 0 else x - x.sdiv y * y) ∧
    exec (.remn p d a b false) s = ok (if y = 0 then x else x - x / y * y) ∧
    exec (.div p d a b true) s =
      ok (BitVec.signExtend 64 (if v = 0 then BitVec.allOnes 32 else if u = BitVec.intMin 32 ∧ v = -1 then u else u.sdiv v)) ∧
    exec (.divn p d a b true) s = ok (BitVec.signExtend 64 (if v = 0 then BitVec.allOnes 32 else u / v)) ∧
    exec (.rem p d a b true) s =
      ok (BitVec.signExtend 64 (if v = 0 then u else if u = BitVec.intMin 32 ∧ v = -1 then 0 else u - u.sdiv v * v)) ∧
    exec (.remn p d a b true) s = ok (BitVec.signExtend 64 (if v = 0 then u else u - u / v * v))

/-- Where its slot is ready, each immediate form computes ra op SEXT(imm12) (a shift by imm12, which lies in 0 to 63), LI writes
SEXT(imm17), LUI shifts 17 bits in below rd, and SEL writes ra where the selecting predicate is true and rb otherwise.
(spec/05_regs_sequencer.md) -/
def Obligations.ScImmediatesAndSelect : Prop :=
  ∀ (s : State) (p : BitVec 3) (d a b : BitVec 5),
    (SlotReady s p.toNat [a.toNat] [d.toNat] → ∀ i : BitVec 12,
      let x : Word := reg s a.toNat
      let m : Word := i.signExtend 64
      let ok : Word → Nat → MOut := fun r l => .next (result (markPopped s [a.toNat]) d.toNat r l)
      exec (.addi p d a i) s = ok (x + m) 1 ∧ exec (.andi p d a i) s = ok (x &&& m) 1 ∧
      exec (.ori p d a i) s = ok (x ||| m) 1 ∧ exec (.xori p d a i) s = ok (x ^^^ m) 1 ∧
      exec (.muli p d a i) s = ok (x * m) 3 ∧
      exec (.mini p d a i) s = ok (if x.toInt ≤ m.toInt then x else m) 1 ∧
      exec (.maxi p d a i) s = ok (if x.toInt ≤ m.toInt then m else x) 1 ∧
      (i.toNat < 64 → exec (.shli p d a i) s = ok (x <<< i.toNat) 1 ∧ exec (.shri p d a i) s = ok (x >>> i.toNat) 1 ∧
        exec (.srai p d a i) s = ok (x.sshiftRight i.toNat) 1)) ∧
    (∀ i : BitVec 17,
      (SlotReady s p.toNat [] [d.toNat] → exec (.li p d i) s = .next (result (markPopped s []) d.toNat (i.signExtend 64) 1)) ∧
      (SlotReady s p.toNat [d.toNat] [d.toNat] → exec (.lui p d i) s =
        .next (result (markPopped s [d.toNat]) d.toNat ((reg s d.toNat <<< 17) ||| i.setWidth 64) 1))) ∧
    (SlotReady s p.toNat [a.toNat, b.toNat] [d.toNat] → ∀ c : BitVec 3,
      exec (.sel p d a b c) s =
        .next (result (markPopped s [a.toNat, b.toNat]) d.toNat (if pred s c.toNat then reg s a.toNat else reg s b.toNat) 1))

/-- Where its slot is ready, each CMP and CMPI writes the comparison of R121 to its predicate, and BAND, BOR, BXOR, BANDN and BMOV
write the function of R122; b0 stays as R101 says. (spec/05_regs_sequencer.md) -/
def Obligations.ScComparesAndPredicates : Prop :=
  ∀ (s : State) (p d e f : BitVec 3) (a b : BitVec 5) (i : BitVec 12),
    (SlotReady s p.toNat [a.toNat, b.toNat] [] →
      let x : Word := reg s a.toNat
      let y : Word := reg s b.toNat
      let ok : Bool → MOut := fun v => .next (setPred (markPopped s [a.toNat, b.toNat]) d.toNat v)
      exec (.cmpEq p d a b) s = ok (x == y) ∧ exec (.cmpNe p d a b) s = ok (decide (x ≠ y)) ∧
      exec (.cmpLt p d a b) s = ok (decide (x.toInt < y.toInt)) ∧ exec (.cmpLe p d a b) s = ok (decide (x.toInt ≤ y.toInt)) ∧
      exec (.cmpLtn p d a b) s = ok (decide (x.toNat < y.toNat)) ∧ exec (.cmpLen p d a b) s = ok (decide (x.toNat ≤ y.toNat))) ∧
    (SlotReady s p.toNat [a.toNat] [] →
      let x : Word := reg s a.toNat
      let m : Word := i.signExtend 64
      let ok : Bool → MOut := fun v => .next (setPred (markPopped s [a.toNat]) d.toNat v)
      exec (.cmpiEq p d a i) s = ok (x == m) ∧ exec (.cmpiLt p d a i) s = ok (decide (x.toInt < m.toInt)) ∧
      exec (.cmpiLtn p d a i) s = ok (decide (x.toNat < m.toNat))) ∧
    (SlotReady s p.toNat [] [] →
      let ok : Bool → MOut := fun v => .next (setPred (markPopped s []) d.toNat v)
      exec (.band p d e f) s = ok (pred s e.toNat && pred s f.toNat) ∧
      exec (.bor p d e f) s = ok (pred s e.toNat || pred s f.toNat) ∧
      exec (.bxor p d e f) s = ok (pred s e.toNat ^^ pred s f.toNat) ∧
      exec (.bandn p d e f) s = ok (pred s e.toNat && !pred s f.toNat) ∧
      exec (.bmov p d e) s = ok (pred s e.toNat))

/-- J always, and BR, JAL and JR where the slot is ready, complete: the next bundle is at PC plus 24 times the signed offset (BR,
J, JAL, after 3 cycles) or at the value ra held before the link was written (JR, a multiple of 24, after 4 cycles); JAL writes
PC + 24 to s31 and JR to rd. (spec/05_regs_sequencer.md, spec/03_encoding.md) -/
def Obligations.ScControlFlow : Prop :=
  ∀ (s : State) (p : BitVec 3) (d a : BitVec 5) (o : BitVec 22),
    let target : Nat := (((curSeq s).pc + 24 * o.toInt) % 2 ^ 32).toNat
    let link : Word := BitVec.ofNat 64 ((curSeq s).pc + 24)
    (∀ (u : State) (x n : Nat), (curSeq u).stop = .run →
      (curSeq (jumpTo u x n)).npc = x ∧ (curSeq (jumpTo u x n)).stop = .hold (u.cyc + n)) ∧
    exec (.j o) s = .next (jumpTo s target 3) ∧
    (SlotReady s p.toNat [] [] → exec (.br p o) s = .next (jumpTo (markPopped s []) target 3)) ∧
    (SlotReady s p.toNat [] [31] → exec (.jal p o) s = .next (jumpTo (result (markPopped s []) 31 link 1) target 3)) ∧
    (SlotReady s p.toNat [a.toNat] [d.toNat] → (reg s a.toNat).toNat % 24 = 0 →
      exec (.jr p d a) s = .next (jumpTo (result (markPopped s [a.toNat]) d.toNat link 1) (reg s a.toNat).toNat 4))

/-- Where its slot is ready, LOOP sets the bounds and count of its level (a level 0 loop also clears LC1 and ends a staged loop; a
level 1 loop lies within level 0 when that is active) and LOOPS sets up a staged loop on level 0; a count of zero goes past
the body. (spec/05_regs_sequencer.md) -/
def Obligations.ScLoops : Prop :=
  ∀ (s : State) (p c : BitVec 3) (a : BitVec 5) (i : BitVec 12), SlotReady s p.toNat [a.toNat] [] →
    let n : Nat := (reg s a.toNat).toNat % 2 ^ 32
    let pc : Nat := (curSeq s).pc
    let start : Nat := pc + 24
    let last : Nat := pc + 24 * i.toNat
    let go : Nat := if n = 0 then last + 24 else pc + 24
    let s0 : State := markPopped s [a.toNat]
    exec (.loop p false a i) s = .next (modCur s0 fun q =>
      { endStaged q with lb0 := lbOf start last, lc0 := BitVec.ofNat 64 n, lc1 := 0, npc := go }) ∧
    (((curSeq s).lc0 = 0 ∨ nested (curSeq s) start last = true) → exec (.loop p true a i) s =
      .next (modCur s0 fun q => { q with lb1 := lbOf start last, lc1 := BitVec.ofNat 64 n, npc := go })) ∧
    exec (.loops p c a i) s = .next (modCur s0 fun q =>
      let r := { q with lb0 := lbOf (q.pc + 24) (q.pc + 24 * i.toNat), lc1 := 0, b := stagePreds q.b 4 fun _ => false }
      if n = 0 then { r with lc0 := 0, lstg := 0, npc := q.pc + 24 * i.toNat + 24 }
      else beginIter { r with lc0 := BitVec.ofNat 64 (n + c.toNat - 1), lstg := BitVec.ofNat 64 c.toNat, npc := q.pc + 24 } 0)

/-- NOP changes nothing. Where its slot is ready: MARK releases the gate buffer and opens a region at its bundle (nothing in the
monitor), PAUSE holds the next bundle to cycle t + 1 + n, WAIT goes on when every counter is at or below its field (what is
performed at UN pages follows what has left the counters by then), TEND outside the monitor releases the gate buffer and
begins retirement, and TRAP makes code 0x60 with its number pending and stops issue. (spec/05_regs_sequencer.md,
spec/16_counters.md, spec/17_records.md) -/
def Obligations.ScMarkPauseWaitTendTrap : Prop :=
  ∀ (s t : State) (p : BitVec 3) (i : BitVec 17) (l m : BitVec 5) (c f : BitVec 6),
    exec .nop s = .next s ∧
    (SlotReady s p.toNat [] [] →
      let s0 : State := markPopped s []
      ((curSeq s).mon = true → exec (.mark p) s = .next s0) ∧
      ((curSeq s).mon = false → Released s0 t → exec (.mark p) s = .next (openRegion t (curA t) (curSeq t).pc true)) ∧
      exec (.pause p i) s = .next (modCur s0 fun q => { q with stop := .pause (s.cyc + 1 + i.toNat) }) ∧
      ((curSeq s).ld ≤ l.toNat → (curSeq s).st ≤ m.toNat → (curSeq s).cp ≤ c.toNat → (curSeq s).wf ≤ f.toNat →
        exec (.wait p l m c f) s = .next (modCur s0 fun q => { q with unAfter := some (q.unAfter.getD q.outNo) })) ∧
      ((curSeq s).mon = false → Released s0 t → exec (.tend p) s = .next (modCur t fun q => { q with stop := .retiring })) ∧
      exec (.trap p i) s = .next (modCur s0 fun q =>
        { q with pending := q.pending ++ [faultD s0 0x60 (i.setWidth 64)], stop := .trap }))

/-- Where its slot is ready: MFC reads and MTC writes a control register (an RWP register in the monitor only; PMCTL with legal
events only), SETFMT puts a legal value in the FMT pipeline for four bundles, MTW and MFW write and read a part of a selector
pair, WROT moves one of its masks, and the MFA forms read the aggregates. (spec/05_regs_sequencer.md, spec/06_regs_cell.md,
spec/16_counters.md) -/
def Obligations.ScControlRegisters : Prop :=
  ∀ (s : State) (p : BitVec 3) (d a : BitVec 5) (n : BitVec 12) (w k : BitVec 3) (e : BitVec 2) (v : Bool) (m : BitVec 9),
    (SlotReady s p.toNat [] [d.toNat] →
      let s0 : State := markPopped s []
      let ok : Word → MOut := fun r => .next (result s0 d.toNat r 1)
      ((ctlPriv n.toNat = true → (curSeq s).mon = true) → exec (.mfc p d n) s = ok (ctlRead s0 n.toNat)) ∧
      exec (.mfw p d w k) s = ok (if k.toNat < 4 then BitVec.ofNat 64 ((selPair s w.toNat).rows.toNat / 2 ^ (64 * k.toNat))
        else (selPair s w.toNat).cols.setWidth 64) ∧
      exec (.mfaColany p d) s = ok ((curSeq s).agg.colAny.setWidth 64) ∧
      exec (.mfaColall p d) s = ok ((curSeq s).agg.colAll.setWidth 64) ∧
      exec (.mfaSummary p d) s = ok (BitVec.ofNat 64 (Machine.bnat (curSeq s).agg.any + Machine.bnat (curSeq s).agg.all * 2 +
        Machine.bnat (curSeq s).agg.err * 4 + (curSeq s).agg.flags.toNat * 8 + (curSeq s).agg.wordNo.toNat * 2 ^ 32))) ∧
    (SlotReady s p.toNat [a.toNat] [] →
      let s0 : State := markPopped s [a.toNat]
      let x : Word := reg s a.toNat
      ((ctlPriv n.toNat = true → (curSeq s).mon = true) → (n = 0x200 → pmctlOk x = true) →
        exec (.mtc p a n) s = .next (modCur s0 fun q => ctlWrite q n.toNat x)) ∧
      (fmtOk x = true → exec (.setfmt p a) s =
        .next (modCur s0 fun q => { q with fmt := { q.fmt with pending := q.fmt.pending ++ [(x, 4)] } })) ∧
      exec (.mtw p w a k) s = .next (modCur s0 fun q => { q with w := vmod {} q.w w.toNat fun y =>
        if k.toNat < 4 then { y with rows := setBits y.rows (64 * k.toNat + 63) (64 * k.toNat) x.toNat }
        else { y with cols := x.setWidth 32 } }) ∧
      (let amount : Nat := (x + m.setWidth 64).toNat;
       let height : Nat := 32 * (curSeq s).len;
       exec (.wrot p w a e v m) s = .next (modCur s0 fun q => { q with w := vmod {} q.w w.toNat fun y =>
        if (e.getLsbD 0) = true then { y with cols := BitVec.ofNat 32 (moveBits y.cols.toNat 32 amount v (e.getLsbD 1)) }
        else { y with rows := setBits y.rows (height - 1) 0 (moveBits y.rows.toNat height amount v (e.getLsbD 1)) } }))) ∧
    (SlotReady s p.toNat [a.toNat] [d.toNat] →
      let ok : Word → MOut := fun r => .next (result (markPopped s [a.toNat]) d.toNat r 1)
      let part : Nat := (reg s a.toNat).toNat % 4
      exec (.mfaRowany p d a) s = ok (BitVec.ofNat 64 ((curSeq s).agg.rowAny.toNat / 2 ^ (64 * part))) ∧
      exec (.mfaRowall p d a) s = ok (BitVec.ofNat 64 ((curSeq s).agg.rowAll.toNat / 2 ^ (64 * part))))

/-- Where its slot is ready: XLAT puts its change among those due 16 cycles later and interlocks its handle until then (h15 in the
monitor only), and when it is due the handle has the address in ra, VALID with the leaf where the TLB holds it, FAULTED where
the address is not one, and WALKING otherwise; HINV makes a handle INVALID (h15 at the point of R351); HINFO reads a handle
that no XLAT interlocks; LOCQ answers queries 0 to 2 at once and puts query 3 among the outstanding operations.
(spec/13_t_translate.md, spec/05_regs_sequencer.md) -/
def Obligations.ScHandles : Prop :=
  ∀ (s : State) (p : BitVec 3) (h : BitVec 4) (d a : BitVec 5),
    (SlotReady s p.toNat [a.toNat] [] → (h = 15 → (curSeq s).mon = true) →
      let s0 : State := markPopped s [a.toNat]
      let va : Word := reg s a.toNat
      exec (.xlat p h a) s =
        .next (lock (modCur s0 fun q => { q with xlats := q.xlats ++ [(s.cyc + 16, h.toNat, va)] }) (40 + h.toNat) (s.cyc + 16))) ∧
    (∀ (k c n : Nat) (va : Word), (seqAt s k).xlats.find? (fun x => x.1 ≤ s.cyc) = some (c, n, va) →
      xlatDue s k = modSeq (modHandle s k n fun x =>
        if bitsOf va 63 57 ≠ 0 then { x with st := .faulted, va := va, leaf := 0, cause := 1 }
        else match tlbLookup s k (seqAt s k).part va.toNat with
          | some e => { x with st := .valid, va := va, leaf := e, cause := 0 }
          | none => { x with st := .walking, va := va, leaf := 0, cause := 0 }) k fun q => { q with xlats := q.xlats.erase (c, n, va) }) ∧
    (SlotReady s p.toNat [] [] →
      let s0 : State := markPopped s []
      (h ≠ 15 → exec (.hinv p h) s =
        .next (modHandle s0 (curA s0) h.toNat fun x => { x with st := .invalid, leaf := 0, cause := 0 })) ∧
      (h = 15 → exec (.hinv p h) s = .next (modCur s0 fun q => { q with codeInval := true }))) ∧
    (SlotReady s p.toNat [a.toNat] [d.toNat] →
      let s0 : State := markPopped s [a.toNat]
      let v : Word := reg s a.toNat
      ((∀ e ∈ (curSeq s).locks, e.1 = 40 + v.toNat % 16 → e.2 ≤ s.cyc) → exec (.hinfo p d a) s =
        .next (result s0 d.toNat
          (if v.getLsbD 4 then (handle s (v.toNat % 16)).va else handleInfo (handle s (v.toNat % 16))) 1)) ∧
      (v.toNat / 2 ^ 60 ≠ 3 → exec (.locq p d a) s = .next (result s0 d.toNat (locqNow s0 v) 1)) ∧
      (v.toNat / 2 ^ 60 = 3 → exec (.locq p d a) s = .next (pushOut s0 (curA s0)
        { op := .locq d.toNat (BitVec.ofNat 64 (v.toNat % 2 ^ 57)), due := s.cyc + 16 } 1 0)))

/-- Where its slot is ready and the checks of R217 (or R220) let the access through at a place: LD, LDN, LDP and LDT put a load of
their size, extension, order and scope among the outstanding operations and count it in ld, and LDP steps its offset register.
(spec/08_mem_spaces.md, spec/13_t_translate.md) -/
def Obligations.ScLoads : Prop :=
  ∀ (s : State) (p : BitVec 3) (d a : BitVec 5) (h : BitVec 4) (t : BitVec 6) (q : Bool) (c : BitVec 2) (f : BitVec 9) (k : BitVec 8)
      (pl : Place) (n : Nat) (y : Tile),
    (SlotReady s p.toNat [] [d.toNat] →
      let s0 : State := markPopped s []
      let ok : Nat → Bool → MOut := fun z sx => .next (pushOut s0 (curA s0) (loadOut s0 pl h.toNat z d.toNat sx q c.toNat) 1 0)
      let lets : Instr → Nat → Prop := fun i z => handleChk s0 i h.toNat true (f.toInt * z) z true false false = .ok pl
      (lets (.ldB p d h q c f) 1 → exec (.ldB p d h q c f) s = ok 1 true) ∧
      (lets (.ldH p d h q c f) 2 → exec (.ldH p d h q c f) s = ok 2 true) ∧
      (lets (.ldW p d h q c f) 4 → exec (.ldW p d h q c f) s = ok 4 true) ∧
      (lets (.ldD p d h q c f) 8 → exec (.ldD p d h q c f) s = ok 8 false) ∧
      (lets (.ldnB p d h q c f) 1 → exec (.ldnB p d h q c f) s = ok 1 false) ∧
      (lets (.ldnH p d h q c f) 2 → exec (.ldnH p d h q c f) s = ok 2 false) ∧
      (lets (.ldnW p d h q c f) 4 → exec (.ldnW p d h q c f) s = ok 4 false)) ∧
    (SlotReady s p.toNat [a.toNat] [d.toNat, a.toNat] →
      let s0 : State := markPopped s [a.toNat]
      let v : Word := reg s a.toNat
      let ok : Nat → Bool → MOut := fun z sx =>
        .next (result (pushOut s0 (curA s0) (loadOut s0 pl h.toNat z d.toNat sx false 0) 1 0) a.toNat (v + BitVec.ofInt 64 (k.toInt * z)) 1)
      let lets : Instr → Nat → Prop := fun i z => v.toNat < 2 ^ 57 ∧ handleChk s0 i h.toNat false v.toNat z true false false = .ok pl
      (lets (.ldpW p d h a k) 4 → exec (.ldpW p d h a k) s = ok 4 true) ∧
      (lets (.ldpD p d h a k) 8 → exec (.ldpD p d h a k) s = ok 8 false)) ∧
    (SlotReady s p.toNat [a.toNat] [d.toNat] → tileSaved s t.toNat = false →
      let s0 : State := markPopped s [a.toNat]
      let x : Word := reg s a.toNat
      let ok : Nat → MOut := fun z => .next (pushOut s0 (curA s0)
        (loadOut s0 (tilePlace n y x.toNat) 16 (4 * z) d.toNat false q (Nat.min 2 c.toNat)) 1 0)
      (tileChk s0 (.ldtW p d t a q c) t.toNat x 1 false false = .ok (n, y) → exec (.ldtW p d t a q c) s = ok 1) ∧
      (tileChk s0 (.ldtD p d t a q c) t.toNat x 2 false false = .ok (n, y) → exec (.ldtD p d t a q c) s = ok 2))

/-- Where its slot is ready and the checks of R217 (or R220) let the access through: outside the monitor ST, STP and STT put their
entry into the gate buffer, in the monitor they are outstanding at once and count in st; STP steps its offset register; STFK
releases the gate buffer (which leaves room in st) and is outstanding as a releasing write. (spec/08_mem_spaces.md,
spec/13_t_translate.md, spec/17_records.md) -/
def Obligations.ScStores : Prop :=
  ∀ (s u : State) (p : BitVec 3) (d a : BitVec 5) (h : BitVec 4) (t : BitVec 6) (q : Bool) (c : BitVec 2) (f : BitVec 9) (k : BitVec 8)
      (pl : Place) (n : Nat) (y : Tile),
    (SlotReady s p.toNat [d.toNat] [] →
      let s0 : State := markPopped s [d.toNat]
      let lets : Instr → Nat → Prop := fun i z => handleChk s0 i h.toNat true (f.toInt * z) z false true true = .ok pl
      let done : Nat → MOut → Prop := fun z r =>
        let v : Word := BitVec.ofNat 64 ((reg s d.toNat).toNat % 2 ^ (8 * z))
        ((curSeq s).mon = true → r = .next (pushOut s0 (curA s0)
          { op := .store v, pl := pl, size := z, rel := q, scope := c.toNat, hdl := h.toNat } 0 1)) ∧
        ((curSeq s).mon = false → Gated s0 (.store h.toNat (pl.pa - ptePa pl.leaf) z v q c.toNat) u → r = .next u)
      (lets (.stB p d h q c f) 1 → done 1 (exec (.stB p d h q c f) s)) ∧
      (lets (.stH p d h q c f) 2 → done 2 (exec (.stH p d h q c f) s)) ∧
      (lets (.stW p d h q c f) 4 → done 4 (exec (.stW p d h q c f) s)) ∧
      (lets (.stD p d h q c f) 8 → done 8 (exec (.stD p d h q c f) s))) ∧
    (SlotReady s p.toNat [d.toNat, a.toNat] [a.toNat] →
      let s0 : State := markPopped s [d.toNat, a.toNat]
      let x : Word := reg s a.toNat
      let lets : Instr → Nat → Prop := fun i z => x.toNat < 2 ^ 57 ∧ handleChk s0 i h.toNat false x.toNat z false true true = .ok pl
      let done : Nat → MOut → Prop := fun z r =>
        let v : Word := BitVec.ofNat 64 ((reg s d.toNat).toNat % 2 ^ (8 * z))
        let step : State → State := fun w => result w a.toNat (x + BitVec.ofInt 64 (k.toInt * z)) 1
        s.bun.blocked = false → s.bun.raised = none →
        ((curSeq s).mon = true → r = .next (step (pushOut s0 (curA s0)
          { op := .store v, pl := pl, size := z, rel := false, scope := 0, hdl := h.toNat } 0 1))) ∧
        ((curSeq s).mon = false → Gated s0 (.store h.toNat (pl.pa - ptePa pl.leaf) z v false 0) u →
          u.bun.blocked = false → u.bun.raised = none → r = .next (step u))
      (lets (.stpW p d h a k) 4 → done 4 (exec (.stpW p d h a k) s)) ∧
      (lets (.stpD p d h a k) 8 → done 8 (exec (.stpD p d h a k) s))) ∧
    (SlotReady s p.toNat [d.toNat, a.toNat] [] → tileSaved s t.toNat = false →
      let s0 : State := markPopped s [d.toNat, a.toNat]
      let x : Word := reg s a.toNat
      let done : Nat → MOut → Prop := fun z r =>
        let v : Word := BitVec.ofNat 64 ((reg s d.toNat).toNat % 2 ^ (8 * (4 * z)))
        ((curSeq s).mon = true → r = .next (pushOut s0 (curA s0)
          { op := .store v, pl := tilePlace n y x.toNat, size := 4 * z, rel := q, scope := Nat.min 2 c.toNat } 0 1)) ∧
        ((curSeq s).mon = false → Gated s0 (.tile t.toNat n x.toNat (4 * z) v q (Nat.min 2 c.toNat)) u → r = .next u)
      (tileChk s0 (.sttW p d t a q c) t.toNat x 1 true false = .ok (n, y) → done 1 (exec (.sttW p d t a q c) s)) ∧
      (tileChk s0 (.sttD p d t a q c) t.toNat x 2 true false = .ok (n, y) → done 2 (exec (.sttD p d t a q c) s)) ∧
      (tileChk s0 (.stfk p d t a) t.toNat x 1 true true = .ok (n, y) → Released s0 u → (curSeq u).st < 255 →
        exec (.stfk p d t a) s = .next (pushOut (regionNext u) (curA u)
          { op := .stfk (BitVec.ofNat 32 (reg s d.toNat).toNat), pl := tilePlace n y x.toNat, size := 4, rel := true, scope := 2 } 0 1)))

/-- Where its slot is ready: with no request under way, its tile word passing the checks of R222, the gate buffer releasing and
nothing earlier holding it, LDF, LDFK or STE sends its request to the bank, which it reaches in the next cycle and its bundle
is held, which is the choice of the model (log 33); with the answer at hand LDF and LDFK complete with the answer in rd, ready
18 cycles after the request where it came from the pad of the array itself, and with an acquire where it says OK, and STE with
the status in the upper half of rd, and the next bundle opens a region. (spec/08_mem_spaces.md, spec/13_t_translate.md) -/
def Obligations.ScFullEmpty : Prop :=
  ∀ (s u : State) (p : BitVec 3) (d a : BitVec 5) (t : BitVec 6) (n : Nat) (y : Tile) (w : Word) (bad : Bool),
    let x : Word := reg s a.toNat
    let addr : Nat := tileBase y 0 + 4 * x.toNat
    let sends : Instr → Nat → Prop := fun i kind => exec i s = .next (block (modCur u fun q =>
      { q with feReq := some { kind := kind, tile := n, addr := addr, v := BitVec.ofNat 32 (reg s d.toNat).toNat, due := u.cyc + 1 }
               feDue := if kind ≠ 2 ∧ padBase (curA u) ≤ addr ∧ addr < padBase (curA u + 1) then u.cyc + 18 else 0 }))
    let idle : Prop := (curSeq s).feDone = none ∧ (curSeq s).feReq = none ∧ (curSeq s).retryAt = none ∧ tileSaved s t.toNat = false
    let issued : State → State := fun v => regionNext (modCur v fun q => { q with feReq := none, feDone := none, retryAt := none })
    (SlotReady s p.toNat [a.toNat] [d.toNat] →
      let s0 : State := markPopped s [a.toNat]
      (idle → Released s0 u →
        (tileChk s0 (.ldf p d t a) t.toNat x 1 false true = .ok (n, y) → feBlocked u (curA u) 0 addr = false → sends (.ldf p d t a) 0) ∧
        (tileChk s0 (.ldfk p d t a) t.toNat x 1 false true = .ok (n, y) → feBlocked u (curA u) 1 addr = false →
          sends (.ldfk p d t a) 1)) ∧
      ((curSeq s).feDone = some (w, bad) →
        let v : State := lock (putPoison s0 (curA s0) d.toNat w bad) d.toNat (curSeq s).feDue
        let r : MOut := .next (issued (if bitsOf w 63 32 = 0 then acquireWork v (curA v) 2 else v))
        exec (.ldf p d t a) s = r ∧ exec (.ldfk p d t a) s = r)) ∧
    (SlotReady s p.toNat [d.toNat, a.toNat] [d.toNat] →
      let s0 : State := markPopped s [d.toNat, a.toNat]
      (idle → Released s0 u → tileChk s0 (.ste p d t a) t.toNat x 1 true true = .ok (n, y) → feBlocked u (curA u) 2 addr = false →
        sends (.ste p d t a) 2) ∧
      ((curSeq s).feDone = some (w, bad) → exec (.ste p d t a) s =
        .next (issued (lock (putPoison s0 (curA s0) d.toNat (setBits w 31 0 (bitsOf (reg s d.toNat) 31 0)) bad) d.toNat
          (curSeq s).feDue))))

/-- Where its slot is ready, the checks of an atomic let it through and the gate buffer releases, leaving room in st: each AMO and
CAS is outstanding with its function, operands, order and scope and counts in st; each ACC merges with the attached residual
tile (which has room) and is outstanding with the merged value. (spec/10_mem_atomic.md) -/
def Obligations.ScAtomics : Prop :=
  ∀ (s u : State) (p : BitVec 3) (d a : BitVec 5) (e : BitVec 4) (h : BitVec 4) (q r : Bool) (c : BitVec 2) (pl : Place),
    let v : Word := reg s a.toNat
    let scope : Nat := if h = 15 then Nat.min 2 c.toNat else c.toNat
    let hdl : Nat := if h = 15 then 16 else h.toNat
    (SlotReady s p.toNat [d.toNat, a.toNat] [d.toNat] → Released (markPopped s [d.toNat, a.toNat]) u → (curSeq u).st < 255 →
      let s0 : State := markPopped s [d.toNat, a.toNat]
      let size : Nat → Nat := fun fn => if h = 15 ∨ fn = 9 ∨ v.getLsbD 63 = true then 4 else 8
      let done : Instr → Nat → Prop := fun i fn => atomicChk s0 i h.toNat v fn 0x3C (size fn) true = .ok pl →
        exec i s = .next (pushOut (regionNext u) (curA u)
          { op := .amo fn d.toNat (reg s d.toNat), pl := pl, size := size fn, acq := q, rel := r, scope := scope, hdl := hdl } 0 1)
      done (.amoAdd p d h a q r c) 0 ∧ done (.amoAnd p d h a q r c) 1 ∧ done (.amoOr p d h a q r c) 2 ∧ done (.amoXor p d h a q r c) 3 ∧ done (.amoMin p d h a q r c) 4 ∧ done (.amoMax p d h a q r c) 5 ∧ done (.amoMinn p d h a q r c) 6 ∧ done (.amoMaxn p d h a q r c) 7 ∧ done (.amoSwap p d h a q r c) 8 ∧ done (.amoFadd p d h a q r c) 9) ∧
    (SlotReady s p.toNat [2 * e.toNat, 2 * e.toNat + 1, a.toNat] [2 * e.toNat] →
      let s0 : State := markPopped s [2 * e.toNat, 2 * e.toNat + 1, a.toNat]
      let z : Nat := if h = 15 ∨ v.getLsbD 63 = true then 4 else 8
      Released s0 u → (curSeq u).st < 255 → atomicChk s0 (.cas p e h a q r c) h.toNat v 0 0x3D z true = .ok pl →
        exec (.cas p e h a q r c) s = .next (pushOut (regionNext u) (curA u)
          { op := .cas (2 * e.toNat) (reg s (2 * e.toNat)) (reg s (2 * e.toNat + 1)), pl := pl, size := z, acq := q, rel := r,
            scope := scope, hdl := hdl } 0 1)) ∧
    (SlotReady s p.toNat [d.toNat, a.toNat] [] → Released (markPopped s [d.toNat, a.toNat]) u → (curSeq u).st < 255 →
      residFull (markPopped s [d.toNat, a.toNat]) (curA s) = false →
      let s0 : State := markPopped s [d.toNat, a.toNat]
      let size : Nat → Nat := fun fn => if fn = 2 ∧ h ≠ 15 then 2 else 4
      let done : Instr → Nat → Prop := fun i fn => atomicChk s0 i h.toNat v fn 0x3E (size fn) false = .ok pl →
        let m := resMerge (regionNext u) (curA u) pl.pa fn
          ((reg s d.toNat).toNat % 2 ^ (8 * accBytes fn (pl.pa ≥ onChip)))
        exec i s = .next (pushOut m.1 (curA u)
          { op := .acc fn (BitVec.ofNat 64 m.2.1), pl := pl, size := size fn, rel := r, scope := scope, hdl := hdl, carries := m.2.2 } 0 1)
      done (.accAdd p d h a r c) 0 ∧ done (.accFadd p d h a r c) 1 ∧ done (.accBfadd p d h a r c) 2 ∧ done (.accFmax p d h a r c) 3)

/-- Where its slot is ready: a FENCE release outside the monitor goes into the gate buffer, a FENCE acquire (and, in the monitor,
its release) stops issue until earlier accesses let it be done (that an acquire waits for earlier loads is the choice of the
model, log 10); FLUSHRES is outstanding and counts in st; RESID detaches the residual tile, or attaches one that passes the
checks of R262. (spec/10_mem_atomic.md, spec/09_mem_order.md) -/
def Obligations.ScFences : Prop :=
  ∀ (s u : State) (p : BitVec 3) (q c : BitVec 2) (t : BitVec 6) (n : Nat), SlotReady s p.toNat [] [] →
    s.bun.blocked = false → s.bun.raised = none →
    let s0 : State := markPopped s []
    let acq : Bool := q.getLsbD 0
    let rel : Bool := q.getLsbD 1
    ((curSeq s).mon = true → q ≠ 0 → exec (.fence p q c) s =
      .next (resumeFence (pendOn s0 (.fence acq rel c.toNat)) (curA s0) acq rel c.toNat)) ∧
    ((curSeq s).mon = false → rel = false → acq = true → exec (.fence p q c) s =
      .next (resumeFence (pendOn s0 (.fence true false c.toNat)) (curA s0) true false c.toNat)) ∧
    ((curSeq s).mon = false → rel = true → Gated s0 (.fence c.toNat) u → u.bun.blocked = false → u.bun.raised = none →
      exec (.fence p q c) s =
        .next (if acq then resumeFence (pendOn u (.fence true false c.toNat)) (curA u) true false c.toNat else u)) ∧
    exec (.flushres p) s = .next (pushOut s0 (curA s0) { op := .flushres } 0 1) ∧
    exec (.resid p false t) s = .next (resumeResid (pendOn s0 (.resid none)) (curA s0) none) ∧
    (tileSaved s t.toNat = false → residChk s0 (.resid p true t) t.toNat = .ok n →
      exec (.resid p true t) s = .next (resumeResid (pendOn s0 (.resid (some (t.toNat, n)))) (curA s0) (some (t.toNat, n))))

/-- Where its slot is ready and the gate buffer releases: TALLOC answers status 4 for an occupied slot, 3 for an illegal
descriptor, 1 and 2 where no entry or no space is free (PERMISSION, as late, where its quarter is another partition's), and
otherwise places the tile at the lowest free run, binds the slot and answers status 0 with the tile number; TFREE of a tile
without streams stops issue until nothing uses it; TINFO reads the entry of a bound slot; TMOVE does what its control word
says. (spec/14_t_tiles.md) -/
def Obligations.ScTiles : Prop :=
  ∀ (s u : State) (p : BitVec 3) (d a : BitVec 5) (t : BitVec 6) (n : Nat) (y : Tile),
    (SlotReady s p.toNat [a.toNat] [d.toNat] → Released (markPopped s [a.toNat]) u →
      let v : Word := reg s a.toNat
      let w : State := regionNext u
      let want := (descTile v).1
      let home := homeOf w want (descTile v).2.1 (descTile v).2.2
      let inCells : Tile := want.inCells (chainOf w (curA w))
      let tile : Tile := { inCells with part := curPart w, homeArr := home, len := if want.level = 0 then lenCode (curSeq w).len else 0,
                                        placed := true, binds := 1, owner := some (curPart w, curTid w) }
      let late : Nat := 12 * crossings (dieOfArr w (curA w)) (dieOfArr w home)
      ((curTile w t.toNat).isSome = true ∨ tileSaved w t.toNat = true → exec (.talloc p d t a) s =
        .next (holdUntil (setReg w d.toNat (statusWord 4 0)) (w.cyc + 8))) ∧
      (curTile w t.toNat = none → tileSaved w t.toNat = false →
        (tallocOk v (curSeq w).len = false → exec (.talloc p d t a) s =
          .next (holdUntil (setReg w d.toNat (statusWord 3 0)) (w.cyc + 8))) ∧
        (tallocOk v (curSeq w).len = true → want.level = 2 → quarterPart w home ≠ some (curPart w) →
          ((curSeq w).permAt = none → exec (.talloc p d t a) s =
            .next (block (modCur w fun q => { q with permAt := some (w.cyc + 8 + late) }))) ∧
          (∀ c, (curSeq w).permAt = some c → c ≤ w.cyc → exec (.talloc p d t a) s =
            .next (raise (modCur w fun q => { q with permAt := none })
              { faultW w 0x12 (.talloc p d t a) with tslot := t.toNat, tvalid := true }))) ∧
        (tallocOk v (curSeq w).len = true → (want.level = 2 → quarterPart w home = some (curPart w)) →
          (freeEntry w (curPart w) = none → exec (.talloc p d t a) s =
            .next (holdUntil (setReg w d.toNat (statusWord 1 0)) (w.cyc + 8 + late))) ∧
          ∀ k, freeEntry w (curPart w) = some k →
            (lowestFit w tile = none → exec (.talloc p d t a) s =
              .next (holdUntil (setReg w d.toNat (statusWord 2 0)) (w.cyc + 8 + late))) ∧
            ∀ b, lowestFit w tile = some b → exec (.talloc p d t a) s =
              .next (holdUntil (setReg (bindSlot (placeTile w k { tile with base := b } (chainOf w (curA w))) t.toNat k) d.toNat
                (statusWord 0 k)) (w.cyc + 8 + ceilDiv tile.words (zeroRate tile.level) + late))))) ∧
    (SlotReady s p.toNat [] [] → tileSaved s t.toNat = false → slotChk (markPopped s []) (.tfree p t) t.toNat true = .ok (n, y) →
      streamOn s (curA s) n = false → Released (markPopped s []) u →
      exec (.tfree p t) s = .next (pendOn (regionNext u) (.tfree t.toNat))) ∧
    (SlotReady s p.toNat [a.toNat] [d.toNat] → tileSaved s t.toNat = false →
      (slotChk (markPopped s [a.toNat]) (.tinfo p d t a) t.toNat false = .ok (n, y) → exec (.tinfo p d t a) s =
        .next (result (markPopped s [a.toNat]) d.toNat (tinfoValue y (reg s a.toNat)) 4)) ∧
      (slotChk (markPopped s [a.toNat]) (.tmove p d t a) t.toNat true = .ok (n, y) → Released (markPopped s [a.toNat]) u →
        exec (.tmove p d t a) s = .next (tmoveGo (regionNext u) d.toNat t.toNat n y (reg s a.toNat))))

/-- Where its slot is ready: SYNC with its answer at hand issues as an acquire and writes it to rd, and a SYNC that has not
arrived, in a group it belongs to and outside a phase, arrives once its release is done; CBINIT, CBEXP, CBARR and CBTEST of a
barrier object that passes its checks are outstanding; CBWAIT issues with its answer, or with what the object answers at once.
That a SYNC in a broken group answers its present SPHASE beside the status 1 (log 55) is the choice of the model.
(spec/16_counters.md, spec/09_mem_order.md) -/
def Obligations.ScSynchronisation : Prop :=
  ∀ (s u : State) (p : BitVec 3) (d a : BitVec 5) (t : BitVec 6) (g : BitVec 12) (q : Bool) (c : BitVec 2) (pl : Place) (v : Word),
    (SlotReady s p.toNat [] [d.toNat] →
      let s0 : State := markPopped s []
      let n : Nat := groupNo s (curPart s) g.toNat
      ((curSeq s).syncDone = some v → exec (.sync p d g) s = .next (syncIssue s0 d.toNat v)) ∧
      ((curSeq s).syncDone = none → (curSeq s).syncGroup = none → groupIn s (curPart s) g.toNat = true →
        (groupAt s n).members.getLsbD (curA s) = true → phaseOn s = false → Released s0 u →
        releaseBlocked u (curA s) 1 = false → copiesLanded u (curA s) = true →
        let w : State := flushResid (releaseWork u (curA s) 1) (curA s)
        let x : State := groupArrive (modCur w fun r => { r with syncGroup := some g.toNat }) (curPart u) g.toNat (curA s)
        ((groupAt w n).broken = true → exec (.sync p d g) s = .next (syncIssue w d.toNat (syncBroken (groupAt w n)))) ∧
        ((groupAt w n).broken = false →
          ((curSeq x).syncDone = some v → exec (.sync p d g) s = .next (syncIssue x d.toNat v)) ∧
          ((curSeq x).syncDone = none → exec (.sync p d g) s = .next (block x))))) ∧
    (tileSaved s t.toNat = false →
      (SlotReady s p.toNat [a.toNat, d.toNat] [] → Released (markPopped s [a.toNat, d.toNat]) u → (curSeq u).st < 255 →
        let s0 : State := markPopped s [a.toNat, d.toNat]
        let x : Word := reg s d.toNat
        (barChk s0 (.cbinit p d t a) t.toNat (reg s a.toNat) true = .ok pl →
          (bitsOf x 23 16 = 0xFF ∨ groupIn s (curPart s) (bitsOf x 23 16) = true) →
          exec (.cbinit p d t a) s = .next (pushOut (regionNext u) (curA u) { op := .cbinit x, pl := pl, size := 16 } 0 1)) ∧
        (barChk s0 (.cbexp p d t a) t.toNat (reg s a.toNat) true = .ok pl →
          exec (.cbexp p d t a) s = .next (pushOut (regionNext u) (curA u) { op := .cbexp x, pl := pl, size := 16 } 0 1))) ∧
      (SlotReady s p.toNat [a.toNat] [d.toNat] →
        let s0 : State := markPopped s [a.toNat]
        (barChk s0 (.cbarr p d t a q c) t.toNat (reg s a.toNat) true = .ok pl → Released s0 u → (curSeq u).st < 255 →
          exec (.cbarr p d t a q c) s = .next (pushOut (regionNext u) (curA u)
            { op := .cbarr d.toNat, pl := pl, size := 16, rel := q, scope := Nat.min 2 c.toNat } 0 1)) ∧
        (barChk s0 (.cbtest p d t a) t.toNat (reg s a.toNat) false = .ok pl →
          exec (.cbtest p d t a) s = .next (pushOut s0 (curA s0) { op := .cbtest d.toNat, pl := pl, size := 16, acq := true, scope := 2 } 1 0)))) ∧
    (SlotReady s p.toNat [d.toNat, a.toNat] [d.toNat] →
      let s0 : State := markPopped s [d.toNat, a.toNat]
      ((curSeq s).cbDone = some v → (curSeq s).cbAt ≤ s.cyc → exec (.cbwait p d t a) s = .next (cbwaitIssue s0 d.toNat v)) ∧
      ((curSeq s).cbDone = none → (curSeq s).cbwaiting = false → (curSeq s).retryAt = none →
        tileSaved s t.toNat = false → barChk s0 (.cbwait p d t a) t.toNat (reg s a.toNat) false = .ok pl →
        feBlocked s (curA s) 0 pl.pa = false → cbwaitAnswer (barAt s pl.pa) ((reg s d.toNat).toNat % 2 ^ 8) = some v →
        let l := barServed (curA s) pl.pa
        serviceOpen s l = true →
        exec (.cbwait p d t a) s = .next (cbwaitIssue (markServed (countHome (markPoison s0 pl.pa 16) (curA s) pl.pa) l) d.toNat v)))

/-- Where its slot is ready and the gate buffer releases: the deque instructions are outstanding (the owner performs its own at
once where nothing earlier holds it; DQSTEAL names an array of its partition), TLAUNCH reads the record its handle reaches
with acquire at DEV and launches it, and SEAL and UNSEAL act on their range and answer rd, once no earlier access holds their
release. (spec/12_q_work.md, spec/13_t_translate.md) -/
def Obligations.ScDequesLaunchSeal : Prop :=
  ∀ (s u : State) (p b : BitVec 3) (d a r : BitVec 5) (h : BitVec 4) (f : BitVec 9) (pl : Place) (v : Nat) (w : State),
    let deque : Out → State := fun o => pushOut (regionNext u) (curA (regionNext u)) o 1 0
    let own : Out → State := fun o => tryNow (deque o) (curA (deque o)) fun s k o => dqHome s (curA s) k o
    (SlotReady s p.toNat [a.toNat] [d.toNat] → Released (markPopped s [a.toNat]) u → exec (.dqpush p d a b) s =
      .next (own { op := .dqpush d.toNat b.toNat (reg s a.toNat), rel := true, scope := 1, due := s.cyc + 4 })) ∧
    (SlotReady s p.toNat [] [d.toNat] → Released (markPopped s []) u → exec (.dqpop p d b) s =
      .next (own { op := .dqpop d.toNat b.toNat, due := s.cyc + 4 })) ∧
    (SlotReady s p.toNat [r.toNat] [d.toNat] → Released (markPopped s [r.toNat]) u → (reg s r.toNat).toNat < 28 →
      partOfArr s (reg s r.toNat).toNat = some (curPart s) → exec (.dqsteal p d r b) s =
        .next (deque { op := .dqsteal d.toNat b.toNat (reg s r.toNat).toNat, acq := true, scope := 1, due := s.cyc + 1 })) ∧
    (SlotReady s p.toNat [] [d.toNat] → Released (markPopped s []) u → releaseBlocked u (curA u) 2 = false →
      let s1 : State := releaseWork u (curA u) 2
      handleChk s1 (.tlaunch p d h f) h.toNat true (f.toInt * 64) 64 true false false = .ok pl →
      accessBlocked s1 (curA u) pl.pa 64 = false → postedBlocked s1 (curA u) pl.pa = false →
      readFor s1 (curA u) { op := .load d.toNat false, pl := pl, size := 64, acq := true, scope := 2 } = (w, v, false) →
      argsBlocked s1 (curA u) (curPart u) (BitVec.ofNat 512 v) = false →
      let l := deviceLaunch w (curPart w) pl.va (BitVec.ofNat 512 v)
      exec (.tlaunch p d h f) s = .next (regionNext (setReg l.1 d.toNat l.2))) ∧
    (SlotReady s p.toNat [a.toNat, r.toNat] [d.toNat] → Released (markPopped s [a.toNat, r.toNat]) u →
      releaseBlocked u (curA u) 2 = false →
      (0 < (reg s r.toNat).toNat → (reg s r.toNat).toNat ≤ 4096 →
        invalWaits u (curPart u) (reg s a.toNat).toNat (reg s r.toNat).toNat = false) →
      let done : Bool → MOut := fun on =>
        let x := sealRange (releaseWork u (curA u) 2) (curPart u) (reg s a.toNat).toNat (reg s r.toNat).toNat on
        .next (regionNext (setReg x.1 d.toNat x.2))
      exec (.seal p d a r) s = done true ∧ exec (.unseal p d a r) s = done false)

/-- Where its slot is ready and the checks of R398 pass outside the monitor: PLAY.W and PLAY.D of a READY program begin the sparse
run of its list and of a DENSE one the dense run, and PLAY.D of a tile without a program triggers a compile and begins the
dense run; a run without words writes rd at once, one with words keeps them, each is issued in a later turn of the array, and
after the last rd is written; of an entry being compiled PLAY.D begins the dense run and PLAY.W is held; PLAY.W of a tile
without a program triggers a compile and is held, and begins the dense run where no entry is free; PATC writes 5 where FMT
does not match, 1, 2 or 3 for a program that is READY, DENSE or being compiled, and otherwise triggers a compile and writes 0,
or 4 where no entry is free; LDATT of 64 readable words with K in 1 to 64, no word being in flight, writes both tables and K
in every array of the chain where its bundle issues no word, and otherwise when that word has drained. That LDATT waits, and
that a word of its own bundle sees the old tables, is the choice of the model (log 70), and so is which uses of an entry count
for its eviction (log 69). (spec/15_t_patterns.md) -/
def Obligations.ScPatterns : Prop :=
  ∀ (s : State) (p : BitVec 3) (d a h : BitVec 5) (t : BitVec 6) (n k : Nat) (y : Tile) (rs ws : List Nat), tileSaved s t.toNat = false →
    (SlotReady s p.toNat [a.toNat] [d.toNat] →
      let s0 : State := markPopped s [a.toNat]
      let v : Word := reg s a.toNat
      let fmt : Word := (curSeq s).fmt.inForce
      let begins : State → List (Instr × Instr × Instr × Bool) → Nat → Nat → Word → Instr → Prop := fun u words entry base status i =>
        (curSeq u).mon = false → regionCheck u (curA u) fmt (u.bun.word ++ wordInstrs words) = .ok (rs, ws) →
        exec i s = .next (runBegun u d.toNat (playSel v) words entry base status rs ws)
      let plays : Instr → Prop := fun i => playTile s0 i t.toNat = .ok (n, y) → playFault s0 i v y = none →
        findProg s0 (curA s0) n y fmt = some k →
        let u : State := pmcAdd s0 (curA s0) 0x16 1
        let g : Prog := progAt u (curA u) k
        ((progAt s0 (curA s0) k).st = 1 → begins u (sparseWords v t.toNat none true g.lv) k g.mapBase (statusWord 0 g.len) i) ∧
        ((progAt s0 (curA s0) k).st = 2 → begins s0 (denseWords v t.toNat (y.rows / 16)) k 0 (statusWord 1 (y.rows / 8)) i)
      let dense : State → Nat → Instr → Prop := fun u entry i =>
        begins u (denseWords v t.toNat (y.rows / 16)) entry 0 (statusWord 1 (y.rows / 8)) i
      plays (.playW p d a h t) ∧ plays (.playD p d a h t) ∧
      (∀ k, findProg s0 (curA s0) n y fmt = some k → (progAt s0 (curA s0) k).st ≠ 1 → (progAt s0 (curA s0) k).st ≠ 2 →
        (playTile s0 (.playD p d a h t) t.toNat = .ok (n, y) → playFault s0 (.playD p d a h t) v y = none →
          dense s0 32 (.playD p d a h t)) ∧
        (playTile s0 (.playW p d a h t) t.toNat = .ok (n, y) → playFault s0 (.playW p d a h t) v y = none →
          exec (.playW p d a h t) s = .next (block s0))) ∧
      (playTile s0 (.playW p d a h t) t.toNat = .ok (n, y) → playFault s0 (.playW p d a h t) v y = none →
        findProg s0 (curA s0) n y fmt = none →
        let m := triggerCompile s0 (curA s0) n y fmt (if h = 0 then 8 else h.toNat)
        (m.2 = true → exec (.playW p d a h t) s = .next (block m.1)) ∧ (m.2 = false → dense m.1 32 (.playW p d a h t))) ∧
      (playTile s0 (.playD p d a h t) t.toNat = .ok (n, y) → playFault s0 (.playD p d a h t) v y = none →
        findProg s0 (curA s0) n y fmt = none →
        dense (triggerCompile s0 (curA s0) n y fmt (if h = 0 then 8 else h.toNat)).1 32 (.playD p d a h t)) ∧
      (v.toNat ≤ 16 → playTile s0 (.patc p d a t) t.toNat = .ok (n, y) →
        let answers : State → Word → Prop := fun u r => exec (.patc p d a t) s = .next (result u d.toNat r 1)
        (fmtMatches fmt y = false → answers s0 (statusWord 5 0)) ∧
        (fmtMatches fmt y = true →
          (findProg s0 (curA s0) n y fmt = some k →
            let g : Prog := progAt s0 (curA s0) k
            (g.st = 1 → answers (touchProg s0 (curA s0) k) (statusWord 1 g.len)) ∧
            (g.st = 2 → answers (touchProg s0 (curA s0) k) (statusWord 2 g.cause)) ∧
            (g.st ≠ 1 → g.st ≠ 2 → answers s0 (statusWord 3 0))) ∧
          (findProg s0 (curA s0) n y fmt = none →
            let m := triggerCompile s0 (curA s0) n y fmt (if v.toNat = 0 then 8 else v.toNat)
            answers m.1 (statusWord (if m.2 then 0 else 4) 0))))) ∧
    (∀ (b : Nat) (z : Play) (w : WordIn), (seqAt s b).play = some z →
      (playWord (seqAt s b) z = none → playTurn s b = bundleTurn (playEnd s b z) b) ∧
      (playWord (seqAt s b) z = some w → issueStops s b = false → (seqAt s b).wf < 255 → wordReady s b w = true →
        playTurn s b = heldTurn (pmcAdd (modSeq (issueWord s b w) b fun q =>
          { q with play := some { z with words := z.words.drop 1 } }) b 0x03 1) b 0)) ∧
    (SlotReady s p.toNat [d.toNat, a.toNat] [] →
      let s0 : State := markPopped s [d.toNat, a.toNat]
      let x : Nat := (reg s a.toNat).toNat
      let c : Word := reg s d.toNat
      let vals : List (BitVec 16) := attValues s0 n x
      let u : State := pendOn (modCur (markServed (countHome s0 (curA s0) (tilePlace n y x).pa) (attServed s0 n x)) fun q => { q with ld := q.ld + 1 }) (.ldatt c vals)
      tileChk s0 (.ldatt p d t a) t.toNat (reg s a.toNat) 64 false false = .ok (n, y) → 1 ≤ c.toNat → c.toNat ≤ 64 →
      (curArr s).words = [] → accessBlocked s0 (curA s0) (tilePlace n y x).pa 256 = false → serviceOpen s0 (attServed s0 n x) = true →
      ldattBad s0 n x = none →
      (s.bun.word.all (· = .nop) = true → exec (.ldatt p d t a) s =
        .next (dropLd (pendDone ((chainOf u (curA s)).foldl (fun w b => modArr w b fun z =>
          { z with att := Vector.ofFn fun (e : Fin 64) => vals.getD e.val 0, recv := Vector.ofFn fun (e : Fin 64) => vals.getD (64 + e.val) 0,
                   kcut := c.toNat }) u) (curA s)) (curA s))) ∧
      (s.bun.word.all (· = .nop) = false → exec (.ldatt p d t a) s = .next u))

/-- In the monitor, with MEPC a multiple of 24, ERET clears STAT.MON and the bundle at MEPC is next, a held fault being taken at
that boundary; with another MEPC it raises MISALIGNED with MEPC as DETAIL; outside the monitor it raises PRIV with its slot
word as DETAIL. (spec/17_records.md, spec/03_encoding.md) -/
def Obligations.EretReturns : Prop :=
  ∀ (s : State),
    ((curSeq s).mon = true → (curSeq s).mepc.toNat % 24 = 0 → exec .eret s = .next (modArr s (curA s) fun x => { x with
      seq := { x.seq with mon := false, npc := (curSeq s).mepc.toNat, stop := if x.seq.pending = [] then .run else .trap } })) ∧
    ((curSeq s).mon = true → (curSeq s).mepc.toNat % 24 ≠ 0 →
      exec .eret s = .next (raise s { slotFault s 0x14 with detail := (curSeq s).mepc })) ∧
    ((curSeq s).mon = false → exec .eret s = .next (raise s { slotFault s 0x03 with detail := (encode .eret).setWidth 64 }))

/-- In a cell where the slot is live and its operands read without fault in the lanes it reads, each FP32 arithmetic, compare and
special-function instruction computes every lane from the lanes of its operands as R161 says (one rounding of the exact sum or
product, the compare masks of R87, the functions of R88), ORs its exceptions into F and the word, and writes its destination,
L, C and the flags. (spec/06_regs_cell.md, spec/04_numbers.md) -/
def Obligations.CellFloatingPoint : Prop :=
  ∀ (s : State) (d a b : BitVec 6) (w : BitVec 3) (c f m : Bool),
    let on : Instr → List Nat → (List Frag → List (BitVec 32)) → VecFn → Prop := fun i srcs l h => CellReadyOn s srcs l →
      let r := h (curEnv s) (getG s (curCell s)) (srcs.map fun k => (readOp s k).frag)
      exec i s = .next (writeResult (raiseFlags (setG s (curCell s) r.2.2) r.2.1) d.toNat r.1 0 c f)
    let done : Instr → List Nat → VecFn → Prop := fun i srcs h => on i srcs (fun _ => srcs.map fun _ => allLanes) h
    done (.fadd d a b w c f) [a.toNat, b.toNat] (lanes3 fun v x y _ => fp32.sum v.noSr 0 [fpIn v x, fpIn v y] []) ∧
    done (.fsub d a b w c f) [a.toNat, b.toNat] (lanes3 fun v x y _ => fp32.sum v.noSr 0 [fpIn v x, (fpIn v y).neg] []) ∧
    done (.fmul d a b w c f m) [a.toNat, b.toNat] 
      (lanes3 fun v x y _ => fp32.sum v.noSr 0 [] [[(fpIn v x).negIf m, fpIn v y]]) ∧
    done (.fma d a b w c f m) [a.toNat, b.toNat, d.toNat] 
      (lanes3 fun v x y z => fp32.sum v.noSr 0 [fpIn v z] [[(fpIn v x).negIf m, fpIn v y]]) ∧
    done (.fmin d a b w c f) [a.toNat, b.toNat] (lanes3 fun v x y _ => fp32.put v.noSr 0 (minV (fpIn v x) (fpIn v y))) ∧
    done (.fmax d a b w c f) [a.toNat, b.toNat] (lanes3 fun v x y _ => fp32.put v.noSr 0 (maxV (fpIn v x) (fpIn v y))) ∧
    done (.fcmpEq d a b w c f) [a.toNat, b.toNat] (lanes3 fun v x y _ => (mask32 (eqV (fpIn v x) (fpIn v y)), 0)) ∧
    done (.fcmpNe d a b w c f) [a.toNat, b.toNat] (lanes3 fun v x y _ => (mask32 (!eqV (fpIn v x) (fpIn v y)), 0)) ∧
    done (.fcmpLt d a b w c f) [a.toNat, b.toNat] (lanes3 fun v x y _ => (mask32 (ltV (fpIn v x) (fpIn v y)), 0)) ∧
    done (.fcmpLe d a b w c f) [a.toNat, b.toNat] 
      (lanes3 fun v x y _ => (mask32 (ltV (fpIn v x) (fpIn v y) || eqV (fpIn v x) (fpIn v y)), 0)) ∧
    done (.frcp d a w c f) [a.toNat] (lanes3 fun v x _ _ => rcpV v.noSr (fpIn v x)) ∧
    done (.frsq d a w c f) [a.toNat] (lanes3 fun v x _ _ => rsqV v.noSr (fpIn v x)) ∧
    done (.fsqrt d a w c f) [a.toNat] (lanes3 fun v x _ _ => sqrtV v.noSr (fpIn v x)) ∧
    done (.fex2 d a w c f) [a.toNat] (lanes3 fun v x _ _ => ex2V v.noSr (fpIn v x)) ∧
    done (.flg2 d a w c f) [a.toNat] (lanes3 fun v x _ _ => lg2V v.noSr (fpIn v x))

/-- In a cell where the slot is live and its operands read without fault, HADD2, HFMA2, BFMA2 and each CVT write the packed,
narrowed or widened elements of R162 and R163, with the draws of the generator that stochastic rounding takes.
(spec/06_regs_cell.md, spec/04_numbers.md) -/
def Obligations.CellPackedAndConversions : Prop :=
  ∀ (s : State) (d a b : BitVec 6) (w : BitVec 3) (c f m : Bool),
    let on : Instr → List Nat → (List Frag → List (BitVec 32)) → VecFn → Prop := fun i srcs l h => CellReadyOn s srcs l →
      let r := h (curEnv s) (getG s (curCell s)) (srcs.map fun k => (readOp s k).frag)
      exec i s = .next (writeResult (raiseFlags (setG s (curCell s) r.2.2) r.2.1) d.toNat r.1 0 c f)
    let done : Instr → List Nat → VecFn → Prop := fun i srcs h => on i srcs (fun _ => srcs.map fun _ => allLanes) h
    done (.hadd2 d a b w c f) [a.toNat, b.toNat] 
      (packed2 fun v g x y _ => fp16.sum v g [fp16.read v.ftz x, fp16.read v.ftz y] []) ∧
    done (.hfma2 d a b w c f m) [a.toNat, b.toNat, d.toNat] 
      (packed2 fun v g x y z => fp16.sum v g [fp16.read v.ftz z] [[(fp16.read v.ftz x).negIf m, fp16.read v.ftz y]]) ∧
    done (.bfma2 d a b w c f m) [a.toNat, b.toNat, d.toNat] 
      (packed2 fun v g x y z => bf16.sum v g [bf16.read v.ftz z] [[(bf16.read v.ftz x).negIf m, bf16.read v.ftz y]]) ∧
    on (.cvtF16F32 d a w c f m) [a.toNat, d.toNat] (narrow16Lanes m) (narrow16 fp16 m) ∧
    on (.cvtF32F16 d a w c f m) [a.toNat] (widen16Lanes m) (widen16 fp16 m) ∧
    on (.cvtBf16F32 d a w c f m) [a.toNat, d.toNat] (narrow16Lanes m) (narrow16 bf16 m) ∧
    on (.cvtF32Bf16 d a w c f m) [a.toNat] (widen16Lanes m) (widen16 bf16 m) ∧
    on (.cvtE4m3F32 d a b w c f) [a.toNat, b.toNat, d.toNat] narrow8Lanes (narrow8 e4m3) ∧
    on (.cvtF32E4m3 d a b w c f) [a.toNat, b.toNat] widen8Lanes (widen8 e4m3) ∧
    on (.cvtE5m2F32 d a b w c f) [a.toNat, b.toNat, d.toNat] narrow8Lanes (narrow8 e5m2) ∧
    on (.cvtF32E5m2 d a b w c f) [a.toNat, b.toNat] widen8Lanes (widen8 e5m2) ∧
    done (.cvtI32F32 d a w c f) [a.toNat] (lanes3 fun v x _ _ => toI32 v.noSr (fpIn v x)) ∧
    done (.cvtF32I32 d a w c f) [a.toNat] (lanes3 fun v x _ _ => ofI32 v.noSr x)

/-- In a cell where the slot is live and its operands read without fault, each integer, logic, shift and compare instruction of
R164 completes, and every one of the 32 lanes of its destination holds the function of that lane of A and that lane of B, or
of the 6-bit immediate (sign-extended for arithmetic and signed compares, zero-extended for logic, shifts and ICMP.LTN) under
mod0. (spec/06_regs_cell.md) -/
def Obligations.CellIntegerLanes : Prop :=
  ∀ (s : State) (d a b : BitVec 6) (w : BitVec 3) (c f : Bool),
    let lanesOf : Instr → (Nat → Lane) → Prop := fun i g => ∃ t, exec i s = .next t ∧
      ∀ k, k < 32 → lane (getFrag t (curCell s) d.toNat) k = g k
    let A : Nat → Lane := lane (readOp s a.toNat).frag
    let B : Nat → Lane := lane (readOp s b.toNat).frag
    let D : Nat → Lane := lane (readOp s d.toNat).frag
    let two : (Bool → Instr) → Lane → (Lane → Lane → Lane) → Prop := fun i imm g =>
      (CellReady s [a.toNat, b.toNat] → lanesOf (i false) fun k => g (A k) (B k)) ∧
      (CellReady s [a.toNat] → lanesOf (i true) fun k => g (A k) imm)
    two (fun m => .iadd d a b w c f m) (b.signExtend 32) (fun x y => x + y) ∧
    two (fun m => .isub d a b w c f m) (b.signExtend 32) (fun x y => x - y) ∧
    two (fun m => .imin d a b w c f m) (b.signExtend 32) (fun x y => if x.toInt ≤ y.toInt then x else y) ∧
    two (fun m => .imax d a b w c f m) (b.signExtend 32) (fun x y => if x.toInt ≤ y.toInt then y else x) ∧
    two (fun m => .cellAnd d a b w c f m) (b.setWidth 32) (fun x y => x &&& y) ∧
    two (fun m => .cellOr d a b w c f m) (b.setWidth 32) (fun x y => x ||| y) ∧
    two (fun m => .cellXor d a b w c f m) (b.setWidth 32) (fun x y => x ^^^ y) ∧
    two (fun m => .cellShl d a b w c f m) (b.setWidth 32) (fun x y => x <<< (y.toNat % 32)) ∧
    two (fun m => .cellShr d a b w c f m) (b.setWidth 32) (fun x y => x >>> (y.toNat % 32)) ∧
    two (fun m => .cellSra d a b w c f m) (b.setWidth 32) (fun x y => x.sshiftRight (y.toNat % 32)) ∧
    two (fun m => .icmpEq d a b w c f m) (b.signExtend 32) (fun x y => if x = y then 0xFFFFFFFF else 0) ∧
    two (fun m => .icmpNe d a b w c f m) (b.signExtend 32) (fun x y => if x ≠ y then 0xFFFFFFFF else 0) ∧
    two (fun m => .icmpLt d a b w c f m) (b.signExtend 32) (fun x y => if x.toInt < y.toInt then 0xFFFFFFFF else 0) ∧
    two (fun m => .icmpLtn d a b w c f m) (b.setWidth 32) (fun x y => if x.toNat < y.toNat then 0xFFFFFFFF else 0) ∧
    (CellReady s [a.toNat, b.toNat] → lanesOf (.imul d a b w c f) fun k => A k * B k) ∧
    (CellReady s [a.toNat, b.toNat, d.toNat] → lanesOf (.imad d a b w c f) fun k => A k * B k + D k) ∧
    (CellReady s [a.toNat] → lanesOf (.iabs d a w c f) fun k => if (A k).toInt < 0 then -(A k) else A k)

/-- In a cell where the slot is live and its operands read without fault: SEL picks each lane by LF, the VRED forms give one value
in all lanes, VPERM and VBCAST move lanes, SRNG steps the generator 32 times, RKVAL looks ranks up, MOV copies a fragment with
the sidecar of R140 and under .d asks for a push, and FLAG gives the image of F and sets CF. (spec/06_regs_cell.md) -/
def Obligations.CellSelectReducePermute : Prop :=
  ∀ (s : State) (d a b : BitVec 6) (w : BitVec 3) (c f : Bool),
    let on : Instr → List Nat → (List Frag → List (BitVec 32)) → VecFn → Prop := fun i srcs l h => CellReadyOn s srcs l →
      let r := h (curEnv s) (getG s (curCell s)) (srcs.map fun k => (readOp s k).frag)
      exec i s = .next (writeResult (raiseFlags (setG s (curCell s) r.2.2) r.2.1) d.toNat r.1 0 c f)
    let done : Instr → List Nat → VecFn → Prop := fun i srcs h => on i srcs (fun _ => srcs.map fun _ => allLanes) h
    done (.vredAdd d a w c f) [a.toNat] (fun v gen xs =>
      let r := fp32.sum v.noSr 0 ((lanes (xs.getD 0 0)).map (fpIn v)) []
      (splat (BitVec.ofNat 32 r.1), r.2, gen)) ∧
    on (.srng d a w c f) [a.toNat] (fun _ => [lane0]) (fun _ gen xs =>
      let seed := lane (xs.getD 0 0) 0
      let l := srngSeq 32 (if a.toNat = codeZ then gen else if seed = 0 then 1 else seed)
      (fragOfList l, 0, l.getD 31 (if a.toNat = codeZ then gen else if seed = 0 then 1 else seed))) ∧
    done (.rkval d a w c f) [a.toNat] (fun v gen xs =>
      let r := laneFn (fun _ x _ _ =>
        if !x.getLsbD 31 || bitsOf x 21 16 ≥ (curCellArr s).kcut then (0, 0)
        else fp32.put v.noSr 0 (fp16.read v.ftz (vget 0 (curCellArr s).recv (bitsOf x 21 16)).toNat)) (xs.getD 0 0) 0 0
      (r.1, r.2, gen)) ∧
    on (.cellSel d a b w c f) [a.toNat, b.toNat] (fun _ => [lfOf (getF s (curCell s)), ~~~ lfOf (getF s (curCell s))]) 
      (fun _ gen xs => (fragOf fun k => if (lfOf (getF s (curCell s))).getLsbD k then lane (xs.getD 0 0) k else lane (xs.getD 1 0) k, 0, gen)) ∧
    done (.vredMax d a w c f) [a.toNat] (vredFn maxV) ∧
    done (.vredMin d a w c f) [a.toNat] (vredFn minV) ∧
    done (.vredOr d a w c f) [a.toNat] 
      (fun _ gen xs => (splat ((lanes (xs.getD 0 0)).foldl (fun acc x => acc ||| x) 0), 0, gen)) ∧
    on (.vperm d a b w c f) [a.toNat, b.toNat] permLanes 
      (fun _ gen xs => (fragOf fun k => lane (xs.getD 0 0) ((lane (xs.getD 1 0) k).toNat % 32), 0, gen)) ∧
    on (.vbcast d a b w c f true) [a.toNat] (fun _ => [oneLane b.toNat]) (fun _ gen xs => (splat (lane (xs.getD 0 0) (b.toNat % 32)), 0, gen)) ∧
    on (.vbcast d a b w c f false) [a.toNat, b.toNat] (fun xs => [oneLane (lane (xs.getD 1 0) 0).toNat, lane0])
      (fun _ gen xs => (splat (lane (xs.getD 0 0) ((lane (xs.getD 1 0) 0).toNat % 32)), 0, gen)) ∧
    (CellReady s [a.toNat] →
      let t : State := writeResult s d.toNat (readOp s a.toNat).frag (readOp s a.toNat).side c f
      exec (.mov d a b w c f false) s = .next t ∧
      exec (.mov d a b w c f true) s = .next { t with cell := { t.cell with pushes := t.cell.pushes ++ [b.toNat] } }) ∧
    (CellReadyOn s [a.toNat, b.toNat] (fun _ => [lane0, lane0]) →
      let F : Word := getF s (curCell s)
      let t : State := setF s (curCell s) (flagF F (lane (readOp s a.toNat).frag 0) (lane (readOp s b.toNat).frag 0))
      exec (.flag d a b w c) s = .next (writeResult { t with cell := { t.cell with takesPart := true } } d.toNat
        (fragOfList [BitVec.ofNat 32 F.toNat, BitVec.ofNat 32 (F.toNat / 2 ^ 32)]) 0 c false))

/-- In a cell where the slot is live, its operands read without fault, the slot names a CELL tile, every index lies within the
slice and (for a load) no word read is in error: LDC reads a fragment with its sidecar, STC writes one with its headers, VGATH
reads and VSCAT writes one word for each lane, the highest lane last; a store needs a tile that is not sealed.
(spec/06_regs_cell.md) -/
def Obligations.CellSram : Prop :=
  ∀ (s : State) (d a b : BitVec 6) (w : BitVec 3) (c f m : Bool) (t : Tile),
    let base : Nat := tileBase t (curCell s)
    let index : Nat := if m then b.toNat else (lane (readOp s b.toNat).frag 0).toNat % 2 ^ 16
    let B : Nat → Lane := lane (readOp s b.toNat).frag
    let cycles : Nat := bankCycles ((lanes (readOp s b.toNat).frag).map BitVec.toNat) - 1
    (CellReadyOn s (if m then [] else [b.toNat]) (fun _ => [lane0]) → cellTileChk s (.ldc d a b w c f m) a.toNat = .ok t → 32 * index + 32 ≤ t.words →
      wordsFault s a.toNat (fun _ => index) ((List.range 32).map (fun k => (k, base + 128 * index + 4 * k)) ++ fragHeads t base index) = none →
      exec (.ldc d a b w c f m) s = .next (writeResult s d.toNat (sliceFrag s base index) (fragSide s t base index) c f)) ∧
    (CellReadyOn s ((if m then [] else [b.toNat]) ++ [d.toNat]) (fun _ => (if m then [] else [lane0]) ++ [allLanes]) →
      cellTileChk s (.stc d a b w m) a.toNat = .ok t →
      32 * index + 32 ≤ t.words → t.sealed = false →
      exec (.stc d a b w m) s = .next (storeHeads (writeWords s
        ((lanes (readOp s d.toNat).frag).zipIdx.map fun (v, k) => (base + 128 * index + 4 * k, v))) t base index
        (readOp s d.toNat).side)) ∧
    (CellReady s [b.toNat] → cellTileChk s (.vgath d a b w c f) a.toNat = .ok t → lanesBeyond (readOp s b.toNat).frag t.words = 0 →
      wordsFault s a.toNat (fun k => (B k).toNat) ((List.range 32).map fun k => (k, base + 4 * (B k).toNat)) = none →
      exec (.vgath d a b w c f) s =
        .next (writeResult (addExtra s cycles) d.toNat (fragOf fun k => readW32 s (base + 4 * (B k).toNat)) 0 c f)) ∧
    (CellReady s [b.toNat, d.toNat] → cellTileChk s (.vscat d a b w) a.toNat = .ok t →
      lanesBeyond (readOp s b.toNat).frag t.words = 0 → t.sealed = false →
      exec (.vscat d a b w) s = .next (addExtra (writeWords s
        ((List.range 32).map fun k => (base + 4 * (B k).toNat, lane (readOp s d.toNat).frag k))) cycles))

/-- In a cell where the slot is live and its operands read without fault, with no accumulating write of the accumulator (for an
accumulation: of the other kind) inside the hazard window: MMA and MMA.NEG write the accumulated products and note the write,
ACLR, ALD and AMOV clear, load and move an accumulator, ARND narrows it, and OPTUPD with no word in error updates W, M and V
in every lane. (spec/07_regs_accum.md) -/
def Obligations.CellMatrix : Prop :=
  ∀ (s : State) (d a b : BitVec 6) (w : BitVec 3) (c f m : Bool),
    let int : Bool := intKind s.cell.fmt
    let free : Nat → Prop := fun x => hazardDist s x = none
    let chained : Nat → Bool → Prop := fun x k => hazardDist s x = none ∨ (ageOf s (curCell s) (x - codeA0)).2 = k
    let mma : Bool → State := fun neg =>
      let r := mmaFrag (curEnv s) s.cell.fmt neg m (readOp s a.toNat) (readOp s b.toNat) (readOp s d.toNat).frag
      noteAcc (writeReg (raiseFlags s r.2) d.toNat r.1 0) d.toNat int
    (CellReadyOn s [a.toNat, b.toNat, d.toNat] (fun _ => [hiLanes m, allLanes, allLanes]) → chained d.toNat int →
      exec (.mma d a b w m) s = .next (mma false) ∧ exec (.mmaNeg d a b w m) s = .next (mma true)) ∧
    (slotLive s = true → free d.toNat → exec (.aclr d w) s = .next (writeReg s d.toNat 0 0)) ∧
    (CellReady s [a.toNat] → free d.toNat → exec (.ald d a w c f) s = .next (writeResult s d.toNat (readOp s a.toNat).frag 0 c f)) ∧
    (CellReady s [a.toNat] → free a.toNat → (isAcc d.toNat = true → free d.toNat) →
      exec (.amov d a w c f) s = .next (writeResult s d.toNat (readOp s a.toNat).frag 0 c f)) ∧
    (let q : Nat := if outfOf s.cell.fmt ≤ 1 then codeZ else b.toNat
     CellReadyOn s [a.toNat, q, d.toNat] (arndLanes s.cell.fmt m) → free a.toNat →
      let r := arndFn s.cell.fmt m (curEnv s) (getG s (curCell s))
        [(readOp s a.toNat).frag, (readOp s q).frag, (readOp s d.toNat).frag]
      exec (.arnd d a b w c f m) s =
        .next (writeResult (raiseFlags (setG s (curCell s) r.2.2) r.2.1) d.toNat r.1 0 c f)) ∧
    (slotLive s = true → free a.toNat → optHeld s d.toNat a.toNat b.toNat = 0 →
      let n : Nat := curCell s
      let rs := (List.range 32).map fun k => optLane (curEnv s) (getFrag s n 7) m (lane (getFrag s n a.toNat) k)
        (lane (getFrag s n b.toNat) k) (lane (getFrag s n (b.toNat + 1)) k) (lane (getFrag s n d.toNat) k)
      let fl : Flags := rs.foldl (fun acc r => acc ||| r.2) 0
      let pick : (Nat × Nat × Nat → Nat) → Frag → Frag := fun g old => fragOf fun k =>
        match (rs.getD k (none, 0)).1 with
        | some r => BitVec.ofNat 32 (g r)
        | none => lane old k
      exec (.optupd d a b w c f m) s = .next (writeResult (writeReg (writeReg (raiseFlags s fl) b.toNat
        (pick (fun r => r.2.1) (getFrag s n b.toNat)) 0) (b.toNat + 1) (pick (fun r => r.2.2) (getFrag s n (b.toNat + 1))) 0) d.toNat
        (pick (fun r => r.1) (getFrag s n d.toNat)) 0 c f))

/-- In a cell where the slot is live and its operands read without fault: MMA.SEL of a sparse CELL tile of the format in force
steps MP and, under a map that selects rows of the tile without error, accumulates the selected products; a null map
accumulates nothing but counts as an accumulating write; RACC of an FP32 or BF16 CELL tile adds the rows its valid ranks below
the cut-off name. (spec/15_t_patterns.md, spec/12_q_work.md) -/
def Obligations.CellPatternAccumulation : Prop :=
  ∀ (s : State) (d a b : BitVec 6) (w : BitVec 3) (t : Tile), slotLive s = true →
    let chained : State → Prop := fun u =>
      hazardDist u d.toNat = none ∨ (ageOf u (curCell u) (d.toNat - codeA0)).2 = false
    (let n : Nat := curCell s
     let mp : Nat := tget 0 s.mp n
     let map : BitVec 16 := tget 0 s.pram (n * 256 + (tget 0 s.mapBase n + mp) % 256)
     let u : State := { s with mp := tset 0 s.mp n ((mp + 1) % 256) }
     let k0 : Nat := 16 * bitsOf map 15 9 + 8 * bitsOf map 8 8
     firstFault u ([b.toNat, d.toNat].zip (selLanes map [])) = none → cellTileChk u (.mmaSel d a b w) a.toNat = .ok t → t.sparse = true →
      t.type = afOf s.cell.fmt → chained u →
      (bitsOf map 7 0 = 0 → exec (.mmaSel d a b w) s = .next (noteAcc u d.toNat false)) ∧
      (bitsOf map 7 0 ≠ 0 → k0 + 7 < t.rows → wordsFault u a.toNat (fun _ => k0 / 8) (selWords (tileBase t n) map) = none →
        let r := accFrag (mmaSelElem u (curEnv u) (fmtOfCode (afOf s.cell.fmt)) (tileBase t n) map (readOp u b.toNat).frag
          (readOp u d.toNat).frag)
        exec (.mmaSel d a b w) s = .next (noteAcc (writeReg (raiseFlags u r.2) d.toNat r.1 0) d.toNat false))) ∧
    (let tab : Arr := curCellArr s
     let B : Frag := (readOp s b.toNat).frag
     let u : List Nat := raccSet B tab.kcut
     let base : Nat := tileBase t (curCell s)
     let ix : Nat → Nat := fun q => (lane B q).toNat % 2 ^ 16
     let bytes : Nat := if t.type = 0 then 64 else 128
     firstFault s ([b.toNat, d.toNat].zip [hiLanes false, allLanes]) = none → cellTileChk s (.racc d a b w) a.toNat = .ok t → (t.type = 6 ∨ t.type = 0) →
      (∀ q ∈ u, ix q < raccRows t) → chained s →
      wordsFault s a.toNat (fun q => if t.type = 0 then ix q / 2 else ix q)
        (u.flatMap fun q => (List.range (bytes / 4)).map fun k => (q, base + bytes * ix q + 4 * k)) = none →
      let r := laneFn (fun k _ _ z => fp32.sum (curEnv s).toRne 0 [fpIn (curEnv s) z]
        (u.map fun q => [raccElem s (curEnv s) t base (ix q) k,
          fp16.read (curEnv s).ftz (vget 0 tab.att (bitsOf (lane B q) 21 16)).toNat])) 0 0 (readOp s d.toNat).frag
      exec (.racc d a b w) s = .next (addExtra (noteAcc (writeReg (raiseFlags s r.2) d.toNat r.1 0) d.toNat false)
        (ceilDiv u.length 4 - 1)))

/-- Where the copy slot is ready, the tiles it names are not in a save area, the checks of R292 and of its own rule answer the
tiles it holds, the queue and cp have room and the gate buffer releases: the command enters the queue of its engine with what
it latched, and cp counts it. (spec/11_q_streams.md, spec/14_t_tiles.md) -/
def Obligations.CopyCommandsEnter : Prop :=
  ∀ (s u : State) (p : BitVec 3) (a b : BitVec 5) (e w : BitVec 2) (f i z q r l : Bool) (c x : BitVec 2) (tiles : List (Nat × Nat)),
    CopyReady s p.toNat [a.toNat, b.toNat] [] → (engAt s (curA s) e.toNat).queue.length < 64 → (curSeq s).cp < 255 →
    let s0 : State := markPopped s [a.toNat, b.toNat]
    Released s0 u →
    let ra : Word := kreg s a.toNat
    let rb : Word := kreg s b.toNat
    let E : Nat → Word := engX s e.toNat
    let rows : Nat := shapeRows (E 0)
    let rowb : Nat := shapeRowb (E 0)
    let enters : Instr → Option Word → List Nat → List LocUse → Bool → Prop := fun j dst slots locs rule =>
      anySaved s (slots ++ barSlots s e.toNat x.toNat) = false → cmdChk s0 j e.toNat locs x.toNat rule = .ok tiles →
      exec j s = .next (commandEntered (regionNext u) j e.toNat ra rb dst tiles)
    let src : LocUse := ⟨ra, false, [0, 1, 2], rowSpan rows rowb (E 1).toInt⟩
    let dst : LocUse := ⟨rb, true, [0, 1, 2], rowSpan rows rowb (E 2).toInt⟩
    let span : Word → Int → Option (Int × Int) := fun table tp =>
      let y := tableRows table ((kTile s (locSlot table)).map (·.2)) (E 4) tp
      tableSpan y.1 y.2.1 y.2.2 rowb rows
    let list : LocUse := listUse s e.toNat 3 (E 0) (rows * if i then 2 else 1)
    enters (.copy p a b e q r c x) (some rb) (locSlots ra ++ locSlots rb) [src, dst] (shapeOk (E 0)) ∧
    enters (.copyg p a b e f i q r c x) (some rb) (locSlots ra ++ locSlots rb ++ locSlots (E 3))
      [⟨ra, false, [1, 2], span ra (E 1).toInt⟩, dst, list]
      (shapeOk (E 0) && gatherRule s e.toNat ra rb (E 1).toInt (E 2).toInt) ∧
    enters (.copys p a b e f i q r c x) (some rb) (locSlots ra ++ locSlots rb ++ locSlots (E 3))
      [src, ⟨rb, true, [1, 2], span rb (E 2).toInt⟩, list]
      (shapeOk (E 0) && gatherRule s e.toNat rb ra (E 2).toInt (E 1).toInt) ∧
    enters (.copym p a b e z q r c x) (some rb) (locSlots ra ++ locSlots rb ++ locSlots (E 5))
      [src, dst, listUse s e.toNat 5 (E 0) (ceilDiv rows 8)] (shapeOk (E 0)) ∧
    enters (.fill p a b e w q r c x) (some rb) (locSlots rb) [dst] (shapeOk (E 0) && rowb % 2 ^ w.toNat = 0) ∧
    exec (.tpref p a b e l) s = .next (commandEntered (regionNext u) (.tpref p a b e l) e.toNat ra rb none []) ∧
    exec (.tflush p a b e) s = .next (commandEntered (regionNext u) (.tflush p a b e) e.toNat ra rb none [])

/-- Where the copy slot is ready, the tiles it names are not in a save area, its checks pass, there is room and the gate buffer
releases: BIND, UNBIND, RANKX and XMIT enter the queue of their engine, and IMUX, whose slots clash with no range of its phase
and leave at most four in a slot and whose tile is not the residual tile, adds its range to the phase table of its array.
(spec/11_q_streams.md, spec/14_t_tiles.md, spec/15_t_patterns.md) -/
def Obligations.StreamAndPhaseCommandsEnter : Prop :=
  ∀ (s u : State) (p : BitVec 3) (a b n : BitVec 5) (e : BitVec 2) (y : BitVec 4) (h o q r : Bool) (c x : BitVec 2)
      (tiles : List (Nat × Nat)),
    let ra : Word := kreg s a.toNat
    let rb : Word := kreg s b.toNat
    let room : Prop := (engAt s (curA s) e.toNat).queue.length < 64 ∧ (curSeq s).cp < 255
    let E : Nat → Word := engX s e.toNat
    (CopyReady s p.toNat [] [] → room → Released (markPopped s []) u →
      (anySaved s [(E 0).toNat % 64] = false → bindChk (markPopped s []) (.bind p e) e.toNat E = .ok tiles →
        exec (.bind p e) s = .next (commandEntered (regionNext u) (.bind p e) e.toNat 0 0 none tiles)) ∧
      ((portOk y.toNat n.toNat (curSeq s).len).isSome = true →
        exec (.unbind p n e y) s = .next (commandEntered (regionNext u) (.unbind p n e y) e.toNat 0 0 none []))) ∧
    (CopyReady s p.toNat [a.toNat, b.toNat] [] → Released (markPopped s [a.toNat, b.toNat]) u →
      let s0 : State := markPopped s [a.toNat, b.toNat]
      (room → anySaved s (locSlots ra) = false →
        cmdChk s0 (.rankx p a b e h o) e.toNat [⟨ra, false, [1, 2], rowSpan (shapeRows (E 0)) (shapeRowb (E 0)) (E 1).toInt⟩] 0
          (locKind ra ≠ 0 && rankRule s e.toNat rb) = .ok tiles →
        exec (.rankx p a b e h o) s = .next (commandEntered (regionNext u) (.rankx p a b e h o) e.toNat ra rb none tiles)) ∧
      (room → anySaved s (locSlots rb ++ barSlots s e.toNat x.toNat) = false →
        cmdChk s0 (.xmit p a b e q r c x) e.toNat [phaseUse rb false] x.toNat
          (xmitRule s0 e.toNat ra && phaseLocRule s0 rb ((E 0).toNat % 2 ^ 32)) = .ok tiles →
        exec (.xmit p a b e q r c x) s = .next (commandEntered (regionNext u) (.xmit p a b e q r c x) e.toNat ra rb none tiles)) ∧
      (let mine := s.imux.filter fun r => r.arr = curA s && some r.group = (openPhase s).map (·.1)
       let us := imuxUses (ctlArr ra) (curA s) (ctlSlot ra) (ctlCount ra) (ctlFrame ra) (ctlFlits ra)
       anySaved s (locSlots rb) = false →
        cmdChk s0 (.imux p a b e) e.toNat [phaseUse rb true] 0 (imuxRule s0 ra && phaseLocRule s0 rb (128 * ctlFlits ra)
          && !(locTile s0 rb).any fun z => isResid s0 z.1) = .ok tiles →
        imuxClash mine (ctlPlane ra) us = none → imuxFull mine (ctlPlane ra) us = false →
        exec (.imux p a b e) s = .next { regionNext u with imux := (regionNext u).imux ++ [
          { arr := curA u, src := ctlArr ra, slot := ctlSlot ra, count := ctlCount ra, plane := ctlPlane ra, frame := ctlFrame ra,
            nflits := ctlFlits ra, dst := rb, tile := (tiles.head?.map (·.2)).getD 0
            group := ((openPhase (regionNext u)).map (·.1)).getD 0
            tr := (tileAt (regionNext u) ((tiles.head?.map (·.2)).getD 0)).layout.getLsbD 4 }] }))

/-- Where the copy slot is ready: MTX writes one engine register, or two where rb is not s0, and MFX reads one into rd after 4
cycles; with the gate buffer released, ERESUME starts a halted engine where it stopped, ECANCEL lands what was sent (the
choice of the model, log 54) and cancels the halted command or all of them, and PHASE OPEN (outside a phase) and PHASE CLOSE
of a group the array belongs to (that CLOSE checks membership is the choice of the model, log 64) stop issue for their
meeting. (spec/11_q_streams.md, spec/14_t_tiles.md) -/
def Obligations.EngineRegistersAndPhases : Prop :=
  ∀ (s u : State) (p : BitVec 3) (a b d : BitVec 5) (e : BitVec 2) (n : BitVec 4) (l : Bool),
    (CopyReady s p.toNat [a.toNat, b.toNat] [] →
      let s1 : State := putX (markPopped s [a.toNat, b.toNat]) (curA s) e.toNat n.toNat (kreg s a.toNat)
      exec (.mtx p a b e n) s = .next (if b = 0 then s1 else putX s1 (curA s) e.toNat (n.toNat + 1) (kreg s b.toNat))) ∧
    (CopyReady s p.toNat [] [d.toNat] → exec (.mfx p d e n) s =
      .next (result (markPopped s []) d.toNat (xRead (engAt s (curA s) e.toNat) n.toNat) 4)) ∧
    (CopyReady s p.toNat [] [] → Released (markPopped s []) u →
      let w : State := regionNext u
      exec (.eresume p e) s = .next (modEng w (curA w) e.toNat fun g =>
        if g.halted then { g with halted := false, queue := lmod g.queue 0 fun c => { c with started := false, pages := [], sent := g.resume } }
        else g) ∧
      (let g : Engine := engAt w (curA w) e.toNat
       let v : State := landAll w (curA w) e.toNat
       (l = true → exec (.ecancel p e l) s = .next (cancelMany v (curA w) e.toNat (engAt v (curA w) e.toNat).queue.length)) ∧
       (l = false → g.halted = true → exec (.ecancel p e l) s = .next (cancelHead v (curA w) e.toNat)) ∧
       (l = false → g.halted = false → exec (.ecancel p e l) s = .next w))) ∧
    (CopyReady s p.toNat [a.toNat] [] → Released (markPopped s [a.toNat]) u →
      let g : Nat := (kreg s a.toNat).toNat % 2 ^ 8
      phaseMember s g = true →
      (phaseOn s = false → exec (.phaseOpen p a) s = .next (pendOn (regionNext u) (.phaseOpen g false))) ∧
      (let v : State := pendOn (regionNext u) (.phaseClose g)
       let w : State := groupArrive v (curPart v) g (curA v)
       exec (.phaseClose p a) s = .next (resumePhaseClose w (curA w) g)))

/-- Where it is due: PAUSE_EXPIRE resumes issue, QUOTA_WINDOW_START clears every count, brings written quotas into force and
counts the addends performed ahead of it (log 49), FE_RETRY lets the held bundle of a refused request send it again,
INSTRUCTION_CACHE_FILL reads the missing line at its home and, of a full instruction cache, drops the line filled longest ago
(the choice of the model, log 71), HANDLE_WALK_END makes a walking handle VALID with its leaf or FAULTED with its cause,
GLOBAL_STALL_END adds the freeze to WSTALL, and RETIREMENT_COMPLETE retires the task. (spec/02_execution.md,
spec/05_regs_sequencer.md, spec/09_mem_order.md, spec/13_t_translate.md, spec/16_counters.md) -/
def Obligations.SequencerEventsComplete : Prop :=
  ∀ (s : State),
    let a : Nat := s.ev.a
    let q : Seq := seqAt s a
    (∀ c, q.stop = .pause c → c ≤ s.cyc → exec .pauseExpire s = .next (modSeq s a fun q => { q with stop := .run })) ∧
    (s.window < s.cyc / 256 → let t : State := { s with
      window := s.cyc / 256, acnt := []
      quotas := s.quotas.filterMap fun e =>
        if ({ e.2 with inForce := e.2.qlim } : Quota) = {} then none else some (e.1, { e.2 with inForce := e.2.qlim })
      accDue := [] }
      exec .quotaWindowStart s = .next (s.accDue.foldl acceptDue t)) ∧
    (∀ c, q.retryAt = some c → c ≤ s.cyc → exec .feRetry s = .next (modSeq s a fun q => { q with retryAt := none })) ∧
    (∀ pa, missingLine s a = some pa →
      let u : State := countHome (sliceTouch (markPoison s pa 192) q.part pa false) a pa
      exec .instructionCacheFill s = .next (modArr u a fun x => { x with
        icache := ((pa, BitVec.ofNat 1536 (readNat u.mem pa 192)) :: x.icache).take 1024, victim := [] })) ∧
    (s.ev.k < 16 → (vget {} q.h s.ev.k).st = .walking →
      let w : State := walkTouch s q.part (vget {} q.h s.ev.k).va
      (∀ e x l, walk s q.part (vget {} q.h s.ev.k).va = .leaf e x l → exec .handleWalkEnd s = .next
        (modHandle (countMiss (tlbFill w a q.part (vget {} q.h s.ev.k).va.toNat e) a true) a s.ev.k fun h =>
          { h with st := .valid, leaf := e, cause := 0 })) ∧
      ∀ c l, walk s q.part (vget {} q.h s.ev.k).va = .fail c l → exec .handleWalkEnd s = .next
        (modHandle (countMiss w a true) a s.ev.k fun h => { h with st := .faulted, leaf := 0, cause := c })) ∧
    (∀ e k, q.stallEnd = some (e, k) → e ≤ s.cyc →
      exec .globalStallEnd s = .next (modSeq (pmcAdd s a 0x07 k) a fun q =>
        { q with stallEnd := none, sigma := q.sigma + k, wstall := q.wstall + BitVec.ofNat 64 k
                 now := { q.now with wstall := q.now.wstall + BitVec.ofNat 64 k } })) ∧
    (∀ i, canRetire s a = true → (arr s a).task = some i → exec .retirementComplete s = .next (retire s i))

/-- Where no earlier outstanding operation holds it back: LOAD_RETURN ends a load that is due, STORE_PERFORMED a store;
AMO_AT_HOME performs an AMO or CAS at its home, ATOMIC_RETURN brings the old value back; ACC_AT_HOME brings an accumulate to
its home, ACC_REFUSED brings a refused one back, ACC_RESEND sends one again at the next quota window; FLUSHRES_COMPLETE
flushes the residual tile once every earlier accumulate is accepted. (spec/09_mem_order.md, spec/10_mem_atomic.md,
spec/05_regs_sequencer.md) -/
def Obligations.OutstandingOperationsEnd : Prop :=
  ∀ (s : State) (o : Out),
    let a : Nat := s.ev.a
    let k : Nat := s.ev.k
    (seqAt s a).outs[k]? = some o → outReady (seqAt s a).outs k = true →
    (∀ rd sx, o.op = .load rd sx → o.due ≤ s.cyc → exec .loadReturn s = .next (loadReturn s a k o rd sx)) ∧
    (∀ v, o.op = .store v → exec .storePerformed s = .next (storeEnd s a k o v)) ∧
    (∀ fn rd v, o.op = .amo fn rd v → exec .amoAtHome s = .next (amoHome s a k o fn rd v)) ∧
    (∀ rd c n, o.op = .cas rd c n → exec .amoAtHome s = .next (casHome s a k o rd c n)) ∧
    (∀ rd old fl bad, o.op = .amoRet rd old fl bad → exec .atomicReturn s = .next (amoBack s a k o rd old fl bad)) ∧
    (∀ fn v, o.op = .acc fn v → exec .accAtHome s = .next (accHome s a k o fn v)) ∧
    (∀ fn v, o.op = .accRefused fn v → o.due = 0 → exec .accRefused s = .next (accBack s a k o fn v)) ∧
    (∀ fn v, o.op = .accRefused fn v → 0 < o.due → o.due ≤ s.cyc →
      exec .accResend s = .next (setOut s a k { o with op := .acc fn v, due := 0 })) ∧
    (o.op = .flushres → accBefore s a k = false →
      exec .flushresComplete s = .next (delOut (dropSt (flushResid s a) a) a k))

/-- Where it is due: COMPILE_BEGIN and COMPILE_END go through a compile, WORD_EXECUTE executes a word in its next cell,
AGGREGATES_ARRIVE brings the oldest finished word to the sequencer (wf falls, FPX takes its flags, located faults join),
TRAP_TAKEN takes the chosen fault, WATCHDOG ends the task FAILED with its record, PHASE_FRAME_START opens the phase, and
PHASE_FLIT lets a flit leave or arrive. (spec/02_execution.md, spec/06_regs_cell.md, spec/15_t_patterns.md,
spec/16_counters.md, spec/17_records.md, spec/11_q_streams.md) -/
def Obligations.WordsExecuteAndFaultsAreTaken : Prop :=
  ∀ (s : State),
    let a : Nat := s.ev.a
    let q : Seq := seqAt s a
    (exec .compileBegin s = .next (compileBegins s a)) ∧
    (∀ k, compileDue s a = some k → exec .compileEnd s = .next (compileEnds s a k)) ∧
    (wordDue s a s.ev.k = true → exec .wordExecute s = .next (wordStep s a s.ev.k)) ∧
    (∀ w t, (arr s a).words = w :: t → aggDue s a = true → exec .aggregatesArrive s = .next (modArr s a fun x => { x with
      words := t
      seq := { x.seq with agg := aggregatesOf w (chainRows s a), fpx := x.seq.fpx ||| w.flags, wf := x.seq.wf - 1,
                          now := { x.seq.now with fpx := x.seq.now.fpx ||| w.flags },
                          located := x.seq.located ++ w.faults } })) ∧
    (trapDue s a = true → exec .trapTaken s = .next (takeTrap s a)) ∧
    (watchdogDue s a = true →
      let f : FaultInfo := { code := 0x50, slot := 7, pc := q.pc, detail := BitVec.ofNat 64 q.wdog, cycle := s.cyc }
      exec .watchdog s = .next (failTop (writeRecord (withdrawHeld s a) a f false 0).1 a f)) ∧
    (∀ g c, q.after = some (.frame g c) → c ≤ s.cyc →
      exec .phaseFrameStart s = .next (modSeq (pendDone s a) a fun q => { q with phase := true, phaseOf := some g })) ∧
    (∀ k, flitDue s a s.ev.k = some k → exec .phaseFlit s = .next (flitLeave s a s.ev.k k)) ∧
    (flitDue s a s.ev.k = none → exec .phaseFlit s = .next (flitEject s))

/-- Where it is due: COMMAND_START starts the command at the head of an engine, ENGINE_PAGE_TRANSLATE sends its next bytes,
SECTOR_LAND lands the oldest sector in flight, COMMAND_END finishes it, and LINK_FAILURE stops it with status 6 or 7;
EDGE_LOADER_FILL and IMPALA_RANK bring to a ready port what one cycle brings, the latter a row for each array in a cycle,
DRAIN_WRITE writes drained places once in a cycle, none in a global stall; WINDOW_CONTRIBUTION adds another chip's partial to
a window entry, or its flush, or a full combining store, emits entries. (spec/11_q_streams.md, spec/02_execution.md,
spec/09_mem_order.md, spec/10_mem_atomic.md) -/
def Obligations.EnginesAndPortsProceed : Prop :=
  ∀ (s : State),
    let a : Nat := s.ev.a
    let k : Nat := s.ev.k
    (canStart s a k = true → exec .commandStart s = .next (startCmd s a k)) ∧
    (∀ c t, (engAt s a k).queue = c :: t →
      (canSend s a k = true → exec .enginePageTranslate s = .next (sendNext s a k c)) ∧
      (c.started = true → (engAt s a k).halted = false → usesLink s a k c = true →
        exec .linkFailure s = .next (linkEnd s a k (if s.ev.flag then 7 else 6) c c.sent (cmdAddr s a k c c.sent)))) ∧
    (∀ x t, (engAt s a k).flight = x :: t → exec .sectorLand s =
      .next (landSector (modEng s a k fun g => { g with flight := ldel g.flight 0 }) a k x)) ∧
    (canEnd s a k = true → exec .commandEnd s = .next (finishCmd s a k)) ∧
    (stalled s a = false →
      (fillReady s k (portAt s a k) = true →
        (isRankPort (portAt s a k) = false → exec .edgeLoaderFill s = .next (fillPort s a k)) ∧
        (isRankPort (portAt s a k) = true → (arr s a).rankAt ≤ s.cyc → exec .impalaRank s = .next (rankRow s a k))) ∧
      ((portAt s a k).drainAt ≤ s.cyc → canDrain (portAt s a k) = true → exec .drainWrite s = .next (drainPort s a k))) ∧
    (∀ w d, windowOf s s.ev.p s.ev.x0.toNat = some (w, d) →
      (s.ev.flag = false → k < 64 → d.getLsbD (128 + k) = true → k ≠ s.pkg.chipId → exec .windowContribution s =
        .next (windowAdd s s.ev.p w s.ev.x0.toNat k (BitVec.ofNat 32 s.ev.x1.toNat)))) ∧
    (s.ev.flag = true →
      (k < 64 → k ≠ s.pkg.chipId → exec .windowContribution s = .next (flushFrom s s.ev.p k)) ∧
      (64 ≤ k → k ≠ s.pkg.chipId → ∀ x, s.wins.find? (fun e => winSwitch s e + 64 = k) = some x →
        exec .windowContribution s = .next (windowEmit s x)))

/-- A valid ring entry advances QHEAD and starts its list with an empty stack; where its entry is next, well formed and the
journal has room, SKIPIF skips its COUNT entries or none by its condition, JUMP goes to ADDR, CALL pushes the next address and
goes to ADDR, RET pops or ends the list, NOTE journals its value, and HALTQ halts the queue with the walk at the next entry;
each is journalled ACCEPTED and DONE. (spec/12_q_work.md) -/
def Obligations.ListControlFlow : Prop :=
  ∀ (s : State) (p a : Nat) (e : BitVec 256),
    let q : Nat := s.ev.q
    let x : Queue := queueAt s q
    let n : Nat := (partAt s p).jtail.toNat
    (∀ v, walks x = true → x.lpc = none → x.head ≠ x.tail →
      virtRead s (x.owner.getD 0) (x.qbase.toNat + 16 * (x.head.toNat % 2 ^ x.log2n)) 2 = some v →
      let r : BitVec 128 := BitVec.ofNat 128 v
      let m : State := virtMeet s (x.owner.getD 0) (x.qbase.toNat + 16 * (x.head.toNat % 2 ^ x.log2n)) 16
      bitsOf r 63 57 = 0 → bitsOf r 127 96 = 0 → bitsOf r 4 0 = 0 →
      exec .ringEntry s = .next (modQueue m q fun x =>
        { x with head := x.head + 1, lpc := some (bitsOf r 56 0), stack := [], cookie := BitVec.ofNat 32 (bitsOf r 95 64) })) ∧
    (∀ c, EntryAt s q 3 p a e →
      let j : State := entryAccepted s q p a 3 0
      condHolds j p e = some c →
      exec .skipif s = .next (goTo (journalSet (condMeet j p e) p n jDone 0) q (if c then a + 32 + 32 * entHigh e else a + 32))) ∧
    (EntryAt s q 4 p a e →
      exec .jump s = .next (journalSet (goTo (entryAccepted s q p a 4 0) q (entAddr e)) p n jDone 0)) ∧
    (EntryAt s q 5 p a e → x.stack.length < 8 → exec .call s = .next (journalSet (modQueue (entryAccepted s q p a 5 0) q
      fun x => { x with stack := (a + 32) :: x.stack, lpc := some (entAddr e) }) p n jDone 0)) ∧
    (EntryAt s q 6 p a e → exec .ret s = .next (journalSet (modQueue (entryAccepted s q p a 6 0) q fun x => match x.stack with
      | [] => { x with lpc := none }
      | b :: t => { x with stack := t, lpc := some b }) p n jDone 0)) ∧
    (EntryAt s q 11 p a e → exec .note s = .next
      (goTo (journalSet (entryAccepted s q p a 11 (bitsOf e 95 64)) p n jDone (bitsOf e 95 64)) q (a + 32))) ∧
    (EntryAt s q 12 p a e → exec .haltq s = .next
      (haltQueue (journalSet (goTo (entryAccepted s q p a 12 0) q (a + 32)) p n jDone 0) q hHaltq 0))

/-- Where its entry is next, well formed and the journal has room: WAITC is accepted and reads its word, and again at each poll,
until its condition holds or its TIMEOUT fails it; FENCE waits until every earlier entry of the queue is final; GROUPSET waits
until its group has no member RUNNING or PREEMPTED and then configures it; SIGNAL writes, or adds, its value and raises its
vector where asked. (spec/12_q_work.md, spec/18_outside.md) -/
def Obligations.ListWaitsAndSignals : Prop :=
  ∀ (s : State) (p a n b c : Nat) (e : BitVec 256),
    let q : Nat := s.ev.q
    let x : Queue := queueAt s q
    let past (t : State) : State := modQueue t q fun x => { x with wait := none, lpc := x.lpc.map (· + 32) }
    let new : Nat := (partAt s p).jtail.toNat
    (EntryAt s q 7 p a e →
      let j : State := modQueue (entryAccepted s q p a 7 0) q fun x =>
        { x with wait := some (.waitc new s.cyc s.cyc), ent := e }
      let P : Nat := (queueAt j q).owner.getD 0
      (condHolds j P (queueAt j q).ent = some true →
        exec .waitc s = .next (past (journalSet (condMeet j P (queueAt j q).ent) P new jDone 0))) ∧
      (condHolds j P (queueAt j q).ent = some false → exec .waitc s =
        let u : State := condMeet j P (queueAt j q).ent
        .next (modQueue u q fun x => { x with wait := some (.waitc new s.cyc s.cyc) }))) ∧
    (x.wait = some (.waitc n b c) →
      (condHolds s (x.owner.getD 0) x.ent = some true →
        exec .waitcPoll s = .next (past (journalSet (condMeet s (x.owner.getD 0) x.ent) (x.owner.getD 0) n jDone 0))) ∧
      (condHolds s (x.owner.getD 0) x.ent = some false →
        exec .waitcPoll s =
          let u : State := condMeet s (x.owner.getD 0) x.ent
          .next (modQueue u q fun x => { x with wait := some (.waitc n s.cyc c) })) ∧
      (waitcLate s q = true → exec .waitcTimeout s = .next (haltQueue (modQueue (journalSet s (x.owner.getD 0) n jFailed 0) q
        fun x => { x with wait := none }) q hTimeout 32))) ∧
    (EntryAt s q 9 p a e → exec .listFence s = .next (modQueue (entryAccepted s q p a 9 0) q fun x =>
      { x with wait := some (.fence new) })) ∧
    (x.wait = some (.fence n) → queueFinal s q = true →
      exec .listFenceDone s = .next (past (journalSet s (x.owner.getD 0) n jDone 0))) ∧
    (EntryAt s q 10 p a e → exec .groupset s = .next (modQueue (entryAccepted s q p a 10 0) q fun x =>
      { x with wait := some (.groupset new), ent := e })) ∧
    (x.wait = some (.groupset n) →
      let g : Nat := groupNo s (x.owner.getD 0) (entHigh x.ent)
      (groupAt s g).members = 0 → (groupAt s g).parked = 0 →
      exec .groupsetDone s = .next (past (journalSet (modGroup s g fun y =>
        { y with planes := BitVec.ofNat 16 (bitsOf x.ent 79 64), mcast := x.ent.getLsbD 80
                 members := if x.ent.getLsbD 8 then 0 else y.members
                 broken := if x.ent.getLsbD 8 then false else y.broken, closing := false }) (x.owner.getD 0) n jDone 0))) ∧
    (EntryAt s q 8 p a e → ∀ t, signalWrite (entryAccepted s q p a 8 0) p e = (t, true) →
      exec .signal s = .next (goTo (journalSet (if e.getLsbD 9 then raiseIrq t (p + 1) (entHigh e) else t) p new jDone 0) q (a + 32)))

/-- Where its entry is next, well formed, the journal has room and the scoreboard share is not full: LAUNCH with a valid record is
accepted, and the walk goes on past its 64 bytes; XFER is accepted onto the scoreboard, halting the walk only where WAIT is
set. A transfer whose sides are not refused is STARTED, then moves its bytes and is DONE, or FAILED with the status that
stopped it. (spec/12_q_work.md) -/
def Obligations.LaunchesAndTransfers : Prop :=
  ∀ (s : State) (p a : Nat) (e : BitVec 256),
    let q : Nat := s.ev.q
    let m : State := entryMeet s p a
    let m2 : State := virtMeet m p (a + 32) 32
    (EntryAt s q 1 p a e → sbFull s p = false → ∀ hi args binds, virtRead m p (a + 32) 4 = some hi →
      let r : BitVec 512 := BitVec.ofNat 512 (e.toNat + 2 ^ 256 * hi)
      readRecord m2 p r false = some (args, binds) →
      exec .launch s = .next (goTo (pruneXfers (promote
        (acceptTask (recordMeet m2 p r false) p q (queueAt s q).cookie (BitVec.ofNat 64 a) r args binds (depsOf s p q r)).1)) q (a + 64))) ∧
    (EntryAt s q 2 p a e → sbFull s p = false →
      let n : Nat := (partAt s p).jtail.toNat
      let x : Xfer := { part := p, queue := q, seq := n, tag := bitsOf e 30 16, len := bitsOf e 63 32, status := 0,
                        src := BitVec.ofNat 64 (entAddr e), dst := BitVec.ofNat 64 (bitsOf e 191 128), wait := e.getLsbD 8 }
      let j : State := entryAccepted s q p a 2 0
      let t : State := modQueue { j with xfers := j.xfers ++ [x] } q fun y =>
        { y with lpc := some (a + 32), wait := if x.wait then some (.xfer n) else none }
      sideBad t p x.len x.src = false → sideBad t p x.len x.dst = false → exec .xfer s = .next t) ∧
    (∀ x, s.xfers[s.ev.k]? = some x → x.status < 2 → sideSaved s x.src = false → sideSaved s x.dst = false →
      sideBad s x.part x.len x.src = false → sideBad s x.part x.len x.dst = false →
      sideAttached s x.src = false → sideAttached s x.dst = false →
      (x.status = 0 → exec .xferComplete s = .next
        (journalSet { s with xfers := lmod s.xfers s.ev.k fun x => { x with status := 1 } } x.part x.seq jStarted 0)) ∧
      (x.status = 1 →
        let r : List (Nat × Nat) × Nat := xferRun s x.part x.src x.dst x.len 0
        let m : State := xferMove (sideWalks (sideWalks s x.part x.len x.src) x.part x.len x.dst) x.part r.1
        (r.2 = 0 → exec .xferComplete s = .next (pruneXfers (promote (unwaitXfer (journalSet
          { m with xfers := lmod m.xfers s.ev.k fun x => { x with status := 2 } } x.part x.seq jDone 0) x.queue x.seq)))) ∧
        (r.2 ≠ 0 → exec .xferComplete s = .next (xferDrop m x true (xferDetail r.2)))))

/-- TASK_START assigns a placement to the next task in order, else asks tasks to give way, else begins an assigned task;
AGING_STEP applies the priorities of a partition anew; BLOCKING_TASK_TIMEOUT makes the long-skipped task the blocking one;
PREEMPTION stops issue, starts the grace period once drained, and saves; QUIESCE_EXPIRE cancels and keeps the commands not
ended; RESUMPTION assigns a placement to the next task in order that was pre-empted, else makes a saved task READY, else
begins an assigned one. Which task ranks above which (log 28) and that assignment and start are two steps (log 32) is the
choice of the model. (spec/12_q_work.md, spec/02_execution.md, spec/18_outside.md) -/
def Obligations.TaskEventsTakeEffect : Prop :=
  ∀ (s : State),
    let p : Nat := s.ev.p
    let a : Nat := s.ev.a
    (∀ i x t, assigns s p false = some (i, x, t) → exec .taskStart s = .next (assign s p i x t)) ∧
    (assigns s p false = none →
      (evictions s p ≠ [] → exec .taskStart s = .next ((evictions s p).foldl requestPreempt s)) ∧
      (evictions s p = [] → ∀ i t, nextBegin s p false = some (i, t) →
        exec .taskStart s = .next (beginTask s i (placementOf s t) t))) ∧
    (exec .agingStep s = .next (modPart { s with tasks := s.tasks.map fun t =>
      if t.part = p && (awaits t || t.st = .preempted) then { t with eff := effPri s t } else t } p fun x => { x with passHeld := none })) ∧
    (∀ i, nextBlocking s p = some i →
      exec .blockingTaskTimeout s = .next (modPart s p fun x => { x with blocking := some i, passHeld := none })) ∧
    (canStop s a = true → exec .preemption s = .next (stopIssue s a)) ∧
    (canStop s a = false → ∀ i t, taskOf s a = some (i, t) →
      (drained s a = true → t.quiesce = none →
        exec .preemption s = .next (modTask s i fun t => { t with quiesce := some (s.cyc + graceCycles) })) ∧
      (∀ d, t.quiesce = some d → canSave s a = true → exec .preemption s = .next (savePreempted s a i t))) ∧
    (quiesceEnds s a = true → ∀ i t, taskOf s a = some (i, t) →
      exec .quiesceExpire s = .next (modTask (modSeq ((List.range 4).foldl (fun s e => keepEngine s a e) s) a fun q =>
        { q with pending := q.pending.filter fun f => !(f.src = 2 && !f.precise) }) i fun t => { t with quiesce := some 0 })) ∧
    (∀ i x t, assigns s p true = some (i, x, t) → exec .resumption s = .next (assign s p i x t)) ∧
    (assigns s p true = none →
      (∀ i, savedTask s p = some i → exec .resumption s = .next (clearGroup0
        (modPart (modTask s i fun t => { t with st := .ready }) p fun x => { x with passHeld := none }) p)) ∧
      (savedTask s p = none → ∀ i t v, nextBegin s p true = some (i, t) → t.saved = some v →
        exec .resumption s = .next (resumeTask s i (placementOf s t) t v)))

/-- While the host link is up: a doorbell within the ring sets QTAIL, one behind it is ignored, another halts the queue with RING;
QCFG sets the ring size and the enable; QCTL resumes a halted queue at its entry or past it; JCTL cancels or kills; JHEAD
advances up to the oldest entry not final; AQCFG enables the administrative queue; a register write reaches the register at
its offset in its function; a 64-bit register that a 64-bit write reaches takes no low half held before. A doorbell that both
of the first cases fit sets QTAIL, which is the choice of the model (log 79). (spec/12_q_work.md, spec/18_outside.md) -/
def Obligations.FunctionRegistersAreWritten : Prop :=
  ∀ (s : State), s.pkg.pcieUp = true →
    let p : Nat := s.ev.p
    let v : Word := s.ev.x0
    (∀ q, localQueue s p s.ev.q = some q →
      let x : Queue := queueAt s q
      let t : BitVec 32 := BitVec.ofNat 32 v.toNat
      ((t - x.head).toNat ≤ 2 ^ x.log2n → exec .doorbell s = .next (modQueue s q fun x => { x with tail := t })) ∧
      (2 ^ x.log2n < (t - x.head).toNat → 2 ^ 31 ≤ (t - x.tail).toNat → exec .doorbell s = .next s) ∧
      (2 ^ x.log2n < (t - x.head).toNat → (t - x.tail).toNat < 2 ^ 31 → exec .doorbell s = .next (haltQueue s q hRing 0)) ∧
      (exec .qcfg s = .next (modQueue (dropLow s p (0x1008 + 32 * s.ev.q)) q fun x =>
        { x with log2n := bitsOf v 4 0, en := v.getLsbD 8 && 4 ≤ bitsOf v 4 0 && bitsOf v 4 0 ≤ 16 })) ∧
      (x.st = .halted →
        exec .qctlResume s = .next (modQueue s q fun x => { x with st := .idle, cause := 0, skipLen := 0 }) ∧
        (x.cause = hRing → exec .qctlSkip s = .next
          (modQueue s q fun x => { x with tail := x.head, st := .idle, cause := 0, skipLen := 0 })) ∧
        (∀ b, x.cause ≠ hRing → x.lpc = some b → exec .qctlSkip s = .next
          (modQueue s q fun x => { x with lpc := some (b + x.skipLen), st := .idle, cause := 0, skipLen := 0 })))) ∧
    (exec .jctlCancel s = .next (cancelSeq (dropLow s p 0x0018) p (bitsOf v 31 0))) ∧
    (exec .jctlKill s = .next (killSeq (dropLow s p 0x0018) p (bitsOf v 31 0))) ∧
    (let x : Part := partAt s p
     let d : Nat := (BitVec.ofNat 32 v.toNat - x.jhead).toNat
     (d ≤ (x.jtail - x.jhead).toNat → exec .jhead s = .next (modPart (dropLow s p 0x0010) p fun x =>
       { x with jhead := x.jhead + BitVec.ofNat 32 (Nat.min d (openSpan s p)) })) ∧
     ((x.jtail - x.jhead).toNat < d → exec .jhead s = .next s)) ∧
    (let en : Bool := v.getLsbD 8 && 4 ≤ bitsOf v 3 0 && bitsOf v 3 0 ≤ 12
     let fresh : Bool := en && !s.admin.en
     let w : State := dropPfLow s 0x0008
     exec .aqcfg s = .next { w with admin := { w.admin with
       log2n := bitsOf v 3 0, en := en
       head := if fresh && s.admin.st = 3 then BitVec.ofNat 32 (getBytes s (hostPa s.admin.tailAddr) 4) else s.admin.head
       st := if fresh then 1 else if en then s.admin.st else if s.admin.st = 3 then 3 else 0 } }) ∧
    (s.ev.a = 0 → exec .registerWrite s = .next (pfWrite s s.ev.k s.ev.flag v)) ∧
    (1 ≤ s.ev.a → s.ev.a ≤ 28 → exec .registerWrite s = .next (vfWrite s (s.ev.a - 1) s.ev.k s.ev.flag v))

/-- Where the chip is not in recovery, unused parameters are zero, the named partition exists (PART_CREATE: does not), and its
values are in range and not another partition's: PART_CREATE, PART_ARRAYS, PART_DISSOLVE, PTROOT, INVALIDATE, SHARES,
QUEUE_ASSIGN, MONITOR and SAVEPOOL change what they name and complete OK with their result. That every register of a new
partition but its arrays and default shares is at its reset value (log 5), that a READY task loses a placement outside the new
arrays (log 32), that a queue assigned or freed has all its registers at their reset values (log 24), and what PART_DISSOLVE
frees and resets beyond the words of R456 (log 35), is the choice of the model. (spec/18_outside.md, spec/13_t_translate.md,
spec/14_t_tiles.md, spec/12_q_work.md, spec/01_device.md) -/
def Obligations.AdminPartitionCommands : Prop :=
  ∀ (s : State),
    let p : Nat := s.ev.p
    let v : Word := s.ev.x0
    let m : BitVec 28 := BitVec.ofNat 28 (bitsOf v 27 0)
    (∀ g, AdminRuns s 1 → p < 28 → bitsOf v 63 28 = 0 → (partAt s p).alive = false → arraysFree s p m = true → sbGiven s p < 256 →
      freeGroup s p = some g → exec .partCreate s = .next (adminDone (modGroup (modPart s p fun _ =>
        { alive := true, arrays := m, gbase := g, gcount := 1, sbShare := 1 }) g fun _ => {}) 0)) ∧
    (AdminPart s 1 →
      (anyRunning s p = false →
        (bitsOf v 63 28 = 0 → arraysFree s p m = true →
          exec .partArrays s = .next (adminDone (dropOutside (modPart s p fun x => { x with arrays := m }) p) 0)) ∧
        (v.toNat < 2 ^ 40 → memDie v.toNat < 12 →
          exec .ptroot s = .next (adminDone (modPart s p fun x => { x with ptroot := v.toNat }) 0))) ∧
      (let tb : Nat := bitsOf v 13 0
       let tn : Nat := bitsOf v 29 16
       let gb : Nat := bitsOf v 39 32
       let gn : Nat := bitsOf v 47 40
       let sb : Nat := bitsOf v 56 48
       bitsOf v 15 14 = 0 → bitsOf v 31 30 = 0 → bitsOf v 63 57 = 0 →
       s.tasks.any (fun t => t.part = p && (t.st = .running || t.st = .preempted)) = false →
       tb + tn ≤ 2 ^ 14 → gn ≠ 0 → gb + gn ≤ 256 → sb ≠ 0 → sb ≤ 256 →
       (others s p).any (fun x => spansMeet tb tn x.tbase x.tcount || spansMeet gb gn x.gbase x.gcount) = false →
       sbGiven s p + sb ≤ 256 → exec .shares s = .next (adminDone (modPart s p fun x =>
         { x with tbase := tb, tcount := tn, gbase := gb, gcount := gn, sbShare := sb }) 0))) ∧
    (AdminPart s 0 → anyLive s p = false → exec .partDissolve s = .next (adminDone (dissolve s p) 0)) ∧
    (AdminPart s 2 → v.toNat < 2 ^ 57 → exec .invalidate s = .next (adminDone (invalidate s p v.toNat s.ev.x1.toNat) 0)) ∧
    (AdminRuns s 1 → v.toNat < Config.queues →
      (p = 0xFF → exec .queueAssign s = .next (adminDone (resetQueue s v.toNat none) 0)) ∧
      (p < 28 → (partAt s p).alive = true →
        let t : State := if (queueAt s v.toNat).owner = some p then s
          else resetQueue s v.toNat (some p)
        exec .queueAssign s = .next (adminDone t ((ownQueues t p).filter fun k => k < v.toNat).length))) ∧
    (AdminPart s 3 →
      (bitsOf v 63 1 = 0 → anyRunning s p = false → s.ev.x1.toNat < 2 ^ 57 → s.ev.x2.toNat < 2 ^ 57 → s.ev.x2.toNat % 128 = 0 →
        (∀ e x l, walk s p s.ev.x1 = .leaf e x l → (s.ev.x1.toNat - pageBase s.ev.x1.toNat (leafBytes e)) % 24 = 0) →
        exec .monitor s = .next (adminDone (modPart s p fun x =>
          { x with men := v.getLsbD 0, mentry := s.ev.x1, mrbase := s.ev.x2 }) 0)) ∧
      (v.toNat < 2 ^ 40 → memDie v.toNat < 12 → exec .savepool s = .next (adminDone (modPart s p fun x =>
        { x with spbase := v.toNat, spcount := s.ev.x1.toNat, spsize := s.ev.x2.toNat }) 0)))

/-- Where the chip is not in recovery, unused parameters are zero, the named partition exists and its values are in range and not
another partition's: KEY_LOAD, KEY_ASSIGN, WAYMASK, CHANNELS, CLOCK_LOCK, REDWIN, MIGTABLE, MIGRATE and QUOTA change what they
name and complete OK; MIGRATION_TRIGGER starts an automatic move and begins its count anew. That the frames of a pool are 48
KiB each (log 37), what a key load leaves of the lines under the slot (log 38), and that CLOCK_LOCK keeps LAPSED of the dies
it names again, that a joined lock on a die at another step is LAPSED from the start, and that reserved bits of the QUOTA and
CLOCK_LOCK records are ignored (log 35), is the choice of the model. (spec/18_outside.md, spec/13_t_translate.md,
spec/09_mem_order.md, spec/10_mem_atomic.md) -/
def Obligations.AdminMemoryCommands : Prop :=
  ∀ (s : State),
    let p : Nat := s.ev.p
    let v : Word := s.ev.x0
    let w : Word := s.ev.x1
    (AdminRuns s 2 → v.toNat ≠ 0 → v.toNat < Config.keySlots → w.toNat < 2 ^ 50 →
      let new : BitVec 512 := BitVec.ofNat 512 (getBytes s (hostPa w.toNat) 64)
      let t : State := rekey s v.toNat (tget 0 s.keys v.toNat) new
      exec .keyLoad s = .next (adminDone { t with keys := tset 0 t.keys v.toNat new } 0)) ∧
    (AdminRuns s 1 → v.toNat ≠ 0 → v.toNat < Config.keySlots →
      (p = 0xFF → exec .keyAssign s = .next (adminDone { s with keyOwner := tset 0 s.keyOwner v.toNat 0 } 0)) ∧
      (p < 28 → (partAt s p).alive = true →
        exec .keyAssign s = .next (adminDone { s with keyOwner := tset 0 s.keyOwner v.toNat (p + 1) } 0))) ∧
    (AdminPart s 2 →
      (v.toNat < 12 → w.toNat < 2 ^ 16 →
        ((below 28 fun q => q ≠ p).any fun q =>
          tget (0 : BitVec 16) s.waymask (v.toNat * 28 + q) &&& BitVec.ofNat 16 w.toNat ≠ 0) = false →
        exec .waymask s = .next (adminDone
          { s with waymask := tset 0 s.waymask (v.toNat * 28 + p) (BitVec.ofNat 16 w.toNat) } 0)) ∧
      (let d : BitVec 256 := BitVec.ofNat 256 (getBytes s (hostPa w.toNat) 32)
       v.toNat < 16 → w.toNat < 2 ^ 50 → anyRunning s p = false →
       (d.getLsbD 63 = false →
         exec .redwin s = .next (adminDone (modPart s p fun x => { x with redwin := vset x.redwin v.toNat 0 }) 0)) ∧
       (d.getLsbD 63 = true → bitsOf d 62 52 = 0 → bitsOf d 127 112 = 0 → bitsOf d 255 192 = 0 → bitsOf d 51 0 % 192 = 0 →
         bitsOf d 95 64 ≠ 0 → bitsOf d 95 64 ≤ 2 ^ 20 →
         exec .redwin s = .next (adminDone (modPart s p fun x => { x with redwin := vset x.redwin v.toNat d }) 0))) ∧
      (v.toNat < 2 ^ 57 → w.toNat < 64 → ∀ t, movePage s p v.toNat w.toNat = .ok t →
        exec .migrate s = .next (adminDone t 0)) ∧
      (v.toNat < 12 →
        let l : Nat := bitsOf w 10 0
        let t : State := setQuota s v.toNat p { quotaAt s v.toNat p with
          qlim := if 1 ≤ l && l ≤ 1024 then l else (quotaAt s v.toNat p).qlim, refcnt := BitVec.ofNat 32 (bitsOf w 63 32) }
        exec .quota s = .next (adminDone t (quotaWord (quotaAt t v.toNat p))))) ∧
    (AdminPart s 1 →
      (let c : BitVec 16 := BitVec.ofNat 16 v.toNat
       v.toNat < 2 ^ 16 → popc c ≠ 0 → popc c ≤ 4 → (others s p).any (fun x => x.channels &&& c ≠ 0) = false →
       exec .channels s = .next (adminDone (modPart s p fun x => { x with channels := c }) 0)) ∧
      (let f : Nat := bitsOf v 23 16
       let dies : List Nat := maskBits 8 (bitsOf v 7 0)
       f ≤ 15 → dies.all (fun d => lockOk s d f) = true →
       let fresh : List Nat := dies.filter fun d => !(partAt s p).lockDies.getLsbD d
       let moved : List Nat := fresh.filter fun d => !(others s p).any fun x => x.lockDies.getLsbD d
       let joined : List Nat := fresh.filter fun d => (others s p).any (fun x => x.lockDies.getLsbD d) && vget 0 s.pkg.steps d ≠ f
       let t : State := modPart s p fun x =>
         { x with lockDies := BitVec.ofNat 8 (bitsOf v 7 0), lockFreq := f
                  lockLapsed := joined.foldl (fun b d => setBit b d true) (x.lockLapsed &&& BitVec.ofNat 8 (bitsOf v 7 0)) }
       exec .clockLock s = .next (adminDone { t with pkg := { t.pkg with steps := moved.foldl (fun y d => vset y d f) t.pkg.steps } }
         (lockRecord (partAt t p))))) ∧
    (AdminPart s 5 →
      let thr : Nat := bitsOf s.ev.x2 15 0
      bitsOf s.ev.x2 63 16 = 0 → thr ≠ 0 → v.toNat < 2 ^ 40 → w.toNat < 2 ^ 32 → s.ev.x3.toNat < 2 ^ 40 →
      s.ev.x4.toNat < 2 ^ 32 → exec .migtable s = .next (adminDone (modPart s p fun x =>
        { x with mtbase := v.toNat, mtcount := w.toNat, mthr := thr, mpool := s.ev.x3.toNat, mframes := s.ev.x4.toNat
                 mfree := (List.range s.ev.x4.toNat).map fun k => s.ev.x3.toNat + 49152 * k }) 0)) ∧
    (∀ r page c t, triggerDue s = some (r, page, c) →
      movePage { s with migCount := s.migCount.filter fun e => !(e.1 = r && e.2.1 = page && e.2.2.1 = c) } r page c = .ok t →
      exec .migrationTrigger s = .next t)

/-- NET_RESERVE and HBM_RESERVE take, or release, the lowest slots that are free, or that they hold, on every channel named and
answer the first (which slots, and that they count from the next frame, is the choice of the model, log 34); READREC writes
its record to the host, and that of a clock lock clears LAPSED; TILE_ALLOC and TILE_FREE allocate and free a persistent tile;
PREEMPT asks a RUNNING task to give way; POWER sets the limit; FREEZE and FRZ_N stop the clocks where debug is unlocked;
DEBUG_UNLOCK unlocks where its token verifies; AQ_TAIL_POLL reads the entries that the tail makes valid. (spec/18_outside.md,
spec/15_t_patterns.md, spec/14_t_tiles.md, spec/12_q_work.md) -/
def Obligations.AdminReservationsTilesAndDebug : Prop :=
  ∀ (s : State),
    let p : Nat := s.ev.p
    let v : Word := s.ev.x0
    let w : Word := s.ev.x1
    (AdminPart s 1 → v.getLsbD 19 = false → bitsOf v 63 33 = 0 → bitsOf v 30 24 ≠ 0 → bitsOf v 30 24 ≤ 64 → bitsOf v 15 0 ≠ 0 →
      bitsOf v 18 16 ≠ s.pkg.harvested →
      let a : Nat := 4 * liveOf s (bitsOf v 18 16) + bitsOf v 21 20
      let d : Nat := 4 * liveOf s (bitsOf v 18 16) + bitsOf v 23 22
      let keys : Nat → List Nat := chainKeys a d (bitsOf v 15 0)
      let want : Slot := { part := p, valid := true, phase := v.getLsbD 31 }
      ∀ l, firstSlots 64 (bitsOf v 30 24) (fun x => (keys x).all fun k =>
          ochreTakes (v.getLsbD 32) want (tget ({} : Slot) s.netRes k)) = some l →
        let u : Tab Slot := ochreWrite s (v.getLsbD 32) ((s.cyc / 64 + 1) * 64) want (l.flatMap keys) s.netRes
        exec .netReserve s = .next (adminDone { s with netRes := u } (l.headD 0))) ∧
    (AdminPart s 3 → bitsOf s.ev.x2 7 6 = 0 → bitsOf s.ev.x2 63 9 = 0 → v.toNat < 12 → w.toNat < 2 ^ 32 → w ≠ 0 →
      bitsOf s.ev.x2 5 0 ≠ 0 → bitsOf s.ev.x2 5 0 ≤ 62 →
      let keys : Nat → List Nat := fun x => (maskBits 32 w.toNat).map fun c => (v.toNat * 32 + c) * 64 + x
      let want : Slot := { part := p, valid := true }
      let rel : Bool := s.ev.x2.getLsbD 8
      ∀ l, firstSlots 62 (bitsOf s.ev.x2 5 0) (fun x => (keys x).all fun k =>
          ochreTakes rel want (tget ({} : Slot) s.hbmRes k)) = some l →
        let u : Tab Slot := ochreWrite s rel ((s.cyc / 192 + 1) * 192) want (l.flatMap keys) s.hbmRes
        exec .hbmReserve s = .next (adminDone { s with hbmRes := u } (l.headD 0))) ∧
    (AdminRuns s 4 → bitsOf s.ev.x3 63 1 = 0 → s.ev.x2.toNat < 2 ^ 50 →
      (v.toNat ≠ 4 → (p < 28 ∨ v.toNat = 1 ∨ v.toNat = 3 ∨ v.toNat = 5) →
        ∀ n r u, readRecordOf s p v.toNat w.toNat = some (n, r, u) → exec .readrec s =
          .next (adminDone (putBytes (if s.ev.x3.getLsbD 0 then u else s) (hostPa s.ev.x2.toNat) n r) n)) ∧
      (v.toNat = 4 → p < 28 → exec .readrec s = .next (adminDone
        (putBytes (modPart s p fun x => { x with lockLapsed := 0 }) (hostPa s.ev.x2.toNat) 8 (lockRecord (partAt s p))) 8))) ∧
    (AdminPart s 2 → ∀ t n, adminTile s p v w = .ok t → freeEntry s p = some n →
      let y : Tile := { t with version := (tileAt s n).version }
      exec .tileAlloc s = .next (adminDone (if t.placed then placeTile s n y [] else setTile s n y) n)) ∧
    (AdminPart s 1 →
      (v.toNat < 2 ^ 14 → (tileAt s v.toNat).st = .live → (tileAt s v.toNat).part = p →
        exec .tileFree s = .next (adminDone (sweepTiles (freeTile s v.toNat)) 0)) ∧
      ∀ i, ((List.range s.tasks.length).find? fun i => match taskAt s i with
          | some t => t.part = p && t.jseq = v.toNat && t.st = .running
          | none => false) = some i → exec .preempt s = .next (adminDone (requestPreempt s i) 0)) ∧
    (AdminRuns s 1 → 1600 ≤ v.toNat → v.toNat ≤ 3200 → v.toNat % 50 = 0 →
      exec .power s = .next (adminDone { s with pkg := { s.pkg with limit := v.toNat } } 0)) ∧
    (s.pkg.debugUnlocked = true →
      (s.admin.cur = none ∨ s.ev.flag = true → (∀ k, k < 6 → param s k = 0) → exec .freeze s = .next { s with pkg := { s.pkg with frozen := true } }) ∧
      exec .frzN s = .next { s with pkg := { s.pkg with frozen := true } }) ∧
    (AdminRuns s 2 → v.toNat < 2 ^ 50 → exec .debugUnlock s = .next (
      let t : State := (drawFree s).2
      if Config.tokenValid (drawFree s).1 then
        adminDone { t with pkg := { t.pkg with debugUnlocked := true, unlockRecorded := true } } 0
      else completeAdmin (t, 3, 0))) ∧
    (s.admin.fetched = [] → s.admin.en = true → s.admin.st ≠ 3 →
      let d : Nat := (BitVec.ofNat 32 (getBytes s (hostPa s.admin.tailAddr) 4) - s.admin.head).toNat
      let t : State := { s with admin := { s.admin with polled := s.cyc, doneAt := none } }
      (d ≤ 2 ^ s.admin.log2n → exec .aqTailPoll s = .next (readRing t d)) ∧
      (2 ^ s.admin.log2n < d → exec .aqTailPoll s = .next { t with admin := { t.admin with st := 3 } }))

/-- Where the link they use is up and the address is device memory: HOST_WRITE writes its bytes; HOST_FETCHADD, HOST_SWAP and
HOST_CAS are one indivisible operation at the home, of 4 or 8 aligned bytes, and complete with the old value (another width
completes as Unsupported Request); PEER_REQUEST loads, stores, and operates at the home as an atomic of this chip does;
ECC_ERROR marks an uncorrectable word, to be met by its next reader, or a lane of a cell register as poisoned (that such a
mark comes to a register by this act alone is the choice of the model, log 53), or counts a corrected one.
(spec/18_outside.md, spec/09_mem_order.md, spec/10_mem_atomic.md) -/
def Obligations.HostPeerAndErrorActs : Prop :=
  ∀ (s : State),
    let k : Nat := s.ev.k
    let n : Nat := s.ev.q
    let dev : Prop := isDevice k = true ∧ k < 2 ^ 40 ∧ memDie k < 12
    (let m : Nat := Nat.min 64 n
     (k + m ≤ 2 ^ 40 → s.pkg.pcieUp = true → memDie k < 12 →
       exec .hostWrite s = .next (homeBytes s s.ev.p k m s.ev.data.toNat)) ∧
     (2 ^ 51 ≤ k → k + m ≤ 3 * 2 ^ 50 → exec .hostWrite s = .next (putBytes s k m s.ev.data.toNat))) ∧
    (dev → s.pkg.pcieUp = true → (n = 4 ∨ n = 8) → k % n = 0 →
      let done : Instr → (Nat → Option Nat) → Prop := fun i f =>
        let r := rmw s k s.ev.p n fun old => (f old, 0)
        exec i s = .next (completeHost r.1 (some r.2.1))
      done .hostFetchadd (fun old => some ((old + s.ev.x0.toNat) % 2 ^ (8 * n))) ∧
      done .hostSwap (fun _ => some (s.ev.x0.toNat % 2 ^ (8 * n))) ∧
      done .hostCas fun old => if old = s.ev.x0.toNat % 2 ^ (8 * n) then some (s.ev.x1.toNat % 2 ^ (8 * n)) else none) ∧
    (s.pkg.pcieUp = true → n ≠ 4 → n ≠ 8 → ∀ i ∈ [Instr.hostFetchadd, .hostSwap, .hostCas], exec i s = .next (completeHost s none)) ∧
    (dev → rhodiGone s s.ev.x5.toNat = false →
      let chip : Nat := s.ev.x5.toNat
      (n = 0 → exec .peerRequest s = .next
        (countPeer (touchAll (markPoison s k s.ev.a) s.ev.p [k, k + (s.ev.a - 1)] false) s.ev.p k chip)) ∧
      (n = 1 → exec .peerRequest s = .next
        (countPeer (homeBytes s s.ev.p k (Nat.min 64 s.ev.a) s.ev.data.toNat) s.ev.p k chip)) ∧
      (n = 2 → (s.ev.a = 4 ∨ s.ev.a = 8) → exec .peerRequest s = .next (countPeer (rmw s k s.ev.p s.ev.a fun old =>
        let r := amoNew s.ev.x2.toNat (8 * s.ev.a) old (s.ev.x0.toNat % 2 ^ (8 * s.ev.a))
        (some r.1, r.2)).1 s.ev.p k chip)) ∧
      (n = 3 → (s.ev.a = 4 ∨ s.ev.a = 8) → exec .peerRequest s = .next (countPeer (rmw s k s.ev.p s.ev.a fun old =>
        (if old = s.ev.x1.toNat % 2 ^ (8 * s.ev.a) then some (s.ev.x0.toNat % 2 ^ (8 * s.ev.a)) else none, 0)).1 s.ev.p k chip))) ∧
    (n = 0 → eccHere k = true → s.ev.flag = true →
      exec .eccError s = .next { s with ecc := tset false s.ecc (if onChip ≤ k then k / 4 * 4 else k / 8 * 8) true }) ∧
    (n = 0 → eccHere k = true → s.ev.flag = false → exec .eccError s = .next (countCorrected s (errUnit k) (arrOfByte k))) ∧
    (n = 1 → k / 2048 / 1024 < 28 → s.ev.flag = true → exec .eccError s = .next { s with cellEcc := tset false s.cellEcc k true }) ∧
    (n = 3 → k / 2048 / 1024 < 28 → s.ev.flag = true → exec .eccError s = .next { s with cellPoison := tset false s.cellPoison k true }) ∧
    (n = 2 → unitOk k = true → exec .eccError s =
      .next (if s.ev.flag then countErr s k true else countCorrected s k (if k < 64 then some s.ev.a else none)))

/-- COLD_RESET leaves the package at reset in stage 2, or in recovery where the boot firmware does not verify; FUNCTION0_RESET
leaves it at reset but for an unlock of debug, and FLR resets the function of one partition and drops its transfers (the
choice of the model, log 40); each stage of bring-up follows the one before it or reports the link that fails; a Rhodi port
that comes up holds what its handshake brings; certificates, measurements and session keys are handed out while the link is
up; firmware not older than the security version is taken; above the power limit one die is lowered a step, and a thermal trip
lowers its die by one step (the choice of the model, log 39), lapsing the locks held at another step. The chain of
certificates of a part, the values of signatures and keys, and when a lowered die returns, are left open (free values of
Config). (spec/18_outside.md, spec/01_device.md) -/
def Obligations.ResetsBringUpAndIdentity : Prop :=
  ∀ (s : State),
    let free : State := (drawFree s).2
    (let r : State := resetPackage s
     exec .coldReset s = .next { r with pkg :=
       if s.ev.flag then { r.pkg with stage := 2, passThrough := true } else { r.pkg with recovery := true } }) ∧
    (let r : State := resetPackage s
     exec .function0Reset s = .next { r with pkg :=
       { r.pkg with debugUnlocked := s.pkg.debugUnlocked, unlockRecorded := s.pkg.unlockRecorded } }) ∧
    (s.ev.p < 28 →
      let u : State := endTasks s s.ev.p
      let w : State := (u.xfers.filter fun x => x.part = s.ev.p && x.status < 2).foldl (fun s x => xferDrop s x false 0) u
      exec .flr s = .next (clearVf { w with xfers := w.xfers.filter fun x => x.part ≠ s.ev.p } s.ev.p)) ∧
    (s.pkg.recovery = false → s.pkg.stopped = false →
      (s.pkg.stage = 2 → exec .ucieLinkTrain s = .next { s with pkg :=
        if s.ev.flag then { s.pkg with stage := 3, ucieUp := true }
        else { s.pkg with stopped := true, linkReports := (3, s.ev.k) :: s.pkg.linkReports } }) ∧
      (s.pkg.stage = 3 →
        (s.ev.flag = true → exec .hbmTrain s = .next (zeroDevice { s with pkg := { s.pkg with stage := 4, hbmUp := true } })) ∧
        (s.ev.flag = false → exec .hbmTrain s = .next { s with pkg :=
          { s.pkg with stopped := true, linkReports := (4, s.ev.k) :: s.pkg.linkReports } })) ∧
      (s.pkg.stage = 4 → exec .pcieEnumerate s = .next { s with pkg :=
        { s.pkg with stage := 5, pcieUp := s.ev.flag, atom32 := s.ev.x0.getLsbD 0, atom64 := s.ev.x0.getLsbD 1 } })) ∧
    (5 ≤ s.pkg.stage → s.ev.k < 16 →
      (s.ev.flag = false → exec .rhodiPortTrain s = .next { s with pkg :=
        { s.pkg with stage := 6, rhodi := vset s.pkg.rhodi s.ev.k .down } }) ∧
      (s.ev.flag = true → exec .rhodiPortTrain s = .next { s with pkg :=
        { s.pkg with stage := 6, rhodi := vset s.pkg.rhodi s.ev.k .up
                     partner := vset s.pkg.partner s.ev.k (some s.ev.q)
                     laneMap := vset s.pkg.laneMap s.ev.k (BitVec.ofNat 32 s.ev.x0.toNat)
                     credits := vset s.pkg.credits s.ev.k s.ev.x1 } })) ∧
    (s.pkg.pcieUp = true →
      (exec .getCertificate s = .next (respond s (Config.certificate s.pkg.chipId))) ∧
      (exec .getMeasurements s = .next ((measurements s).foldl (fun s m =>
        respond (respond (drawFree s).2 (BitVec.ofNat 512 m)) (Config.signature (drawFree s).1)) s)) ∧
      (s.ev.k = 0 → exec .spdmKeyExchange s = .next
        { free with pkg := { free.pkg with linkKey := some (Config.sessionKey (drawFree s).1) } }) ∧
      (1 ≤ s.ev.k → s.ev.k ≤ 29 → exec .spdmKeyExchange s = .next { free with pkg := { free.pkg with
        selKeys := (s.ev.k - 1, Config.sessionKey (drawFree s).1) :: free.pkg.selKeys.filter fun e => e.1 ≠ s.ev.k - 1 } })) ∧
    (s.ev.flag = true → s.pkg.securityVersion ≤ s.ev.q → exec .firmwareUpdate s = .next { s with pkg := { s.pkg with
      digests := putImage s.pkg.digests s.ev.k (BitVec.ofNat 256 s.ev.data.toNat), fwVersion := s.ev.q } }) ∧
    (let m : State := { s with pkg := { s.pkg with measured := s.ev.k } }
     s.pkg.limit < s.ev.k →
      (∀ d, lowerDie m = some d → exec .powerWindow s = .next (putStep m d (stepOf m d - 1))) ∧
      (lowerDie m = none → exec .powerWindow s = .next m)) ∧
    ((liveDies s).contains s.ev.k = true → exec .thermalTrip s = .next (putStep s s.ev.k (stepOf s s.ev.k - 1)))

/-- s0 reads as zero, and a write to it changes nothing and raises nothing; JAL writes s31; s31 like every other register that no
stream is bound to reads as last written, a write to one leaving the others. (R99) -/
def Obligations.ScalarRegisterZeroAndLink : Prop :=
  ∀ (s : State) (v : Word) (l r : Nat) (p : BitVec 3) (o : BitVec 22),
    reg s 0 = 0 ∧ setReg s 0 v = s ∧ result s 0 v l = s ∧
    (1 ≤ r → r < 32 → isBound s (curA s) r = false →
      reg (setReg s r v) r = v ∧ isPoisoned (setReg s r v) r = false ∧ ∀ k, k ≠ r → reg (setReg s r v) k = reg s k) ∧
    (SlotReady s p.toNat [] [31] →
      ∃ t, exec (.jal p o) s = .next t ∧ reg t 31 = BitVec.ofNat 64 ((curSeq s).pc + 24))

/-- A field [hi:lo] is bits lo to hi of its word; a value of n bytes written at a leaves byte k of the value at a + k and every
other byte as it was, is read back whole, and keeps the canonical form; a read takes the byte at the lowest address as the
least significant. (R1) -/
def Obligations.LittleEndianMemory : Prop :=
  ∀ (m : Memory) (a n v : Nat),
    (∀ (x : Word) (hi lo i : Nat), lo ≤ hi → (bitsOf x hi lo).testBit i = (decide (lo + i ≤ hi) && x.getLsbD (lo + i))) ∧
    (∀ k, k < n → readByte (writeNat m a n v) (a + k) = BitVec.ofNat 8 (v / 256 ^ k)) ∧
    (∀ x, x < a ∨ a + n ≤ x → readByte (writeNat m a n v) x = readByte m x) ∧
    readNat (writeNat m a n v) a n = v % 256 ^ n ∧
    (∀ k, k < n → readNat m a n / 256 ^ k % 256 = (readByte m (a + k)).toNat) ∧
    (Memory.wf m = true → Memory.wf (writeNat m a n v) = true)

/-- Where the entry is next, well formed and the journal has room: JUMP continues at its target; CALL pushes the address of the
entry after it and continues at its target, and at DEPTH 8 halts the queue with cause DEPTH and is not accepted (no journal
entry); RET at DEPTH 0 ends the list, and otherwise pops an address and continues there. (R319) -/
def Obligations.JumpCallAndRet : Prop :=
  ∀ (s : State) (p a : Nat) (e : BitVec 256),
    let q : Nat := s.ev.q
    let x : Queue := queueAt s q
    (EntryAt s q 4 p a e → ∃ t, exec .jump s = .next t ∧ (queueAt t q).lpc = some (entAddr e) ∧ (queueAt t q).stack = x.stack) ∧
    (EntryAt s q 5 p a e →
      (x.stack.length < 8 →
        ∃ t, exec .call s = .next t ∧ (queueAt t q).lpc = some (entAddr e) ∧ (queueAt t q).stack = (a + 32) :: x.stack) ∧
      (8 ≤ x.stack.length → ∃ t, exec .call s = .next t ∧ (queueAt t q).st = .halted ∧ (queueAt t q).cause = 3 ∧
        t.mem = (entryMeet s p a).mem ∧ t.parts = s.parts)) ∧
    (EntryAt s q 6 p a e →
      (x.stack = [] → ∃ t, exec .ret s = .next t ∧ (queueAt t q).lpc = none) ∧
      ∀ b l, x.stack = b :: l → ∃ t, exec .ret s = .next t ∧ (queueAt t q).lpc = some b ∧ (queueAt t q).stack = l)

/-- Where a fault that is due is taken into the monitor and its record is written, MCAUSE holds CODE, SLOT and PRECISE with the
rest 0, MREC the address of the record, and MEPC the faulting bundle for a precise fault (for TRAP the bundle after it, the
next to issue), MARKPC after a restart, and the next bundle to issue otherwise. That TRAP resumes past itself is how the model
reads the rules (log 66). (spec/17_records.md) -/
def Obligations.MonitorEntryRegisters : Prop :=
  ∀ (s s3 : State) (f : FaultInfo) (rest : List FaultInfo) (more at_ : Nat),
    let a : Nat := s.ev.a
    let q : Seq := seqAt s a
    trapDue s a = true → q.mon = false → q.stop ≠ .retiring → (partAt s q.part).men = true → chooseFault q = some (f, rest, more) →
    f.code < 2 ^ 8 → f.slot < 2 ^ 3 →
    let re : Bool := f.code = 0x11
    let s1 : State := modSeq (withdrawHeld s a) a fun q => { q with pending := rest, located := [] }
    let s2 : State := if re then restart s1 a f else s1
    writeRecord s2 a f re more = (s3, at_, false) →
    ∃ t, exec .trapTaken s = .next t ∧
      let r : Seq := seqAt t a
      bitsOf r.mcause 7 0 = f.code ∧ bitsOf r.mcause 10 8 = f.slot ∧ r.mcause.getLsbD 11 = f.precise ∧ bitsOf r.mcause 63 12 = 0 ∧
      r.mrec = BitVec.ofNat 64 at_ ∧ r.mon = true ∧
      r.mepc = BitVec.ofNat 64 (if re then (seqAt s2 a).markpc else if f.precise && f.code ≠ 0x60 then f.pc else (seqAt s2 a).pc)

/-- The all-zero word decodes to NOP in each of the six slots; a word whose opcode field is zero and that is not all zero is a bad
field in each, which the bundle reports as ILLEGAL with the slot and its word. (R40) -/
def Obligations.ZeroWordIsNop : Prop :=
  (decodeSc 0 = .ok .nop ∧ (∀ k, decodeCell k 0 = .ok .nop) ∧ decodeCopy 0 = .ok .nop) ∧
  (∀ w : BitVec 32, w ≠ 0 →
    (fld w 25 7 = 0 → decodeSc w = .error .badField ∧ decodeCopy w = .error .badField) ∧
    (fld w 24 8 = 0 → ∀ k, decodeCell k w = .error .badField)) ∧
  ∀ (mon : Bool) (v k : Nat),
    slotClassify mon v k (.error .badField) = .error { code := 0x01, slot := k, detail := (slotWord v k).setWidth 64 }

/-- An SC instruction that the mode forbids (ERET, a monitor register and h15 outside the monitor, TEND in it) raises PRIV
whatever its predicate; with a false predicate every other SC, KA or KB instruction leaves the state as it is; with a true
one, each two-source SC instruction that reads a bound register whose stream is empty holds its bundle, one that reads a
register marked poisoned raises POISON_CONSUMED, and one that writes a bound register raises ILLEGAL with the register number
in DETAIL, in that order. (spec/05_regs_sequencer.md, spec/08_mem_spaces.md, spec/13_t_translate.md) -/
def Obligations.SlotsThatTakeNoEffect : Prop :=
  ∀ (s : State),
    (∀ i : Instr, i.slotClass = some .sc → privBreak (curSeq s).mon i = true → exec i s = .next (raise s (faultW s 0x03 i))) ∧
    (∀ i : Instr, i.slotClass = some .sc → privBreak (curSeq s).mon i = false → pred s (guardOf i) = false → exec i s = .next s) ∧
    (∀ i : Instr, i.slotClass = some .copy → kpred s (guardOf i) = false → exec i s = .next s) ∧
    ∀ (p : BitVec 3) (d a b : BitVec 5) (w : Bool), ∀ i ∈ twoSourceOps p d a b w, pred s p.toNat = true →
      let dry : Nat → Prop := fun r => isBound s (curA s) r = true ∧ (portAt s (curA s) (portReg r)).elems = []
      (dry a.toNat ∨ dry b.toNat → exec i s = .next (blockDry s)) ∧
      (¬ dry a.toNat → ¬ dry b.toNat →
        (isPoisoned s a.toNat = true ∨ isPoisoned s b.toNat = true → exec i s = .next (raise s (slotFault s 0x41))) ∧
        (isPoisoned s a.toNat = false → isPoisoned s b.toNat = false → isBound s (curA s) d.toNat = true →
          exec i s = .next (raise s (faultD s 0x01 (BitVec.ofNat 64 d.toNat)))))

/-- Where its slot is ready, each SC integer instruction, LI, LUI, SEL, MFC, MFW and MFA leaves all but its destination, its
interlock and the divider as they were; each compare or predicate instruction all but its predicate; MTC, SETFMT, MTW, WROT,
XLAT and HINV leave memory, every scalar register and predicate, and every special register, selector pair and handle but the
one they name (LC0 with LSTG and its bit of STAT) as they were; and each cell instruction on lanes or whole fragments
(floating-point, packed, conversions, integer, SEL, MOV, the VRED forms, VPERM, VBCAST, FLAG, SRNG, RKVAL) leaves every byte
of memory, every sequencer, and every fragment of every cell, with its error and poison marks, but its destination, L and,
with the c modifier, C. That a slot that writes a register clears its marks (log 53), and what a write of LC0 makes of LSTG
and STAT (log 13), is the choice of the model. (spec/05_regs_sequencer.md, spec/06_regs_cell.md) -/
def Obligations.RegisterInstructionsFrame : Prop :=
  (∀ (s t : State) (p : BitVec 3) (d a b x : BitVec 5) (n : BitVec 12) (w : Bool), ∀ i ∈ twoSourceOps p d a b w ++ oneSourceOps p d a x n w,
    SlotReady s p.toNat [a.toNat, b.toNat] [d.toNat] → exec i s = .next t → t.bun.blocked = false → RegisterFrame s t d.toNat) ∧
  (∀ (s t : State) (p c w k : BitVec 3) (d a b : BitVec 5) (i : BitVec 17) (n : BitVec 12), ∀ x ∈ registerOps p c w k d a b i n,
    SlotReady s p.toNat x.2 [d.toNat] → (ctlPriv n.toNat = true → (curSeq s).mon = true) → exec x.1 s = .next t →
      RegisterFrame s t d.toNat) ∧
  (∀ (s t : State) (p w k : BitVec 3) (a : BitVec 5) (h : BitVec 4) (e : BitVec 2) (v : Bool) (m : BitVec 9) (n : BitVec 12),
    (SlotReady s p.toNat [a.toNat] [] →
      ((ctlPriv n.toNat = true → (curSeq s).mon = true) → (n = 0x200 → pmctlOk (reg s a.toNat) = true) → exec (.mtc p a n) s = .next t →
        SpecialFrame s t ∧ curSeq t = ctlWrite (curSeq s) n.toNat (reg s a.toNat) ∧
        ∀ j, j ≠ n.toNat → (n = 0x020 → j ≠ 0x002 ∧ j ≠ 0x022) → ctlRead t j = ctlRead s j) ∧
      (fmtOk (reg s a.toNat) = true → exec (.setfmt p a) s = .next t →
        SpecialFrame s t ∧ curSeq t = { curSeq s with fmt := (curSeq t).fmt } ∧ (curSeq t).fmt.inForce = (curSeq s).fmt.inForce) ∧
      (exec (.mtw p w a k) s = .next t ∨ exec (.wrot p w a e v m) s = .next t →
        SpecialFrame s t ∧ curSeq t = { curSeq s with w := (curSeq t).w } ∧ ∀ j, j ≠ w.toNat → selPair t j = selPair s j) ∧
      ((h = 15 → (curSeq s).mon = true) → exec (.xlat p h a) s = .next t →
        SpecialFrame s t ∧ curSeq t = { curSeq s with xlats := (curSeq t).xlats, locks := (curSeq t).locks })) ∧
    (SlotReady s p.toNat [] [] → exec (.hinv p h) s = .next t →
      SpecialFrame s t ∧ curSeq t = { curSeq s with h := (curSeq t).h, codeInval := (curSeq t).codeInval } ∧
      ∀ j, j ≠ h.toNat → handle t j = handle s j)) ∧
  (∀ (s t : State) (p d e f : BitVec 3) (a b : BitVec 5) (n : BitVec 12), ∀ i ∈ predicateOps p d e f a b n,
    SlotReady s p.toNat [a.toNat, b.toNat] [] → exec i s = .next t →
      (∀ x, readByte t.mem x = readByte s.mem x) ∧ (∀ r, reg t r = reg s r) ∧ (∀ k, k ≠ d.toNat → pred t k = pred s k) ∧
      curSeq t = { curSeq s with b := (curSeq t).b } ∧ (∀ k, k ≠ curA s → arr t k = arr s k) ∧
      t = { s with arrs := t.arrs, bun := t.bun }) ∧
  (∀ (s t : State) (d a b : BitVec 6) (w : BitVec 3) (c f m : Bool), ∀ i ∈ cellLaneOps d a b w c f m ++ cellWordOps d a b w c f m,
      exec i s = .next t →
    (∀ x, readByte t.mem x = readByte s.mem x) ∧ t.arrs = s.arrs ∧
    (∀ k, k ≠ 64 * curCell s + d.toNat → k ≠ 64 * curCell s + codeL → (c = true → k ≠ 64 * curCell s + codeC) → tget 0 t.frags k = tget 0 s.frags k) ∧
    t = { s with frags := t.frags, sides := t.sides, flags := t.flags, gens := t.gens, chist := t.chist, cell := t.cell,
                 cellEcc := t.cellEcc, cellPoison := t.cellPoison, errs := t.errs } ∧
    ∀ k, k / 32 ≠ 64 * curCell s + d.toNat → k / 32 ≠ 64 * curCell s + codeL → (c = true → k / 32 ≠ 64 * curCell s + codeC) →
      tget false t.cellEcc k = tget false s.cellEcc k ∧ tget false t.cellPoison k = tget false s.cellPoison k)

/-- Issuing a load, a store, an atomic, or, with no residual tile attached, an accumulate that raises nothing changes no byte of
memory and no register but its destination and its offset register. STORE_PERFORMED of a store that is not a release and is
not kept in the array cache writes the bytes of the store at its address and no other (on a page, none outside the lines the
cache held); one kept in the cache changes no byte outside the lines the cache held; LOAD_RETURN, unless it acquires, changes
none outside those lines (none at all where it is of a tile); and AMO_AT_HOME of an AMO or a CAS, unless it releases, none
outside its own bytes and those lines. Lines that stand clean in a cache slice under a key since replaced may change in each
of these as they leave it. (spec/08_mem_spaces.md, spec/09_mem_order.md, spec/10_mem_atomic.md, spec/05_regs_sequencer.md) -/
def Obligations.MemoryFrames : Prop :=
  (∀ (s t : State) (p : BitVec 3) (d a : BitVec 5) (h : BitVec 4) (y : BitVec 6) (q r : Bool) (c : BitVec 2) (f : BitVec 9) (k : BitVec 8)
      (i : Instr), exec i s = .next t → t.bun.raised = none →
    (i ∈ memoryReadOps p d a h y q r c f k →
      (∀ x, readByte t.mem x = readByte s.mem x) ∧ ∀ n, n ≠ d.toNat → n ≠ a.toNat → reg t n = reg s n) ∧
    (i ∈ memoryWriteOps p d a h y q c f k →
      (∀ x, readByte t.mem x = readByte s.mem x) ∧ ∀ n, n ≠ a.toNat → reg t n = reg s n) ∧
    (i ∈ accumulateOps p d a h r c → residOf s (curA s) = none →
      (∀ x, readByte t.mem x = readByte s.mem x) ∧ ∀ n, reg t n = reg s n)) ∧
  ∀ (s t : State) (o : Out),
    let a : Nat := s.ev.a
    let out : Nat → Prop := fun x => x < o.pl.pa ∨ o.pl.pa + o.size ≤ x
    let away : Nat → Prop := fun x => ∀ l ∈ (arr s a).cache, x < l.pa ∨ l.pa + 192 ≤ x
    let kept : Nat → Prop := fun x => ∀ e ∈ s.stale, x < e.1 ∨ e.1 + 192 ≤ x
    (seqAt s a).outs[s.ev.k]? = some o → outReady (seqAt s a).outs s.ev.k = true →
    (∀ v, o.op = .store v → o.rel = false → exec .storePerformed s = .next t →
      ((cached o = false ∨ pteKind o.pl.leaf ≠ 1) →
        (∀ x, out x → kept x → (o.pl.page = true → away x) → readByte t.mem x = readByte s.mem x) ∧
        ∀ k, k < o.size → (isUn o = true → away (o.pl.pa + k)) →
          readByte t.mem (o.pl.pa + k) = BitVec.ofNat 8 (v.toNat / 256 ^ k)) ∧
      (cached o = true → pteKind o.pl.leaf = 1 → ∀ x, away x → kept x → readByte t.mem x = readByte s.mem x)) ∧
    (∀ rd sx, o.op = .load rd sx → o.acq = false → exec .loadReturn s = .next t →
      ∀ x, (o.pl.page = false ∨ away x) → kept x → readByte t.mem x = readByte s.mem x) ∧
    (∀ fn rd v c n, o.op = .amo fn rd v ∨ o.op = .cas rd c n → o.rel = false → exec .amoAtHome s = .next t →
      ∀ x, out x → away x → kept x → readByte t.mem x = readByte s.mem x)

/-- For every SC instruction whose fields are legal, with every operand at every value the encoding admits, the SC slot decodes
its word to that instruction. (spec/03_encoding.md) -/
def Obligations.ScWordsRoundTrip : Prop :=
  ∀ i : Instr, i.slotClass = some .sc → i.wf = true → decodeSc (encode i) = .ok i

/-- For every cell instruction whose fields are legal, some cell slot accepts its opcode, and every cell slot that does decodes
its word to that instruction; KA and KB decode the word of every copy instruction whose fields are legal to that instruction.
(spec/03_encoding.md, spec/06_regs_cell.md, spec/07_regs_accum.md, spec/11_q_streams.md) -/
def Obligations.CellAndCopyWordsRoundTrip : Prop :=
  ∀ i : Instr, i.wf = true →
    (i.slotClass = some .cell →
      (∃ k, cellAccepts k (fld (encode i) 24 8) = true) ∧
      ∀ k, cellAccepts k (fld (encode i) 24 8) = true → decodeCell k (encode i) = .ok i) ∧
    (i.slotClass = some .copy → decodeCopy (encode i) = .ok i)

/-- From every state whose memory lists its bytes by strictly rising address and lists no byte that reads as an unlisted one does,
a step leads to such a state. (spec/08_mem_spaces.md, spec/13_t_translate.md) -/
def Obligations.MemoryStaysCanonical : Prop :=
  ∀ s t : State, s.MemCanonical → Machine.step s = .next t → t.MemCanonical

/-- At reset CYC is 0, the power limit 3,200 W, every quota 64, every clock at step 15 and unlocked, the administrative queue and
every launch queue disabled and empty, the journals at 0, and memory is in canonical form; that the clocks stand at step 15 is
the choice of the model (log 3). At the first bundle of a task s1 to s8 hold its arguments and every other register 0,
unmarked; b1 to b7 are false; h0 to h14 are INVALID and h15 holds the entry address; w0 selects every cell and w1 to w7 none;
unnamed tile slots are unbound; LC0, LC1, LSTG, FMT, FPX, WSTALL, the monitor registers and the counters are 0; and MARKPC is
the entry offset. (spec/02_execution.md, spec/05_regs_sequencer.md, spec/07_regs_accum.md, spec/16_counters.md,
spec/18_outside.md, spec/12_q_work.md) -/
def Obligations.ResetAndFirstBundle : Prop :=
  (let z : State := State.reset
   z.MemCanonical ∧ z.cyc = 0 ∧ z.pkg.limit = 3200 ∧ (∀ m p, (quotaAt z m p).qlim = 64 ∧ (quotaAt z m p).inForce = 64) ∧
   (∀ d, d < 8 → stepOf z d = 15 ∧ dieLocked z d = false) ∧ z.admin.en = false ∧ z.admin.st = 0 ∧ z.admin.head = 0 ∧
   (∀ q, (queueAt z q).en = false ∧ (queueAt z q).st = .disabled ∧ (queueAt z q).head = 0 ∧ (queueAt z q).tail = 0) ∧
   ∀ p, (partAt z p).jbase = 0 ∧ (partAt z p).jtail = 0 ∧ (partAt z p).jhead = 0) ∧
  ∀ (s : State) (x : Placement) (t : Machine.Task),
    let q : Seq := firstSeq s x t
    let entry : Word := BitVec.ofNat 64 (bitsOf t.lrec 120 64)
    (∀ k, k < 8 → vget 0 q.s (k + 1) = t.args.getD k 0) ∧ (∀ r, r = 0 ∨ 9 ≤ r → vget 0 q.s r = 0) ∧ q.poisoned = 0 ∧
    (∀ b, vget false q.b b = false) ∧ (∀ k, k < 15 → (vget {} q.h k).st = .invalid) ∧ (vget {} q.h 15).va = entry ∧
    vget {} q.w 0 = { rows := lowMask 256 (32 * x.2.2.length), cols := lowMask 32 32 } ∧ (∀ k, 1 ≤ k → vget {} q.w k = {}) ∧
    (∀ k, (∀ b ∈ t.binds, b.1 ≠ k) → vget 0 q.t k = 0) ∧
    q.lc0 = 0 ∧ q.lc1 = 0 ∧ q.lstg = 0 ∧ q.lb0 = 0 ∧ q.lb1 = 0 ∧ q.fmt.inForce = 0 ∧ q.fpx = 0 ∧ q.wstall = 0 ∧
    q.ld = 0 ∧ q.st = 0 ∧ q.cp = 0 ∧ q.wf = 0 ∧ q.mon = false ∧ q.mepc = 0 ∧ q.mcause = 0 ∧ q.mrec = 0 ∧
    (∀ k, vget 0 q.mscr k = 0) ∧ q.pmctl = 0 ∧ (∀ k, vget 0 q.pmc k = 0) ∧ q.gate = [] ∧ q.markpc = q.pc ∧ q.npc = q.pc

/-- Where it is the turn of an array that nothing holds and the 24 bytes at its PC decode to a bundle that is not interlocked, the
step runs that bundle: with the loop and region set up around it, its SC, KA and KB instructions are run by exec in that
order, each on the state the one before left, and then, its word (where it has one) having issued, the PC, loops, streams and
FMT counts advance. The SC slot sees the PC of the bundle, and the next PC 24 beyond. (spec/02_execution.md,
spec/03_encoding.md, spec/05_regs_sequencer.md) -/
def Obligations.StepRunsDecoded : Prop :=
  ∀ (s u s1 s2 s3 : State) (a v : Nat) (b : Slots),
    let w : State := pmcAdd u a 0x01 1
    let base : State := enterBundle w a b
    nextStep s = .turn a u → stalled w a = false →
    ((seqAt w a).stop = .run ∨ ∃ c, (seqAt w a).stop = .hold c ∧ c ≤ w.cyc) → trapWaits w a = false → issueStops w a = false →
    fetch w a = .bytes v → decodeBundle (seqAt w a).mon v = .ok b → interlocked w a b = false →
    countersFull w a b = false → bundleBreak w a b = none →
    (b.hasWord = true → wordReady w a (wordIn (seqAt w a) b) = true) →
    (decodeSc (slotWord v 0) = .ok b.sc ∧ decodeCell .va (slotWord v 1) = .ok b.va ∧ decodeCell .vb (slotWord v 2) = .ok b.vb ∧
      decodeCell .mx (slotWord v 3) = .ok b.mx ∧ decodeCopy (slotWord v 4) = .ok b.ka ∧ decodeCopy (slotWord v 5) = .ok b.kb) ∧
    (seqAt base a).npc = (seqAt base a).pc + 24 ∧ Machine.step s = .next (runBundle w a b) ∧
    (let clear (x : State) : Prop := x.bun.raised = none ∧ x.bun.blocked = false
     let at_ (x : State) (k : Nat) (i : Instr) : State := { x with cell := { slot := k }, bun := { x.bun with ins := i } }
     exec b.sc (at_ base 0 b.sc) = .next s1 → clear s1 → exec b.ka (at_ s1 4 b.ka) = .next s2 →
     clear s2 → exec b.kb (at_ s2 5 b.kb) = .next s3 → clear s3 →
     (b.hasWord = false → Machine.step s = .next (commitBundle base s3 a)) ∧
     ∀ names, b.hasWord = true →
       regionCheck s1 a (wordIn (seqAt base a) b).fmt [b.va, b.vb, b.mx] = .ok names →
       Machine.step s = .next (commitBundle base (bundleWord s3 a (wordIn (seqAt base a) b) names) a))

/-- Words of the ten operand formats and of the cell and copy formats, written out bit by bit from their encodings, decode in
their slot to the instructions they stand for. (spec/03_encoding.md) -/
def Obligations.SpecWordsDecode : Prop :=
  decodeSc 0x02064280 = .ok (.add 0 3 4 5 false) ∧ decodeSc 0x040C6001 = .ok (.addi 0 6 6 1) ∧ decodeSc 0x1A0BCDEF = .ok (.lui 0 5 0x1CDEF) ∧
  decodeSc 0x34000000 = .ok (.mark 0) ∧ decodeSc 0x36000064 = .ok (.pause 0 100) ∧ decodeSc 0x383FFFC0 = .ok (.wait 0 31 31 63 0) ∧
  decodeSc 0x3C000005 = .ok (.trap 0 5) ∧ decodeSc 0x3E000000 = .ok .eret ∧ decodeSc 0x46C84002 = .ok (.ldD 3 4 2 false 0 2) ∧
  decodeSc 0x60069000 = .ok (.xlat 0 3 9) ∧ decodeSc 0x62060000 = .ok (.hinv 0 3) ∧ decodeSc 0x64085000 = .ok (.hinfo 0 4 5) ∧
  decodeSc 0x700A4B00 = .ok (.ldf 0 5 9 12) ∧ decodeSc 0x7808670E = .ok (.amoAdd 0 4 3 7 true true 2) ∧
  decodeSc 0x7C0A4815 = .ok (.accFadd 0 5 2 8 true 1) ∧ decodeSc 0x80001C00 = .ok (.fence 0 3 2) ∧
  decodeSc 0x82000000 = .ok (.flushres 0) ∧ decodeSc 0x84022800 = .ok (.resid 0 true 5) ∧ decodeSc 0x960E0003 = .ok (.mfaColall 0 7) ∧
  decodeSc 0xA0060002 = .ok (.sync 0 3 2) ∧ decodeSc 0xA2081800 = .ok (.cbinit 0 4 3 0) ∧
  decodeCell .va 0x048C1354 = .ok (.fma 0x23 1 0x0D 2 true false false) ∧
  decodeCell .vb 0x130820D1 = .ok (.hfma2 2 2 3 2 false false true) ∧ decodeCell .va 0x3A202112 = .ok (.icmpLt 8 2 4 2 false true false) ∧
  decodeCell .mx 0xC04CD289 = .ok (.mma 0x13 0x0D 0x0A 1 true) ∧
  decodeCopy 0x020A6419 = .ok (.copy 0 5 6 1 false true 2 1) ∧ decodeCopy 0x04085841 = .ok (.copyg 0 4 5 2 false true false false 0 1) ∧
  decodeCopy 0x0C000000 = .ok (.bind 0 0) ∧ decodeCopy 0x0E040440 = .ok (.unbind 0 2 1 1) ∧
  decodeCopy 0x1C0C7040 = .ok (.mtx 0 6 7 0 1)

/-- No step ends in a refusal; a step ends in a fault only where FREEZE has stopped every clock, and that is the fault FROZEN;
while the clocks are stopped, every step but one in which a cold reset, whenever it is to come, happens ends so.
(spec/18_outside.md) -/
def Obligations.StepStopsOnlyWhenFrozen : Prop :=
  ∀ s : State,
    (∀ r, Machine.step s ≠ .refused r) ∧ (∀ f, Machine.step s = .fault f → f = .frozen ∧ s.pkg.frozen = true) ∧
    (s.pkg.frozen = true → (∀ x ∈ s.inputs, x.2.2 ≠ .coldReset) → Machine.step s = .fault .frozen)
end

