-- ==== Sys2Proof/Laws/Memory.lean ====
section
/-! SUPPORT. Laws of the sparse tables and of memory: what a write leaves, what a read finds, and that every operation keeps the
canonical form. -/

namespace Sys2Proof.Machine

/-! ## Tables -/

theorem tget_tdel_self {V : Type} (d : V) (t : Tab V) (n : Nat) : tget d (tdel t n) n = d := by
  induction t with
  | nil => rfl
  | cons e t ih =>
    obtain ⟨k, v⟩ := e
    by_cases h : k = n <;> simp_all [tdel, tget]

theorem tget_tdel_of_ne {V : Type} (d : V) (t : Tab V) {n k : Nat} (h : k ≠ n) : tget d (tdel t n) k = tget d t k := by
  induction t with
  | nil => rfl
  | cons e t ih =>
    obtain ⟨m, v⟩ := e
    by_cases hm : m = n
    · simp_all [tdel, tget, Ne.symm h]
    · simp_all [tdel, tget]

theorem tget_tins_self {V : Type} (d v : V) (t : Tab V) (n : Nat) (h : ∀ e ∈ t, e.1 ≠ n) : tget d (tins n v t) n = v := by
  induction t with
  | nil => simp [tins, tget]
  | cons e t ih =>
    obtain ⟨m, u⟩ := e
    simp only [List.mem_cons, forall_eq_or_imp] at h
    simp only [tins]
    split <;> simp [tget, h.1, ih h.2]

theorem tget_tins_of_ne {V : Type} (d v : V) (t : Tab V) {n k : Nat} (h : k ≠ n) : tget d (tins n v t) k = tget d t k := by
  induction t with
  | nil => simp [tins, tget, Ne.symm h]
  | cons e t ih =>
    obtain ⟨m, u⟩ := e
    simp only [tins]
    split <;> simp [tget, ih, Ne.symm h]

theorem mem_tdel_ne {V : Type} (t : Tab V) (n : Nat) : ∀ e ∈ tdel t n, e.1 ≠ n := by
  intro e h
  simpa using (List.mem_filter.mp h).2

/-- A key reads as it was last written. -/
@[simp] theorem tget_tset_self {V : Type} [DecidableEq V] (d : V) (t : Tab V) (n : Nat) (v : V) : tget d (tset d t n v) n = v := by
  unfold tset
  split
  · rename_i h; rw [h]; exact tget_tdel_self d t n
  · exact tget_tins_self d v _ n (mem_tdel_ne t n)

/-- A write leaves every other key. -/
theorem tget_tset_of_ne {V : Type} [DecidableEq V] (d : V) (t : Tab V) {n k : Nat} (v : V) (h : k ≠ n) :
    tget d (tset d t n v) k = tget d t k := by
  unfold tset
  split
  · exact tget_tdel_of_ne d t h
  · rw [tget_tins_of_ne _ _ _ h, tget_tdel_of_ne _ _ h]

/-! ## The canonical form -/

/-- The canonical form as a statement about the list: keys strictly rise, and no entry is the unlisted value. -/
theorem twf_iff {V : Type} [DecidableEq V] (d : V) (t : Tab V) :
    twf d t = true ↔ t.Pairwise (fun x y => x.1 < y.1) ∧ ∀ e ∈ t, e.2 ≠ d := by
  induction t with
  | nil => simp [twf]
  | cons e t ih =>
    obtain ⟨k, v⟩ := e
    cases t with
    | nil => simp [twf]
    | cons e' t =>
      obtain ⟨k', v'⟩ := e'
      simp only [twf, Bool.and_eq_true, decide_eq_true_eq, ih]
      constructor
      · rintro ⟨⟨hv, hk⟩, hp, hd⟩
        refine ⟨List.pairwise_cons.mpr ⟨?_, hp⟩, ?_⟩
        · intro x hx
          rcases List.mem_cons.mp hx with rfl | hx
          · exact hk
          · exact Nat.lt_trans hk ((List.pairwise_cons.mp hp).1 x hx)
        · intro x hx
          rcases List.mem_cons.mp hx with rfl | hx
          · exact hv
          · exact hd x hx
      · rintro ⟨hp, hd⟩
        obtain ⟨h1, h2⟩ := List.pairwise_cons.mp hp
        exact ⟨⟨hd (k, v) (by simp), h1 (k', v') (by simp)⟩, h2, fun x hx => hd x (List.mem_cons_of_mem _ hx)⟩

/-- A part of a canonical table is canonical. -/
theorem twf_filter {V : Type} [DecidableEq V] {d : V} {t : Tab V} (p : Nat × V → Bool) (h : twf d t = true) :
    twf d (t.filter p) = true := by
  rw [twf_iff] at *
  exact ⟨h.1.filter _, fun e he => h.2 e (List.mem_filter.mp he).1⟩

theorem mem_tins {V : Type} {n : Nat} {v : V} {t : Tab V} {e : Nat × V} (h : e ∈ tins n v t) : e = (n, v) ∨ e ∈ t := by
  induction t with
  | nil => simpa [tins] using h
  | cons x t ih =>
    obtain ⟨m, u⟩ := x
    simp only [tins] at h
    split at h
    · simpa using h
    · rcases List.mem_cons.mp h with rfl | h
      · simp
      · rcases ih h with h | h <;> simp [h]

/-- Putting a new key with a value that is not the unlisted one keeps the form. -/
theorem twf_tins {V : Type} [DecidableEq V] {d v : V} {t : Tab V} {n : Nat} (h : twf d t = true) (hv : v ≠ d)
    (hn : ∀ e ∈ t, e.1 ≠ n) : twf d (tins n v t) = true := by
  rw [twf_iff] at *
  obtain ⟨hp, hd⟩ := h
  refine ⟨?_, fun e he => by rcases mem_tins he with rfl | he; exacts [hv, hd e he]⟩
  clear hd
  induction t with
  | nil => simp [tins]
  | cons x t ih =>
    obtain ⟨m, u⟩ := x
    obtain ⟨h1, h2⟩ := List.pairwise_cons.mp hp
    simp only [List.mem_cons, forall_eq_or_imp] at hn
    simp only [tins]
    split
    · rename_i hlt
      exact List.pairwise_cons.mpr ⟨fun y hy => by
        rcases List.mem_cons.mp hy with rfl | hy
        · exact hlt
        · exact Nat.lt_trans hlt (h1 y hy), hp⟩
    · rename_i hge
      refine List.pairwise_cons.mpr ⟨fun y hy => ?_, ih hn.2 h2⟩
      rcases mem_tins hy with rfl | hy
      · have := hn.1; simp only at *; omega
      · exact h1 y hy

/-- Every write of a table keeps the canonical form. -/
theorem twf_tset {V : Type} [DecidableEq V] {d : V} {t : Tab V} (n : Nat) (v : V) (h : twf d t = true) :
    twf d (tset d t n v) = true := by
  unfold tset
  split
  · exact twf_filter _ h
  · rename_i hv
    exact twf_tins (twf_filter _ h) hv (mem_tdel_ne t n)

/-! ## Bytes -/

@[simp] theorem readByte_writeByte_self (m : Memory) (a : Nat) (v : Byte) : readByte (writeByte m a v) a = v := tget_tset_self 0 m a v

theorem readByte_writeByte_of_ne (m : Memory) {a x : Nat} (v : Byte) (h : x ≠ a) : readByte (writeByte m a v) x = readByte m x :=
  tget_tset_of_ne 0 m v h

theorem wf_writeByte {m : Memory} (a : Nat) (v : Byte) (h : Memory.wf m = true) : Memory.wf (writeByte m a v) = true := twf_tset a v h

/-- A write of `n` bytes keeps the canonical form. -/
theorem wf_writeNat {m : Memory} (a n v : Nat) (h : Memory.wf m = true) : Memory.wf (writeNat m a n v) = true := by
  induction n generalizing m a v with
  | zero => exact h
  | succ n ih => exact ih _ _ (wf_writeByte _ _ h)

/-- A write of bytes by address keeps the canonical form. -/
theorem wf_writeCells {m : Memory} (l : List Host.Cell) (h : Memory.wf m = true) : Memory.wf (writeCells m l) = true := by
  induction l generalizing m with
  | nil => exact h
  | cons e l ih => obtain ⟨a, v⟩ := e; exact ih (wf_writeByte _ _ h)

/-- Dropping bytes keeps the canonical form. -/
theorem wf_filter {m : Memory} (p : Host.Cell → Bool) (h : Memory.wf m = true) : Memory.wf (m.filter p) = true := twf_filter p h

/-- A write of bytes by address leaves every other byte. -/
theorem readByte_writeCells (m : Memory) (l : List Host.Cell) (x : Nat) (h : ∀ e ∈ l, e.1 ≠ x) :
    readByte (writeCells m l) x = readByte m x := by
  induction l generalizing m with
  | nil => rfl
  | cons e l ih =>
    obtain ⟨a, v⟩ := e
    simp only [List.mem_cons, forall_eq_or_imp] at h
    rw [writeCells, ih _ h.2, readByte_writeByte_of_ne _ _ (Ne.symm h.1)]

/-- A run of new keys with values that are not the unlisted one keeps the form (the move of a frame, R357). -/
theorem twf_shift {V : Type} [DecidableEq V] {d : V} {t u : Tab V} (g : Nat → Nat) (ht : twf d t = true) (hu : twf d u = true)
    (hd : ∀ e ∈ u, ∀ x ∈ t, x.1 ≠ g e.1) (hg : u.Pairwise fun x y => g x.1 ≠ g y.1) :
    twf d (u.foldl (fun m e => tins (g e.1) e.2 m) t) = true := by
  have hv : ∀ e ∈ u, e.2 ≠ d := ((twf_iff d u).mp hu).2
  clear hu
  induction u generalizing t with
  | nil => exact ht
  | cons e u ih =>
    obtain ⟨h1, h2⟩ := List.pairwise_cons.mp hg
    refine ih (twf_tins ht (hv e (by simp)) (hd e (by simp))) ?_ h2 fun x hx => hv x (by simp [hx])
    intro x hx y hy
    rcases mem_tins hy with rfl | hy
    · exact h1 x hx
    · exact hd x (by simp [hx]) y hy

theorem putBytes_canonical {s : State} (a n v : Nat) (h : Memory.wf s.mem = true) : Memory.wf (putBytes s a n v).mem = true :=
  wf_writeNat a n v h

end Sys2Proof.Machine
end

