-- ==== Sys2Proof/Laws/Canonical.lean ====
section
/-! SUPPORT. Every operation that writes memory keeps its canonical form; and how the arrays read after a change of one. -/

namespace Sys2Proof.Machine

/-! ## Arrays -/

theorem vget_vset_self {α : Type} {n : Nat} (d : α) (v : Vector α n) {i : Nat} (h : i < n) (x : α) : vget d (vset v i x) i = x := by
  simp [vget, vset, h]

theorem vget_vset_of_ne {α : Type} {n : Nat} (d : α) (v : Vector α n) {i k : Nat} (h : k ≠ i) (x : α) :
    vget d (vset v i x) k = vget d v k := by
  simp [vget, vset, Ne.symm h]

@[simp] theorem arr_setArr_self {s : State} {a : Nat} (h : a < 28) (x : Arr) : arr (setArr s a x) a = x := vget_vset_self _ _ h _

theorem arr_setArr_of_ne (s : State) {a k : Nat} (h : k ≠ a) (x : Arr) : arr (setArr s a x) k = arr s k := vget_vset_of_ne _ _ h _

@[simp] theorem arr_modArr_self {s : State} {a : Nat} (h : a < 28) (f : Arr → Arr) : arr (modArr s a f) a = f (arr s a) :=
  arr_setArr_self h _

theorem arr_modArr_of_ne (s : State) {a k : Nat} (h : k ≠ a) (f : Arr → Arr) : arr (modArr s a f) k = arr s k := arr_setArr_of_ne s h _

@[simp] theorem seqAt_modSeq_self {s : State} {a : Nat} (h : a < 28) (f : Seq → Seq) : seqAt (modSeq s a f) a = f (seqAt s a) := by
  simp [seqAt, modSeq, h]

theorem seqAt_modSeq_of_ne (s : State) {a k : Nat} (h : k ≠ a) (f : Seq → Seq) : seqAt (modSeq s a f) k = seqAt s k := by
  simp [seqAt, modSeq, arr_modArr_of_ne s h]

@[simp] theorem curSeq_modCur (s : State) (f : Seq → Seq) : curSeq (modCur s f) = f (curSeq s) :=
  seqAt_modSeq_self s.cur.isLt f

/-! ## Memory -/

theorem evictLine_canonical {s : State} (pa : Nat) (h : s.MemCanonical) : (evictLine s pa).MemCanonical := by
  unfold evictLine State.MemCanonical
  dsimp only
  split
  · exact wf_writeNat _ _ _ h
  · exact h

theorem evictLines_canonical {s : State} (gone : Nat × Nat × Nat × Bool → Bool) (h : s.MemCanonical) :
    (evictLines s gone).MemCanonical := by
  unfold evictLines
  generalize hl : s.slices.filter gone = l
  clear hl
  suffices hs : ∀ u : State, u.MemCanonical → (l.foldl (fun s x =>
      if (s.stale.any fun e => e.1 = x.1 * 2 ^ 36 + 192 * x.2.1) then evictLine s (x.1 * 2 ^ 36 + 192 * x.2.1) else s) u).MemCanonical by
    exact hs s h
  induction l with
  | nil => exact fun _ hu => hu
  | cons x l ih =>
    intro u hu
    rw [List.foldl_cons]
    split
    · exact ih _ (evictLine_canonical _ hu)
    · exact ih _ hu

/-- A touch of a slice changes memory only by what a clean line leaves behind whose key was replaced, and keeps the form. -/
theorem sliceTouch_canonical {s : State} (p pa : Nat) (d : Bool) (h : s.MemCanonical) : (sliceTouch s p pa d).MemCanonical := by
  unfold sliceTouch
  dsimp only
  split
  · exact h
  · split
    · show State.MemCanonical (ite _ _ _)
      split <;> exact h
    · split
      · exact h
      · show State.MemCanonical (ite _ _ _)
        split <;> exact evictLines_canonical (s := s) _ h

theorem touchAll_canonical {s : State} (p : Nat) (l : List Nat) (d : Bool) (h : s.MemCanonical) : (touchAll s p l d).MemCanonical := by
  unfold touchAll
  generalize ((l.filter isDevice).map fun x => memDie x * 2 ^ 36 + x % 2 ^ 36 / 192 * 192).eraseDups = m
  induction m generalizing s with
  | nil => exact h
  | cons w m ih => exact ih (sliceTouch_canonical _ _ _ h)

theorem mem_countErr (s : State) (u : Nat) (b : Bool) : (countErr s u b).mem = s.mem := rfl

theorem mem_markPoison (s : State) (a n : Nat) : (markPoison s a n).mem = s.mem := by
  unfold markPoison
  generalize wordsOver a n = l
  induction l generalizing s with
  | nil => rfl
  | cons w l ih =>
    rw [List.foldl_cons, ih]
    split <;> rfl

theorem putCells_canonical {s : State} (l : List Host.Cell) (bad : List Nat) (h : s.MemCanonical) : (putCells s l bad).MemCanonical :=
  wf_writeCells l h

theorem setBar_canonical {s : State} (a : Nat) (b : Bar) (h : s.MemCanonical) : (setBar s a b).MemCanonical := wf_writeNat _ _ _ h

theorem mem_countHome (s : State) (a pa : Nat) : (countHome s a pa).mem = s.mem := by
  unfold countHome countTrip countFlits
  repeat' split
  all_goals rfl

theorem writeBack_canonical {s : State} (a : Nat) (l : CacheLine) (h : s.MemCanonical) : (writeBack s a l).1.MemCanonical := by
  unfold writeBack
  dsimp only
  split
  · exact h
  · unfold State.MemCanonical
    rw [mem_countHome]
    exact putCells_canonical _ _ (touchAll_canonical _ _ _ h)

theorem zeroTile_canonical {s : State} (t : Tile) (l : List Nat) (h : s.MemCanonical) : (zeroTile s t l).MemCanonical := wf_filter _ h

theorem writeW32_canonical {s : State} (a : Nat) (v : BitVec 32) (h : s.MemCanonical) : (writeW32 s a v).MemCanonical :=
  wf_writeNat _ _ _ h

theorem mem_homeSticky (s : State) (pa p : Nat) (fl : Flags) : (homeSticky s pa p fl).mem = s.mem := by
  unfold homeSticky
  repeat' split
  all_goals rfl

/-- A read-modify-write keeps the canonical form. -/
theorem rmw_canonical {s : State} (pa p n : Nat) (f : Nat → Option Nat × Flags) (h : s.MemCanonical) : (rmw s pa p n f).1.MemCanonical := by
  have hm : (markPoison s pa n).MemCanonical := by
    unfold State.MemCanonical; rw [mem_markPoison]; exact h
  have ht (fl : Flags) : (sliceTouch (homeSticky (markPoison s pa n) pa p fl) p pa true).MemCanonical := by
    refine sliceTouch_canonical _ _ _ ?_
    unfold State.MemCanonical; rw [mem_homeSticky]; exact hm
  unfold rmw
  dsimp only
  split
  · exact sliceTouch_canonical _ _ _ hm
  · dsimp only
    split
    · exact wf_writeNat _ _ _ (ht _)
    · exact ht _

theorem zeroDevice_canonical {s : State} (h : s.MemCanonical) : (zeroDevice s).MemCanonical := wf_filter _ h

theorem resetPackage_canonical {s : State} (h : s.MemCanonical) : (resetPackage s).MemCanonical := wf_filter _ h

end Sys2Proof.Machine
end

