-- ==== Sys2Proof/Laws/Meets.lean ====
section
/-! SUPPORT. What a read at a home does beside giving its bytes: it marks and counts errors, and moves lines in and out of the slices; it
changes nothing else of the machine. -/

namespace Sys2Proof.Machine

/-- State `t` differs from `s` at most in memory, its error marks and counts, and the slices. -/
structure Meets (s t : State) : Prop where
  cyc : t.cyc = s.cyc
  ev : t.ev = s.ev
  arrs : t.arrs = s.arrs
  parts : t.parts = s.parts
  queues : t.queues = s.queues
  tasks : t.tasks = s.tasks
  xfers : t.xfers = s.xfers
  tiles : t.tiles = s.tiles
  groups : t.groups = s.groups
  admin : t.admin = s.admin
  pkg : t.pkg = s.pkg
  keys : t.keys = s.keys
  free : t.free = s.free

theorem Meets.refl (s : State) : Meets s s := ⟨rfl, rfl, rfl, rfl, rfl, rfl, rfl, rfl, rfl, rfl, rfl, rfl, rfl⟩

theorem Meets.trans {s t u : State} (h : Meets s t) (k : Meets t u) : Meets s u :=
  ⟨k.1.trans h.1, k.2.trans h.2, k.3.trans h.3, k.4.trans h.4, k.5.trans h.5, k.6.trans h.6, k.7.trans h.7, k.8.trans h.8,
   k.9.trans h.9, k.10.trans h.10, k.11.trans h.11, k.12.trans h.12, k.13.trans h.13⟩

/-- What holds of each step of a fold holds of the fold. -/
theorem Meets.foldl {α : Type} {f : State → α → State} (h : ∀ s x, Meets s (f s x)) (l : List α) (s : State) : Meets s (l.foldl f s) := by
  induction l generalizing s with
  | nil => exact .refl s
  | cons x l ih => exact (h s x).trans (ih _)

theorem markPoison_meets (s : State) (a n : Nat) : Meets s (markPoison s a n) := by
  refine .foldl (fun s x => ?_) _ s
  split
  · exact ⟨rfl, rfl, rfl, rfl, rfl, rfl, rfl, rfl, rfl, rfl, rfl, rfl, rfl⟩
  · exact .refl s

theorem evictLines_meets (s : State) (gone : Nat × Nat × Nat × Bool → Bool) : Meets s (evictLines s gone) := by
  have h : Meets s ((s.slices.filter gone).foldl (fun s x =>
      if (s.stale.any fun e => e.1 = x.1 * 2 ^ 36 + 192 * x.2.1) then evictLine s (x.1 * 2 ^ 36 + 192 * x.2.1) else s) s) := by
    refine .foldl (fun s x => ?_) _ s
    split
    · unfold evictLine
      dsimp only
      split <;> exact ⟨rfl, rfl, rfl, rfl, rfl, rfl, rfl, rfl, rfl, rfl, rfl, rfl, rfl⟩
    · exact .refl s
  exact h.trans ⟨rfl, rfl, rfl, rfl, rfl, rfl, rfl, rfl, rfl, rfl, rfl, rfl, rfl⟩

theorem noteDirty_meets (s : State) (pa : Nat) : Meets s (noteDirty s pa) := ⟨rfl, rfl, rfl, rfl, rfl, rfl, rfl, rfl, rfl, rfl, rfl, rfl, rfl⟩

theorem sliceTouch_meets (s : State) (p pa : Nat) (d : Bool) : Meets s (sliceTouch s p pa d) := by
  have slices (t : State) (l : List (Nat × Nat × Nat × Bool)) : Meets t { t with slices := l } :=
    ⟨rfl, rfl, rfl, rfl, rfl, rfl, rfl, rfl, rfl, rfl, rfl, rfl, rfl⟩
  unfold sliceTouch
  dsimp only
  split
  · exact .refl s
  · split
    · refine Meets.trans ?_ (slices _ _)
      split
      · exact noteDirty_meets _ _
      · exact .refl s
    · split
      · exact .refl s
      · refine Meets.trans ?_ (slices _ _)
        split
        · exact (evictLines_meets _ _).trans (noteDirty_meets _ _)
        · exact evictLines_meets _ _

theorem touchAll_meets (s : State) (p : Nat) (l : List Nat) (d : Bool) : Meets s (touchAll s p l d) :=
  .foldl (fun s x => sliceTouch_meets s p x d) _ s

theorem walkTouch_meets (s : State) (p : Nat) (va : Word) : Meets s (walkTouch s p va) :=
  (Meets.foldl (fun s x => markPoison_meets s x 8) _ s).trans (touchAll_meets _ _ _ _)

/-- Writing bytes at a home changes memory and its marks besides. -/
theorem homeBytes_meets (s : State) (p a n v : Nat) : Meets s (homeBytes s p a n v) :=
  (touchAll_meets _ _ _ _).trans ⟨rfl, rfl, rfl, rfl, rfl, rfl, rfl, rfl, rfl, rfl, rfl, rfl, rfl⟩

theorem homeCells_meets (s : State) (p : Nat) (l : List Host.Cell) (bad : List Nat) : Meets s (homeCells s p l bad) :=
  (touchAll_meets _ _ _ _).trans ⟨rfl, rfl, rfl, rfl, rfl, rfl, rfl, rfl, rfl, rfl, rfl, rfl, rfl⟩

theorem meetPage_meets (s : State) (p va n : Nat) : Meets s (meetPage s p va n).1 := by
  unfold meetPage
  dsimp only
  split
  · exact walkTouch_meets _ _ _
  · split
    · exact walkTouch_meets _ _ _
    · exact (walkTouch_meets _ _ _).trans ((markPoison_meets _ _ _).trans (touchAll_meets _ _ _ _))

/-- A virtual read changes nothing but memory's marks, error counts and slices. -/
theorem virtMeet_meets (s : State) (p va n : Nat) : Meets s (virtMeet s p va n) := by
  unfold virtMeet
  dsimp only
  split
  · exact (meetPage_meets _ _ _ _).trans (meetPage_meets _ _ _ _)
  · exact meetPage_meets _ _ _ _

theorem entryMeet_meets (s : State) (p a : Nat) : Meets s (entryMeet s p a) := virtMeet_meets _ _ _ _

theorem condMeet_meets (s : State) (p : Nat) (e : BitVec 256) : Meets s (condMeet s p e) := virtMeet_meets _ _ _ _

theorem virtWrite_meets (s : State) (p va n v : Nat) : Meets s (virtWrite s p va n v).1 := by
  unfold virtWrite
  dsimp only
  split
  · exact walkTouch_meets _ _ _
  · split
    · exact walkTouch_meets _ _ _
    · exact (walkTouch_meets _ _ _).trans (homeBytes_meets _ _ _ _ _)

theorem virtWriteUnits_meets (s : State) (p va : Nat) (l : List Nat) : Meets s (virtWriteUnits s p va l) := by
  induction l generalizing s va with
  | nil => exact .refl s
  | cons v l ih =>
    unfold virtWriteUnits
    dsimp only
    split
    · exact (virtWrite_meets _ _ _ _ _).trans (ih _ _)
    · exact virtWrite_meets _ _ _ _ _

/-- A rewritten journal entry changes nothing of the machine but memory, its marks and counts, and the slices. -/
theorem journalSet_meets (s : State) (p seq st d : Nat) : Meets s (journalSet s p seq st d) := by
  unfold journalSet
  dsimp only
  split
  · exact (virtWrite_meets _ _ _ _ _).trans (virtWrite_meets _ _ _ _ _)
  · exact virtWrite_meets _ _ _ _ _

/-! ## What such a read leaves -/

theorem Meets.queueAt_eq {s t : State} (h : Meets s t) (q : Nat) : queueAt t q = queueAt s q := by unfold queueAt; rw [h.queues]

theorem Meets.partAt_eq {s t : State} (h : Meets s t) (p : Nat) : partAt t p = partAt s p := by unfold partAt; rw [h.parts]

theorem Meets.jFull_eq {s t : State} (h : Meets s t) (p : Nat) : jFull t p = jFull s p := by unfold jFull; rw [h.partAt_eq]

/-- Transfers a record waits for are found on the scoreboard alone (R314). -/
theorem Meets.depsOf_eq {s t : State} (h : Meets s t) (p q : Nat) (r : BitVec 512) : depsOf t p q r = depsOf s p q r := by
  unfold depsOf tagXfer
  rw [h.xfers]

@[simp] theorem queueAt_entryMeet (s : State) (p a q : Nat) : queueAt (entryMeet s p a) q = queueAt s q := (entryMeet_meets s p a).queueAt_eq q

@[simp] theorem partAt_entryMeet (s : State) (p a r : Nat) : partAt (entryMeet s p a) r = partAt s r := (entryMeet_meets s p a).partAt_eq r

@[simp] theorem jFull_entryMeet (s : State) (p a r : Nat) : jFull (entryMeet s p a) r = jFull s r := (entryMeet_meets s p a).jFull_eq r

/-- Scoreboard entries are counted from tasks and transfers alone (R323). -/
theorem Meets.sbFull_eq {s t : State} (h : Meets s t) (p : Nat) : sbFull t p = sbFull s p := by
  unfold sbFull sbHeld partAt
  rw [h.tasks, h.xfers, h.parts]

@[simp] theorem cyc_entryAccepted (s : State) (q p a kind d : Nat) : (entryAccepted s q p a kind d).cyc = s.cyc :=
  (virtWriteUnits_meets _ _ _ _).cyc.trans (entryMeet_meets s p a).cyc

end Sys2Proof.Machine
end

