-- ==== Sys2Proof/Laws/State.lean ====
section
/-! SUPPORT. One lemma for each field an update of State leaves as it was, so that no later proof unfolds a record update. -/

namespace Sys2Proof.Machine

/-! ## modArr -/

@[simp] theorem cyc_modArr (s : State) (a : Nat) (f : Arr → Arr) : (modArr s a f).cyc = s.cyc := rfl
@[simp] theorem pkg_modArr (s : State) (a : Nat) (f : Arr → Arr) : (modArr s a f).pkg = s.pkg := rfl
@[simp] theorem admin_modArr (s : State) (a : Nat) (f : Arr → Arr) : (modArr s a f).admin = s.admin := rfl
@[simp] theorem mem_modArr (s : State) (a : Nat) (f : Arr → Arr) : (modArr s a f).mem = s.mem := rfl
@[simp] theorem poison_modArr (s : State) (a : Nat) (f : Arr → Arr) : (modArr s a f).poison = s.poison := rfl
@[simp] theorem ecc_modArr (s : State) (a : Nat) (f : Arr → Arr) : (modArr s a f).ecc = s.ecc := rfl
@[simp] theorem full_modArr (s : State) (a : Nat) (f : Arr → Arr) : (modArr s a f).full = s.full := rfl
@[simp] theorem dieTlb_modArr (s : State) (a : Nat) (f : Arr → Arr) : (modArr s a f).dieTlb = s.dieTlb := rfl
@[simp] theorem frags_modArr (s : State) (a : Nat) (f : Arr → Arr) : (modArr s a f).frags = s.frags := rfl
@[simp] theorem sides_modArr (s : State) (a : Nat) (f : Arr → Arr) : (modArr s a f).sides = s.sides := rfl
@[simp] theorem flags_modArr (s : State) (a : Nat) (f : Arr → Arr) : (modArr s a f).flags = s.flags := rfl
@[simp] theorem gens_modArr (s : State) (a : Nat) (f : Arr → Arr) : (modArr s a f).gens = s.gens := rfl
@[simp] theorem ages_modArr (s : State) (a : Nat) (f : Arr → Arr) : (modArr s a f).ages = s.ages := rfl
@[simp] theorem chist_modArr (s : State) (a : Nat) (f : Arr → Arr) : (modArr s a f).chist = s.chist := rfl
@[simp] theorem pram_modArr (s : State) (a : Nat) (f : Arr → Arr) : (modArr s a f).pram = s.pram := rfl
@[simp] theorem mp_modArr (s : State) (a : Nat) (f : Arr → Arr) : (modArr s a f).mp = s.mp := rfl
@[simp] theorem mapBase_modArr (s : State) (a : Nat) (f : Arr → Arr) : (modArr s a f).mapBase = s.mapBase := rfl
@[simp] theorem cellEcc_modArr (s : State) (a : Nat) (f : Arr → Arr) : (modArr s a f).cellEcc = s.cellEcc := rfl
@[simp] theorem cellPoison_modArr (s : State) (a : Nat) (f : Arr → Arr) : (modArr s a f).cellPoison = s.cellPoison := rfl
@[simp] theorem tiles_modArr (s : State) (a : Nat) (f : Arr → Arr) : (modArr s a f).tiles = s.tiles := rfl
@[simp] theorem groups_modArr (s : State) (a : Nat) (f : Arr → Arr) : (modArr s a f).groups = s.groups := rfl
@[simp] theorem waiters_modArr (s : State) (a : Nat) (f : Arr → Arr) : (modArr s a f).waiters = s.waiters := rfl
@[simp] theorem quotas_modArr (s : State) (a : Nat) (f : Arr → Arr) : (modArr s a f).quotas = s.quotas := rfl
@[simp] theorem acnt_modArr (s : State) (a : Nat) (f : Arr → Arr) : (modArr s a f).acnt = s.acnt := rfl
@[simp] theorem accDue_modArr (s : State) (a : Nat) (f : Arr → Arr) : (modArr s a f).accDue = s.accDue := rfl
@[simp] theorem homeFlags_modArr (s : State) (a : Nat) (f : Arr → Arr) : (modArr s a f).homeFlags = s.homeFlags := rfl
@[simp] theorem bankFlags_modArr (s : State) (a : Nat) (f : Arr → Arr) : (modArr s a f).bankFlags = s.bankFlags := rfl
@[simp] theorem homeLog_modArr (s : State) (a : Nat) (f : Arr → Arr) : (modArr s a f).homeLog = s.homeLog := rfl
@[simp] theorem errs_modArr (s : State) (a : Nat) (f : Arr → Arr) : (modArr s a f).errs = s.errs := rfl
@[simp] theorem waymask_modArr (s : State) (a : Nat) (f : Arr → Arr) : (modArr s a f).waymask = s.waymask := rfl
@[simp] theorem slices_modArr (s : State) (a : Nat) (f : Arr → Arr) : (modArr s a f).slices = s.slices := rfl
@[simp] theorem stale_modArr (s : State) (a : Nat) (f : Arr → Arr) : (modArr s a f).stale = s.stale := rfl
@[simp] theorem hbm_modArr (s : State) (a : Nat) (f : Arr → Arr) : (modArr s a f).hbm = s.hbm := rfl
@[simp] theorem netRes_modArr (s : State) (a : Nat) (f : Arr → Arr) : (modArr s a f).netRes = s.netRes := rfl
@[simp] theorem hbmRes_modArr (s : State) (a : Nat) (f : Arr → Arr) : (modArr s a f).hbmRes = s.hbmRes := rfl
@[simp] theorem imux_modArr (s : State) (a : Nat) (f : Arr → Arr) : (modArr s a f).imux = s.imux := rfl
@[simp] theorem flits_modArr (s : State) (a : Nat) (f : Arr → Arr) : (modArr s a f).flits = s.flits := rfl
@[simp] theorem wins_modArr (s : State) (a : Nat) (f : Arr → Arr) : (modArr s a f).wins = s.wins := rfl
@[simp] theorem keys_modArr (s : State) (a : Nat) (f : Arr → Arr) : (modArr s a f).keys = s.keys := rfl
@[simp] theorem keyOwner_modArr (s : State) (a : Nat) (f : Arr → Arr) : (modArr s a f).keyOwner = s.keyOwner := rfl
@[simp] theorem quarterOwner_modArr (s : State) (a : Nat) (f : Arr → Arr) : (modArr s a f).quarterOwner = s.quarterOwner := rfl
@[simp] theorem parts_modArr (s : State) (a : Nat) (f : Arr → Arr) : (modArr s a f).parts = s.parts := rfl
@[simp] theorem queues_modArr (s : State) (a : Nat) (f : Arr → Arr) : (modArr s a f).queues = s.queues := rfl
@[simp] theorem tasks_modArr (s : State) (a : Nat) (f : Arr → Arr) : (modArr s a f).tasks = s.tasks := rfl
@[simp] theorem xfers_modArr (s : State) (a : Nat) (f : Arr → Arr) : (modArr s a f).xfers = s.xfers := rfl
@[simp] theorem migCount_modArr (s : State) (a : Nat) (f : Arr → Arr) : (modArr s a f).migCount = s.migCount := rfl
@[simp] theorem pageKeys_modArr (s : State) (a : Nat) (f : Arr → Arr) : (modArr s a f).pageKeys = s.pageKeys := rfl
@[simp] theorem window_modArr (s : State) (a : Nat) (f : Arr → Arr) : (modArr s a f).window = s.window := rfl
@[simp] theorem cur_modArr (s : State) (a : Nat) (f : Arr → Arr) : (modArr s a f).cur = s.cur := rfl
@[simp] theorem cell_modArr (s : State) (a : Nat) (f : Arr → Arr) : (modArr s a f).cell = s.cell := rfl
@[simp] theorem bun_modArr (s : State) (a : Nat) (f : Arr → Arr) : (modArr s a f).bun = s.bun := rfl
@[simp] theorem ev_modArr (s : State) (a : Nat) (f : Arr → Arr) : (modArr s a f).ev = s.ev := rfl
@[simp] theorem free_modArr (s : State) (a : Nat) (f : Arr → Arr) : (modArr s a f).free = s.free := rfl
@[simp] theorem inputs_modArr (s : State) (a : Nat) (f : Arr → Arr) : (modArr s a f).inputs = s.inputs := rfl
@[simp] theorem mctp_modArr (s : State) (a : Nat) (f : Arr → Arr) : (modArr s a f).mctp = s.mctp := rfl
@[simp] theorem turn_modArr (s : State) (a : Nat) (f : Arr → Arr) : (modArr s a f).turn = s.turn := rfl
@[simp] theorem served_modArr (s : State) (a : Nat) (f : Arr → Arr) : (modArr s a f).served = s.served := rfl

/-! ## modSeq -/

@[simp] theorem cyc_modSeq (s : State) (a : Nat) (f : Seq → Seq) : (modSeq s a f).cyc = s.cyc := rfl
@[simp] theorem pkg_modSeq (s : State) (a : Nat) (f : Seq → Seq) : (modSeq s a f).pkg = s.pkg := rfl
@[simp] theorem admin_modSeq (s : State) (a : Nat) (f : Seq → Seq) : (modSeq s a f).admin = s.admin := rfl
@[simp] theorem mem_modSeq (s : State) (a : Nat) (f : Seq → Seq) : (modSeq s a f).mem = s.mem := rfl
@[simp] theorem poison_modSeq (s : State) (a : Nat) (f : Seq → Seq) : (modSeq s a f).poison = s.poison := rfl
@[simp] theorem ecc_modSeq (s : State) (a : Nat) (f : Seq → Seq) : (modSeq s a f).ecc = s.ecc := rfl
@[simp] theorem full_modSeq (s : State) (a : Nat) (f : Seq → Seq) : (modSeq s a f).full = s.full := rfl
@[simp] theorem dieTlb_modSeq (s : State) (a : Nat) (f : Seq → Seq) : (modSeq s a f).dieTlb = s.dieTlb := rfl
@[simp] theorem frags_modSeq (s : State) (a : Nat) (f : Seq → Seq) : (modSeq s a f).frags = s.frags := rfl
@[simp] theorem sides_modSeq (s : State) (a : Nat) (f : Seq → Seq) : (modSeq s a f).sides = s.sides := rfl
@[simp] theorem flags_modSeq (s : State) (a : Nat) (f : Seq → Seq) : (modSeq s a f).flags = s.flags := rfl
@[simp] theorem gens_modSeq (s : State) (a : Nat) (f : Seq → Seq) : (modSeq s a f).gens = s.gens := rfl
@[simp] theorem ages_modSeq (s : State) (a : Nat) (f : Seq → Seq) : (modSeq s a f).ages = s.ages := rfl
@[simp] theorem chist_modSeq (s : State) (a : Nat) (f : Seq → Seq) : (modSeq s a f).chist = s.chist := rfl
@[simp] theorem pram_modSeq (s : State) (a : Nat) (f : Seq → Seq) : (modSeq s a f).pram = s.pram := rfl
@[simp] theorem mp_modSeq (s : State) (a : Nat) (f : Seq → Seq) : (modSeq s a f).mp = s.mp := rfl
@[simp] theorem mapBase_modSeq (s : State) (a : Nat) (f : Seq → Seq) : (modSeq s a f).mapBase = s.mapBase := rfl
@[simp] theorem cellEcc_modSeq (s : State) (a : Nat) (f : Seq → Seq) : (modSeq s a f).cellEcc = s.cellEcc := rfl
@[simp] theorem cellPoison_modSeq (s : State) (a : Nat) (f : Seq → Seq) : (modSeq s a f).cellPoison = s.cellPoison := rfl
@[simp] theorem tiles_modSeq (s : State) (a : Nat) (f : Seq → Seq) : (modSeq s a f).tiles = s.tiles := rfl
@[simp] theorem groups_modSeq (s : State) (a : Nat) (f : Seq → Seq) : (modSeq s a f).groups = s.groups := rfl
@[simp] theorem waiters_modSeq (s : State) (a : Nat) (f : Seq → Seq) : (modSeq s a f).waiters = s.waiters := rfl
@[simp] theorem quotas_modSeq (s : State) (a : Nat) (f : Seq → Seq) : (modSeq s a f).quotas = s.quotas := rfl
@[simp] theorem acnt_modSeq (s : State) (a : Nat) (f : Seq → Seq) : (modSeq s a f).acnt = s.acnt := rfl
@[simp] theorem accDue_modSeq (s : State) (a : Nat) (f : Seq → Seq) : (modSeq s a f).accDue = s.accDue := rfl
@[simp] theorem homeFlags_modSeq (s : State) (a : Nat) (f : Seq → Seq) : (modSeq s a f).homeFlags = s.homeFlags := rfl
@[simp] theorem bankFlags_modSeq (s : State) (a : Nat) (f : Seq → Seq) : (modSeq s a f).bankFlags = s.bankFlags := rfl
@[simp] theorem homeLog_modSeq (s : State) (a : Nat) (f : Seq → Seq) : (modSeq s a f).homeLog = s.homeLog := rfl
@[simp] theorem errs_modSeq (s : State) (a : Nat) (f : Seq → Seq) : (modSeq s a f).errs = s.errs := rfl
@[simp] theorem waymask_modSeq (s : State) (a : Nat) (f : Seq → Seq) : (modSeq s a f).waymask = s.waymask := rfl
@[simp] theorem slices_modSeq (s : State) (a : Nat) (f : Seq → Seq) : (modSeq s a f).slices = s.slices := rfl
@[simp] theorem stale_modSeq (s : State) (a : Nat) (f : Seq → Seq) : (modSeq s a f).stale = s.stale := rfl
@[simp] theorem hbm_modSeq (s : State) (a : Nat) (f : Seq → Seq) : (modSeq s a f).hbm = s.hbm := rfl
@[simp] theorem netRes_modSeq (s : State) (a : Nat) (f : Seq → Seq) : (modSeq s a f).netRes = s.netRes := rfl
@[simp] theorem hbmRes_modSeq (s : State) (a : Nat) (f : Seq → Seq) : (modSeq s a f).hbmRes = s.hbmRes := rfl
@[simp] theorem imux_modSeq (s : State) (a : Nat) (f : Seq → Seq) : (modSeq s a f).imux = s.imux := rfl
@[simp] theorem flits_modSeq (s : State) (a : Nat) (f : Seq → Seq) : (modSeq s a f).flits = s.flits := rfl
@[simp] theorem wins_modSeq (s : State) (a : Nat) (f : Seq → Seq) : (modSeq s a f).wins = s.wins := rfl
@[simp] theorem keys_modSeq (s : State) (a : Nat) (f : Seq → Seq) : (modSeq s a f).keys = s.keys := rfl
@[simp] theorem keyOwner_modSeq (s : State) (a : Nat) (f : Seq → Seq) : (modSeq s a f).keyOwner = s.keyOwner := rfl
@[simp] theorem quarterOwner_modSeq (s : State) (a : Nat) (f : Seq → Seq) : (modSeq s a f).quarterOwner = s.quarterOwner := rfl
@[simp] theorem parts_modSeq (s : State) (a : Nat) (f : Seq → Seq) : (modSeq s a f).parts = s.parts := rfl
@[simp] theorem queues_modSeq (s : State) (a : Nat) (f : Seq → Seq) : (modSeq s a f).queues = s.queues := rfl
@[simp] theorem tasks_modSeq (s : State) (a : Nat) (f : Seq → Seq) : (modSeq s a f).tasks = s.tasks := rfl
@[simp] theorem xfers_modSeq (s : State) (a : Nat) (f : Seq → Seq) : (modSeq s a f).xfers = s.xfers := rfl
@[simp] theorem migCount_modSeq (s : State) (a : Nat) (f : Seq → Seq) : (modSeq s a f).migCount = s.migCount := rfl
@[simp] theorem pageKeys_modSeq (s : State) (a : Nat) (f : Seq → Seq) : (modSeq s a f).pageKeys = s.pageKeys := rfl
@[simp] theorem window_modSeq (s : State) (a : Nat) (f : Seq → Seq) : (modSeq s a f).window = s.window := rfl
@[simp] theorem cur_modSeq (s : State) (a : Nat) (f : Seq → Seq) : (modSeq s a f).cur = s.cur := rfl
@[simp] theorem cell_modSeq (s : State) (a : Nat) (f : Seq → Seq) : (modSeq s a f).cell = s.cell := rfl
@[simp] theorem bun_modSeq (s : State) (a : Nat) (f : Seq → Seq) : (modSeq s a f).bun = s.bun := rfl
@[simp] theorem ev_modSeq (s : State) (a : Nat) (f : Seq → Seq) : (modSeq s a f).ev = s.ev := rfl
@[simp] theorem free_modSeq (s : State) (a : Nat) (f : Seq → Seq) : (modSeq s a f).free = s.free := rfl
@[simp] theorem inputs_modSeq (s : State) (a : Nat) (f : Seq → Seq) : (modSeq s a f).inputs = s.inputs := rfl
@[simp] theorem mctp_modSeq (s : State) (a : Nat) (f : Seq → Seq) : (modSeq s a f).mctp = s.mctp := rfl
@[simp] theorem turn_modSeq (s : State) (a : Nat) (f : Seq → Seq) : (modSeq s a f).turn = s.turn := rfl
@[simp] theorem served_modSeq (s : State) (a : Nat) (f : Seq → Seq) : (modSeq s a f).served = s.served := rfl

/-! ## modCur -/

@[simp] theorem cyc_modCur (s : State) (f : Seq → Seq) : (modCur s f).cyc = s.cyc := rfl
@[simp] theorem pkg_modCur (s : State) (f : Seq → Seq) : (modCur s f).pkg = s.pkg := rfl
@[simp] theorem admin_modCur (s : State) (f : Seq → Seq) : (modCur s f).admin = s.admin := rfl
@[simp] theorem mem_modCur (s : State) (f : Seq → Seq) : (modCur s f).mem = s.mem := rfl
@[simp] theorem poison_modCur (s : State) (f : Seq → Seq) : (modCur s f).poison = s.poison := rfl
@[simp] theorem ecc_modCur (s : State) (f : Seq → Seq) : (modCur s f).ecc = s.ecc := rfl
@[simp] theorem full_modCur (s : State) (f : Seq → Seq) : (modCur s f).full = s.full := rfl
@[simp] theorem dieTlb_modCur (s : State) (f : Seq → Seq) : (modCur s f).dieTlb = s.dieTlb := rfl
@[simp] theorem frags_modCur (s : State) (f : Seq → Seq) : (modCur s f).frags = s.frags := rfl
@[simp] theorem sides_modCur (s : State) (f : Seq → Seq) : (modCur s f).sides = s.sides := rfl
@[simp] theorem flags_modCur (s : State) (f : Seq → Seq) : (modCur s f).flags = s.flags := rfl
@[simp] theorem gens_modCur (s : State) (f : Seq → Seq) : (modCur s f).gens = s.gens := rfl
@[simp] theorem ages_modCur (s : State) (f : Seq → Seq) : (modCur s f).ages = s.ages := rfl
@[simp] theorem chist_modCur (s : State) (f : Seq → Seq) : (modCur s f).chist = s.chist := rfl
@[simp] theorem pram_modCur (s : State) (f : Seq → Seq) : (modCur s f).pram = s.pram := rfl
@[simp] theorem mp_modCur (s : State) (f : Seq → Seq) : (modCur s f).mp = s.mp := rfl
@[simp] theorem mapBase_modCur (s : State) (f : Seq → Seq) : (modCur s f).mapBase = s.mapBase := rfl
@[simp] theorem cellEcc_modCur (s : State) (f : Seq → Seq) : (modCur s f).cellEcc = s.cellEcc := rfl
@[simp] theorem cellPoison_modCur (s : State) (f : Seq → Seq) : (modCur s f).cellPoison = s.cellPoison := rfl
@[simp] theorem tiles_modCur (s : State) (f : Seq → Seq) : (modCur s f).tiles = s.tiles := rfl
@[simp] theorem groups_modCur (s : State) (f : Seq → Seq) : (modCur s f).groups = s.groups := rfl
@[simp] theorem waiters_modCur (s : State) (f : Seq → Seq) : (modCur s f).waiters = s.waiters := rfl
@[simp] theorem quotas_modCur (s : State) (f : Seq → Seq) : (modCur s f).quotas = s.quotas := rfl
@[simp] theorem acnt_modCur (s : State) (f : Seq → Seq) : (modCur s f).acnt = s.acnt := rfl
@[simp] theorem accDue_modCur (s : State) (f : Seq → Seq) : (modCur s f).accDue = s.accDue := rfl
@[simp] theorem homeFlags_modCur (s : State) (f : Seq → Seq) : (modCur s f).homeFlags = s.homeFlags := rfl
@[simp] theorem bankFlags_modCur (s : State) (f : Seq → Seq) : (modCur s f).bankFlags = s.bankFlags := rfl
@[simp] theorem homeLog_modCur (s : State) (f : Seq → Seq) : (modCur s f).homeLog = s.homeLog := rfl
@[simp] theorem errs_modCur (s : State) (f : Seq → Seq) : (modCur s f).errs = s.errs := rfl
@[simp] theorem waymask_modCur (s : State) (f : Seq → Seq) : (modCur s f).waymask = s.waymask := rfl
@[simp] theorem slices_modCur (s : State) (f : Seq → Seq) : (modCur s f).slices = s.slices := rfl
@[simp] theorem stale_modCur (s : State) (f : Seq → Seq) : (modCur s f).stale = s.stale := rfl
@[simp] theorem hbm_modCur (s : State) (f : Seq → Seq) : (modCur s f).hbm = s.hbm := rfl
@[simp] theorem netRes_modCur (s : State) (f : Seq → Seq) : (modCur s f).netRes = s.netRes := rfl
@[simp] theorem hbmRes_modCur (s : State) (f : Seq → Seq) : (modCur s f).hbmRes = s.hbmRes := rfl
@[simp] theorem imux_modCur (s : State) (f : Seq → Seq) : (modCur s f).imux = s.imux := rfl
@[simp] theorem flits_modCur (s : State) (f : Seq → Seq) : (modCur s f).flits = s.flits := rfl
@[simp] theorem wins_modCur (s : State) (f : Seq → Seq) : (modCur s f).wins = s.wins := rfl
@[simp] theorem keys_modCur (s : State) (f : Seq → Seq) : (modCur s f).keys = s.keys := rfl
@[simp] theorem keyOwner_modCur (s : State) (f : Seq → Seq) : (modCur s f).keyOwner = s.keyOwner := rfl
@[simp] theorem quarterOwner_modCur (s : State) (f : Seq → Seq) : (modCur s f).quarterOwner = s.quarterOwner := rfl
@[simp] theorem parts_modCur (s : State) (f : Seq → Seq) : (modCur s f).parts = s.parts := rfl
@[simp] theorem queues_modCur (s : State) (f : Seq → Seq) : (modCur s f).queues = s.queues := rfl
@[simp] theorem tasks_modCur (s : State) (f : Seq → Seq) : (modCur s f).tasks = s.tasks := rfl
@[simp] theorem xfers_modCur (s : State) (f : Seq → Seq) : (modCur s f).xfers = s.xfers := rfl
@[simp] theorem migCount_modCur (s : State) (f : Seq → Seq) : (modCur s f).migCount = s.migCount := rfl
@[simp] theorem pageKeys_modCur (s : State) (f : Seq → Seq) : (modCur s f).pageKeys = s.pageKeys := rfl
@[simp] theorem window_modCur (s : State) (f : Seq → Seq) : (modCur s f).window = s.window := rfl
@[simp] theorem cur_modCur (s : State) (f : Seq → Seq) : (modCur s f).cur = s.cur := rfl
@[simp] theorem cell_modCur (s : State) (f : Seq → Seq) : (modCur s f).cell = s.cell := rfl
@[simp] theorem bun_modCur (s : State) (f : Seq → Seq) : (modCur s f).bun = s.bun := rfl
@[simp] theorem ev_modCur (s : State) (f : Seq → Seq) : (modCur s f).ev = s.ev := rfl
@[simp] theorem free_modCur (s : State) (f : Seq → Seq) : (modCur s f).free = s.free := rfl
@[simp] theorem inputs_modCur (s : State) (f : Seq → Seq) : (modCur s f).inputs = s.inputs := rfl
@[simp] theorem mctp_modCur (s : State) (f : Seq → Seq) : (modCur s f).mctp = s.mctp := rfl
@[simp] theorem turn_modCur (s : State) (f : Seq → Seq) : (modCur s f).turn = s.turn := rfl
@[simp] theorem served_modCur (s : State) (f : Seq → Seq) : (modCur s f).served = s.served := rfl

/-! ## modEng -/

@[simp] theorem cyc_modEng (s : State) (a e : Nat) (f : Engine → Engine) : (modEng s a e f).cyc = s.cyc := rfl
@[simp] theorem pkg_modEng (s : State) (a e : Nat) (f : Engine → Engine) : (modEng s a e f).pkg = s.pkg := rfl
@[simp] theorem admin_modEng (s : State) (a e : Nat) (f : Engine → Engine) : (modEng s a e f).admin = s.admin := rfl
@[simp] theorem mem_modEng (s : State) (a e : Nat) (f : Engine → Engine) : (modEng s a e f).mem = s.mem := rfl
@[simp] theorem poison_modEng (s : State) (a e : Nat) (f : Engine → Engine) : (modEng s a e f).poison = s.poison := rfl
@[simp] theorem ecc_modEng (s : State) (a e : Nat) (f : Engine → Engine) : (modEng s a e f).ecc = s.ecc := rfl
@[simp] theorem full_modEng (s : State) (a e : Nat) (f : Engine → Engine) : (modEng s a e f).full = s.full := rfl
@[simp] theorem dieTlb_modEng (s : State) (a e : Nat) (f : Engine → Engine) : (modEng s a e f).dieTlb = s.dieTlb := rfl
@[simp] theorem frags_modEng (s : State) (a e : Nat) (f : Engine → Engine) : (modEng s a e f).frags = s.frags := rfl
@[simp] theorem sides_modEng (s : State) (a e : Nat) (f : Engine → Engine) : (modEng s a e f).sides = s.sides := rfl
@[simp] theorem flags_modEng (s : State) (a e : Nat) (f : Engine → Engine) : (modEng s a e f).flags = s.flags := rfl
@[simp] theorem gens_modEng (s : State) (a e : Nat) (f : Engine → Engine) : (modEng s a e f).gens = s.gens := rfl
@[simp] theorem ages_modEng (s : State) (a e : Nat) (f : Engine → Engine) : (modEng s a e f).ages = s.ages := rfl
@[simp] theorem chist_modEng (s : State) (a e : Nat) (f : Engine → Engine) : (modEng s a e f).chist = s.chist := rfl
@[simp] theorem pram_modEng (s : State) (a e : Nat) (f : Engine → Engine) : (modEng s a e f).pram = s.pram := rfl
@[simp] theorem mp_modEng (s : State) (a e : Nat) (f : Engine → Engine) : (modEng s a e f).mp = s.mp := rfl
@[simp] theorem mapBase_modEng (s : State) (a e : Nat) (f : Engine → Engine) : (modEng s a e f).mapBase = s.mapBase := rfl
@[simp] theorem cellEcc_modEng (s : State) (a e : Nat) (f : Engine → Engine) : (modEng s a e f).cellEcc = s.cellEcc := rfl
@[simp] theorem cellPoison_modEng (s : State) (a e : Nat) (f : Engine → Engine) : (modEng s a e f).cellPoison = s.cellPoison := rfl
@[simp] theorem tiles_modEng (s : State) (a e : Nat) (f : Engine → Engine) : (modEng s a e f).tiles = s.tiles := rfl
@[simp] theorem groups_modEng (s : State) (a e : Nat) (f : Engine → Engine) : (modEng s a e f).groups = s.groups := rfl
@[simp] theorem waiters_modEng (s : State) (a e : Nat) (f : Engine → Engine) : (modEng s a e f).waiters = s.waiters := rfl
@[simp] theorem quotas_modEng (s : State) (a e : Nat) (f : Engine → Engine) : (modEng s a e f).quotas = s.quotas := rfl
@[simp] theorem acnt_modEng (s : State) (a e : Nat) (f : Engine → Engine) : (modEng s a e f).acnt = s.acnt := rfl
@[simp] theorem accDue_modEng (s : State) (a e : Nat) (f : Engine → Engine) : (modEng s a e f).accDue = s.accDue := rfl
@[simp] theorem homeFlags_modEng (s : State) (a e : Nat) (f : Engine → Engine) : (modEng s a e f).homeFlags = s.homeFlags := rfl
@[simp] theorem bankFlags_modEng (s : State) (a e : Nat) (f : Engine → Engine) : (modEng s a e f).bankFlags = s.bankFlags := rfl
@[simp] theorem homeLog_modEng (s : State) (a e : Nat) (f : Engine → Engine) : (modEng s a e f).homeLog = s.homeLog := rfl
@[simp] theorem errs_modEng (s : State) (a e : Nat) (f : Engine → Engine) : (modEng s a e f).errs = s.errs := rfl
@[simp] theorem waymask_modEng (s : State) (a e : Nat) (f : Engine → Engine) : (modEng s a e f).waymask = s.waymask := rfl
@[simp] theorem slices_modEng (s : State) (a e : Nat) (f : Engine → Engine) : (modEng s a e f).slices = s.slices := rfl
@[simp] theorem stale_modEng (s : State) (a e : Nat) (f : Engine → Engine) : (modEng s a e f).stale = s.stale := rfl
@[simp] theorem hbm_modEng (s : State) (a e : Nat) (f : Engine → Engine) : (modEng s a e f).hbm = s.hbm := rfl
@[simp] theorem netRes_modEng (s : State) (a e : Nat) (f : Engine → Engine) : (modEng s a e f).netRes = s.netRes := rfl
@[simp] theorem hbmRes_modEng (s : State) (a e : Nat) (f : Engine → Engine) : (modEng s a e f).hbmRes = s.hbmRes := rfl
@[simp] theorem imux_modEng (s : State) (a e : Nat) (f : Engine → Engine) : (modEng s a e f).imux = s.imux := rfl
@[simp] theorem flits_modEng (s : State) (a e : Nat) (f : Engine → Engine) : (modEng s a e f).flits = s.flits := rfl
@[simp] theorem wins_modEng (s : State) (a e : Nat) (f : Engine → Engine) : (modEng s a e f).wins = s.wins := rfl
@[simp] theorem keys_modEng (s : State) (a e : Nat) (f : Engine → Engine) : (modEng s a e f).keys = s.keys := rfl
@[simp] theorem keyOwner_modEng (s : State) (a e : Nat) (f : Engine → Engine) : (modEng s a e f).keyOwner = s.keyOwner := rfl
@[simp] theorem quarterOwner_modEng (s : State) (a e : Nat) (f : Engine → Engine) : (modEng s a e f).quarterOwner = s.quarterOwner := rfl
@[simp] theorem parts_modEng (s : State) (a e : Nat) (f : Engine → Engine) : (modEng s a e f).parts = s.parts := rfl
@[simp] theorem queues_modEng (s : State) (a e : Nat) (f : Engine → Engine) : (modEng s a e f).queues = s.queues := rfl
@[simp] theorem tasks_modEng (s : State) (a e : Nat) (f : Engine → Engine) : (modEng s a e f).tasks = s.tasks := rfl
@[simp] theorem xfers_modEng (s : State) (a e : Nat) (f : Engine → Engine) : (modEng s a e f).xfers = s.xfers := rfl
@[simp] theorem migCount_modEng (s : State) (a e : Nat) (f : Engine → Engine) : (modEng s a e f).migCount = s.migCount := rfl
@[simp] theorem pageKeys_modEng (s : State) (a e : Nat) (f : Engine → Engine) : (modEng s a e f).pageKeys = s.pageKeys := rfl
@[simp] theorem window_modEng (s : State) (a e : Nat) (f : Engine → Engine) : (modEng s a e f).window = s.window := rfl
@[simp] theorem cur_modEng (s : State) (a e : Nat) (f : Engine → Engine) : (modEng s a e f).cur = s.cur := rfl
@[simp] theorem cell_modEng (s : State) (a e : Nat) (f : Engine → Engine) : (modEng s a e f).cell = s.cell := rfl
@[simp] theorem bun_modEng (s : State) (a e : Nat) (f : Engine → Engine) : (modEng s a e f).bun = s.bun := rfl
@[simp] theorem ev_modEng (s : State) (a e : Nat) (f : Engine → Engine) : (modEng s a e f).ev = s.ev := rfl
@[simp] theorem free_modEng (s : State) (a e : Nat) (f : Engine → Engine) : (modEng s a e f).free = s.free := rfl
@[simp] theorem inputs_modEng (s : State) (a e : Nat) (f : Engine → Engine) : (modEng s a e f).inputs = s.inputs := rfl
@[simp] theorem mctp_modEng (s : State) (a e : Nat) (f : Engine → Engine) : (modEng s a e f).mctp = s.mctp := rfl
@[simp] theorem turn_modEng (s : State) (a e : Nat) (f : Engine → Engine) : (modEng s a e f).turn = s.turn := rfl
@[simp] theorem served_modEng (s : State) (a e : Nat) (f : Engine → Engine) : (modEng s a e f).served = s.served := rfl

/-! ## modPort -/

@[simp] theorem cyc_modPort (s : State) (a n : Nat) (f : Port → Port) : (modPort s a n f).cyc = s.cyc := rfl
@[simp] theorem pkg_modPort (s : State) (a n : Nat) (f : Port → Port) : (modPort s a n f).pkg = s.pkg := rfl
@[simp] theorem admin_modPort (s : State) (a n : Nat) (f : Port → Port) : (modPort s a n f).admin = s.admin := rfl
@[simp] theorem mem_modPort (s : State) (a n : Nat) (f : Port → Port) : (modPort s a n f).mem = s.mem := rfl
@[simp] theorem poison_modPort (s : State) (a n : Nat) (f : Port → Port) : (modPort s a n f).poison = s.poison := rfl
@[simp] theorem ecc_modPort (s : State) (a n : Nat) (f : Port → Port) : (modPort s a n f).ecc = s.ecc := rfl
@[simp] theorem full_modPort (s : State) (a n : Nat) (f : Port → Port) : (modPort s a n f).full = s.full := rfl
@[simp] theorem dieTlb_modPort (s : State) (a n : Nat) (f : Port → Port) : (modPort s a n f).dieTlb = s.dieTlb := rfl
@[simp] theorem frags_modPort (s : State) (a n : Nat) (f : Port → Port) : (modPort s a n f).frags = s.frags := rfl
@[simp] theorem sides_modPort (s : State) (a n : Nat) (f : Port → Port) : (modPort s a n f).sides = s.sides := rfl
@[simp] theorem flags_modPort (s : State) (a n : Nat) (f : Port → Port) : (modPort s a n f).flags = s.flags := rfl
@[simp] theorem gens_modPort (s : State) (a n : Nat) (f : Port → Port) : (modPort s a n f).gens = s.gens := rfl
@[simp] theorem ages_modPort (s : State) (a n : Nat) (f : Port → Port) : (modPort s a n f).ages = s.ages := rfl
@[simp] theorem chist_modPort (s : State) (a n : Nat) (f : Port → Port) : (modPort s a n f).chist = s.chist := rfl
@[simp] theorem pram_modPort (s : State) (a n : Nat) (f : Port → Port) : (modPort s a n f).pram = s.pram := rfl
@[simp] theorem mp_modPort (s : State) (a n : Nat) (f : Port → Port) : (modPort s a n f).mp = s.mp := rfl
@[simp] theorem mapBase_modPort (s : State) (a n : Nat) (f : Port → Port) : (modPort s a n f).mapBase = s.mapBase := rfl
@[simp] theorem cellEcc_modPort (s : State) (a n : Nat) (f : Port → Port) : (modPort s a n f).cellEcc = s.cellEcc := rfl
@[simp] theorem cellPoison_modPort (s : State) (a n : Nat) (f : Port → Port) : (modPort s a n f).cellPoison = s.cellPoison := rfl
@[simp] theorem tiles_modPort (s : State) (a n : Nat) (f : Port → Port) : (modPort s a n f).tiles = s.tiles := rfl
@[simp] theorem groups_modPort (s : State) (a n : Nat) (f : Port → Port) : (modPort s a n f).groups = s.groups := rfl
@[simp] theorem waiters_modPort (s : State) (a n : Nat) (f : Port → Port) : (modPort s a n f).waiters = s.waiters := rfl
@[simp] theorem quotas_modPort (s : State) (a n : Nat) (f : Port → Port) : (modPort s a n f).quotas = s.quotas := rfl
@[simp] theorem acnt_modPort (s : State) (a n : Nat) (f : Port → Port) : (modPort s a n f).acnt = s.acnt := rfl
@[simp] theorem accDue_modPort (s : State) (a n : Nat) (f : Port → Port) : (modPort s a n f).accDue = s.accDue := rfl
@[simp] theorem homeFlags_modPort (s : State) (a n : Nat) (f : Port → Port) : (modPort s a n f).homeFlags = s.homeFlags := rfl
@[simp] theorem bankFlags_modPort (s : State) (a n : Nat) (f : Port → Port) : (modPort s a n f).bankFlags = s.bankFlags := rfl
@[simp] theorem homeLog_modPort (s : State) (a n : Nat) (f : Port → Port) : (modPort s a n f).homeLog = s.homeLog := rfl
@[simp] theorem errs_modPort (s : State) (a n : Nat) (f : Port → Port) : (modPort s a n f).errs = s.errs := rfl
@[simp] theorem waymask_modPort (s : State) (a n : Nat) (f : Port → Port) : (modPort s a n f).waymask = s.waymask := rfl
@[simp] theorem slices_modPort (s : State) (a n : Nat) (f : Port → Port) : (modPort s a n f).slices = s.slices := rfl
@[simp] theorem stale_modPort (s : State) (a n : Nat) (f : Port → Port) : (modPort s a n f).stale = s.stale := rfl
@[simp] theorem hbm_modPort (s : State) (a n : Nat) (f : Port → Port) : (modPort s a n f).hbm = s.hbm := rfl
@[simp] theorem netRes_modPort (s : State) (a n : Nat) (f : Port → Port) : (modPort s a n f).netRes = s.netRes := rfl
@[simp] theorem hbmRes_modPort (s : State) (a n : Nat) (f : Port → Port) : (modPort s a n f).hbmRes = s.hbmRes := rfl
@[simp] theorem imux_modPort (s : State) (a n : Nat) (f : Port → Port) : (modPort s a n f).imux = s.imux := rfl
@[simp] theorem flits_modPort (s : State) (a n : Nat) (f : Port → Port) : (modPort s a n f).flits = s.flits := rfl
@[simp] theorem wins_modPort (s : State) (a n : Nat) (f : Port → Port) : (modPort s a n f).wins = s.wins := rfl
@[simp] theorem keys_modPort (s : State) (a n : Nat) (f : Port → Port) : (modPort s a n f).keys = s.keys := rfl
@[simp] theorem keyOwner_modPort (s : State) (a n : Nat) (f : Port → Port) : (modPort s a n f).keyOwner = s.keyOwner := rfl
@[simp] theorem quarterOwner_modPort (s : State) (a n : Nat) (f : Port → Port) : (modPort s a n f).quarterOwner = s.quarterOwner := rfl
@[simp] theorem parts_modPort (s : State) (a n : Nat) (f : Port → Port) : (modPort s a n f).parts = s.parts := rfl
@[simp] theorem queues_modPort (s : State) (a n : Nat) (f : Port → Port) : (modPort s a n f).queues = s.queues := rfl
@[simp] theorem tasks_modPort (s : State) (a n : Nat) (f : Port → Port) : (modPort s a n f).tasks = s.tasks := rfl
@[simp] theorem xfers_modPort (s : State) (a n : Nat) (f : Port → Port) : (modPort s a n f).xfers = s.xfers := rfl
@[simp] theorem migCount_modPort (s : State) (a n : Nat) (f : Port → Port) : (modPort s a n f).migCount = s.migCount := rfl
@[simp] theorem pageKeys_modPort (s : State) (a n : Nat) (f : Port → Port) : (modPort s a n f).pageKeys = s.pageKeys := rfl
@[simp] theorem window_modPort (s : State) (a n : Nat) (f : Port → Port) : (modPort s a n f).window = s.window := rfl
@[simp] theorem cur_modPort (s : State) (a n : Nat) (f : Port → Port) : (modPort s a n f).cur = s.cur := rfl
@[simp] theorem cell_modPort (s : State) (a n : Nat) (f : Port → Port) : (modPort s a n f).cell = s.cell := rfl
@[simp] theorem bun_modPort (s : State) (a n : Nat) (f : Port → Port) : (modPort s a n f).bun = s.bun := rfl
@[simp] theorem ev_modPort (s : State) (a n : Nat) (f : Port → Port) : (modPort s a n f).ev = s.ev := rfl
@[simp] theorem free_modPort (s : State) (a n : Nat) (f : Port → Port) : (modPort s a n f).free = s.free := rfl
@[simp] theorem inputs_modPort (s : State) (a n : Nat) (f : Port → Port) : (modPort s a n f).inputs = s.inputs := rfl
@[simp] theorem mctp_modPort (s : State) (a n : Nat) (f : Port → Port) : (modPort s a n f).mctp = s.mctp := rfl
@[simp] theorem turn_modPort (s : State) (a n : Nat) (f : Port → Port) : (modPort s a n f).turn = s.turn := rfl
@[simp] theorem served_modPort (s : State) (a n : Nat) (f : Port → Port) : (modPort s a n f).served = s.served := rfl

/-! ## modHandle -/

@[simp] theorem cyc_modHandle (s : State) (a h : Nat) (f : Handle → Handle) : (modHandle s a h f).cyc = s.cyc := rfl
@[simp] theorem pkg_modHandle (s : State) (a h : Nat) (f : Handle → Handle) : (modHandle s a h f).pkg = s.pkg := rfl
@[simp] theorem admin_modHandle (s : State) (a h : Nat) (f : Handle → Handle) : (modHandle s a h f).admin = s.admin := rfl
@[simp] theorem mem_modHandle (s : State) (a h : Nat) (f : Handle → Handle) : (modHandle s a h f).mem = s.mem := rfl
@[simp] theorem poison_modHandle (s : State) (a h : Nat) (f : Handle → Handle) : (modHandle s a h f).poison = s.poison := rfl
@[simp] theorem ecc_modHandle (s : State) (a h : Nat) (f : Handle → Handle) : (modHandle s a h f).ecc = s.ecc := rfl
@[simp] theorem full_modHandle (s : State) (a h : Nat) (f : Handle → Handle) : (modHandle s a h f).full = s.full := rfl
@[simp] theorem dieTlb_modHandle (s : State) (a h : Nat) (f : Handle → Handle) : (modHandle s a h f).dieTlb = s.dieTlb := rfl
@[simp] theorem frags_modHandle (s : State) (a h : Nat) (f : Handle → Handle) : (modHandle s a h f).frags = s.frags := rfl
@[simp] theorem sides_modHandle (s : State) (a h : Nat) (f : Handle → Handle) : (modHandle s a h f).sides = s.sides := rfl
@[simp] theorem flags_modHandle (s : State) (a h : Nat) (f : Handle → Handle) : (modHandle s a h f).flags = s.flags := rfl
@[simp] theorem gens_modHandle (s : State) (a h : Nat) (f : Handle → Handle) : (modHandle s a h f).gens = s.gens := rfl
@[simp] theorem ages_modHandle (s : State) (a h : Nat) (f : Handle → Handle) : (modHandle s a h f).ages = s.ages := rfl
@[simp] theorem chist_modHandle (s : State) (a h : Nat) (f : Handle → Handle) : (modHandle s a h f).chist = s.chist := rfl
@[simp] theorem pram_modHandle (s : State) (a h : Nat) (f : Handle → Handle) : (modHandle s a h f).pram = s.pram := rfl
@[simp] theorem mp_modHandle (s : State) (a h : Nat) (f : Handle → Handle) : (modHandle s a h f).mp = s.mp := rfl
@[simp] theorem mapBase_modHandle (s : State) (a h : Nat) (f : Handle → Handle) : (modHandle s a h f).mapBase = s.mapBase := rfl
@[simp] theorem cellEcc_modHandle (s : State) (a h : Nat) (f : Handle → Handle) : (modHandle s a h f).cellEcc = s.cellEcc := rfl
@[simp] theorem cellPoison_modHandle (s : State) (a h : Nat) (f : Handle → Handle) : (modHandle s a h f).cellPoison = s.cellPoison := rfl
@[simp] theorem tiles_modHandle (s : State) (a h : Nat) (f : Handle → Handle) : (modHandle s a h f).tiles = s.tiles := rfl
@[simp] theorem groups_modHandle (s : State) (a h : Nat) (f : Handle → Handle) : (modHandle s a h f).groups = s.groups := rfl
@[simp] theorem waiters_modHandle (s : State) (a h : Nat) (f : Handle → Handle) : (modHandle s a h f).waiters = s.waiters := rfl
@[simp] theorem quotas_modHandle (s : State) (a h : Nat) (f : Handle → Handle) : (modHandle s a h f).quotas = s.quotas := rfl
@[simp] theorem acnt_modHandle (s : State) (a h : Nat) (f : Handle → Handle) : (modHandle s a h f).acnt = s.acnt := rfl
@[simp] theorem accDue_modHandle (s : State) (a h : Nat) (f : Handle → Handle) : (modHandle s a h f).accDue = s.accDue := rfl
@[simp] theorem homeFlags_modHandle (s : State) (a h : Nat) (f : Handle → Handle) : (modHandle s a h f).homeFlags = s.homeFlags := rfl
@[simp] theorem bankFlags_modHandle (s : State) (a h : Nat) (f : Handle → Handle) : (modHandle s a h f).bankFlags = s.bankFlags := rfl
@[simp] theorem homeLog_modHandle (s : State) (a h : Nat) (f : Handle → Handle) : (modHandle s a h f).homeLog = s.homeLog := rfl
@[simp] theorem errs_modHandle (s : State) (a h : Nat) (f : Handle → Handle) : (modHandle s a h f).errs = s.errs := rfl
@[simp] theorem waymask_modHandle (s : State) (a h : Nat) (f : Handle → Handle) : (modHandle s a h f).waymask = s.waymask := rfl
@[simp] theorem slices_modHandle (s : State) (a h : Nat) (f : Handle → Handle) : (modHandle s a h f).slices = s.slices := rfl
@[simp] theorem stale_modHandle (s : State) (a h : Nat) (f : Handle → Handle) : (modHandle s a h f).stale = s.stale := rfl
@[simp] theorem hbm_modHandle (s : State) (a h : Nat) (f : Handle → Handle) : (modHandle s a h f).hbm = s.hbm := rfl
@[simp] theorem netRes_modHandle (s : State) (a h : Nat) (f : Handle → Handle) : (modHandle s a h f).netRes = s.netRes := rfl
@[simp] theorem hbmRes_modHandle (s : State) (a h : Nat) (f : Handle → Handle) : (modHandle s a h f).hbmRes = s.hbmRes := rfl
@[simp] theorem imux_modHandle (s : State) (a h : Nat) (f : Handle → Handle) : (modHandle s a h f).imux = s.imux := rfl
@[simp] theorem flits_modHandle (s : State) (a h : Nat) (f : Handle → Handle) : (modHandle s a h f).flits = s.flits := rfl
@[simp] theorem wins_modHandle (s : State) (a h : Nat) (f : Handle → Handle) : (modHandle s a h f).wins = s.wins := rfl
@[simp] theorem keys_modHandle (s : State) (a h : Nat) (f : Handle → Handle) : (modHandle s a h f).keys = s.keys := rfl
@[simp] theorem keyOwner_modHandle (s : State) (a h : Nat) (f : Handle → Handle) : (modHandle s a h f).keyOwner = s.keyOwner := rfl
@[simp] theorem quarterOwner_modHandle (s : State) (a h : Nat) (f : Handle → Handle) : (modHandle s a h f).quarterOwner = s.quarterOwner := rfl
@[simp] theorem parts_modHandle (s : State) (a h : Nat) (f : Handle → Handle) : (modHandle s a h f).parts = s.parts := rfl
@[simp] theorem queues_modHandle (s : State) (a h : Nat) (f : Handle → Handle) : (modHandle s a h f).queues = s.queues := rfl
@[simp] theorem tasks_modHandle (s : State) (a h : Nat) (f : Handle → Handle) : (modHandle s a h f).tasks = s.tasks := rfl
@[simp] theorem xfers_modHandle (s : State) (a h : Nat) (f : Handle → Handle) : (modHandle s a h f).xfers = s.xfers := rfl
@[simp] theorem migCount_modHandle (s : State) (a h : Nat) (f : Handle → Handle) : (modHandle s a h f).migCount = s.migCount := rfl
@[simp] theorem pageKeys_modHandle (s : State) (a h : Nat) (f : Handle → Handle) : (modHandle s a h f).pageKeys = s.pageKeys := rfl
@[simp] theorem window_modHandle (s : State) (a h : Nat) (f : Handle → Handle) : (modHandle s a h f).window = s.window := rfl
@[simp] theorem cur_modHandle (s : State) (a h : Nat) (f : Handle → Handle) : (modHandle s a h f).cur = s.cur := rfl
@[simp] theorem cell_modHandle (s : State) (a h : Nat) (f : Handle → Handle) : (modHandle s a h f).cell = s.cell := rfl
@[simp] theorem bun_modHandle (s : State) (a h : Nat) (f : Handle → Handle) : (modHandle s a h f).bun = s.bun := rfl
@[simp] theorem ev_modHandle (s : State) (a h : Nat) (f : Handle → Handle) : (modHandle s a h f).ev = s.ev := rfl
@[simp] theorem free_modHandle (s : State) (a h : Nat) (f : Handle → Handle) : (modHandle s a h f).free = s.free := rfl
@[simp] theorem inputs_modHandle (s : State) (a h : Nat) (f : Handle → Handle) : (modHandle s a h f).inputs = s.inputs := rfl
@[simp] theorem mctp_modHandle (s : State) (a h : Nat) (f : Handle → Handle) : (modHandle s a h f).mctp = s.mctp := rfl
@[simp] theorem turn_modHandle (s : State) (a h : Nat) (f : Handle → Handle) : (modHandle s a h f).turn = s.turn := rfl
@[simp] theorem served_modHandle (s : State) (a h : Nat) (f : Handle → Handle) : (modHandle s a h f).served = s.served := rfl

/-! ## modPart -/

@[simp] theorem cyc_modPart (s : State) (p : Nat) (f : Part → Part) : (modPart s p f).cyc = s.cyc := rfl
@[simp] theorem pkg_modPart (s : State) (p : Nat) (f : Part → Part) : (modPart s p f).pkg = s.pkg := rfl
@[simp] theorem admin_modPart (s : State) (p : Nat) (f : Part → Part) : (modPart s p f).admin = s.admin := rfl
@[simp] theorem mem_modPart (s : State) (p : Nat) (f : Part → Part) : (modPart s p f).mem = s.mem := rfl
@[simp] theorem poison_modPart (s : State) (p : Nat) (f : Part → Part) : (modPart s p f).poison = s.poison := rfl
@[simp] theorem ecc_modPart (s : State) (p : Nat) (f : Part → Part) : (modPart s p f).ecc = s.ecc := rfl
@[simp] theorem full_modPart (s : State) (p : Nat) (f : Part → Part) : (modPart s p f).full = s.full := rfl
@[simp] theorem arrs_modPart (s : State) (p : Nat) (f : Part → Part) : (modPart s p f).arrs = s.arrs := rfl
@[simp] theorem dieTlb_modPart (s : State) (p : Nat) (f : Part → Part) : (modPart s p f).dieTlb = s.dieTlb := rfl
@[simp] theorem frags_modPart (s : State) (p : Nat) (f : Part → Part) : (modPart s p f).frags = s.frags := rfl
@[simp] theorem sides_modPart (s : State) (p : Nat) (f : Part → Part) : (modPart s p f).sides = s.sides := rfl
@[simp] theorem flags_modPart (s : State) (p : Nat) (f : Part → Part) : (modPart s p f).flags = s.flags := rfl
@[simp] theorem gens_modPart (s : State) (p : Nat) (f : Part → Part) : (modPart s p f).gens = s.gens := rfl
@[simp] theorem ages_modPart (s : State) (p : Nat) (f : Part → Part) : (modPart s p f).ages = s.ages := rfl
@[simp] theorem chist_modPart (s : State) (p : Nat) (f : Part → Part) : (modPart s p f).chist = s.chist := rfl
@[simp] theorem pram_modPart (s : State) (p : Nat) (f : Part → Part) : (modPart s p f).pram = s.pram := rfl
@[simp] theorem mp_modPart (s : State) (p : Nat) (f : Part → Part) : (modPart s p f).mp = s.mp := rfl
@[simp] theorem mapBase_modPart (s : State) (p : Nat) (f : Part → Part) : (modPart s p f).mapBase = s.mapBase := rfl
@[simp] theorem cellEcc_modPart (s : State) (p : Nat) (f : Part → Part) : (modPart s p f).cellEcc = s.cellEcc := rfl
@[simp] theorem cellPoison_modPart (s : State) (p : Nat) (f : Part → Part) : (modPart s p f).cellPoison = s.cellPoison := rfl
@[simp] theorem tiles_modPart (s : State) (p : Nat) (f : Part → Part) : (modPart s p f).tiles = s.tiles := rfl
@[simp] theorem groups_modPart (s : State) (p : Nat) (f : Part → Part) : (modPart s p f).groups = s.groups := rfl
@[simp] theorem waiters_modPart (s : State) (p : Nat) (f : Part → Part) : (modPart s p f).waiters = s.waiters := rfl
@[simp] theorem quotas_modPart (s : State) (p : Nat) (f : Part → Part) : (modPart s p f).quotas = s.quotas := rfl
@[simp] theorem acnt_modPart (s : State) (p : Nat) (f : Part → Part) : (modPart s p f).acnt = s.acnt := rfl
@[simp] theorem accDue_modPart (s : State) (p : Nat) (f : Part → Part) : (modPart s p f).accDue = s.accDue := rfl
@[simp] theorem homeFlags_modPart (s : State) (p : Nat) (f : Part → Part) : (modPart s p f).homeFlags = s.homeFlags := rfl
@[simp] theorem bankFlags_modPart (s : State) (p : Nat) (f : Part → Part) : (modPart s p f).bankFlags = s.bankFlags := rfl
@[simp] theorem homeLog_modPart (s : State) (p : Nat) (f : Part → Part) : (modPart s p f).homeLog = s.homeLog := rfl
@[simp] theorem errs_modPart (s : State) (p : Nat) (f : Part → Part) : (modPart s p f).errs = s.errs := rfl
@[simp] theorem waymask_modPart (s : State) (p : Nat) (f : Part → Part) : (modPart s p f).waymask = s.waymask := rfl
@[simp] theorem slices_modPart (s : State) (p : Nat) (f : Part → Part) : (modPart s p f).slices = s.slices := rfl
@[simp] theorem stale_modPart (s : State) (p : Nat) (f : Part → Part) : (modPart s p f).stale = s.stale := rfl
@[simp] theorem hbm_modPart (s : State) (p : Nat) (f : Part → Part) : (modPart s p f).hbm = s.hbm := rfl
@[simp] theorem netRes_modPart (s : State) (p : Nat) (f : Part → Part) : (modPart s p f).netRes = s.netRes := rfl
@[simp] theorem hbmRes_modPart (s : State) (p : Nat) (f : Part → Part) : (modPart s p f).hbmRes = s.hbmRes := rfl
@[simp] theorem imux_modPart (s : State) (p : Nat) (f : Part → Part) : (modPart s p f).imux = s.imux := rfl
@[simp] theorem flits_modPart (s : State) (p : Nat) (f : Part → Part) : (modPart s p f).flits = s.flits := rfl
@[simp] theorem wins_modPart (s : State) (p : Nat) (f : Part → Part) : (modPart s p f).wins = s.wins := rfl
@[simp] theorem keys_modPart (s : State) (p : Nat) (f : Part → Part) : (modPart s p f).keys = s.keys := rfl
@[simp] theorem keyOwner_modPart (s : State) (p : Nat) (f : Part → Part) : (modPart s p f).keyOwner = s.keyOwner := rfl
@[simp] theorem quarterOwner_modPart (s : State) (p : Nat) (f : Part → Part) : (modPart s p f).quarterOwner = s.quarterOwner := rfl
@[simp] theorem queues_modPart (s : State) (p : Nat) (f : Part → Part) : (modPart s p f).queues = s.queues := rfl
@[simp] theorem tasks_modPart (s : State) (p : Nat) (f : Part → Part) : (modPart s p f).tasks = s.tasks := rfl
@[simp] theorem xfers_modPart (s : State) (p : Nat) (f : Part → Part) : (modPart s p f).xfers = s.xfers := rfl
@[simp] theorem migCount_modPart (s : State) (p : Nat) (f : Part → Part) : (modPart s p f).migCount = s.migCount := rfl
@[simp] theorem pageKeys_modPart (s : State) (p : Nat) (f : Part → Part) : (modPart s p f).pageKeys = s.pageKeys := rfl
@[simp] theorem window_modPart (s : State) (p : Nat) (f : Part → Part) : (modPart s p f).window = s.window := rfl
@[simp] theorem cur_modPart (s : State) (p : Nat) (f : Part → Part) : (modPart s p f).cur = s.cur := rfl
@[simp] theorem cell_modPart (s : State) (p : Nat) (f : Part → Part) : (modPart s p f).cell = s.cell := rfl
@[simp] theorem bun_modPart (s : State) (p : Nat) (f : Part → Part) : (modPart s p f).bun = s.bun := rfl
@[simp] theorem ev_modPart (s : State) (p : Nat) (f : Part → Part) : (modPart s p f).ev = s.ev := rfl
@[simp] theorem free_modPart (s : State) (p : Nat) (f : Part → Part) : (modPart s p f).free = s.free := rfl
@[simp] theorem inputs_modPart (s : State) (p : Nat) (f : Part → Part) : (modPart s p f).inputs = s.inputs := rfl
@[simp] theorem mctp_modPart (s : State) (p : Nat) (f : Part → Part) : (modPart s p f).mctp = s.mctp := rfl
@[simp] theorem turn_modPart (s : State) (p : Nat) (f : Part → Part) : (modPart s p f).turn = s.turn := rfl
@[simp] theorem served_modPart (s : State) (p : Nat) (f : Part → Part) : (modPart s p f).served = s.served := rfl

/-! ## setFrag -/

@[simp] theorem cyc_setFrag (s : State) (n c : Nat) (f : Frag) : (setFrag s n c f).cyc = s.cyc := rfl
@[simp] theorem pkg_setFrag (s : State) (n c : Nat) (f : Frag) : (setFrag s n c f).pkg = s.pkg := rfl
@[simp] theorem admin_setFrag (s : State) (n c : Nat) (f : Frag) : (setFrag s n c f).admin = s.admin := rfl
@[simp] theorem mem_setFrag (s : State) (n c : Nat) (f : Frag) : (setFrag s n c f).mem = s.mem := rfl
@[simp] theorem poison_setFrag (s : State) (n c : Nat) (f : Frag) : (setFrag s n c f).poison = s.poison := rfl
@[simp] theorem ecc_setFrag (s : State) (n c : Nat) (f : Frag) : (setFrag s n c f).ecc = s.ecc := rfl
@[simp] theorem full_setFrag (s : State) (n c : Nat) (f : Frag) : (setFrag s n c f).full = s.full := rfl
@[simp] theorem arrs_setFrag (s : State) (n c : Nat) (f : Frag) : (setFrag s n c f).arrs = s.arrs := rfl
@[simp] theorem dieTlb_setFrag (s : State) (n c : Nat) (f : Frag) : (setFrag s n c f).dieTlb = s.dieTlb := rfl
@[simp] theorem sides_setFrag (s : State) (n c : Nat) (f : Frag) : (setFrag s n c f).sides = s.sides := rfl
@[simp] theorem flags_setFrag (s : State) (n c : Nat) (f : Frag) : (setFrag s n c f).flags = s.flags := rfl
@[simp] theorem gens_setFrag (s : State) (n c : Nat) (f : Frag) : (setFrag s n c f).gens = s.gens := rfl
@[simp] theorem ages_setFrag (s : State) (n c : Nat) (f : Frag) : (setFrag s n c f).ages = s.ages := rfl
@[simp] theorem chist_setFrag (s : State) (n c : Nat) (f : Frag) : (setFrag s n c f).chist = s.chist := rfl
@[simp] theorem pram_setFrag (s : State) (n c : Nat) (f : Frag) : (setFrag s n c f).pram = s.pram := rfl
@[simp] theorem mp_setFrag (s : State) (n c : Nat) (f : Frag) : (setFrag s n c f).mp = s.mp := rfl
@[simp] theorem mapBase_setFrag (s : State) (n c : Nat) (f : Frag) : (setFrag s n c f).mapBase = s.mapBase := rfl
@[simp] theorem cellEcc_setFrag (s : State) (n c : Nat) (f : Frag) : (setFrag s n c f).cellEcc = s.cellEcc := rfl
@[simp] theorem cellPoison_setFrag (s : State) (n c : Nat) (f : Frag) : (setFrag s n c f).cellPoison = s.cellPoison := rfl
@[simp] theorem tiles_setFrag (s : State) (n c : Nat) (f : Frag) : (setFrag s n c f).tiles = s.tiles := rfl
@[simp] theorem groups_setFrag (s : State) (n c : Nat) (f : Frag) : (setFrag s n c f).groups = s.groups := rfl
@[simp] theorem waiters_setFrag (s : State) (n c : Nat) (f : Frag) : (setFrag s n c f).waiters = s.waiters := rfl
@[simp] theorem quotas_setFrag (s : State) (n c : Nat) (f : Frag) : (setFrag s n c f).quotas = s.quotas := rfl
@[simp] theorem acnt_setFrag (s : State) (n c : Nat) (f : Frag) : (setFrag s n c f).acnt = s.acnt := rfl
@[simp] theorem accDue_setFrag (s : State) (n c : Nat) (f : Frag) : (setFrag s n c f).accDue = s.accDue := rfl
@[simp] theorem homeFlags_setFrag (s : State) (n c : Nat) (f : Frag) : (setFrag s n c f).homeFlags = s.homeFlags := rfl
@[simp] theorem bankFlags_setFrag (s : State) (n c : Nat) (f : Frag) : (setFrag s n c f).bankFlags = s.bankFlags := rfl
@[simp] theorem homeLog_setFrag (s : State) (n c : Nat) (f : Frag) : (setFrag s n c f).homeLog = s.homeLog := rfl
@[simp] theorem errs_setFrag (s : State) (n c : Nat) (f : Frag) : (setFrag s n c f).errs = s.errs := rfl
@[simp] theorem waymask_setFrag (s : State) (n c : Nat) (f : Frag) : (setFrag s n c f).waymask = s.waymask := rfl
@[simp] theorem slices_setFrag (s : State) (n c : Nat) (f : Frag) : (setFrag s n c f).slices = s.slices := rfl
@[simp] theorem stale_setFrag (s : State) (n c : Nat) (f : Frag) : (setFrag s n c f).stale = s.stale := rfl
@[simp] theorem hbm_setFrag (s : State) (n c : Nat) (f : Frag) : (setFrag s n c f).hbm = s.hbm := rfl
@[simp] theorem netRes_setFrag (s : State) (n c : Nat) (f : Frag) : (setFrag s n c f).netRes = s.netRes := rfl
@[simp] theorem hbmRes_setFrag (s : State) (n c : Nat) (f : Frag) : (setFrag s n c f).hbmRes = s.hbmRes := rfl
@[simp] theorem imux_setFrag (s : State) (n c : Nat) (f : Frag) : (setFrag s n c f).imux = s.imux := rfl
@[simp] theorem flits_setFrag (s : State) (n c : Nat) (f : Frag) : (setFrag s n c f).flits = s.flits := rfl
@[simp] theorem wins_setFrag (s : State) (n c : Nat) (f : Frag) : (setFrag s n c f).wins = s.wins := rfl
@[simp] theorem keys_setFrag (s : State) (n c : Nat) (f : Frag) : (setFrag s n c f).keys = s.keys := rfl
@[simp] theorem keyOwner_setFrag (s : State) (n c : Nat) (f : Frag) : (setFrag s n c f).keyOwner = s.keyOwner := rfl
@[simp] theorem quarterOwner_setFrag (s : State) (n c : Nat) (f : Frag) : (setFrag s n c f).quarterOwner = s.quarterOwner := rfl
@[simp] theorem parts_setFrag (s : State) (n c : Nat) (f : Frag) : (setFrag s n c f).parts = s.parts := rfl
@[simp] theorem queues_setFrag (s : State) (n c : Nat) (f : Frag) : (setFrag s n c f).queues = s.queues := rfl
@[simp] theorem tasks_setFrag (s : State) (n c : Nat) (f : Frag) : (setFrag s n c f).tasks = s.tasks := rfl
@[simp] theorem xfers_setFrag (s : State) (n c : Nat) (f : Frag) : (setFrag s n c f).xfers = s.xfers := rfl
@[simp] theorem migCount_setFrag (s : State) (n c : Nat) (f : Frag) : (setFrag s n c f).migCount = s.migCount := rfl
@[simp] theorem pageKeys_setFrag (s : State) (n c : Nat) (f : Frag) : (setFrag s n c f).pageKeys = s.pageKeys := rfl
@[simp] theorem window_setFrag (s : State) (n c : Nat) (f : Frag) : (setFrag s n c f).window = s.window := rfl
@[simp] theorem cur_setFrag (s : State) (n c : Nat) (f : Frag) : (setFrag s n c f).cur = s.cur := rfl
@[simp] theorem cell_setFrag (s : State) (n c : Nat) (f : Frag) : (setFrag s n c f).cell = s.cell := rfl
@[simp] theorem bun_setFrag (s : State) (n c : Nat) (f : Frag) : (setFrag s n c f).bun = s.bun := rfl
@[simp] theorem ev_setFrag (s : State) (n c : Nat) (f : Frag) : (setFrag s n c f).ev = s.ev := rfl
@[simp] theorem free_setFrag (s : State) (n c : Nat) (f : Frag) : (setFrag s n c f).free = s.free := rfl
@[simp] theorem inputs_setFrag (s : State) (n c : Nat) (f : Frag) : (setFrag s n c f).inputs = s.inputs := rfl
@[simp] theorem mctp_setFrag (s : State) (n c : Nat) (f : Frag) : (setFrag s n c f).mctp = s.mctp := rfl
@[simp] theorem turn_setFrag (s : State) (n c : Nat) (f : Frag) : (setFrag s n c f).turn = s.turn := rfl
@[simp] theorem served_setFrag (s : State) (n c : Nat) (f : Frag) : (setFrag s n c f).served = s.served := rfl

/-! ## setSide -/

@[simp] theorem cyc_setSide (s : State) (n c : Nat) (x : Side) : (setSide s n c x).cyc = s.cyc := rfl
@[simp] theorem pkg_setSide (s : State) (n c : Nat) (x : Side) : (setSide s n c x).pkg = s.pkg := rfl
@[simp] theorem admin_setSide (s : State) (n c : Nat) (x : Side) : (setSide s n c x).admin = s.admin := rfl
@[simp] theorem mem_setSide (s : State) (n c : Nat) (x : Side) : (setSide s n c x).mem = s.mem := rfl
@[simp] theorem poison_setSide (s : State) (n c : Nat) (x : Side) : (setSide s n c x).poison = s.poison := rfl
@[simp] theorem ecc_setSide (s : State) (n c : Nat) (x : Side) : (setSide s n c x).ecc = s.ecc := rfl
@[simp] theorem full_setSide (s : State) (n c : Nat) (x : Side) : (setSide s n c x).full = s.full := rfl
@[simp] theorem arrs_setSide (s : State) (n c : Nat) (x : Side) : (setSide s n c x).arrs = s.arrs := rfl
@[simp] theorem dieTlb_setSide (s : State) (n c : Nat) (x : Side) : (setSide s n c x).dieTlb = s.dieTlb := rfl
@[simp] theorem frags_setSide (s : State) (n c : Nat) (x : Side) : (setSide s n c x).frags = s.frags := rfl
@[simp] theorem flags_setSide (s : State) (n c : Nat) (x : Side) : (setSide s n c x).flags = s.flags := rfl
@[simp] theorem gens_setSide (s : State) (n c : Nat) (x : Side) : (setSide s n c x).gens = s.gens := rfl
@[simp] theorem ages_setSide (s : State) (n c : Nat) (x : Side) : (setSide s n c x).ages = s.ages := rfl
@[simp] theorem chist_setSide (s : State) (n c : Nat) (x : Side) : (setSide s n c x).chist = s.chist := rfl
@[simp] theorem pram_setSide (s : State) (n c : Nat) (x : Side) : (setSide s n c x).pram = s.pram := rfl
@[simp] theorem mp_setSide (s : State) (n c : Nat) (x : Side) : (setSide s n c x).mp = s.mp := rfl
@[simp] theorem mapBase_setSide (s : State) (n c : Nat) (x : Side) : (setSide s n c x).mapBase = s.mapBase := rfl
@[simp] theorem cellEcc_setSide (s : State) (n c : Nat) (x : Side) : (setSide s n c x).cellEcc = s.cellEcc := rfl
@[simp] theorem cellPoison_setSide (s : State) (n c : Nat) (x : Side) : (setSide s n c x).cellPoison = s.cellPoison := rfl
@[simp] theorem tiles_setSide (s : State) (n c : Nat) (x : Side) : (setSide s n c x).tiles = s.tiles := rfl
@[simp] theorem groups_setSide (s : State) (n c : Nat) (x : Side) : (setSide s n c x).groups = s.groups := rfl
@[simp] theorem waiters_setSide (s : State) (n c : Nat) (x : Side) : (setSide s n c x).waiters = s.waiters := rfl
@[simp] theorem quotas_setSide (s : State) (n c : Nat) (x : Side) : (setSide s n c x).quotas = s.quotas := rfl
@[simp] theorem acnt_setSide (s : State) (n c : Nat) (x : Side) : (setSide s n c x).acnt = s.acnt := rfl
@[simp] theorem accDue_setSide (s : State) (n c : Nat) (x : Side) : (setSide s n c x).accDue = s.accDue := rfl
@[simp] theorem homeFlags_setSide (s : State) (n c : Nat) (x : Side) : (setSide s n c x).homeFlags = s.homeFlags := rfl
@[simp] theorem bankFlags_setSide (s : State) (n c : Nat) (x : Side) : (setSide s n c x).bankFlags = s.bankFlags := rfl
@[simp] theorem homeLog_setSide (s : State) (n c : Nat) (x : Side) : (setSide s n c x).homeLog = s.homeLog := rfl
@[simp] theorem errs_setSide (s : State) (n c : Nat) (x : Side) : (setSide s n c x).errs = s.errs := rfl
@[simp] theorem waymask_setSide (s : State) (n c : Nat) (x : Side) : (setSide s n c x).waymask = s.waymask := rfl
@[simp] theorem slices_setSide (s : State) (n c : Nat) (x : Side) : (setSide s n c x).slices = s.slices := rfl
@[simp] theorem stale_setSide (s : State) (n c : Nat) (x : Side) : (setSide s n c x).stale = s.stale := rfl
@[simp] theorem hbm_setSide (s : State) (n c : Nat) (x : Side) : (setSide s n c x).hbm = s.hbm := rfl
@[simp] theorem netRes_setSide (s : State) (n c : Nat) (x : Side) : (setSide s n c x).netRes = s.netRes := rfl
@[simp] theorem hbmRes_setSide (s : State) (n c : Nat) (x : Side) : (setSide s n c x).hbmRes = s.hbmRes := rfl
@[simp] theorem imux_setSide (s : State) (n c : Nat) (x : Side) : (setSide s n c x).imux = s.imux := rfl
@[simp] theorem flits_setSide (s : State) (n c : Nat) (x : Side) : (setSide s n c x).flits = s.flits := rfl
@[simp] theorem wins_setSide (s : State) (n c : Nat) (x : Side) : (setSide s n c x).wins = s.wins := rfl
@[simp] theorem keys_setSide (s : State) (n c : Nat) (x : Side) : (setSide s n c x).keys = s.keys := rfl
@[simp] theorem keyOwner_setSide (s : State) (n c : Nat) (x : Side) : (setSide s n c x).keyOwner = s.keyOwner := rfl
@[simp] theorem quarterOwner_setSide (s : State) (n c : Nat) (x : Side) : (setSide s n c x).quarterOwner = s.quarterOwner := rfl
@[simp] theorem parts_setSide (s : State) (n c : Nat) (x : Side) : (setSide s n c x).parts = s.parts := rfl
@[simp] theorem queues_setSide (s : State) (n c : Nat) (x : Side) : (setSide s n c x).queues = s.queues := rfl
@[simp] theorem tasks_setSide (s : State) (n c : Nat) (x : Side) : (setSide s n c x).tasks = s.tasks := rfl
@[simp] theorem xfers_setSide (s : State) (n c : Nat) (x : Side) : (setSide s n c x).xfers = s.xfers := rfl
@[simp] theorem migCount_setSide (s : State) (n c : Nat) (x : Side) : (setSide s n c x).migCount = s.migCount := rfl
@[simp] theorem pageKeys_setSide (s : State) (n c : Nat) (x : Side) : (setSide s n c x).pageKeys = s.pageKeys := rfl
@[simp] theorem window_setSide (s : State) (n c : Nat) (x : Side) : (setSide s n c x).window = s.window := rfl
@[simp] theorem cur_setSide (s : State) (n c : Nat) (x : Side) : (setSide s n c x).cur = s.cur := rfl
@[simp] theorem cell_setSide (s : State) (n c : Nat) (x : Side) : (setSide s n c x).cell = s.cell := rfl
@[simp] theorem bun_setSide (s : State) (n c : Nat) (x : Side) : (setSide s n c x).bun = s.bun := rfl
@[simp] theorem ev_setSide (s : State) (n c : Nat) (x : Side) : (setSide s n c x).ev = s.ev := rfl
@[simp] theorem free_setSide (s : State) (n c : Nat) (x : Side) : (setSide s n c x).free = s.free := rfl
@[simp] theorem inputs_setSide (s : State) (n c : Nat) (x : Side) : (setSide s n c x).inputs = s.inputs := rfl
@[simp] theorem mctp_setSide (s : State) (n c : Nat) (x : Side) : (setSide s n c x).mctp = s.mctp := rfl
@[simp] theorem turn_setSide (s : State) (n c : Nat) (x : Side) : (setSide s n c x).turn = s.turn := rfl
@[simp] theorem served_setSide (s : State) (n c : Nat) (x : Side) : (setSide s n c x).served = s.served := rfl

/-! ## setF -/

@[simp] theorem cyc_setF (s : State) (n : Nat) (x : Word) : (setF s n x).cyc = s.cyc := rfl
@[simp] theorem pkg_setF (s : State) (n : Nat) (x : Word) : (setF s n x).pkg = s.pkg := rfl
@[simp] theorem admin_setF (s : State) (n : Nat) (x : Word) : (setF s n x).admin = s.admin := rfl
@[simp] theorem mem_setF (s : State) (n : Nat) (x : Word) : (setF s n x).mem = s.mem := rfl
@[simp] theorem poison_setF (s : State) (n : Nat) (x : Word) : (setF s n x).poison = s.poison := rfl
@[simp] theorem ecc_setF (s : State) (n : Nat) (x : Word) : (setF s n x).ecc = s.ecc := rfl
@[simp] theorem full_setF (s : State) (n : Nat) (x : Word) : (setF s n x).full = s.full := rfl
@[simp] theorem arrs_setF (s : State) (n : Nat) (x : Word) : (setF s n x).arrs = s.arrs := rfl
@[simp] theorem dieTlb_setF (s : State) (n : Nat) (x : Word) : (setF s n x).dieTlb = s.dieTlb := rfl
@[simp] theorem frags_setF (s : State) (n : Nat) (x : Word) : (setF s n x).frags = s.frags := rfl
@[simp] theorem sides_setF (s : State) (n : Nat) (x : Word) : (setF s n x).sides = s.sides := rfl
@[simp] theorem gens_setF (s : State) (n : Nat) (x : Word) : (setF s n x).gens = s.gens := rfl
@[simp] theorem ages_setF (s : State) (n : Nat) (x : Word) : (setF s n x).ages = s.ages := rfl
@[simp] theorem chist_setF (s : State) (n : Nat) (x : Word) : (setF s n x).chist = s.chist := rfl
@[simp] theorem pram_setF (s : State) (n : Nat) (x : Word) : (setF s n x).pram = s.pram := rfl
@[simp] theorem mp_setF (s : State) (n : Nat) (x : Word) : (setF s n x).mp = s.mp := rfl
@[simp] theorem mapBase_setF (s : State) (n : Nat) (x : Word) : (setF s n x).mapBase = s.mapBase := rfl
@[simp] theorem cellEcc_setF (s : State) (n : Nat) (x : Word) : (setF s n x).cellEcc = s.cellEcc := rfl
@[simp] theorem cellPoison_setF (s : State) (n : Nat) (x : Word) : (setF s n x).cellPoison = s.cellPoison := rfl
@[simp] theorem tiles_setF (s : State) (n : Nat) (x : Word) : (setF s n x).tiles = s.tiles := rfl
@[simp] theorem groups_setF (s : State) (n : Nat) (x : Word) : (setF s n x).groups = s.groups := rfl
@[simp] theorem waiters_setF (s : State) (n : Nat) (x : Word) : (setF s n x).waiters = s.waiters := rfl
@[simp] theorem quotas_setF (s : State) (n : Nat) (x : Word) : (setF s n x).quotas = s.quotas := rfl
@[simp] theorem acnt_setF (s : State) (n : Nat) (x : Word) : (setF s n x).acnt = s.acnt := rfl
@[simp] theorem accDue_setF (s : State) (n : Nat) (x : Word) : (setF s n x).accDue = s.accDue := rfl
@[simp] theorem homeFlags_setF (s : State) (n : Nat) (x : Word) : (setF s n x).homeFlags = s.homeFlags := rfl
@[simp] theorem bankFlags_setF (s : State) (n : Nat) (x : Word) : (setF s n x).bankFlags = s.bankFlags := rfl
@[simp] theorem homeLog_setF (s : State) (n : Nat) (x : Word) : (setF s n x).homeLog = s.homeLog := rfl
@[simp] theorem errs_setF (s : State) (n : Nat) (x : Word) : (setF s n x).errs = s.errs := rfl
@[simp] theorem waymask_setF (s : State) (n : Nat) (x : Word) : (setF s n x).waymask = s.waymask := rfl
@[simp] theorem slices_setF (s : State) (n : Nat) (x : Word) : (setF s n x).slices = s.slices := rfl
@[simp] theorem stale_setF (s : State) (n : Nat) (x : Word) : (setF s n x).stale = s.stale := rfl
@[simp] theorem hbm_setF (s : State) (n : Nat) (x : Word) : (setF s n x).hbm = s.hbm := rfl
@[simp] theorem netRes_setF (s : State) (n : Nat) (x : Word) : (setF s n x).netRes = s.netRes := rfl
@[simp] theorem hbmRes_setF (s : State) (n : Nat) (x : Word) : (setF s n x).hbmRes = s.hbmRes := rfl
@[simp] theorem imux_setF (s : State) (n : Nat) (x : Word) : (setF s n x).imux = s.imux := rfl
@[simp] theorem flits_setF (s : State) (n : Nat) (x : Word) : (setF s n x).flits = s.flits := rfl
@[simp] theorem wins_setF (s : State) (n : Nat) (x : Word) : (setF s n x).wins = s.wins := rfl
@[simp] theorem keys_setF (s : State) (n : Nat) (x : Word) : (setF s n x).keys = s.keys := rfl
@[simp] theorem keyOwner_setF (s : State) (n : Nat) (x : Word) : (setF s n x).keyOwner = s.keyOwner := rfl
@[simp] theorem quarterOwner_setF (s : State) (n : Nat) (x : Word) : (setF s n x).quarterOwner = s.quarterOwner := rfl
@[simp] theorem parts_setF (s : State) (n : Nat) (x : Word) : (setF s n x).parts = s.parts := rfl
@[simp] theorem queues_setF (s : State) (n : Nat) (x : Word) : (setF s n x).queues = s.queues := rfl
@[simp] theorem tasks_setF (s : State) (n : Nat) (x : Word) : (setF s n x).tasks = s.tasks := rfl
@[simp] theorem xfers_setF (s : State) (n : Nat) (x : Word) : (setF s n x).xfers = s.xfers := rfl
@[simp] theorem migCount_setF (s : State) (n : Nat) (x : Word) : (setF s n x).migCount = s.migCount := rfl
@[simp] theorem pageKeys_setF (s : State) (n : Nat) (x : Word) : (setF s n x).pageKeys = s.pageKeys := rfl
@[simp] theorem window_setF (s : State) (n : Nat) (x : Word) : (setF s n x).window = s.window := rfl
@[simp] theorem cur_setF (s : State) (n : Nat) (x : Word) : (setF s n x).cur = s.cur := rfl
@[simp] theorem cell_setF (s : State) (n : Nat) (x : Word) : (setF s n x).cell = s.cell := rfl
@[simp] theorem bun_setF (s : State) (n : Nat) (x : Word) : (setF s n x).bun = s.bun := rfl
@[simp] theorem ev_setF (s : State) (n : Nat) (x : Word) : (setF s n x).ev = s.ev := rfl
@[simp] theorem free_setF (s : State) (n : Nat) (x : Word) : (setF s n x).free = s.free := rfl
@[simp] theorem inputs_setF (s : State) (n : Nat) (x : Word) : (setF s n x).inputs = s.inputs := rfl
@[simp] theorem mctp_setF (s : State) (n : Nat) (x : Word) : (setF s n x).mctp = s.mctp := rfl
@[simp] theorem turn_setF (s : State) (n : Nat) (x : Word) : (setF s n x).turn = s.turn := rfl
@[simp] theorem served_setF (s : State) (n : Nat) (x : Word) : (setF s n x).served = s.served := rfl

/-! ## setG -/

@[simp] theorem cyc_setG (s : State) (n : Nat) (x : BitVec 32) : (setG s n x).cyc = s.cyc := rfl
@[simp] theorem pkg_setG (s : State) (n : Nat) (x : BitVec 32) : (setG s n x).pkg = s.pkg := rfl
@[simp] theorem admin_setG (s : State) (n : Nat) (x : BitVec 32) : (setG s n x).admin = s.admin := rfl
@[simp] theorem mem_setG (s : State) (n : Nat) (x : BitVec 32) : (setG s n x).mem = s.mem := rfl
@[simp] theorem poison_setG (s : State) (n : Nat) (x : BitVec 32) : (setG s n x).poison = s.poison := rfl
@[simp] theorem ecc_setG (s : State) (n : Nat) (x : BitVec 32) : (setG s n x).ecc = s.ecc := rfl
@[simp] theorem full_setG (s : State) (n : Nat) (x : BitVec 32) : (setG s n x).full = s.full := rfl
@[simp] theorem arrs_setG (s : State) (n : Nat) (x : BitVec 32) : (setG s n x).arrs = s.arrs := rfl
@[simp] theorem dieTlb_setG (s : State) (n : Nat) (x : BitVec 32) : (setG s n x).dieTlb = s.dieTlb := rfl
@[simp] theorem frags_setG (s : State) (n : Nat) (x : BitVec 32) : (setG s n x).frags = s.frags := rfl
@[simp] theorem sides_setG (s : State) (n : Nat) (x : BitVec 32) : (setG s n x).sides = s.sides := rfl
@[simp] theorem flags_setG (s : State) (n : Nat) (x : BitVec 32) : (setG s n x).flags = s.flags := rfl
@[simp] theorem ages_setG (s : State) (n : Nat) (x : BitVec 32) : (setG s n x).ages = s.ages := rfl
@[simp] theorem chist_setG (s : State) (n : Nat) (x : BitVec 32) : (setG s n x).chist = s.chist := rfl
@[simp] theorem pram_setG (s : State) (n : Nat) (x : BitVec 32) : (setG s n x).pram = s.pram := rfl
@[simp] theorem mp_setG (s : State) (n : Nat) (x : BitVec 32) : (setG s n x).mp = s.mp := rfl
@[simp] theorem mapBase_setG (s : State) (n : Nat) (x : BitVec 32) : (setG s n x).mapBase = s.mapBase := rfl
@[simp] theorem cellEcc_setG (s : State) (n : Nat) (x : BitVec 32) : (setG s n x).cellEcc = s.cellEcc := rfl
@[simp] theorem cellPoison_setG (s : State) (n : Nat) (x : BitVec 32) : (setG s n x).cellPoison = s.cellPoison := rfl
@[simp] theorem tiles_setG (s : State) (n : Nat) (x : BitVec 32) : (setG s n x).tiles = s.tiles := rfl
@[simp] theorem groups_setG (s : State) (n : Nat) (x : BitVec 32) : (setG s n x).groups = s.groups := rfl
@[simp] theorem waiters_setG (s : State) (n : Nat) (x : BitVec 32) : (setG s n x).waiters = s.waiters := rfl
@[simp] theorem quotas_setG (s : State) (n : Nat) (x : BitVec 32) : (setG s n x).quotas = s.quotas := rfl
@[simp] theorem acnt_setG (s : State) (n : Nat) (x : BitVec 32) : (setG s n x).acnt = s.acnt := rfl
@[simp] theorem accDue_setG (s : State) (n : Nat) (x : BitVec 32) : (setG s n x).accDue = s.accDue := rfl
@[simp] theorem homeFlags_setG (s : State) (n : Nat) (x : BitVec 32) : (setG s n x).homeFlags = s.homeFlags := rfl
@[simp] theorem bankFlags_setG (s : State) (n : Nat) (x : BitVec 32) : (setG s n x).bankFlags = s.bankFlags := rfl
@[simp] theorem homeLog_setG (s : State) (n : Nat) (x : BitVec 32) : (setG s n x).homeLog = s.homeLog := rfl
@[simp] theorem errs_setG (s : State) (n : Nat) (x : BitVec 32) : (setG s n x).errs = s.errs := rfl
@[simp] theorem waymask_setG (s : State) (n : Nat) (x : BitVec 32) : (setG s n x).waymask = s.waymask := rfl
@[simp] theorem slices_setG (s : State) (n : Nat) (x : BitVec 32) : (setG s n x).slices = s.slices := rfl
@[simp] theorem stale_setG (s : State) (n : Nat) (x : BitVec 32) : (setG s n x).stale = s.stale := rfl
@[simp] theorem hbm_setG (s : State) (n : Nat) (x : BitVec 32) : (setG s n x).hbm = s.hbm := rfl
@[simp] theorem netRes_setG (s : State) (n : Nat) (x : BitVec 32) : (setG s n x).netRes = s.netRes := rfl
@[simp] theorem hbmRes_setG (s : State) (n : Nat) (x : BitVec 32) : (setG s n x).hbmRes = s.hbmRes := rfl
@[simp] theorem imux_setG (s : State) (n : Nat) (x : BitVec 32) : (setG s n x).imux = s.imux := rfl
@[simp] theorem flits_setG (s : State) (n : Nat) (x : BitVec 32) : (setG s n x).flits = s.flits := rfl
@[simp] theorem wins_setG (s : State) (n : Nat) (x : BitVec 32) : (setG s n x).wins = s.wins := rfl
@[simp] theorem keys_setG (s : State) (n : Nat) (x : BitVec 32) : (setG s n x).keys = s.keys := rfl
@[simp] theorem keyOwner_setG (s : State) (n : Nat) (x : BitVec 32) : (setG s n x).keyOwner = s.keyOwner := rfl
@[simp] theorem quarterOwner_setG (s : State) (n : Nat) (x : BitVec 32) : (setG s n x).quarterOwner = s.quarterOwner := rfl
@[simp] theorem parts_setG (s : State) (n : Nat) (x : BitVec 32) : (setG s n x).parts = s.parts := rfl
@[simp] theorem queues_setG (s : State) (n : Nat) (x : BitVec 32) : (setG s n x).queues = s.queues := rfl
@[simp] theorem tasks_setG (s : State) (n : Nat) (x : BitVec 32) : (setG s n x).tasks = s.tasks := rfl
@[simp] theorem xfers_setG (s : State) (n : Nat) (x : BitVec 32) : (setG s n x).xfers = s.xfers := rfl
@[simp] theorem migCount_setG (s : State) (n : Nat) (x : BitVec 32) : (setG s n x).migCount = s.migCount := rfl
@[simp] theorem pageKeys_setG (s : State) (n : Nat) (x : BitVec 32) : (setG s n x).pageKeys = s.pageKeys := rfl
@[simp] theorem window_setG (s : State) (n : Nat) (x : BitVec 32) : (setG s n x).window = s.window := rfl
@[simp] theorem cur_setG (s : State) (n : Nat) (x : BitVec 32) : (setG s n x).cur = s.cur := rfl
@[simp] theorem cell_setG (s : State) (n : Nat) (x : BitVec 32) : (setG s n x).cell = s.cell := rfl
@[simp] theorem bun_setG (s : State) (n : Nat) (x : BitVec 32) : (setG s n x).bun = s.bun := rfl
@[simp] theorem ev_setG (s : State) (n : Nat) (x : BitVec 32) : (setG s n x).ev = s.ev := rfl
@[simp] theorem free_setG (s : State) (n : Nat) (x : BitVec 32) : (setG s n x).free = s.free := rfl
@[simp] theorem inputs_setG (s : State) (n : Nat) (x : BitVec 32) : (setG s n x).inputs = s.inputs := rfl
@[simp] theorem mctp_setG (s : State) (n : Nat) (x : BitVec 32) : (setG s n x).mctp = s.mctp := rfl
@[simp] theorem turn_setG (s : State) (n : Nat) (x : BitVec 32) : (setG s n x).turn = s.turn := rfl
@[simp] theorem served_setG (s : State) (n : Nat) (x : BitVec 32) : (setG s n x).served = s.served := rfl

/-! ## setTile -/

@[simp] theorem cyc_setTile (s : State) (n : Nat) (t : Tile) : (setTile s n t).cyc = s.cyc := rfl
@[simp] theorem pkg_setTile (s : State) (n : Nat) (t : Tile) : (setTile s n t).pkg = s.pkg := rfl
@[simp] theorem admin_setTile (s : State) (n : Nat) (t : Tile) : (setTile s n t).admin = s.admin := rfl
@[simp] theorem mem_setTile (s : State) (n : Nat) (t : Tile) : (setTile s n t).mem = s.mem := rfl
@[simp] theorem poison_setTile (s : State) (n : Nat) (t : Tile) : (setTile s n t).poison = s.poison := rfl
@[simp] theorem ecc_setTile (s : State) (n : Nat) (t : Tile) : (setTile s n t).ecc = s.ecc := rfl
@[simp] theorem full_setTile (s : State) (n : Nat) (t : Tile) : (setTile s n t).full = s.full := rfl
@[simp] theorem arrs_setTile (s : State) (n : Nat) (t : Tile) : (setTile s n t).arrs = s.arrs := rfl
@[simp] theorem dieTlb_setTile (s : State) (n : Nat) (t : Tile) : (setTile s n t).dieTlb = s.dieTlb := rfl
@[simp] theorem frags_setTile (s : State) (n : Nat) (t : Tile) : (setTile s n t).frags = s.frags := rfl
@[simp] theorem sides_setTile (s : State) (n : Nat) (t : Tile) : (setTile s n t).sides = s.sides := rfl
@[simp] theorem flags_setTile (s : State) (n : Nat) (t : Tile) : (setTile s n t).flags = s.flags := rfl
@[simp] theorem gens_setTile (s : State) (n : Nat) (t : Tile) : (setTile s n t).gens = s.gens := rfl
@[simp] theorem ages_setTile (s : State) (n : Nat) (t : Tile) : (setTile s n t).ages = s.ages := rfl
@[simp] theorem chist_setTile (s : State) (n : Nat) (t : Tile) : (setTile s n t).chist = s.chist := rfl
@[simp] theorem pram_setTile (s : State) (n : Nat) (t : Tile) : (setTile s n t).pram = s.pram := rfl
@[simp] theorem mp_setTile (s : State) (n : Nat) (t : Tile) : (setTile s n t).mp = s.mp := rfl
@[simp] theorem mapBase_setTile (s : State) (n : Nat) (t : Tile) : (setTile s n t).mapBase = s.mapBase := rfl
@[simp] theorem cellEcc_setTile (s : State) (n : Nat) (t : Tile) : (setTile s n t).cellEcc = s.cellEcc := rfl
@[simp] theorem cellPoison_setTile (s : State) (n : Nat) (t : Tile) : (setTile s n t).cellPoison = s.cellPoison := rfl
@[simp] theorem groups_setTile (s : State) (n : Nat) (t : Tile) : (setTile s n t).groups = s.groups := rfl
@[simp] theorem waiters_setTile (s : State) (n : Nat) (t : Tile) : (setTile s n t).waiters = s.waiters := rfl
@[simp] theorem quotas_setTile (s : State) (n : Nat) (t : Tile) : (setTile s n t).quotas = s.quotas := rfl
@[simp] theorem acnt_setTile (s : State) (n : Nat) (t : Tile) : (setTile s n t).acnt = s.acnt := rfl
@[simp] theorem accDue_setTile (s : State) (n : Nat) (t : Tile) : (setTile s n t).accDue = s.accDue := rfl
@[simp] theorem homeFlags_setTile (s : State) (n : Nat) (t : Tile) : (setTile s n t).homeFlags = s.homeFlags := rfl
@[simp] theorem bankFlags_setTile (s : State) (n : Nat) (t : Tile) : (setTile s n t).bankFlags = s.bankFlags := rfl
@[simp] theorem homeLog_setTile (s : State) (n : Nat) (t : Tile) : (setTile s n t).homeLog = s.homeLog := rfl
@[simp] theorem errs_setTile (s : State) (n : Nat) (t : Tile) : (setTile s n t).errs = s.errs := rfl
@[simp] theorem waymask_setTile (s : State) (n : Nat) (t : Tile) : (setTile s n t).waymask = s.waymask := rfl
@[simp] theorem slices_setTile (s : State) (n : Nat) (t : Tile) : (setTile s n t).slices = s.slices := rfl
@[simp] theorem stale_setTile (s : State) (n : Nat) (t : Tile) : (setTile s n t).stale = s.stale := rfl
@[simp] theorem hbm_setTile (s : State) (n : Nat) (t : Tile) : (setTile s n t).hbm = s.hbm := rfl
@[simp] theorem netRes_setTile (s : State) (n : Nat) (t : Tile) : (setTile s n t).netRes = s.netRes := rfl
@[simp] theorem hbmRes_setTile (s : State) (n : Nat) (t : Tile) : (setTile s n t).hbmRes = s.hbmRes := rfl
@[simp] theorem imux_setTile (s : State) (n : Nat) (t : Tile) : (setTile s n t).imux = s.imux := rfl
@[simp] theorem flits_setTile (s : State) (n : Nat) (t : Tile) : (setTile s n t).flits = s.flits := rfl
@[simp] theorem wins_setTile (s : State) (n : Nat) (t : Tile) : (setTile s n t).wins = s.wins := rfl
@[simp] theorem keys_setTile (s : State) (n : Nat) (t : Tile) : (setTile s n t).keys = s.keys := rfl
@[simp] theorem keyOwner_setTile (s : State) (n : Nat) (t : Tile) : (setTile s n t).keyOwner = s.keyOwner := rfl
@[simp] theorem quarterOwner_setTile (s : State) (n : Nat) (t : Tile) : (setTile s n t).quarterOwner = s.quarterOwner := rfl
@[simp] theorem parts_setTile (s : State) (n : Nat) (t : Tile) : (setTile s n t).parts = s.parts := rfl
@[simp] theorem queues_setTile (s : State) (n : Nat) (t : Tile) : (setTile s n t).queues = s.queues := rfl
@[simp] theorem tasks_setTile (s : State) (n : Nat) (t : Tile) : (setTile s n t).tasks = s.tasks := rfl
@[simp] theorem xfers_setTile (s : State) (n : Nat) (t : Tile) : (setTile s n t).xfers = s.xfers := rfl
@[simp] theorem migCount_setTile (s : State) (n : Nat) (t : Tile) : (setTile s n t).migCount = s.migCount := rfl
@[simp] theorem pageKeys_setTile (s : State) (n : Nat) (t : Tile) : (setTile s n t).pageKeys = s.pageKeys := rfl
@[simp] theorem window_setTile (s : State) (n : Nat) (t : Tile) : (setTile s n t).window = s.window := rfl
@[simp] theorem cur_setTile (s : State) (n : Nat) (t : Tile) : (setTile s n t).cur = s.cur := rfl
@[simp] theorem cell_setTile (s : State) (n : Nat) (t : Tile) : (setTile s n t).cell = s.cell := rfl
@[simp] theorem bun_setTile (s : State) (n : Nat) (t : Tile) : (setTile s n t).bun = s.bun := rfl
@[simp] theorem ev_setTile (s : State) (n : Nat) (t : Tile) : (setTile s n t).ev = s.ev := rfl
@[simp] theorem free_setTile (s : State) (n : Nat) (t : Tile) : (setTile s n t).free = s.free := rfl
@[simp] theorem inputs_setTile (s : State) (n : Nat) (t : Tile) : (setTile s n t).inputs = s.inputs := rfl
@[simp] theorem mctp_setTile (s : State) (n : Nat) (t : Tile) : (setTile s n t).mctp = s.mctp := rfl
@[simp] theorem turn_setTile (s : State) (n : Nat) (t : Tile) : (setTile s n t).turn = s.turn := rfl
@[simp] theorem served_setTile (s : State) (n : Nat) (t : Tile) : (setTile s n t).served = s.served := rfl

/-! ## modTask -/

@[simp] theorem cyc_modTask (s : State) (i : Nat) (f : Task → Task) : (modTask s i f).cyc = s.cyc := rfl
@[simp] theorem pkg_modTask (s : State) (i : Nat) (f : Task → Task) : (modTask s i f).pkg = s.pkg := rfl
@[simp] theorem admin_modTask (s : State) (i : Nat) (f : Task → Task) : (modTask s i f).admin = s.admin := rfl
@[simp] theorem mem_modTask (s : State) (i : Nat) (f : Task → Task) : (modTask s i f).mem = s.mem := rfl
@[simp] theorem poison_modTask (s : State) (i : Nat) (f : Task → Task) : (modTask s i f).poison = s.poison := rfl
@[simp] theorem ecc_modTask (s : State) (i : Nat) (f : Task → Task) : (modTask s i f).ecc = s.ecc := rfl
@[simp] theorem full_modTask (s : State) (i : Nat) (f : Task → Task) : (modTask s i f).full = s.full := rfl
@[simp] theorem arrs_modTask (s : State) (i : Nat) (f : Task → Task) : (modTask s i f).arrs = s.arrs := rfl
@[simp] theorem dieTlb_modTask (s : State) (i : Nat) (f : Task → Task) : (modTask s i f).dieTlb = s.dieTlb := rfl
@[simp] theorem frags_modTask (s : State) (i : Nat) (f : Task → Task) : (modTask s i f).frags = s.frags := rfl
@[simp] theorem sides_modTask (s : State) (i : Nat) (f : Task → Task) : (modTask s i f).sides = s.sides := rfl
@[simp] theorem flags_modTask (s : State) (i : Nat) (f : Task → Task) : (modTask s i f).flags = s.flags := rfl
@[simp] theorem gens_modTask (s : State) (i : Nat) (f : Task → Task) : (modTask s i f).gens = s.gens := rfl
@[simp] theorem ages_modTask (s : State) (i : Nat) (f : Task → Task) : (modTask s i f).ages = s.ages := rfl
@[simp] theorem chist_modTask (s : State) (i : Nat) (f : Task → Task) : (modTask s i f).chist = s.chist := rfl
@[simp] theorem pram_modTask (s : State) (i : Nat) (f : Task → Task) : (modTask s i f).pram = s.pram := rfl
@[simp] theorem mp_modTask (s : State) (i : Nat) (f : Task → Task) : (modTask s i f).mp = s.mp := rfl
@[simp] theorem mapBase_modTask (s : State) (i : Nat) (f : Task → Task) : (modTask s i f).mapBase = s.mapBase := rfl
@[simp] theorem cellEcc_modTask (s : State) (i : Nat) (f : Task → Task) : (modTask s i f).cellEcc = s.cellEcc := rfl
@[simp] theorem cellPoison_modTask (s : State) (i : Nat) (f : Task → Task) : (modTask s i f).cellPoison = s.cellPoison := rfl
@[simp] theorem tiles_modTask (s : State) (i : Nat) (f : Task → Task) : (modTask s i f).tiles = s.tiles := rfl
@[simp] theorem groups_modTask (s : State) (i : Nat) (f : Task → Task) : (modTask s i f).groups = s.groups := rfl
@[simp] theorem waiters_modTask (s : State) (i : Nat) (f : Task → Task) : (modTask s i f).waiters = s.waiters := rfl
@[simp] theorem quotas_modTask (s : State) (i : Nat) (f : Task → Task) : (modTask s i f).quotas = s.quotas := rfl
@[simp] theorem acnt_modTask (s : State) (i : Nat) (f : Task → Task) : (modTask s i f).acnt = s.acnt := rfl
@[simp] theorem accDue_modTask (s : State) (i : Nat) (f : Task → Task) : (modTask s i f).accDue = s.accDue := rfl
@[simp] theorem homeFlags_modTask (s : State) (i : Nat) (f : Task → Task) : (modTask s i f).homeFlags = s.homeFlags := rfl
@[simp] theorem bankFlags_modTask (s : State) (i : Nat) (f : Task → Task) : (modTask s i f).bankFlags = s.bankFlags := rfl
@[simp] theorem homeLog_modTask (s : State) (i : Nat) (f : Task → Task) : (modTask s i f).homeLog = s.homeLog := rfl
@[simp] theorem errs_modTask (s : State) (i : Nat) (f : Task → Task) : (modTask s i f).errs = s.errs := rfl
@[simp] theorem waymask_modTask (s : State) (i : Nat) (f : Task → Task) : (modTask s i f).waymask = s.waymask := rfl
@[simp] theorem slices_modTask (s : State) (i : Nat) (f : Task → Task) : (modTask s i f).slices = s.slices := rfl
@[simp] theorem stale_modTask (s : State) (i : Nat) (f : Task → Task) : (modTask s i f).stale = s.stale := rfl
@[simp] theorem hbm_modTask (s : State) (i : Nat) (f : Task → Task) : (modTask s i f).hbm = s.hbm := rfl
@[simp] theorem netRes_modTask (s : State) (i : Nat) (f : Task → Task) : (modTask s i f).netRes = s.netRes := rfl
@[simp] theorem hbmRes_modTask (s : State) (i : Nat) (f : Task → Task) : (modTask s i f).hbmRes = s.hbmRes := rfl
@[simp] theorem imux_modTask (s : State) (i : Nat) (f : Task → Task) : (modTask s i f).imux = s.imux := rfl
@[simp] theorem flits_modTask (s : State) (i : Nat) (f : Task → Task) : (modTask s i f).flits = s.flits := rfl
@[simp] theorem wins_modTask (s : State) (i : Nat) (f : Task → Task) : (modTask s i f).wins = s.wins := rfl
@[simp] theorem keys_modTask (s : State) (i : Nat) (f : Task → Task) : (modTask s i f).keys = s.keys := rfl
@[simp] theorem keyOwner_modTask (s : State) (i : Nat) (f : Task → Task) : (modTask s i f).keyOwner = s.keyOwner := rfl
@[simp] theorem quarterOwner_modTask (s : State) (i : Nat) (f : Task → Task) : (modTask s i f).quarterOwner = s.quarterOwner := rfl
@[simp] theorem parts_modTask (s : State) (i : Nat) (f : Task → Task) : (modTask s i f).parts = s.parts := rfl
@[simp] theorem queues_modTask (s : State) (i : Nat) (f : Task → Task) : (modTask s i f).queues = s.queues := rfl
@[simp] theorem xfers_modTask (s : State) (i : Nat) (f : Task → Task) : (modTask s i f).xfers = s.xfers := rfl
@[simp] theorem migCount_modTask (s : State) (i : Nat) (f : Task → Task) : (modTask s i f).migCount = s.migCount := rfl
@[simp] theorem pageKeys_modTask (s : State) (i : Nat) (f : Task → Task) : (modTask s i f).pageKeys = s.pageKeys := rfl
@[simp] theorem window_modTask (s : State) (i : Nat) (f : Task → Task) : (modTask s i f).window = s.window := rfl
@[simp] theorem cur_modTask (s : State) (i : Nat) (f : Task → Task) : (modTask s i f).cur = s.cur := rfl
@[simp] theorem cell_modTask (s : State) (i : Nat) (f : Task → Task) : (modTask s i f).cell = s.cell := rfl
@[simp] theorem bun_modTask (s : State) (i : Nat) (f : Task → Task) : (modTask s i f).bun = s.bun := rfl
@[simp] theorem ev_modTask (s : State) (i : Nat) (f : Task → Task) : (modTask s i f).ev = s.ev := rfl
@[simp] theorem free_modTask (s : State) (i : Nat) (f : Task → Task) : (modTask s i f).free = s.free := rfl
@[simp] theorem inputs_modTask (s : State) (i : Nat) (f : Task → Task) : (modTask s i f).inputs = s.inputs := rfl
@[simp] theorem mctp_modTask (s : State) (i : Nat) (f : Task → Task) : (modTask s i f).mctp = s.mctp := rfl
@[simp] theorem turn_modTask (s : State) (i : Nat) (f : Task → Task) : (modTask s i f).turn = s.turn := rfl
@[simp] theorem served_modTask (s : State) (i : Nat) (f : Task → Task) : (modTask s i f).served = s.served := rfl

/-! ## modQueue -/

@[simp] theorem cyc_modQueue (s : State) (q : Nat) (f : Queue → Queue) : (modQueue s q f).cyc = s.cyc := rfl
@[simp] theorem pkg_modQueue (s : State) (q : Nat) (f : Queue → Queue) : (modQueue s q f).pkg = s.pkg := rfl
@[simp] theorem admin_modQueue (s : State) (q : Nat) (f : Queue → Queue) : (modQueue s q f).admin = s.admin := rfl
@[simp] theorem mem_modQueue (s : State) (q : Nat) (f : Queue → Queue) : (modQueue s q f).mem = s.mem := rfl
@[simp] theorem poison_modQueue (s : State) (q : Nat) (f : Queue → Queue) : (modQueue s q f).poison = s.poison := rfl
@[simp] theorem ecc_modQueue (s : State) (q : Nat) (f : Queue → Queue) : (modQueue s q f).ecc = s.ecc := rfl
@[simp] theorem full_modQueue (s : State) (q : Nat) (f : Queue → Queue) : (modQueue s q f).full = s.full := rfl
@[simp] theorem arrs_modQueue (s : State) (q : Nat) (f : Queue → Queue) : (modQueue s q f).arrs = s.arrs := rfl
@[simp] theorem dieTlb_modQueue (s : State) (q : Nat) (f : Queue → Queue) : (modQueue s q f).dieTlb = s.dieTlb := rfl
@[simp] theorem frags_modQueue (s : State) (q : Nat) (f : Queue → Queue) : (modQueue s q f).frags = s.frags := rfl
@[simp] theorem sides_modQueue (s : State) (q : Nat) (f : Queue → Queue) : (modQueue s q f).sides = s.sides := rfl
@[simp] theorem flags_modQueue (s : State) (q : Nat) (f : Queue → Queue) : (modQueue s q f).flags = s.flags := rfl
@[simp] theorem gens_modQueue (s : State) (q : Nat) (f : Queue → Queue) : (modQueue s q f).gens = s.gens := rfl
@[simp] theorem ages_modQueue (s : State) (q : Nat) (f : Queue → Queue) : (modQueue s q f).ages = s.ages := rfl
@[simp] theorem chist_modQueue (s : State) (q : Nat) (f : Queue → Queue) : (modQueue s q f).chist = s.chist := rfl
@[simp] theorem pram_modQueue (s : State) (q : Nat) (f : Queue → Queue) : (modQueue s q f).pram = s.pram := rfl
@[simp] theorem mp_modQueue (s : State) (q : Nat) (f : Queue → Queue) : (modQueue s q f).mp = s.mp := rfl
@[simp] theorem mapBase_modQueue (s : State) (q : Nat) (f : Queue → Queue) : (modQueue s q f).mapBase = s.mapBase := rfl
@[simp] theorem cellEcc_modQueue (s : State) (q : Nat) (f : Queue → Queue) : (modQueue s q f).cellEcc = s.cellEcc := rfl
@[simp] theorem cellPoison_modQueue (s : State) (q : Nat) (f : Queue → Queue) : (modQueue s q f).cellPoison = s.cellPoison := rfl
@[simp] theorem tiles_modQueue (s : State) (q : Nat) (f : Queue → Queue) : (modQueue s q f).tiles = s.tiles := rfl
@[simp] theorem groups_modQueue (s : State) (q : Nat) (f : Queue → Queue) : (modQueue s q f).groups = s.groups := rfl
@[simp] theorem waiters_modQueue (s : State) (q : Nat) (f : Queue → Queue) : (modQueue s q f).waiters = s.waiters := rfl
@[simp] theorem quotas_modQueue (s : State) (q : Nat) (f : Queue → Queue) : (modQueue s q f).quotas = s.quotas := rfl
@[simp] theorem acnt_modQueue (s : State) (q : Nat) (f : Queue → Queue) : (modQueue s q f).acnt = s.acnt := rfl
@[simp] theorem accDue_modQueue (s : State) (q : Nat) (f : Queue → Queue) : (modQueue s q f).accDue = s.accDue := rfl
@[simp] theorem homeFlags_modQueue (s : State) (q : Nat) (f : Queue → Queue) : (modQueue s q f).homeFlags = s.homeFlags := rfl
@[simp] theorem bankFlags_modQueue (s : State) (q : Nat) (f : Queue → Queue) : (modQueue s q f).bankFlags = s.bankFlags := rfl
@[simp] theorem homeLog_modQueue (s : State) (q : Nat) (f : Queue → Queue) : (modQueue s q f).homeLog = s.homeLog := rfl
@[simp] theorem errs_modQueue (s : State) (q : Nat) (f : Queue → Queue) : (modQueue s q f).errs = s.errs := rfl
@[simp] theorem waymask_modQueue (s : State) (q : Nat) (f : Queue → Queue) : (modQueue s q f).waymask = s.waymask := rfl
@[simp] theorem slices_modQueue (s : State) (q : Nat) (f : Queue → Queue) : (modQueue s q f).slices = s.slices := rfl
@[simp] theorem stale_modQueue (s : State) (q : Nat) (f : Queue → Queue) : (modQueue s q f).stale = s.stale := rfl
@[simp] theorem hbm_modQueue (s : State) (q : Nat) (f : Queue → Queue) : (modQueue s q f).hbm = s.hbm := rfl
@[simp] theorem netRes_modQueue (s : State) (q : Nat) (f : Queue → Queue) : (modQueue s q f).netRes = s.netRes := rfl
@[simp] theorem hbmRes_modQueue (s : State) (q : Nat) (f : Queue → Queue) : (modQueue s q f).hbmRes = s.hbmRes := rfl
@[simp] theorem imux_modQueue (s : State) (q : Nat) (f : Queue → Queue) : (modQueue s q f).imux = s.imux := rfl
@[simp] theorem flits_modQueue (s : State) (q : Nat) (f : Queue → Queue) : (modQueue s q f).flits = s.flits := rfl
@[simp] theorem wins_modQueue (s : State) (q : Nat) (f : Queue → Queue) : (modQueue s q f).wins = s.wins := rfl
@[simp] theorem keys_modQueue (s : State) (q : Nat) (f : Queue → Queue) : (modQueue s q f).keys = s.keys := rfl
@[simp] theorem keyOwner_modQueue (s : State) (q : Nat) (f : Queue → Queue) : (modQueue s q f).keyOwner = s.keyOwner := rfl
@[simp] theorem quarterOwner_modQueue (s : State) (q : Nat) (f : Queue → Queue) : (modQueue s q f).quarterOwner = s.quarterOwner := rfl
@[simp] theorem parts_modQueue (s : State) (q : Nat) (f : Queue → Queue) : (modQueue s q f).parts = s.parts := rfl
@[simp] theorem tasks_modQueue (s : State) (q : Nat) (f : Queue → Queue) : (modQueue s q f).tasks = s.tasks := rfl
@[simp] theorem xfers_modQueue (s : State) (q : Nat) (f : Queue → Queue) : (modQueue s q f).xfers = s.xfers := rfl
@[simp] theorem migCount_modQueue (s : State) (q : Nat) (f : Queue → Queue) : (modQueue s q f).migCount = s.migCount := rfl
@[simp] theorem pageKeys_modQueue (s : State) (q : Nat) (f : Queue → Queue) : (modQueue s q f).pageKeys = s.pageKeys := rfl
@[simp] theorem window_modQueue (s : State) (q : Nat) (f : Queue → Queue) : (modQueue s q f).window = s.window := rfl
@[simp] theorem cur_modQueue (s : State) (q : Nat) (f : Queue → Queue) : (modQueue s q f).cur = s.cur := rfl
@[simp] theorem cell_modQueue (s : State) (q : Nat) (f : Queue → Queue) : (modQueue s q f).cell = s.cell := rfl
@[simp] theorem bun_modQueue (s : State) (q : Nat) (f : Queue → Queue) : (modQueue s q f).bun = s.bun := rfl
@[simp] theorem ev_modQueue (s : State) (q : Nat) (f : Queue → Queue) : (modQueue s q f).ev = s.ev := rfl
@[simp] theorem free_modQueue (s : State) (q : Nat) (f : Queue → Queue) : (modQueue s q f).free = s.free := rfl
@[simp] theorem inputs_modQueue (s : State) (q : Nat) (f : Queue → Queue) : (modQueue s q f).inputs = s.inputs := rfl
@[simp] theorem mctp_modQueue (s : State) (q : Nat) (f : Queue → Queue) : (modQueue s q f).mctp = s.mctp := rfl
@[simp] theorem turn_modQueue (s : State) (q : Nat) (f : Queue → Queue) : (modQueue s q f).turn = s.turn := rfl
@[simp] theorem served_modQueue (s : State) (q : Nat) (f : Queue → Queue) : (modQueue s q f).served = s.served := rfl

/-! ## putBytes -/

@[simp] theorem cyc_putBytes (s : State) (a n v : Nat) : (putBytes s a n v).cyc = s.cyc := rfl
@[simp] theorem pkg_putBytes (s : State) (a n v : Nat) : (putBytes s a n v).pkg = s.pkg := rfl
@[simp] theorem admin_putBytes (s : State) (a n v : Nat) : (putBytes s a n v).admin = s.admin := rfl
@[simp] theorem full_putBytes (s : State) (a n v : Nat) : (putBytes s a n v).full = s.full := rfl
@[simp] theorem arrs_putBytes (s : State) (a n v : Nat) : (putBytes s a n v).arrs = s.arrs := rfl
@[simp] theorem dieTlb_putBytes (s : State) (a n v : Nat) : (putBytes s a n v).dieTlb = s.dieTlb := rfl
@[simp] theorem frags_putBytes (s : State) (a n v : Nat) : (putBytes s a n v).frags = s.frags := rfl
@[simp] theorem sides_putBytes (s : State) (a n v : Nat) : (putBytes s a n v).sides = s.sides := rfl
@[simp] theorem flags_putBytes (s : State) (a n v : Nat) : (putBytes s a n v).flags = s.flags := rfl
@[simp] theorem gens_putBytes (s : State) (a n v : Nat) : (putBytes s a n v).gens = s.gens := rfl
@[simp] theorem ages_putBytes (s : State) (a n v : Nat) : (putBytes s a n v).ages = s.ages := rfl
@[simp] theorem chist_putBytes (s : State) (a n v : Nat) : (putBytes s a n v).chist = s.chist := rfl
@[simp] theorem pram_putBytes (s : State) (a n v : Nat) : (putBytes s a n v).pram = s.pram := rfl
@[simp] theorem mp_putBytes (s : State) (a n v : Nat) : (putBytes s a n v).mp = s.mp := rfl
@[simp] theorem mapBase_putBytes (s : State) (a n v : Nat) : (putBytes s a n v).mapBase = s.mapBase := rfl
@[simp] theorem cellEcc_putBytes (s : State) (a n v : Nat) : (putBytes s a n v).cellEcc = s.cellEcc := rfl
@[simp] theorem cellPoison_putBytes (s : State) (a n v : Nat) : (putBytes s a n v).cellPoison = s.cellPoison := rfl
@[simp] theorem tiles_putBytes (s : State) (a n v : Nat) : (putBytes s a n v).tiles = s.tiles := rfl
@[simp] theorem groups_putBytes (s : State) (a n v : Nat) : (putBytes s a n v).groups = s.groups := rfl
@[simp] theorem waiters_putBytes (s : State) (a n v : Nat) : (putBytes s a n v).waiters = s.waiters := rfl
@[simp] theorem quotas_putBytes (s : State) (a n v : Nat) : (putBytes s a n v).quotas = s.quotas := rfl
@[simp] theorem acnt_putBytes (s : State) (a n v : Nat) : (putBytes s a n v).acnt = s.acnt := rfl
@[simp] theorem accDue_putBytes (s : State) (a n v : Nat) : (putBytes s a n v).accDue = s.accDue := rfl
@[simp] theorem homeFlags_putBytes (s : State) (a n v : Nat) : (putBytes s a n v).homeFlags = s.homeFlags := rfl
@[simp] theorem bankFlags_putBytes (s : State) (a n v : Nat) : (putBytes s a n v).bankFlags = s.bankFlags := rfl
@[simp] theorem homeLog_putBytes (s : State) (a n v : Nat) : (putBytes s a n v).homeLog = s.homeLog := rfl
@[simp] theorem errs_putBytes (s : State) (a n v : Nat) : (putBytes s a n v).errs = s.errs := rfl
@[simp] theorem waymask_putBytes (s : State) (a n v : Nat) : (putBytes s a n v).waymask = s.waymask := rfl
@[simp] theorem slices_putBytes (s : State) (a n v : Nat) : (putBytes s a n v).slices = s.slices := rfl
@[simp] theorem stale_putBytes (s : State) (a n v : Nat) : (putBytes s a n v).stale = s.stale := rfl
@[simp] theorem hbm_putBytes (s : State) (a n v : Nat) : (putBytes s a n v).hbm = s.hbm := rfl
@[simp] theorem netRes_putBytes (s : State) (a n v : Nat) : (putBytes s a n v).netRes = s.netRes := rfl
@[simp] theorem hbmRes_putBytes (s : State) (a n v : Nat) : (putBytes s a n v).hbmRes = s.hbmRes := rfl
@[simp] theorem imux_putBytes (s : State) (a n v : Nat) : (putBytes s a n v).imux = s.imux := rfl
@[simp] theorem flits_putBytes (s : State) (a n v : Nat) : (putBytes s a n v).flits = s.flits := rfl
@[simp] theorem wins_putBytes (s : State) (a n v : Nat) : (putBytes s a n v).wins = s.wins := rfl
@[simp] theorem keys_putBytes (s : State) (a n v : Nat) : (putBytes s a n v).keys = s.keys := rfl
@[simp] theorem keyOwner_putBytes (s : State) (a n v : Nat) : (putBytes s a n v).keyOwner = s.keyOwner := rfl
@[simp] theorem quarterOwner_putBytes (s : State) (a n v : Nat) : (putBytes s a n v).quarterOwner = s.quarterOwner := rfl
@[simp] theorem parts_putBytes (s : State) (a n v : Nat) : (putBytes s a n v).parts = s.parts := rfl
@[simp] theorem queues_putBytes (s : State) (a n v : Nat) : (putBytes s a n v).queues = s.queues := rfl
@[simp] theorem tasks_putBytes (s : State) (a n v : Nat) : (putBytes s a n v).tasks = s.tasks := rfl
@[simp] theorem xfers_putBytes (s : State) (a n v : Nat) : (putBytes s a n v).xfers = s.xfers := rfl
@[simp] theorem migCount_putBytes (s : State) (a n v : Nat) : (putBytes s a n v).migCount = s.migCount := rfl
@[simp] theorem pageKeys_putBytes (s : State) (a n v : Nat) : (putBytes s a n v).pageKeys = s.pageKeys := rfl
@[simp] theorem window_putBytes (s : State) (a n v : Nat) : (putBytes s a n v).window = s.window := rfl
@[simp] theorem cur_putBytes (s : State) (a n v : Nat) : (putBytes s a n v).cur = s.cur := rfl
@[simp] theorem cell_putBytes (s : State) (a n v : Nat) : (putBytes s a n v).cell = s.cell := rfl
@[simp] theorem bun_putBytes (s : State) (a n v : Nat) : (putBytes s a n v).bun = s.bun := rfl
@[simp] theorem ev_putBytes (s : State) (a n v : Nat) : (putBytes s a n v).ev = s.ev := rfl
@[simp] theorem free_putBytes (s : State) (a n v : Nat) : (putBytes s a n v).free = s.free := rfl
@[simp] theorem inputs_putBytes (s : State) (a n v : Nat) : (putBytes s a n v).inputs = s.inputs := rfl
@[simp] theorem mctp_putBytes (s : State) (a n v : Nat) : (putBytes s a n v).mctp = s.mctp := rfl
@[simp] theorem turn_putBytes (s : State) (a n v : Nat) : (putBytes s a n v).turn = s.turn := rfl
@[simp] theorem served_putBytes (s : State) (a n v : Nat) : (putBytes s a n v).served = s.served := rfl

/-! ## markPopped -/

@[simp] theorem cyc_markPopped (s : State) (l : List Nat) : (markPopped s l).cyc = s.cyc := rfl
@[simp] theorem pkg_markPopped (s : State) (l : List Nat) : (markPopped s l).pkg = s.pkg := rfl
@[simp] theorem admin_markPopped (s : State) (l : List Nat) : (markPopped s l).admin = s.admin := rfl
@[simp] theorem mem_markPopped (s : State) (l : List Nat) : (markPopped s l).mem = s.mem := rfl
@[simp] theorem poison_markPopped (s : State) (l : List Nat) : (markPopped s l).poison = s.poison := rfl
@[simp] theorem ecc_markPopped (s : State) (l : List Nat) : (markPopped s l).ecc = s.ecc := rfl
@[simp] theorem full_markPopped (s : State) (l : List Nat) : (markPopped s l).full = s.full := rfl
@[simp] theorem arrs_markPopped (s : State) (l : List Nat) : (markPopped s l).arrs = s.arrs := rfl
@[simp] theorem dieTlb_markPopped (s : State) (l : List Nat) : (markPopped s l).dieTlb = s.dieTlb := rfl
@[simp] theorem frags_markPopped (s : State) (l : List Nat) : (markPopped s l).frags = s.frags := rfl
@[simp] theorem sides_markPopped (s : State) (l : List Nat) : (markPopped s l).sides = s.sides := rfl
@[simp] theorem flags_markPopped (s : State) (l : List Nat) : (markPopped s l).flags = s.flags := rfl
@[simp] theorem gens_markPopped (s : State) (l : List Nat) : (markPopped s l).gens = s.gens := rfl
@[simp] theorem ages_markPopped (s : State) (l : List Nat) : (markPopped s l).ages = s.ages := rfl
@[simp] theorem chist_markPopped (s : State) (l : List Nat) : (markPopped s l).chist = s.chist := rfl
@[simp] theorem pram_markPopped (s : State) (l : List Nat) : (markPopped s l).pram = s.pram := rfl
@[simp] theorem mp_markPopped (s : State) (l : List Nat) : (markPopped s l).mp = s.mp := rfl
@[simp] theorem mapBase_markPopped (s : State) (l : List Nat) : (markPopped s l).mapBase = s.mapBase := rfl
@[simp] theorem cellEcc_markPopped (s : State) (l : List Nat) : (markPopped s l).cellEcc = s.cellEcc := rfl
@[simp] theorem cellPoison_markPopped (s : State) (l : List Nat) : (markPopped s l).cellPoison = s.cellPoison := rfl
@[simp] theorem tiles_markPopped (s : State) (l : List Nat) : (markPopped s l).tiles = s.tiles := rfl
@[simp] theorem groups_markPopped (s : State) (l : List Nat) : (markPopped s l).groups = s.groups := rfl
@[simp] theorem waiters_markPopped (s : State) (l : List Nat) : (markPopped s l).waiters = s.waiters := rfl
@[simp] theorem quotas_markPopped (s : State) (l : List Nat) : (markPopped s l).quotas = s.quotas := rfl
@[simp] theorem acnt_markPopped (s : State) (l : List Nat) : (markPopped s l).acnt = s.acnt := rfl
@[simp] theorem accDue_markPopped (s : State) (l : List Nat) : (markPopped s l).accDue = s.accDue := rfl
@[simp] theorem homeFlags_markPopped (s : State) (l : List Nat) : (markPopped s l).homeFlags = s.homeFlags := rfl
@[simp] theorem bankFlags_markPopped (s : State) (l : List Nat) : (markPopped s l).bankFlags = s.bankFlags := rfl
@[simp] theorem homeLog_markPopped (s : State) (l : List Nat) : (markPopped s l).homeLog = s.homeLog := rfl
@[simp] theorem errs_markPopped (s : State) (l : List Nat) : (markPopped s l).errs = s.errs := rfl
@[simp] theorem waymask_markPopped (s : State) (l : List Nat) : (markPopped s l).waymask = s.waymask := rfl
@[simp] theorem slices_markPopped (s : State) (l : List Nat) : (markPopped s l).slices = s.slices := rfl
@[simp] theorem stale_markPopped (s : State) (l : List Nat) : (markPopped s l).stale = s.stale := rfl
@[simp] theorem hbm_markPopped (s : State) (l : List Nat) : (markPopped s l).hbm = s.hbm := rfl
@[simp] theorem netRes_markPopped (s : State) (l : List Nat) : (markPopped s l).netRes = s.netRes := rfl
@[simp] theorem hbmRes_markPopped (s : State) (l : List Nat) : (markPopped s l).hbmRes = s.hbmRes := rfl
@[simp] theorem imux_markPopped (s : State) (l : List Nat) : (markPopped s l).imux = s.imux := rfl
@[simp] theorem flits_markPopped (s : State) (l : List Nat) : (markPopped s l).flits = s.flits := rfl
@[simp] theorem wins_markPopped (s : State) (l : List Nat) : (markPopped s l).wins = s.wins := rfl
@[simp] theorem keys_markPopped (s : State) (l : List Nat) : (markPopped s l).keys = s.keys := rfl
@[simp] theorem keyOwner_markPopped (s : State) (l : List Nat) : (markPopped s l).keyOwner = s.keyOwner := rfl
@[simp] theorem quarterOwner_markPopped (s : State) (l : List Nat) : (markPopped s l).quarterOwner = s.quarterOwner := rfl
@[simp] theorem parts_markPopped (s : State) (l : List Nat) : (markPopped s l).parts = s.parts := rfl
@[simp] theorem queues_markPopped (s : State) (l : List Nat) : (markPopped s l).queues = s.queues := rfl
@[simp] theorem tasks_markPopped (s : State) (l : List Nat) : (markPopped s l).tasks = s.tasks := rfl
@[simp] theorem xfers_markPopped (s : State) (l : List Nat) : (markPopped s l).xfers = s.xfers := rfl
@[simp] theorem migCount_markPopped (s : State) (l : List Nat) : (markPopped s l).migCount = s.migCount := rfl
@[simp] theorem pageKeys_markPopped (s : State) (l : List Nat) : (markPopped s l).pageKeys = s.pageKeys := rfl
@[simp] theorem window_markPopped (s : State) (l : List Nat) : (markPopped s l).window = s.window := rfl
@[simp] theorem cur_markPopped (s : State) (l : List Nat) : (markPopped s l).cur = s.cur := rfl
@[simp] theorem cell_markPopped (s : State) (l : List Nat) : (markPopped s l).cell = s.cell := rfl
@[simp] theorem ev_markPopped (s : State) (l : List Nat) : (markPopped s l).ev = s.ev := rfl
@[simp] theorem free_markPopped (s : State) (l : List Nat) : (markPopped s l).free = s.free := rfl
@[simp] theorem inputs_markPopped (s : State) (l : List Nat) : (markPopped s l).inputs = s.inputs := rfl
@[simp] theorem mctp_markPopped (s : State) (l : List Nat) : (markPopped s l).mctp = s.mctp := rfl
@[simp] theorem turn_markPopped (s : State) (l : List Nat) : (markPopped s l).turn = s.turn := rfl
@[simp] theorem served_markPopped (s : State) (l : List Nat) : (markPopped s l).served = s.served := rfl

/-! ## block -/

@[simp] theorem cyc_block (s : State) : (block s).cyc = s.cyc := rfl
@[simp] theorem pkg_block (s : State) : (block s).pkg = s.pkg := rfl
@[simp] theorem admin_block (s : State) : (block s).admin = s.admin := rfl
@[simp] theorem mem_block (s : State) : (block s).mem = s.mem := rfl
@[simp] theorem poison_block (s : State) : (block s).poison = s.poison := rfl
@[simp] theorem ecc_block (s : State) : (block s).ecc = s.ecc := rfl
@[simp] theorem full_block (s : State) : (block s).full = s.full := rfl
@[simp] theorem arrs_block (s : State) : (block s).arrs = s.arrs := rfl
@[simp] theorem dieTlb_block (s : State) : (block s).dieTlb = s.dieTlb := rfl
@[simp] theorem frags_block (s : State) : (block s).frags = s.frags := rfl
@[simp] theorem sides_block (s : State) : (block s).sides = s.sides := rfl
@[simp] theorem flags_block (s : State) : (block s).flags = s.flags := rfl
@[simp] theorem gens_block (s : State) : (block s).gens = s.gens := rfl
@[simp] theorem ages_block (s : State) : (block s).ages = s.ages := rfl
@[simp] theorem chist_block (s : State) : (block s).chist = s.chist := rfl
@[simp] theorem pram_block (s : State) : (block s).pram = s.pram := rfl
@[simp] theorem mp_block (s : State) : (block s).mp = s.mp := rfl
@[simp] theorem mapBase_block (s : State) : (block s).mapBase = s.mapBase := rfl
@[simp] theorem cellEcc_block (s : State) : (block s).cellEcc = s.cellEcc := rfl
@[simp] theorem cellPoison_block (s : State) : (block s).cellPoison = s.cellPoison := rfl
@[simp] theorem tiles_block (s : State) : (block s).tiles = s.tiles := rfl
@[simp] theorem groups_block (s : State) : (block s).groups = s.groups := rfl
@[simp] theorem waiters_block (s : State) : (block s).waiters = s.waiters := rfl
@[simp] theorem quotas_block (s : State) : (block s).quotas = s.quotas := rfl
@[simp] theorem acnt_block (s : State) : (block s).acnt = s.acnt := rfl
@[simp] theorem accDue_block (s : State) : (block s).accDue = s.accDue := rfl
@[simp] theorem homeFlags_block (s : State) : (block s).homeFlags = s.homeFlags := rfl
@[simp] theorem bankFlags_block (s : State) : (block s).bankFlags = s.bankFlags := rfl
@[simp] theorem homeLog_block (s : State) : (block s).homeLog = s.homeLog := rfl
@[simp] theorem errs_block (s : State) : (block s).errs = s.errs := rfl
@[simp] theorem waymask_block (s : State) : (block s).waymask = s.waymask := rfl
@[simp] theorem slices_block (s : State) : (block s).slices = s.slices := rfl
@[simp] theorem stale_block (s : State) : (block s).stale = s.stale := rfl
@[simp] theorem hbm_block (s : State) : (block s).hbm = s.hbm := rfl
@[simp] theorem netRes_block (s : State) : (block s).netRes = s.netRes := rfl
@[simp] theorem hbmRes_block (s : State) : (block s).hbmRes = s.hbmRes := rfl
@[simp] theorem imux_block (s : State) : (block s).imux = s.imux := rfl
@[simp] theorem flits_block (s : State) : (block s).flits = s.flits := rfl
@[simp] theorem wins_block (s : State) : (block s).wins = s.wins := rfl
@[simp] theorem keys_block (s : State) : (block s).keys = s.keys := rfl
@[simp] theorem keyOwner_block (s : State) : (block s).keyOwner = s.keyOwner := rfl
@[simp] theorem quarterOwner_block (s : State) : (block s).quarterOwner = s.quarterOwner := rfl
@[simp] theorem parts_block (s : State) : (block s).parts = s.parts := rfl
@[simp] theorem queues_block (s : State) : (block s).queues = s.queues := rfl
@[simp] theorem tasks_block (s : State) : (block s).tasks = s.tasks := rfl
@[simp] theorem xfers_block (s : State) : (block s).xfers = s.xfers := rfl
@[simp] theorem migCount_block (s : State) : (block s).migCount = s.migCount := rfl
@[simp] theorem pageKeys_block (s : State) : (block s).pageKeys = s.pageKeys := rfl
@[simp] theorem window_block (s : State) : (block s).window = s.window := rfl
@[simp] theorem cur_block (s : State) : (block s).cur = s.cur := rfl
@[simp] theorem cell_block (s : State) : (block s).cell = s.cell := rfl
@[simp] theorem ev_block (s : State) : (block s).ev = s.ev := rfl
@[simp] theorem free_block (s : State) : (block s).free = s.free := rfl
@[simp] theorem inputs_block (s : State) : (block s).inputs = s.inputs := rfl
@[simp] theorem mctp_block (s : State) : (block s).mctp = s.mctp := rfl
@[simp] theorem turn_block (s : State) : (block s).turn = s.turn := rfl
@[simp] theorem served_block (s : State) : (block s).served = s.served := rfl

/-! ## blockFull -/

@[simp] theorem cyc_blockFull (s : State) : (blockFull s).cyc = s.cyc := rfl
@[simp] theorem pkg_blockFull (s : State) : (blockFull s).pkg = s.pkg := rfl
@[simp] theorem admin_blockFull (s : State) : (blockFull s).admin = s.admin := rfl
@[simp] theorem mem_blockFull (s : State) : (blockFull s).mem = s.mem := rfl
@[simp] theorem poison_blockFull (s : State) : (blockFull s).poison = s.poison := rfl
@[simp] theorem ecc_blockFull (s : State) : (blockFull s).ecc = s.ecc := rfl
@[simp] theorem full_blockFull (s : State) : (blockFull s).full = s.full := rfl
@[simp] theorem arrs_blockFull (s : State) : (blockFull s).arrs = s.arrs := rfl
@[simp] theorem dieTlb_blockFull (s : State) : (blockFull s).dieTlb = s.dieTlb := rfl
@[simp] theorem frags_blockFull (s : State) : (blockFull s).frags = s.frags := rfl
@[simp] theorem sides_blockFull (s : State) : (blockFull s).sides = s.sides := rfl
@[simp] theorem flags_blockFull (s : State) : (blockFull s).flags = s.flags := rfl
@[simp] theorem gens_blockFull (s : State) : (blockFull s).gens = s.gens := rfl
@[simp] theorem ages_blockFull (s : State) : (blockFull s).ages = s.ages := rfl
@[simp] theorem chist_blockFull (s : State) : (blockFull s).chist = s.chist := rfl
@[simp] theorem pram_blockFull (s : State) : (blockFull s).pram = s.pram := rfl
@[simp] theorem mp_blockFull (s : State) : (blockFull s).mp = s.mp := rfl
@[simp] theorem mapBase_blockFull (s : State) : (blockFull s).mapBase = s.mapBase := rfl
@[simp] theorem cellEcc_blockFull (s : State) : (blockFull s).cellEcc = s.cellEcc := rfl
@[simp] theorem cellPoison_blockFull (s : State) : (blockFull s).cellPoison = s.cellPoison := rfl
@[simp] theorem tiles_blockFull (s : State) : (blockFull s).tiles = s.tiles := rfl
@[simp] theorem groups_blockFull (s : State) : (blockFull s).groups = s.groups := rfl
@[simp] theorem waiters_blockFull (s : State) : (blockFull s).waiters = s.waiters := rfl
@[simp] theorem quotas_blockFull (s : State) : (blockFull s).quotas = s.quotas := rfl
@[simp] theorem acnt_blockFull (s : State) : (blockFull s).acnt = s.acnt := rfl
@[simp] theorem accDue_blockFull (s : State) : (blockFull s).accDue = s.accDue := rfl
@[simp] theorem homeFlags_blockFull (s : State) : (blockFull s).homeFlags = s.homeFlags := rfl
@[simp] theorem bankFlags_blockFull (s : State) : (blockFull s).bankFlags = s.bankFlags := rfl
@[simp] theorem homeLog_blockFull (s : State) : (blockFull s).homeLog = s.homeLog := rfl
@[simp] theorem errs_blockFull (s : State) : (blockFull s).errs = s.errs := rfl
@[simp] theorem waymask_blockFull (s : State) : (blockFull s).waymask = s.waymask := rfl
@[simp] theorem slices_blockFull (s : State) : (blockFull s).slices = s.slices := rfl
@[simp] theorem stale_blockFull (s : State) : (blockFull s).stale = s.stale := rfl
@[simp] theorem hbm_blockFull (s : State) : (blockFull s).hbm = s.hbm := rfl
@[simp] theorem netRes_blockFull (s : State) : (blockFull s).netRes = s.netRes := rfl
@[simp] theorem hbmRes_blockFull (s : State) : (blockFull s).hbmRes = s.hbmRes := rfl
@[simp] theorem imux_blockFull (s : State) : (blockFull s).imux = s.imux := rfl
@[simp] theorem flits_blockFull (s : State) : (blockFull s).flits = s.flits := rfl
@[simp] theorem wins_blockFull (s : State) : (blockFull s).wins = s.wins := rfl
@[simp] theorem keys_blockFull (s : State) : (blockFull s).keys = s.keys := rfl
@[simp] theorem keyOwner_blockFull (s : State) : (blockFull s).keyOwner = s.keyOwner := rfl
@[simp] theorem quarterOwner_blockFull (s : State) : (blockFull s).quarterOwner = s.quarterOwner := rfl
@[simp] theorem parts_blockFull (s : State) : (blockFull s).parts = s.parts := rfl
@[simp] theorem queues_blockFull (s : State) : (blockFull s).queues = s.queues := rfl
@[simp] theorem tasks_blockFull (s : State) : (blockFull s).tasks = s.tasks := rfl
@[simp] theorem xfers_blockFull (s : State) : (blockFull s).xfers = s.xfers := rfl
@[simp] theorem migCount_blockFull (s : State) : (blockFull s).migCount = s.migCount := rfl
@[simp] theorem pageKeys_blockFull (s : State) : (blockFull s).pageKeys = s.pageKeys := rfl
@[simp] theorem window_blockFull (s : State) : (blockFull s).window = s.window := rfl
@[simp] theorem cur_blockFull (s : State) : (blockFull s).cur = s.cur := rfl
@[simp] theorem cell_blockFull (s : State) : (blockFull s).cell = s.cell := rfl
@[simp] theorem ev_blockFull (s : State) : (blockFull s).ev = s.ev := rfl
@[simp] theorem free_blockFull (s : State) : (blockFull s).free = s.free := rfl
@[simp] theorem inputs_blockFull (s : State) : (blockFull s).inputs = s.inputs := rfl
@[simp] theorem mctp_blockFull (s : State) : (blockFull s).mctp = s.mctp := rfl
@[simp] theorem turn_blockFull (s : State) : (blockFull s).turn = s.turn := rfl
@[simp] theorem served_blockFull (s : State) : (blockFull s).served = s.served := rfl

/-! ## blockDry -/

@[simp] theorem cyc_blockDry (s : State) : (blockDry s).cyc = s.cyc := rfl
@[simp] theorem pkg_blockDry (s : State) : (blockDry s).pkg = s.pkg := rfl
@[simp] theorem admin_blockDry (s : State) : (blockDry s).admin = s.admin := rfl
@[simp] theorem mem_blockDry (s : State) : (blockDry s).mem = s.mem := rfl
@[simp] theorem poison_blockDry (s : State) : (blockDry s).poison = s.poison := rfl
@[simp] theorem ecc_blockDry (s : State) : (blockDry s).ecc = s.ecc := rfl
@[simp] theorem full_blockDry (s : State) : (blockDry s).full = s.full := rfl
@[simp] theorem arrs_blockDry (s : State) : (blockDry s).arrs = s.arrs := rfl
@[simp] theorem dieTlb_blockDry (s : State) : (blockDry s).dieTlb = s.dieTlb := rfl
@[simp] theorem frags_blockDry (s : State) : (blockDry s).frags = s.frags := rfl
@[simp] theorem sides_blockDry (s : State) : (blockDry s).sides = s.sides := rfl
@[simp] theorem flags_blockDry (s : State) : (blockDry s).flags = s.flags := rfl
@[simp] theorem gens_blockDry (s : State) : (blockDry s).gens = s.gens := rfl
@[simp] theorem ages_blockDry (s : State) : (blockDry s).ages = s.ages := rfl
@[simp] theorem chist_blockDry (s : State) : (blockDry s).chist = s.chist := rfl
@[simp] theorem pram_blockDry (s : State) : (blockDry s).pram = s.pram := rfl
@[simp] theorem mp_blockDry (s : State) : (blockDry s).mp = s.mp := rfl
@[simp] theorem mapBase_blockDry (s : State) : (blockDry s).mapBase = s.mapBase := rfl
@[simp] theorem cellEcc_blockDry (s : State) : (blockDry s).cellEcc = s.cellEcc := rfl
@[simp] theorem cellPoison_blockDry (s : State) : (blockDry s).cellPoison = s.cellPoison := rfl
@[simp] theorem tiles_blockDry (s : State) : (blockDry s).tiles = s.tiles := rfl
@[simp] theorem groups_blockDry (s : State) : (blockDry s).groups = s.groups := rfl
@[simp] theorem waiters_blockDry (s : State) : (blockDry s).waiters = s.waiters := rfl
@[simp] theorem quotas_blockDry (s : State) : (blockDry s).quotas = s.quotas := rfl
@[simp] theorem acnt_blockDry (s : State) : (blockDry s).acnt = s.acnt := rfl
@[simp] theorem accDue_blockDry (s : State) : (blockDry s).accDue = s.accDue := rfl
@[simp] theorem homeFlags_blockDry (s : State) : (blockDry s).homeFlags = s.homeFlags := rfl
@[simp] theorem bankFlags_blockDry (s : State) : (blockDry s).bankFlags = s.bankFlags := rfl
@[simp] theorem homeLog_blockDry (s : State) : (blockDry s).homeLog = s.homeLog := rfl
@[simp] theorem errs_blockDry (s : State) : (blockDry s).errs = s.errs := rfl
@[simp] theorem waymask_blockDry (s : State) : (blockDry s).waymask = s.waymask := rfl
@[simp] theorem slices_blockDry (s : State) : (blockDry s).slices = s.slices := rfl
@[simp] theorem stale_blockDry (s : State) : (blockDry s).stale = s.stale := rfl
@[simp] theorem hbm_blockDry (s : State) : (blockDry s).hbm = s.hbm := rfl
@[simp] theorem netRes_blockDry (s : State) : (blockDry s).netRes = s.netRes := rfl
@[simp] theorem hbmRes_blockDry (s : State) : (blockDry s).hbmRes = s.hbmRes := rfl
@[simp] theorem imux_blockDry (s : State) : (blockDry s).imux = s.imux := rfl
@[simp] theorem flits_blockDry (s : State) : (blockDry s).flits = s.flits := rfl
@[simp] theorem wins_blockDry (s : State) : (blockDry s).wins = s.wins := rfl
@[simp] theorem keys_blockDry (s : State) : (blockDry s).keys = s.keys := rfl
@[simp] theorem keyOwner_blockDry (s : State) : (blockDry s).keyOwner = s.keyOwner := rfl
@[simp] theorem quarterOwner_blockDry (s : State) : (blockDry s).quarterOwner = s.quarterOwner := rfl
@[simp] theorem parts_blockDry (s : State) : (blockDry s).parts = s.parts := rfl
@[simp] theorem queues_blockDry (s : State) : (blockDry s).queues = s.queues := rfl
@[simp] theorem tasks_blockDry (s : State) : (blockDry s).tasks = s.tasks := rfl
@[simp] theorem xfers_blockDry (s : State) : (blockDry s).xfers = s.xfers := rfl
@[simp] theorem migCount_blockDry (s : State) : (blockDry s).migCount = s.migCount := rfl
@[simp] theorem pageKeys_blockDry (s : State) : (blockDry s).pageKeys = s.pageKeys := rfl
@[simp] theorem window_blockDry (s : State) : (blockDry s).window = s.window := rfl
@[simp] theorem cur_blockDry (s : State) : (blockDry s).cur = s.cur := rfl
@[simp] theorem cell_blockDry (s : State) : (blockDry s).cell = s.cell := rfl
@[simp] theorem ev_blockDry (s : State) : (blockDry s).ev = s.ev := rfl
@[simp] theorem free_blockDry (s : State) : (blockDry s).free = s.free := rfl
@[simp] theorem inputs_blockDry (s : State) : (blockDry s).inputs = s.inputs := rfl
@[simp] theorem mctp_blockDry (s : State) : (blockDry s).mctp = s.mctp := rfl
@[simp] theorem turn_blockDry (s : State) : (blockDry s).turn = s.turn := rfl
@[simp] theorem served_blockDry (s : State) : (blockDry s).served = s.served := rfl

end Sys2Proof.Machine
end

