-- ==== Sys2Proof/Laws/Slots.lean ====
section
/-! SUPPORT. What each shared operation of the slots can do, said once: the guards of SC, KA and KB slots, the gate buffer, the checks
of an access, the cell slots and the entry of a command into its queue. -/

namespace Sys2Proof.Machine

/-! ## Reading through the marks of consumed streams -/

@[simp] theorem curSeq_markPopped (s : State) (l : List Nat) : curSeq (markPopped s l) = curSeq s := rfl
@[simp] theorem reg_markPopped (s : State) (l : List Nat) (r : Nat) : reg (markPopped s l) r = reg s r := rfl
@[simp] theorem pred_markPopped (s : State) (l : List Nat) (r : Nat) : pred (markPopped s l) r = pred s r := rfl

/-- s0 reads as zero (R99). -/
@[simp] theorem reg_zero (s : State) : reg s 0 = 0 := rfl

/-- b0 reads as true (R101). -/
@[simp] theorem pred_zero (s : State) : pred s 0 = true := rfl

/-! ## SC slots -/

/-- With a false predicate a slot does nothing (R113). -/
theorem slotOp_off {s : State} {p : Nat} (h : pred s p = false) (srcs dsts : List Nat) (k : State → State) :
    slotOp s p srcs dsts k = s := by
  simp [slotOp, h]

/-- A ready slot takes its own effect. -/
theorem slotOp_ready {s : State} {p : Nat} {srcs dsts : List Nat} (h : SlotReady s p srcs dsts) (k : State → State) :
    slotOp s p srcs dsts k = k (markPopped s srcs) := by
  obtain ⟨hp, he, hq, hd⟩ := h
  have h1 : (srcs.any fun r => isBound s (curA s) r && (portAt s (curA s) (portReg r)).elems = []) = false := by
    simp only [List.any_eq_false, Bool.and_eq_true, decide_eq_true_eq, not_and]
    exact fun r hr hb => he r hr hb
  have h2 : srcs.any (isPoisoned s) = false := by
    simp only [List.any_eq_false]; intro r hr; simp [hq r hr]
  have h3 : dsts.find? (isBound s (curA s)) = none := by
    simp only [List.find?_eq_none]; intro r hr; simp [hd r hr]
  simp [slotOp, hp, h1, h2, h3]

/-- Everything a slot can do: nothing, hold its bundle, raise POISON_CONSUMED or ILLEGAL, or take its own effect. -/
theorem slotOp_cases (s : State) (p : Nat) (srcs dsts : List Nat) (k : State → State) :
    slotOp s p srcs dsts k = s ∨ slotOp s p srcs dsts k = blockDry s ∨ slotOp s p srcs dsts k = raise s (slotFault s 0x41) ∨
      (∃ r ∈ dsts, slotOp s p srcs dsts k = raise s (faultD s 0x01 (BitVec.ofNat 64 r))) ∨
      slotOp s p srcs dsts k = k (markPopped s srcs) := by
  unfold slotOp
  split
  · exact .inl rfl
  split
  · exact .inr (.inl rfl)
  split
  · exact .inr (.inr (.inl rfl))
  split
  · rename_i r hr
    exact .inr (.inr (.inr (.inl ⟨r, List.mem_of_find?_eq_some hr, rfl⟩)))
  · exact .inr (.inr (.inr (.inr rfl)))

/-! ## KA and KB slots -/

/-- With a false predicate a copy slot does nothing (R113). -/
theorem copyOp_off {s : State} {p : Nat} (h : kpred s p = false) (srcs dsts : List Nat) (k : State → State) :
    copyOp s p srcs dsts k = s := by
  simp [copyOp, h]

/-- A ready copy slot takes its own effect. -/
theorem copyOp_ready {s : State} {p : Nat} {srcs dsts : List Nat} (h : CopyReady s p srcs dsts) (k : State → State) :
    copyOp s p srcs dsts k = k (markPopped s srcs) := by
  obtain ⟨hp, he, hq, hd⟩ := h
  have h1 : (srcs.any fun r => isBound s (curA s) r && (portAt s (curA s) (portReg r)).elems = []) = false := by
    simp only [List.any_eq_false, Bool.and_eq_true, decide_eq_true_eq, not_and]
    exact fun r hr hb => he r hr hb
  have h2 : (srcs.any fun r => r ≠ 0 && (preOf s).poisoned.getLsbD r && !isBound s (curA s) r) = false := by
    simp only [List.any_eq_false]; intro r hr; rcases hq r hr with h | h | h <;> simp [h]
  have h3 : dsts.find? (isBound s (curA s)) = none := by
    simp only [List.find?_eq_none]; intro r hr; simp [hd r hr]
  simp only [copyOp, hp, h1, h2, h3]; rfl

/-! ## The gate buffer -/

/-- Where the gate buffer releases, a release goes on (R438). -/
theorem withGate_released {s t : State} (h : Released s t) (k : State → State) : withGate s k = k t := by
  rcases h with ⟨h, rfl⟩ | ⟨h, u, n, hg, rfl⟩
  · simp [withGate, h]
  · simp [withGate, h, hg]

/-- Everything the release of a gate buffer can do: go on, hold the bundle (for a walk, or for st at its limit), or raise the fault of a
gated store (R409, R438). -/
theorem withGate_cases (s : State) (k : State → State) :
    (∃ t, Released s t ∧ withGate s k = k t) ∨ (∃ u, withGate s k = block u) ∨ (∃ u, withGate s k = blockFull u) ∨
      ∃ u f, withGate s k = raise u f := by
  unfold withGate
  split
  · rename_i h; exact .inl ⟨s, .inl ⟨h, rfl⟩, rfl⟩
  · rename_i h
    split
    · rename_i u n hg
      exact .inl ⟨_, .inr ⟨by simpa using h, u, n, hg, rfl⟩, rfl⟩
    · exact .inr (.inl ⟨_, rfl⟩)
    · exact .inr (.inr (.inl ⟨_, rfl⟩))
    · exact .inr (.inr (.inr ⟨_, _, rfl⟩))

/-- An entry goes into the gate buffer (R439). -/
theorem gatePut_gated {s t : State} {e : GateEntry} (h : Gated s e t) : gatePut s e = t := by
  rcases h with ⟨h, rfl⟩ | ⟨h, u, hr, rfl⟩
  · simp [gatePut, Config.gateEntries, h]
  · have : ¬ (curSeq s).gate.length < 64 := by omega
    simp [gatePut, Config.gateEntries, this, withGate_released hr]

theorem releasing_released {s t : State} (h : Released s t) (k : State → State) : releasing s k = k (regionNext t) := by
  simp [releasing, withGate_released h]

/-- An instruction that counts in st goes on where the release leaves room in the counter (R409). -/
theorem releasingSt_released {s t : State} (h : Released s t) (hn : (curSeq t).st < 255) (k : State → State) :
    releasingSt s k = k (regionNext t) := by
  simp [releasingSt, withGate_released h, Nat.not_le.mpr hn]

@[simp] theorem curA_regionNext (s : State) : curA (regionNext s) = curA s := by unfold regionNext; split <;> rfl

/-! ## Checks -/

/-- An access whose checks let it through goes on at its place. -/
theorem onChk_ok {s : State} {h : Nat} {c : Chk} {pl : Place} (hc : c = .ok pl) (k : Place → State) : onChk s h c k = k pl := by
  subst hc; rfl

/-- An offset register that holds an address is checked as that offset. -/
theorem offsetChk_lt {s : State} {i : Instr} {h : Nat} {v : Word} (z : Nat) (st : Bool) (hv : v.toNat < 2 ^ 57) :
    offsetChk s i h v z st = handleChk s i h false v.toNat z (!st) st st := by
  have := v.isLt
  have h1 : bitsOf v 63 57 = 0 := by simp [bitsOf]; omega
  have h2 : bitsOf v 56 0 = v.toNat := by simp [bitsOf]; omega
  simp [offsetChk, h1, h2]

/-! ## Words in flight -/

/-- A change to a sequencer leaves the words in flight of every array. -/
theorem words_modSeq (s : State) (a b : Nat) (f : Seq → Seq) : (arr (modSeq s a f) b).words = (arr s b).words := by
  simp only [modSeq, modArr, setArr, arr, vget, vset, Vector.getElem?_setIfInBounds]
  by_cases h : a = b
  · subst h
    by_cases h' : a < 28 <;> simp [h']
  · simp [h]

/-- Counting an access leaves the words in flight (R426). -/
theorem words_countHome (s : State) (a b pa : Nat) : (arr (countHome s a pa) b).words = (arr s b).words := by
  unfold countHome countTrip countFlits
  (repeat' split) <;> simp [pmcAdd, words_modSeq]

/-! ## Cell slots -/

theorem slotRun_live {s : State} (h : slotLive s = true) (k : State → State) : slotRun s k = k s := if_pos h

theorem withLanes_ok {s : State} {l : List Nat} {m : List Frag → List (BitVec 32)}
    (h : firstFault s (l.zip (m ((l.map (readOp s)).map (·.frag)))) = none) (k : List Popped → State) :
    withLanes s l m k = k (l.map (readOp s)) := by
  simp only [withLanes, h]

/-- Everything reading the operands of a cell slot can do: take the first fault of theirs, or go on with their values. -/
theorem withLanes_cases (s : State) (l : List Nat) (m : List Frag → List (BitVec 32)) (k : List Popped → State) :
    (∃ f, firstFault s (l.zip (m ((l.map (readOp s)).map (·.frag)))) = some f ∧ withLanes s l m k = locFault s f) ∨
      firstFault s (l.zip (m ((l.map (readOp s)).map (·.frag)))) = none ∧ withLanes s l m k = k (l.map (readOp s)) := by
  unfold withLanes
  dsimp only
  split
  · rename_i f hf; exact .inl ⟨f, hf, rfl⟩
  · rename_i hf; exact .inr ⟨hf, rfl⟩

theorem withOps_ready {s : State} {l : List Nat} (h : CellReady s l) (k : List Popped → State) :
    withOps s l k = k (l.map (readOp s)) := withLanes_ok h.2 k

/-- A ready vector slot writes its result. -/
theorem runVecOn_ready {s : State} {srcs : List Nat} {m : List Frag → List (BitVec 32)} (hr : CellReadyOn s srcs m) (d : Nat)
    (c f : Bool) (h : VecFn) :
    runVecOn s srcs m d c f h = (let r := h (curEnv s) (getG s (curCell s)) (srcs.map fun k => (readOp s k).frag)
      writeResult (raiseFlags (setG s (curCell s) r.2.2) r.2.1) d r.1 0 c f) := by
  unfold runVecOn; rw [slotRun_live hr.1, withLanes_ok hr.2]; simp only [List.map_map]; rfl

theorem runVec_ready {s : State} {srcs : List Nat} (hr : CellReady s srcs) (d : Nat) (c f : Bool) (h : VecFn) :
    runVec s srcs d c f h = (let r := h (curEnv s) (getG s (curCell s)) (srcs.map fun k => (readOp s k).frag)
      writeResult (raiseFlags (setG s (curCell s) r.2.2) r.2.1) d r.1 0 c f) := runVecOn_ready hr d c f h

/-! ## Commands -/

/-- A checked command enters its queue where there is room and the gate buffer releases (R286). -/
theorem enqueue_ok {s u : State} {i : Instr} {e : Nat} {ra rb : Word} {dst : Option Word} {c : Except FaultInfo (List (Nat × Nat))}
    {tiles : List (Nat × Nat)} (hc : c = .ok tiles) (h1 : (engAt s (curA s) e).queue.length < 64) (h2 : (curSeq s).cp < 255)
    (hg : Released s u) : enqueue s i e ra rb dst c = commandEntered (regionNext u) i e ra rb dst tiles := by
  subst hc
  refine (if_neg (Nat.not_le.mpr h2)).trans ((if_neg (Nat.not_le.mpr h1)).trans ?_)
  rw [releasing_released hg]; rfl

/-! ## List entries and administrative commands -/

/-- An entry of the kind an event acts on is acted on in the state that its read leaves (R310). -/
theorem onEntry_at {s : State} {q kind p a : Nat} {e : BitVec 256} (h : EntryAt s q kind p a e) (h1 : 1 ≤ kind) (h2 : kind ≤ 12)
    (f : State → Nat → Nat → BitVec 256 → State) : onEntry s q kind f = f (entryMeet s p a) p a e := by
  obtain ⟨hn, hk, hb, -⟩ := h
  have h0 : (decide (kind = 0) || decide (kind > 12)) = false := by simp; omega
  subst hk
  simp only [onEntry, hn, hb, h0, ne_eq, not_true_eq_false, if_false, Bool.false_eq_true]

/-- An entry that has been read is accepted where the journal has room (R312). -/
theorem accepting_room {s : State} {q p a kind d : Nat} (h : jFull s p = false) (f : State → Nat → State) :
    accepting (entryMeet s p a) q p a kind d f = f (entryAccepted s q p a kind d) (partAt s p).jtail.toNat := by
  simp [accepting, h, entryAccepted]

/-- An administrative command that may be looked at is performed and completes (R453). -/
theorem command_runs {s : State} {n : Nat} (h : AdminRuns s n) (f : State → Answer) : command s n f = completeAdmin (f s) := by
  obtain ⟨h1, h2⟩ := h
  have : ((List.range (6 - n)).any fun k => param s (n + k) ≠ 0) = false := by
    simp only [List.any_eq_false, List.mem_range, decide_eq_true_eq, not_not]
    intro k hk; exact h2 _ (by omega) (by omega)
  simp only [command, h1, this]; rfl

theorem partCommand_runs {s : State} {n : Nat} (h : AdminPart s n) (f : State → Nat → Answer) :
    partCommand s n f = completeAdmin (f s s.ev.p) := by
  obtain ⟨h1, h2, h3⟩ := h
  simp [partCommand, command_runs h1, Nat.not_le.mpr h2, h3]

/-! ## Every meaning answers a next state -/

theorem exec_next (i : Instr) (s : State) : ∃ t, exec i s = .next t := by
  cases i <;> exact ⟨_, rfl⟩

end Sys2Proof.Machine
end

