-- ==== Sys2Proof/Tests/Slice0.lean ====
section
/-! SUPPORT. The model's own tests: ill-formed terms that WellFormed refuses, words of the spec that decode, single instructions against
values worked out by hand from the rules, and for every statement with hypotheses a state that meets them. -/

open Sys2Proof Sys2Proof.Machine

namespace Sys2Proof.Tests

set_option maxRecDepth 20000
set_option Elab.async false

/-! ## WellFormed: one ill-formed term, and the last legal one, for each check -/

theorem test_wf_sext_size : (Instr.sext 0 1 2 3).wf = false ∧ (Instr.zext 0 1 2 3).wf = false ∧ (Instr.sext 0 1 2 2).wf = true := by decide
theorem test_wf_shift_immediate :
    (Instr.shli 0 1 2 64).wf = false ∧ (Instr.shri 0 1 2 64).wf = false ∧ (Instr.srai 0 1 2 0xFFF).wf = false ∧
    (Instr.shli 0 1 2 63).wf = true := by decide
theorem test_wf_loops :
    (Instr.loop 0 false 1 0).wf = false ∧ (Instr.loops 0 0 1 5).wf = false ∧ (Instr.loops 0 5 1 5).wf = false ∧
    (Instr.loops 0 2 1 0).wf = false ∧ (Instr.loops 0 4 1 1).wf = true := by decide
theorem test_wf_pause : (Instr.pause 0 0).wf = false ∧ (Instr.pause 0 4096).wf = false ∧ (Instr.pause 0 4095).wf = true := by decide
theorem test_wf_scope_without_order :
    (Instr.ldB 0 1 2 false 1 0).wf = false ∧ (Instr.ldnW 0 1 2 false 3 0).wf = false ∧ (Instr.stD 0 1 2 false 2 0).wf = false ∧
    (Instr.ldtW 0 1 2 3 false 1).wf = false ∧ (Instr.sttD 0 1 2 3 false 1).wf = false ∧ (Instr.cbarr 0 1 2 3 false 1).wf = false ∧
    (Instr.stD 0 1 2 true 3 0).wf = true := by decide
theorem test_wf_offset_register_is_data :
    (Instr.ldpW 0 5 1 5 0).wf = false ∧ (Instr.ldpD 0 5 1 5 0).wf = false ∧ (Instr.stpW 0 5 1 5 0).wf = false ∧
    (Instr.stpD 0 5 1 5 0).wf = false ∧ (Instr.stpD 0 5 1 6 0).wf = true := by decide
theorem test_wf_fence_nothing : (Instr.fence 0 0 2).wf = false ∧ (Instr.fence 0 1 2).wf = true := by decide
theorem test_wf_resid_detach_slot : (Instr.resid 0 false 5).wf = false ∧ (Instr.resid 0 true 5).wf = true := by decide
theorem test_wf_control_register :
    (Instr.mfc 0 1 0x005).wf = false ∧ (Instr.mfc 0 1 0x107).wf = false ∧ (Instr.mtc 0 1 0).wf = false ∧
    (Instr.mtc 0 1 0x210).wf = false ∧ (Instr.mfc 0 1 0x106).wf = true := by decide
theorem test_wf_selector_part : (Instr.mtw 0 1 2 5).wf = false ∧ (Instr.mfw 0 1 2 7).wf = false ∧ (Instr.mtw 0 1 2 4).wf = true := by decide
theorem test_wf_sync_group : (Instr.sync 0 1 256).wf = false ∧ (Instr.sync 0 1 255).wf = true := by decide
theorem test_wf_play_threshold :
    (Instr.playW 0 1 2 17 3).wf = false ∧ (Instr.playD 0 1 2 31 3).wf = false ∧ (Instr.playW 0 1 2 16 3).wf = true := by decide
theorem test_wf_vector_destination :
    (Instr.fadd 10 0 0 0 false false).wf = false ∧ (Instr.fma 15 0 0 0 false false false).wf = false ∧
    (Instr.iadd 14 0 0 0 false false false).wf = false ∧ (Instr.fadd 9 0 0 0 false false).wf = true := by decide
theorem test_wf_cell_shift_immediate :
    (Instr.cellShl 0 1 32 0 false false true).wf = false ∧ (Instr.cellShr 0 1 63 0 false false true).wf = false ∧
    (Instr.cellSra 0 1 32 0 false false true).wf = false ∧ (Instr.vbcast 0 1 32 0 false false true).wf = false ∧
    (Instr.cellShl 0 1 31 0 false false true).wf = true ∧ (Instr.cellShl 0 1 32 0 false false false).wf = true := by decide
theorem test_wf_mov_push_port :
    (Instr.mov 0 1 0 0 false false true).wf = false ∧ (Instr.mov 0 1 11 0 false false false).wf = false ∧
    (Instr.mov 0 1 11 0 false false true).wf = true := by decide
theorem test_wf_optupd :
    (Instr.optupd 7 16 0 0 false false false).wf = false ∧ (Instr.optupd 6 15 0 0 false false false).wf = false ∧
    (Instr.optupd 6 16 1 0 false false false).wf = false ∧ (Instr.optupd 3 16 2 0 false false false).wf = false ∧
    (Instr.optupd 6 16 4 0 false false false).wf = true := by decide
theorem test_wf_accumulators :
    (Instr.mma 15 0 0 0 false).wf = false ∧ (Instr.mma 16 31 0 0 false).wf = false ∧ (Instr.mmaNeg 16 0 16 0 false).wf = false ∧
    (Instr.mmaSel 32 0 0 0).wf = false ∧ (Instr.aclr 15 0).wf = false ∧ (Instr.amov 10 16 0 false false).wf = false ∧
    (Instr.amov 0 15 0 false false).wf = false ∧ (Instr.ald 16 16 0 false false).wf = false ∧
    (Instr.arnd 16 16 0 0 false false false).wf = false ∧ (Instr.racc 15 0 0 0).wf = false ∧ (Instr.mma 31 0 15 0 false).wf = true := by decide
theorem test_wf_unbind_port :
    (Instr.unbind 0 8 0 1).wf = false ∧ (Instr.unbind 0 0 0 4).wf = false ∧ (Instr.unbind 0 7 0 3).wf = true := by decide
theorem test_wf_engine_register :
    (Instr.mtx 0 1 0 0 12).wf = false ∧ (Instr.mtx 0 1 2 0 11).wf = false ∧ (Instr.mtx 0 1 0 0 15).wf = false ∧
    (Instr.mtx 0 1 0 0 11).wf = true := by decide

/-! ## Decode: words written out bit by bit from the encoding chapter (spec/03_encoding.md, and the chapters that own the fields) -/

/-- R40: the all-zero word is NOP in every slot; a zero opcode with another bit set is none. -/
theorem test_decode_nop :
    (decodeSc 0).toOption = some .nop ∧ (decodeCell .va 0).toOption = some .nop ∧ (decodeCell .vb 0).toOption = some .nop ∧
    (decodeCell .mx 0).toOption = some .nop ∧
    (decodeCopy 0).toOption = some .nop ∧ (decodeSc 1).isOk = false := by decide +kernel
/-- Scalar integer family: opcode 0x01, rd 3, ra 4, rb 5; opcode 0x02 with imm12 1; LUI with imm17 0x1CDEF. -/
theorem test_decode_scalar_integer :
    (decodeSc 0x02064280).toOption = some (.add 0 3 4 5 false) ∧ (decodeSc 0x040C6001).toOption = some (.addi 0 6 6 1) ∧
    (decodeSc 0x1A0BCDEF).toOption = some (.lui 0 5 0x1CDEF) := by decide +kernel
theorem test_decode_control_flow :
    (decodeSc 0x34000000).toOption = some (.mark 0) ∧ (decodeSc 0x36000064).toOption = some (.pause 0 100) ∧
    (decodeSc 0x383FFFC0).toOption = some (.wait 0 31 31 63 0) ∧
    (decodeSc 0x3C000005).toOption = some (.trap 0 5) ∧ (decodeSc 0x3E000000).toOption = some .eret := by decide +kernel
theorem test_decode_scalar_memory :
    (decodeSc 0x46C84002).toOption = some (.ldD 3 4 2 false 0 2) ∧ (decodeSc 0x60069000).toOption = some (.xlat 0 3 9) ∧
    (decodeSc 0x62060000).toOption = some (.hinv 0 3) ∧
    (decodeSc 0x64085000).toOption = some (.hinfo 0 4 5) ∧ (decodeSc 0x700A4B00).toOption = some (.ldf 0 5 9 12) := by decide +kernel
theorem test_decode_atomics :
    (decodeSc 0x7808670E).toOption = some (.amoAdd 0 4 3 7 true true 2) ∧ (decodeSc 0x7C0A4815).toOption = some (.accFadd 0 5 2 8 true 1) ∧
    (decodeSc 0x80001C00).toOption = some (.fence 0 3 2) ∧ (decodeSc 0x82000000).toOption = some (.flushres 0) ∧
    (decodeSc 0x84022800).toOption = some (.resid 0 true 5) := by
  decide +kernel
theorem test_decode_registers_and_tiles :
    (decodeSc 0x960E0003).toOption = some (.mfaColall 0 7) ∧ (decodeSc 0xA0060002).toOption = some (.sync 0 3 2) ∧
    (decodeSc 0xA2081800).toOption = some (.cbinit 0 4 3 0) := by
  decide +kernel
theorem test_decode_cells :
    (decodeCell .va 0x048C1354).toOption = some (.fma 0x23 1 0x0D 2 true false false) ∧
    (decodeCell .vb 0x130820D1).toOption = some (.hfma2 2 2 3 2 false false true) ∧
    (decodeCell .va 0x3A202112).toOption = some (.icmpLt 8 2 4 2 false true false) ∧
    (decodeCell .mx 0xC04CD289).toOption = some (.mma 0x13 0x0D 0x0A 1 true) := by decide +kernel
theorem test_decode_copy :
    (decodeCopy 0x020A6419).toOption = some (.copy 0 5 6 1 false true 2 1) ∧
    (decodeCopy 0x04085841).toOption = some (.copyg 0 4 5 2 false true false false 0 1) ∧
    (decodeCopy 0x0C000000).toOption = some (.bind 0 0) ∧ (decodeCopy 0x0E040440).toOption = some (.unbind 0 2 1 1) ∧
    (decodeCopy 0x1C0C7040).toOption = some (.mtx 0 6 7 0 1) := by decide +kernel
/-- Families not met above, each field at a value that no other field of the word has where it can. -/
theorem test_decode_more_words :
    (decodeSc 0x297FFFFE).toOption = some (.br 5 0x3FFFFE) ∧ (decodeSc 0x2E7E7000).toOption = some (.jr 1 31 7) ∧
    (decodeSc 0x30029812).toOption = some (.loop 0 true 9 0x812) ∧ (decodeSc 0x24864280).toOption = some (.band 2 3 4 5) ∧
    (decodeSc 0x7BADB10A).toOption = some (.cas 6 11 13 17 true false 2) ∧ (decodeSc 0x8810020F).toOption = some (.mfc 0 8 0x20F) ∧
    (decodeSc 0x900D5004).toOption = some (.mtw 0 6 21 4) ∧ (decodeSc 0x94CA2B01).toOption = some (.wrot 3 5 2 2 true 0x101) ∧
    (decodeSc 0x9809F0C0).toOption = some (.talloc 0 4 62 3) ∧ (decodeSc 0x9FC90F80).toOption = some (.tmove 7 4 33 30) ∧
    (decodeSc 0xA80210C0).toOption = some (.cbwait 0 1 2 3) ∧ (decodeSc 0xB00A6007).toOption = some (.dqpush 0 5 6 7) ∧
    (decodeSc 0xB61521FF).toOption = some (.tlaunch 0 10 9 0x1FF) ∧ (decodeSc 0xB820F000).toOption = some (.locq 0 16 15) ∧
    (decodeSc 0xBA022180).toOption = some (.seal 0 1 2 3) ∧ (decodeSc 0xC006483F).toOption = some (.playW 0 3 4 16 63) ∧
    (decodeSc 0xC40629C0).toOption = some (.ldatt 0 3 5 7) ∧ (decodeSc 0x761342C0).toOption = some (.stfk 0 9 40 11) ∧
    (decodeCell .va 0x40005FCB).toOption = some (.ldc 0 5 0x3F 1 false true true) ∧
    (decodeCell .vb 0x428450BC).toOption = some (.vgath 33 5 2 7 true false) ∧
    (decodeCell .vb 0x4C0420C2).toOption = some (.vperm 1 2 3 0 false true) ∧
    (decodeCell .vb 0x500420E4).toOption = some (.flag 1 2 3 4 true) ∧
    (decodeCell .vb 0x53190101).toOption = some (.optupd 6 16 4 0 false false true) ∧
    (decodeCell .mx 0xC445F010).toOption = some (.amov 17 31 2 false false) ∧
    (decodeCell .mx 0xC6814046).toOption = some (.arnd 32 20 1 0 true true false) ∧
    (decodeCell .mx 0xC7489298).toOption = some (.racc 18 9 10 3) ∧
    (decodeCopy 0x0A0A68D6).toOption = some (.fill 0 5 6 2 3 false true 1 2) ∧
    (decodeCopy 0x104A6C80).toOption = some (.rankx 1 5 6 3 true false) ∧
    (decodeCopy 0x16109421).toOption = some (.xmit 0 8 9 1 true false 0 1) ∧ (decodeCopy 0x18022000).toOption = some (.imux 0 1 2 0) ∧
    (decodeCopy 0x1B180000).toOption = some (.phaseOpen 4 12) := by
  decide +kernel
/-- The words above carry no bit that the encoder drops. -/
theorem test_encode_words :
    encode (.add 0 3 4 5 false) = 0x02064280 ∧ encode (.fma 0x23 1 0x0D 2 true false false) = 0x048C1354 ∧
    encode (.copy 0 5 6 1 false true 2 1) = 0x020A6419 ∧ encode (.wait 0 31 31 63 0) = 0x383FFFC0 := by decide +kernel
/-- A word is decoded only by a slot that accepts its opcode: MMA is refused in VA. -/
theorem test_decode_slot_class : (decodeCell .va 0xC04CD289).isOk = false := by decide +kernel

/-! ## States -/

/-- Array 0 running a task of partition 0, its sequencer and array after `f` and `g`. -/
def task (f : Seq → Seq) (g : Arr → Arr) : State := modArr (modSeq (loadBundle State.reset 0) 0 f) 0 g

/-- The same, with registers set. -/
def regs (l : List (Nat × Word)) : State := task (fun q => { q with s := l.foldl (fun v x => vset v x.1 x.2) q.s }) id

/-- The next state of a meaning, or the state given where there is none. -/
def next (r : MOut) (d : State) : State := match r with
  | .next t => t
  | _ => d

/-- Register `r` after an SC instruction run with the registers given. -/
def scReg (l : List (Nat × Word)) (i : Instr) (r : Nat) : Word := reg (next (exec i (regs l)) State.reset) r

/-- Cell 0 of a word issued by array 0, with the fragments given. -/
def cell (l : List (Nat × Frag)) : State :=
  let s : State := task id id
  { l.foldl (fun s x => setFrag s 0 x.1 x.2) s with cell := { mask := { rows := 0xFFFFFFFF, cols := 0xFFFFFFFF } } }

/-- Lane `k` of a register after a cell instruction run with the fragments given. -/
def cellLane (l : List (Nat × Frag)) (i : Instr) (r k : Nat) : Lane := lane (getFrag (next (exec i (cell l)) State.reset) 0 r) k

/-! ## Single instructions, against values worked out by hand from the rules -/

/-- R116: the sum wraps at 64 bits; the .W form wraps at 32 and sign-extends (R118). -/
theorem test_add_wraps : scReg [(4, -1), (5, 2)] (.add 0 3 4 5 false) 3 = 1 ∧
    scReg [(4, 0x7FFFFFFF), (5, 1)] (.add 0 3 4 5 true) 3 = 0xFFFFFFFF80000000 := by decide +kernel
/-- R99: a write to s0 is discarded. -/
theorem test_s0_discards : scReg [(4, 7), (5, 8)] (.add 0 0 4 5 false) 0 = 0 := by decide +kernel
/-- R116: source also destination. -/
theorem test_sub_source_is_destination : scReg [(4, 7), (5, 9)] (.sub 0 4 4 5 false) 4 = -2 := by decide +kernel
/-- R116: the shift count is taken modulo the width. -/
theorem test_shift_counts : scReg [(4, 3), (5, 65)] (.shl 0 3 4 5 false) 3 = 6 ∧
    scReg [(4, 0x80000000), (5, 33)] (.sra 0 3 4 5 true) 3 = 0xFFFFFFFFC0000000 := by decide +kernel
/-- R116: the high half of a signed and of an unsigned product. -/
theorem test_mulh : scReg [(4, -1), (5, -1)] (.mulh 0 3 4 5) 3 = 0 ∧ scReg [(4, -1), (5, -1)] (.mulhn 0 3 4 5) 3 = -2 := by decide +kernel
/-- R119: a zero divisor gives all ones and the dividend; a negative quotient is truncated toward zero. -/
theorem test_division : scReg [(4, 9)] (.div 0 3 4 5 false) 3 = -1 ∧ scReg [(4, 9)] (.rem 0 3 4 5 false) 3 = 9 ∧
    scReg [(4, -7), (5, 2)] (.div 0 3 4 5 false) 3 = -3 ∧ scReg [(4, -7), (5, 2)] (.rem 0 3 4 5 false) 3 = -1 := by decide +kernel
/-- R117: LUI shifts 17 bits in below the register it writes. -/
theorem test_lui : scReg [(3, 1)] (.lui 0 3 0x1FFFF) 3 = 0x3FFFF := by decide +kernel
/-- R121: a signed and an unsigned compare of −1 with 1. -/
theorem test_compare_signs :
    pred (next (exec (.cmpLt 0 2 4 5) (regs [(4, -1), (5, 1)])) State.reset) 2 = true ∧
    pred (next (exec (.cmpLtn 0 2 4 5) (regs [(4, -1), (5, 1)])) State.reset) 2 = false := by decide +kernel
/-- R124: a branch goes to PC plus 24 times its signed offset. -/
theorem test_branch_back :
    (curSeq (next (exec (.j 0x3FFFFF) (task (fun q => { q with pc := 240 }) id)) State.reset)).npc = 216 := by decide +kernel
/-- R161: 1.5 + 2.25 = 3.75, and a lane of −0 and +0 sums to +0 under round to nearest. -/
theorem test_fadd : cellLane [(0, splat 0x3FC00000), (1, splat 0x40100000)] (.fadd 2 0 1 0 false false) 2 31 = 0x40700000 ∧
    cellLane [(0, splat 0x80000000)] (.fadd 2 0 1 0 false false) 2 0 = 0 := by decide +kernel
/-- R161: FMA rounds once: (1 + 2⁻²³)² − 1 is 2⁻²² + 2⁻⁴⁶ exactly, which needs 25 bits and rounds to 2⁻²². -/
theorem test_fma_one_rounding :
    cellLane [(0, splat 0x3F800001), (1, splat 0x3F800001), (2, splat 0xBF800000)] (.fma 2 0 1 0 false false false) 2 5 = 0x34800000 := by
  decide +kernel
/-- R164: lanes wrap; a 6-bit immediate is sign-extended in arithmetic. -/
theorem test_iadd_immediate : cellLane [(0, splat 0)] (.iadd 2 0 0x3F 0 false false true) 2 9 = 0xFFFFFFFF := by decide +kernel
/-- R143: from seed 1 the generator's first value is 0x00042021. -/
theorem test_srng_first : cellLane [(0, splat 1)] (.srng 2 0 0 false false) 2 0 = 0x00042021 := by decide +kernel
/-- R52, R147: a cell that its pair does not select keeps its registers. -/
theorem test_unselected_cell :
    lane (getFrag (next (exec (.iadd 2 0 1 0 false false true) { cell [] with cell := {} }) State.reset) 0 2) 0 = 0 := by decide +kernel
/-- R432: ERET outside the monitor raises PRIV. -/
theorem test_eret_outside : ((next (exec .eret (task id id)) State.reset).bun.raised.map (·.code)) = some 0x03 := by decide +kernel
/-- R287: MTX writes two neighbouring registers of an engine. -/
theorem test_mtx_pair :
    let t := next (exec (.mtx 0 4 5 2 3) (regs [(4, 11), (5, 12)])) State.reset
    engX t 2 3 = 11 ∧ engX t 2 4 = 12 := by decide +kernel

/-- The example vector of FIPS 197 for a 32-byte key (R358 names the cipher), both ways. -/
theorem test_aes_256 :
    let ks := roundKeys 0x1F1E1D1C1B1A191817161514131211100F0E0D0C0B0A09080706050403020100
    aesEncrypt ks 0xFFEEDDCCBBAA99887766554433221100 = 0x8960494B9049FCEABF456751CAB7A28E ∧
    aesDecrypt ks 0x8960494B9049FCEABF456751CAB7A28E = 0xFFEEDDCCBBAA99887766554433221100 := by decide +kernel

/-! ## Witnesses: for each statement with hypotheses, states and operands that meet them, clause by clause, at the ends of their ranges -/

/-- Whether a check lets the access through. -/
def chkIsOk : Chk → Bool
  | .ok _ => true
  | _ => false

theorem chk_ok {c : Chk} (h : chkIsOk c = true) : ∃ pl, c = .ok pl := by
  cases c with
  | ok pl => exact ⟨pl, rfl⟩
  | _ => simp [chkIsOk] at h

theorem except_ok {ε α : Type} {x : Except ε α} (h : x.isOk = true) : ∃ v, x = .ok v := by
  cases x with
  | ok v => exact ⟨v, rfl⟩
  | error e => simp [Except.isOk, Except.toBool] at h

/-- Whether a release of the gate buffer is done. -/
def relIsDone : Rel → Bool
  | .done => true
  | _ => false

/-- The state in which a release that is done goes on. -/
def relState (s : State) : State :=
  if (gateRelease s (curA s)).2.1 > 0 then holdUntil (gateRelease s (curA s)).1 (s.cyc + (gateRelease s (curA s)).2.1)
  else (gateRelease s (curA s)).1

theorem released_state {s : State} (h : (curSeq s).mon = false) (d : relIsDone (gateRelease s (curA s)).2.2 = true) :
    Released s (relState s) := by
  unfold relState
  rcases e : gateRelease s (curA s) with ⟨u, n, r⟩
  cases r with
  | done => exact .inr ⟨h, u, n, e, rfl⟩
  | _ => simp [e, relIsDone] at d

theorem released_of {s : State} (h : (curSeq s).mon = false) (d : relIsDone (gateRelease s (curA s)).2.2 = true) :
    ∃ t, Released s t := ⟨_, released_state h d⟩

theorem released_room {s : State} (h : (curSeq s).mon = false) (d : relIsDone (gateRelease s (curA s)).2.2 = true)
    (r : (curSeq (relState s)).st < 255) : ∃ t, Released s t ∧ (curSeq t).st < 255 := ⟨_, released_state h d, r⟩

theorem gated_of {s : State} (e : GateEntry) (h : (curSeq s).gate.length < 64) : ∃ t, Gated s e t := ⟨_, .inl ⟨h, rfl⟩⟩

theorem gated_full {s : State} (e : GateEntry) (h : 64 ≤ (curSeq s).gate.length) (r : ∃ t, Released s t) : ∃ t, Gated s e t :=
  r.elim fun u hu => ⟨_, .inr ⟨h, u, hu, rfl⟩⟩

/-- A handle on the first 48 KiB page of device memory, readable and writable, whose anchor is `va`. -/
def pageHandle (va : Word) : Handle := { st := .valid, va := va, leaf := programLeaf }

/-- Slots 1 to 4: a pad tile of 64 words with full and empty words, a plain pad tile of 128 words, a CELL tile of 1,024 words in FP32,
and a sparse CELL tile in BF16; handle 1 on a page; group 0 with array 0 its only member. -/
def world (f : Seq → Seq) : State :=
  let s := task (fun q => f { q with
    t := ((Vector.replicate 64 0 |> (vset · 1 0x4001)) |> (vset · 2 0x4002)) |> (vset · 3 0x4003) |> (vset · 4 0x4004)
    h := vset q.h 1 (pageHandle 47104) }) id
  { s with
    parts := vmod {} s.parts 0 fun p => { p with gcount := 1, tcount := 16 }
    groups := [(0, { members := 1 })]
    tiles := [(1, { st := .live, level := 1, type := 6, fe := true, placed := true, rows := 8, cols := 8, hcount := 8, base := 0, words := 64 }),
      (2, { st := .live, level := 1, type := 6, placed := true, rows := 8, cols := 16, hcount := 8, base := 64, words := 128 }),
      (3, { st := .live, level := 0, type := 6, placed := true, rows := 32, cols := 32, hcount := 32, base := 0, words := 1024 }),
      (4, { st := .live, level := 0, type := 0, sparse := true, placed := true, rows := 32, cols := 32, hcount := 32, base := 1024,
            words := 512 })] }

/-- The world in the monitor. -/
def monitor : State := world fun q => { q with mon := true }

/-- The world with registers set. -/
def worldRegs (l : List (Nat × Word)) : State := world fun q => { q with s := l.foldl (fun v x => vset v x.1 x.2) q.s }

/-- The world with s24 bound to a stream that holds an element. -/
def streamState : State :=
  let s := world id
  modArr s 0 fun x => { x with ports := [(8, { pats := [{ tile := 2, slot := 2, counts := [4, 1, 1, 1] }], pos := 1, elems := [7] })] }

theorem witness_slot_ready :
    SlotReady (world id) 0 [4, 5] [3] ∧ SlotReady (world fun q => { q with b := vset q.b 7 true }) 7 [31, 0] [0] ∧
    isBound streamState 0 24 = true ∧ SlotReady streamState 0 [24, 4] [3] := by
  unfold SlotReady; decide +kernel

theorem witness_ScTwoSourceFunctions : SlotReady (worldRegs [(4, -1), (5, 64)]) 0 [4, 5] [3] := by unfold SlotReady; decide +kernel

theorem witness_ScOneSourceFunctions : SlotReady (worldRegs [(4, 0x80)]) 0 [4] [3] := by unfold SlotReady; decide +kernel

theorem witness_LeadingZeroAndOneBitCounts :
    (8 - clzOf (0x10 : BitVec 8) ≤ 7) ∧ (0x10 : BitVec 8) ≠ 0 ∧ (3 < 8 ∧ (0x10 : BitVec 8).getLsbD 3 = false) := by decide

theorem witness_ScDivision :
    let s := worldRegs [(4, BitVec.intMin 64), (5, -1), (6, 0), (7, 3)]
    (curSeq s).divBusy ≤ s.cyc ∧ SlotReady s 0 [4, 5] [3] ∧ SlotReady s 0 [4, 6] [3] ∧ SlotReady s 0 [4, 7] [3] ∧
    reg s 4 = BitVec.intMin 64 ∧ reg s 5 = -1 ∧ reg s 6 = 0 := by unfold SlotReady; decide +kernel

theorem witness_ScImmediatesAndSelect :
    SlotReady (world id) 0 [4] [3] ∧ SlotReady (world id) 0 [] [3] ∧ SlotReady (world id) 0 [3] [3] ∧ SlotReady (world id) 0 [4, 5] [3] ∧
    (63 : BitVec 12).toNat < 64 := by unfold SlotReady; decide +kernel

theorem witness_ScComparesAndPredicates :
    SlotReady (world id) 0 [4, 5] [] ∧ SlotReady (world id) 0 [4] [] ∧ SlotReady (world id) 0 [] [] := by
  unfold SlotReady; decide +kernel

theorem witness_ScControlFlow :
    SlotReady (world id) 0 [] [] ∧ SlotReady (world id) 0 [] [31] ∧ SlotReady (worldRegs [(4, 48)]) 0 [4] [31] ∧
    (reg (worldRegs [(4, 48)]) 4).toNat % 24 = 0 ∧ (curSeq (world id)).stop = .run := by unfold SlotReady; decide +kernel

/-- A level 1 loop in no loop, and one just inside the level 0 loop (bundles 24 to 96 about the bundles 48 to 96). -/
theorem witness_ScLoops :
    let s := world fun q => { q with pc := 24, lc0 := 3, lb0 := lbOf 24 96 }
    SlotReady (world id) 0 [4] [] ∧ (curSeq (world id)).lc0 = 0 ∧ SlotReady s 0 [4] [] ∧ nested (curSeq s) 48 (24 + 24 * 3) = true ∧
    (reg (worldRegs [(4, 5)]) 4).toNat % 2 ^ 32 ≠ 0 ∧ (reg (world id) 4).toNat % 2 ^ 32 = 0 := by unfold SlotReady; decide +kernel

theorem witness_ScMarkPauseWaitTendTrap :
    (SlotReady monitor 0 [] [] ∧ (curSeq monitor).mon = true) ∧
    (SlotReady (world id) 0 [] [] ∧ (curSeq (world id)).mon = false ∧ ∃ t, Released (markPopped (world id) []) t) ∧
    (let s := world fun q => { q with ld := 31, st := 0, cp := 63, wf := 2 }
     SlotReady s 0 [] [] ∧ (curSeq s).ld ≤ (31 : BitVec 5).toNat ∧ (curSeq s).st ≤ (0 : BitVec 5).toNat ∧
     (curSeq s).cp ≤ (63 : BitVec 6).toNat ∧ (curSeq s).wf ≤ (2 : BitVec 6).toNat) := by
  refine ⟨by unfold SlotReady; decide +kernel,
    ⟨by unfold SlotReady; decide +kernel, by decide +kernel, released_of (by decide +kernel) (by decide +kernel)⟩, ?_⟩
  unfold SlotReady; decide +kernel

/-- With a store in the gate buffer the release is done a cycle later. -/
theorem witness_release_of_a_gated_store :
    let s := world fun q => { q with gate := [.store 1 0 8 5 false 0, .tile 0 1 3 4 5 false 0, .fence 2] }
    (∃ t, Released s t) ∧ (gateRelease s 0).2.1 = 3 :=
  ⟨released_of (by decide +kernel) (by decide +kernel), by decide +kernel⟩

theorem witness_ScControlRegisters :
    (SlotReady monitor 0 [] [3] ∧ ctlPriv 0x100 = true ∧ (curSeq monitor).mon = true) ∧
    (SlotReady (world id) 0 [] [3] ∧ ctlPriv 0x0FF = false ∧ ctlPriv 0x107 = false) ∧
    (SlotReady (worldRegs [(4, 0x1A)]) 0 [4] [] ∧ pmctlOk (reg (worldRegs [(4, 0x1A)]) 4) = true) ∧
    (SlotReady (worldRegs [(4, 0x43004)]) 0 [4] [] ∧ fmtOk (reg (worldRegs [(4, 0x42304)]) 4) = true) ∧
    SlotReady (world id) 0 [4] [3] := by unfold SlotReady; decide +kernel

theorem witness_ScHandles :
    SlotReady (worldRegs [(4, 0x1000)]) 0 [4] [] ∧ (SlotReady monitor 0 [4] [] ∧ (curSeq monitor).mon = true) ∧
    SlotReady (world id) 0 [] [] ∧ SlotReady (world id) 0 [4] [3] ∧
    (∀ e ∈ (curSeq (world id)).locks, e.1 = 40 + 1 % 16 → e.2 ≤ (world id).cyc) ∧
    (reg (worldRegs [(4, 0x2FFFFFFFFFFFFFFF)]) 4).toNat / 2 ^ 60 ≠ 3 ∧ (reg (worldRegs [(4, 0x3000000000000000)]) 4).toNat / 2 ^ 60 = 3 ∧
    (let s := { world (fun q => { q with xlats := [(17, 2, 0x1000), (16, 3, 0x200000000000000)] }) with cyc := 16 }
     (seqAt s 0).xlats.find? (fun x => x.1 ≤ s.cyc) = some (16, 3, 0x200000000000000)) := by
  unfold SlotReady; decide +kernel

/-- The last doubleword of the page, at an anchor 2,048 bytes below its end, through the largest offset a load has; the last words of
a tile. -/
theorem witness_ScLoads :
    (SlotReady (world id) 0 [] [3] ∧
      (∃ pl, handleChk (markPopped (world id) []) (.ldD 0 3 1 false 0 255) 1 true ((255 : BitVec 9).toInt * 8) 8 true false false = .ok pl) ∧
      (∃ pl, handleChk (markPopped (world id) []) (.ldB 0 3 1 true 3 0x100) 1 true ((0x100 : BitVec 9).toInt * 1) 1 true false false = .ok pl)) ∧
    (let s := worldRegs [(4, 49148)]
     SlotReady s 0 [4] [3, 4] ∧ (reg s 4).toNat < 2 ^ 57 ∧
     ∃ pl, handleChk (markPopped s [4]) (.ldpW 0 3 1 4 127) 1 false (reg s 4).toNat 4 true false false = .ok pl) ∧
    (let s := worldRegs [(4, 63), (5, 62)]
     SlotReady s 0 [4] [3] ∧ tileSaved s 1 = false ∧
     (∃ r, tileChk (markPopped s [4]) (.ldtW 0 3 1 4 false 0) 1 (reg s 4) 1 false false = .ok r) ∧
     SlotReady s 0 [5] [3] ∧ ∃ r, tileChk (markPopped s [5]) (.ldtD 0 3 1 5 true 2) 1 (reg s 5) 2 false false = .ok r) := by
  refine ⟨⟨?_, chk_ok ?_, chk_ok ?_⟩, ⟨?_, ?_, chk_ok ?_⟩, ?_, ?_, except_ok ?_, ?_, except_ok ?_⟩ <;>
    first | decide +kernel | (unfold SlotReady; decide +kernel)

theorem witness_ScStores :
    (SlotReady (world id) 0 [3] [] ∧
      (∃ pl, handleChk (markPopped (world id) [3]) (.stD 0 3 1 false 0 255) 1 true ((255 : BitVec 9).toInt * 8) 8 false true true = .ok pl) ∧
      (curSeq (world id)).mon = false ∧ ∃ u, Gated (markPopped (world id) [3]) (.store 1 49144 8 0 false 0) u) ∧
    (SlotReady monitor 0 [3] [] ∧ (curSeq monitor).mon = true ∧
      ∃ pl, handleChk (markPopped monitor [3]) (.stB 0 3 1 true 2 0) 1 true ((0 : BitVec 9).toInt * 1) 1 false true true = .ok pl) ∧
    (let s := worldRegs [(4, 49148)]
     SlotReady s 0 [3, 4] [4] ∧ s.bun.blocked = false ∧ s.bun.raised = none ∧ (reg s 4).toNat < 2 ^ 57 ∧
     (∃ pl, handleChk (markPopped s [3, 4]) (.stpW 0 3 1 4 0) 1 false (reg s 4).toNat 4 false true true = .ok pl) ∧
     ∃ u, Gated (markPopped s [3, 4]) (.store 1 49148 4 0 false 0) u ∧ u.bun.blocked = false ∧ u.bun.raised = none) ∧
    (let s := worldRegs [(4, 63), (5, 62)]
     SlotReady s 0 [3, 4] [] ∧ tileSaved s 1 = false ∧
     (∃ r, tileChk (markPopped s [3, 4]) (.sttW 0 3 1 4 false 0) 1 (reg s 4) 1 true false = .ok r) ∧
     (∃ r, tileChk (markPopped s [3, 5]) (.sttD 0 3 1 5 false 0) 1 (reg s 5) 2 true false = .ok r) ∧
     (∃ r, tileChk (markPopped s [3, 4]) (.stfk 0 3 1 4) 1 (reg s 4) 1 true true = .ok r) ∧
     ∃ u, Released (markPopped s [3, 4]) u ∧ (curSeq u).st < 255) := by
  refine ⟨⟨?_, chk_ok ?_, ?_, gated_of _ ?_⟩, ⟨?_, ?_, chk_ok ?_⟩, ⟨?_, ?_, ?_, ?_, chk_ok ?_, ⟨_, .inl ⟨?_, rfl⟩, ?_, ?_⟩⟩,
      ?_, ?_, except_ok ?_, except_ok ?_, except_ok ?_, released_room ?_ ?_ ?_⟩ <;>
    first | decide +kernel | (unfold SlotReady; decide +kernel)

/-- A 65th entry meets a full gate buffer: it is released first (R439). -/
theorem witness_full_gate_buffer :
    let s := world fun q => { q with gate := List.replicate 64 (.store 1 0 8 5 false 0) }
    ∃ t, Gated s (.fence 1) t :=
  gated_full _ (by decide +kernel) (released_of (by decide +kernel) (by decide +kernel))

theorem witness_ScFullEmpty :
    let s := worldRegs [(4, 63)]
    let w := world fun q => { q with feDone := some (0x100000005, true) }
    let addr : Nat := tileBase (tileAt s 1) 0 + 4 * 63
    (tileSaved s 1 = false ∧ (curSeq s).feDone = none ∧ (curSeq s).feReq = none ∧ (curSeq s).retryAt = none) ∧
    (SlotReady s 0 [4] [3] ∧
      (∃ u, Released (markPopped s [4]) u ∧ feBlocked u (curA u) 0 addr = false ∧ feBlocked u (curA u) 1 addr = false) ∧
      (∃ r, tileChk (markPopped s [4]) (.ldf 0 3 1 4) 1 (reg s 4) 1 false true = .ok r) ∧
      ∃ r, tileChk (markPopped s [4]) (.ldfk 0 3 1 4) 1 (reg s 4) 1 false true = .ok r) ∧
    (SlotReady s 0 [3, 4] [3] ∧ (∃ u, Released (markPopped s [3, 4]) u ∧ feBlocked u (curA u) 2 addr = false) ∧
      ∃ r, tileChk (markPopped s [3, 4]) (.ste 0 3 1 4) 1 (reg s 4) 1 true true = .ok r) ∧
    ((curSeq w).feDone = some (0x100000005, true) ∧ SlotReady w 0 [4] [3] ∧ SlotReady w 0 [3, 4] [3]) := by
  refine ⟨?_, ⟨?_, ⟨_, released_state ?_ ?_, ?_⟩, except_ok ?_, except_ok ?_⟩, ⟨?_, ⟨_, released_state ?_ ?_, ?_⟩, except_ok ?_⟩, ?_⟩ <;>
    first | decide +kernel | (unfold SlotReady; decide +kernel)

/-- A page at its last 8 bytes and, with bit 63 of the address word, at its last 4; a tile through handle 15, whose address word names
slot 2 and word 127; a residual tile that is full excludes nothing else. -/
theorem witness_ScAtomics :
    let s := worldRegs [(4, 49144), (5, 0x800000000000BFFC), (6, 0x200007F)]
    (SlotReady s 0 [3, 4] [3] ∧ (∃ u, Released (markPopped s [3, 4]) u ∧ (curSeq u).st < 255) ∧
      (∃ pl, atomicChk (markPopped s [3, 4]) (.amoAdd 0 3 1 4 true true 2) 1 (reg s 4) 0 0x3C 8 true = .ok pl) ∧
      (∃ pl, atomicChk (markPopped s [3, 5]) (.amoFadd 0 3 1 5 false false 0) 1 (reg s 5) 9 0x3C 4 true = .ok pl) ∧
      ∃ pl, atomicChk (markPopped s [3, 6]) (.amoSwap 0 3 15 6 false false 3) 15 (reg s 6) 8 0x3C 4 true = .ok pl) ∧
    (SlotReady s 0 [30, 31, 4] [30] ∧ (∃ u, Released (markPopped s [30, 31, 4]) u ∧ (curSeq u).st < 255) ∧
      ∃ pl, atomicChk (markPopped s [30, 31, 4]) (.cas 0 15 1 4 true false 0) 1 (reg s 4) 0 0x3D 8 true = .ok pl) ∧
    (SlotReady s 0 [3, 4] [] ∧ residFull (markPopped s [3, 4]) (curA s) = false ∧
      (∃ pl, atomicChk (markPopped s [3, 4]) (.accBfadd 0 3 1 4 false 0) 1 (reg s 4) 2 0x3E 2 false = .ok pl) ∧
      ∃ pl, atomicChk (markPopped s [3, 6]) (.accAdd 0 3 15 6 true 1) 15 (reg s 6) 0 0x3E 4 false = .ok pl) := by
  refine ⟨⟨?_, released_room ?_ ?_ ?_, chk_ok ?_, chk_ok ?_, chk_ok ?_⟩, ⟨?_, released_room ?_ ?_ ?_, chk_ok ?_⟩, ?_, ?_, chk_ok ?_, chk_ok ?_⟩ <;>
    first | decide +kernel | (unfold SlotReady; decide +kernel)

theorem witness_ScFences :
    let s := world id
    (SlotReady s 0 [] [] ∧ s.bun.blocked = false ∧ s.bun.raised = none ∧ (curSeq s).mon = false) ∧
    (SlotReady monitor 0 [] [] ∧ monitor.bun.blocked = false ∧ monitor.bun.raised = none ∧ (curSeq monitor).mon = true) ∧
    ((1 : BitVec 2).getLsbD 1 = false ∧ (1 : BitVec 2).getLsbD 0 = true ∧ (3 : BitVec 2).getLsbD 1 = true ∧ (3 : BitVec 2) ≠ 0) ∧
    (∃ u, Gated (markPopped s []) (.fence 3) u ∧ u.bun.blocked = false ∧ u.bun.raised = none) ∧
    tileSaved s 2 = false ∧ ∃ n, residChk (markPopped s []) (.resid 0 true 2) 2 = .ok n := by
  refine ⟨?_, ?_, ?_, ⟨_, .inl ⟨?_, rfl⟩, ?_, ?_⟩, ?_, except_ok ?_⟩ <;>
    first | decide +kernel | (unfold SlotReady; decide +kernel)

/-- Descriptors: a pad tile of 8 by 8 FP32; the same with its reserved bit 50 set. -/
def desc : Word := 0x0000000E00080008

theorem witness_ScTiles :
    let s := worldRegs [(4, desc), (5, desc + 0x4000000000000)]
    let w := regionNext (markPopped s [4])
    let y := (descTile desc).1
    let die : Word := 0x0003001600080008
    let late := regionNext (markPopped (world fun q => { q with permAt := some 0 }) [4])
    let tile : Tile := { y.inCells (chainOf w (curA w)) with part := curPart w, homeArr := homeOf w y 0 0, len := 0, placed := true, binds := 1, owner := some (0, curTid w) }
    (SlotReady s 0 [4] [3] ∧ ∃ u, Released (markPopped s [4]) u) ∧
    (curTile w 1).isSome = true ∧ (curTile w 9 = none ∧ tileSaved w 9 = false) ∧
    tallocOk (reg s 5) (curSeq w).len = false ∧ (tallocOk (reg s 4) (curSeq w).len = true ∧ y.level = 1) ∧
    freeEntry w 0 = some 0 ∧ freeEntry { w with parts := vmod {} w.parts 0 fun p => { p with tbase := 1, tcount := 4 } } 0 = none ∧
    lowestFit w tile = some 192 ∧
    lowestFit { w with tiles := tset {} w.tiles 2 { tileAt w 2 with words := 2 ^ 21 - 64 } } tile = none ∧
    (tallocOk die (curSeq w).len = true ∧ (descTile die).1.level = 2 ∧
      homeOf w (descTile die).1 (descTile die).2.1 (descTile die).2.2 = 3 ∧ quarterPart w 3 ≠ some (curPart w) ∧
      quarterPart w 0 = some (curPart w) ∧ (curSeq w).permAt = none ∧ (curSeq late).permAt = some 0 ∧ 0 ≤ late.cyc) ∧
    (SlotReady s 0 [] [] ∧ tileSaved s 1 = false ∧ (∃ r, slotChk (markPopped s []) (.tfree 0 1) 1 true = .ok r) ∧
      streamOn s (curA s) 1 = false ∧ ∃ u, Released (markPopped s []) u) ∧
    (∃ r, slotChk (markPopped s [4]) (.tinfo 0 3 1 4) 1 false = .ok r) ∧ ∃ r, slotChk (markPopped s [4]) (.tmove 0 3 1 4) 1 true = .ok r := by
  refine ⟨⟨?_, released_of ?_ ?_⟩, ?_, ?_, ?_, ?_, ?_, ?_, ?_, ?_, ?_, ⟨?_, ?_, except_ok ?_, ?_, released_of ?_ ?_⟩, except_ok ?_, except_ok ?_⟩ <;>
    first | decide +kernel | (unfold SlotReady; decide +kernel)

/-- An answer at hand; a first arrival at group 0, of which the array is the only member; the same group broken; barrier objects at
their last place in a tile (word 124 of 128: object 31); a CBWAIT that a broken or finished phase answers at once. -/
theorem witness_ScSynchronisation :
    let s := worldRegs [(4, 31), (5, 0xFF0000), (6, 0)]
    let w := { s with groups := [(0, { members := 1, broken := true })] }
    (SlotReady (world fun q => { q with syncDone := some 1 }) 0 [] [3] ∧
      (curSeq (world fun q => { q with syncDone := some 1 })).syncDone = some 1) ∧
    (SlotReady s 0 [] [3] ∧ (curSeq s).syncDone = none ∧ (curSeq s).syncGroup = none ∧ groupIn s 0 0 = true ∧
      (groupAt s 0).members.getLsbD (curA s) = true ∧ phaseOn s = false ∧ (∃ u, Released (markPopped s []) u) ∧
      releaseBlocked (markPopped s []) 0 1 = false ∧ copiesLanded (markPopped s []) 0 = true ∧ (groupAt s 0).broken = false ∧
      (groupAt w 0).broken = true) ∧
    (tileSaved s 2 = false ∧ SlotReady s 0 [4, 5] [] ∧ (∃ u, Released (markPopped s [4, 5]) u ∧ (curSeq u).st < 255) ∧
      (∃ pl, barChk (markPopped s [4, 5]) (.cbinit 0 5 2 4) 2 (reg s 4) true = .ok pl) ∧ bitsOf (reg s 5) 23 16 = 0xFF ∧
      groupIn s 0 (bitsOf (reg s 6) 23 16) = true ∧
      (∃ pl, barChk (markPopped s [4, 5]) (.cbexp 0 5 2 4) 2 (reg s 4) true = .ok pl) ∧
      (SlotReady s 0 [4] [3] ∧ (∃ u, Released (markPopped s [4]) u ∧ (curSeq u).st < 255) ∧
        (∃ pl, barChk (markPopped s [4]) (.cbarr 0 3 2 4 true 2) 2 (reg s 4) true = .ok pl) ∧
        ∃ pl, barChk (markPopped s [4]) (.cbtest 0 3 2 4) 2 (reg s 4) false = .ok pl)) ∧
    (((curSeq (world fun q => { q with cbDone := some 5 })).cbDone = some 5 ∧ (curSeq (world fun q => { q with cbDone := some 5 })).cbAt ≤ s.cyc ∧
      SlotReady (world fun q => { q with cbDone := some 5 }) 0 [3, 4] [3]) ∧
      (SlotReady s 0 [3, 4] [3] ∧ (curSeq s).cbDone = none ∧ (curSeq s).cbwaiting = false ∧ (curSeq s).retryAt = none ∧
        (∃ pl, barChk (markPopped s [3, 4]) (.cbwait 0 3 2 4) 2 (reg s 4) false = .ok pl) ∧
        feBlocked s 0 0 (padBase 0 + 4 * (64 + 124)) = false ∧
        (cbwaitAnswer (barAt s (padBase 0 + 4 * (64 + 124))) 0).isSome = true ∧
        serviceOpen s (barServed 0 (padBase 0 + 4 * (64 + 124))) = true)) := by
  refine ⟨?_, ⟨?_, ?_, ?_, ?_, ?_, ?_, released_of ?_ ?_, ?_⟩,
    ⟨?_, ?_, released_room ?_ ?_ ?_, except_ok ?_, ?_, ?_, except_ok ?_, ?_, released_room ?_ ?_ ?_, except_ok ?_, except_ok ?_⟩,
    ?_, ?_, ?_, ?_, ?_, except_ok ?_, ?_⟩ <;>
    first | decide +kernel | (unfold SlotReady; decide +kernel)

theorem witness_ScDequesLaunchSeal :
    let s := worldRegs [(4, 0), (5, 1)]
    (SlotReady s 0 [4] [3] ∧ (∃ u, Released (markPopped s [4]) u) ∧ (reg s 4).toNat < 28 ∧ partOfArr s (reg s 4).toNat = some (curPart s)) ∧
    (SlotReady s 0 [] [3] ∧ (∃ u, Released (markPopped s []) u) ∧ releaseBlocked (markPopped s []) 0 2 = false ∧
      (∃ pl, handleChk (releaseWork (markPopped s []) 0 2) (.tlaunch 0 3 1 31) 1 true ((31 : BitVec 9).toInt * 64) 64 true false false = .ok pl) ∧
      accessBlocked (releaseWork (markPopped s []) 0 2) 0 49088 64 = false ∧
      postedBlocked (releaseWork (markPopped s []) 0 2) 0 49088 = false ∧
      (readFor (releaseWork (markPopped s []) 0 2) 0 
        { op := .load 3 false, size := 64, acq := true, scope := 2,
          pl := { pa := 49088, va := 49088, leaf := programLeaf, page := true } }).2.2 = false) ∧
    (SlotReady s 0 [4, 5] [3] ∧ (∃ u, Released (markPopped s [4, 5]) u) ∧ releaseBlocked (markPopped s [4, 5]) 0 2 = false) := by
  refine ⟨⟨?_, released_of ?_ ?_, ?_, ?_⟩, ⟨?_, released_of ?_ ?_, ?_, chk_ok ?_, ?_⟩, ?_, released_of ?_ ?_, ?_⟩ <;>
    first | decide +kernel | (unfold SlotReady; decide +kernel)

/-- The names a word ACLR a0 writes. -/
def clearedNames (s : State) : List Nat := match regionCheck s 0 0 [.aclr 16 0] with
  | .ok v => v.2
  | .error _ => []

/-- A0 cleared in the open region, and registers set. -/
def cleared (l : List (Nat × Word)) : State :=
  let s := worldRegs l
  modSeq s 0 fun q => { q with writes := clearedNames s }

/-- The sparse tile in slot 4 with a READY, a DENSE or a COMPILING program, a0 cleared in the open region. -/
def playState (st : Nat) : State :=
  let s := cleared [(4, 0x4403), (5, 16), (6, 64), (7, 64)]
  modArr s 0 fun x => { x with progs := vset x.progs 0 { valid := true, st := st, tile := 4, rows := 32, fmtk := fmtKey 0, len := 1, lv := [(0, 0)] } }

/-- Words of a run keep the region rule where nothing has been read yet. -/
def regionKept (s : State) (ws : List (Instr × Instr × Instr × Bool)) : Prop :=
  ∃ r w, regionCheck s (curA s) (curSeq s).fmt.inForce (s.bun.word ++ wordInstrs ws) = .ok (r, w)

theorem region_kept {s : State} {ws : List (Instr × Instr × Instr × Bool)}
    (h : (regionCheck s (curA s) (curSeq s).fmt.inForce (s.bun.word ++ wordInstrs ws)).isOk = true) : regionKept s ws :=
  (except_ok h).elim fun v e => ⟨v.1, v.2, e⟩

/-- A run of a PLAY under way on array 0, with these words still to issue. -/
def playing (words : List (Instr × Instr × Instr × Bool)) : State :=
  modSeq (playState 1) 0 fun q => { q with stop := .play, play := some { rd := 3, words := words } }

/-- READY, DENSE and absent programs under PLAY; PATC at the ends of its threshold, in each answer; a word of a run that issues and the
end of a run; LDATT at both ends of K, in a bundle without and with a word. -/
theorem witness_ScPatterns :
    let v : Word := 0x4403
    let s (k : Nat) : State := markPopped (playState k) [4]
    let z := markPopped (cleared [(4, v)]) [4]
    (tileSaved (playState 1) 4 = false ∧ SlotReady (playState 1) 0 [4] [3] ∧ reg (playState 1) 4 = v ∧ (curSeq (s 1)).mon = false) ∧
    ((∃ r, playTile (s 1) (.playW 0 3 4 0 4) 4 = .ok r) ∧ ∃ r, playTile (s 1) (.playD 0 3 4 16 4) 4 = .ok r) ∧
    playFault (s 1) (.playW 0 3 4 0 4) v (tileAt (s 1) 4) = none ∧
    (findProg (s 1) 0 4 (tileAt (s 1) 4) 0 = some 0 ∧ (progAt (s 1) 0 0).st = 1 ∧
      sparseWords v 4 none true (progAt (s 1) 0 0).lv ≠ [] ∧ regionKept (s 1) (sparseWords v 4 none true (progAt (s 1) 0 0).lv)) ∧
    ((progAt (s 2) 0 0).st = 2 ∧ findProg (s 2) 0 4 (tileAt (s 2) 4) 0 = some 0 ∧ denseWords v 4 2 ≠ [] ∧ regionKept (s 2) (denseWords v 4 2)) ∧
    (findProg z 0 4 (tileAt z 4) 0 = none ∧ playFault z (.playD 0 3 4 16 4) v (tileAt z 4) = none ∧
      regionKept (triggerCompile z 0 4 (tileAt z 4) 0 16).1 (denseWords v 4 2)) ∧
    (SlotReady (playState 1) 0 [5] [3] ∧ (reg (playState 1) 5).toNat ≤ 16 ∧ fmtMatches 0 (tileAt (playState 1) 4) = true ∧
      fmtMatches 0x1100 (tileAt (playState 1) 4) = false ∧ (∃ r, playTile (s 1) (.patc 0 3 5 4) 4 = .ok r) ∧
      ((progAt (s 0) 0 0).st = 0 ∧ findProg (s 0) 0 4 (tileAt (s 0) 4) 0 = some 0)) ∧
    ((seqAt (playing []) 0).play = some { rd := 3, words := [] } ∧ playWord (seqAt (playing []) 0) { rd := 3, words := [] } = none) ∧
    (let u := playing (denseWords v 4 2)
     issueStops u 0 = false ∧ (seqAt u 0).wf < 255 ∧
     ∃ w, playWord (seqAt u 0) { rd := 3, words := denseWords v 4 2 } = some w ∧ wordReady u 0 w = true) ∧
    (let z := playState 1
     SlotReady z 0 [6, 7] [] ∧ 1 ≤ (reg z 6).toNat ∧ (reg z 6).toNat ≤ 64 ∧ (curArr z).words = [] ∧
     (∃ r, tileChk (markPopped z [6, 7]) (.ldatt 0 6 2 7) 2 (reg z 7) 64 false false = .ok r) ∧
     accessBlocked (markPopped z [6, 7]) 0 (tilePlace 2 (tileAt z 2) 64).pa 256 = false ∧ ldattBad (markPopped z [6, 7]) 2 64 = none ∧
     serviceOpen (markPopped z [6, 7]) (attServed (markPopped z [6, 7]) 2 64) = true ∧
     z.bun.word.all (· = .nop) = true ∧ (let y := { z with bun := { z.bun with word := [.aclr 16 0] } }
      y.bun.word.all (· = .nop) = false)) := by
  refine ⟨?_, ⟨except_ok ?_, except_ok ?_⟩, ?_, ⟨?_, ?_, ?_, region_kept ?_⟩, ⟨?_, ?_, ?_, region_kept ?_⟩, ⟨?_, ?_, region_kept ?_⟩,
      ⟨?_, ?_, ?_, ?_, except_ok ?_, ?_⟩, ?_, ⟨?_, ?_, _, rfl, ?_⟩, ?_, ?_, ?_, ?_, except_ok ?_, ?_⟩ <;>
    first | decide +kernel | (unfold SlotReady; decide +kernel)

/-- A program being compiled, none with an entry free, and none with all 32 entries being compiled. -/
theorem witness_ScPatterns_compiling :
    let v : Word := 0x4403
    let s := markPopped (playState 0) [4]
    let z := markPopped (cleared [(4, v)]) [4]
    let y := modArr z 0 fun x => { x with progs := Vector.replicate 32 { valid := true, st := 0, tile := 9 } }
    (findProg s 0 4 (tileAt s 4) 0 = some 0 ∧ (progAt s 0 0).st ≠ 1 ∧ (progAt s 0 0).st ≠ 2 ∧ regionKept s (denseWords v 4 2)) ∧
    (findProg z 0 4 (tileAt z 4) 0 = none ∧ (triggerCompile z 0 4 (tileAt z 4) 0 8).2 = true) ∧
    (findProg y 0 4 (tileAt y 4) 0 = none ∧ (triggerCompile y 0 4 (tileAt y 4) 0 8).2 = false ∧
      regionKept (triggerCompile y 0 4 (tileAt y 4) 0 8).1 (denseWords v 4 2)) := by
  refine ⟨⟨?_, ?_, ?_, region_kept ?_⟩, ?_, ?_, ?_, region_kept ?_⟩ <;> decide +kernel

theorem witness_EretReturns :
    (curSeq monitor).mon = true ∧ (curSeq monitor).mepc.toNat % 24 = 0 ∧ (curSeq (world id)).mon = false ∧
    (let s := world fun q => { q with mon := true, mepc := 47 }
     (curSeq s).mon = true ∧ (curSeq s).mepc.toNat % 24 ≠ 0) := by decide +kernel

/-- Cell 0 of a word of array 0 with all cells selected, the tiles of the world, FMT 0, and a map in the pattern RAM. -/
def cellWorld (fmt : Word) : State :=
  { world id with
    cell := { mask := { rows := 0xFFFFFFFF, cols := 0xFFFFFFFF }, tiles := [(3, 3), (4, 4)], fmt := fmt, wordNo := 20 }
    pram := [(0, 0x0303)], frags := [] }

/-- Of CellFloatingPoint, CellPackedAndConversions, CellIntegerLanes and CellSelectReducePermute. -/
theorem witness_cells :
    (CellReady (cellWorld 0) [0, 1] ∧ CellReady (cellWorld 0) [0] ∧ CellReady (cellWorld 0) [63, 33, 16] ∧ slotLive (cellWorld 0) = true) ∧
    (CellReadyOn (cellWorld 0) [0, 2] (narrow16Lanes true) ∧ CellReadyOn (cellWorld 0) [0] (widen16Lanes false) ∧
      CellReadyOn (cellWorld 0) [0, 1, 2] narrow8Lanes ∧ CellReadyOn (cellWorld 0) [0, 1] widen8Lanes) ∧
    (CellReadyOn (cellWorld 0) [63] (fun _ => [lane0]) ∧ CellReadyOn (cellWorld 0) [0, 1] permLanes ∧
      CellReadyOn (cellWorld 0) [0] (fun _ => [oneLane 31]) ∧ CellReadyOn (cellWorld 0) [0, 1] (fun _ => [lane0, lane0]) ∧
      CellReadyOn (cellWorld 0) [0, 1] fun _ => [lfOf (getF (cellWorld 0) 0), ~~~ lfOf (getF (cellWorld 0) 0)]) := by
  unfold CellReady CellReadyOn; decide +kernel

/-- An error in a lane that a slot does not read does not stop it: lane 31 of register 0, of which SRNG reads lane 0. -/
theorem test_error_outside_the_lanes_read :
    let s := { cellWorld 0 with cellEcc := [(2048 * 0 + 32 * 0 + 31, true)] }
    CellReadyOn s [0] (fun _ => [lane0]) ∧ (firstFault s [(0, allLanes)]).isSome = true := by
  unfold CellReadyOn; decide +kernel

/-- Fragment 31 is the last of a slice of 1,024 words, by an immediate; a store needs a tile that is not sealed. -/
theorem witness_CellSram :
    let s := cellWorld 0
    let t := tileAt s 3
    (CellReadyOn s [] (fun _ => [lane0]) ∧ (∃ t, cellTileChk s (.ldc 0 3 31 0 false false true) 3 = .ok t) ∧ 32 * (31 : BitVec 6).toNat + 32 ≤ t.words ∧
      wordsFault s 3 (fun _ => 31) ((List.range 32).map fun k => (k, tileBase t 0 + 128 * 31 + 4 * k)) = none ∧ fragHeads t (tileBase t 0) 31 = []) ∧
    (CellReadyOn s [1, 0] (fun _ => [lane0, allLanes]) ∧ t.sealed = false ∧ ∃ t, cellTileChk s (.stc 0 3 1 0 false) 3 = .ok t) ∧
    (CellReady s [1] ∧ (∃ t, cellTileChk s (.vgath 0 3 1 0 false false) 3 = .ok t) ∧ lanesBeyond (readOp s 1).frag t.words = 0 ∧
      wordsFault s 3 (fun _ => 0) ((List.range 32).map fun k => (k, tileBase t 0)) = none) ∧
    (CellReady s [1, 0] ∧ ∃ t, cellTileChk s (.vscat 0 3 1 0) 3 = .ok t) := by
  refine ⟨⟨?_, except_ok ?_, ?_⟩, ⟨?_, ?_, except_ok ?_⟩, ⟨?_, except_ok ?_, ?_⟩, ?_, except_ok ?_⟩ <;>
    first | decide +kernel | (unfold CellReadyOn; decide +kernel) | (unfold CellReady CellReadyOn; decide +kernel)

/-- Accumulators never written, written by a word of the same kind, and written five words ago (word 20 after word 15). -/
theorem witness_CellMatrix :
    let s := cellWorld 0
    let w := { s with ages := [(ageKey 0 0, (20, false)), (ageKey 0 1, (16, true))] }
    (CellReadyOn s [0, 1, 16] (fun _ => [hiLanes true, allLanes, allLanes]) ∧ hazardDist s 16 = none ∧ slotLive s = true) ∧
    (hazardDist w 16 = some 1 ∧ (ageOf w (curCell w) (16 - codeA0)).2 = intKind w.cell.fmt) ∧ hazardDist w 17 = none ∧
    (CellReady s [16] ∧ isAcc 17 = true ∧ isAcc 0 = false) ∧ CellReadyOn s [16, codeZ, 0] (arndLanes 0 false) ∧
    (CellReadyOn (cellWorld 0x20000) [16, 1, 0] (arndLanes 0x20000 true) ∧ (outfOf (cellWorld 0x20000).cell.fmt ≤ 1) = False) ∧
    optHeld s 6 16 4 = 0 := by
  unfold CellReady CellReadyOn; decide +kernel

theorem witness_CellPatternAccumulation :
    let s := cellWorld 0
    let null := { s with pram := [] }
    (slotLive s = true ∧ firstFault s ([1, 16].zip (selLanes 0x0303 [])) = none ∧ firstFault s ([1, 16].zip [hiLanes false, allLanes]) = none ∧ (∃ t, cellTileChk s (.mmaSel 16 4 1 0) 4 = .ok t) ∧ (tileAt s 4).sparse = true ∧
      (tileAt s 4).type = afOf s.cell.fmt ∧ hazardDist s 16 = none) ∧
    bitsOf (tget (0 : BitVec 16) null.pram 0) 7 0 = 0 ∧
    (bitsOf (tget (0 : BitVec 16) s.pram 0) 7 0 ≠ 0 ∧ 16 * bitsOf (0x0303 : BitVec 16) 15 9 + 8 * bitsOf (0x0303 : BitVec 16) 8 8 + 7 < (tileAt s 4).rows ∧
      wordsFault s 4 (fun _ => 3) (selWords (tileBase (tileAt s 4) 0) 0x0303) = none) ∧
    ((∃ t, cellTileChk s (.racc 16 3 1 0) 3 = .ok t) ∧ (tileAt s 3).type = 6 ∧
      (let r := setFrag s 0 1 (splat 0x8000001F)
       raccSet (readOp r 1).frag (curCellArr r).kcut ≠ [] ∧
       ∀ q ∈ raccSet (readOp r 1).frag (curCellArr r).kcut, (lane (readOp r 1).frag q).toNat % 2 ^ 16 < raccRows (tileAt s 3))) := by
  refine ⟨⟨?_, ?_, ?_, except_ok ?_, ?_⟩, ?_, ?_, except_ok ?_, ?_⟩ <;> decide +kernel

/-- Engine 0 set for 4 rows of 16 bytes 64 bytes apart, with a barrier reference to object 31 of slot 2; s4 names slot 2, s5 slot 1. -/
def copyWorld : State :=
  modArr (worldRegs [(4, 0x4000020000000000), (5, 0x4000010000000000), (6, 3)]) 0 fun x =>
    { x with eng := vmod {} x.eng 0 fun g => { g with
        x := (((g.x |> (vset · 0 0x400000010)) |> (vset · 1 64)) |> (vset · 2 64)) |> (vset · 8 0x1F82) } }

/-- A table at an address, read by an index list at an address. -/
def gatherWorld : State :=
  modArr copyWorld 0 fun x => { x with eng := vmod {} x.eng 0 fun g => { g with x := vset g.x 4 0x400000000 } }

theorem witness_CopyCommandsEnter :
    let s := markPopped copyWorld [4, 5]
    let ra : Word := 0x4000020000000000
    let rb : Word := 0x4000010000000000
    let src : LocUse := ⟨ra, false, [0, 1, 2], rowSpan 4 16 64⟩
    let dst : LocUse := ⟨rb, true, [0, 1, 2], rowSpan 4 16 64⟩
    (CopyReady copyWorld 0 [4, 5] [] ∧ (engAt copyWorld 0 0).queue.length < 64 ∧ (curSeq copyWorld).cp < 255 ∧ ∃ u, Released s u) ∧
    anySaved s (locSlots ra ++ locSlots rb ++ barSlots s 0 1) = false ∧
    (∃ l, cmdChk s (.copy 0 4 5 0 false true 2 1) 0 [src, dst] 1 (shapeOk (engX s 0 0)) = .ok l) ∧
    (∃ l, cmdChk s (.copyg 0 4 5 0 false false false false 0 0) 0
      [⟨ra, false, [1, 2], tableSpan 0 8 64 16 4⟩, dst, listUse s 0 3 (engX s 0 0) 8] 0 (shapeOk (engX s 0 0) && gatherRule s 0 ra rb 64 64) = .ok l) ∧
    (∃ l, cmdChk s (.copys 0 4 5 0 false false false false 0 0) 0
      [src, ⟨rb, true, [1, 2], tableSpan 0 8 32 16 4⟩, listUse s 0 3 (engX s 0 0) 8] 0 (shapeOk (engX s 0 0) && gatherRule s 0 rb ra 64 64) = .ok l) ∧
    (∃ l, cmdChk s (.copym 0 4 5 0 false false false 0 0) 0 [src, dst, listUse s 0 5 (engX s 0 0) 1] 0 (shapeOk (engX s 0 0)) = .ok l) ∧
    (∃ l, cmdChk s (.fill 0 6 5 0 3 false false 0 0) 0 [dst] 0 (shapeOk (engX s 0 0) && 16 % 2 ^ (3 : BitVec 2).toNat = 0) = .ok l) := by
  refine ⟨⟨?_, ?_, ?_, released_of ?_ ?_⟩, ?_, except_ok ?_, except_ok ?_, except_ok ?_, except_ok ?_, except_ok ?_⟩ <;>
    first | decide +kernel | (unfold CopyReady; decide +kernel)

/-- A phase of group 0 (arrays 0 and 1) with its slots reserved between them both ways; engine 0 set for BIND of slot 2 at port N, for
RANKX of 4 rows of 16 bytes, and for XMIT of one flit. -/
def phaseWorld : State :=
  let s := modArr (world fun q => { q with phaseOf := some 0, phase := true, s := vset (vset (vset q.s 4 0x10001020041) 5 0x4000020000000000) 6 0x20041 }) 0
    fun x => { x with eng := vmod {} x.eng 0 fun g => { g with x := vset g.x 0 0x80 } }
  { s with
    groups := [(0, { members := 3, frame0 := some 100 })]
    netRes := ((chainKeys 0 1 1 1) ++ (chainKeys 1 0 1 1)).foldl (fun t k => tset ({} : Slot) t k { part := 0, valid := true, phase := true }) [] }

/-- Engine registers of a BIND: x0 names slot 2 and port N; four counts of 1; lane stride 4. -/
def bindWorld : State :=
  modArr (world id) 0 fun x => { x with eng := vmod {} x.eng 0 fun g => { g with
    x := ((((((g.x |> (vset · 0 2)) |> (vset · 1 1)) |> (vset · 2 1)) |> (vset · 3 1)) |> (vset · 4 1)) |> (vset · 5 4)) } }

/-- Engine registers of a RANKX: 4 rows of 128 bytes, the longest a row may be. -/
def rankWorld : State :=
  modArr (worldRegs [(4, 0x4000020000000000), (5, 64)]) 0 fun x => { x with eng := vmod {} x.eng 0 fun g => { g with
    x := (g.x |> (vset · 0 0x400000080)) |> (vset · 1 128) } }

theorem witness_StreamAndPhaseCommandsEnter :
    (CopyReady bindWorld 0 [] [] ∧ (engAt bindWorld 0 0).queue.length < 64 ∧ (curSeq bindWorld).cp < 255 ∧
      (∃ u, Released (markPopped bindWorld []) u) ∧ anySaved bindWorld [(engX bindWorld 0 0).toNat % 64] = false ∧
      (∃ l, bindChk (markPopped bindWorld []) (.bind 0 0) 0 (engX bindWorld 0) = .ok l) ∧ (portOk 1 0 (curSeq bindWorld).len).isSome = true) ∧
    (CopyReady rankWorld 0 [4, 5] [] ∧ (∃ u, Released (markPopped rankWorld [4, 5]) u) ∧ anySaved rankWorld [2] = false ∧
      ∃ l, cmdChk (markPopped rankWorld [4, 5]) (.rankx 0 4 5 0 false false) 0 [⟨0x4000020000000000, false, [1, 2], rowSpan 4 128 128⟩] 0
        (rankRule rankWorld 0 64) = .ok l) ∧
    (let s := markPopped phaseWorld [6, 5]
     CopyReady phaseWorld 0 [6, 5] [] ∧ (∃ u, Released s u) ∧ anySaved phaseWorld [2] = false ∧
     ∃ l, cmdChk s (.xmit 0 6 5 0 false false 0 0) 0 [phaseUse 0x4000020000000000 false] 0
       (xmitRule s 0 0x20041 && phaseLocRule s 0x4000020000000000 128) = .ok l) ∧
    (let s := markPopped phaseWorld [4, 5]
     let v : Word := 0x10001020041
     let mine := phaseWorld.imux.filter fun r => r.arr = 0
     CopyReady phaseWorld 0 [4, 5] [] ∧ (∃ u, Released s u) ∧
     (∃ l, cmdChk s (.imux 0 4 5 0) 0 [phaseUse 0x4000020000000000 true] 0
       (imuxRule s v && phaseLocRule s 0x4000020000000000 (128 * ctlFlits v)) = .ok l) ∧
     imuxClash mine 0 (imuxUses 1 0 1 1 1 1) = none ∧ imuxFull mine 0 (imuxUses 1 0 1 1 1 1) = false) := by
  refine ⟨⟨?_, ?_, ?_, released_of ?_ ?_, ?_, except_ok ?_, ?_⟩, ⟨?_, released_of ?_ ?_, ?_, except_ok ?_⟩,
    ⟨?_, released_of ?_ ?_, ?_, except_ok ?_⟩, ?_, released_of ?_ ?_, except_ok ?_, ?_, ?_⟩ <;>
    first | decide +kernel | (unfold CopyReady; decide +kernel)

theorem witness_EngineRegistersAndPhases :
    let s := world id
    let h := modArr s 0 fun x => { x with eng := vmod {} x.eng 0 fun g => { g with halted := true } }
    CopyReady s 0 [4, 5] [] ∧ CopyReady s 0 [] [3] ∧ (CopyReady s 0 [] [] ∧ ∃ u, Released (markPopped s []) u) ∧
    (engAt (regionNext (markPopped h [])) 0 0).halted = true ∧ (engAt (regionNext (markPopped s [])) 0 0).halted = false ∧
    (CopyReady s 0 [4] [] ∧ (∃ u, Released (markPopped s [4]) u) ∧ phaseMember s 0 = true ∧ phaseOn s = false) ∧ phaseOn phaseWorld = true := by
  refine ⟨?_, ?_, ⟨?_, released_of ?_ ?_⟩, ?_, ?_, ⟨?_, released_of ?_ ?_, ?_⟩, ?_⟩ <;>
    first | decide +kernel | (unfold CopyReady; decide +kernel)

/-! ## Witnesses of the event statements -/

/-- A state of the world at a cycle. -/
def atCycle (c : Nat) (s : State) : State := { s with cyc := c }

/-- Page tables of partition 0 at 64 KiB and up, which map its first page (readable, writable, executable, cached, key 1) at device
address 0, and nothing else. -/
def mapped (s : State) : State :=
  let link (a : Nat) : Nat := 1 + 6 * 2 ^ 20 + a * 2 ^ 11
  let m := writeNat (writeNat (writeNat (writeNat (writeNat s.mem 0x10000 8 (link 0x20000)) 0x20000 8 (link 0x30000)) 0x30000 8 (link 0x40000))
    0x40000 8 (link 0x50000)) 0x50000 8 0x13F
  { s with mem := m, keyOwner := [(1, 1)], parts := vmod {} s.parts 0 fun p => { p with ptroot := 0x10000, sbShare := 2, jbase := 0x8000 } }

theorem test_walk_of_mapped_page : walk (mapped (world id)) 0 49151 = .leaf 0x13F 0x50000 .l4 := by decide +kernel

/-- The other end of each condition: the page after the one mapped is not present, an address above 2⁵⁷ is none. -/
theorem test_walk_fails : walk (mapped (world id)) 0 49152 = .fail 2 .l4 ∧ walk (mapped (world id)) 0 0x200000000000000 = .fail 1 .l0 := by
  decide +kernel

theorem witness_SequencerEventsComplete :
    ((seqAt (atCycle 5 (world fun q => { q with stop := .pause 5 })) 0).stop = .pause 5) ∧
    ((atCycle 256 (world id)).window < (atCycle 256 (world id)).cyc / 256) ∧
    (seqAt (atCycle 64 (world fun q => { q with retryAt := some 64 })) 0).retryAt = some 64 ∧
    missingLine (world fun q => { q with pc := 192 }) 0 = some 192 ∧
    (let s := mapped (world fun q => { q with h := vset (vset q.h 2 { st := .walking, va := 49151 }) 3 { st := .walking, va := 49152 } })
     (vget {} (seqAt s 0).h 2).st = .walking ∧ walk s 0 (vget {} (seqAt s 0).h 2).va = .leaf 0x13F 0x50000 .l4 ∧
     (vget {} (seqAt s 0).h 3).st = .walking ∧ walk s 0 (vget {} (seqAt s 0).h 3).va = .fail 2 .l4) ∧
    ((seqAt (atCycle 9 (world fun q => { q with stallEnd := some (9, 4) })) 0).stallEnd = some (9, 4)) ∧
    (let s := world fun q => { q with stop := .retiring }
     canRetire s 0 = true ∧ (arr s 0).task = some 0) := by decide +kernel

/-- Every kind of outstanding operation of the statement, each first in program order. -/
theorem witness_OutstandingOperationsEnd :
    let s (o : Out) : State := { atCycle 256 (world fun q => { q with outs := [o], ld := 1, st := 1 }) with ev := {} }
    let ops : List OutOp := [.load 3 true, .store 7, .amo 0 3 1, .cas 4 0 1, .amoRet 3 1 0 false, .acc 0 5, .accRefused 0 5, .flushres]
    (∀ x ∈ ops, (seqAt (s { op := x }) 0).outs[0]?.isSome = true ∧ outReady (seqAt (s { op := x }) 0).outs 0 = true) ∧
    ({ op := .accRefused 0 5, due := 0 } : Out).due = 0 ∧ (0 < 256 ∧ 256 ≤ (s { op := .accRefused 0 5, due := 256 }).cyc) ∧
    accBefore (s { op := .flushres }) 0 0 = false := by decide +kernel

/-- A word that has executed nothing yet, or is done. -/
def oneWord (done : Bool) : State :=
  { atCycle 100 (task id fun x => { x with words := [{ no := 0, issued := 0, pc := 0, done := done }] }) with ev := {} }

theorem witness_WordsExecuteAndFaultsAreTaken :
    compileDue (atCycle 50 (task id fun x => { x with progs := vset x.progs 31 { valid := true, ends := some 50 } })) 0 = some 31 ∧
    wordDue (oneWord false) 0 0 = true ∧ ((arr (oneWord true) 0).words.length = 1 ∧ aggDue (oneWord true) 0 = true) ∧
    trapDue (world fun q => { q with stop := .trap, pending := [{ code := 0x10, slot := 0, precise := true }] }) 0 = true ∧
    watchdogDue (atCycle 65536 (world fun q => { q with wdog := 1 })) 0 = true ∧
    ((seqAt (atCycle 64 (world fun q => { q with after := some (.frame 0 64) })) 0).after = some (.frame 0 64)) ∧
    flitDue (world id) 0 0 = none ∧
    flitDue (atCycle 64 (task id fun x => { x with eng := vmod {} x.eng 0 fun g => { g with
      queue := [{ op := 0x0B, word := 0, ra := 0x40, rb := 0, x := vset (Vector.replicate 11 0) 0 128, seq := 0, started := true }] } })) 0 0 = some 0 := by
  decide +kernel

/-- A COPY of 16 bytes between two addresses of the mapped page at the head of engine 0, in one of its conditions. -/
def oneCopy (started : Bool) (sent : Nat) (src : Word) : State :=
  mapped (task id fun x => { x with eng := vmod {} x.eng 0 fun g => { g with
    queue := [{ op := 1, word := 0, ra := src, rb := 0x2000, x := vset (Vector.replicate 11 0) 0 0x100000010, seq := 0, started := started, sent := sent }] } })

theorem witness_EnginesAndPortsProceed :
    canStart (oneCopy false 0 0x1000) 0 0 = true ∧ canSend (oneCopy true 0 0x1000) 0 0 = true ∧ canEnd (oneCopy true 16 0x1000) 0 0 = true ∧
    (stalled (world id) 0 = false ∧ canDrain { places := [{ passed := true }] } = true) ∧
    (let s := modArr (world id) 0 fun x => { x with ports := [(8, { pats := [{ tile := 2, slot := 2, counts := [4, 1, 1, 1] }] })] }
     fillReady s 8 (portAt s 0 8) = true ∧ isRankPort (portAt s 0 8) = false) ∧
    (let s := task id fun x => { x with ports := [(16, { pats := [{ rank := some { nrows := 1, rowBytes := 4, cut := 1 } }] })] }
     fillReady s 16 (portAt s 0 16) = true ∧ isRankPort (portAt s 0 16) = true) ∧
    ({ world id with wins := [{ part := 0, win := 15, addr := 0x3000, partials := [] }] }.wins.length = 1) ∧
    (let w := { world id with parts := vmod {} (world id).parts 0 fun p => { p with
       redwin := vset p.redwin 15 (0x8000000000003000 + 2 ^ 64 + 2 ^ 132 : BitVec 256) } }
     (windowOf w 0 0x30BF).isSome = true ∧ windowOf w 0 0x30C0 = none ∧ w.pkg.chipId = 0 ∧
     ((windowOf w 0 0x3000).map fun d => d.2.getLsbD (128 + 4)) = some true) := by
  refine ⟨?_, ?_, ?_, ?_, ?_, ?_, ?_, ?_⟩ <;> decide +kernel

/-- A sector on a link, in flight for the head of engine 0. -/
theorem witness_sector_on_a_link :
    let s := modArr (oneCopy true 16 0x1000) 0 fun x => { x with eng := vmod {} x.eng 0 fun g => { g with
      flight := [{ seq := 0, cells := [], credit := 16, link := true }] } }
    (engAt s 0 0).flight.length = 1 ∧ (engAt s 0 0).queue.length = 1 ∧ (engAt s 0 0).halted = false ∧
    ((engAt s 0 0).queue.map fun c => (c.started, usesLink s 0 0 c)) = [(true, true)] := by decide +kernel

/-! ### Lists -/

/-- Queue 0 of partition 0 walking a list whose next entry, of four 64-bit words, stands at 0x1000. -/
def listState (e : Nat) (f : Queue → Queue) : State :=
  let s := mapped (world id)
  { s with mem := writeNat s.mem 0x1000 32 e, ev := {}
           queues := [(0, f { owner := some 0, en := true, st := .active, log2n := 4, qbase := 0x4000, lpc := some 0x1000 })] }

/-- An entry of a list: its low word, ADDR, and the two words after it. -/
def ent (lo addr v m : Nat) : Nat := lo + addr * 2 ^ 64 + v * 2 ^ 128 + m * 2 ^ 192

/-- The entry stands next, is of its kind and well formed, and the journal has room. -/
def stands (k e : Nat) : Prop := EntryAt (listState e id) 0 k 0 0x1000 (BitVec.ofNat 256 e)

theorem witness_ListControlFlow :
    (let s := { listState 0 (fun x => { x with lpc := none, tail := 1 }) with mem := writeNat (mapped (world id)).mem 0x4000 16 (0x1FE0 + 7 * 2 ^ 64) }
     walks (queueAt s 0) = true ∧ (queueAt s 0).lpc = none ∧ (queueAt s 0).head ≠ (queueAt s 0).tail ∧
     virtRead s 0 0x4000 2 = some (0x1FE0 + 7 * 2 ^ 64)) ∧
    (stands 3 (ent 0x50003 0x2000 0 0) ∧ condHolds (listState (ent 0x50003 0x2000 0 0) id) 0 (BitVec.ofNat 256 (ent 0x50003 0x2000 0 0)) = some true ∧
      condHolds (listState 0 id) 0 (BitVec.ofNat 256 (ent 0x50103 0x2000 0 0)) = some false) ∧
    stands 4 (ent 4 0x1FE0 0 0) ∧ stands 5 (ent 5 0x1FE0 0 0) ∧ stands 6 (ent 6 0 0 0) ∧ stands 11 (ent 11 0xFFFFFFFF 0 0) ∧
    stands 12 (ent 12 0 0 0) := by
  unfold stands EntryAt; decide +kernel

/-- CALL at DEPTH 7 and at DEPTH 8; RET at DEPTH 0 and above. -/
theorem witness_JumpCallAndRet :
    let call (n : Nat) : State := listState (ent 5 0x1FE0 0 0) fun x => { x with stack := List.replicate n 0x3000 }
    stands 4 (ent 4 0x1FE0 0 0) ∧
    (EntryAt (call 7) 0 5 0 0x1000 (BitVec.ofNat 256 (ent 5 0x1FE0 0 0)) ∧ (queueAt (call 7) 0).stack.length < 8) ∧
    (EntryAt (call 8) 0 5 0 0x1000 (BitVec.ofNat 256 (ent 5 0x1FE0 0 0)) ∧ 8 ≤ (queueAt (call 8) 0).stack.length) ∧
    stands 6 (ent 6 0 0 0) ∧ (queueAt (listState 0 id) 0).stack = [] ∧
    (queueAt (listState 0 fun x => { x with stack := [0x40] }) 0).stack = [0x40] := by
  unfold stands EntryAt; decide +kernel

theorem witness_ListWaitsAndSignals :
    let w : Nat := ent 0x10007 0x2000 5 0
    let x (c : Nat) : State := atCycle c (listState 0 fun x => { x with wait := some (.waitc 0 0 0), ent := BitVec.ofNat 256 w })
    let x2 : State := listState 0 fun x => { x with wait := some (.waitc 0 0 0), ent := BitVec.ofNat 256 (ent 0x10107 0x2000 5 0) }
    stands 7 w ∧
    (condHolds (x 0) 0 (queueAt (x 0) 0).ent = some false ∧ condHolds x2 0 (queueAt x2 0).ent = some true ∧ waitcLate (x 65536) 0 = true ∧
      waitcLate (x 65535) 0 = false) ∧
    stands 9 (ent 9 0 0 0) ∧ queueFinal (listState 0 fun x => { x with wait := some (.fence 0) }) 0 = false ∧
    queueFinal { listState 0 (fun x => { x with wait := some (.fence 0) }) with tasks := [] } 0 = true ∧
    (let s := { listState (ent 0x1000A 0xFFFF 0 0) id with parts := vmod {} (listState 0 id).parts 0 fun p => { p with gcount := 2 } }
     EntryAt s 0 10 0 0x1000 (BitVec.ofNat 256 (ent 0x1000A 0xFFFF 0 0))) ∧
    ((groupAt (listState 0 id) 1).members = 0 ∧ (groupAt (listState 0 id) 1).parked = 0) ∧
    stands 8 (ent 0x3F0708 0x2000 5 0) ∧
    (signalWrite (listState (ent 0x3F0708 0x2000 5 0) id) 0 (BitVec.ofNat 256 (ent 0x3F0708 0x2000 5 0))).2 = true := by
  unfold stands EntryAt; decide +kernel

/-- A launch record of one array and no argument beyond zeros, a transfer of 16 bytes within the mapped page, and one that runs onto the
page that is not there. -/
theorem witness_LaunchesAndTransfers :
    let e : Nat := ent 0xFFFFFF0000000001 0x100 0x3000 0
    let f : Nat := ent (2 + 16 * 2 ^ 32) 0x2000 0x2800 0
    let s := { listState e id with tasks := [] }
    let r := { listState f id with tasks := [] }
    let x (n dst : Nat) : State := { r with xfers := [{ part := 0, queue := 0, seq := 0, tag := 0, len := n, src := 0x2000, dst := dst, wait := false, status := 1 }] }
    let m := entryMeet s 0 0x1000
    let m2 := virtMeet m 0 0x1020 32
    (EntryAt s 0 1 0 0x1000 (BitVec.ofNat 256 e) ∧ sbFull s 0 = false ∧ virtRead m 0 0x1020 4 = some 0 ∧
      (readRecord m2 0 (BitVec.ofNat 512 e) false).isSome = true) ∧
    (EntryAt r 0 2 0 0x1000 (BitVec.ofNat 256 f) ∧ sbFull r 0 = false ∧ sideBad r 0 16 0x2000 = false) ∧
    ((x 16 0x2800).xfers[0]?.isSome = true ∧ sideSaved (x 16 0x2800) 0x2000 = false ∧ (xferRun (x 16 0x2800) 0 0x2000 0x2800 16 0).2 = 0 ∧
      (xferRun (x 16 0xBFF8) 0 0x2000 0xBFF8 16 0).2 = 2) := by
  unfold EntryAt; decide +kernel

/-! ### Tasks -/

/-- Partition 0 with its task running on array 0, and another task after `f`. -/
def twoTasks (f : Machine.Task → Machine.Task) : State :=
  let s := world id
  { s with ev := {}, tasks := s.tasks ++ [f { programTask with tid := 1, jseq := 1, st := .ready, started := false }]
           parts := vmod {} s.parts 0 fun p => { p with arrays := 3 } }

/-- An empty save area. -/
def emptySave : Saved :=
  { slot := 0, seq := {}, eng := Vector.replicate 4 {}, ports := [], dqTop := 0, dqBot := 0, deque := [], att := Vector.replicate 64 0,
    recv := Vector.replicate 64 0, kcut := 64, frags := [], sides := [], flags := [], gens := [], ages := [], chist := [], errs := [], marks := [],
    tiles := [], total := 0, oldTop := 0 }

theorem witness_TaskEventsTakeEffect :
    (assigns (twoTasks id) 0 false).isSome = true ∧
    (let s := atCycle 480 (twoTasks fun t => { t with assigned := true, top := 1, startAt := 480 })
     assigns s 0 false = none ∧ evictions s 0 = [] ∧ (nextBegin s 0 false).isSome = true) ∧
    (let s := twoTasks fun t => { t with eff := 3 }
     let w := modSeq { s with parts := vmod {} s.parts 0 fun p => { p with arrays := 1, spcount := 1, spsize := 2 ^ 30 } } 0 fun q => { q with pri := 1 }
     assigns w 0 false = none ∧ evictions w 0 = [0]) ∧
    nextBlocking (atCycle 3000000 (twoTasks fun t => { t with eff := 3, skippedAt := some 0 })) 0 = some 1 ∧
    (let s := world fun q => { q with preemptReq := true }
     canStop { s with parts := vmod {} s.parts 0 fun p => { p with spcount := 1, spsize := 2 ^ 30 } } 0 = true) ∧
    (let s := world fun q => { q with stop := .preempt }
     canStop s 0 = false ∧ drained s 0 = true ∧ (taskOf s 0).isSome = true ∧
     quiesceEnds { s with cyc := 7, tasks := s.tasks.map fun t => { t with quiesce := some 7 } } 0 = true ∧
     canSave { s with tasks := s.tasks.map fun t => { t with quiesce := some 0 } } 0 = true) ∧
    savedTask (twoTasks fun t => { t with st := .preempted }) 0 = some 1 ∧
    (assigns (twoTasks fun t => { t with saved := some emptySave }) 0 true).isSome = true ∧
    assigns (twoTasks fun t => { t with st := .preempted }) 0 true = none ∧
    (let s := twoTasks fun t => { t with assigned := true, top := 1, saved := some emptySave }
     assigns s 0 true = none ∧ savedTask s 0 = none ∧ (nextBegin s 0 true).isSome = true) := by
  refine ⟨?_, ?_, ?_, ?_, ?_, ?_, ?_, ?_, ?_, ?_⟩ <;> decide +kernel

/-! ### Front and administration -/

/-- The link up, queue 0 of partition 0 with 16 entries, HEAD 0 and the rest after `f`. -/
def frontState (x0 : Word) (f : Queue → Queue) : State :=
  let s := listState 0 f
  { s with pkg := { s.pkg with pcieUp := true, stage := 5 }, ev := { x0 := x0 } }

/-- A tail at the end of the ring, one past it, and one behind. -/
theorem witness_FunctionRegistersAreWritten :
    let s := frontState 16 id
    let t (v : Word) : BitVec 32 := BitVec.ofNat 32 v.toNat
    s.pkg.pcieUp = true ∧ localQueue s 0 0 = some 0 ∧ (t 16 - (queueAt s 0).head).toNat ≤ 2 ^ (queueAt s 0).log2n ∧
    (2 ^ (queueAt s 0).log2n < (t 17 - (queueAt s 0).head).toNat ∧ (t 17 - (queueAt s 0).tail).toNat < 2 ^ 31) ∧
    (2 ^ (queueAt s 0).log2n < (t 0xFFFFFFFF - (queueAt s 0).head).toNat ∧ 2 ^ 31 ≤ (t 0xFFFFFFFF - (queueAt s 0).tail).toNat) ∧
    ((queueAt (frontState 0 fun x => { x with st := .halted, cause := hRing }) 0).st = .halted ∧ hHaltq ≠ hRing ∧
      (queueAt s 0).lpc = some 0x1000) ∧
    ((1 : BitVec 32) - (partAt s 0).jhead).toNat > ((partAt s 0).jtail - (partAt s 0).jhead).toNat ∧
    ((0 : BitVec 32) - (partAt s 0).jhead).toNat ≤ ((partAt s 0).jtail - (partAt s 0).jhead).toNat ∧ (1 ≤ 28 ∧ 28 ≤ 28) := by decide +kernel

/-- An administrative command for a partition with its parameters: no task, partition 0 of arrays 0 to 3. -/
def admin (e : Ev) : State :=
  let s := mapped (world id)
  { s with tasks := [], ev := e, parts := vmod {} s.parts 0 fun p => { p with arrays := 0xF, gcount := 1 } }

theorem witness_AdminPartitionCommands :
    (AdminRuns (admin { p := 27, x0 := 0xFFFFFF0 }) 1 ∧ (partAt (admin {}) 27).alive = false ∧
      arraysFree (admin {}) 27 0xFFFFFF0 = true ∧ sbGiven (admin {}) 27 < 256 ∧ freeGroup (admin {}) 27 = some 1) ∧
    (AdminPart (admin { x0 := 0xFFFFFFF }) 1 ∧ anyRunning (admin {}) 0 = false ∧ arraysFree (admin {}) 0 0xFFFFFFF = true) ∧
    (AdminPart (admin { x0 := 0xB000000000 }) 1 ∧ memDie 0xBFFFFFF000 < 12 ∧ 0xBFFFFFF000 % 4096 = 0) ∧
    (AdminPart (admin { x0 := 0x10001FF0000000 }) 1 ∧ bitsOf (0x100010000004000 : Word) 56 48 = 256 ∧ others (admin {}) 0 = []) ∧
    (AdminPart (admin {}) 0 ∧ anyLive (admin {}) 0 = false) ∧
    (AdminPart (admin { x0 := 0x1FFFFFFFFFFFFFF, x1 := 1 }) 2) ∧
    (AdminRuns (admin { p := 0xFF, x0 := 255 }) 1 ∧ 255 < Config.queues) ∧
    (AdminPart (admin { x0 := 1, x1 := 48, x2 := 0x80 }) 3 ∧ walk (admin {}) 0 48 = .leaf 0x13F 0x50000 .l4 ∧ 48 % 24 = 0) := by
  unfold AdminPart AdminRuns; and_intros <;> decide +kernel

/-- A migration table of one entry at 384 KiB, whose first word is given. -/
def migrating (w : Nat) : State :=
  { admin {} with
    mem := writeNat (admin {}).mem 0x60000 16 w
    parts := vmod {} (admin {}).parts 0 fun p => { p with mtbase := 0x60000, mtcount := 1 } }

theorem witness_AdminMemoryCommands :
    (AdminRuns (admin { x0 := 1023, x1 := 0x3FFFFFFFFFFFF }) 2 ∧ 1023 < Config.keySlots) ∧ AdminRuns (admin { p := 0xFF, x0 := 1 }) 1 ∧
    (AdminPart (admin { x0 := 11, x1 := 0xFFFF }) 2 ∧ ((below 28 fun q => q ≠ 0).any fun q =>
      tget (0 : BitVec 16) (admin {}).waymask (11 * 28 + q) &&& 0xFFFF ≠ 0) = false) ∧
    (AdminPart (admin { x0 := 15, x1 := 0x40 }) 2 ∧
      (let w := { admin {} with mem := writeNat (admin {}).mem (hostPa 0x40) 32 (0x8000000000003000 + 2 ^ 64 * 2 ^ 20) }
       (BitVec.ofNat 256 (getBytes w (hostPa 0x40) 32)).getLsbD 63 = true ∧ bitsOf (BitVec.ofNat 256 (getBytes w (hostPa 0x40) 32)) 95 64 = 2 ^ 20 ∧
       (BitVec.ofNat 256 (getBytes (admin {}) (hostPa 0x40) 32)).getLsbD 63 = false)) ∧
    ((movePage (migrating (2 ^ 58)) 0 0 0).isOk = true) ∧
    (let s := migrating (2 ^ 58 + 2 ^ 57)
     let t := { s with migCount := [(0, 0, 0, 65534, 0), (0, 0, 0, 1, 0)], parts := vmod {} s.parts 0 fun p => { p with mthr := 65535 } }
     triggerDue t = some (0, 0, 0) ∧ (movePage { t with migCount := t.migCount.filter fun e => !(e.1 = 0 && e.2.1 = 0 && e.2.2.1 = 0) } 0 0 0).isOk = true) ∧
    AdminPart (admin { x0 := 11, x1 := 1024 }) 2 ∧
    (AdminPart (admin { x0 := 0x000F }) 1 ∧ popc (0x000F : BitVec 16) = 4) ∧
    (AdminPart (admin { x0 := 0xF00FF }) 1 ∧ (maskBits 8 0xFF).all (fun d => lockOk (admin {}) d 15) = true) ∧
    AdminPart (admin { x0 := 0xBFFFFFFFFF, x1 := 0xFFFFFFFF, x2 := 0xFFFF, x3 := 0, x4 := 1 }) 5 := by
  unfold AdminPart AdminRuns; and_intros <;> decide +kernel

theorem witness_AdminReservationsTilesAndDebug :
    (AdminPart (admin { x0 := 0x40000001 }) 1 ∧ (firstSlots 64 64 fun x => (chainKeys 0 0 1 x).all fun k =>
      !(tget ({} : Slot) (admin {}).netRes k).valid).isSome = true) ∧
    (AdminPart (admin { x0 := 11, x1 := 0xFFFFFFFF, x2 := 62 }) 3 ∧
      (firstSlots 62 62 fun x => !(tget ({} : Slot) (admin {}).hbmRes x).valid).isSome = true) ∧
    (AdminRuns (admin { x0 := 5, x1 := 16383, x2 := 0x40, x3 := 1 }) 4 ∧ (readRecordOf (admin {}) 0 5 16383).isSome = true ∧
      (readRecordOf (admin {}) 0xFF 1 11).isSome = true) ∧ AdminRuns (admin { x0 := 4, x2 := 0x40 }) 4 ∧
    (∀ k, k < 6 → param (admin { flag := true }) k = 0) ∧
    (AdminPart (admin { x0 := 0x0000000E00080008, x1 := 0x300 }) 2 ∧ (adminTile (admin {}) 0 0x0000000E00080008 0x300).isOk = true ∧
      freeEntry (admin {}) 0 = some 0) ∧
    (AdminPart (admin { x0 := 1 }) 1 ∧ (tileAt (admin {}) 1).st = .live ∧ (tileAt (admin {}) 1).part = 0) ∧
    (AdminPart { world id with ev := { x0 := 0 } } 1 ∧ (taskAt (world id) 0).map (·.st) = some .running) ∧
    AdminRuns (admin { x0 := 1600 }) 1 ∧ AdminRuns (admin { x0 := 0x3FFFFFFFFFFFF }) 2 ∧
    (let s := { admin {} with admin := { en := true, st := 1, log2n := 4, tailAddr := 0x80 } }
     s.admin.fetched = [] ∧ (BitVec.ofNat 32 (getBytes s (hostPa 0x80) 4) - s.admin.head).toNat ≤ 2 ^ s.admin.log2n ∧
     2 ^ s.admin.log2n < (BitVec.ofNat 32 (getBytes { s with mem := writeNat s.mem (hostPa 0x80) 4 17 } (hostPa 0x80) 4) - s.admin.head).toNat) := by
  unfold AdminPart AdminRuns; and_intros <;> decide +kernel

theorem witness_HostPeerAndErrorActs :
    (0xBFFFFFFFC0 + Nat.min 64 64 ≤ 2 ^ 40 ∧ memDie 0xBFFFFFFFC0 < 12) ∧ (2 ^ 51 ≤ 2 ^ 51 ∧ 3 * 2 ^ 50 - 64 + Nat.min 64 64 ≤ 3 * 2 ^ 50) ∧
    (isDevice 0xBFFFFFFFF8 = true ∧ 0xBFFFFFFFF8 < 2 ^ 40 ∧ memDie 0xBFFFFFFFF8 < 12 ∧ 0xBFFFFFFFF8 % 8 = 0) ∧ (16 ≠ 4 ∧ 16 ≠ 8) ∧
    (eccHere 0xBFFFFFFFFF = true ∧ eccHere (onChip + 28 * 2 ^ 23 - 1) = true ∧ 28 * 1024 * 2048 / 2048 / 1024 - 1 < 28 ∧
      unitOk 54 = true ∧ unitOk 55 = false ∧ unitOk 87 = true) ∧
    rhodiGone { admin {} with pkg := { (admin {}).pkg with rhodi := vset (admin {}).pkg.rhodi 15 .up, partner := vset (admin {}).pkg.partner 15 (some 3) } } 3 = false ∧
    (onChip ≤ onChip ∧ onChip - 1 < onChip) := by decide +kernel

theorem witness_ResetsBringUpAndIdentity :
    (27 < 28) ∧ (State.reset.pkg.recovery = false ∧ State.reset.pkg.stopped = false) ∧
    (resetPackage State.reset).pkg.recovery = false ∧ (15 < 16 ∧ 5 ≤ (frontState 0 id).pkg.stage) ∧
    State.reset.pkg.securityVersion ≤ 0 ∧ (State.reset.pkg.limit < 3201 ∧ lowerDie State.reset = some 0) ∧
    lowerDie { State.reset with pkg := { State.reset.pkg with steps := Vector.replicate 8 0 } } = none ∧
    (liveDies State.reset).contains 6 = true := by decide +kernel

/-! ## Witnesses of the whole-machine statements -/

theorem witness_ScalarRegisterZeroAndLink :
    isBound (world id) (curA (world id)) 31 = false ∧ SlotReady (world id) 0 [] [31] := by unfold SlotReady; decide +kernel

theorem witness_LittleEndianMemory : (bitsOf (0xA5 : Word) 5 2).testBit 3 = true ∧ Memory.wf (writeNat [] 7 2 0x1234) = true ∧
    readNat (writeNat [] 7 2 0x1234) 7 1 = 0x34 := by decide +kernel

/-- A fault due in the world with the monitor on and a record base in the mapped page. -/
theorem witness_MonitorEntryRegisters :
    let f : FaultInfo := { code := 0x10, slot := 0, precise := true, pc := 24 }
    let s := mapped (world fun q => { q with stop := .trap, pending := [f] })
    let w := { s with ev := {}, parts := vmod {} s.parts 0 fun p => { p with men := true, mrbase := 0x6000 } }
    let s1 := modSeq (withdrawHeld w 0) 0 fun q => { q with pending := [], located := [] }
    trapDue w 0 = true ∧ (seqAt w 0).mon = false ∧ (seqAt w 0).stop ≠ .retiring ∧ (partAt w (seqAt w 0).part).men = true ∧
    chooseFault (seqAt w 0) = some (f, [], 0) ∧ (writeRecord s1 0 f false 0).2 = (0x6000, false) := by decide +kernel

theorem witness_ZeroWordIsNop : (1 : BitVec 32) ≠ 0 ∧ fld (1 : BitVec 32) 25 7 = 0 ∧ fld (1 : BitVec 32) 24 8 = 0 := by decide

theorem witness_SlotsThatTakeNoEffect :
    (Instr.eret.slotClass = some .sc ∧ privBreak (curSeq (world id)).mon .eret = true) ∧
    (privBreak false (.add 0 3 4 5 false) = false ∧ pred (world id) (guardOf (.add 1 3 4 5 false)) = false) ∧
    ((Instr.copy 1 4 5 0 false false 0 0).slotClass = some .copy ∧ kpred (world id) 1 = false) ∧
    (let s := modArr streamState 0 fun x => { x with ports := x.ports.map fun p => (p.1, { p.2 with elems := [] }) }
     isBound s (curA s) 24 = true ∧ (portAt s (curA s) (portReg 24)).elems = []) ∧
    isPoisoned (world fun q => { q with poisoned := 0x10 }) 4 = true ∧ isBound streamState (curA streamState) 24 = true := by decide +kernel

theorem witness_RegisterInstructionsFrame :
    (.sub 0 3 4 5 true ∈ twoSourceOps 0 3 4 5 true ++ oneSourceOps 0 3 4 1 7 true) ∧ SlotReady (world id) 0 [4, 5] [3] ∧
    (.bmov 0 2 3 ∈ predicateOps 0 2 3 4 4 5 7) ∧ SlotReady (world id) 0 [4, 5] [] ∧
    (.vperm 1 2 3 0 true false ∈ cellLaneOps 1 2 3 0 true false false) ∧ (.flag 1 2 3 0 true ∈ cellWordOps 1 2 3 0 true false false) ∧
    ((.lui 0 3 7, [3]) ∈ registerOps 0 1 2 3 3 4 5 7 9) ∧ SlotReady (world id) 0 [3] [3] ∧ SlotReady (world id) 0 [4] [] ∧
    ctlPriv 0x0FF = false ∧ fmtOk 0 = true ∧ SlotReady (world id) 0 [] [] := by
  unfold SlotReady; decide +kernel

theorem witness_MemoryFrames :
    (.ldD 0 3 1 false 0 2 ∈ memoryReadOps 0 3 4 1 2 false false 0 2 0) ∧ (.stpD 0 3 1 4 0 ∈ memoryWriteOps 0 3 4 1 2 false 0 2 0) ∧
    (.accAdd 0 3 1 4 false 0 ∈ accumulateOps 0 3 4 1 false 0) ∧ residOf (world id) 0 = none ∧
    (let o : Out := { op := .store 7, pl := { pa := 0x40, leaf := 0x13F, page := true }, size := 8 }
     let p : Out := { o with pl := { pa := 0x40, tile := 1 } }
     cached o = true ∧ pteKind o.pl.leaf = 1 ∧ cached p = false ∧ outReady [o] 0 = true ∧ outReady [{ p with op := .cas 4 0 1 }] 0 = true) ∧
    (∀ e ∈ (world id).stale, 0 < e.1) := by decide +kernel

theorem witness_ScWordsRoundTrip : (Instr.add 7 31 31 31 true).slotClass = some .sc ∧ (Instr.add 7 31 31 31 true).wf = true := by decide

theorem witness_CellAndCopyWordsRoundTrip :
    ((Instr.mma 31 63 63 7 true).wf = true ∧ (Instr.mma 31 63 63 7 true).slotClass = some .cell) ∧
    ((Instr.xmit 7 31 31 3 true true 3 3).wf = true ∧ (Instr.xmit 7 31 31 3 true true 3 3).slotClass = some .copy) := by decide

theorem reset_memory_canonical : State.reset.MemCanonical := by unfold State.MemCanonical; decide

theorem witness_MemoryStaysCanonical : (world id).MemCanonical ∧ (mapped (world id)).MemCanonical := by
  unfold State.MemCanonical; decide +kernel

theorem witness_ResetAndFirstBundle : (7 < 8) ∧ (0 = 0 ∨ 9 ≤ 31) ∧ (∀ b ∈ ([(3, 1)] : List (Nat × Nat)), b.1 ≠ 63) := by decide

/-- A program of one bundle, ADD s3, s4, s5, right after reset: it is array 0's turn, and its bundle issues. -/
theorem witness_StepRunsDecoded :
    let s := State.reset.withFetchWord 32 0x02064280
    (match nextStep s with
      | .turn a _ => decide (a = 0)
      | _ => false) = true ∧
    (let w := pmcAdd s 0 0x01 1
     stalled w 0 = false ∧ (seqAt w 0).stop = .run ∧ trapWaits w 0 = false ∧ issueStops w 0 = false ∧
     (match fetch w 0 with
       | .bytes v => decide (v = 0x02064280)
       | _ => false) = true ∧
     (match decodeBundle false 0x02064280 with
       | .ok b => b.sc = .add 0 3 4 5 false && !b.hasWord && !interlocked w 0 b && !countersFull w 0 b && (bundleBreak w 0 b).isNone
       | .error _ => false) = true) := by decide +kernel

/-- The step after reset with that program placed: s3 holds the sum, and the next bundle is 24 bytes on. -/
theorem test_step_runs_add :
    let s := modSeq (State.reset.withFetchWord 32 0x02064280) 0 fun q => { q with s := vset (vset q.s 4 40) 5 2 }
    let t := next (step s) State.reset
    vget 0 (seqAt t 0).s 3 = 42 ∧ (seqAt t 0).pc = 24 := by decide +kernel

theorem witness_StepStopsOnlyWhenFrozen :
    let s := { State.reset with pkg := { State.reset.pkg with frozen := true } }
    s.pkg.frozen = true ∧ (∀ x ∈ s.inputs, x.2.2 ≠ .coldReset) := by decide +kernel

end Sys2Proof.Tests
end

section
/-! How the bits of a bit field, the bytes of a write and the bytes of a read are numbered (R1). -/

namespace Sys2Proof.Machine

theorem testBit_bitsOf {w : Nat} (x : BitVec w) {hi lo : Nat} (h : lo ≤ hi) (i : Nat) :
    (bitsOf x hi lo).testBit i = (decide (lo + i ≤ hi) && x.getLsbD (lo + i)) := by
  have hbound : i < hi + 1 - lo ↔ lo + i ≤ hi := by omega
  rw [bitsOf, Nat.testBit_mod_two_pow, Nat.testBit_div_two_pow, Nat.add_comm i lo, BitVec.testBit_toNat]
  simp only [hbound]

/-- The frame of a write (R1). -/
theorem readByte_writeNat_of_outside (m : Memory) {a n x : Nat} (v : Nat) (h : x < a ∨ a + n ≤ x) :
    readByte (writeNat m a n v) x = readByte m x := by
  induction n generalizing m a v with
  | zero => rfl
  | succ n ih => rw [writeNat, ih _ _ (by omega), readByte_writeByte_of_ne _ _ (by omega)]

/-- The lowest byte of a write lies at its own address: the bytes that follow it do not touch it. -/
theorem readByte_writeNat_succ_first (m : Memory) (a n v : Nat) :
    readByte (writeNat m a (n + 1) v) a = BitVec.ofNat 8 v := by
  rw [writeNat, readByte_writeNat_of_outside _ _ (by omega), readByte_writeByte_self]

/-- Little-endian order of a write (R1): past the first byte, it is the write of `v / 256` one address on. -/
theorem readByte_writeNat_of_inside (m : Memory) (a v : Nat) {n k : Nat} (h : k < n) :
    readByte (writeNat m a n v) (a + k) = BitVec.ofNat 8 (v / 256 ^ k) := by
  induction n generalizing m a v k with
  | zero => omega
  | succ n ih =>
    cases k with
    | zero => simpa using readByte_writeNat_succ_first m a n v
    | succ k =>
      rw [writeNat, Nat.add_comm k 1, ← Nat.add_assoc, ih _ _ _ (by omega), Nat.div_div_eq_div_mul, Nat.pow_add, Nat.pow_one]

theorem readNat_writeNat_self (m : Memory) (a n v : Nat) : readNat (writeNat m a n v) a n = v % 256 ^ n := by
  induction n generalizing m a v with
  | zero => simp [readNat, Nat.mod_one]
  | succ n ih =>
    rw [readNat, readByte_writeNat_succ_first, writeNat, ih, Nat.pow_succ', Nat.mod_mul, BitVec.toNat_ofNat]

/-- Little-endian order of a read (R1): the read without its least significant byte is the read one address on. -/
theorem readNat_byte (m : Memory) (a : Nat) {n k : Nat} (h : k < n) :
    readNat m a n / 256 ^ k % 256 = (readByte m (a + k)).toNat := by
  induction n generalizing a k with
  | zero => omega
  | succ n ih =>
    have hbyte : (readByte m a).toNat < 256 := (readByte m a).isLt
    cases k with
    | zero => simp only [readNat, Nat.pow_zero, Nat.add_zero]; omega
    | succ k =>
      have htail : readNat m a (n + 1) / 256 = readNat m (a + 1) n := by simp only [readNat]; omega
      rw [Nat.pow_succ', ← Nat.div_div_eq_div_mul, htail, ih _ (by omega), Nat.add_right_comm, Nat.add_assoc]

/-- Settles O47: each part is the law of its operation, the bytes by induction on their number. -/
theorem littleEndianMemory : Obligations.LittleEndianMemory := by
  intro m a n v
  exact ⟨fun x _ _ i h => testBit_bitsOf x h i,
    fun _ h => readByte_writeNat_of_inside m a v h,
    fun _ h => readByte_writeNat_of_outside m v h,
    readNat_writeNat_self m a n v,
    fun _ h => readNat_byte m a h,
    wf_writeNat a n v⟩

end Sys2Proof.Machine
end

section
/-! The words whose opcode field is the NOP opcode, in each slot class (R40). -/

namespace Sys2Proof.Machine

theorem decodeSc_zero : decodeSc 0 = .ok .nop := by simp [decodeSc]

theorem decodeCell_zero (k : CellSlot) : decodeCell k 0 = .ok .nop := by simp [decodeCell]

theorem decodeCopy_zero : decodeCopy 0 = .ok .nop := by simp [decodeCopy]

theorem decodeSc_of_nop_opcode {w : BitVec 32} (hw : w ≠ 0) (hop : fld w 25 7 = 0) : decodeSc w = .error .badField := by
  simp only [decodeSc, beq_iff_eq, if_neg hw, if_pos hop]

theorem decodeCopy_of_nop_opcode {w : BitVec 32} (hw : w ≠ 0) (hop : fld w 25 7 = 0) : decodeCopy w = .error .badField := by
  simp only [decodeCopy, beq_iff_eq, if_neg hw, if_pos hop]

theorem cellReserved_nop : cellReserved 0 = false := by decide

theorem cellAccepts_nop (k : CellSlot) : cellAccepts k 0 = true := by cases k <;> decide

/-- The NOP opcode is neither reserved nor refused by a cell slot, so its fields decide. -/
theorem decodeCell_of_nop_opcode {w : BitVec 32} (hw : w ≠ 0) (hop : fld w 24 8 = 0) (k : CellSlot) :
    decodeCell k w = .error .badField := by
  simp only [decodeCell, beq_iff_eq, if_neg hw, hop, cellReserved_nop, cellAccepts_nop, Bool.not_true, Bool.false_eq_true,
    reduceIte]

/-- The class of a bad field is ILLEGAL, located by its slot and with the slot word in DETAIL (R43). -/
theorem slotClassify_badField (mon : Bool) (v k : Nat) :
    slotClassify mon v k (.error .badField) = .error { code := 0x01, slot := k, detail := (slotWord v k).setWidth 64 } := rfl

/-- Settles O50: the decoders' laws on the all-zero word and on the NOP opcode, and the class of a bad field. -/
theorem zeroWordIsNop : Obligations.ZeroWordIsNop :=
  ⟨⟨decodeSc_zero, decodeCell_zero, decodeCopy_zero⟩,
    fun _ hw =>
      ⟨fun hop => ⟨decodeSc_of_nop_opcode hw hop, decodeCopy_of_nop_opcode hw hop⟩,
        fun hop k => decodeCell_of_nop_opcode hw hop k⟩,
    slotClassify_badField⟩

end Sys2Proof.Machine
end
section
/-! Scalar registers (R99): what a read finds after a write, and what the work of an acquire, of a held bundle and of a jump leaves. -/

namespace Sys2Proof.Machine

/-! ## What leaves the scalar registers -/

/-- What a change of one array leaves in that array, it leaves in every array. -/
theorem arr_modArr_congr {β : Type} {f : Arr → Arr} (g : Arr → β) (h : ∀ x, g (f x) = g x) (s : State) (a b : Nat) :
    g (arr (modArr s a f) b) = g (arr s b) := by
  by_cases hb : b = a
  · subst hb
    by_cases hlt : b < 28
    · rw [arr_modArr_self hlt, h]
    · simp [modArr, setArr, arr, vget, vset, hlt]
  · rw [arr_modArr_of_ne s hb]

/-- State `t` reads the scalar registers of the running sequencer as `s` does: its registers and the ports of its array are the same. -/
structure ScalarsKept (s t : State) : Prop where
  cur : t.cur = s.cur
  regs : (curSeq t).s = (curSeq s).s
  ports : (curArr t).ports = (curArr s).ports

theorem ScalarsKept.refl (s : State) : ScalarsKept s s := ⟨rfl, rfl, rfl⟩

theorem ScalarsKept.trans {s t u : State} (h : ScalarsKept s t) (k : ScalarsKept t u) : ScalarsKept s u :=
  ⟨k.cur.trans h.cur, k.regs.trans h.regs, k.ports.trans h.ports⟩

theorem ScalarsKept.portAt_eq {s t : State} (h : ScalarsKept s t) (n : Nat) : portAt t (curA t) n = portAt s (curA s) n :=
  congrArg (fun ports : Tab Port => tget ({} : Port) ports n) h.ports

theorem ScalarsKept.isBound_eq {s t : State} (h : ScalarsKept s t) (r : Nat) : isBound t (curA t) r = isBound s (curA s) r := by
  rw [isBound, isBound, h.portAt_eq]

theorem ScalarsKept.reg_eq {s t : State} (h : ScalarsKept s t) (r : Nat) : reg t r = reg s r := by
  rw [reg, reg, h.isBound_eq, h.portAt_eq, h.regs]

theorem ScalarsKept.of_arrs {s t : State} (hc : t.cur = s.cur) (ha : t.arrs = s.arrs) : ScalarsKept s t := by
  have h : curArr t = curArr s := by simp only [curArr, arr, hc, ha]
  exact ⟨hc, congrArg (·.seq.s) h, congrArg (·.ports) h⟩

theorem modArr_scalarsKept {f : Arr → Arr} (hs : ∀ x, (f x).seq.s = x.seq.s) (hp : ∀ x, (f x).ports = x.ports) (s : State) (a : Nat) :
    ScalarsKept s (modArr s a f) :=
  ⟨rfl, arr_modArr_congr (·.seq.s) hs s a _, arr_modArr_congr (·.ports) hp s a _⟩

theorem modSeq_scalarsKept {f : Seq → Seq} (hs : ∀ q, (f q).s = q.s) (s : State) (a : Nat) : ScalarsKept s (modSeq s a f) :=
  modArr_scalarsKept (fun x => by exact hs x.seq) (fun _ => by rfl) s a

theorem modCur_scalarsKept {f : Seq → Seq} (hs : ∀ q, (f q).s = q.s) (s : State) : ScalarsKept s (modCur s f) :=
  modSeq_scalarsKept hs s s.cur.val

/-! ## An acquire -/

theorem pmcAdd_scalarsKept (s : State) (a code n : Nat) : ScalarsKept s (pmcAdd s a code n) := modSeq_scalarsKept (fun _ => by rfl) s a

theorem countFlits_scalarsKept (s : State) (a n k : Nat) : ScalarsKept s (countFlits s a n k) := by
  unfold countFlits
  split
  · exact .refl s
  · exact (pmcAdd_scalarsKept _ _ _ _).trans (pmcAdd_scalarsKept _ _ _ _)

theorem countTrip_scalarsKept (s : State) (a pa : Nat) : ScalarsKept s (countTrip s a pa) := by
  unfold countTrip
  split
  · exact .refl s
  · exact countFlits_scalarsKept _ _ _ _

theorem countHome_scalarsKept (s : State) (a pa : Nat) : ScalarsKept s (countHome s a pa) := by
  unfold countHome
  split
  · exact .refl s
  · refine ScalarsKept.trans ?_ (countTrip_scalarsKept _ _ _)
    split
    · exact pmcAdd_scalarsKept _ _ _ _
    · exact .refl s

theorem cur_evictLine (s : State) (pa : Nat) : (evictLine s pa).cur = s.cur := by
  unfold evictLine
  dsimp only
  split <;> rfl

theorem cur_evictLines (s : State) (gone : Nat × Nat × Nat × Bool → Bool) : (evictLines s gone).cur = s.cur := by
  refine List.foldlRecOn (motive := fun t : State => t.cur = s.cur) (s.slices.filter gone) _ rfl fun t ht x _ => ?_
  split
  · rw [cur_evictLine, ht]
  · exact ht

theorem cur_sliceTouch (s : State) (p pa : Nat) (d : Bool) : (sliceTouch s p pa d).cur = s.cur := by
  have noted (t : State) (c : Bool) (l : Nat) : (if c then noteDirty t l else t).cur = t.cur := by cases c <;> rfl
  unfold sliceTouch
  dsimp only
  split
  · rfl
  · split
    · exact noted _ _ _
    · split
      · rfl
      · exact (noted _ _ _).trans (cur_evictLines _ _)

theorem cur_touchAll (s : State) (p : Nat) (l : List Nat) (d : Bool) : (touchAll s p l d).cur = s.cur :=
  List.foldlRecOn (motive := fun t : State => t.cur = s.cur) _ _ rfl fun t ht x _ => (cur_sliceTouch t p x d).trans ht

theorem homeCells_scalarsKept (s : State) (p : Nat) (l : List Host.Cell) (bad : List Nat) : ScalarsKept s (homeCells s p l bad) :=
  .of_arrs (cur_touchAll _ _ _ _) (homeCells_meets s p l bad).arrs

theorem writeBack_scalarsKept (s : State) (a : Nat) (l : CacheLine) : ScalarsKept s (writeBack s a l).1 := by
  unfold writeBack
  dsimp only
  split
  · exact .refl s
  · exact (homeCells_scalarsKept _ _ _ _).trans (countHome_scalarsKept _ _ _)

theorem writeBackAll_scalarsKept (s : State) (a : Nat) (p : CacheLine → Bool) : ScalarsKept s (writeBackAll s a p) := by
  unfold writeBackAll
  refine ScalarsKept.trans ?_ (modArr_scalarsKept (fun _ => by rfl) (fun _ => by rfl) _ a)
  refine List.foldlRecOn (motive := fun acc : State × List CacheLine => ScalarsKept s acc.1) _ _ (.refl s) fun acc h l _ => ?_
  split
  · exact h.trans (writeBack_scalarsKept _ _ _)
  · exact h

theorem acquireWork_scalarsKept (s : State) (a scope : Nat) : ScalarsKept s (acquireWork s a scope) := by
  unfold acquireWork
  split
  · exact (writeBackAll_scalarsKept _ _ _).trans (modArr_scalarsKept (fun _ => by rfl) (fun _ => by rfl) _ a)
  · exact .refl s

/-! ## A jump -/

theorem dropCode_s (x : Arr) : (dropCode x).seq.s = x.seq.s := by
  unfold dropCode
  split <;> rfl

theorem dropCode_ports (x : Arr) : (dropCode x).ports = x.ports := by
  unfold dropCode
  split <;> rfl

theorem codePoint_scalarsKept (s : State) (a : Nat) : ScalarsKept s (codePoint s a) := by
  unfold codePoint
  split
  · exact (modArr_scalarsKept dropCode_s dropCode_ports s a).trans (acquireWork_scalarsKept _ _ _)
  · exact .refl s

theorem holdTo_s (q : Seq) (c : Nat) : (q.holdTo c).s = q.s := by
  unfold Seq.holdTo
  split <;> rfl

theorem holdUntil_scalarsKept (s : State) (c : Nat) : ScalarsKept s (holdUntil s c) := modCur_scalarsKept (fun q => holdTo_s q c) s

/-- A jump writes no scalar register: it sets the PC, holds the next bundle, and may be the point of an invalidation (R124, R351). -/
theorem jumpTo_scalarsKept (s : State) (t bubble : Nat) : ScalarsKept s (jumpTo s t bubble) :=
  (modCur_scalarsKept (fun _ => by rfl) s).trans ((holdUntil_scalarsKept _ _).trans (codePoint_scalarsKept _ _))

/-! ## A write of a scalar register -/

theorem getLsbD_setBit_false_self {w : Nat} (v : BitVec w) (i : Nat) : (setBit v i false).getLsbD i = false := by
  
  simp only [setBit, Bool.false_eq_true, reduceIte, BitVec.getLsbD_and, BitVec.getLsbD_not, BitVec.getLsbD_ofNat,
    Nat.testBit_two_pow_self, Bool.and_true, Bool.and_not_self, Bool.and_false]

/-- A write to s0 is discarded (R99). -/
@[simp] theorem setReg_zero (s : State) (v : Word) : setReg s 0 v = s := rfl

/-- A result for s0 is discarded, and nothing waits for it (R99). -/
@[simp] theorem result_zero (s : State) (v : Word) (l : Nat) : result s 0 v l = s := by simp [result, lock]

theorem curSeq_setReg {r : Nat} (h : r ≠ 0) (s : State) (v : Word) :
    curSeq (setReg s r v) = { curSeq s with s := vset (curSeq s).s r v, poisoned := setBit (curSeq s).poisoned r false } := by
  rw [setReg, putReg, if_neg h]
  exact curSeq_modCur s _

@[simp] theorem curA_setReg (s : State) (r : Nat) (v : Word) : curA (setReg s r v) = curA s := by
  unfold setReg putReg
  split <;> rfl

theorem portAt_modSeq (s : State) (a b n : Nat) (f : Seq → Seq) : portAt (modSeq s a f) b n = portAt s b n :=
  arr_modArr_congr (fun x => tget ({} : Port) x.ports n) (fun _ => by rfl) s a b

theorem portAt_setReg (s : State) (r : Nat) (v : Word) (a n : Nat) : portAt (setReg s r v) a n = portAt s a n := by
  unfold setReg putReg
  split
  · rfl
  · exact portAt_modSeq s _ a n _

@[simp] theorem isBound_setReg (s : State) (r : Nat) (v : Word) (a k : Nat) : isBound (setReg s r v) a k = isBound s a k := by
  rw [isBound, isBound, portAt_setReg]

/-- A register that no stream is bound to reads as last written (R99, R100). -/
theorem reg_setReg_self {s : State} {r : Nat} (h0 : r ≠ 0) (hr : r < 32) (hb : isBound s (curA s) r = false) (v : Word) :
    reg (setReg s r v) r = v := by
  simp [reg, h0, hb, curSeq_setReg h0, vget_vset_self _ _ hr]

/-- A write to a register leaves the others (R99). -/
theorem reg_setReg_of_ne (s : State) {r k : Nat} (h : k ≠ r) (v : Word) : reg (setReg s r v) k = reg s k := by
  by_cases h0 : r = 0
  · subst h0; rfl
  · simp [reg, portAt_setReg, curSeq_setReg h0, vget_vset_of_ne _ _ h]

/-- A write clears the poison mark of its register (R217). -/
theorem isPoisoned_setReg_self {r : Nat} (h0 : r ≠ 0) (s : State) (v : Word) : isPoisoned (setReg s r v) r = false := by
  simp [isPoisoned, curSeq_setReg h0, getLsbD_setBit_false_self]

/-! ## The link of JAL -/

/-- JAL with its predicate true writes the address of the next bundle to s31 and jumps (R99, R124). -/
theorem exec_jal_ready {s : State} {p : BitVec 3} (h : SlotReady s p.toNat [] [31]) (o : BitVec 22) :
    exec (.jal p o) s = .next (jumpTo (setReg (markPopped s []) 31 (BitVec.ofNat 64 ((curSeq s).pc + 24)))
      (branchTarget (curSeq s).pc o) 3) :=
  congrArg Host.Outcome.next (slotOp_ready h _)

theorem SlotReady.dst_unbound {s : State} {p : Nat} {srcs dsts : List Nat} (h : SlotReady s p srcs dsts) {r : Nat} (hr : r ∈ dsts) :
    isBound s (curA s) r = false := by
  obtain ⟨_, _, _, hd⟩ := h
  exact hd r hr

/-- Settles O46: s0 and the other registers by the laws of a write, the link of JAL because its jump keeps what it wrote. -/
theorem scalarRegisterZeroAndLink : Obligations.ScalarRegisterZeroAndLink := by
  intro s v l r p o
  refine ⟨reg_zero s, setReg_zero s v, result_zero s v l, fun h1 hr hb => ?_, fun h => ⟨_, exec_jal_ready h o, ?_⟩⟩
  · have h0 : r ≠ 0 := by omega
    exact ⟨reg_setReg_self h0 hr hb v, isPoisoned_setReg_self h0 s v, fun _ hk => reg_setReg_of_ne s hk v⟩
  · have hb : isBound (markPopped s []) (curA (markPopped s [])) 31 = false := h.dst_unbound (by simp)
    rw [(jumpTo_scalarsKept _ _ _).reg_eq, reg_setReg_self (by decide) (by decide) hb]

end Sys2Proof.Machine
end

section
/-! How an entry of a list moves the walk of its queue: what a queue reads as after each operation of the interpreter, and the
three entries that change where the walk goes (R319). -/

namespace Sys2Proof.Machine

/-! ## A queue after an operation of the interpreter -/

@[simp] theorem queueAt_modQueue_self (s : State) (q : Nat) (f : Queue → Queue) :
    queueAt (modQueue s q f) q = (f (queueAt s q)).settle := tget_tset_self _ _ _ _

@[simp] theorem stack_settle (x : Queue) : x.settle.stack = x.stack := rfl

@[simp] theorem lpc_settle (x : Queue) : x.settle.lpc = x.lpc := rfl

/-- A queue that runs is halted with the cause it is given (R322). -/
theorem queueAt_haltQueue_self {s : State} {q : Nat} (h : (queueAt s q).st ≠ .halted) (cause skip : Nat) :
    queueAt (haltQueue s q cause skip) q = { queueAt s q with st := .halted, cause := cause, skipLen := skip } := by
  rw [haltQueue, queueAt_modQueue_self, if_neg h]
  rfl

@[simp] theorem queueAt_entryAccepted (s : State) (q p a kind d k : Nat) :
    queueAt (entryAccepted s q p a kind d) k = queueAt s k :=
  ((entryMeet_meets s p a).trans (virtWriteUnits_meets _ _ _ _)).queueAt_eq k

/-- An entry performed at once moves its queue as its action says: its journal entry and its own read leave the queue as it was (R312). -/
theorem queueAt_immediate {s : State} {p : Nat} (h : jFull s p = false) (q a kind : Nat) (f : Queue → Queue) :
    queueAt (immediate (entryMeet s p a) q p a kind fun t => modQueue t q f) q = (f (queueAt s q)).settle := by
  rw [immediate, accepting_room h, (journalSet_meets _ _ _ _ _).queueAt_eq, queueAt_modQueue_self, queueAt_entryAccepted]

/-! ## An entry that stands -/

theorem walks_of_listNext {s : State} {q p a : Nat} {e : BitVec 256} (h : listNext s q = .entry p a e) :
    walks (queueAt s q) = true := by
  by_contra hw
  rw [Bool.not_eq_true] at hw
  simp [listNext, hw] at h

theorem st_ne_halted_of_walks {x : Queue} (h : walks x = true) : x.st ≠ .halted := by
  simp only [walks, Bool.and_eq_true, decide_eq_true_eq] at h
  obtain ⟨⟨-, hst⟩, -⟩ := h
  exact hst

/-- Only a queue that runs has an entry that is next (R310, R322). -/
theorem EntryAt.st_ne_halted {s : State} {q kind p a : Nat} {e : BitVec 256} (h : EntryAt s q kind p a e) :
    (queueAt s q).st ≠ .halted := by
  obtain ⟨hnext, -⟩ := h
  exact st_ne_halted_of_walks (walks_of_listNext hnext)

theorem EntryAt.room {s : State} {q kind p a : Nat} {e : BitVec 256} (h : EntryAt s q kind p a e) : jFull s p = false := by
  obtain ⟨-, -, -, hroom⟩ := h
  exact hroom

/-! ## JUMP, CALL and RET -/

/-- What RET makes of a queue (R319). -/
def Queue.returned (x : Queue) : Queue :=
  match x.stack with
  | [] => { x with lpc := none }
  | b :: l => { x with stack := l, lpc := some b }

theorem lpc_returned_of_nil {x : Queue} (h : x.stack = []) : x.returned.lpc = none := by simp [Queue.returned, h]

theorem returned_of_cons {x : Queue} {b : Nat} {l : List Nat} (h : x.stack = b :: l) :
    x.returned = { x with stack := l, lpc := some b } := by simp [Queue.returned, h]

section
variable {s : State} {p a : Nat} {e : BitVec 256}

theorem exec_jump_at (h : EntryAt s s.ev.q 4 p a e) :
    exec .jump s = .next (immediate (entryMeet s p a) s.ev.q p a 4 fun t => goTo t s.ev.q (entAddr e)) :=
  congrArg Host.Outcome.next (onEntry_at h (by decide) (by decide) _)

theorem exec_call_at (h : EntryAt s s.ev.q 5 p a e) :
    exec .call s = .next (if (queueAt (entryMeet s p a) s.ev.q).stack.length ≥ 8 then haltQueue (entryMeet s p a) s.ev.q hDepth 32
      else immediate (entryMeet s p a) s.ev.q p a 5 fun t =>
        modQueue t s.ev.q fun x => { x with stack := (a + 32) :: x.stack, lpc := some (entAddr e) }) :=
  congrArg Host.Outcome.next (onEntry_at h (by decide) (by decide) _)

theorem exec_ret_at (h : EntryAt s s.ev.q 6 p a e) :
    exec .ret s = .next (immediate (entryMeet s p a) s.ev.q p a 6 fun t => modQueue t s.ev.q Queue.returned) :=
  congrArg Host.Outcome.next (onEntry_at h (by decide) (by decide) _)

theorem jump_queue (h : EntryAt s s.ev.q 4 p a e) :
    ∃ t, exec .jump s = .next t ∧ queueAt t s.ev.q = Queue.settle { queueAt s s.ev.q with lpc := some (entAddr e) } :=
  ⟨_, exec_jump_at h, queueAt_immediate h.room _ _ _ _⟩

/-- A CALL below DEPTH 8 is accepted (R319). -/
theorem call_queue (h : EntryAt s s.ev.q 5 p a e) (hd : (queueAt s s.ev.q).stack.length < 8) :
    ∃ t, exec .call s = .next t ∧ queueAt t s.ev.q =
      Queue.settle { queueAt s s.ev.q with stack := (a + 32) :: (queueAt s s.ev.q).stack, lpc := some (entAddr e) } := by
  refine ⟨_, exec_call_at h, ?_⟩
  rw [queueAt_entryMeet, if_neg (Nat.not_le.mpr hd)]
  exact queueAt_immediate h.room _ _ _ _

/-- A CALL at DEPTH 8 halts its queue in the state that its read leaves, with no journal entry (R319). -/
theorem exec_call_deep (h : EntryAt s s.ev.q 5 p a e) (hd : 8 ≤ (queueAt s s.ev.q).stack.length) :
    exec .call s = .next (haltQueue (entryMeet s p a) s.ev.q hDepth 32) := by
  rw [exec_call_at h, queueAt_entryMeet, if_pos hd]

theorem ret_queue (h : EntryAt s s.ev.q 6 p a e) :
    ∃ t, exec .ret s = .next t ∧ queueAt t s.ev.q = (queueAt s s.ev.q).returned.settle :=
  ⟨_, exec_ret_at h, queueAt_immediate h.room _ _ _ _⟩

end

/-- Settles O48: the queue after each entry, by the depth of its stack; settling its state changes neither stack nor walk. -/
theorem jumpCallAndRet : Obligations.JumpCallAndRet := by
  intro s p a e q x
  refine ⟨fun h => ?_, fun h => ⟨fun hd => ?_, fun hd => ?_⟩, fun h => ?_⟩
  · obtain ⟨t, ht, hq⟩ := jump_queue h
    exact ⟨t, ht, by rw [hq, lpc_settle], by rw [hq, stack_settle]⟩
  · obtain ⟨t, ht, hq⟩ := call_queue h hd
    exact ⟨t, ht, by rw [hq, lpc_settle], by rw [hq, stack_settle]⟩
  · have hrun : (queueAt (entryMeet s p a) q).st ≠ .halted := by rw [queueAt_entryMeet]; exact h.st_ne_halted
    have hq := queueAt_haltQueue_self hrun hDepth 32
    exact ⟨_, exec_call_deep h hd, by rw [hq], by rw [hq, hDepth], rfl, (entryMeet_meets s p a).parts⟩
  · obtain ⟨t, ht, hq⟩ := ret_queue h
    refine ⟨fun hx => ⟨t, ht, ?_⟩, fun b l hx => ⟨t, ht, ?_, ?_⟩⟩
    · rw [hq, lpc_settle, lpc_returned_of_nil hx]
    · rw [hq, lpc_settle, returned_of_cons hx]
    · rw [hq, stack_settle, returned_of_cons hx]

end Sys2Proof.Machine
end

section
/-! Words and instructions (R47, R51, R54): how the fields of a packed word read back, and that every decoder reads back the words of
its slot class. A word lists its fields from the highest down. -/

namespace Sys2Proof

/-! ## The sum a word is packed from -/

/-- The value of a word's fixed bits and fields before it is cut to 32 bits. -/
def fieldSum (c : Nat) (fs : List (Nat × Nat)) : Nat := fs.foldl (fun n f => n + f.1 * 2 ^ f.2) c

theorem fieldSum_cons (c n o : Nat) (fs : List (Nat × Nat)) : fieldSum c ((n, o) :: fs) = fieldSum c fs + n * 2 ^ o := by
  suffices h : ∀ k : Nat, fieldSum (c + k) fs = fieldSum c fs + k from h _
  induction fs generalizing c with
  | nil => intro k; rfl
  | cons f fs ih =>
    intro k
    show fieldSum (c + k + f.1 * 2 ^ f.2) fs = fieldSum (c + f.1 * 2 ^ f.2) fs + k
    rw [Nat.add_right_comm, ih]

/-- The fixed bits and the fields below bit `lo`, which do not reach it. -/
def FitsBelow (c : Nat) (fs : List (Nat × Nat)) (lo : Nat) : Prop := fieldSum (c % 2 ^ lo) fs < 2 ^ lo

theorem fitsBelow_nil (c lo : Nat) : FitsBelow c [] lo := Nat.mod_lt _ (Nat.two_pow_pos lo)

theorem fieldSum_fixed (c d : Nat) (fs : List (Nat × Nat)) : fieldSum (c + d) fs = fieldSum c fs + d := by
  induction fs with
  | nil => rfl
  | cons f fs ih => obtain ⟨n, o⟩ := f; rw [fieldSum_cons, fieldSum_cons, ih, Nat.add_right_comm]

/-- The sum of a word whose fields all lie below `lo`, cut at `lo`. -/
theorem fieldSum_split (c lo : Nat) (fs : List (Nat × Nat)) :
    fieldSum c fs = 2 ^ lo * (c / 2 ^ lo) + fieldSum (c % 2 ^ lo) fs := by
  conv => lhs; rw [← Nat.mod_add_div c (2 ^ lo), fieldSum_fixed]
  exact Nat.add_comm _ _

theorem fitsBelow_cons {w : Nat} (v : BitVec w) {c o lo : Nat} {fs : List (Nat × Nat)} (hw : o + w ≤ lo)
    (hc : c / 2 ^ o % 2 ^ w = 0) (h : FitsBelow c fs o) : FitsBelow c ((v.toNat, o) :: fs) lo := by
  unfold FitsBelow at *
  obtain ⟨k, rfl⟩ := Nat.exists_eq_add_of_le hw
  have hv := v.isLt
  have hsplit := fieldSum_split (c % 2 ^ (o + w + k)) o fs
  have hmod : c % 2 ^ (o + w + k) % 2 ^ o = c % 2 ^ o := Nat.mod_mod_of_dvd _ (pow_dvd_pow 2 (by omega))
  have hdiv : c % 2 ^ (o + w + k) / 2 ^ o = c / 2 ^ o % 2 ^ (w + k) := by
    rw [Nat.add_assoc, Nat.pow_add 2 o, Nat.mod_mul_right_div_self]
  have hhi : c / 2 ^ o % 2 ^ (w + k) = 2 ^ w * (c / 2 ^ o / 2 ^ w % 2 ^ k) := by
    rw [Nat.pow_add, Nat.mod_mul, hc, Nat.zero_add]
  have hk : c / 2 ^ o / 2 ^ w % 2 ^ k < 2 ^ k := Nat.mod_lt _ (Nat.two_pow_pos k)
  rw [fieldSum_cons, hsplit, hmod, hdiv, hhi]
  generalize c / 2 ^ o / 2 ^ w % 2 ^ k = y at hk
  generalize fieldSum (c % 2 ^ o) fs = z at h
  calc 2 ^ o * (2 ^ w * y) + z + v.toNat * 2 ^ o < 2 ^ o * (2 ^ w * y) + 2 ^ o + v.toNat * 2 ^ o := by omega
    _ = 2 ^ o * (2 ^ w * y + (v.toNat + 1)) := by ring
    _ ≤ 2 ^ o * (2 ^ w * y + 2 ^ w) := Nat.mul_le_mul_left _ (by omega)
    _ = 2 ^ o * 2 ^ w * (y + 1) := by ring
    _ ≤ 2 ^ o * 2 ^ w * 2 ^ k := Nat.mul_le_mul_left _ hk
    _ = 2 ^ (o + w + k) := by rw [Nat.pow_add, Nat.pow_add]

theorem fld_packed (c : Nat) (fs : List (Nat × Nat)) {lo len : Nat} (h : lo + len ≤ 32) :
    fld (packed c fs) lo len = fieldSum c fs / 2 ^ lo % 2 ^ len := by
  obtain ⟨k, hk⟩ := Nat.exists_eq_add_of_le h
  rw [fld, packed, BitVec.toNat_ofNat, hk, Nat.add_assoc, Nat.pow_add 2 lo, Nat.mod_mul_right_div_self, Nat.pow_add 2 len, Nat.mod_mul_right_mod]
  rfl

/-- A field above the bits that are read does not show in them. -/
theorem fld_packed_above {c n o lo len : Nat} {fs : List (Nat × Nat)} (ho : lo + len ≤ o) (h : lo + len ≤ 32) :
    fld (packed c ((n, o) :: fs)) lo len = fld (packed c fs) lo len := by
  obtain ⟨k, rfl⟩ := Nat.exists_eq_add_of_le ho
  rw [fld_packed _ _ h, fld_packed _ _ h, fieldSum_cons]
  have : n * 2 ^ (lo + len + k) = 2 ^ lo * (2 ^ len * (n * 2 ^ k)) := by rw [Nat.pow_add, Nat.pow_add]; ring
  rw [this, Nat.add_mul_div_left _ _ (Nat.two_pow_pos lo), Nat.add_mul_mod_self_left]

/-- The bits above every field are the word's fixed ones. -/
theorem fld_packed_fixed {c lo len : Nat} {fs : List (Nat × Nat)} (hb : FitsBelow c fs lo) (h : lo + len ≤ 32) :
    fld (packed c fs) lo len = c / 2 ^ lo % 2 ^ len := by
  rw [fld_packed _ _ h, fieldSum_split c lo, Nat.mul_add_div (Nat.two_pow_pos lo), Nat.div_eq_of_lt hb, Nat.add_zero]

/-- A field reads back at its own place. -/
theorem fld_packed_field {w : Nat} (v : BitVec w) {c lo : Nat} {fs : List (Nat × Nat)} (hb : FitsBelow c fs lo)
    (hc : c / 2 ^ lo % 2 ^ w = 0) (h : lo + w ≤ 32) : fld (packed c ((v.toNat, lo) :: fs)) lo w = v.toNat := by
  have hf := fld_packed_fixed hb h
  rw [fld_packed _ _ h] at *
  rw [fieldSum_cons, Nat.mul_comm, Nat.add_mul_div_left _ _ (Nat.two_pow_pos lo), Nat.add_mod, hf, hc, Nat.zero_add, Nat.mod_mod,
    Nat.mod_eq_of_lt v.isLt]

/-! ## Words whose fields carry their widths -/

/-- A field of a word: its value, of its own width, and the place of its lowest bit. -/
structure WordField where
  w : Nat
  v : BitVec w
  o : Nat

/-- A word from its fixed bits and its fields, from the highest down. -/
def wordOf (c : Nat) (l : List WordField) : BitVec 32 := packed c (l.map fun f => (f.v.toNat, f.o))

/-- A word of which the fields `l` are known with their widths, and the rest as numbers. -/
def partWord (c : Nat) (l : List WordField) (fs : List (Nat × Nat)) : BitVec 32 := packed c (l.map (fun f => (f.v.toNat, f.o)) ++ fs)

theorem packed_eq_partWord (c : Nat) (fs : List (Nat × Nat)) : packed c fs = partWord c [] fs := rfl

theorem partWord_bits (c : Nat) (l : List WordField) {w : Nat} (v : BitVec w) (o : Nat) (fs : List (Nat × Nat)) :
    partWord c l ((v.toNat, o) :: fs) = partWord c (l ++ [⟨w, v, o⟩]) fs := by simp [partWord]

theorem partWord_bit (c : Nat) (l : List WordField) (b : Bool) (o : Nat) (fs : List (Nat × Nat)) :
    partWord c l ((bnat b, o) :: fs) = partWord c (l ++ [⟨1, BitVec.ofBool b, o⟩]) fs := by
  rw [← partWord_bits]; cases b <;> rfl

theorem partWord_nil (c : Nat) (l : List WordField) : partWord c l [] = wordOf c l := by simp [partWord, wordOf]

/-- The place of a field: its lowest bit and its width. -/
def WordField.place (f : WordField) : Nat × Nat := (f.o, f.w)

/-- Places that stand in order below bit `lo`, where the fixed bits leave room for them. (Spelt, as `placesMiss`, with the functions that
the kernel computes at once.) -/
def placesFit (c : Nat) : List (Nat × Nat) → Nat → Bool
  | [], _ => true
  | (o, w) :: l, lo => Nat.ble (o + w) lo && Nat.beq (c / Nat.pow 2 o % Nat.pow 2 w) 0 && placesFit c l o

theorem fitsBelow_of_placesFit {c : Nat} {l : List WordField} {lo : Nat} (h : placesFit c (l.map WordField.place) lo = true) :
    FitsBelow c (l.map fun f => (f.v.toNat, f.o)) lo := by
  induction l generalizing lo with
  | nil => exact fitsBelow_nil c lo
  | cons f l ih =>
    simp only [List.map_cons, WordField.place, placesFit, Bool.and_eq_true, Nat.ble_eq, Nat.beq_eq] at h
    obtain ⟨⟨hw, hc⟩, hl⟩ := h
    exact fitsBelow_cons f.v hw hc (ih hl)

theorem place_below_of_placesFit {c : Nat} {l : List WordField} {hi : Nat} (h : placesFit c (l.map WordField.place) hi = true) :
    ∀ f ∈ l, f.o + f.w ≤ hi := by
  induction l generalizing hi with
  | nil => exact nofun
  | cons f l ih =>
    simp only [List.map_cons, WordField.place, placesFit, Bool.and_eq_true, Nat.ble_eq] at h
    obtain ⟨⟨hw, _⟩, hl⟩ := h
    intro g hg
    rcases List.mem_cons.mp hg with rfl | hg
    · exact hw
    · exact (ih hl g hg).trans (by omega)

/-- Whether no place meets the bits that are read, so that they are fixed ones. -/
def placesMiss (c : Nat) : List (Nat × Nat) → Nat → Nat → Bool
  | [], _, _ => true
  | (o, w) :: l, lo, len => bif Nat.ble (lo + len) o then placesMiss c l lo len else placesFit c ((o, w) :: l) lo

theorem fld_wordOf_fixed {c : Nat} {l : List WordField} {lo len : Nat} (h32 : lo + len ≤ 32) (h : placesMiss c (l.map WordField.place) lo len = true) :
    fld (wordOf c l) lo len = c / 2 ^ lo % 2 ^ len := by
  induction l with
  | nil => exact fld_packed_fixed (fitsBelow_nil c lo) h32
  | cons f l ih =>
    simp only [List.map_cons, WordField.place, placesMiss] at h
    by_cases ho : lo + len ≤ f.o
    · rw [Nat.ble_eq_true_of_le ho, cond_true] at h
      exact (fld_packed_above ho h32).trans (ih h)
    · rw [Bool.eq_false_iff.mpr (mt Nat.le_of_ble_eq_true ho), cond_false] at h
      exact fld_packed_fixed (fitsBelow_of_placesFit (l := f :: l) h) h32

/-- Every field of a word reads as itself. -/
theorem fld_wordOf_field {c : Nat} {l : List WordField} {hi : Nat} (h32 : hi ≤ 32) (h : placesFit c (l.map WordField.place) hi = true) :
    ∀ f ∈ l, fld (wordOf c l) f.o f.w = f.v.toNat := by
  induction l generalizing hi with
  | nil => exact nofun
  | cons f l ih =>
    simp only [List.map_cons, WordField.place, placesFit, Bool.and_eq_true, Nat.ble_eq, Nat.beq_eq] at h
    obtain ⟨⟨hw, hc⟩, hl⟩ := h
    intro g hg
    rcases List.mem_cons.mp hg with rfl | hg
    · exact fld_packed_field g.v (fitsBelow_of_placesFit hl) hc (by omega)
    · have hle : g.o + g.w ≤ f.o := place_below_of_placesFit hl g hg
      exact (fld_packed_above hle (by omega)).trans (ih (by omega) hl g hg)

/-- What a word with fields reads as: its fields, and its fixed bits where no field stands. -/
theorem wordOf_reads {c : Nat} {l : List WordField} {places : List (Nat × Nat)} {hi : Nat} (hp : l.map WordField.place = places)
    (h32 : hi ≤ 32) (hf : placesFit c places hi = true) :
    (∀ f ∈ l, fld (wordOf c l) f.o f.w = f.v.toNat) ∧
      (∀ lo len, lo + len ≤ 32 → placesMiss c places lo len = true → fld (wordOf c l) lo len = c / 2 ^ lo % 2 ^ len) ∧
      ∀ len, hi + len ≤ 32 → fld (wordOf c l) hi len = c / 2 ^ hi % 2 ^ len := by
  subst hp
  exact ⟨fld_wordOf_field h32 hf, fun _ _ => fld_wordOf_fixed, fun _ => fld_packed_fixed (fitsBelow_of_placesFit hf)⟩

/-! ## The decoders on a word with fields -/

/-- A word with a set bit is not the all-zero one. -/
theorem beq_zero_of_fld {x : BitVec 32} {lo len : Nat} (h : fld x lo len ≠ 0) : (x == 0) = false := by
  rw [beq_eq_false_iff_ne]
  rintro rfl
  simp [fld] at h

theorem decodeSc_of_major {x : BitVec 32} (h : fld x 25 7 ≠ 0) : decodeSc x = decodeScOp x := by
  simp only [decodeSc, beq_zero_of_fld h, beq_eq_false_iff_ne.mpr h, Bool.false_eq_true, if_false]

theorem decodeCopy_of_major {x : BitVec 32} (h : fld x 25 7 ≠ 0) : decodeCopy x = decodeCopyOp x := by
  simp only [decodeCopy, beq_zero_of_fld h, beq_eq_false_iff_ne.mpr h, Bool.false_eq_true, if_false]

theorem decodeCell_of_opcode {x : BitVec 32} {k : CellSlot} (h : fld x 24 8 ≠ 0) (hr : cellReserved (fld x 24 8) = false)
    (ha : cellAccepts k (fld x 24 8) = true) : decodeCell k x = decodeCellOp x := by
  simp only [decodeCell, beq_zero_of_fld h, hr, ha, Bool.not_true, beq_eq_false_iff_ne.mpr h, Bool.false_eq_true, if_false]

theorem fld_seven_bits (x : BitVec 32) : fld x 0 7 = fld x 0 6 + 64 * fld x 6 1 := by simp only [fld]; omega

/-- What an SC word with fields decodes to follows from its fields and its fixed bits; where the function field is six bits beside a
flag, seven bits of it are told apart by the six. -/
theorem decodeSc_wordOf {c op : Nat} {l : List WordField} {i : Instr} {places : List (Nat × Nat)} (hp : l.map WordField.place = places)
    (hf : placesFit c places 25 = true) (hc : c / 2 ^ 25 % 2 ^ 7 = op) (h0 : op ≠ 0)
    (h : ∀ x, fld x 25 7 = op → (∀ f ∈ l, fld x f.o f.w = f.v.toNat) →
      (∀ lo len, lo + len ≤ 32 → placesMiss c places lo len = true → fld x lo len = c / 2 ^ lo % 2 ^ len) →
      (∀ n, placesMiss c places 0 6 = true → c % 64 ≠ n % 64 → (fld x 0 7 == n) = false) → decodeScOp x = .ok i) :
    decodeSc (wordOf c l) = .ok i := by
  obtain ⟨hfields, hfixed, htop⟩ := wordOf_reads hp (by decide) hf
  have hop := (htop 7 (by decide)).trans hc
  rw [decodeSc_of_major (hop ▸ h0)]
  refine h _ hop hfields hfixed fun n hg hn => ?_
  rw [beq_eq_false_iff_ne, fld_seven_bits, hfixed 0 6 (by decide) hg, Nat.pow_zero, Nat.div_one]
  omega

theorem decodeCopy_wordOf {c op : Nat} {l : List WordField} {i : Instr} {places : List (Nat × Nat)} (hp : l.map WordField.place = places)
    (hf : placesFit c places 25 = true) (hc : c / 2 ^ 25 % 2 ^ 7 = op) (h0 : op ≠ 0)
    (h : ∀ x, fld x 25 7 = op → (∀ f ∈ l, fld x f.o f.w = f.v.toNat) →
      (∀ lo len, lo + len ≤ 32 → placesMiss c places lo len = true → fld x lo len = c / 2 ^ lo % 2 ^ len) →
      decodeCopyOp x = .ok i) : decodeCopy (wordOf c l) = .ok i := by
  obtain ⟨hfields, hfixed, htop⟩ := wordOf_reads hp (by decide) hf
  have hop := (htop 7 (by decide)).trans hc
  rw [decodeCopy_of_major (hop ▸ h0)]
  exact h _ hop hfields hfixed

/-- Some cell slot accepts a word's opcode, and every cell slot that does reads the word as an instruction. -/
def CellReadsAs (x : BitVec 32) (i : Instr) : Prop :=
  (∃ k, cellAccepts k (fld x 24 8) = true) ∧ ∀ k, cellAccepts k (fld x 24 8) = true → decodeCell k x = .ok i

/-- What a cell word with fields decodes to in every slot that accepts it; VB accepts every vector opcode, and MX every matrix one. -/
theorem decodeCell_wordOf {c op : Nat} {l : List WordField} {i : Instr} {places : List (Nat × Nat)} (hp : l.map WordField.place = places)
    (hf : placesFit c places 24 = true) (hc : c / 2 ^ 24 % 2 ^ 8 = op) (h0 : op ≠ 0) (hr : cellReserved op = false)
    (ha : (cellAccepts .vb op || cellAccepts .mx op) = true) (h : ∀ x, fld x 24 8 = op → (∀ f ∈ l, fld x f.o f.w = f.v.toNat) →
      (∀ lo len, lo + len ≤ 32 → placesMiss c places lo len = true → fld x lo len = c / 2 ^ lo % 2 ^ len) →
      decodeCellOp x = .ok i) : CellReadsAs (wordOf c l) i := by
  obtain ⟨hfields, hfixed, htop⟩ := wordOf_reads hp (by decide) hf
  have hop := (htop 8 (by decide)).trans hc
  refine ⟨?_, fun k hk => ?_⟩
  · rw [hop]
    rcases Bool.or_eq_true_iff.mp ha with ha | ha
    · exact ⟨_, ha⟩
    · exact ⟨_, ha⟩
  · rw [decodeCell_of_opcode (hop ▸ h0) (hop ▸ hr) hk]
    exact h _ hop hfields hfixed

/-- Settles O54: each word is one with fields, which the branch of its opcode reads back, by cases on the instruction. -/
theorem scWordsRoundTrip : Obligations.ScWordsRoundTrip := by
  intro i hc hw
  cases i <;> try (cases hc; done)
  case nop => rfl
  all_goals
    change decodeSc (packed _ _) = _
    simp only [packed_eq_partWord, partWord_bits, partWord_bit, partWord_nil, List.nil_append, List.cons_append]
    refine decodeSc_wordOf (by simp only [List.map_cons, List.map_nil, WordField.place]; rfl) (by rfl)
      (by simp only [Nat.reducePow, Nat.reduceDiv, Nat.reduceMod]; rfl) (by decide) fun x hop hfield hfixed hfunct => ?_
    try simp only [List.forall_mem_cons] at hfield
    delta decodeScOp
    rw [hop]
    change ite _ _ _ = _
    simp (disch := decide) [hfield, hfixed, hfunct, bits, bit, checked, hw]

theorem copyWord_roundTrip {i : Instr} (hw : i.wf = true) (hc : i.slotClass = some .copy) : decodeCopy (encode i) = .ok i := by
  cases i <;> try (cases hc; done)
  all_goals
    change decodeCopy (packed _ _) = _
    simp only [packed_eq_partWord, partWord_bits, partWord_bit, partWord_nil, List.nil_append, List.cons_append]
    refine decodeCopy_wordOf (by simp only [List.map_cons, List.map_nil, WordField.place]; rfl) (by rfl)
      (by simp only [Nat.reducePow, Nat.reduceDiv, Nat.reduceMod]; rfl) (by decide) fun x hop hfield hfixed => ?_
    simp only [List.forall_mem_cons] at hfield
    delta decodeCopyOp
    rw [hop]
    change ite _ _ _ = _
    simp (disch := decide) [hfield, hfixed, bits, bit, checked, hw]

theorem cellWord_roundTrip {i : Instr} (hw : i.wf = true) (hc : i.slotClass = some .cell) : CellReadsAs (encode i) i := by
  cases i <;> try (cases hc; done)
  all_goals
    change CellReadsAs (packed _ _) _
    simp only [packed_eq_partWord, partWord_bits, partWord_bit, partWord_nil, List.nil_append, List.cons_append]
    refine decodeCell_wordOf (by simp only [List.map_cons, List.map_nil, WordField.place]; rfl) (by rfl)
      (by simp only [Nat.reducePow, Nat.reduceDiv, Nat.reduceMod]; rfl) (by decide) (by decide) (by decide) fun x hop hfield hfixed => ?_
    simp only [List.forall_mem_cons] at hfield
    delta decodeCellOp
    rw [hop]
    change ite _ _ _ = _
    simp (disch := decide) [hfield, hfixed, bits, bit, checked, hw]

/-- Settles O55: as O54, for the decoders of the cell and the copy slots. -/
theorem cellAndCopyWordsRoundTrip : Obligations.CellAndCopyWordsRoundTrip :=
  fun _ hw => ⟨cellWord_roundTrip hw, copyWord_roundTrip hw⟩

end Sys2Proof
end
section
/-! The integer functions, immediates, constants, compares, predicate logic and SEL of the SC slot (R115 to R123): a ready slot takes
its own effect, which is the function the statement names. -/

namespace Sys2Proof.Machine

/-- A ready SC slot answers the state of its own effect. -/
theorem next_slotOp_ready {s : State} {p : Nat} {srcs dsts : List Nat} (h : SlotReady s p srcs dsts) (k : State → State) :
    (.next (slotOp s p srcs dsts k) : MOut) = .next (k (markPopped s srcs)) := congrArg Host.Outcome.next (slotOp_ready h k)

/-- Settles O1: each arm is one slot operation whose effect is the result of its function. -/
theorem scTwoSourceFunctions : Obligations.ScTwoSourceFunctions := by
  intro s p d a b h
  refine ⟨?_, ?_, ?_, ?_, ?_, ?_, ?_, ?_, ?_, ?_, ?_, ?_, ?_, ?_, ?_, ?_, ?_, ?_, ?_, ?_, ?_, ?_, ?_, ?_, ?_, ?_, ?_, ?_⟩ <;>
    exact next_slotOp_ready h _

/-- Settles O2: each arm is one slot operation whose effect is the result of its function. -/
theorem scOneSourceFunctions : Obligations.ScOneSourceFunctions := by
  intro s p d a h
  refine ⟨?_, ?_, ?_, ?_, ?_, ?_, ?_, ?_, ?_, ?_⟩ <;> exact next_slotOp_ready h _

/-- A shift amount that decodes is not changed by the sign extension of its immediate. -/
theorem toNat_signExtend_shift {i : BitVec 12} (h : i.toNat < 64) : (i.signExtend 64).toNat = i.toNat := by
  have hmsb : i.msb = false := BitVec.msb_eq_false_iff_two_mul_lt.mpr (by omega)
  rw [BitVec.signExtend_eq_setWidth_of_msb_false hmsb, BitVec.toNat_setWidth, Nat.mod_eq_of_lt (by omega)]

/-- Settles O5: each arm is one slot operation; a shift by an immediate is one by its number. -/
theorem scImmediatesAndSelect : Obligations.ScImmediatesAndSelect := by
  intro s p d a b
  refine ⟨fun h i => ?_, fun i => ⟨fun h => next_slotOp_ready h _, fun h => next_slotOp_ready h _⟩, fun h c => next_slotOp_ready h _⟩
  refine ⟨?_, ?_, ?_, ?_, ?_, ?_, ?_, fun hi => ?_⟩
  case refine_8 =>
    rw [← toNat_signExtend_shift hi]
    exact ⟨next_slotOp_ready h _, next_slotOp_ready h _, next_slotOp_ready h _⟩
  all_goals exact next_slotOp_ready h _

/-- Settles O6: each arm is one slot operation whose effect is a write of its predicate. -/
theorem scComparesAndPredicates : Obligations.ScComparesAndPredicates := by
  intro s p d e f a b i
  refine ⟨fun h => ⟨?_, ?_, ?_, ?_, ?_, ?_⟩, fun h => ⟨?_, ?_, ?_⟩, fun h => ⟨?_, ?_, ?_, ?_, ?_⟩⟩ <;> exact next_slotOp_ready h _

end Sys2Proof.Machine
end
section
/-! Division (R117), and what CLZ and POPC count (R116). -/

namespace Sys2Proof.Machine

/-- The truncated quotient of the model is that of the library. -/
theorem tdivI_eq_tdiv (a b : Int) : tdivI a b = a.tdiv b := by
  have hq : ∀ x y : Int, ((x.natAbs / y.natAbs : Nat) : Int) = |x| / |y| := fun x y => by simp
  unfold tdivI
  dsimp only
  rw [hq]
  split
  case isTrue h =>
    by_cases ha : a < 0
    · have hb : b < 0 := h ▸ ha
      rw [abs_of_neg ha, abs_of_neg hb, ← Int.tdiv_eq_ediv_of_nonneg (by omega), Int.neg_tdiv_neg]
    · have hb : ¬ b < 0 := h ▸ ha
      rw [abs_of_nonneg (by omega), abs_of_nonneg (by omega), Int.tdiv_eq_ediv_of_nonneg (by omega)]
  case isFalse h =>
    by_cases ha : a < 0
    · have hb : ¬ b < 0 := fun hb => h (by simp [ha, hb])
      rw [abs_of_neg ha, abs_of_nonneg (by omega), ← Int.tdiv_eq_ediv_of_nonneg (by omega), Int.neg_tdiv, neg_neg]
    · have hb : b < 0 := by by_contra hb; exact h (by simp [ha, hb])
      rw [abs_of_nonneg (by omega), abs_of_neg hb, ← Int.tdiv_eq_ediv_of_nonneg (by omega), Int.tdiv_neg, neg_neg]

/-- The integer of the truncated quotient names the library's quotient of words. -/
theorem ofInt_tdivI {n : Nat} (x y : BitVec n) : BitVec.ofInt n (tdivI x.toInt y.toInt) = x.sdiv y := by
  rw [tdivI_eq_tdiv]
  exact BitVec.eq_of_toInt_eq (by rw [BitVec.toInt_ofInt, BitVec.toInt_sdiv])

/-- The remainder of the model is the dividend less quotient times divisor. -/
theorem remS_eq {n : Nat} (x y : BitVec n) : remS x y = if y = 0 then x else x - x.sdiv y * y := by
  unfold remS
  rw [tdivI_eq_tdiv]
  refine if_congr Iff.rfl rfl (BitVec.eq_of_toInt_eq ?_)
  simp [BitVec.toInt_sdiv, BitVec.toInt_sub, BitVec.toInt_mul]

theorem divS_eq {n : Nat} (x y : BitVec n) : divS x y = if y = 0 then BitVec.allOnes n else x.sdiv y := by
  unfold divS
  rw [ofInt_tdivI]

theorem divU_eq {n : Nat} (x y : BitVec n) : divU x y = if y = 0 then BitVec.allOnes n else x / y := by
  unfold divU
  refine if_congr Iff.rfl rfl (BitVec.eq_of_toNat_eq ?_)
  rw [BitVec.toNat_ofNat, BitVec.toNat_udiv, Nat.mod_eq_of_lt ((Nat.div_le_self _ _).trans_lt x.isLt)]

theorem remU_eq {n : Nat} (x y : BitVec n) : remU x y = if y = 0 then x else x - x / y * y := by
  unfold remU
  refine if_congr Iff.rfl rfl ?_
  have hmod : BitVec.ofNat n (x.toNat % y.toNat) = x % y :=
    BitVec.eq_of_toNat_eq (by rw [BitVec.toNat_ofNat, BitVec.toNat_umod, Nat.mod_eq_of_lt ((Nat.mod_le _ _).trans_lt x.isLt)])
  have hsum : x / y * y + x % y = x := BitVec.eq_of_toNat_eq (by
    rw [BitVec.toNat_add, BitVec.toNat_mul, BitVec.toNat_udiv, BitVec.toNat_umod, Nat.mod_add_mod, Nat.div_add_mod',
      Nat.mod_eq_of_lt x.isLt])
  rw [hmod, BitVec.eq_sub_iff_add_eq, BitVec.add_comm, hsum]

/-- The overflowing quotient is the dividend, so its case needs no rule of its own: at widths 64 and 32. -/
theorem divS_word (x y : Word) : divS x y =
    if y = 0 then BitVec.allOnes 64 else if x = BitVec.intMin 64 ∧ y = -1 then x else x.sdiv y := by
  rw [divS_eq]
  refine if_congr Iff.rfl rfl ?_
  split
  case isTrue h => rw [h.1, h.2]; decide
  case isFalse => rfl

theorem divS_half (x y : BitVec 32) : divS x y =
    if y = 0 then BitVec.allOnes 32 else if x = BitVec.intMin 32 ∧ y = -1 then x else x.sdiv y := by
  rw [divS_eq]
  refine if_congr Iff.rfl rfl ?_
  split
  case isTrue h => rw [h.1, h.2]; decide
  case isFalse => rfl

theorem remS_word (x y : Word) : remS x y =
    if y = 0 then x else if x = BitVec.intMin 64 ∧ y = -1 then 0 else x - x.sdiv y * y := by
  rw [remS_eq]
  refine if_congr Iff.rfl rfl ?_
  split
  case isTrue h => rw [h.1, h.2]; decide
  case isFalse => rfl

theorem remS_half (x y : BitVec 32) : remS x y =
    if y = 0 then x else if x = BitVec.intMin 32 ∧ y = -1 then 0 else x - x.sdiv y * y := by
  rw [remS_eq]
  refine if_congr Iff.rfl rfl ?_
  split
  case isTrue h => rw [h.1, h.2]; decide
  case isFalse => rfl

/-- A divide in a ready slot with the divider free. -/
theorem divide_ready {s : State} {p : BitVec 3} {d a b : BitVec 5} (h : SlotReady s p.toNat [a.toNat, b.toNat] [d.toNat])
    (hfree : (curSeq s).divBusy ≤ s.cyc) (f : Word → Word → Word) :
    divide s p d a b f = modCur (result (markPopped s [a.toNat, b.toNat]) d.toNat (f (reg s a.toNat) (reg s b.toNat)) 34)
      fun q => { q with divBusy := s.cyc + 34 } := by
  rw [divide, slotOp_ready h, if_neg (by simpa using hfree)]
  rfl

/-- The .W form of a function acts on the low halves. -/
theorem wForm_half (f : (n : Nat) → BitVec n → BitVec n → BitVec n) (x y : Word) :
    wForm true f x y = (f 32 (x.setWidth 32) (y.setWidth 32)).signExtend 64 := rfl

/-- Settles O4: a divide in a ready slot writes its function, which is the quotient or remainder the statement names. -/
theorem scDivision : Obligations.ScDivision := by
  intro s p d a b h hfree x y u v ok
  have hd : ∀ {f : Word → Word → Word} {r : Word}, f x y = r → (.next (divide s p d a b f) : MOut) = ok r :=
    fun hr => congrArg Host.Outcome.next (hr ▸ divide_ready h hfree _)
  refine ⟨?_, ?_, ?_, ?_, ?_, ?_, ?_, ?_⟩
  · exact hd (f := wForm false fun _ x y => divS x y) (divS_word x y)
  · exact hd (f := wForm false fun _ x y => divU x y) (divU_eq x y)
  · exact hd (f := wForm false fun _ x y => remS x y) (remS_word x y)
  · exact hd (f := wForm false fun _ x y => remU x y) (remU_eq x y)
  · exact hd (f := wForm true fun _ x y => divS x y) ((wForm_half _ x y).trans (congrArg (BitVec.signExtend 64) (divS_half u v)))
  · exact hd (f := wForm true fun _ x y => divU x y) ((wForm_half _ x y).trans (congrArg (BitVec.signExtend 64) (divU_eq u v)))
  · exact hd (f := wForm true fun _ x y => remS x y) ((wForm_half _ x y).trans (congrArg (BitVec.signExtend 64) (remS_half u v)))
  · exact hd (f := wForm true fun _ x y => remU x y) ((wForm_half _ x y).trans (congrArg (BitVec.signExtend 64) (remU_eq u v)))

/-- The count of leading zeros is at most the width. -/
theorem clzOf_le {w : Nat} (x : BitVec w) : clzOf x ≤ w := by
  unfold clzOf
  split <;> omega

/-- The highest one bit of a word that is not zero lies within it. -/
theorem log2_toNat_lt {w : Nat} {x : BitVec w} (hx : x ≠ 0) : Nat.log2 x.toNat < w := by
  have h0 : x.toNat ≠ 0 := fun h => hx (BitVec.eq_of_toNat_eq (by simpa using h))
  exact (Nat.log2_lt h0).mpr x.isLt

theorem getLsbD_of_clzOf {w : Nat} (x : BitVec w) {i : Nat} (hi : w - clzOf x ≤ i) : x.getLsbD i = false := by
  by_cases hx : x = 0
  · simp [hx]
  · have hlt := log2_toNat_lt hx
    simp only [clzOf, if_neg hx] at hi
    exact Nat.testBit_lt_two_pow (Nat.lt_log2_self.trans_le (Nat.pow_le_pow_right (by decide) (by omega)))

theorem getLsbD_clzOf {w : Nat} {x : BitVec w} (hx : x ≠ 0) : clzOf x < w ∧ x.getLsbD (w - 1 - clzOf x) = true := by
  have hlt := log2_toNat_lt hx
  have h0 : x.toNat ≠ 0 := fun h => hx (BitVec.eq_of_toNat_eq (by simpa using h))
  simp only [clzOf, if_neg hx]
  refine ⟨by omega, ?_⟩
  rw [show w - 1 - (w - 1 - Nat.log2 x.toNat) = Nat.log2 x.toNat by omega]
  exact Nat.testBit_log2 h0

theorem popc_zero (w : Nat) : popc (0 : BitVec w) = 0 := by simp [popc]

/-- A bit that is set where it was clear counts one more. -/
theorem popc_or_twoPow {w : Nat} (x : BitVec w) {i : Nat} (hi : i < w) (hx : x.getLsbD i = false) :
    popc (x ||| BitVec.twoPow w i) = popc x + 1 := by
  have hcount : ∀ y : BitVec w, popc y = ((Finset.range w).filter fun j => y.getLsbD j = true).card := fun y => by
    simp [popc, Finset.card_def, Finset.filter_val, Finset.range_val, Multiset.range]
  have hset : ((Finset.range w).filter fun j => (x ||| BitVec.twoPow w i).getLsbD j = true) =
      insert i ((Finset.range w).filter fun j => x.getLsbD j = true) := by
    ext j
    by_cases hj : j = i
    · simp [hj, hi]
    · simp [hj, Ne.symm hj]
  rw [hcount, hcount, hset, Finset.card_insert_of_notMem (by simp [hx])]

/-- Settles O3: the highest one bit is the base 2 logarithm, and POPC is the size of the set of one bits. -/
theorem leadingZeroAndOneBitCounts : Obligations.LeadingZeroAndOneBitCounts := fun w x =>
  ⟨clzOf_le x, fun _ => getLsbD_of_clzOf x, getLsbD_clzOf, popc_zero w, fun _ => popc_or_twoPow x⟩

end Sys2Proof.Machine
end
section
/-! Control flow, hardware loops, MARK to TRAP, control registers, selector pairs and aggregates, and handles (R102 to R132, R158, R346 to
R351, R422, R434 to R438, R447). -/

namespace Sys2Proof.Machine

/-- What a ready SC slot answers, once the effect of its instruction is known. -/
theorem next_slotOp_eq {s t : State} {p : Nat} {srcs dsts : List Nat} {k : State → State} (h : SlotReady s p srcs dsts)
    (hk : k (markPopped s srcs) = t) : (.next (slotOp s p srcs dsts k) : MOut) = .next t :=
  (next_slotOp_ready h k).trans (congrArg Host.Outcome.next hk)

/-- Bits `n` to 0 of a word as a number. -/
theorem bitsOf_low (v : Word) (n : Nat) : bitsOf v n 0 = v.toNat % 2 ^ (n + 1) := by simp [bitsOf]

/-! ## Control flow -/

/-- What a write-back leaves of an array: all that its cache lines and its performance counters do not hold. -/
structure CacheBlind {β : Type} (g : Arr → β) : Prop where
  cache : ∀ x l, g { x with cache := l } = g x
  counters : ∀ x pmc now, g { x with seq := { x.seq with pmc := pmc, now := { x.seq.now with pmc := now } } } = g x

section
variable {β : Type} {g : Arr → β} (hg : CacheBlind g)
include hg

theorem CacheBlind.pmcAdd (s : State) (a code n b : Nat) : g (arr (pmcAdd s a code n) b) = g (arr s b) :=
  arr_modArr_congr g (fun x => hg.counters x _ _) s a b

theorem CacheBlind.countHome (s : State) (a pa b : Nat) : g (arr (countHome s a pa) b) = g (arr s b) := by
  unfold Machine.countHome countTrip countFlits
  (repeat' split) <;> simp only [hg.pmcAdd]

theorem CacheBlind.writeBack (s : State) (a : Nat) (l : CacheLine) (b : Nat) : g (arr (writeBack s a l).1 b) = g (arr s b) := by
  unfold Machine.writeBack
  dsimp only
  split
  · rfl
  · rw [hg.countHome, arr, arr, (homeCells_meets _ _ _ _).arrs]

theorem CacheBlind.writeBackAll (s : State) (a : Nat) (p : CacheLine → Bool) (b : Nat) :
    g (arr (writeBackAll s a p) b) = g (arr s b) := by
  unfold Machine.writeBackAll
  refine (arr_modArr_congr g (fun x => hg.cache x _) _ a b).trans ?_
  refine List.foldlRecOn (motive := fun acc : State × List CacheLine => g (arr acc.1 b) = g (arr s b)) _ _ rfl fun acc h l _ => ?_
  split
  · exact (hg.writeBack _ _ _ _).trans h
  · exact h

/-- An acquire changes cache lines and performance counters of its array only (R233). -/
theorem CacheBlind.acquireWork (s : State) (a scope b : Nat) : g (arr (acquireWork s a scope) b) = g (arr s b) := by
  unfold Machine.acquireWork
  split
  · exact (arr_modArr_congr g (fun x => hg.cache x _) _ a b).trans (hg.writeBackAll _ _ _ _)
  · rfl

/-- The point of R351 changes the code handles besides. -/
theorem CacheBlind.codePoint (hd : ∀ x, g (dropCode x) = g x) (s : State) (a b : Nat) : g (arr (codePoint s a) b) = g (arr s b) := by
  unfold Machine.codePoint
  split
  · exact (hg.acquireWork _ _ _ _).trans (arr_modArr_congr g hd s a b)
  · rfl

end

theorem cacheBlind_npc : CacheBlind fun x => (x.seq.npc, x.seq.stop) := ⟨fun _ _ => rfl, fun _ _ _ => rfl⟩

theorem npc_stop_dropCode (x : Arr) : ((dropCode x).seq.npc, (dropCode x).seq.stop) = (x.seq.npc, x.seq.stop) := by
  unfold dropCode
  split <;> rfl

/-- A jump sets the next bundle, and holds it where nothing held it before (R124). -/
theorem npc_stop_jumpTo {u : State} (h : (curSeq u).stop = .run) (x n : Nat) :
    (curSeq (jumpTo u x n)).npc = x ∧ (curSeq (jumpTo u x n)).stop = .hold (u.cyc + n) := by
  have hkept := cacheBlind_npc.codePoint npc_stop_dropCode (holdUntil (modCur u fun q => { q with npc := x }) (u.cyc + n)) (curA u) (curA u)
  have hheld : curSeq (holdUntil (modCur u fun q => { q with npc := x }) (u.cyc + n)) =
      { curSeq u with npc := x, stop := .hold (u.cyc + n) } := by
    rw [holdUntil, curSeq_modCur, curSeq_modCur]
    simp [Seq.holdTo, h, Stop.holdTo]
  have hseq : (curSeq (jumpTo u x n)) = (arr (jumpTo u x n) (curA u)).seq := by
    unfold curSeq seqAt jumpTo
    rw [(codePoint_scalarsKept _ _).cur]; rfl
  have hcur : (arr (holdUntil (modCur u fun q => { q with npc := x }) (u.cyc + n)) (curA u)).seq =
      { curSeq u with npc := x, stop := .hold (u.cyc + n) } := hheld
  rw [hcur] at hkept
  obtain ⟨hn, hs⟩ := Prod.mk.injEq _ _ _ _ ▸ hkept
  rw [hseq]
  exact ⟨hn, hs⟩

/-- Settles O7: each arm is a slot operation that ends in a jump; what a jump leaves is that of an acquire at most. -/
theorem scControlFlow : Obligations.ScControlFlow := by
  intro s p d a o target link
  refine ⟨fun u x n h => npc_stop_jumpTo h x n, rfl, fun h => next_slotOp_ready h _, fun h => next_slotOp_ready h _, fun h h24 => ?_⟩
  exact next_slotOp_eq h (if_neg (not_not.mpr h24))

/-- Settles O8: the trip count is the low half of ra; a level 1 loop that lies within level 0 does not raise. -/
theorem scLoops : Obligations.ScLoops := by
  intro s p c a i h n pc start last go s0
  have hn : bitsOf (reg s0 a.toNat) 31 0 = n := bitsOf_low _ 31
  refine ⟨next_slotOp_eq h ?_, fun hin => next_slotOp_eq h ?_, next_slotOp_eq h ?_⟩
  · dsimp only
    rw [if_neg (by simp), hn]; rfl
  · dsimp only
    rw [hn]
    refine (if_neg ?_).trans rfl
    rcases hin with h0 | h0 <;> simp [start, last, pc] at h0 ⊢ <;> simp [h0]
  · dsimp only
    rw [hn]

/-- Settles O9: MARK and TEND go on where the gate buffer releases, WAIT where each counter has come down. -/
theorem scMarkPauseWaitTendTrap : Obligations.ScMarkPauseWaitTendTrap := by
  intro s t p i l m c f
  refine ⟨rfl, fun h => ⟨fun hm => next_slotOp_eq h (if_pos hm), fun hm ht => next_slotOp_eq h ?_, next_slotOp_ready h _,
    fun hl ht hc hf => next_slotOp_eq h (if_pos (by simp [hl, ht, hc, hf])), fun hm ht => ?_, next_slotOp_ready h _⟩⟩
  · exact (if_neg (by simp [hm])).trans (withGate_released ht _)
  · exact (congrArg Host.Outcome.next (if_neg (by simp [hm]))).trans (next_slotOp_eq h (withGate_released ht _))

/-! ## Control registers, selector pairs and aggregates -/

/-- Settles O10: the guards of MFC and MTC pass, and each arm is one slot operation. -/
theorem scControlRegisters : Obligations.ScControlRegisters := by
  intro s p d a n w k e v m
  have hpriv (h : ctlPriv n.toNat = true → (curSeq s).mon = true) : ¬(ctlPriv n.toNat && !(curSeq s).mon) = true := by simpa using h
  refine ⟨fun h => ⟨fun hn => ?_, next_slotOp_ready h _, next_slotOp_ready h _, next_slotOp_ready h _, next_slotOp_ready h _⟩,
    fun h => ⟨fun hn hok => ?_, fun hok => next_slotOp_eq h (if_neg (by simpa using hok)), next_slotOp_ready h _, next_slotOp_ready h _⟩,
    fun h => ?_⟩
  · exact (congrArg Host.Outcome.next (if_neg (hpriv hn))).trans (next_slotOp_ready h _)
  · refine (congrArg Host.Outcome.next (if_neg (hpriv hn))).trans (next_slotOp_eq h (if_neg ?_))
    have h200 : n.toNat = 0x200 → n = 0x200 := fun h => BitVec.eq_of_toNat_eq h
    simpa using fun h => hok (h200 h)
  · have hpart (x : BitVec 256) : rowPart x (reg s a.toNat) = BitVec.ofNat 64 (x.toNat / 2 ^ (64 * ((reg s a.toNat).toNat % 4))) := by
      rw [rowPart, bitsOf_low]; norm_num
    exact ⟨next_slotOp_eq h (congrArg (fun r => result (markPopped s [a.toNat]) d.toNat r 1) (hpart _)),
      next_slotOp_eq h (congrArg (fun r => result (markPopped s [a.toNat]) d.toNat r 1) (hpart _))⟩

/-! ## Handles -/

/-- An XLAT that is due sets its handle and leaves those due (R347). -/
theorem xlatDue_of_find {s : State} {k c n : Nat} {va : Word} (h : (seqAt s k).xlats.find? (fun x => x.1 ≤ s.cyc) = some (c, n, va)) :
    xlatDue s k = modSeq (modHandle s k n fun x => xlatHandle s k x va) k fun q => { q with xlats := q.xlats.erase (c, n, va) } := by
  rw [xlatDue, h]

/-- HINFO of a handle that no XLAT interlocks is not held (R111). -/
theorem hinfo_unlocked {s : State} {h : Nat} (hl : ∀ e ∈ (curSeq s).locks, e.1 = 40 + h → e.2 ≤ s.cyc) :
    ¬((curSeq s).locks.any fun e => e.1 = 40 + h && s.cyc < e.2) = true := by
  simp only [List.any_eq_true, Bool.and_eq_true, decide_eq_true_eq, not_exists, not_and]
  exact fun e he h1 h2 => absurd (hl e he h1) (by omega)

/-- The query of LOCQ is the top four bits of its word (R359). -/
theorem bitsOf_query (v : Word) : bitsOf v 63 60 = v.toNat / 2 ^ 60 := by
  have := v.isLt
  simp [bitsOf]; omega

/-- Settles O11: the guards of h15 and of the interlock pass, and each arm is one slot operation. -/
theorem scHandles : Obligations.ScHandles := by
  intro s p h d a
  refine ⟨fun hs hm => ?_, fun k c n va hf => xlatDue_of_find hf, fun hs => ⟨fun hh => next_slotOp_eq hs (if_neg hh), fun hh =>
    next_slotOp_eq hs (if_pos hh)⟩, fun hs => ⟨fun hl => ?_, fun hq => ?_, fun hq => ?_⟩⟩
  · exact (congrArg Host.Outcome.next (if_neg (by simpa using hm))).trans (next_slotOp_ready hs _)
  · have h4 : bitsOf (reg s a.toNat) 3 0 = (reg s a.toNat).toNat % 16 := bitsOf_low _ 3
    refine next_slotOp_eq hs ((if_neg (hinfo_unlocked (h4 ▸ hl))).trans ?_)
    rw [reg_markPopped, h4]; rfl
  · exact next_slotOp_eq hs (if_neg (by rw [reg_markPopped, bitsOf_query]; exact hq))
  · refine next_slotOp_eq hs ((if_pos (by rw [reg_markPopped, bitsOf_query]; exact hq)).trans ?_)
    have h57 : bitsOf (reg s a.toNat) 56 0 = (reg s a.toNat).toNat % 2 ^ 57 := bitsOf_low _ 56
    rw [reg_markPopped, h57]; rfl

end Sys2Proof.Machine
end
section
/-! Scalar memory: loads and stores through handles, at offset registers and of tile words, full/empty instructions, atomics, accumulates,
FENCE, FLUSHRES and RESID (R215 to R222, R246 to R269, R434 to R439). -/

namespace Sys2Proof.Machine

/-! ## Loads -/

theorem handleLoad_ok {s : State} {i : Instr} {p : BitVec 3} {d : BitVec 5} {h : BitVec 4} {c : BitVec 2} {f : BitVec 9} {z : Nat}
    {pl : Place} (hs : SlotReady s p.toNat [] [d.toNat])
    (hc : handleChk (markPopped s []) i h.toNat true (f.toInt * z) z true false false = .ok pl) (q sx : Bool) :
    (.next (handleLoad i p d h q c f z sx s) : MOut) =
      .next (pushOut (markPopped s []) (curA s) (loadOut (markPopped s []) pl h.toNat z d.toNat sx q c.toNat) 1 0) :=
  next_slotOp_eq hs (onChk_ok hc _)

/-- The offset register of a ready slot, which writes it, is a source that is not bound (R100). -/
theorem offsetSrcs {s : State} {p a : Nat} {srcs dsts : List Nat} (hs : SlotReady s p srcs dsts) (ha : a ∈ dsts) :
    (if isBound s (curA s) a then [] else [a]) = [a] := by
  rw [hs.dst_unbound ha]; rfl

theorem offsetLoad_ok {s : State} {i : Instr} {p : BitVec 3} {d a : BitVec 5} {h : BitVec 4} {k : BitVec 8} {z : Nat} {pl : Place}
    (hs : SlotReady s p.toNat [a.toNat] [d.toNat, a.toNat]) (hv : (reg s a.toNat).toNat < 2 ^ 57)
    (hc : handleChk (markPopped s [a.toNat]) i h.toNat false (reg s a.toNat).toNat z true false false = .ok pl) (sx : Bool) :
    (.next (offsetLoad i p d h a k z sx s) : MOut) =
      .next (result (pushOut (markPopped s [a.toNat]) (curA s) (loadOut (markPopped s [a.toNat]) pl h.toNat z d.toNat sx false 0) 1 0)
        a.toNat (reg s a.toNat + BitVec.ofInt 64 (k.toInt * z)) 1) := by
  unfold offsetLoad
  rw [offsetSrcs hs (by simp)]
  exact next_slotOp_eq hs (onChk_ok ((offsetChk_lt z false hv).trans hc) _)

theorem tileLoad_ok {s : State} {i : Instr} {p : BitVec 3} {d a : BitVec 5} {t : BitVec 6} {c : BitVec 2} {z n : Nat} {y : Tile}
    (hs : SlotReady s p.toNat [a.toNat] [d.toNat]) (ht : tileSaved s t.toNat = false)
    (hc : tileChk (markPopped s [a.toNat]) i t.toNat (reg s a.toNat) z false false = .ok (n, y)) (q : Bool) :
    (.next (tileLoad i p d t a q c z s) : MOut) =
      .next (pushOut (markPopped s [a.toNat]) (curA s)
        (loadOut (markPopped s [a.toNat]) (tilePlace n y (reg s a.toNat).toNat) 16 (4 * z) d.toNat false q (Nat.min 2 c.toNat)) 1 0) := by
  refine next_slotOp_eq hs ((if_neg (Bool.eq_false_iff.mp ht)).trans ?_)
  rw [reg_markPopped, hc]
  rfl

/-- Settles O12: each arm is a slot operation whose checks pass. -/
theorem scLoads : Obligations.ScLoads := by
  intro s p d a h t q c f k pl n y
  refine ⟨fun hs => ⟨?_, ?_, ?_, ?_, ?_, ?_, ?_⟩, fun hs => ⟨fun ⟨hv, hc⟩ => offsetLoad_ok hs hv hc _,
    fun ⟨hv, hc⟩ => offsetLoad_ok hs hv hc _⟩, fun hs ht => ⟨fun hc => tileLoad_ok hs ht hc _, fun hc => tileLoad_ok hs ht hc _⟩⟩ <;>
    exact fun hc => handleLoad_ok hs hc _ _

/-! ## Stores -/

/-- A store through a handle in the monitor is outstanding at once; outside it goes into the gate buffer (R219, R434). -/
theorem handleStore_eq (s : State) (pl : Place) (h z : Nat) (v : Word) (q : Bool) (c : Nat) :
    ((curSeq s).mon = true → handleStore s pl h z v q c = pushOut s (curA s)
      { op := .store (lowBytes v z), pl := pl, size := z, rel := q, scope := c, hdl := h } 0 1) ∧
    ∀ u, (curSeq s).mon = false → Gated s (.store h (pl.pa - ptePa pl.leaf) z (lowBytes v z) q c) u → handleStore s pl h z v q c = u :=
  ⟨fun hm => if_pos hm, fun _ hm hg => (if_neg (by simp [hm])).trans (gatePut_gated hg)⟩

theorem handleSt_eq {s : State} {i : Instr} {p : BitVec 3} {d : BitVec 5} {h : BitVec 4} {c : BitVec 2} {f : BitVec 9} {z : Nat}
    {pl : Place} (hs : SlotReady s p.toNat [d.toNat] [])
    (hc : handleChk (markPopped s [d.toNat]) i h.toNat true (f.toInt * z) z false true true = .ok pl) (q : Bool) :
    (.next (handleSt i p d h q c f z s) : MOut) = .next (handleStore (markPopped s [d.toNat]) pl h.toNat z (reg s d.toNat) q c.toNat) :=
  next_slotOp_eq hs (onChk_ok hc _)

theorem handleSt_done {s u : State} {i : Instr} {p : BitVec 3} {d : BitVec 5} {h : BitVec 4} {c : BitVec 2} {f : BitVec 9} {z : Nat}
    {pl : Place} (hs : SlotReady s p.toNat [d.toNat] [])
    (hc : handleChk (markPopped s [d.toNat]) i h.toNat true (f.toInt * z) z false true true = .ok pl) (q : Bool) :
    let s0 : State := markPopped s [d.toNat]
    let v : Word := lowBytes (reg s d.toNat) z
    ((curSeq s).mon = true → (.next (handleSt i p d h q c f z s) : MOut) = .next (pushOut s0 (curA s0)
      { op := .store v, pl := pl, size := z, rel := q, scope := c.toNat, hdl := h.toNat } 0 1)) ∧
    ((curSeq s).mon = false → Gated s0 (.store h.toNat (pl.pa - ptePa pl.leaf) z v q c.toNat) u →
      (.next (handleSt i p d h q c f z s) : MOut) = .next u) := by
  intro s0 v
  obtain ⟨hin, hout⟩ := handleStore_eq s0 pl h.toNat z (reg s d.toNat) q c.toNat
  rw [handleSt_eq hs hc q]
  exact ⟨fun hm => congrArg _ (hin hm), fun hm hg => congrArg _ (hout u hm hg)⟩

theorem offsetStore_done {s u : State} {i : Instr} {p : BitVec 3} {d a : BitVec 5} {h : BitVec 4} {k : BitVec 8} {z : Nat} {pl : Place}
    (hs : SlotReady s p.toNat [d.toNat, a.toNat] [a.toNat]) (hv : (reg s a.toNat).toNat < 2 ^ 57)
    (hc : handleChk (markPopped s [d.toNat, a.toNat]) i h.toNat false (reg s a.toNat).toNat z false true true = .ok pl)
    (hb : s.bun.blocked = false) (hr : s.bun.raised = none) :
    let s0 : State := markPopped s [d.toNat, a.toNat]
    let v : Word := lowBytes (reg s d.toNat) z
    let step : State → State := fun w => result w a.toNat (reg s a.toNat + BitVec.ofInt 64 (k.toInt * z)) 1
    ((curSeq s).mon = true → (.next (offsetStore i p d h a k z s) : MOut) = .next (step (pushOut s0 (curA s0)
      { op := .store v, pl := pl, size := z, rel := false, scope := 0, hdl := h.toNat } 0 1))) ∧
    ((curSeq s).mon = false → Gated s0 (.store h.toNat (pl.pa - ptePa pl.leaf) z v false 0) u → u.bun.blocked = false →
      u.bun.raised = none → (.next (offsetStore i p d h a k z s) : MOut) = .next (step u)) := by
  intro s0 v step
  obtain ⟨hin, hout⟩ := handleStore_eq s0 pl h.toNat z (reg s d.toNat) false 0
  have hgo (t : State) (ht : handleStore s0 pl h.toNat z (reg s d.toNat) false 0 = t) (htb : t.bun.blocked = false)
      (htr : t.bun.raised = none) : (.next (offsetStore i p d h a k z s) : MOut) = .next (step t) := by
    subst ht
    unfold offsetStore
    rw [offsetSrcs hs (by simp)]
    exact next_slotOp_eq hs ((onChk_ok ((offsetChk_lt z true hv).trans hc) _).trans (if_neg (by simpa using ⟨htb, htr⟩)))
  have hpush (o : Out) : (pushOut s0 (curA s0) o 0 1).bun = s0.bun := by
    unfold pushOut
    dsimp only
    split <;> rfl
  refine ⟨fun hm => hgo _ (hin hm) ?_ ?_, fun hm hg hub hur => hgo u (hout u hm hg) hub hur⟩
  · rw [hpush]; exact hb
  · rw [hpush]; exact hr

theorem tileStore_done {s u : State} {i : Instr} {p : BitVec 3} {d a : BitVec 5} {t : BitVec 6} {c : BitVec 2} {z n : Nat} {y : Tile}
    (hs : SlotReady s p.toNat [d.toNat, a.toNat] []) (ht : tileSaved s t.toNat = false)
    (hc : tileChk (markPopped s [d.toNat, a.toNat]) i t.toNat (reg s a.toNat) z true false = .ok (n, y)) (q : Bool) :
    let s0 : State := markPopped s [d.toNat, a.toNat]
    let x : Word := reg s a.toNat
    let v : Word := lowBytes (reg s d.toNat) (4 * z)
    ((curSeq s).mon = true → (.next (tileStore i p d t a q c z s) : MOut) = .next (pushOut s0 (curA s0)
      { op := .store v, pl := tilePlace n y x.toNat, size := 4 * z, rel := q, scope := Nat.min 2 c.toNat } 0 1)) ∧
    ((curSeq s).mon = false → Gated s0 (.tile t.toNat n x.toNat (4 * z) v q (Nat.min 2 c.toNat)) u →
      (.next (tileStore i p d t a q c z s) : MOut) = .next u) := by
  intro s0 x v
  have hgo (r : State) (hr : (if (curSeq s0).mon then
        pushOut s0 (curA s0) { op := .store v, pl := tilePlace n y x.toNat, size := 4 * z, rel := q, scope := tileScope c } 0 1
      else gatePut s0 (.tile t.toNat n x.toNat (4 * z) v q (tileScope c))) = r) :
      (.next (tileStore i p d t a q c z s) : MOut) = .next r := by
    refine next_slotOp_eq hs ((if_neg (Bool.eq_false_iff.mp ht)).trans ?_)
    dsimp only [reg_markPopped]
    rw [hc]
    exact hr
  exact ⟨fun hm => hgo _ (if_pos hm), fun hm hg => hgo u ((if_neg (by simp [s0, hm])).trans (gatePut_gated hg))⟩

theorem stfk_ok {s u : State} {p : BitVec 3} {d a : BitVec 5} {t : BitVec 6} {n : Nat} {y : Tile}
    (hs : SlotReady s p.toNat [d.toNat, a.toNat] []) (ht : tileSaved s t.toNat = false)
    (hc : tileChk (markPopped s [d.toNat, a.toNat]) (.stfk p d t a) t.toNat (reg s a.toNat) 1 true true = .ok (n, y))
    (hu : Released (markPopped s [d.toNat, a.toNat]) u) (hst : (curSeq u).st < 255) :
    exec (.stfk p d t a) s = .next (pushOut (regionNext u) (curA u)
      { op := .stfk (BitVec.ofNat 32 (reg s d.toNat).toNat), pl := tilePlace n y (reg s a.toNat).toNat, size := 4, rel := true, scope := 2 }
      0 1) := by
  refine next_slotOp_eq hs ((if_neg (Bool.eq_false_iff.mp ht)).trans ?_)
  rw [reg_markPopped, hc]
  exact (releasingSt_released hu hst _).trans (by rw [curA_regionNext]; rfl)

/-- Settles O13: each arm is a slot operation whose checks pass, and which the monitor sends at once. -/
theorem scStores : Obligations.ScStores := by
  intro s u p d a h t q c f k pl n y
  refine ⟨fun hs => ⟨?_, ?_, ?_, ?_⟩, fun hs => ⟨fun ⟨hv, hc⟩ => ?_, fun ⟨hv, hc⟩ => ?_⟩, fun hs ht => ⟨?_, ?_, ?_⟩⟩
  · exact fun hc => handleSt_done hs hc _
  · exact fun hc => handleSt_done hs hc _
  · exact fun hc => handleSt_done hs hc _
  · exact fun hc => handleSt_done hs hc _
  · exact offsetStore_done hs hv hc
  · exact offsetStore_done hs hv hc
  · exact fun hc => tileStore_done hs ht hc _
  · exact fun hc => tileStore_done hs ht hc _
  · exact fun hc hu hst => stfk_ok hs ht hc hu hst

end Sys2Proof.Machine
end
section
/-! Full/empty instructions, atomics, accumulates, FENCE, FLUSHRES and RESID (R222, R246 to R269). -/

namespace Sys2Proof.Machine

/-! ## LDF, LDFK and STE -/

@[simp] theorem cur_lock (s : State) (n due : Nat) : (lock s n due).cur = s.cur := by
  unfold lock
  split <;> rfl

@[simp] theorem cur_putReg (s : State) (a r : Nat) (v : Word) : (putReg s a r v).cur = s.cur := by
  unfold putReg
  split <;> rfl

@[simp] theorem cur_putPoison (s : State) (a r : Nat) (v : Word) (bad : Bool) : (putPoison s a r v bad).cur = s.cur := by
  unfold putPoison
  split <;> rfl

/-- An instruction of no request under way sends its own where its checks pass and nothing earlier holds it (R222, R226). -/
theorem feOp_sends {s u : State} {i : Instr} {p : BitVec 3} {d a : BitVec 5} {t : BitVec 6} {kind n : Nat} {y : Tile} {srcs : List Nat}
    (hsrc : (if kind = 2 then [d.toNat, a.toNat] else [a.toNat]) = srcs) (hs : SlotReady s p.toNat srcs [d.toNat])
    (hdone : (curSeq s).feDone = none) (hreq : (curSeq s).feReq = none) (hretry : (curSeq s).retryAt = none)
    (hsaved : tileSaved s t.toNat = false) (hu : Released (markPopped s srcs) u)
    (hc : tileChk (markPopped s srcs) i t.toNat (reg s a.toNat) 1 (kind = 2) true = .ok (n, y))
    (hfree : feBlocked u (curA u) kind (tileBase y 0 + 4 * (reg s a.toNat).toNat) = false) :
    let addr : Nat := tileBase y 0 + 4 * (reg s a.toNat).toNat
    (.next (feOp i p d t a kind s) : MOut) = .next (block (modCur u fun q =>
      { q with feReq := some { kind := kind, tile := n, addr := addr, v := BitVec.ofNat 32 (reg s d.toNat).toNat, due := u.cyc + 1 }
               feDue := if kind ≠ 2 ∧ padBase (curA u) ≤ addr ∧ addr < padBase (curA u + 1) then u.cyc + 18 else 0 })) := by
  intro addr
  unfold feOp
  rw [hsrc]
  refine next_slotOp_eq hs ?_
  dsimp only [curSeq_markPopped, reg_markPopped]
  rw [hdone]
  have hlive : tileSaved (markPopped s srcs) t.toNat = false := hsaved
  have hidle : ¬((curSeq s).feReq.isSome || (curSeq s).retryAt.isSome || tileSaved (markPopped s srcs) t.toNat) = true := by
    simp [hreq, hretry, hlive]
  refine (if_neg hidle).trans ?_
  rw [hc]
  refine (withGate_released hu _).trans ((if_neg (Bool.eq_false_iff.mp hfree)).trans ?_)
  simp only [Bool.and_eq_true, decide_eq_true_eq, and_assoc]
  rfl

/-- The state in which a full/empty instruction has issued. -/
theorem feOp_answered {s : State} {i : Instr} {p : BitVec 3} {d a : BitVec 5} {t : BitVec 6} {kind : Nat} {w : Word} {bad : Bool}
    {srcs : List Nat} (hsrc : (if kind = 2 then [d.toNat, a.toNat] else [a.toNat]) = srcs) (hs : SlotReady s p.toNat srcs [d.toNat])
    (hdone : (curSeq s).feDone = some (w, bad)) :
    (.next (feOp i p d t a kind s) : MOut) = .next (feIssue (markPopped s srcs) d.toNat kind w bad) := by
  unfold feOp
  rw [hsrc]
  refine next_slotOp_eq hs ?_
  dsimp only [curSeq_markPopped]
  rw [hdone]

/-- A load answered OK acquires at DEV as it issues (R222, R233). -/
theorem feIssue_load (s : State) (d kind : Nat) (hk : kind ≠ 2) (w : Word) (bad : Bool) :
    feIssue s d kind w bad =
      let v : State := lock (putPoison s (curA s) d w bad) d (curSeq s).feDue
      regionNext (modCur (if bitsOf w 63 32 = 0 then acquireWork v (curA v) 2 else v) fun q =>
        { q with feReq := none, feDone := none, retryAt := none }) := by
  have hcur : curA (lock (putPoison s (curA s) d w bad) d (curSeq s).feDue) = curA s := by simp [curA]
  unfold feIssue
  dsimp only
  rw [if_neg hk, hcur]
  simp [hk]

/-- Settles O14: the arms are one operation of the kinds 0, 1 and 2, before and after its answer. -/
theorem scFullEmpty : Obligations.ScFullEmpty := by
  intro s u p d a t n y w bad x addr sends idle issued
  refine ⟨fun hs => ⟨fun hi hu => ?_, fun hd => ?_⟩, fun hs => ⟨fun hi hu hc hb => ?_, fun hd => ?_⟩⟩
  · obtain ⟨hdone, hreq, hretry, hsaved⟩ := hi
    exact ⟨fun hc hb => feOp_sends rfl hs hdone hreq hretry hsaved hu hc hb, fun hc hb => feOp_sends rfl hs hdone hreq hretry hsaved hu hc hb⟩
  · exact ⟨(feOp_answered rfl hs hd).trans (congrArg _ (feIssue_load _ _ 0 (by decide) _ _)),
      (feOp_answered rfl hs hd).trans (congrArg _ (feIssue_load _ _ 1 (by decide) _ _))⟩
  · obtain ⟨hdone, hreq, hretry, hsaved⟩ := hi
    exact feOp_sends rfl hs hdone hreq hretry hsaved hu hc hb
  · exact feOp_answered rfl hs hd

/-! ## Atomics and accumulates -/

theorem toNat_eq_fifteen (h : BitVec 4) : h.toNat = 15 ↔ h = 15 := ⟨fun e => BitVec.eq_of_toNat_eq e, fun e => e ▸ rfl⟩

theorem amoSize_eq (h : BitVec 4) (v : Word) (f : Nat) :
    amoSize (f = 9) h.toNat v = if h = 15 ∨ f = 9 ∨ v.getLsbD 63 = true then 4 else 8 := by
  simp only [amoSize, Bool.or_eq_true, decide_eq_true_eq, toNat_eq_fifteen, or_assoc]

theorem casSize_eq (h : BitVec 4) (v : Word) :
    amoSize false h.toNat v = if h = 15 ∨ v.getLsbD 63 = true then 4 else 8 := by
  simp only [amoSize, Bool.or_eq_true, decide_eq_true_eq, toNat_eq_fifteen, Bool.false_eq_true, or_false]

theorem accSize_eq (fn : Nat) (h : BitVec 4) : accSize fn h.toNat = if fn = 2 ∧ h ≠ 15 then 2 else 4 := by
  simp only [accSize, Bool.and_eq_true, decide_eq_true_eq, ne_eq, toNat_eq_fifteen]

theorem atomicScope_eq (h : BitVec 4) (c : BitVec 2) : atomicScope h.toNat c = if h = 15 then Nat.min 2 c.toNat else c.toNat := by
  simp only [atomicScope, toNat_eq_fifteen]; rfl

theorem atomicHandle_eq (h : BitVec 4) : atomicHandle h.toNat = if h = 15 then 16 else h.toNat := by
  simp only [atomicHandle, toNat_eq_fifteen]

theorem amo_ok {s u : State} {i : Instr} {fn : Nat} {p : BitVec 3} {d a : BitVec 5} {h : BitVec 4} {pl : Place} {z : Nat}
    (hs : SlotReady s p.toNat [d.toNat, a.toNat] [d.toNat]) (hu : Released (markPopped s [d.toNat, a.toNat]) u)
    (hst : (curSeq u).st < 255) (hz : z = if h = 15 ∨ fn = 9 ∨ (reg s a.toNat).getLsbD 63 = true then 4 else 8)
    (hc : atomicChk (markPopped s [d.toNat, a.toNat]) i h.toNat (reg s a.toNat) fn 0x3C z true = .ok pl) (q r : Bool) (c : BitVec 2) :
    (.next (amo i fn p d h a q r c s) : MOut) = .next (pushOut (regionNext u) (curA u)
      { op := .amo fn d.toNat (reg s d.toNat), pl := pl, size := z, acq := q, rel := r,
        scope := if h = 15 then Nat.min 2 c.toNat else c.toNat, hdl := if h = 15 then 16 else h.toNat } 0 1) := by
  rw [← amoSize_eq] at hz
  subst hz
  refine next_slotOp_eq hs ((onChk_ok hc _).trans ((releasingSt_released hu hst _).trans ?_))
  rw [curA_regionNext, atomicScope_eq, atomicHandle_eq]
  rfl

theorem cas_ok {s u : State} {p : BitVec 3} {e h : BitVec 4} {a : BitVec 5} {q r : Bool} {c : BitVec 2} {pl : Place} {z : Nat}
    (hs : SlotReady s p.toNat [2 * e.toNat, 2 * e.toNat + 1, a.toNat] [2 * e.toNat])
    (hu : Released (markPopped s [2 * e.toNat, 2 * e.toNat + 1, a.toNat]) u)
    (hst : (curSeq u).st < 255) (hz : z = if h = 15 ∨ (reg s a.toNat).getLsbD 63 = true then 4 else 8)
    (hc : atomicChk (markPopped s [2 * e.toNat, 2 * e.toNat + 1, a.toNat]) (.cas p e h a q r c) h.toNat (reg s a.toNat) 0 0x3D z true
      = .ok pl) :
    exec (.cas p e h a q r c) s = .next (pushOut (regionNext u) (curA u)
      { op := .cas (2 * e.toNat) (reg s (2 * e.toNat)) (reg s (2 * e.toNat + 1)), pl := pl, size := z, acq := q, rel := r,
        scope := if h = 15 then Nat.min 2 c.toNat else c.toNat, hdl := if h = 15 then 16 else h.toNat } 0 1) := by
  rw [← casSize_eq] at hz
  subst hz
  refine next_slotOp_eq hs ((onChk_ok hc _).trans ((releasingSt_released hu hst _).trans ?_))
  rw [curA_regionNext, atomicScope_eq, atomicHandle_eq]
  rfl

theorem acc_ok {s u : State} {i : Instr} {fn : Nat} {p : BitVec 3} {d a : BitVec 5} {h : BitVec 4} {pl : Place} {z : Nat}
    (hs : SlotReady s p.toNat [d.toNat, a.toNat] []) (hu : Released (markPopped s [d.toNat, a.toNat]) u)
    (hst : (curSeq u).st < 255) (hroom : residFull (markPopped s [d.toNat, a.toNat]) (curA s) = false)
    (hz : z = if fn = 2 ∧ h ≠ 15 then 2 else 4)
    (hc : atomicChk (markPopped s [d.toNat, a.toNat]) i h.toNat (reg s a.toNat) fn 0x3E z false = .ok pl) (r : Bool) (c : BitVec 2) :
    let m := resMerge (regionNext u) (curA u) pl.pa fn ((reg s d.toNat).toNat % 2 ^ (8 * accBytes fn (pl.pa ≥ onChip)))
    (.next (acc i fn p d h a r c s) : MOut) = .next (pushOut m.1 (curA u)
      { op := .acc fn (BitVec.ofNat 64 m.2.1), pl := pl, size := z, rel := r,
        scope := if h = 15 then Nat.min 2 c.toNat else c.toNat, hdl := if h = 15 then 16 else h.toNat, carries := m.2.2 } 0 1) := by
  rw [← accSize_eq] at hz
  subst hz
  refine next_slotOp_eq hs ((onChk_ok hc _).trans ((if_neg (Bool.eq_false_iff.mp hroom)).trans ((releasingSt_released hu hst _).trans ?_)))
  dsimp only
  rw [curA_regionNext, atomicScope_eq, atomicHandle_eq]
  rfl

/-- Settles O15: each arm is one atomic of its function, whose checks pass and whose release leaves room in st. -/
theorem scAtomics : Obligations.ScAtomics := by
  intro s u p d a e h q r c pl v scope hdl
  refine ⟨fun hs hu hst => ?_, fun hs hu hst hc => cas_ok hs hu hst rfl hc, fun hs hu hst hroom => ?_⟩
  · refine ⟨?_, ?_, ?_, ?_, ?_, ?_, ?_, ?_, ?_, ?_⟩ <;> exact fun hc => amo_ok hs hu hst rfl hc q r c
  · refine ⟨?_, ?_, ?_, ?_⟩ <;> exact fun hc => acc_ok hs hu hst hroom rfl hc r c

/-! ## FENCE, FLUSHRES and RESID -/

/-- State `t` differs from `s` in its arrays only. -/
def ArrsOnly (s t : State) : Prop := t = { s with arrs := t.arrs }

theorem ArrsOnly.refl (s : State) : ArrsOnly s s := rfl

theorem ArrsOnly.trans {s t u : State} (h : ArrsOnly s t) (k : ArrsOnly t u) : ArrsOnly s u := by
  unfold ArrsOnly at h k ⊢
  rw [k, h]

theorem modArr_arrsOnly (s : State) (a : Nat) (f : Arr → Arr) : ArrsOnly s (modArr s a f) := rfl

theorem modSeq_arrsOnly (s : State) (a : Nat) (f : Seq → Seq) : ArrsOnly s (modSeq s a f) := rfl

theorem startWalk_arrsOnly (s : State) (a h : Nat) : ArrsOnly s (startWalk s a h) := rfl

theorem holdUntil_arrsOnly (s : State) (c : Nat) : ArrsOnly s (holdUntil s c) := rfl

theorem ArrsOnly.cur {s t : State} (h : ArrsOnly s t) : t.cur = s.cur := by rw [h]

theorem ArrsOnly.curA {s t : State} (h : ArrsOnly s t) : curA t = curA s := by rw [h]; rfl

theorem ArrsOnly.mem {s t : State} (h : ArrsOnly s t) : t.mem = s.mem := by rw [h]

theorem pushOut_arrsOnly (s : State) (a : Nat) (o : Out) (x y : Nat) : ArrsOnly s (pushOut s a o x y) := by
  unfold pushOut
  dsimp only
  split <;> rfl

/-- Entries that leave the gate buffer become outstanding operations; nothing but their array changes (R438). -/
theorem gateGo_arrsOnly (a : Nat) (l : List GateEntry) (n : Nat) (s : State) : ArrsOnly s (gateGo a l n s).1 := by
  have pushed (s : State) (o : Out) (x y : Nat) : ArrsOnly s (pushOut (popGate s a) a o x y) :=
    (modSeq_arrsOnly s a _).trans (pushOut_arrsOnly _ _ _ _ _)
  induction l generalizing n s with
  | nil => exact .refl s
  | cons e l ih =>
    cases e with
    | fence sc => exact (pushed _ _ _ _).trans (ih _ _)
    | tile sl k x z v rel sc =>
      unfold gateGo
      split
      · exact .refl s
      · split
        · exact .refl s
        · exact (pushed _ _ _ _).trans (ih _ _)
    | store h off z v rel sc =>
      unfold gateGo
      split
      · exact .refl s
      · split
        · exact (pushed _ _ _ _).trans (ih _ _)
        · exact startWalk_arrsOnly s a h
        · exact .refl s
        · exact .refl s

theorem Released.arrsOnly {s t : State} (h : Released s t) : ArrsOnly s t := by
  rcases h with ⟨-, rfl⟩ | ⟨-, u, n, hg, rfl⟩
  · exact .refl _
  · have hu : ArrsOnly s u := by
      have := gateGo_arrsOnly (curA s) (seqAt s (curA s)).gate 0 s
      rwa [show gateGo (curA s) (seqAt s (curA s)).gate 0 s = (u, n, .done) from hg] at this
    split
    · exact hu.trans (holdUntil_arrsOnly _ _)
    · exact hu

theorem Gated.arrsOnly {s t : State} {e : GateEntry} (h : Gated s e t) : ArrsOnly s t := by
  rcases h with ⟨-, rfl⟩ | ⟨-, u, hu, rfl⟩
  · exact modSeq_arrsOnly _ _ _
  · exact hu.arrsOnly.trans ((modArr_arrsOnly _ _ _).trans (modSeq_arrsOnly _ _ _))

/-- Where its bundle is not held, what FENCE does after its release has gone into the gate buffer (R236, R269). -/
theorem fence_ready {s t : State} {p : BitVec 3} {q c : BitVec 2} (hs : SlotReady s p.toNat [] [])
    (ht : (if q.getLsbD 1 && !(curSeq s).mon then gatePut (markPopped s []) (.fence c.toNat) else markPopped s []) = t)
    (hb : t.bun.blocked = false) (hr : t.bun.raised = none) :
    exec (.fence p q c) s = .next (if q.getLsbD 0 || (q.getLsbD 1 && (curSeq s).mon) then
      resumeFence (pendOn t (.fence (q.getLsbD 0) (q.getLsbD 1 && (curSeq s).mon) c.toNat)) (curA s) (q.getLsbD 0)
        (q.getLsbD 1 && (curSeq s).mon) c.toNat else t) := by
  subst ht
  exact next_slotOp_eq hs (if_neg (by rw [Bool.or_eq_true, not_or]; exact ⟨Bool.eq_false_iff.mp hb, Bool.eq_false_iff.mp (congrArg Option.isSome hr)⟩))

/-- The order of a FENCE that decodes names a release or an acquire (R236). -/
theorem fence_order {q : BitVec 2} (h : q ≠ 0) : (q.getLsbD 0 || q.getLsbD 1) = true := by
  revert h
  revert q
  decide

/-- Settles O16: the cases of FENCE by the monitor and its order; FLUSHRES and RESID are slot operations whose checks pass. -/
theorem scFences : Obligations.ScFences := by
  intro s u p q c t n hs hb hr s0 acq rel
  refine ⟨fun hm hq => ?_, fun hm hrel hacq => ?_, fun hm hrel hu hub hur => ?_, next_slotOp_ready hs _, next_slotOp_ready hs _,
    fun ht hc => next_slotOp_eq hs ?_⟩
  · have := fence_ready (c := c) hs (t := s0) (q := q) (by simp [hm, s0]) hb hr
    rw [this, hm]
    simp only [Bool.and_true, fence_order hq, if_true]
    rfl
  · have := fence_ready (c := c) hs (t := s0) (q := q) (by rw [show q.getLsbD 1 = false from hrel]; rfl) hb hr
    rw [this, show q.getLsbD 0 = true from hacq, hm]
    simp only [Bool.and_false, Bool.true_or, if_true]
    rfl
  · have hput : (if q.getLsbD 1 && !(curSeq s).mon then gatePut (markPopped s []) (.fence c.toNat) else markPopped s []) = u := by
      rw [show q.getLsbD 1 = true from hrel, hm]
      exact gatePut_gated hu
    have hcur : curA u = curA s := hu.arrsOnly.curA
    rw [fence_ready hs hput hub hur, hm, hcur]
    simp only [Bool.and_false, Bool.or_false]
    rw [show acq = q.getLsbD 0 from rfl]
    cases q.getLsbD 0 <;> rfl
  · refine (if_pos rfl).trans ((if_neg (Bool.eq_false_iff.mp ht)).trans ?_)
    rw [hc]

end Sys2Proof.Machine
end
section
/-! Tiles, SYNC and barrier instructions, deques, TLAUNCH, SEAL and the return from the monitor (R326 to R331, R352, R366 to R371, R416 to
R420, R436). -/

namespace Sys2Proof.Machine

/-! ## TALLOC, TFREE, TINFO and TMOVE -/

/-- TALLOC goes on from the state in which the gate buffer has released (R368). -/
theorem talloc_released {s u r : State} {p : BitVec 3} {d a : BitVec 5} {t : BitVec 6} (hs : SlotReady s p.toNat [a.toNat] [d.toNat])
    (hu : Released (markPopped s [a.toNat]) u)
    (hr : (let w := regionNext u
      if (curTile w t.toNat).isSome || tileSaved w t.toNat then holdUntil (setReg w d.toNat (statusWord 4 0)) (w.cyc + 8)
      else if !tallocOk (reg s a.toNat) (curSeq w).len then holdUntil (setReg w d.toNat (statusWord 3 0)) (w.cyc + 8)
      else tallocGo w (.talloc p d t a) d.toNat t.toNat (reg s a.toNat)) = r) :
    exec (.talloc p d t a) s = .next r :=
  next_slotOp_eq hs ((releasing_released hu _).trans hr)

/-- Step 3 of R368 on: where the quarter is the partition's, or the tile is none of a quarter. -/
theorem tallocGo_placed {w : State} {i : Instr} {d t : Nat} {v : Word}
    (h : (descTile v).1.level = 2 → quarterPart w (homeOf w (descTile v).1 (descTile v).2.1 (descTile v).2.2) = some (curPart w)) :
    tallocGo w i d t v =
      let home := homeOf w (descTile v).1 (descTile v).2.1 (descTile v).2.2
      let tile : Tile := { (descTile v).1.inCells (chainOf w (curA w)) with
        part := curPart w, homeArr := home, len := if (descTile v).1.level = 0 then lenCode (curSeq w).len else 0, placed := true,
        binds := 1, owner := some (curPart w, curTid w) }
      let late := 12 * crossings (dieOfArr w (curA w)) (dieOfArr w home)
      match freeEntry w (curPart w) with
      | none => holdUntil (setReg w d (statusWord 1 0)) (w.cyc + 8 + late)
      | some n => match lowestFit w tile with
        | none => holdUntil (setReg w d (statusWord 2 0)) (w.cyc + 8 + late)
        | some b => holdUntil (setReg (bindSlot (placeTile w n { tile with base := b } (chainOf w (curA w))) t n) d (statusWord 0 n))
            (w.cyc + 8 + ceilDiv tile.words (zeroRate tile.level) + late) := by
  have hne : ¬(decide ((descTile v).1.level = 2) &&
      decide (quarterPart w (homeOf w (descTile v).1 (descTile v).2.1 (descTile v).2.2) ≠ some (curPart w))) = true := by
    simpa using h
  exact if_neg hne

/-- Where the quarter is another partition's, PERMISSION is raised as late as a placement would end (R368). -/
theorem tallocGo_denied {w : State} {i : Instr} {d t : Nat} {v : Word} (h2 : (descTile v).1.level = 2)
    (hq : quarterPart w (homeOf w (descTile v).1 (descTile v).2.1 (descTile v).2.2) ≠ some (curPart w)) :
    tallocGo w i d t v = tallocDenied w { faultW w 0x12 i with tslot := t, tvalid := true }
      (w.cyc + 8 + 12 * crossings (dieOfArr w (curA w))
        (dieOfArr w (homeOf w (descTile v).1 (descTile v).2.1 (descTile v).2.2))) :=
  if_pos (by rw [Bool.and_eq_true]; exact ⟨decide_eq_true h2, decide_eq_true hq⟩)

theorem streamless {s : State} {n : Nat} (h : streamOn s (curA s) n = false) : ¬streamOn s (curA s) n = true := by simp [h]

/-- Settles O17: TALLOC by the order of the steps of R368; TFREE, TINFO and TMOVE of a slot whose check answers its tile. -/
theorem scTiles : Obligations.ScTiles := by
  intro s u p d a t n y
  refine ⟨fun hs hu => ?_, fun hs ht hc hn hu => ?_, fun hs ht => ⟨fun hc => ?_, fun hc hu => ?_⟩⟩
  · intro v w want home inCells tile late
    refine ⟨fun ho => ?_, fun hfree hsaved => ⟨fun hbad => ?_, fun hok h2 hq => ⟨fun hp => ?_, fun c hp hc => ?_⟩, fun hok hq => ?_⟩⟩
    · exact talloc_released hs hu (if_pos (by simpa using ho))
    all_goals
      have hopen : ¬((curTile w t.toNat).isSome || tileSaved w t.toNat) = true := by simp [hfree, hsaved]
    · exact talloc_released hs hu ((if_neg hopen).trans (if_pos (by rw [hbad]; rfl)))
    · refine talloc_released hs hu ((if_neg hopen).trans ((if_neg (by rw [hok]; decide)).trans ((tallocGo_denied h2 hq).trans ?_)))
      rw [tallocDenied, hp]
    · refine talloc_released hs hu ((if_neg hopen).trans ((if_neg (by rw [hok]; decide)).trans ((tallocGo_denied h2 hq).trans ?_)))
      rw [tallocDenied, hp]
      exact if_neg (Nat.not_lt.mpr hc)
    · have hgo := fun r hr => talloc_released (r := r) hs hu ((if_neg hopen).trans ((if_neg (by rw [hok]; decide)).trans
        ((tallocGo_placed hq).trans hr)))
      refine ⟨fun he => hgo _ (by dsimp only; rw [he]), fun k he => ⟨fun hl => hgo _ ?_, fun b hl => hgo _ ?_⟩⟩
      · dsimp only
        rw [he]
        dsimp only
        rw [hl]
      · dsimp only
        rw [he]
        dsimp only
        rw [hl]
  · refine next_slotOp_eq hs ((if_neg (Bool.eq_false_iff.mp ht)).trans ?_)
    rw [hc]
    exact (if_neg (Bool.eq_false_iff.mp hn)).trans (releasing_released hu _)
  · refine next_slotOp_eq hs ((if_neg (Bool.eq_false_iff.mp ht)).trans ?_)
    rw [hc]
    rfl
  · refine next_slotOp_eq hs ((if_neg (Bool.eq_false_iff.mp ht)).trans ?_)
    rw [hc]
    exact releasing_released hu _

/-! ## SYNC -/

/-- A SYNC that has not arrived arrives where its release is done (R240, R420). -/
theorem sync_arrives {s u r : State} {p : BitVec 3} {d : BitVec 5} {g : BitVec 12} (hs : SlotReady s p.toNat [] [d.toNat])
    (hdone : (curSeq s).syncDone = none) (hgroup : (curSeq s).syncGroup = none) (hin : groupIn s (curPart s) g.toNat = true)
    (hmem : (groupAt s (groupNo s (curPart s) g.toNat)).members.getLsbD (curA s) = true) (hphase : phaseOn s = false)
    (hu : Released (markPopped s []) u) (hrel : releaseBlocked u (curA s) 1 = false) (hland : copiesLanded u (curA s) = true)
    (hr : (let n := groupNo s (curPart s) g.toNat
      let w := flushResid (releaseWork u (curA s) 1) (curA s)
      if (groupAt w n).broken then syncIssue w d.toNat (syncBroken (groupAt w n))
      else
        let x := groupArrive (modCur w fun q => { q with syncGroup := some g.toNat }) (curPart u) g.toNat (curA s)
        match (curSeq x).syncDone with
        | some v => syncIssue x d.toNat v
        | none => block x) = r) :
    exec (.sync p d g) s = .next r := by
  refine next_slotOp_eq hs ?_
  dsimp only [curSeq_markPopped]
  rw [hdone]
  have h1 : ¬(curSeq s).syncGroup.isSome = true := by simp [hgroup]
  have h2 : ¬(!groupIn s (curPart s) g.toNat || !(groupAt s (groupNo s (curPart s) g.toNat)).members.getLsbD (curA s)) = true := by
    rw [hin, hmem]; decide
  have h3 : ¬(releaseBlocked u (curA s) 1 || !copiesLanded u (curA s)) = true := by rw [hrel, hland]; decide
  refine (if_neg h1).trans ((if_neg h2).trans ((if_neg (Bool.eq_false_iff.mp hphase)).trans ((withGate_released hu _).trans
    ((if_neg h3).trans ?_))))
  exact hr

/-! ## Barrier objects -/

/-- An instruction on a barrier object that passes its checks (R416). -/
theorem barOp_ok {s r : State} {i : Instr} {p : BitVec 3} {srcs dsts : List Nat} {t : BitVec 6} {a : BitVec 5} {k : State → Place → State}
    {pl : Place} (hs : SlotReady s p.toNat (a.toNat :: srcs) dsts) (ht : tileSaved s t.toNat = false)
    (hc : barChk (markPopped s (a.toNat :: srcs)) i t.toNat (reg s a.toNat) true = .ok pl)
    (hk : k (markPopped s (a.toNat :: srcs)) pl = r) : (.next (barOp i p srcs dsts t a s k) : MOut) = .next r := by
  refine next_slotOp_eq hs ((if_neg (Bool.eq_false_iff.mp ht)).trans ?_)
  rw [reg_markPopped, hc]
  exact hk

/-- An update of a barrier object is outstanding where its release leaves room in st. -/
theorem barPush {v u : State} (hu : Released v u) (hst : (curSeq u).st < 255) (o : Out) :
    releasingSt v (fun s => pushOut s (curA s) o 0 1) = pushOut (regionNext u) (curA u) o 0 1 := by
  rw [releasingSt_released hu hst, curA_regionNext]

/-- CBWAIT issues with its answer once that is due. -/
theorem cbwait_answered {s : State} {p : BitVec 3} {d a : BitVec 5} {t : BitVec 6} {v : Word}
    (hs : SlotReady s p.toNat [d.toNat, a.toNat] [d.toNat]) (hdone : (curSeq s).cbDone = some v) (hat : (curSeq s).cbAt ≤ s.cyc) :
    exec (.cbwait p d t a) s = .next (cbwaitIssue (markPopped s [d.toNat, a.toNat]) d.toNat v) := by
  refine next_slotOp_eq hs ?_
  dsimp only [curSeq_markPopped]
  rw [hdone]
  exact if_neg (Nat.not_lt.mpr hat)

/-- CBWAIT that its object answers at once (R417, R418). -/
theorem cbwait_atOnce {s : State} {p : BitVec 3} {d a : BitVec 5} {t : BitVec 6} {v : Word} {pl : Place}
    (hs : SlotReady s p.toNat [d.toNat, a.toNat] [d.toNat]) (hdone : (curSeq s).cbDone = none) (hw : (curSeq s).cbwaiting = false)
    (hretry : (curSeq s).retryAt = none) (ht : tileSaved s t.toNat = false)
    (hc : barChk (markPopped s [d.toNat, a.toNat]) (.cbwait p d t a) t.toNat (reg s a.toNat) false = .ok pl)
    (hb : feBlocked s (curA s) 0 pl.pa = false) (hans : cbwaitAnswer (barAt s pl.pa) ((reg s d.toNat).toNat % 2 ^ 8) = some v)
    (hopen : serviceOpen s (barServed (curA s) pl.pa) = true) :
    exec (.cbwait p d t a) s = .next (cbwaitIssue (markServed
      (countHome (markPoison (markPopped s [d.toNat, a.toNat]) pl.pa 16) (curA s) pl.pa) (barServed (curA s) pl.pa)) d.toNat v) := by
  refine next_slotOp_eq hs ?_
  dsimp only [curSeq_markPopped]
  rw [hdone]
  have h1 : ¬((curSeq s).cbwaiting || (curSeq s).retryAt.isSome || tileSaved s t.toNat) = true := by rw [hw, hretry, ht]; decide
  have h2 : ¬(feBlocked s (curA s) 0 pl.pa || !serviceOpen s (barServed (curA s) pl.pa)) = true := by rw [hb, hopen]; decide
  refine (if_neg h1).trans ?_
  rw [reg_markPopped, hc]
  refine (if_neg h2).trans ?_
  have hlow : bitsOf (reg (markPopped s [d.toNat, a.toNat]) d.toNat) 7 0 = (reg s d.toNat).toNat % 2 ^ 8 := bitsOf_low _ 7
  have hans' : cbwaitAnswer (barAt (markPopped s [d.toNat, a.toNat]) pl.pa) (bitsOf (reg (markPopped s [d.toNat, a.toNat]) d.toNat) 7 0) =
      some v := by rw [hlow]; exact hans
  rw [hans']
  rfl

/-- Settles O18: SYNC by whether it has its answer, has to arrive, or finds its group broken; the barrier instructions by their check. -/
theorem scSynchronisation : Obligations.ScSynchronisation := by
  intro s u p d a t g q c pl v
  refine ⟨fun hs => ⟨fun hdone => ?_, fun hdone hgroup hin hmem hphase hu hrel hland => ?_⟩, fun ht => ⟨fun hs hu hst => ⟨fun hc hg => ?_,
    fun hc => barOp_ok hs ht hc (barPush hu hst _)⟩, fun hs => ⟨fun hc hu hst => barOp_ok hs ht hc (barPush hu hst _), fun hc => ?_⟩⟩,
    fun hs => ⟨fun hdone hat => cbwait_answered hs hdone hat, fun hdone hw hretry ht hc hb hans hopen =>
      cbwait_atOnce hs hdone hw hretry ht hc hb hans hopen⟩⟩
  · refine next_slotOp_eq hs ?_
    dsimp only [curSeq_markPopped]
    rw [hdone]
  · have hgo := fun r hr => sync_arrives (r := r) hs hdone hgroup hin hmem hphase hu hrel hland hr
    refine ⟨fun hb => hgo _ (if_pos hb), fun hb => ⟨fun hx => hgo _ ((if_neg (Bool.eq_false_iff.mp hb)).trans ?_), fun hx =>
      hgo _ ((if_neg (Bool.eq_false_iff.mp hb)).trans ?_)⟩⟩
    · dsimp only
      rw [hx]
    · dsimp only
      rw [hx]
  · refine barOp_ok hs ht hc ((if_neg ?_).trans (barPush hu hst _))
    rcases hg with hg | hg
    · simp [hg]
    · have hg' : groupIn (markPopped s [a.toNat, d.toNat]) (curPart (markPopped s [a.toNat, d.toNat]))
          (bitsOf (reg (markPopped s [a.toNat, d.toNat]) d.toNat) 23 16) = true := hg
      rw [hg']
      simp
  · refine next_slotOp_eq hs ((if_neg (Bool.eq_false_iff.mp ht)).trans ?_)
    rw [reg_markPopped, hc]

/-! ## Deques, TLAUNCH, SEAL and UNSEAL -/

theorem dequeOp_released {v u : State} (hu : Released v u) (o : Out) (now : Bool) :
    dequeOp v o now = if now then
        tryNow (pushOut (regionNext u) (curA (regionNext u)) o 1 0) (curA (pushOut (regionNext u) (curA (regionNext u)) o 1 0))
          fun s k o => dqHome s (curA s) k o
      else pushOut (regionNext u) (curA (regionNext u)) o 1 0 := by
  unfold dequeOp
  rw [(pushOut_arrsOnly _ _ _ _ _).curA]
  exact releasing_released hu _

/-- SEAL and UNSEAL of a range, once no earlier access holds their release (R352, R353). -/
theorem sealOp_ok {s u : State} {p : BitVec 3} {d a r : BitVec 5} (hs : SlotReady s p.toNat [a.toNat, r.toNat] [d.toNat])
    (hu : Released (markPopped s [a.toNat, r.toNat]) u) (hrel : releaseBlocked u (curA u) 2 = false)
    (hinv : 0 < (reg s r.toNat).toNat → (reg s r.toNat).toNat ≤ 4096 →
      invalWaits u (curPart u) (reg s a.toNat).toNat (reg s r.toNat).toNat = false) (on : Bool) :
    (.next (sealOp p d a r on s) : MOut) =
      let x := sealRange (releaseWork u (curA u) 2) (curPart u) (reg s a.toNat).toNat (reg s r.toNat).toNat on
      .next (regionNext (setReg x.1 d.toNat x.2)) := by
  refine next_slotOp_eq hs ((withGate_released hu _).trans (if_neg ?_))
  rw [hrel, Bool.false_or, Bool.and_eq_true, Bool.and_eq_true, decide_eq_true_eq, decide_eq_true_eq]
  rintro ⟨⟨h0, h1⟩, h2⟩
  exact Bool.eq_false_iff.mp (hinv h0 h1) h2

/-- Settles O19: each arm goes on where the gate buffer has released and no earlier access holds it. -/
theorem scDequesLaunchSeal : Obligations.ScDequesLaunchSeal := by
  intro s u p b d a r h f pl v w deque own
  refine ⟨fun hs hu => next_slotOp_eq hs (dequeOp_released hu _ true), fun hs hu => next_slotOp_eq hs (dequeOp_released hu _ true),
    fun hs hu hr hp => ?_, fun hs hu hrel => ?_, fun hs hu hrel hinv => ⟨sealOp_ok hs hu hrel hinv true, sealOp_ok hs hu hrel hinv false⟩⟩
  · refine next_slotOp_eq hs ((if_neg ?_).trans (dequeOp_released hu _ false))
    have hp' : partOfArr (markPopped s [r.toNat]) (reg (markPopped s [r.toNat]) r.toNat).toNat = some (curPart (markPopped s [r.toNat])) := hp
    rw [hp']
    simpa using hr
  · intro s1 hc hacc hpost hread hargs l
    refine next_slotOp_eq hs ((withGate_released hu _).trans ((if_neg (Bool.eq_false_iff.mp hrel)).trans ((onChk_ok hc _).trans ?_)))
    have h1 : ¬(accessBlocked s1 (curA u) pl.pa 64 || postedBlocked s1 (curA u) pl.pa) = true := by rw [hacc, hpost]; decide
    refine (if_neg h1).trans ?_
    rw [hread]
    refine (if_neg (by decide)).trans ((if_neg (Bool.eq_false_iff.mp hargs)).trans ?_)
    rfl

/-! ## ERET -/

/-- Settles O21: in the monitor by whether MEPC is a multiple of 24; PRIV outside it. -/
theorem eretReturns : Obligations.EretReturns := fun _ =>
  ⟨fun hm h24 => congrArg Host.Outcome.next ((if_pos hm).trans (if_neg (not_not.mpr h24))),
    fun hm h24 => congrArg Host.Outcome.next ((if_pos hm).trans (if_pos h24)),
    fun hm => congrArg Host.Outcome.next (if_neg (Bool.eq_false_iff.mp hm))⟩

end Sys2Proof.Machine
end
section
/-! Pattern micro-programs: PLAY, PATC and LDATT (R394 to R406). -/

namespace Sys2Proof.Machine

/-! ## Runs -/

/-- What a micro-program cache holds beside, and the performance counters: a trigger and a use leave the rest of an array. -/
structure ProgBlind {β : Type} (g : Arr → β) : Prop extends CacheBlind g where
  progs : ∀ x l, g { x with progs := l } = g x

theorem ProgBlind.triggerCompile {β : Type} {g : Arr → β} (hg : ProgBlind g) (s : State) (a n : Nat) (t : Tile) (fmt : Word)
    (thr b : Nat) : g (arr (triggerCompile s a n t fmt thr).1 b) = g (arr s b) := by
  unfold Machine.triggerCompile
  split
  · rfl
  · exact (arr_modArr_congr g (fun x => hg.progs x _) _ a b).trans (hg.pmcAdd _ _ _ _ _)

theorem progBlind_fmt : ProgBlind fun x => x.seq.fmt := ⟨⟨fun _ _ => rfl, fun _ _ _ => rfl⟩, fun _ _ => rfl⟩

theorem triggerCompile_arrsOnly (s : State) (a n : Nat) (t : Tile) (fmt : Word) (thr : Nat) :
    ArrsOnly s (triggerCompile s a n t fmt thr).1 := by
  unfold triggerCompile
  split <;> rfl

theorem pmcAdd_arrsOnly (s : State) (a code n : Nat) : ArrsOnly s (pmcAdd s a code n) := rfl

theorem fmt_pmcAdd (s : State) (a code n : Nat) : (curSeq (pmcAdd s a code n)).fmt = (curSeq s).fmt :=
  progBlind_fmt.pmcAdd s a code n s.cur.val

theorem fmt_triggerCompile (s : State) (a n : Nat) (t : Tile) (fmt : Word) (thr : Nat) :
    (curSeq (triggerCompile s a n t fmt thr).1).fmt = (curSeq s).fmt := by
  have := progBlind_fmt.triggerCompile s a n t fmt thr s.cur.val
  rw [curSeq, (triggerCompile_arrsOnly s a n t fmt thr).cur]
  exact this

/-- A run whose names pass their check begins, outside the monitor (R399). -/
theorem playRun_begins {u : State} {i : Instr} {d : Nat} {v : Word} {words : List (Instr × Instr × Instr × Bool)} {entry base : Nat}
    {status fmt : Word} {rs ws : List Nat} (hmon : (curSeq u).mon = false) (hfmt : (curSeq u).fmt.inForce = fmt)
    (hc : regionCheck u (curA u) fmt (u.bun.word ++ wordInstrs words) = .ok (rs, ws)) :
    playRun u i d v words entry base status = runBegun u d (playSel v) words entry base status rs ws := by
  subst hfmt
  refine (if_neg (by simp [hmon])).trans ?_
  rw [hc]
  rfl

/-- PLAY of a tile that its checks let through goes on by the entry that the cache has for it (R398, R399). -/
theorem play_checked {s r : State} {i : Instr} {p : BitVec 3} {d a h : BitVec 5} {t : BitVec 6} {waits : Bool} {n : Nat} {y : Tile}
    (hs : SlotReady s p.toNat [a.toNat] [d.toNat]) (ht : tileSaved s t.toNat = false)
    (hc : playTile (markPopped s [a.toNat]) i t.toNat = .ok (n, y))
    (hf : playFault (markPopped s [a.toNat]) i (reg s a.toNat) y = none)
    (hr : (let s0 := markPopped s [a.toNat]
      let v := reg s a.toNat
      match findProg s0 (curA s0) n y (curSeq s).fmt.inForce with
      | some k =>
        if (progAt s0 (curA s0) k).st = 1 then playSparse (pmcAdd s0 (curA s0) 0x16 1) i d.toNat t.toNat v k
        else if (progAt s0 (curA s0) k).st = 2 then playDense s0 i d.toNat t.toNat v y k
        else if !waits then playDense s0 i d.toNat t.toNat v y 32
        else block s0
      | none =>
        let m := triggerCompile s0 (curA s0) n y (curSeq s).fmt.inForce (thrOf h.toNat)
        if waits && m.2 then block m.1 else playDense m.1 i d.toNat t.toNat v y 32) = r) :
    (.next (play i p d a h t waits s) : MOut) = .next r := by
  refine next_slotOp_eq hs ((if_neg (Bool.eq_false_iff.mp ht)).trans ?_)
  rw [hc]
  dsimp only [reg_markPopped]
  rw [hf]
  exact hr

theorem thrOf_eq (h : BitVec 5) : thrOf h.toNat = if h = 0 then 8 else h.toNat := by
  have h0 : h.toNat = 0 ↔ h = 0 := ⟨fun e => BitVec.eq_of_toNat_eq e, fun e => e ▸ rfl⟩
  simp only [thrOf, h0]

/-- PLAY of a tile without an entry triggers a compile (R394, R399). -/
theorem play_missing {s r : State} {i : Instr} {p : BitVec 3} {d a h : BitVec 5} {t : BitVec 6} {waits : Bool} {n : Nat} {y : Tile}
    (hs : SlotReady s p.toNat [a.toNat] [d.toNat]) (ht : tileSaved s t.toNat = false)
    (hc : playTile (markPopped s [a.toNat]) i t.toNat = .ok (n, y))
    (hf : playFault (markPopped s [a.toNat]) i (reg s a.toNat) y = none)
    (hk : findProg (markPopped s [a.toNat]) (curA s) n y (curSeq s).fmt.inForce = none)
    (hr : (let m := triggerCompile (markPopped s [a.toNat]) (curA s) n y (curSeq s).fmt.inForce (if h = 0 then 8 else h.toNat)
      if waits && m.2 then block m.1 else playDense m.1 i d.toNat t.toNat (reg s a.toNat) y 32) = r) :
    (.next (play i p d a h t waits s) : MOut) = .next r := by
  refine play_checked hs ht hc hf ?_
  have hk' : findProg (markPopped s [a.toNat]) (curA (markPopped s [a.toNat])) n y (curSeq s).fmt.inForce = none := hk
  dsimp only
  rw [hk', thrOf_eq]
  exact hr

/-! ## PATC -/

/-- PATC of a threshold in range and a tile that its check lets through (R396, R401). -/
theorem patc_checked {s r : State} {p : BitVec 3} {d a : BitVec 5} {t : BitVec 6} {n : Nat} {y : Tile}
    (hs : SlotReady s p.toNat [a.toNat] [d.toNat]) (ht : tileSaved s t.toNat = false) (hv : (reg s a.toNat).toNat ≤ 16)
    (hc : playTile (markPopped s [a.toNat]) (.patc p d a t) t.toNat = .ok (n, y))
    (hr : (let s0 := markPopped s [a.toNat]
      let fmt := (curSeq s).fmt.inForce
      if !fmtMatches fmt y then result s0 d.toNat (statusWord 5 0) 1
      else match findProg s0 (curA s0) n y fmt with
      | some k =>
        if (progAt s0 (curA s0) k).st = 1 then result (touchProg s0 (curA s0) k) d.toNat (statusWord 1 (progAt s0 (curA s0) k).len) 1
        else if (progAt s0 (curA s0) k).st = 2 then result (touchProg s0 (curA s0) k) d.toNat (statusWord 2 (progAt s0 (curA s0) k).cause) 1
        else result s0 d.toNat (statusWord 3 0) 1
      | none =>
        let m := triggerCompile s0 (curA s0) n y fmt (thrOf (reg s a.toNat).toNat)
        result m.1 d.toNat (statusWord (if m.2 then 0 else 4) 0) 1) = r) :
    exec (.patc p d a t) s = .next r := by
  have hhigh : bitsOf (reg s a.toNat) 63 5 = 0 := by simp [bitsOf]; omega
  have hlow : bitsOf (reg s a.toNat) 4 0 = (reg s a.toNat).toNat := by rw [bitsOf_low]; omega
  have hok : ¬(decide (bitsOf (reg s a.toNat) 63 5 ≠ 0) || decide (bitsOf (reg s a.toNat) 4 0 > 16)) = true := by
    rw [hhigh, hlow]; simpa using hv
  refine next_slotOp_eq hs ((if_neg hok).trans ((if_neg (Bool.eq_false_iff.mp ht)).trans ?_))
  rw [hc]
  dsimp only [reg_markPopped]
  rw [hlow]
  exact hr

/-! ## LDATT -/

/-- Both tables and K in every array of a chain (R406). -/
theorem resumeLdatt_drained {u : State} {a : Nat} (h : (arr u a).words = []) (c : Word) (vals : List (BitVec 16)) :
    resumeLdatt u a c vals = dropLd (pendDone ((chainOf u a).foldl (fun w b => modArr w b fun z =>
      { z with att := Vector.ofFn fun (e : Fin 64) => vals.getD e.val 0, recv := Vector.ofFn fun (e : Fin 64) => vals.getD (64 + e.val) 0,
               kcut := c.toNat }) u) a) a := by
  unfold resumeLdatt
  rw [if_neg (not_not.mpr h)]
  simp only [Nat.zero_add]

/-- LDATT of 64 readable words, no word being in flight (R406). -/
theorem ldatt_checked {s : State} {p : BitVec 3} {d a : BitVec 5} {t : BitVec 6} {n : Nat} {y : Tile}
    (hs : SlotReady s p.toNat [d.toNat, a.toNat] []) (ht : tileSaved s t.toNat = false)
    (hc : tileChk (markPopped s [d.toNat, a.toNat]) (.ldatt p d t a) t.toNat (reg s a.toNat) 64 false false = .ok (n, y))
    (h1 : 1 ≤ (reg s d.toNat).toNat) (h64 : (reg s d.toNat).toNat ≤ 64) (hw : (curArr s).words = [])
    (hb : accessBlocked (markPopped s [d.toNat, a.toNat]) (curA s) (tilePlace n y (reg s a.toNat).toNat).pa 256 = false)
    (ho : serviceOpen (markPopped s [d.toNat, a.toNat]) (attServed (markPopped s [d.toNat, a.toNat]) n (reg s a.toNat).toNat) = true)
    (hg : ldattBad (markPopped s [d.toNat, a.toNat]) n (reg s a.toNat).toNat = none) :
    let s0 : State := markPopped s [d.toNat, a.toNat]
    let x : Nat := (reg s a.toNat).toNat
    let c : Word := reg s d.toNat
    let vals : List (BitVec 16) := attValues s0 n x
    let u : State := pendOn (modCur (markServed (countHome s0 (curA s0) (tilePlace n y x).pa) (attServed s0 n x)) fun q =>
      { q with ld := q.ld + 1 }) (.ldatt c vals)
    exec (.ldatt p d t a) s = .next (if s.bun.word.all (· = .nop) then resumeLdatt u (curA s) c vals else u) := by
  intro s0 x c vals u
  have hk : ¬(decide (c = 0) || decide (c.toNat > 64)) = true := by
    rw [Bool.or_eq_true, decide_eq_true_eq, decide_eq_true_eq, not_or]
    refine ⟨fun h0 => ?_, Nat.not_lt.mpr h64⟩
    have hz : (reg s d.toNat).toNat = 0 := congrArg BitVec.toNat h0
    omega
  have hfree : ¬(decide ((curArr s0).words ≠ []) || accessBlocked s0 (curA s0) (tilePlace n y x).pa 256 ||
      !serviceOpen s0 (attServed s0 n x)) = true := by
    rw [show accessBlocked s0 (curA s0) (tilePlace n y x).pa 256 = false from hb,
      show serviceOpen s0 (attServed s0 n x) = true from ho, show (curArr s0).words = [] from hw]
    decide
  refine next_slotOp_eq hs ((if_neg (Bool.eq_false_iff.mp ht)).trans ?_)
  rw [reg_markPopped, hc]
  refine (if_neg hk).trans ((if_neg hfree).trans ?_)
  rw [reg_markPopped, hg]
  rfl

/-- Settles O20: each arm by the entry that the cache has for the tile, and by whether words have to be drained. -/
theorem scPatterns : Obligations.ScPatterns := by
  intro s p d a h t n k y rs ws ht
  refine ⟨fun hs => ?_, fun b z w hz => ⟨fun hw => ?_, fun hw hstop hwf hready => ?_⟩, fun hs => ?_⟩
  · intro s0 v fmt begins plays dense
    have hbegin {u : State} {words : List (Instr × Instr × Instr × Bool)} {entry base : Nat} {status : Word} {i : Instr}
        (hfmt : (curSeq u).fmt.inForce = fmt)
        (hi : exec i s = .next (playRun u i d.toNat v words entry base status)) : begins u words entry base status i :=
      fun hmon hc => hi.trans (congrArg _ (playRun_begins hmon hfmt hc))
    have hplays (i : Instr) (waits : Bool) (hi : exec i s = .next (play i p d a h t waits s)) : plays i := by
      intro hc hf hk u g
      have hgo := fun r hr => hi.trans (play_checked (r := r) (waits := waits) hs ht hc hf hr)
      refine ⟨fun h1 => hbegin (by rw [fmt_pmcAdd]; rfl) (hgo _ ?_), fun h2 => hbegin rfl (hgo _ ?_)⟩
      · dsimp only
        rw [hk]
        exact if_pos h1
      · dsimp only
        rw [hk]
        exact (if_neg (ne_of_eq_of_ne h2 (by decide))).trans (if_pos h2)
    refine ⟨hplays _ true rfl, hplays _ false rfl, fun k hk h1 h2 => ⟨fun hc hf => ?_, fun hc hf => ?_⟩, fun hc hf hk => ?_,
      fun hc hf hk => ?_, fun hv hc => ?_⟩
    · refine hbegin rfl (play_checked (waits := false) hs ht hc hf ?_)
      dsimp only
      rw [hk]
      exact (if_neg h1).trans ((if_neg h2).trans (if_pos rfl))
    · refine play_checked (waits := true) hs ht hc hf ?_
      dsimp only
      rw [hk]
      exact (if_neg h1).trans ((if_neg h2).trans (if_neg (by decide)))
    · exact ⟨fun hm => play_missing (waits := true) hs ht hc hf hk (if_pos hm), fun hm =>
        hbegin (by rw [fmt_triggerCompile]; rfl) (play_missing (waits := true) hs ht hc hf hk (if_neg (Bool.eq_false_iff.mp hm)))⟩
    · exact hbegin (by rw [fmt_triggerCompile]; rfl) (play_missing (waits := false) hs ht hc hf hk (if_neg Bool.false_ne_true))
    · intro answers
      have hgo := fun r hr => patc_checked (r := r) hs ht hv hc hr
      refine ⟨fun hm => hgo _ (if_pos (by rw [show fmtMatches (curSeq s).fmt.inForce y = false from hm]; rfl)), fun hm => ?_⟩
      have hmatch : ¬(!fmtMatches (curSeq s).fmt.inForce y) = true := by
        rw [show fmtMatches (curSeq s).fmt.inForce y = true from hm]; decide
      refine ⟨fun hk => ?_, fun hk => ?_⟩
      · intro g
        have hgo' := fun r hr => hgo r ((if_neg hmatch).trans hr)
        rw [show findProg (markPopped s [a.toNat]) (curA (markPopped s [a.toNat])) n y (curSeq s).fmt.inForce = some k from hk] at hgo'
        exact ⟨fun h1 => hgo' _ (if_pos h1), fun h2 => hgo' _ ((if_neg (ne_of_eq_of_ne h2 (by decide))).trans (if_pos h2)),
          fun h1 h2 => hgo' _ ((if_neg h1).trans (if_neg h2))⟩
      · intro m
        refine hgo _ ((if_neg hmatch).trans ?_)
        rw [show findProg (markPopped s [a.toNat]) (curA (markPopped s [a.toNat])) n y (curSeq s).fmt.inForce = none from hk]
        rfl
  · rw [playTurn, hz]
    dsimp only
    rw [hw]
  · rw [playTurn, hz]
    dsimp only
    rw [hw]
    refine (if_neg (Bool.eq_false_iff.mp hstop)).trans ((if_neg (Nat.not_le.mpr hwf)).trans (if_neg (by rw [hready]; decide)))
  · intro s0 x c vals u hc h1 h64 hw hb ho hg
    have hgo := ldatt_checked hs ht hc h1 h64 hw hb ho hg
    have hwords : (arr u (curA s)).words = [] := by
      have h1 : (arr u (curA s)).words = (arr (countHome s0 (curA s0) (tilePlace n y x).pa) (curA s)).words := by
        refine (words_modSeq _ _ _ _).trans ((words_modSeq _ _ _ _).trans ?_)
        rfl
      rw [h1, words_countHome]
      exact hw
    exact ⟨fun hn => hgo.trans (congrArg _ ((if_pos hn).trans (resumeLdatt_drained hwords _ _))),
      fun hn => hgo.trans (congrArg _ (if_neg (Bool.eq_false_iff.mp hn)))⟩

end Sys2Proof.Machine
end
section
/-! The vector slots of a cell: floating point, packed pairs and conversions, integer lanes, select, reductions and permutes (R161 to R173). -/

namespace Sys2Proof.Machine

/-! ## What a ready slot answers -/

/-- A ready vector slot answers its written result. -/
theorem next_runVecOn_ready {s : State} {srcs : List Nat} {m : List Frag → List (BitVec 32)} (hr : CellReadyOn s srcs m) (d : Nat)
    (c f : Bool) (h : VecFn) :
    (.next (runVecOn s srcs m d c f h) : MOut) = (let r := h (curEnv s) (getG s (curCell s)) (srcs.map fun k => (readOp s k).frag)
      .next (writeResult (raiseFlags (setG s (curCell s) r.2.2) r.2.1) d r.1 0 c f)) :=
  congrArg Host.Outcome.next (runVecOn_ready hr d c f h)

/-- Settles O22: each arm is one vector instruction of its function. -/
theorem cellFloatingPoint : Obligations.CellFloatingPoint := by
  intro s d a b w c f m on done
  refine ⟨?_, ?_, ?_, ?_, ?_, ?_, ?_, ?_, ?_, ?_, ?_, ?_, ?_, ?_, ?_⟩ <;> exact fun hr => next_runVecOn_ready hr _ _ _ _

/-- Settles O23: each arm is one vector instruction of its function, reading the lanes that its format names. -/
theorem cellPackedAndConversions : Obligations.CellPackedAndConversions := by
  intro s d a b w c f m on done
  refine ⟨?_, ?_, ?_, ?_, ?_, ?_, ?_, ?_, ?_, ?_, ?_, ?_, ?_⟩ <;> exact fun hr => next_runVecOn_ready hr _ _ _ _

theorem mov_ready {s : State} {d a b : BitVec 6} {w : BitVec 3} {c f m : Bool} (hr : CellReady s [a.toNat]) :
    exec (.mov d a b w c f m) s =
      let t : State := writeResult s d.toNat (readOp s a.toNat).frag (readOp s a.toNat).side c f
      .next (if m then { t with cell := { t.cell with pushes := t.cell.pushes ++ [b.toNat] } } else t) := by
  refine congrArg Host.Outcome.next ((slotRun_live hr.1 _).trans ((withOps_ready hr _).trans ?_))
  rfl

/-- Settles O25: each arm is one vector instruction of its function; MOV and FLAG write what they read beside. -/
theorem cellSelectReducePermute : Obligations.CellSelectReducePermute := by
  intro s d a b w c f on done
  refine ⟨?_, ?_, ?_, ?_, ?_, ?_, ?_, ?_, ?_, ?_, fun hr => ⟨mov_ready hr, mov_ready hr⟩, fun ⟨hlive, hok⟩ => ?_⟩
  case refine_11 => exact congrArg Host.Outcome.next ((slotRun_live hlive _).trans (withLanes_ok hok _))
  case refine_9 => exact fun hr => (congrArg Host.Outcome.next (if_pos rfl)).trans (next_runVecOn_ready hr _ _ _ _)
  case refine_10 => exact fun hr => (congrArg Host.Outcome.next (if_neg Bool.false_ne_true)).trans (next_runVecOn_ready hr _ _ _ _)
  all_goals exact fun hr => next_runVecOn_ready hr _ _ _ _

/-! ## Lanes of a fragment -/

/-- The number of a list of lanes, lane 0 lowest. -/
theorem foldr_lanes_div (l : List Lane) (k : Nat) :
    (l.foldr (fun x acc => x.toNat + 2 ^ 32 * acc) 0) / 2 ^ (32 * k) % 2 ^ 32 = (l.getD k 0).toNat := by
  induction k generalizing l with
  | zero =>
    cases l with
    | nil => simp
    | cons x l =>
      have := x.isLt
      simp only [List.foldr_cons, List.getD_cons_zero]
      omega
  | succ k ih =>
    cases l with
    | nil => simp
    | cons x l =>
      have hx := x.isLt
      have hpow : 2 ^ (32 * (k + 1)) = 2 ^ 32 * 2 ^ (32 * k) := by rw [← pow_add]; congr 1; ring
      have hdiv : (x.toNat + 2 ^ 32 * l.foldr (fun x acc => x.toNat + 2 ^ 32 * acc) 0) / 2 ^ 32 =
          l.foldr (fun x acc => x.toNat + 2 ^ 32 * acc) 0 := by omega
      rw [List.foldr_cons, hpow, ← Nat.div_div_eq_div_mul, hdiv, ih, List.getD_cons_succ]

theorem foldr_lanes_lt (l : List Lane) : l.foldr (fun x acc => x.toNat + 2 ^ 32 * acc) 0 < 2 ^ (32 * l.length) := by
  induction l with
  | nil => simp
  | cons x l ih =>
    have hx := x.isLt
    have hpow : 2 ^ (32 * (x :: l).length) = 2 ^ 32 * 2 ^ (32 * l.length) := by
      rw [← pow_add, List.length_cons]; congr 1; ring
    rw [List.foldr_cons, hpow]
    omega

/-- Lane `k` of the fragment of a number that fits. -/
theorem lane_ofNat {n : Nat} (h : n < 2 ^ 1024) (k : Nat) : lane (BitVec.ofNat 1024 n) k = BitVec.ofNat 32 (n / 2 ^ (32 * k)) := by
  rw [lane, BitVec.toNat_ofNat, Nat.mod_eq_of_lt h]

/-- Lane `k` of the fragment of a list of 32 lanes is its element (R135). -/
theorem lane_fragOfList {l : List Lane} (hl : l.length = 32) (k : Nat) : lane (fragOfList l) k = l.getD k 0 := by
  have hlt := foldr_lanes_lt l
  simp only [hl, Nat.reduceMul] at hlt
  apply BitVec.eq_of_toNat_eq
  rw [fragOfList, lane_ofNat hlt, BitVec.toNat_ofNat, foldr_lanes_div]

/-- Each lane of a lane function without exceptions is the function of the lanes of its sources. -/
theorem lane_lanesI (g : Lane → Lane → Lane → Lane) (v : Env) (gen : BitVec 32) (xs : List Frag) {k : Nat} (hk : k < 32) :
    lane (lanesI g v gen xs).1 k = g (lane (xs.getD 0 0) k) (lane (xs.getD 1 0) k) (lane (xs.getD 2 0) k) := by
  unfold lanesI lanes3 laneFn
  dsimp only
  rw [lane_fragOfList (by simp)]
  simp [List.getD_eq_getElem?_getD, hk]

/-! ## A destination register -/

/-- A register reads as a fragment it holds, or that any write gives it. -/
theorem getFrag_writeReg_of_eq {s : State} {n code d : Nat} {r : Frag} {x : Side} (h : getFrag s n d = r) :
    getFrag (writeReg s code r x) n d = r := by
  have hset : getFrag (setFrag (clearEcc s code) (curCell s) code r) n d = r := by
    unfold getFrag setFrag
    by_cases hk : cellKey n d = cellKey (curCell s) code
    · rw [hk]; exact tget_tset_self _ _ _ _
    · rw [tget_tset_of_ne _ _ _ hk]; exact h
  unfold writeReg
  dsimp only
  split <;> split <;> exact hset

theorem getFrag_writeReg_self (s : State) (d : Nat) (r : Frag) (x : Side) : getFrag (writeReg s d r x) (curCell s) d = r := by
  have hset : getFrag (setFrag (clearEcc s d) (curCell s) d r) (curCell s) d = r := tget_tset_self _ _ _ _
  unfold writeReg
  dsimp only
  split <;> split <;> exact hset

/-- The destination of a fragment result holds it: L and C, where they are written, take the same fragment (R138, R139). -/
theorem getFrag_writeResult (s : State) (d : Nat) (r : Frag) (x : Side) (c f : Bool) :
    getFrag (writeResult s d r x c f) (curCell s) d = r := by
  have h1 := getFrag_writeReg_self s d r x
  have h2 : getFrag (if d = codeL then writeReg s d r x else writeReg (writeReg s d r x) codeL r 0) (curCell s) d = r := by
    split
    · exact h1
    · exact getFrag_writeReg_of_eq h1
  unfold writeResult
  dsimp only
  generalize (if d = codeL then writeReg s d r x else writeReg (writeReg s d r x) codeL r 0) = t at h2 ⊢
  have h3 : getFrag (if c then writeReg t codeC r (if hasSide d then x else 0) else t) (curCell s) d = r := by
    split
    · exact getFrag_writeReg_of_eq h2
    · exact h2
  split
  · exact h3
  · exact h3

/-- A ready integer slot leaves its function of the lanes of its sources in every lane of its destination. -/
theorem lanesI_ready {s : State} {srcs : List Nat} (hr : CellReady s srcs) (d : Nat) (c f : Bool) (g : Lane → Lane → Lane → Lane) :
    ∃ t, (.next (runVec s srcs d c f (lanesI g)) : MOut) = .next t ∧ ∀ k, k < 32 → lane (getFrag t (curCell s) d) k =
      g (lane ((srcs.map fun k => (readOp s k).frag).getD 0 0) k) (lane ((srcs.map fun k => (readOp s k).frag).getD 1 0) k)
        (lane ((srcs.map fun k => (readOp s k).frag).getD 2 0) k) := by
  refine ⟨_, congrArg _ (runVec_ready hr d c f _), fun k hk => ?_⟩
  have hcell := getFrag_writeResult (raiseFlags (setG s (curCell s)
    (lanesI g (curEnv s) (getG s (curCell s)) (srcs.map fun k => (readOp s k).frag)).2.2)
    (lanesI g (curEnv s) (getG s (curCell s)) (srcs.map fun k => (readOp s k).frag)).2.1) d
    (lanesI g (curEnv s) (getG s (curCell s)) (srcs.map fun k => (readOp s k).frag)).1 0 c f
  dsimp only
  rw [show getFrag _ (curCell s) d = _ from hcell, lane_lanesI g _ _ _ hk]

/-- The lanes that a two-source integer instruction leaves, with B a register or an immediate (R160, R164). -/
theorem runImm_lanes {s : State} {a b d : BitVec 6} {c f : Bool} {imm : BitVec 6 → Lane} {x : Lane} {g h : Lane → Lane → Lane}
    (himm : imm b = x) (hg : ∀ u v, h u v = g u v) :
    (CellReady s [a.toNat, b.toNat] → ∃ t, (.next (runImm s a b d c f false imm h) : MOut) = .next t ∧
      ∀ k, k < 32 → lane (getFrag t (curCell s) d.toNat) k = g (lane (readOp s a.toNat).frag k) (lane (readOp s b.toNat).frag k)) ∧
    (CellReady s [a.toNat] → ∃ t, (.next (runImm s a b d c f true imm h) : MOut) = .next t ∧
      ∀ k, k < 32 → lane (getFrag t (curCell s) d.toNat) k = g (lane (readOp s a.toNat).frag k) x) := by
  subst himm
  refine ⟨fun hr => ?_, fun hr => ?_⟩
  · obtain ⟨t, ht, hl⟩ := lanesI_ready hr d.toNat c f fun x y _ => h x y
    exact ⟨t, ht, fun k hk => (hl k hk).trans (hg _ _)⟩
  · obtain ⟨t, ht, hl⟩ := lanesI_ready hr d.toNat c f fun x _ _ => h x (imm b)
    exact ⟨t, ht, fun k hk => (hl k hk).trans (hg _ _)⟩

/-- All ones for true and zero for false, as a lane (R164). -/
theorem ofNat_mask32 (p : Prop) [Decidable p] : BitVec.ofNat 32 (mask32 p) = if p then 0xFFFFFFFF else 0 := by
  by_cases h : p <;> simp [mask32, h]

/-- Settles O24: each arm is one lane function, whose fragment the destination holds. -/
theorem cellIntegerLanes : Obligations.CellIntegerLanes := by
  intro s d a b w c f lanesOf A B D two
  refine ⟨?_, ?_, ?_, ?_, ?_, ?_, ?_, ?_, ?_, ?_, ?_, ?_, ?_, ?_, fun hr => ?_, fun hr => ?_, fun hr => ?_⟩
  case refine_11 | refine_12 | refine_13 | refine_14 => exact runImm_lanes rfl fun u v => ofNat_mask32 _
  case refine_15 => exact lanesI_ready hr d.toNat c f fun x y _ => x * y
  case refine_16 => exact lanesI_ready hr d.toNat c f fun x y z => x * y + z
  case refine_17 =>
    obtain ⟨t, ht, hl⟩ := lanesI_ready hr d.toNat c f fun x _ _ => if x.msb then -x else x
    exact ⟨t, ht, fun k hk => (hl k hk).trans (by simp only [BitVec.msb_eq_toInt, decide_eq_true_eq]; rfl)⟩
  all_goals exact runImm_lanes rfl fun _ _ => rfl

end Sys2Proof.Machine
end
section
/-! Cell SRAM, the matrix slot, OPTUPD, MMA.SEL and RACC (R146, R167, R174 to R195, R389, R390, R407, R408, R492). -/

namespace Sys2Proof.Machine

/-- What a ready cell slot answers, once the effect of its instruction on its operands is known. -/
theorem next_slotRun_eq {s t : State} {srcs : List Nat} {m : List Frag → List (BitVec 32)} {k : State → List Popped → State}
    (hr : CellReadyOn s srcs m) (hk : k s (srcs.map (readOp s)) = t) :
    (.next (slotRun s fun s => withLanes s srcs m (k s)) : MOut) = .next t :=
  congrArg Host.Outcome.next ((slotRun_live hr.1 _).trans ((withLanes_ok hr.2 _).trans hk))

/-! ## LDC, STC, VGATH and VSCAT -/

/-- The index of LDC and STC is the immediate, or lane 0 of B, which is then the first operand (R167). -/
theorem cellIndex_operands (s : State) (m : Bool) (b : BitVec 6) (l : List Nat) :
    cellIndex m b (((if m then [] else [b.toNat]) ++ l).map (readOp s)) =
      if m then b.toNat else (lane (readOp s b.toNat).frag 0).toNat % 2 ^ 16 := by
  cases m <;> rfl

theorem ldc_ready {s : State} {d a b : BitVec 6} {w : BitVec 3} {c f m : Bool} {t : Tile} {i : Nat}
    (hi : i = if m then b.toNat else (lane (readOp s b.toNat).frag 0).toNat % 2 ^ 16)
    (hr : CellReadyOn s (if m then [] else [b.toNat]) (fun _ => [lane0])) (hc : cellTileChk s (.ldc d a b w c f m) a.toNat = .ok t)
    (hw : 32 * i + 32 ≤ t.words)
    (hf : wordsFault s a.toNat (fun _ => i) ((List.range 32).map (fun k => (k, tileBase t (curCell s) + 128 * i + 4 * k)) ++
      fragHeads t (tileBase t (curCell s)) i) = none) :
    exec (.ldc d a b w c f m) s = .next (writeResult s d.toNat (sliceFrag s (tileBase t (curCell s)) i)
      (fragSide s t (tileBase t (curCell s)) i) c f) := by
  have hix : cellIndex m b ((if m then [] else [b.toNat]).map (readOp s)) = i := by
    rw [hi]
    cases m <;> rfl
  refine next_slotRun_eq hr ?_
  rw [hc]
  dsimp only
  rw [hix, if_neg (Nat.not_lt.mpr hw), hf]

theorem stc_ready {s : State} {d a b : BitVec 6} {w : BitVec 3} {m : Bool} {t : Tile} {i : Nat}
    (hi : i = if m then b.toNat else (lane (readOp s b.toNat).frag 0).toNat % 2 ^ 16)
    (hr : CellReadyOn s ((if m then [] else [b.toNat]) ++ [d.toNat]) (fun _ => (if m then [] else [lane0]) ++ [allLanes]))
    (hc : cellTileChk s (.stc d a b w m) a.toNat = .ok t) (hw : 32 * i + 32 ≤ t.words) (hsealed : t.sealed = false) :
    exec (.stc d a b w m) s = .next (storeHeads (writeWords s
      ((lanes (readOp s d.toNat).frag).zipIdx.map fun (v, k) => (tileBase t (curCell s) + 128 * i + 4 * k, v))) t
        (tileBase t (curCell s)) i (readOp s d.toNat).side) := by
  have hix : cellIndex m b (((if m then [] else [b.toNat]) ++ [d.toNat]).map (readOp s)) = i := by
    rw [cellIndex_operands, hi]
  have hsrc : (((if m then [] else [b.toNat]) ++ [d.toNat]).map (readOp s)).getD (if m then 0 else 1) {} = readOp s d.toNat := by
    cases m <;> rfl
  refine next_slotRun_eq hr ?_
  rw [hc]
  dsimp only
  rw [hix, hsrc, if_neg (Nat.not_lt.mpr hw), if_neg (Bool.eq_false_iff.mp hsealed)]

theorem vgath_ready {s : State} {d a b : BitVec 6} {w : BitVec 3} {c f : Bool} {t : Tile} (hr : CellReady s [b.toNat])
    (hc : cellTileChk s (.vgath d a b w c f) a.toNat = .ok t) (hb : lanesBeyond (readOp s b.toNat).frag t.words = 0)
    (hf : wordsFault s a.toNat (fun k => (lane (readOp s b.toNat).frag k).toNat)
      ((List.range 32).map fun k => (k, tileBase t (curCell s) + 4 * (lane (readOp s b.toNat).frag k).toNat)) = none) :
    exec (.vgath d a b w c f) s = .next (writeResult
      (addExtra s (bankCycles ((lanes (readOp s b.toNat).frag).map BitVec.toNat) - 1)) d.toNat
      (fragOf fun k => readW32 s (tileBase t (curCell s) + 4 * (lane (readOp s b.toNat).frag k).toNat)) 0 c f) := by
  refine next_slotRun_eq hr ?_
  rw [hc]
  have hsrc : ([b.toNat].map (readOp s)).getD 0 {} = readOp s b.toNat := rfl
  refine (if_neg (not_not.mpr hb)).trans ?_
  rw [hsrc, hf]

theorem vscat_ready {s : State} {d a b : BitVec 6} {w : BitVec 3} {t : Tile} (hr : CellReady s [b.toNat, d.toNat])
    (hc : cellTileChk s (.vscat d a b w) a.toNat = .ok t) (hb : lanesBeyond (readOp s b.toNat).frag t.words = 0)
    (hsealed : t.sealed = false) :
    exec (.vscat d a b w) s = .next (addExtra (writeWords s ((List.range 32).map fun k =>
      (tileBase t (curCell s) + 4 * (lane (readOp s b.toNat).frag k).toNat, lane (readOp s d.toNat).frag k)))
      (bankCycles ((lanes (readOp s b.toNat).frag).map BitVec.toNat) - 1)) := by
  refine next_slotRun_eq hr ?_
  rw [hc]
  exact (if_neg (not_not.mpr hb)).trans (if_neg (Bool.eq_false_iff.mp hsealed))

/-- Settles O26: each arm goes on past the checks that the statement supposes. -/
theorem cellSram : Obligations.CellSram := by
  intro s d a b w c f m t base index B cycles
  exact ⟨fun hr hc hw hf => ldc_ready rfl hr hc hw hf, fun hr hc hw hs => stc_ready rfl hr hc hw hs,
    fun hr hc hb hf => vgath_ready hr hc hb hf, fun hr hc hb hs => vscat_ready hr hc hb hs⟩

/-! ## The hazard window -/

theorem noHazard_free {s : State} {a : Nat} (h : hazardDist s a = none) (k : State) : noHazard s a k = k := by
  rw [noHazard, h]

/-- An accumulating write goes on outside the window, and within it after one of its own kind (R178). -/
theorem chainHazard_chained {s : State} {a : Nat} {int : Bool}
    (h : hazardDist s a = none ∨ (ageOf s (curCell s) (a - codeA0)).2 = int) (k : State) : chainHazard s a int k = k := by
  unfold chainHazard
  split
  · rename_i d hd
    exact if_neg (not_not.mpr (h.resolve_left (by simp [hd])))
  · rfl

/-! ## The matrix slot and OPTUPD -/

theorem runMma_ready {s : State} {d a b : Nat} {hi : Bool}
    (hr : CellReadyOn s [a, b, d] (fun _ => [hiLanes hi, allLanes, allLanes]))
    (hk : hazardDist s d = none ∨ (ageOf s (curCell s) (d - codeA0)).2 = intKind s.cell.fmt) (neg : Bool) :
    (.next (runMma s d a b neg hi) : MOut) =
      let r := mmaFrag (curEnv s) s.cell.fmt neg hi (readOp s a) (readOp s b) (readOp s d).frag
      .next (noteAcc (writeReg (raiseFlags s r.2) d r.1 0) d (intKind s.cell.fmt)) :=
  next_slotRun_eq hr (chainHazard_chained hk _)

theorem optupd_ready {s : State} {d a b : BitVec 6} {w : BitVec 3} {c f m : Bool} (hlive : slotLive s = true)
    (hfree : hazardDist s a.toNat = none) (hheld : optHeld s d.toNat a.toNat b.toNat = 0) :
    let n : Nat := curCell s
    let rs := (List.range 32).map fun k => optLane (curEnv s) (getFrag s n 7) m (lane (getFrag s n a.toNat) k)
      (lane (getFrag s n b.toNat) k) (lane (getFrag s n (b.toNat + 1)) k) (lane (getFrag s n d.toNat) k)
    let fl : Flags := rs.foldl (fun acc r => acc ||| r.2) 0
    let pick : (Nat × Nat × Nat → Nat) → Frag → Frag := fun g old => fragOf fun k =>
      match (rs.getD k (none, 0)).1 with
      | some r => BitVec.ofNat 32 (g r)
      | none => lane old k
    exec (.optupd d a b w c f m) s = .next (writeResult (writeReg (writeReg (raiseFlags s fl) b.toNat
      (pick (fun r => r.2.1) (getFrag s n b.toNat)) 0) (b.toNat + 1) (pick (fun r => r.2.2) (getFrag s n (b.toNat + 1))) 0) d.toNat
      (pick (fun r => r.1) (getFrag s n d.toNat)) 0 c f) := by
  intro n rs fl pick
  refine congrArg Host.Outcome.next ((slotRun_live hlive _).trans ((noHazard_free hfree _).trans ?_))
  dsimp only
  rw [hheld]
  have hbit (k : Nat) : ((0 : BitVec 32).getLsbD k) = false := by simp
  simp only [hbit, Bool.false_eq_true, if_false, if_true, decide_true, Bool.and_true]
  rfl

/-- Settles O27: each arm goes on where its operands and the hazard window let it. -/
theorem cellMatrix : Obligations.CellMatrix := by
  intro s d a b w c f m int free chained mma
  refine ⟨fun hr hk => ⟨runMma_ready hr hk false, runMma_ready hr hk true⟩, fun hl hf => ?_, fun hr hf => ?_, fun hr hf hd => ?_,
    fun hr hf => ?_, fun hl hf hh => optupd_ready hl hf hh⟩
  · exact congrArg Host.Outcome.next ((slotRun_live hl _).trans (noHazard_free hf _))
  · exact next_slotRun_eq hr (noHazard_free hf _)
  · refine next_slotRun_eq hr ((noHazard_free hf _).trans ?_)
    dsimp only
    split
    · rename_i hacc
      exact noHazard_free (hd hacc) _
    · rfl
  · refine congrArg Host.Outcome.next ((slotRun_live hr.1 _).trans ((withLanes_ok hr.2 _).trans ((noHazard_free hf _).trans ?_)))
    rfl

/-! ## MMA.SEL and RACC -/

/-- The state in which MMA.SEL has stepped MP of its cell (R390). -/
def mpStepped (s : State) : State :=
  { s with mp := tset 0 s.mp (curCell s) ((tget 0 s.mp (curCell s) + 1) % 256) }

/-- The map under MP. -/
def mapUnder (s : State) : BitVec 16 :=
  tget 0 s.pram (curCell s * 256 + (tget 0 s.mapBase (curCell s) + tget 0 s.mp (curCell s)) % 256)

/-- MMA.SEL of a sparse tile of the format in force, outside the hazard window (R390). -/
theorem mmaSel_ready {s r : State} {d a b : BitVec 6} {w : BitVec 3} {t : Tile} (hlive : slotLive s = true)
    (hf : firstFault (mpStepped s) ([b.toNat, d.toNat].zip (selLanes (mapUnder s) [])) = none)
    (hc : cellTileChk (mpStepped s) (.mmaSel d a b w) a.toNat = .ok t) (hsparse : t.sparse = true) (htype : t.type = afOf s.cell.fmt)
    (hk : hazardDist (mpStepped s) d.toNat = none ∨
      (ageOf (mpStepped s) (curCell (mpStepped s)) (d.toNat - codeA0)).2 = false)
    (hr : (let u := mpStepped s
      let map := mapUnder s
      if bitsOf map 7 0 = 0 then noteAcc u d.toNat false
      else if 16 * bitsOf map 15 9 + 8 * bitsOf map 8 8 + 7 ≥ t.rows then
        locFault u (boundsFault u a.toNat (16 * bitsOf map 15 9 + 8 * bitsOf map 8 8 + 7) 0)
      else match wordsFault u a.toNat (fun _ => (16 * bitsOf map 15 9 + 8 * bitsOf map 8 8) / 8) (selWords (tileBase t (curCell s)) map) with
        | some e => locFault u e
        | none =>
          let x := accFrag (mmaSelElem u (curEnv u) (fmtOfCode (afOf s.cell.fmt)) (tileBase t (curCell s)) map (readOp u b.toNat).frag
            (readOp u d.toNat).frag)
          noteAcc (writeReg (raiseFlags u x.2) d.toNat x.1 0) d.toNat false) = r) :
    exec (.mmaSel d a b w) s = .next r := by
  refine congrArg Host.Outcome.next ((slotRun_live hlive _).trans ((withLanes_ok (s := mpStepped s) (m := selLanes (mapUnder s)) hf _).trans ?_))
  have hok : ¬(!t.sparse || decide (t.type ≠ afOf s.cell.fmt)) = true := by simp [hsparse, htype]
  have hc' : cellTileChk { s with mp := tset 0 s.mp (curCell s) ((tget 0 s.mp (curCell s) + 1) % 256) } (.mmaSel d a b w) a.toNat = .ok t := hc
  rw [hc']
  exact (if_neg hok).trans ((chainHazard_chained hk _).trans hr)

/-- RACC of a tile of its types, outside the hazard window (R408). -/
theorem racc_ready {s : State} {d a b : BitVec 6} {w : BitVec 3} {t : Tile} (hlive : slotLive s = true)
    (hf : firstFault s ([b.toNat, d.toNat].zip [hiLanes false, allLanes]) = none) (hc : cellTileChk s (.racc d a b w) a.toNat = .ok t)
    (htype : t.type = 6 ∨ t.type = 0)
    (hrows : ∀ q ∈ raccSet (readOp s b.toNat).frag (curCellArr s).kcut, (lane (readOp s b.toNat).frag q).toNat % 2 ^ 16 < raccRows t)
    (hk : hazardDist s d.toNat = none ∨ (ageOf s (curCell s) (d.toNat - codeA0)).2 = false)
    (hw : (let ix : Nat → Nat := fun q => (lane (readOp s b.toNat).frag q).toNat % 2 ^ 16
      let bytes : Nat := if t.type = 0 then 64 else 128
      wordsFault s a.toNat (fun q => if t.type = 0 then ix q / 2 else ix q)
        ((raccSet (readOp s b.toNat).frag (curCellArr s).kcut).flatMap fun q =>
          (List.range (bytes / 4)).map fun k => (q, tileBase t (curCell s) + bytes * ix q + 4 * k))) = none) :
    let tab : Arr := curCellArr s
    let B : Frag := (readOp s b.toNat).frag
    let u : List Nat := raccSet B tab.kcut
    let ix : Nat → Nat := fun q => (lane B q).toNat % 2 ^ 16
    let r := laneFn (fun k _ _ z => fp32.sum (curEnv s).toRne 0 [fpIn (curEnv s) z]
      (u.map fun q => [raccElem s (curEnv s) t (tileBase t (curCell s)) (ix q) k,
        fp16.read (curEnv s).ftz (vget 0 tab.att (bitsOf (lane B q) 21 16)).toNat])) 0 0 (readOp s d.toNat).frag
    exec (.racc d a b w) s = .next (addExtra (noteAcc (writeReg (raiseFlags s r.2) d.toNat r.1 0) d.toNat false)
      (ceilDiv u.length 4 - 1)) := by
  intro tab B u ix r
  have hgood : ¬(decide (t.type ≠ 6) && decide (t.type ≠ 0)) = true := by rcases htype with h | h <;> simp [h]
  have hin : ¬(u.filter fun q => ix q ≥ raccRows t) ≠ [] := by
    rw [not_not, List.filter_eq_nil_iff]
    intro q hq
    exact fun h => absurd (hrows q hq) (Nat.not_lt.mpr (of_decide_eq_true h))
  refine next_slotRun_eq ⟨hlive, hf⟩ ?_
  rw [hc]
  refine (if_neg hgood).trans ((if_neg hin).trans ((chainHazard_chained hk _).trans ?_))
  have hsrc : ([b.toNat, d.toNat].map (readOp s)).getD 0 {} = readOp s b.toNat := rfl
  rw [hsrc]
  dsimp only
  rw [show wordsFault s a.toNat _ _ = none from hw]
  rfl

/-- Settles O28: MMA.SEL by whether its map is null; RACC where the rows that its ranks name lie in the tile. -/
theorem cellPatternAccumulation : Obligations.CellPatternAccumulation := by
  intro s d a b w t hlive chained
  refine ⟨?_, ?_⟩
  · intro n mp map u k0 hf hc hsparse htype hk
    have hgo := fun r hr => mmaSel_ready (r := r) hlive hf hc hsparse htype hk hr
    refine ⟨fun h0 => hgo _ (if_pos h0), fun h0 hrows hw => hgo _ ((if_neg h0).trans ((if_neg (Nat.not_le.mpr hrows)).trans ?_))⟩
    have hw' : wordsFault (mpStepped s) a.toNat (fun _ => (16 * bitsOf (mapUnder s) 15 9 + 8 * bitsOf (mapUnder s) 8 8) / 8)
        (selWords (tileBase t (curCell s)) (mapUnder s)) = none := hw
    rw [hw']
    rfl
  · intro tab B u base ix bytes hf hc htype hrows hk hw
    exact racc_ready hlive hf hc htype hrows hk hw

end Sys2Proof.Machine
end
section
/-! The copy slots: commands that enter a queue, the engine registers, ERESUME, ECANCEL, PHASE and IMUX (R286 to R306, R379 to R384). -/

namespace Sys2Proof.Machine

/-- What a ready copy slot answers, once the effect of its instruction is known. -/
theorem next_copyOp_eq {s t : State} {p : Nat} {srcs dsts : List Nat} {k : State → State} (h : CopyReady s p srcs dsts)
    (hk : k (markPopped s srcs) = t) : (.next (copyOp s p srcs dsts k) : MOut) = .next t :=
  congrArg Host.Outcome.next ((copyOp_ready h k).trans hk)

/-- A command whose tiles are in no save area and whose checks pass enters its queue (R286, R292). -/
theorem unsaved_enqueue {v u : State} {i : Instr} {e : Nat} {ra rb : Word} {dst : Option Word} {c : Except FaultInfo (List (Nat × Nat))}
    {tiles : List (Nat × Nat)} {slots : List Nat} (hsaved : anySaved v slots = false) (hc : c = .ok tiles)
    (h1 : (engAt v (curA v) e).queue.length < 64) (h2 : (curSeq v).cp < 255) (hg : Released v u) :
    (if anySaved v slots then block v else enqueue v i e ra rb dst c) = commandEntered (regionNext u) i e ra rb dst tiles :=
  (if_neg (Bool.eq_false_iff.mp hsaved)).trans (enqueue_ok hc h1 h2 hg)

/-- Settles O29: each arm names no saved tile, passes its checks and enters its queue. -/
theorem copyCommandsEnter : Obligations.CopyCommandsEnter := by
  intro s u p a b e w f i z q r l c x tiles hs hroom hcp s0 hu ra rb E rows rowb enters src dst span list
  refine ⟨?_, ?_, ?_, ?_, ?_, ?_, ?_⟩
  case refine_6 | refine_7 => exact next_copyOp_eq hs (enqueue_ok rfl hroom hcp hu)
  all_goals exact fun hsaved hc => next_copyOp_eq hs (unsaved_enqueue hsaved hc hroom hcp hu)

/-- Settles O30: each arm passes its checks and enters its queue, or, for IMUX, the phase table. -/
theorem streamAndPhaseCommandsEnter : Obligations.StreamAndPhaseCommandsEnter := by
  intro s u p a b n e y h o q r c x tiles ra rb room E
  refine ⟨fun hs hroom hu => ⟨fun hsaved hc => ?_, fun hport => ?_⟩, fun hs hu => ⟨fun hroom hsaved hc => ?_, fun hroom hsaved hc => ?_, ?_⟩⟩
  · exact next_copyOp_eq hs (unsaved_enqueue (by rw [bitsOf_low]; exact hsaved) hc hroom.1 hroom.2 hu)
  · exact next_copyOp_eq hs (enqueue_ok (if_pos hport) hroom.1 hroom.2 hu)
  · exact next_copyOp_eq hs (unsaved_enqueue hsaved hc hroom.1 hroom.2 hu)
  · refine next_copyOp_eq hs (unsaved_enqueue hsaved ?_ hroom.1 hroom.2 hu)
    rw [bitsOf_low]
    exact hc
  · intro mine us hsaved hc hclash hfull
    refine next_copyOp_eq hs ((if_neg (Bool.eq_false_iff.mp hsaved)).trans ?_)
    split
    case h_1 f hf => exact nomatch hf.symm.trans hc
    case h_2 l hl =>
      obtain rfl : l = tiles := Except.ok.inj (hl.symm.trans hc)
      split
      case h_1 x hx => exact nomatch hx.symm.trans hclash
      case h_2 =>
        refine (if_neg (Bool.eq_false_iff.mp hfull)).trans ((releasing_released hu _).trans ?_)
        rw [curA_regionNext]
        rfl

/-! ## Engine registers, ERESUME, ECANCEL and PHASE -/

theorem cancelMany_one (s : State) (a e : Nat) : cancelMany s a e 1 = cancelHead s a e := rfl

/-- A fold of steps that keep the running sequencer keeps it. -/
theorem cur_foldl {α : Type} {f : State → α → State} (h : ∀ s x, (f s x).cur = s.cur) (l : List α) (s : State) :
    (l.foldl f s).cur = s.cur :=
  List.foldlRecOn (motive := fun t : State => t.cur = s.cur) l f rfl fun t ht x _ => (h t x).trans ht

theorem cur_phaseEnd (s : State) (p g : Nat) : (phaseEnd s p g).cur = s.cur := by
  unfold phaseEnd
  dsimp only
  split
  · rfl
  · refine (cur_foldl (fun t a => ?_) _ _).trans rfl
    exact (acquireWork_scalarsKept _ _ _).cur

theorem cur_groupCheck (s : State) (p g : Nat) : (groupCheck s p g).cur = s.cur := by
  unfold groupCheck
  dsimp only
  split
  · rfl
  · split
    · exact cur_phaseEnd _ _ _
    · split
      · refine (cur_foldl (fun t a => ?_) _ _).trans rfl
        rfl
      · refine (cur_foldl (fun t a => ?_) _ _).trans rfl
        rfl

theorem curA_groupArrive (s : State) (p g a : Nat) : curA (groupArrive s p g a) = curA s :=
  congrArg Fin.val (cur_groupCheck _ p g)

/-- Settles O31: each arm goes on where the gate buffer releases; ECANCEL by whether it names all commands or the halted one. -/
theorem engineRegistersAndPhases : Obligations.EngineRegistersAndPhases := by
  intro s u p a b d e n l
  refine ⟨fun hs => next_copyOp_eq hs rfl, fun hs => next_copyOp_eq hs rfl, fun hs hu => ⟨?_, ?_⟩, fun hs hu => ?_⟩
  · exact next_copyOp_eq hs (releasing_released hu _)
  · intro g v
    refine ⟨fun hl => ?_, fun hl hg => ?_, fun hl hg => ?_⟩ <;> refine next_copyOp_eq hs ((releasing_released hu _).trans ?_)
    · subst hl
      exact if_pos rfl
    · subst hl
      exact if_pos hg
    · subst hl
      exact if_neg (Bool.eq_false_iff.mp hg)
  · intro g hm
    have hg : bitsOf (kreg (markPopped s [a.toNat]) a.toNat) 7 0 = g := bitsOf_low _ 7
    have hin : ¬(!phaseMember (markPopped s [a.toNat]) g) = true := by
      rw [show phaseMember (markPopped s [a.toNat]) g = true from hm]; decide
    refine ⟨fun hp => next_copyOp_eq hs ?_, next_copyOp_eq hs ?_⟩
    · dsimp only
      rw [hg]
      exact (if_neg hin).trans ((if_neg (Bool.eq_false_iff.mp hp)).trans (releasing_released hu _))
    · dsimp only
      rw [hg, curA_groupArrive]
      exact (if_neg hin).trans (releasing_released hu _)

end Sys2Proof.Machine
end
section
/-! The events of sequencers, outstanding operations, words, faults, engines and ports, each under the condition that enables it. -/

namespace Sys2Proof.Machine

/-! ## Events of a sequencer -/

/-- Two changes that agree on the sequencer of an array are one change of it. -/
theorem modSeq_congr {s : State} {a : Nat} {f g : Seq → Seq} (h : f (seqAt s a) = g (seqAt s a)) : modSeq s a f = modSeq s a g :=
  congrArg (fun q => setArr s a { arr s a with seq := q }) h

theorem modHandle_congr {s t : State} {a h : Nat} {f g : Handle → Handle} (hs : s = t) (hf : ∀ x, f x = g x) :
    modHandle s a h f = modHandle t a h g := by
  rw [hs, funext hf]

/-- Settles O32: each event is due, and takes the branch of its meaning that this selects. -/
theorem sequencerEventsComplete : Obligations.SequencerEventsComplete := by
  intro s a q
  refine ⟨fun c hc hle => ?_, fun hw => congrArg Host.Outcome.next (if_pos hw), fun c hc hle => ?_, fun pa hpa => ?_, fun hk hst => ?_,
    fun e k he hle => ?_, fun i hr hi => ?_⟩
  · refine congrArg Host.Outcome.next (modSeq_congr ?_)
    rw [show (seqAt s a).stop = .pause c from hc]
    exact if_pos hle
  · exact congrArg Host.Outcome.next (if_pos (by simp [retryDue, show (seqAt s s.ev.a).retryAt = some c from hc, hle]))
  · refine congrArg Host.Outcome.next ?_
    rw [fillCode, hpa]
    rfl
  · have hwalk : ¬(vget {} (seqAt s a).h s.ev.k).st ≠ .walking := not_not.mpr hst
    refine ⟨fun e x l he => congrArg Host.Outcome.next ((if_pos hk).trans ((if_neg hwalk).trans ?_)),
      fun c l hc => congrArg Host.Outcome.next ((if_pos hk).trans ((if_neg hwalk).trans ?_))⟩
    · rw [show walk s (seqAt s s.ev.a).part (vget {} (seqAt s s.ev.a).h s.ev.k).va = .leaf e x l from he]
      rfl
    · rw [show walk s (seqAt s s.ev.a).part (vget {} (seqAt s s.ev.a).h s.ev.k).va = .fail c l from hc]
      rfl
  · refine congrArg Host.Outcome.next ?_
    rw [show (seqAt s s.ev.a).stallEnd = some (e, k) from he]
    exact if_neg (Nat.not_lt.mpr hle)
  · refine congrArg Host.Outcome.next ((if_pos hr).trans ?_)
    rw [show (arr s s.ev.a).task = some i from hi]

/-! ## Outstanding operations -/

/-- An operation that an event may perform, and that no earlier one holds back, is performed. -/
theorem onOut_ready {s : State} {o : Out} {ok : Out → Bool} (ho : (seqAt s s.ev.a).outs[s.ev.k]? = some o)
    (hr : outReady (seqAt s s.ev.a).outs s.ev.k = true) (hok : ok o = true) (f : State → Nat → Nat → Out → State) :
    onOut s ok f = f s s.ev.a s.ev.k o := by
  rw [onOut, ho]
  exact if_pos (by rw [hok, hr]; rfl)

/-- Settles O33: each event finds the operation of its kind in its place of the list. -/
theorem outstandingOperationsEnd : Obligations.OutstandingOperationsEnd := by
  intro s o a k ho hr
  refine ⟨fun rd sx hop hd => ?_, fun v hop => ?_, fun fn rd v hop => ?_, fun rd c n hop => ?_, fun rd old fl bad hop => ?_,
    fun fn v hop => ?_, fun fn v hop hd => ?_, fun fn v hop h0 hd => ?_, fun hop hb => ?_⟩
  case refine_9 =>
    refine congrArg Host.Outcome.next ?_
    rw [show (seqAt s s.ev.a).outs[s.ev.k]? = some o from ho]
    exact if_pos (by rw [show accBefore s s.ev.a s.ev.k = false from hb]; simp [hop])
  all_goals refine congrArg Host.Outcome.next ((onOut_ready ho hr ?_ _).trans ?_)
  case refine_1.refine_1 => simp [ldClass, hop, hd]
  case refine_1.refine_2 => rw [ldEnd, hop]
  case refine_2.refine_1 => rw [stClass, hop]
  case refine_2.refine_2 => rw [stEnd, hop]
  case refine_7.refine_1 => exact decide_eq_true hd
  case refine_8.refine_1 => simp [h0, hd]
  case refine_3.refine_1 | refine_4.refine_1 | refine_5.refine_1 | refine_6.refine_1 => rfl
  all_goals rw [hop]

/-! ## Words, faults and phases -/

/-- Settles O34: each event is due, and takes the branch of its meaning that this selects. -/
theorem wordsExecuteAndFaultsAreTaken : Obligations.WordsExecuteAndFaultsAreTaken := by
  intro s a q
  refine ⟨rfl, fun k hk => congrArg Host.Outcome.next ?_, fun h => congrArg Host.Outcome.next (if_pos h),
    fun w t hw h => congrArg Host.Outcome.next ((if_pos h).trans ?_), fun h => congrArg Host.Outcome.next (if_pos h),
    fun h => congrArg Host.Outcome.next (if_pos h), fun g c hg hc => congrArg Host.Outcome.next ?_,
    fun k hk => congrArg Host.Outcome.next ?_, fun hk => congrArg Host.Outcome.next ?_⟩
  · rw [show compileDue s s.ev.a = some k from hk]
  · rw [show (arr s s.ev.a).words = w :: t from hw]
  · rw [show (seqAt s s.ev.a).after = some (.frame g c) from hg]
    exact if_pos hc
  · rw [show flitDue s s.ev.a s.ev.k = some k from hk]
  · rw [show flitDue s s.ev.a s.ev.k = none from hk]

/-! ## Engines, ports and reduction windows -/

/-- A loader is ready in its array where nothing freezes it and, for a rank port, the ranking network has a turn left. -/
theorem portReady_of {s : State} {a n : Nat} (hf : fillReady s n (portAt s a n) = true) (hs : stalled s a = false)
    (hr : isRankPort (portAt s a n) = true → (arr s a).rankAt ≤ s.cyc) : portReady s a n = true := by
  simp only [portReady, hf, hs, Bool.not_false, Bool.true_and, Bool.or_eq_true, Bool.not_eq_true', decide_eq_true_eq]
  exact (Bool.eq_false_or_eq_true (isRankPort (portAt s a n))).symm.imp id hr

/-- Settles O35: each event is due, and takes the branch of its meaning that this selects. -/
theorem enginesAndPortsProceed : Obligations.EnginesAndPortsProceed := by
  intro s a k
  refine ⟨fun h => congrArg Host.Outcome.next (if_pos h), fun c t hq => ⟨fun h => ?_, fun h1 h2 h3 => ?_⟩, fun x t hx => ?_,
    fun h => congrArg Host.Outcome.next (if_pos h), fun hs => ⟨fun hf => ⟨fun hr => ?_, fun hr hat => ?_⟩, fun hat hd => ?_⟩,
    fun w d hw hflag hk hd hne => ?_, fun hflag => ⟨fun hk hne => ?_, fun hk hne x hx => ?_⟩⟩
  · refine congrArg Host.Outcome.next ((if_pos h).trans ?_)
    rw [show (engAt s s.ev.a s.ev.k).queue = c :: t from hq]
    rfl
  · refine congrArg Host.Outcome.next ?_
    rw [show (engAt s s.ev.a s.ev.k).queue = c :: t from hq]
    refine if_pos ?_
    rw [show (engAt s s.ev.a s.ev.k).halted = false from h2, show usesLink s s.ev.a s.ev.k c = true from h3, h1]
    rfl
  · refine congrArg Host.Outcome.next ?_
    rw [landNth, show (engAt s s.ev.a s.ev.k).flight = x :: t from hx]
    rfl
  · exact congrArg Host.Outcome.next (if_pos (by
      rw [show isRankPort (portAt s s.ev.a s.ev.k) = false from hr, portReady_of hf hs fun h => absurd (hr.symm.trans h) Bool.false_ne_true]
      rfl))
  · exact congrArg Host.Outcome.next (if_pos (by
      rw [show isRankPort (portAt s s.ev.a s.ev.k) = true from hr, portReady_of hf hs fun _ => hat]
      rfl))
  · exact congrArg Host.Outcome.next (if_pos (by
      rw [drainReady, show stalled s s.ev.a = false from hs, show canDrain (portAt s s.ev.a s.ev.k) = true from hd]
      simpa using hat))
  · refine congrArg Host.Outcome.next ((if_neg (Bool.eq_false_iff.mp hflag)).trans ?_)
    rw [show windowOf s s.ev.p s.ev.x0.toNat = some (w, d) from hw]
    exact if_pos (by simp [show s.ev.k < 64 from hk, show d.getLsbD (128 + s.ev.k) = true from hd, show s.ev.k ≠ s.pkg.chipId from hne])
  · exact congrArg Host.Outcome.next ((if_pos hflag).trans ((if_neg hne).trans (if_pos hk)))
  · refine congrArg Host.Outcome.next ((if_pos hflag).trans ((if_neg hne).trans ((if_neg (Nat.not_lt.mpr hk)).trans ?_)))
    rw [show s.wins.find? (fun e => winSwitch s e + 64 = s.ev.k) = some x from hx]

end Sys2Proof.Machine
end
section
/-! The entries of a command list, each where it is next: its control flow, its waits and signals, launches and transfers. -/

namespace Sys2Proof.Machine

/-! ## An entry that stands and is accepted -/

/-- An entry that an event accepts is acted on in the state in which it has been read and accepted (R310, R312). -/
theorem onEntry_accepted {s : State} {q kind p a : Nat} {e : BitVec 256} (h : EntryAt s q kind p a e) (h1 : 1 ≤ kind) (h2 : kind ≤ 12)
    (d : BitVec 256 → Nat) (f : Nat → Nat → BitVec 256 → State → Nat → State) :
    (onEntry s q kind fun s p a e => accepting s q p a kind (d e) (f p a e)) =
      f p a e (entryAccepted s q p a kind (d e)) (partAt s p).jtail.toNat :=
  (onEntry_at h h1 h2 _).trans (accepting_room h.room _)

/-- The ring entry of a queue that walks no list, in the state its read leaves, is read and starts its list (R308, R309). -/
theorem ringRead_valid {s : State} {q v : Nat} (hw : walks (queueAt s q) = true) (hl : (queueAt s q).lpc = none)
    (ht : (queueAt s q).head ≠ (queueAt s q).tail)
    (hv : virtRead s ((queueAt s q).owner.getD 0) ((queueAt s q).qbase.toNat + 16 * ((queueAt s q).head.toNat % 2 ^ (queueAt s q).log2n)) 2 = some v)
    (h1 : bitsOf (BitVec.ofNat 128 v) 63 57 = 0) (h2 : bitsOf (BitVec.ofNat 128 v) 127 96 = 0) (h3 : bitsOf (BitVec.ofNat 128 v) 4 0 = 0) :
    ringRead s q = modQueue
      (virtMeet s ((queueAt s q).owner.getD 0) ((queueAt s q).qbase.toNat + 16 * ((queueAt s q).head.toNat % 2 ^ (queueAt s q).log2n)) 16) q
      fun x => { x with head := x.head + 1, lpc := some (bitsOf (BitVec.ofNat 128 v) 56 0), stack := []
                        cookie := BitVec.ofNat 32 (bitsOf (BitVec.ofNat 128 v) 95 64) } := by
  have hgo : ¬((!walks (queueAt s q) || (queueAt s q).lpc.isSome || decide ((queueAt s q).head = (queueAt s q).tail)) = true) := by
    simp [hw, hl, ht]
  refine (if_neg hgo).trans ?_
  rw [hv]
  exact if_neg (by simp [h1, h2, h3])

/-- Settles O36: the ring entry by its read, each entry of the list in the state in which it has been accepted. -/
theorem listControlFlow : Obligations.ListControlFlow := by
  intro s p a e q x n
  refine ⟨fun v hw hl ht hv h1 h2 h3 => congrArg Host.Outcome.next (ringRead_valid hw hl ht hv h1 h2 h3), fun c h hc => ?_,
    fun h => ?_, fun h hd => ?_, fun h => ?_, fun h => ?_, fun h => ?_⟩
  · refine congrArg Host.Outcome.next ((onEntry_accepted h (by decide) (by decide) (fun _ => 0) _).trans ?_)
    rw [show condHolds (entryAccepted s s.ev.q p a 3 0) p e = some c from hc]
  · rw [exec_jump_at h, immediate, accepting_room h.room]
  · rw [exec_call_at h, queueAt_entryMeet, if_neg (Nat.not_le.mpr hd), immediate, accepting_room h.room]
  · rw [exec_ret_at h, immediate, accepting_room h.room]
    rfl
  · exact congrArg Host.Outcome.next (onEntry_accepted h (by decide) (by decide) (fun e => bitsOf e 95 64) _)
  · refine congrArg Host.Outcome.next ((onEntry_at h (by decide) (by decide) _).trans ?_)
    rw [jFull_entryMeet, h.room, immediate, accepting_room h.room]
    rfl

/-! ## Waits and signals -/

/-- A WAITC whose condition holds is DONE, and its queue goes on (R318). -/
theorem waitcRead_true {s : State} {q : Nat} (h : condHolds s ((queueAt s q).owner.getD 0) (queueAt s q).ent = some true) (seq began : Nat) :
    waitcRead s q seq began = modQueue (journalSet (condMeet s ((queueAt s q).owner.getD 0) (queueAt s q).ent)
      ((queueAt s q).owner.getD 0) seq jDone 0) q fun x => { x with wait := none, lpc := x.lpc.map (· + 32) } := by
  unfold waitcRead
  dsimp only
  rw [h]

/-- One whose condition does not hold notes its read, and waits (R318). -/
theorem waitcRead_false {s : State} {q : Nat} (h : condHolds s ((queueAt s q).owner.getD 0) (queueAt s q).ent = some false) (seq began : Nat) :
    waitcRead s q seq began = modQueue (condMeet s ((queueAt s q).owner.getD 0) (queueAt s q).ent) q
      fun x => { x with wait := some (.waitc seq s.cyc began) } := by
  unfold waitcRead
  dsimp only
  rw [h]
  rw [(condMeet_meets _ _ _).cyc]

/-- Settles O37: an entry that begins a wait in the state in which it has been accepted, the end of a wait by what it waits for. -/
theorem listWaitsAndSignals : Obligations.ListWaitsAndSignals := by
  intro s p a n b c e q x past new
  refine ⟨fun h => ?_, fun hw => ⟨fun hc => ?_, fun hc => ?_, fun hl => ?_⟩,
    fun h => congrArg Host.Outcome.next (onEntry_accepted h (by decide) (by decide) (fun _ => 0) _), fun hw hf => ?_,
    fun h => congrArg Host.Outcome.next (onEntry_accepted h (by decide) (by decide) (fun _ => 0) _), fun hw h1 h2 => ?_,
    fun h t ht => ?_⟩
  · intro j P
    have hrun := onEntry_accepted h (by decide) (by decide) (fun _ => 0) fun p a e s seq =>
      waitcRead (modQueue s q fun x => { x with wait := some (.waitc seq s.cyc s.cyc), ent := e }) q seq s.cyc
    rw [cyc_entryAccepted] at hrun
    have hcyc : j.cyc = s.cyc := cyc_entryAccepted s q p a 7 0
    refine ⟨fun hc => congrArg Host.Outcome.next (hrun.trans (waitcRead_true hc _ _)),
      fun hc => congrArg Host.Outcome.next (hrun.trans ((waitcRead_false hc _ _).trans ?_))⟩
    rw [show (modQueue (entryAccepted s q p a 7 0) q fun x => { x with wait := some (.waitc new s.cyc s.cyc), ent := e }).cyc = s.cyc from hcyc]
  · refine congrArg Host.Outcome.next ?_
    rw [show (queueAt s s.ev.q).wait = some (.waitc n b c) from hw]
    exact waitcRead_true hc _ _
  · refine congrArg Host.Outcome.next ?_
    rw [show (queueAt s s.ev.q).wait = some (.waitc n b c) from hw]
    exact waitcRead_false hc _ _
  · refine congrArg Host.Outcome.next ?_
    rw [show (queueAt s s.ev.q).wait = some (.waitc n b c) from hw]
    exact if_pos hl
  · refine congrArg Host.Outcome.next ?_
    rw [show (queueAt s s.ev.q).wait = some (.fence n) from hw]
    exact if_pos hf
  · refine congrArg Host.Outcome.next ?_
    dsimp only
    rw [show (queueAt s s.ev.q).wait = some (.groupset n) from hw]
    exact if_pos (Bool.and_eq_true_iff.mpr ⟨decide_eq_true h1, decide_eq_true h2⟩)
  · refine congrArg Host.Outcome.next ((onEntry_accepted h (by decide) (by decide) (fun _ => 0) _).trans ?_)
    rw [show signalWrite (entryAccepted s s.ev.q p a 8 0) p e = (t, true) from ht]
    rfl

/-! ## Launches and transfers -/

/-- A LAUNCH whose record is valid is accepted, and the walk goes on past its 64 bytes (R310, R316, R323). -/
theorem launchEntry_valid {s : State} {q p a hi : Nat} {lo : BitVec 256} (hh : virtRead s p (a + 32) 4 = some hi)
    (hsb : sbFull s p = false) (hj : jFull s p = false) {args : List Word} {binds : List (Nat × Nat)}
    (hr : readRecord (virtMeet s p (a + 32) 32) p (BitVec.ofNat 512 (lo.toNat + 2 ^ 256 * hi)) false = some (args, binds)) :
    launchEntry s q p a lo = goTo (pruneXfers (promote (acceptTask
      (recordMeet (virtMeet s p (a + 32) 32) p (BitVec.ofNat 512 (lo.toNat + 2 ^ 256 * hi)) false) p q (queueAt s q).cookie (BitVec.ofNat 64 a)
      (BitVec.ofNat 512 (lo.toNat + 2 ^ 256 * hi)) args binds (depsOf s p q (BitVec.ofNat 512 (lo.toNat + 2 ^ 256 * hi)))).1)) q (a + 64) := by
  have hm := virtMeet_meets s p (a + 32) 32
  unfold launchEntry
  rw [hh]
  dsimp only
  rw [hr, hm.sbFull_eq, hm.jFull_eq, hsb, hj, hm.queueAt_eq, hm.depsOf_eq]
  rfl

/-- A transfer that may go on, and neither side of which is refused or attached, is taken a step further (R312, R313). -/
theorem xferStep_runs {s : State} {k : Nat} {x : Xfer} (hx : s.xfers[k]? = some x) (h1 : sideBad s x.part x.len x.src = false)
    (h2 : sideBad s x.part x.len x.dst = false) (h3 : sideAttached s x.src = false) (h4 : sideAttached s x.dst = false) :
    xferStep s k =
      if x.status = 0 then journalSet { s with xfers := lmod s.xfers k fun x => { x with status := 1 } } x.part x.seq jStarted 0
      else
        let r := xferRun s x.part x.src x.dst x.len 0
        let m := xferMove (sideWalks (sideWalks s x.part x.len x.src) x.part x.len x.dst) x.part r.1
        if r.2 ≠ 0 then xferDrop m x true (xferDetail r.2)
        else pruneXfers (promote (unwaitXfer (journalSet
          { m with xfers := lmod m.xfers k fun x => { x with status := 2 } } x.part x.seq jDone 0) x.queue x.seq)) := by
  unfold xferStep
  rw [hx]
  dsimp only
  rw [h1, h2, h3, h4]
  rfl

/-- Settles O38: LAUNCH and XFER in the state in which their entry has been read, a transfer by how far it has come. -/
theorem launchesAndTransfers : Obligations.LaunchesAndTransfers := by
  intro s p a e q m m2
  refine ⟨fun h hsb hi args binds hh => ?_, fun h hsb => ?_, fun x hx hst hs1 hs2 hb1 hb2 ha1 ha2 => ?_⟩
  · intro r hr
    have hm := entryMeet_meets s p a
    refine congrArg Host.Outcome.next ((onEntry_at h (by decide) (by decide) _).trans
      ((launchEntry_valid hh ((hm.sbFull_eq p).trans hsb) ((hm.jFull_eq p).trans h.room) hr).trans ?_))
    rw [hm.queueAt_eq, hm.depsOf_eq]
  · intro n x j t h1 h2
    refine congrArg Host.Outcome.next ((onEntry_at h (by decide) (by decide) _).trans ((if_neg ?_).trans ((accepting_room h.room _).trans (if_neg ?_))))
    · rw [(entryMeet_meets s p a).sbFull_eq, hsb]
      exact Bool.false_ne_true
    · have hb : (sideBad t p x.len x.src || sideBad t p x.len x.dst) = false := by rw [h1, h2]; rfl
      exact Bool.eq_false_iff.mp hb
  · have hdue : xferDue s s.ev.k = true := by simp [xferDue, hx, hst, hs1, hs2]
    have hrun : exec .xferComplete s = .next _ := congrArg Host.Outcome.next ((if_pos hdue).trans (xferStep_runs hx hb1 hb2 ha1 ha2))
    refine ⟨fun h0 => hrun.trans (congrArg Host.Outcome.next (if_pos h0)), fun h1 => ?_⟩
    have hne : ¬x.status = 0 := by omega
    exact ⟨fun hr => hrun.trans (congrArg Host.Outcome.next ((if_neg hne).trans (if_neg (not_not.mpr hr)))),
      fun hr => hrun.trans (congrArg Host.Outcome.next ((if_neg hne).trans (if_pos hr)))⟩

/-! ## Tasks -/

/-- Settles O39: each event takes the first of its branches that has something to do. -/
theorem taskEventsTakeEffect : Obligations.TaskEventsTakeEffect := by
  intro s p a
  refine ⟨fun i x t h => congrArg Host.Outcome.next ?_, fun h => ⟨fun he => congrArg Host.Outcome.next ?_, fun he i t hb => congrArg Host.Outcome.next ?_⟩,
    rfl, fun i hi => congrArg Host.Outcome.next ?_, fun h => congrArg Host.Outcome.next (if_pos h),
    fun h i t ht => ⟨fun hd hq => congrArg Host.Outcome.next ((if_neg (Bool.eq_false_iff.mp h)).trans ?_),
      fun d hq hs => congrArg Host.Outcome.next ((if_neg (Bool.eq_false_iff.mp h)).trans ?_)⟩,
    fun h i t ht => congrArg Host.Outcome.next ((if_pos h).trans ?_), fun i x t h => congrArg Host.Outcome.next ?_,
    fun h => ⟨fun i hi => congrArg Host.Outcome.next ?_, fun hn i t v hb hv => congrArg Host.Outcome.next ?_⟩⟩
  · rw [show assigns s s.ev.p false = some (i, x, t) from h]
  · rw [show assigns s s.ev.p false = none from h]
    exact if_pos he
  · rw [show assigns s s.ev.p false = none from h]
    refine (if_neg (not_not.mpr he)).trans ?_
    rw [show nextBegin s s.ev.p false = some (i, t) from hb]
  · rw [show nextBlocking s s.ev.p = some i from hi]
  · rw [show taskOf s s.ev.a = some (i, t) from ht]
    exact if_pos (by rw [show drained s s.ev.a = true from hd, hq]; rfl)
  · rw [show taskOf s s.ev.a = some (i, t) from ht]
    exact (if_neg (by simp [hq])).trans (if_pos hs)
  · rw [show taskOf s s.ev.a = some (i, t) from ht]
  · rw [show assigns s s.ev.p true = some (i, x, t) from h]
  · rw [show assigns s s.ev.p true = none from h, show savedTask s s.ev.p = some i from hi]
  · rw [show assigns s s.ev.p true = none from h, show savedTask s s.ev.p = none from hn, show nextBegin s s.ev.p true = some (i, t) from hb]
    dsimp only
    rw [hv]

end Sys2Proof.Machine
end
section
/-! Writes of the registers of the functions, over a host link that is up. -/

namespace Sys2Proof.Machine

/-- Two changes that agree on a queue are one change of it. -/
theorem modQueue_congr {s : State} {q : Nat} {f g : Queue → Queue} (h : f (queueAt s q) = g (queueAt s q)) : modQueue s q f = modQueue s q g :=
  congrArg (fun x => { s with queues := tset {} s.queues q x.settle }) h

theorem onLocal_local {s : State} (hup : s.pkg.pcieUp = true) {p i q : Nat} (hq : localQueue s p i = some q) (f : State → Nat → State) :
    onLocal s p i f = f s q := by
  unfold onLocal
  rw [hup, hq]
  rfl

theorem restartQueue_halted {s : State} {q : Nat} (h : (queueAt s q).st = .halted) (f : Queue → Queue) :
    restartQueue s q f = modQueue s q fun x => { f x with st := .idle, cause := 0, skipLen := 0 } :=
  if_neg (not_not.mpr h)

/-- Settles O40: a register of a queue by where the new value lies, a register of a function by its offset. -/
theorem functionRegistersAreWritten : Obligations.FunctionRegistersAreWritten := by
  intro s hup p v
  have hdown : ¬(!s.pkg.pcieUp) = true := by rw [hup]; exact Bool.false_ne_true
  refine ⟨fun q hq => ?_, congrArg Host.Outcome.next (if_pos hup), congrArg Host.Outcome.next (if_pos hup), ⟨fun h => ?_, fun h => ?_⟩,
    congrArg Host.Outcome.next (if_pos hup), fun h => congrArg Host.Outcome.next ((if_neg hdown).trans (if_pos h)),
    fun h1 h2 => congrArg Host.Outcome.next ((if_neg hdown).trans ((if_neg (Nat.ne_of_gt h1)).trans (if_pos h2)))⟩
  · intro x t
    have hrun (f : State → Nat → State) : onLocal s s.ev.p s.ev.q f = f s q := onLocal_local hup hq f
    refine ⟨fun h => congrArg Host.Outcome.next ((hrun _).trans (if_pos h)),
      fun h1 h2 => congrArg Host.Outcome.next ((hrun _).trans ((if_neg (Nat.not_le.mpr h1)).trans (if_pos h2))),
      fun h1 h2 => congrArg Host.Outcome.next ((hrun _).trans ((if_neg (Nat.not_le.mpr h1)).trans (if_neg (Nat.not_le.mpr h2)))),
      congrArg Host.Outcome.next (hrun _), fun hst => ⟨congrArg Host.Outcome.next ((hrun _).trans (restartQueue_halted hst _)),
        fun hc => congrArg Host.Outcome.next ((hrun _).trans ((restartQueue_halted hst _).trans (modQueue_congr ?_))),
        fun b hc hb => congrArg Host.Outcome.next ((hrun _).trans ((restartQueue_halted hst _).trans (modQueue_congr ?_)))⟩⟩
    · rw [if_pos (show (queueAt s q).cause = hRing from hc)]
    · rw [if_neg (show ¬(queueAt s q).cause = hRing from hc), show (queueAt s q).lpc = some b from hb]
  · exact congrArg Host.Outcome.next ((if_pos hup).trans (if_neg (Nat.not_lt.mpr h)))
  · exact congrArg Host.Outcome.next ((if_pos hup).trans (if_pos h))

end Sys2Proof.Machine
end
section
/-! The administrative commands, each where it may be looked at and its values are in range. -/

namespace Sys2Proof.Machine

/-- A command that may be looked at completes OK with what it answers (R453). -/
theorem next_command_eq {s t : State} {n r : Nat} {f : State → Answer} (h : AdminRuns s n) (hf : f s = done t r) :
    Host.Outcome.next (command s n f) = (.next (adminDone t r) : MOut) :=
  congrArg Host.Outcome.next ((command_runs h f).trans (congrArg completeAdmin hf))

theorem next_partCommand_eq {s t : State} {n r : Nat} {f : State → Nat → Answer} (h : AdminPart s n) (hf : f s s.ev.p = done t r) :
    Host.Outcome.next (partCommand s n f) = (.next (adminDone t r) : MOut) :=
  congrArg Host.Outcome.next ((partCommand_runs h f).trans (congrArg completeAdmin hf))

/-! ## Partitions -/

/-- Settles O41: past the guards that its values meet, each command changes what it names. -/
theorem adminPartitionCommands : Obligations.AdminPartitionCommands := by
  intro s
  dsimp only
  refine ⟨fun g h hp hv ha hf hs hg => ?_, fun h => ⟨fun hr => ⟨fun hv hf => ?_, fun hv hd => ?_⟩, fun h1 h2 h3 hr h4 h5 h6 h7 h8 hm hs => ?_⟩,
    fun h hl => ?_, fun h hv => ?_, fun h hq => ⟨fun hp => ?_, fun hp ha => ?_⟩,
    fun h => ⟨fun hv hr h1 h2 h3 hw => ?_, fun hv hd => ?_⟩⟩
  · refine next_command_eq h ((if_neg (by simp [hv]; omega)).trans ((if_neg (by simp [ha, hf]; omega)).trans ?_))
    rw [hg]
  · exact next_partCommand_eq h ((if_neg (not_not.mpr hv)).trans ((if_neg (by simp [hr])).trans (if_neg (by simp [hf]))))
  · exact next_partCommand_eq h ((if_neg (by simp [hr])).trans (if_neg (by simp; omega)))
  · exact next_partCommand_eq h ((if_neg (by simp [h1, h2, h3])).trans ((if_neg (by simp only [hr]; simp)).trans
      ((if_neg (by simp [h5, h7]; omega)).trans (if_neg (by simp only [hm]; simp; omega)))))
  · exact next_partCommand_eq h (if_neg (by simp [hl]))
  · exact next_partCommand_eq h (if_neg (Nat.not_le.mpr hv))
  · exact next_command_eq h ((if_neg (by simp [hp]; omega)).trans (if_pos hp))
  · exact next_command_eq h ((if_neg (by simp; omega)).trans ((if_neg (by omega)).trans (if_neg (by simp [ha]))))
  · refine next_partCommand_eq h ((if_neg (not_not.mpr hv)).trans ((if_neg (by simp [hr])).trans (if_neg ?_)))
    rw [Bool.not_eq_true, Bool.or_eq_false_iff]
    refine ⟨by simp [h3]; omega, ?_⟩
    split
    case h_1 e x l he => exact decide_eq_false (not_not.mpr (hw e x l he))
    case h_2 => rfl
  · exact next_partCommand_eq h (if_neg (by simp; omega))

/-! ## Keys, ways, channels, windows, pages and quotas -/

/-- The dies that a lock of a partition moves: of those it did not hold, the ones no other partition has locked (R458). -/
theorem filter_moved (l : List Nat) (f g : Nat → Bool) : l.filter (fun d => f d && g d) = (l.filter f).filter g := by
  rw [List.filter_filter]
  exact List.filter_congr fun d _ => Bool.and_comm _ _

/-- The dies that it joins at another step: of those it did not hold, the ones that are not moved (R458). -/
theorem filter_joined (l : List Nat) (f g h : Nat → Bool) :
    l.filter (fun d => f d && !(l.filter fun d => f d && !g d).contains d && h d) = (l.filter f).filter fun d => g d && h d := by
  rw [List.filter_filter]
  refine List.filter_congr fun d hd => ?_
  have hc : (l.filter fun d => f d && !g d).contains d = (f d && !g d) := by
    rw [Bool.eq_iff_iff, List.contains_iff_mem, List.mem_filter]
    exact and_iff_right hd
  rw [hc]
  cases f d <;> cases g d <;> cases h d <;> rfl

/-- The state in which a CLOCK_LOCK has moved some dies to its step and joined some lapsed locks (R458). -/
def clockLocked (s : State) (moved joined : List Nat) : State :=
  let t := modPart s s.ev.p fun x =>
    { x with lockDies := BitVec.ofNat 8 (bitsOf s.ev.x0 7 0), lockFreq := bitsOf s.ev.x0 23 16
             lockLapsed := joined.foldl (fun b d => setBit b d true) (x.lockLapsed &&& BitVec.ofNat 8 (bitsOf s.ev.x0 7 0)) }
  { t with pkg := { t.pkg with steps := moved.foldl (fun y d => vset y d (bitsOf s.ev.x0 23 16)) t.pkg.steps } }

/-- Settles O42: past the guards that its values meet, each command changes what it names. -/
theorem adminMemoryCommands : Obligations.AdminMemoryCommands := by
  intro s
  dsimp only
  refine ⟨fun h h0 hk hw => ?_, fun h h0 hk => ⟨fun hp => ?_, fun hp ha => ?_⟩,
    fun h => ⟨fun hv hw hm => ?_, fun hv hw hr => ⟨fun hd => ?_, fun hd h1 h2 h3 h4 h5 h6 => ?_⟩, fun hv hw t ht => ?_, fun hv => ?_⟩,
    fun h => ⟨fun hv h1 h2 h3 => ?_, fun hf hl => ?_⟩, fun h h1 h2 h3 h4 h5 h6 => ?_, fun r page c t hd ht => ?_⟩
  · exact next_command_eq h (if_neg (by simp [h0]; omega))
  · exact next_command_eq h ((if_neg (by simp [h0, hp]; omega)).trans (if_pos hp))
  · exact next_command_eq h ((if_neg (by simp [h0]; omega)).trans ((if_neg (by omega)).trans (if_neg (by simp [ha]))))
  · exact next_partCommand_eq h ((if_neg (by simp; omega)).trans (if_neg (Bool.eq_false_iff.mp hm)))
  · exact next_partCommand_eq h ((if_neg (by simp; omega)).trans ((if_neg (by simp [hr])).trans (if_pos (by rw [hd]; rfl))))
  · exact next_partCommand_eq h ((if_neg (by simp; omega)).trans ((if_neg (by simp [hr])).trans ((if_neg (by rw [hd]; simp)).trans
      ((if_neg (by simp [h1, h2, h3])).trans (if_neg (by simp [h4, h5]; omega))))))
  · refine next_partCommand_eq h ((if_neg (by simp; omega)).trans ?_)
    rw [ht]
  · exact next_partCommand_eq h (if_neg (Nat.not_le.mpr hv))
  · exact next_partCommand_eq h ((if_neg (by simp only [Bool.or_eq_true, decide_eq_true_eq]; omega)).trans (if_neg (Bool.eq_false_iff.mp h3)))
  · refine (next_partCommand_eq (t := clockLocked s _ _) h
      ((if_neg (Nat.not_lt.mpr hf)).trans (if_neg (by rw [hl]; exact Bool.false_ne_true)))).trans ?_
    rw [filter_joined, filter_moved]
    rfl
  · exact next_partCommand_eq h ((if_neg (not_not.mpr h1)).trans (if_neg (by simp [h2]; omega)))
  · refine congrArg Host.Outcome.next ?_
    rw [hd]
    dsimp only
    rw [ht]

/-! ## Reservations, records, tiles, power and debug -/

/-- An enabled queue that polls reads the entries its tail makes valid (R452). -/
theorem pollTail_reads {s : State} (he : s.admin.en = true) (hst : s.admin.st ≠ 3)
    (hd : (BitVec.ofNat 32 (getBytes s (hostPa s.admin.tailAddr) 4) - s.admin.head).toNat ≤ 2 ^ s.admin.log2n) :
    pollTail s = readRing { s with admin := { s.admin with polled := s.cyc, doneAt := none } }
      (BitVec.ofNat 32 (getBytes s (hostPa s.admin.tailAddr) 4) - s.admin.head).toNat :=
  (if_neg (by simp [he, hst])).trans (if_pos hd)

/-- A tail beyond the ring is an ERROR (R452). -/
theorem pollTail_error {s : State} (he : s.admin.en = true) (hst : s.admin.st ≠ 3)
    (hd : 2 ^ s.admin.log2n < (BitVec.ofNat 32 (getBytes s (hostPa s.admin.tailAddr) 4) - s.admin.head).toNat) :
    pollTail s = { s with admin := { s.admin with polled := s.cyc, doneAt := none, st := 3 } } :=
  (if_neg (by simp [he, hst])).trans (if_neg (Nat.not_le.mpr hd))

theorem exec_aqTailPoll_empty {s : State} (h : s.admin.fetched = []) : exec .aqTailPoll s = .next (pollTail s) := by
  refine congrArg Host.Outcome.next ?_
  rw [h]

/-- What PREEMPT answers for the task it finds, which is the model's own answer (R30). -/
def preemptAnswer (s : State) : Option Nat → Answer
  | none => refuse s aRange
  | some i => done (requestPreempt s i) 0

/-- Settles O43: past the guards that its values meet, each command changes what it names. -/
theorem adminReservationsTilesAndDebug : Obligations.AdminReservationsTilesAndDebug := by
  intro s
  dsimp only
  refine ⟨fun h h1 h2 h3 h4 h5 h6 l hl => ?_, fun h h1 h2 h3 h4 h5 h6 h7 l hl => ?_,
    fun h h1 h2 => ⟨fun hk hp n r u hr => ?_, fun hk hp => ?_⟩, fun h t n ht hn => ?_, fun h => ⟨fun hv hl hp => ?_, fun i hi => ?_⟩,
    fun h h1 h2 h3 => ?_, fun hu => ⟨fun hc h0 => ?_, congrArg Host.Outcome.next (if_pos hu)⟩, fun h hv => ?_,
    fun hf he hst => ⟨fun hd => ?_, fun hd => ?_⟩⟩
  · refine next_partCommand_eq h ((if_neg (by rw [h1, h2]; simp)).trans ((if_neg (by simp [h3, h5, h6]; omega)).trans ?_))
    dsimp only
    rw [hl]
    rfl
  · refine next_partCommand_eq h ((if_neg (by simp [h1, h2])).trans ((if_neg ?_).trans ?_))
    · simp only [Bool.or_eq_true, decide_eq_true_eq, not_or]
      exact ⟨⟨⟨⟨by omega, by omega⟩, h5⟩, h6⟩, by omega⟩
    dsimp only
    rw [hl]
    rfl
  · refine next_command_eq h ((if_neg (not_not.mpr h1)).trans ((if_neg (by simp [hk]; omega)).trans ?_))
    rw [hr]
    dsimp only
    rw [if_neg hk]
  · refine next_command_eq h ((if_neg (not_not.mpr h1)).trans ((if_neg (by simp [hk]; omega)).trans ?_))
    rw [hk]
    rfl
  · refine next_partCommand_eq h ?_
    rw [ht]
    dsimp only
    rw [hn]
  · exact next_partCommand_eq h ((if_neg (Nat.not_le.mpr hv)).trans (if_neg (by simp [hl, hp])))
  · exact next_partCommand_eq h (congrArg (preemptAnswer s) hi)
  · exact next_command_eq h (if_neg (by simp [h3]; omega))
  · have hany : ((List.range 6).any fun k => decide (param s k ≠ 0)) = false := by
      rw [List.any_eq_false]
      exact fun k hk => by simp [h0 k (List.mem_range.mp hk)]
    refine congrArg Host.Outcome.next ((if_neg ?_).trans ((if_neg (Bool.eq_false_iff.mp hany)).trans ((if_pos hu).trans (if_pos hu))))
    rcases hc with hc | hc <;> simp [hc]
  · refine congrArg Host.Outcome.next ((command_runs h _).trans ((congrArg completeAdmin (if_neg (Nat.not_le.mpr hv))).trans ?_))
    exact apply_ite completeAdmin _ _ _
  · exact (exec_aqTailPoll_empty hf).trans (congrArg Host.Outcome.next (pollTail_reads he hst hd))
  · exact (exec_aqTailPoll_empty hf).trans (congrArg Host.Outcome.next (pollTail_error he hst hd))

end Sys2Proof.Machine
end
section
/-! What the outside does: the host, peer chips, errors, resets, bring-up, identity and power. -/

namespace Sys2Proof.Machine

/-! ## The host, peers and errors -/

/-- An atomic of the host of 4 or 8 aligned bytes of device memory is performed at their home (R449). -/
theorem hostRmw_ok {s : State} (hup : s.pkg.pcieUp = true) (hok : hostWordOk s s.ev.k s.ev.q = true) (f : Nat → Option Nat) :
    hostRmw s f = completeHost (rmw s s.ev.k s.ev.p s.ev.q fun old => (f old, 0)).1
      (some (rmw s s.ev.k s.ev.p s.ev.q fun old => (f old, 0)).2.1) :=
  (if_neg (by rw [hup]; exact Bool.false_ne_true)).trans (if_pos hok)

/-- One that may not be performed is an Unsupported Request (R449). -/
theorem hostRmw_refused {s : State} (hup : s.pkg.pcieUp = true) (hok : hostWordOk s s.ev.k s.ev.q = false) (f : Nat → Option Nat) :
    hostRmw s f = completeHost s none :=
  (if_neg (by rw [hup]; exact Bool.false_ne_true)).trans (if_neg (Bool.eq_false_iff.mp hok))

theorem exec_peerRequest_up {s : State} (hg : rhodiGone s s.ev.x5.toNat = false) {n : Nat} (hn : s.ev.q = n) :
    exec .peerRequest s = .next (peerRequest s n s.ev.p s.ev.k s.ev.a s.ev.x5.toNat) := by
  subst hn
  exact congrArg Host.Outcome.next (if_pos (by rw [hg]; rfl))

/-- Device memory at a home of this chip, as an act tests for it. -/
theorem deviceHome {pa : Nat} (h1 : isDevice pa = true) (h2 : pa < 2 ^ 40) (h3 : memDie pa < 12) :
    (isDevice pa && decide (pa < 2 ^ 40) && decide (memDie pa < 12)) = true := by
  rw [h1, decide_eq_true h2, decide_eq_true h3]
  rfl

theorem deviceWord {pa n : Nat} (h1 : isDevice pa = true) (h2 : pa < 2 ^ 40) (h3 : memDie pa < 12) (hn : n = 4 ∨ n = 8) :
    (isDevice pa && decide (pa < 2 ^ 40) && decide (memDie pa < 12) && (decide (n = 4) || decide (n = 8))) = true := by
  rw [deviceHome h1 h2 h3, ← Bool.decide_or, decide_eq_true hn]
  rfl

theorem eccWord_eq (k : Nat) : eccWord k = if onChip ≤ k then k / 4 * 4 else k / 8 * 8 := by
  unfold eccWord eccSize
  split
  case isTrue h => exact (if_neg (Nat.not_le.mpr h)).symm
  case isFalse h => exact (if_pos (Nat.not_lt.mp h)).symm

/-- Settles O44: each act past the guards that its link, its address and its kind meet. -/
theorem hostPeerAndErrorActs : Obligations.HostPeerAndErrorActs := by
  intro s
  dsimp only
  refine ⟨⟨fun h hup hd => ?_, fun h1 h2 => ?_⟩, fun ⟨h1, h2, h3⟩ hup hn hal => ?_, fun hup h4 h8 i hi => ?_,
    fun ⟨h1, h2, h3⟩ hg => ⟨fun hn => ?_, fun hn => ?_, fun hn ha => ?_, fun hn ha => ?_⟩,
    fun hn he hf => ?_, fun hn he hf => ?_, fun hn hk hf => ?_, fun hn hk hf => ?_, fun hn hu => ?_⟩
  · exact congrArg Host.Outcome.next ((if_pos h).trans (if_pos (by simp [hup, hd])))
  · exact congrArg Host.Outcome.next ((if_neg (by omega)).trans (if_pos (by simp; omega)))
  · have hok : hostWordOk s s.ev.k s.ev.q = true := by
      simp only [hostWordOk, hup, h1, decide_eq_true h2, decide_eq_true h3, decide_eq_true hal, Bool.and_true, Bool.true_and]
      simpa using hn
    exact ⟨congrArg Host.Outcome.next (hostRmw_ok hup hok _), congrArg Host.Outcome.next (hostRmw_ok hup hok _),
      congrArg Host.Outcome.next (hostRmw_ok hup hok _)⟩
  · have hok : hostWordOk s s.ev.k s.ev.q = false := by simp [hostWordOk, h4, h8]
    simp only [List.mem_cons, List.not_mem_nil, or_false] at hi
    rcases hi with rfl | rfl | rfl
    · exact congrArg Host.Outcome.next (hostRmw_refused hup hok _)
    · exact congrArg Host.Outcome.next (hostRmw_refused hup hok _)
    · exact congrArg Host.Outcome.next (hostRmw_refused hup hok _)
  · exact (exec_peerRequest_up hg hn).trans (congrArg Host.Outcome.next (if_pos (deviceHome h1 h2 h3)))
  · exact (exec_peerRequest_up hg hn).trans (congrArg Host.Outcome.next (if_pos (deviceHome h1 h2 h3)))
  · exact (exec_peerRequest_up hg hn).trans (congrArg Host.Outcome.next (if_pos (deviceWord h1 h2 h3 ha)))
  · exact (exec_peerRequest_up hg hn).trans (congrArg Host.Outcome.next (if_pos (deviceWord h1 h2 h3 ha)))
  all_goals
    refine congrArg Host.Outcome.next ?_
    rw [hn]
  · rw [he, hf]
    exact congrArg (fun x => { s with ecc := tset false s.ecc x true }) (eccWord_eq s.ev.k)
  · rw [he, hf]
    rfl
  · exact (if_neg (Nat.not_le.mpr hk)).trans (if_pos hf)
  · exact if_neg (by rw [hf]; simpa using hk)
  · rw [hu]
    rfl

/-! ## Resets, bring-up, identity and power -/

/-- Settles O45: each act past the guards that its stage, its link and its values meet. -/
theorem resetsBringUpAndIdentity : Obligations.ResetsBringUpAndIdentity := by
  intro s
  dsimp only
  refine ⟨rfl, rfl, fun h => congrArg Host.Outcome.next (if_neg (Nat.not_le.mpr h)),
    fun hr hst => ⟨fun h2 => ?_, fun h3 => ⟨fun hf => ?_, fun hf => ?_⟩, fun h4 => ?_⟩, fun h5 hk => ⟨fun hf => ?_, fun hf => ?_⟩,
    fun hup => ⟨congrArg Host.Outcome.next (if_neg (by rw [hup]; exact Bool.false_ne_true)),
      congrArg Host.Outcome.next (if_neg (by rw [hup]; exact Bool.false_ne_true)), fun hk => ?_, fun h1 h2 => ?_⟩,
    fun hf hv => congrArg Host.Outcome.next (if_pos (by rw [hf]; simpa using hv)), fun hl => ⟨fun d hd => ?_, fun hd => ?_⟩,
    fun h => congrArg Host.Outcome.next (if_pos h)⟩
  · exact congrArg Host.Outcome.next ((if_pos (by simp [h2, hr, hst])).trans (by rfl))
  · have hup : bringUp s 3 (fun x => if s.ev.flag then { x with stage := 4, hbmUp := true } else stopBringUp x 4 s.ev.k) =
        { s with pkg := { s.pkg with stage := 4, hbmUp := true } } := (if_pos (by simp [h3, hr, hst])).trans (by rw [hf]; rfl)
    refine congrArg Host.Outcome.next ?_
    rw [hup]
    exact if_pos (by rw [h3]; rfl)
  · have hstop : bringUp s 3 (fun x => if s.ev.flag then { x with stage := 4, hbmUp := true } else stopBringUp x 4 s.ev.k) =
        { s with pkg := stopBringUp s.pkg 4 s.ev.k } := (if_pos (by simp [h3, hr, hst])).trans (by rw [hf]; rfl)
    refine congrArg Host.Outcome.next ?_
    rw [hstop]
    exact if_neg (by simp [stopBringUp, h3])
  · exact congrArg Host.Outcome.next ((if_pos (by simp [h4, hr, hst])).trans (by rfl))
  · exact congrArg Host.Outcome.next ((if_pos (by simp [h5, hk])).trans (by rw [hf]; rfl))
  · exact congrArg Host.Outcome.next ((if_pos (by simp [h5, hk])).trans (by rw [hf]; rfl))
  · exact congrArg Host.Outcome.next ((if_neg (by simp [hup, hk])).trans (by rw [hk]; rfl))
  · refine congrArg Host.Outcome.next ((if_neg (by simp [hup]; omega)).trans ?_)
    dsimp only
    rw [if_neg (Nat.ne_of_gt h1)]
  · refine congrArg Host.Outcome.next ((if_pos hl).trans ?_)
    rw [hd]
  · refine congrArg Host.Outcome.next ((if_pos hl).trans ?_)
    rw [hd]

end Sys2Proof.Machine
end
section
/-! Words of the encodings, and what ends a step. -/

namespace Sys2Proof.Machine

/-- Settles O59: each word is one closed fact about the decoder. -/
theorem specWordsDecode : Obligations.SpecWordsDecode := by
  unfold Obligations.SpecWordsDecode
  decide

/-! ## What a step may be -/

theorem takeEvent_ne_frozen (s : State) (h : Happening) : takeEvent s h ≠ .frozen := by
  unfold takeEvent
  dsimp only
  split <;> exact Next.noConfusion

theorem turnOrTick_ne_frozen (s : State) : turnOrTick s ≠ .frozen := by
  unfold turnOrTick
  split <;> exact Next.noConfusion

theorem takeInput_ne_frozen (s : State) (h : Happening) : takeInput s h ≠ .frozen := by
  unfold takeInput
  split
  · split <;> exact Next.noConfusion
  · exact Next.noConfusion

theorem chooseOpen_ne_frozen (s : State) (l : List Happening) {rest : State → Next} (h : ∀ t, rest t ≠ .frozen) :
    chooseOpen s l rest ≠ .frozen := by
  unfold chooseOpen
  dsimp only
  split
  · split
    · exact takeEvent_ne_frozen _ _
    · exact h _
  · exact h _

theorem ownStep_ne_frozen (s : State) : ownStep s ≠ .frozen := by
  unfold ownStep
  split
  · dsimp only
    split
    · exact takeEvent_ne_frozen _ _
    · exact chooseOpen_ne_frozen _ _ fun t => takeEvent_ne_frozen t _
  · split
    · exact turnOrTick_ne_frozen s
    · exact chooseOpen_ne_frozen _ _ turnOrTick_ne_frozen

/-- Only the clocks stopped, with no cold reset to come, leave nothing to do (R463). -/
theorem nextStep_eq_frozen_iff (s : State) : nextStep s = .frozen ↔ s.pkg.frozen = true ∧ resetInput s = none := by
  unfold nextStep
  split
  case isTrue hf =>
    split
    case h_1 h rest hr => simp [hr]
    case h_2 hr => simp [hf, hr]
  case isFalse hf =>
    refine iff_of_false ?_ (fun h => hf h.1)
    split
    · split
      · exact Next.noConfusion
      · exact takeInput_ne_frozen _ _
    · exact Next.noConfusion
    · exact ownStep_ne_frozen s

/-- A step answers a next state, or ends in FROZEN where nothing is left to do (R463). -/
theorem step_cases (s : State) : (∃ t, Machine.step s = .next t) ∨ (Machine.step s = .fault .frozen ∧ nextStep s = .frozen) := by
  cases h : nextStep s with
  | frozen => exact .inr ⟨by simp only [Machine.step, h], rfl⟩
  | event i t =>
    obtain ⟨u, hu⟩ := exec_next i t
    exact .inl ⟨u, by simp only [Machine.step, h, hu]⟩
  | turn a t => exact .inl ⟨_, by simp only [Machine.step, h]; rfl⟩
  | tick t => exact .inl ⟨_, by simp only [Machine.step, h]; rfl⟩

theorem resetInput_eq_none {s : State} (h : ∀ x ∈ s.inputs, x.2.2 ≠ .coldReset) : resetInput s = none := by
  have hi : s.inputs.findIdx? (fun x => x.2.2 = .coldReset) = none := by
    simpa [List.findIdx?_eq_none_iff] using h
  rw [resetInput, hi]
  rfl

/-- Settles O60: a step that is no next state is the fault FROZEN, and only the stopped clocks lead to it. -/
theorem stepStopsOnlyWhenFrozen : Obligations.StepStopsOnlyWhenFrozen := by
  intro s
  refine ⟨fun r hr => ?_, fun f hf => ?_, fun hf hin => ?_⟩
  · rcases step_cases s with ⟨t, ht⟩ | ⟨ht, -⟩
    · exact nomatch ht.symm.trans hr
    · exact nomatch ht.symm.trans hr
  · rcases step_cases s with ⟨t, ht⟩ | ⟨ht, hn⟩
    · exact nomatch ht.symm.trans hf
    · exact ⟨(Host.Outcome.fault.inj (ht.symm.trans hf)).symm, ((nextStep_eq_frozen_iff s).mp hn).1⟩
  · have hn := (nextStep_eq_frozen_iff s).mpr ⟨hf, resetInput_eq_none hin⟩
    simp only [Machine.step, hn]

end Sys2Proof.Machine
end
section
/-! The package at reset, and the sequencer at the first bundle of a task. -/

namespace Sys2Proof.Machine

/-! ## Vectors -/

/-- A vector of one value holds it everywhere, and reads as it beyond its end. -/
theorem vget_replicate {α : Type} (n : Nat) (d : α) (i : Nat) : vget d (Vector.replicate n d) i = d := by
  unfold vget
  rw [Vector.getElem?_replicate]
  split <;> rfl

/-- Places 1 to `m` of a vector filled in turn. -/
theorem vget_foldl_vset_succ {α : Type} {n : Nat} (d : α) (g : Nat → α) (v : Vector α n) {m : Nat} (hm : m < n) (r : Nat) :
    vget d ((List.range m).foldl (fun v k => vset v (k + 1) (g k)) v) r = if 1 ≤ r ∧ r ≤ m then g (r - 1) else vget d v r := by
  induction m with
  | zero => rw [if_neg (by omega)]; rfl
  | succ m ih =>
    rw [List.range_succ, List.foldl_append, List.foldl_cons, List.foldl_nil]
    by_cases hr : r = m + 1
    · subst hr
      rw [vget_vset_self _ _ hm, if_pos (by omega)]
      rfl
    · rw [vget_vset_of_ne _ _ hr, ih (by omega)]
      exact if_congr (by omega) rfl rfl

/-- A place that no pair of a list names stays as it was. -/
theorem vget_foldl_vset_of_forall_ne {α : Type} {n : Nat} (d : α) (g : Nat × Nat → α) (l : List (Nat × Nat)) (v : Vector α n) {k : Nat}
    (h : ∀ b ∈ l, b.1 ≠ k) : vget d (l.foldl (fun v b => vset v b.1 (g b)) v) k = vget d v k := by
  induction l generalizing v with
  | nil => rfl
  | cons b l ih =>
    rw [List.foldl_cons, ih _ fun c hc => h c (List.mem_cons_of_mem _ hc), vget_vset_of_ne _ _ (h b List.mem_cons_self).symm]

/-! ## Reset -/

theorem partAt_reset (p : Nat) : partAt .reset p = {} := vget_replicate 28 ({} : Part) p

theorem stepOf_reset {d : Nat} (h : d < 8) : stepOf .reset d = 15 := by
  simp [stepOf, vget, State.reset, h]

theorem dieLocked_reset (d : Nat) : dieLocked .reset d = false := by
  simp [dieLocked, State.reset]

/-- Settles O57: the reset state field by field; the first bundle by what fills the register vectors. -/
theorem resetAndFirstBundle : Obligations.ResetAndFirstBundle := by
  refine ⟨⟨rfl, rfl, rfl, fun m p => ⟨rfl, rfl⟩, fun d hd => ⟨stepOf_reset hd, dieLocked_reset d⟩, rfl, rfl, rfl,
    fun q => ⟨rfl, rfl, rfl, rfl⟩, fun p => ?_⟩, fun s x t => ?_⟩
  · rw [partAt_reset]
    exact ⟨rfl, rfl, rfl⟩
  · intro q entry
    refine ⟨fun k hk => ?_, fun r hr => ?_, rfl, fun b => vget_replicate 8 false b, fun k hk => ?_, ?_, vget_vset_self _ _ (by decide) _,
      fun k hk => ?_, fun k hk => ?_, rfl, rfl, rfl, rfl, rfl, rfl, rfl, rfl, rfl, rfl, rfl, rfl, rfl, rfl, rfl, rfl,
      fun k => vget_replicate _ 0 k, rfl, fun k => vget_replicate _ 0 k, rfl, rfl, rfl⟩
    · exact (vget_foldl_vset_succ 0 (fun k => t.args.getD k 0) _ (by decide) (k + 1)).trans (if_pos (by omega))
    · exact (vget_foldl_vset_succ 0 (fun k => t.args.getD k 0) _ (by decide) r).trans ((if_neg (by omega)).trans (vget_replicate 32 0 r))
    · have h : vget {} q.h k = {} := (vget_vset_of_ne _ _ (by omega) _).trans (vget_replicate 16 ({} : Handle) k)
      rw [h]
    · have h : vget {} q.h 15 = codeWalk s t.part entry := vget_vset_self _ _ (by decide) _
      rw [h, codeWalk]
      cases walk s t.part entry <;> rfl
    · exact (vget_vset_of_ne _ _ (by omega) _).trans (vget_replicate 8 ({} : SelPair) k)
    · exact (vget_foldl_vset_of_forall_ne 0 (fun b => BitVec.ofNat 15 (2 ^ 14 + b.2)) t.binds _ hk).trans (vget_replicate 64 0 k)

end Sys2Proof.Machine
end
section
/-! The turn of an array: the step runs the decoded bundle, slot by slot. -/

namespace Sys2Proof.Machine

/-! ## Whose turn it is -/

/-- A next step that is a turn is that of one of the 28 arrays. -/
def Next.ofArray (n : Next) : Prop :=
  match n with
  | .turn a _ => a < 28
  | _ => True

theorem takeEvent_ofArray (s : State) (h : Happening) : (takeEvent s h).ofArray := by
  unfold takeEvent
  dsimp only
  split <;> trivial

theorem nextTurn_lt {s : State} {a : Nat} (h : nextTurn s = some a) : a < 28 := List.mem_range.mp (List.mem_of_find?_eq_some h)

theorem turnOrTick_ofArray (s : State) : (turnOrTick s).ofArray := by
  unfold turnOrTick
  split
  case h_1 a h => exact nextTurn_lt h
  case h_2 => trivial

theorem chooseOpen_ofArray (s : State) (l : List Happening) {rest : State → Next} (h : ∀ t, (rest t).ofArray) :
    (chooseOpen s l rest).ofArray := by
  unfold chooseOpen
  dsimp only
  split
  · split
    · exact takeEvent_ofArray _ _
    · exact h _
  · exact h _

theorem ownStep_ofArray (s : State) : (ownStep s).ofArray := by
  unfold ownStep
  split
  · dsimp only
    split
    · exact takeEvent_ofArray _ _
    · exact chooseOpen_ofArray _ _ fun t => takeEvent_ofArray t _
  · split
    · exact turnOrTick_ofArray s
    · exact chooseOpen_ofArray _ _ turnOrTick_ofArray

theorem takeInput_ofArray (s : State) (h : Happening) : (takeInput s h).ofArray := by
  unfold takeInput
  split
  · split <;> trivial
  · trivial

theorem nextStep_ofArray (s : State) : (nextStep s).ofArray := by
  unfold nextStep
  split
  · split <;> trivial
  · split
    · split
      · trivial
      · exact takeInput_ofArray _ _
    · trivial
    · exact ownStep_ofArray s

/-! ## The slots of a decoded bundle -/

/-- A slot that is no fault is what its word decodes to (R43). -/
theorem eq_ok_of_slotClassify {mon : Bool} {v k : Nat} {r : Except Reject Instr} {i : Instr} (h : slotClassify mon v k r = .ok i) :
    r = .ok i := by
  unfold slotClassify at h
  dsimp only at h
  split at h
  case h_1 => exact nomatch h
  case h_2 => exact nomatch h
  case h_3 j =>
    split at h
    · exact nomatch h
    · exact congrArg Except.ok (Except.ok.inj h)

theorem decodeSlots_ok {mon : Bool} {v : Nat} {b : Slots} (h : decodeSlots mon v = .ok b) :
    decodeSc (slotWord v 0) = .ok b.sc ∧ decodeCell .va (slotWord v 1) = .ok b.va ∧ decodeCell .vb (slotWord v 2) = .ok b.vb ∧
      decodeCell .mx (slotWord v 3) = .ok b.mx ∧ decodeCopy (slotWord v 4) = .ok b.ka ∧ decodeCopy (slotWord v 5) = .ok b.kb := by
  unfold decodeSlots at h
  split at h
  · exact nomatch h
  next sc h0 =>
    split at h
    · exact nomatch h
    next va h1 =>
      split at h
      · exact nomatch h
      next vb h2 =>
        split at h
        · exact nomatch h
        next mx h3 =>
          split at h
          · exact nomatch h
          next ka h4 =>
            split at h
            · exact nomatch h
            next kb h5 =>
              obtain rfl := Except.ok.inj h
              exact ⟨eq_ok_of_slotClassify h0, eq_ok_of_slotClassify h1, eq_ok_of_slotClassify h2, eq_ok_of_slotClassify h3,
                eq_ok_of_slotClassify h4, eq_ok_of_slotClassify h5⟩

/-- A bundle without a fault is its six slots as they decode (R45). -/
theorem decodeSlots_of_decodeBundle {mon : Bool} {v : Nat} {b : Slots} (h : decodeBundle mon v = .ok b) : decodeSlots mon v = .ok b := by
  unfold decodeBundle at h
  split at h
  · exact nomatch h
  next c hc =>
    split at h
    · exact nomatch h
    · split at h
      · exact nomatch h
      · rw [hc, Except.ok.inj h]

/-! ## The turn runs the bundle -/

/-- A bundle that nothing holds or faults is run. -/
theorem tryBundle_runs {s : State} {a : Nat} {b : Slots} (hi : interlocked s a b = false) (hc : countersFull s a b = false)
    (hb : bundleBreak s a b = none) (hw : b.hasWord = true → wordReady s a (wordIn (seqAt s a) b) = true) :
    tryBundle s a b = runBundle s a b := by
  unfold tryBundle
  rw [hi, hc, hb]
  refine (if_neg Bool.false_ne_true).trans ((if_neg Bool.false_ne_true).trans (if_neg ?_))
  cases h : b.hasWord with
  | false => exact Bool.false_ne_true
  | true => rw [hw h]; exact Bool.false_ne_true

theorem bundleTurn_runs {s : State} {a v : Nat} {b : Slots} (ht : trapWaits s a = false) (hi : issueStops s a = false)
    (hf : fetch s a = .bytes v) (hd : decodeBundle (seqAt s a).mon v = .ok b) : bundleTurn s a = tryBundle s a b := by
  unfold bundleTurn
  rw [ht, hi, hf]
  dsimp only
  rw [hd]
  rfl

/-- An array that nothing stops tries its next bundle. -/
theorem arrayTurn_bundle {u : State} {a : Nat} (hst : stalled (pmcAdd u a 0x01 1) a = false)
    (hs : (seqAt (pmcAdd u a 0x01 1) a).stop = .run ∨
      ∃ c, (seqAt (pmcAdd u a 0x01 1) a).stop = .hold c ∧ c ≤ (pmcAdd u a 0x01 1).cyc) :
    arrayTurn u a = bundleTurn (pmcAdd u a 0x01 1) a := by
  unfold arrayTurn
  dsimp only
  rw [hst]
  refine (if_neg Bool.false_ne_true).trans ?_
  rcases hs with h | ⟨c, h, hc⟩
  · rw [h]
  · rw [h]
    exact if_neg (Nat.not_lt.mpr hc)

theorem step_of_turn {s u : State} {a : Nat} (h : nextStep s = .turn a u) : Machine.step s = .next (arrayTurn u a) := by
  simp only [Machine.step, h]

/-! ## Slot by slot -/

/-- A slot of a bundle that is neither held nor faulted is its instruction's meaning. -/
theorem runBundleSlot_next {s t : State} {k : Nat} {i : Instr} (hr : s.bun.raised = none) (hb : s.bun.blocked = false)
    (h : exec i { s with cell := { slot := k }, bun := { s.bun with ins := i } } = .next t) : runBundleSlot s k i = t := by
  unfold runBundleSlot
  rw [hr, hb]
  refine (if_neg Bool.false_ne_true).trans ?_
  dsimp only
  rw [h]
  rfl

/-- A bundle none of whose slots is held or faults, and whose word keeps within its region, takes effect (R42, R223). -/
theorem runBundle_commits {s s1 s2 s3 : State} {a : Nat} {b : Slots} {names : List Nat × List Nat}
    (h1 : runBundleSlot (enterBundle s a b) 0 b.sc = s1) (c1 : s1.bun.raised = none ∧ s1.bun.blocked = false)
    (h2 : runBundleSlot s1 4 b.ka = s2) (h3 : runBundleSlot s2 5 b.kb = s3) (c3 : s3.bun.raised = none ∧ s3.bun.blocked = false)
    (hn : wordRegion (enterBundle s a b) s1 a b (wordIn (seqAt (enterBundle s a b) a) b) = .ok names) :
    runBundle s a b = commitBundle (enterBundle s a b)
      (if b.hasWord then bundleWord s3 a (wordIn (seqAt (enterBundle s a b) a) b) names else s3) a := by
  obtain ⟨r1, b1⟩ := c1
  obtain ⟨r3, b3⟩ := c3
  unfold runBundle
  dsimp only
  rw [h1, r1]
  dsimp only
  rw [b1, hn]
  dsimp only
  rw [h2, h3, r3]
  dsimp only
  rw [b3]
  rfl

/-- A word-less bundle has no names to add to its region; a word adds those its check finds (R440). -/
theorem wordRegion_empty {base s : State} {a : Nat} {b : Slots} (w : WordIn) (h : b.hasWord = false) : wordRegion base s a b w = .ok ([], []) := by
  unfold wordRegion
  rw [h]
  rfl

theorem wordRegion_ok {base s : State} {a : Nat} {b : Slots} {w : WordIn} {names : List Nat × List Nat} (h : b.hasWord = true)
    (hc : regionCheck s a w.fmt [b.va, b.vb, b.mx] = .ok names) : wordRegion base s a b w = .ok names := by
  unfold wordRegion
  rw [h, if_pos rfl, hc]

theorem npc_enterBundle {s : State} {a : Nat} (h : a < 28) (b : Slots) :
    (seqAt (enterBundle s a b) a).npc = (seqAt (enterBundle s a b) a).pc + 24 := by
  have hq := seqAt_modSeq_self (s := beginBundle s a) h fun q => { q with npc := q.pc + 24, stop := .run }
  have he : seqAt (enterBundle s a b) a = seqAt (modSeq (beginBundle s a) a fun q => { q with npc := q.pc + 24, stop := .run }) a := by
    unfold enterBundle seqAt arr
    rfl
  rw [he, hq]

/-- Settles O58: the turn tries the bundle that the fetch and the decoder find, and the run of it goes through its slots. -/
theorem stepRunsDecoded : Obligations.StepRunsDecoded := by
  intro s u s1 s2 s3 a v b w base hn hst hs ht hi hf hd hl hc hb hw
  have ha : a < 28 := by
    have h := nextStep_ofArray s
    rw [hn] at h
    exact h
  have hstep : Machine.step s = .next (runBundle w a b) :=
    (step_of_turn hn).trans (congrArg Host.Outcome.next ((arrayTurn_bundle hst hs).trans
      ((bundleTurn_runs ht hi hf hd).trans (tryBundle_runs hl hc hb hw))))
  refine ⟨decodeSlots_ok (decodeSlots_of_decodeBundle hd), npc_enterBundle ha b, hstep, ?_⟩
  intro clear at_ e1 c1 e2 c2 e3 c3
  obtain ⟨r1, b1⟩ := c1
  obtain ⟨r2, b2⟩ := c2
  have h1 : runBundleSlot base 0 b.sc = s1 := runBundleSlot_next rfl rfl e1
  have h2 : runBundleSlot s1 4 b.ka = s2 := runBundleSlot_next r1 b1 e2
  have h3 : runBundleSlot s2 5 b.kb = s3 := runBundleSlot_next r2 b2 e3
  refine ⟨fun hno => ?_, fun names hyes hr => ?_⟩
  · have hrun := runBundle_commits (s := w) h1 ⟨r1, b1⟩ h2 h3 c3 (wordRegion_empty _ hno)
    rw [if_neg (Bool.eq_false_iff.mp hno)] at hrun
    rw [hstep, hrun]
  · have hrun := runBundle_commits (s := w) h1 ⟨r1, b1⟩ h2 h3 c3 (wordRegion_ok hyes hr)
    rw [if_pos hyes] at hrun
    rw [hstep, hrun]

end Sys2Proof.Machine
end
section
/-! What taking a trap into the monitor leaves in its registers. -/

namespace Sys2Proof.Machine

/-! ## MCAUSE -/

/-- CODE, SLOT and PRECISE side by side (R432). -/
theorem mcause_fields {c l : Nat} (hc : c < 2 ^ 8) (hl : l < 2 ^ 3) (p : Bool) :
    let v : Word := BitVec.ofNat 64 (c + l * 2 ^ 8 + bnat p * 2 ^ 11)
    bitsOf v 7 0 = c ∧ bitsOf v 10 8 = l ∧ v.getLsbD 11 = p ∧ bitsOf v 63 12 = 0 := by
  intro v
  have hp : bnat p ≤ 1 := by cases p <;> decide
  have hv : v.toNat = c + l * 2 ^ 8 + bnat p * 2 ^ 11 := by
    rw [BitVec.toNat_ofNat]
    omega
  refine ⟨?_, ?_, ?_, ?_⟩
  · simp only [bitsOf, hv]
    omega
  · simp only [bitsOf, hv]
    omega
  · rw [BitVec.getLsbD, hv, Nat.testBit_eq_decide_div_mod_eq, show (c + l * 2 ^ 8 + bnat p * 2 ^ 11) / 2 ^ 11 = bnat p by omega]
    cases p <;> rfl
  · simp only [bitsOf, hv]
    omega

/-! ## Entering -/

/-- The sequencer as it enters the monitor (R431, R434). -/
theorem seqAt_enterMonitor {s : State} {a : Nat} (ha : a < 28) (f : FaultInfo) (mepc at_ : Nat) :
    (seqAt (enterMonitor s a f mepc at_) a).mcause = BitVec.ofNat 64 (f.code + f.slot * 2 ^ 8 + bnat f.precise * 2 ^ 11) ∧
      (seqAt (enterMonitor s a f mepc at_) a).mrec = BitVec.ofNat 64 at_ ∧
      (seqAt (enterMonitor s a f mepc at_) a).mepc = BitVec.ofNat 64 mepc ∧ (seqAt (enterMonitor s a f mepc at_) a).mon = true := by
  unfold enterMonitor
  dsimp only
  unfold seqAt
  rw [arr_modArr_self ha]
  exact ⟨rfl, rfl, rfl, rfl⟩

/-- A fault taken outside the monitor, where the partition has one, enters it with its record (R431). -/
theorem takeTrap_enters {s s3 : State} {a : Nat} {f : FaultInfo} {rest : List FaultInfo} {more at_ : Nat} (hm : (seqAt s a).mon = false)
    (hr : (seqAt s a).stop ≠ .retiring) (hmen : (partAt s (seqAt s a).part).men = true)
    (hc : chooseFault (seqAt s a) = some (f, rest, more)) {s1 s2 : State}
    (h1 : modSeq (withdrawHeld s a) a (fun q => { q with pending := rest, located := [] }) = s1)
    (h2 : (if f.code = 0x11 then restart s1 a f else s1) = s2) (hw : writeRecord s2 a f (f.code = 0x11) more = (s3, at_, false)) :
    takeTrap s a = enterMonitor s3 a f (resumeAt (seqAt s2 a) f (f.code = 0x11)) at_ := by
  have ht : trapFault (seqAt s a) = some (f, rest, more) := by
    rw [trapFault, hm]
    exact hc
  unfold takeTrap
  dsimp only
  rw [ht]
  dsimp only
  rw [hm, hmen, h1]
  simp only [hr, decide_false, Bool.not_true, Bool.or_false, Bool.false_eq_true, if_false, h2, hw]

/-- Settles O49: the trap enters the monitor, whose registers are CODE, SLOT and PRECISE, the record and where MEPC points. -/
theorem monitorEntryRegisters : Obligations.MonitorEntryRegisters := by
  intro s s3 f rest more at_ a q hdue hm hr hmen hc hcode hslot re s1 s2 hw
  have ha : a < 28 := by
    simp only [trapDue, trapWaits, runs, Bool.and_eq_true, decide_eq_true_eq] at hdue
    exact hdue.1.1.1.1
  have h2 : (if f.code = 0x11 then restart s1 a f else s1) = s2 := by
    simp only [s2, re, decide_eq_true_eq]
  have htake := takeTrap_enters hm hr hmen hc (s1 := s1) rfl h2 hw
  obtain ⟨hcause, hrec, hepc, hmon⟩ := seqAt_enterMonitor ha f (resumeAt (seqAt s2 a) f (f.code = 0x11)) at_ (s := s3)
  refine ⟨_, congrArg Host.Outcome.next ((if_pos hdue).trans htake), ?_⟩
  intro r
  obtain ⟨m1, m2, m3, m4⟩ := mcause_fields hcode hslot f.precise
  refine ⟨?_, ?_, ?_, ?_, hrec, hmon, hepc.trans (congrArg (BitVec.ofNat 64) ?_)⟩
  · exact (congrArg (bitsOf · 7 0) hcause).trans m1
  · exact (congrArg (bitsOf · 10 8) hcause).trans m2
  · exact (congrArg (BitVec.getLsbD · 11) hcause).trans m3
  · exact (congrArg (bitsOf · 63 12) hcause).trans m4
  · rfl

end Sys2Proof.Machine
end
section
/-! Slots that take no effect of their own: the wrong mode, a false predicate, and what a source or the destination may stand in. -/

namespace Sys2Proof.Machine

/-! ## The predicate of a slot -/

theorem slotOp_of_pred_false {s : State} {p : Nat} (h : pred s p = false) (srcs dsts : List Nat) (k : State → State) :
    slotOp s p srcs dsts k = s := if_pos (by rw [h]; rfl)

theorem copyOp_of_kpred_false {s : State} {p : Nat} (h : kpred s p = false) (srcs dsts : List Nat) (k : State → State) :
    copyOp s p srcs dsts k = s := if_pos (by rw [h]; rfl)

/-- An SC instruction that its mode allows does nothing where its predicate is false (R113). -/
theorem exec_sc_of_pred_false {s : State} {i : Instr} (hc : i.slotClass = some .sc) (hm : privBreak (curSeq s).mon i = false)
    (hp : pred s (guardOf i) = false) : exec i s = .next s := by
  cases i
  case nop => rfl
  case j | eret => exact nomatch (pred_zero s).symm.trans hp
  case mfc p d n | mtc p d n =>
    simp only [guardOf, slotNames, Nat.add_sub_cancel_left] at hp
    exact congrArg Host.Outcome.next ((if_neg (Bool.eq_false_iff.mp hm)).trans (slotOp_of_pred_false hp _ _ _))
  case xlat p h a =>
    simp only [guardOf, slotNames, Nat.add_sub_cancel_left] at hp
    exact congrArg Host.Outcome.next ((if_neg (Bool.eq_false_iff.mp hm)).trans (slotOp_of_pred_false hp _ _ _))
  case tend p =>
    simp only [guardOf, slotNames, Nat.add_sub_cancel_left] at hp
    exact congrArg Host.Outcome.next ((if_neg (Bool.eq_false_iff.mp hm)).trans (slotOp_of_pred_false hp _ _ _))
  case add | sub | and | or | xor | andn | shl | shr | sra | rot | min | max | minn | maxn | mul | mulh | mulhn | div | divn |
      rem | remn | clz | popc | sext | zext | addi | andi | ori | xori | shli | shri | srai | muli | mini | maxi | li | lui |
      cmpEq | cmpNe | cmpLt | cmpLe | cmpLtn | cmpLen | cmpiEq | cmpiLt | cmpiLtn | band | bor | bxor | bandn | bmov | sel |
      br | jal | jr | loop | loops | mark | pause | wait | trap | ldB | ldH | ldW | ldD | ldnB | ldnH | ldnW | stB | stH | stW |
      stD | ldpW | ldpD | stpW | stpD | hinv | hinfo | ldtW | ldtD | sttW | sttD | ldf | ldfk | ste | stfk | amoAdd | amoAnd |
      amoOr | amoXor | amoMin | amoMax | amoMinn | amoMaxn | amoSwap | amoFadd | cas | accAdd | accFadd | accBfadd | accFmax |
      fence | flushres | resid | setfmt | mtw | mfw | wrot | mfaRowany | mfaRowall | mfaColany | mfaColall | mfaSummary |
      talloc | tfree | tinfo | tmove | sync | cbinit | cbexp | cbarr | cbwait | cbtest | dqpush | dqpop | dqsteal | tlaunch |
      locq | playW | playD | patc | ldatt =>
    simp only [guardOf, slotNames, Nat.add_sub_cancel_left] at hp
    exact congrArg Host.Outcome.next (slotOp_of_pred_false hp _ _ _)
  -- SEAL and UNSEAL come next; their names are words of Lean, which no case tag can be.
  iterate 2
    next =>
      simp only [guardOf, slotNames, Nat.add_sub_cancel_left] at hp
      exact congrArg Host.Outcome.next (slotOp_of_pred_false hp _ _ _)
  all_goals exact nomatch hc

/-- So does a KA or KB instruction. -/
theorem exec_copy_of_kpred_false {s : State} {i : Instr} (hc : i.slotClass = some .copy) (hp : kpred s (guardOf i) = false) :
    exec i s = .next s := by
  cases i
  case copy | copyg | copys | copym | fill | bind | unbind | rankx | eresume | ecancel | xmit | imux | phaseOpen | phaseClose |
      mtx | mfx | tpref | tflush =>
    simp only [guardOf, slotNames, Nat.add_sub_cancel_left] at hp
    exact congrArg Host.Outcome.next (copyOp_of_kpred_false hp _ _ _)
  all_goals exact nomatch hc

/-! ## The mode, the sources and the destination -/

/-- The instructions that a mode forbids raise PRIV whatever their predicate (R43). -/
theorem exec_of_privBreak {s : State} {i : Instr} (h : privBreak (curSeq s).mon i = true) :
    exec i s = .next (raise s (faultW s 0x03 i)) := by
  cases i
  case eret =>
    have hm : (curSeq s).mon = false := by simpa [privBreak] using h
    exact congrArg Host.Outcome.next (if_neg (Bool.eq_false_iff.mp hm))
  case mfc | mtc | xlat | tend => exact congrArg Host.Outcome.next (if_pos h)
  all_goals exact nomatch h

/-- Each two-source instruction runs its slot on its two sources and its one destination. -/
theorem exec_twoSource (s : State) {p : BitVec 3} {d a b : BitVec 5} {w : Bool} {i : Instr} (h : i ∈ twoSourceOps p d a b w) :
    ∃ k, exec i s = .next (slotOp s p.toNat [a.toNat, b.toNat] [d.toNat] k) := by
  simp only [twoSourceOps, List.mem_cons, List.not_mem_nil, or_false] at h
  rcases h with rfl | rfl | rfl | rfl | rfl | rfl | rfl | rfl | rfl | rfl | rfl | rfl | rfl | rfl | rfl | rfl | rfl | rfl | rfl | rfl | rfl
  all_goals exact ⟨_, rfl⟩

/-- Settles O51: the mode and the predicate by what every meaning begins with, the rest by the order of the checks of a slot. -/
theorem slotsThatTakeNoEffect : Obligations.SlotsThatTakeNoEffect := by
  intro s
  refine ⟨fun i _ h => exec_of_privBreak h, fun i hc hm hp => exec_sc_of_pred_false hc hm hp, fun i hc hp => exec_copy_of_kpred_false hc hp,
    fun p d a b w i hi hp => ?_⟩
  intro dry
  obtain ⟨k, hk⟩ := exec_twoSource s hi
  have hgo : ¬(!pred s p.toNat) = true := by rw [hp]; exact Bool.false_ne_true
  rw [hk]
  refine ⟨fun h => congrArg Host.Outcome.next ((if_neg hgo).trans (if_pos ?_)), fun ha hb => ?_⟩
  · simpa [dry] using h
  · have hdry : ¬([a.toNat, b.toNat].any fun r => isBound s (curA s) r && (portAt s (curA s) (portReg r)).elems = []) = true := by
      simpa [dry] using And.intro ha hb
    refine ⟨fun h => congrArg Host.Outcome.next ((if_neg hgo).trans ((if_neg hdry).trans (if_pos (by simpa using h)))), fun h1 h2 hd => ?_⟩
    refine congrArg Host.Outcome.next ((if_neg hgo).trans ((if_neg hdry).trans ((if_neg (by simp [h1, h2])).trans ?_)))
    rw [List.find?_cons, hd]

end Sys2Proof.Machine
end
section
/-! What an SC instruction on registers, predicates and special state leaves as it was: it changes its sequencer and the record of the
bundle under way alone, and of its sequencer what it names. -/

namespace Sys2Proof.Machine

/-! ## The running sequencer alone -/

/-- State `t` differs from `s` at most in the running sequencer and the record of the bundle under way. -/
structure SeqOnly (s t : State) : Prop where
  rest : t = { s with arrs := t.arrs, bun := t.bun }
  own : arr t (curA s) = { arr s (curA s) with seq := curSeq t }
  other : ∀ a, a ≠ curA s → arr t a = arr s a

theorem SeqOnly.refl (s : State) : SeqOnly s s := ⟨rfl, rfl, fun _ _ => rfl⟩

theorem SeqOnly.curA_eq {s t : State} (h : SeqOnly s t) : curA t = curA s := by
  rw [h.rest]
  rfl

theorem SeqOnly.trans {s t u : State} (h : SeqOnly s t) (k : SeqOnly t u) : SeqOnly s u where
  rest := by
    rw [k.rest, h.rest]
  own := by
    have ho := k.own
    rw [h.curA_eq, h.own] at ho
    exact ho
  other a ha := (k.other a (by rw [h.curA_eq]; exact ha)).trans (h.other a ha)

theorem modCur_seqOnly (s : State) (f : Seq → Seq) : SeqOnly s (modCur s f) where
  rest := rfl
  own := by
    have hq := curSeq_modCur s f
    rw [hq]
    exact arr_modArr_self s.cur.isLt _
  other _ ha := arr_modArr_of_ne s ha _

theorem markPopped_seqOnly (s : State) (l : List Nat) : SeqOnly s (markPopped s l) := ⟨rfl, rfl, fun _ _ => rfl⟩

theorem setReg_seqOnly (s : State) (r : Nat) (v : Word) : SeqOnly s (setReg s r v) := by
  unfold setReg putReg
  split
  · exact .refl s
  · exact modCur_seqOnly s _

theorem lock_seqOnly (s : State) (n c : Nat) : SeqOnly s (lock s n c) := by
  unfold lock
  split
  · exact .refl s
  · exact modCur_seqOnly s _

theorem result_seqOnly (s : State) (r : Nat) (v : Word) (l : Nat) : SeqOnly s (result s r v l) := by
  unfold result
  dsimp only
  split
  · exact setReg_seqOnly s r v
  · exact (setReg_seqOnly s r v).trans (lock_seqOnly _ _ _)

theorem setPred_seqOnly (s : State) (b : Nat) (v : Bool) : SeqOnly s (setPred s b v) := by
  unfold setPred
  split
  · exact .refl s
  · exact modCur_seqOnly s _

theorem SeqOnly.mem_eq {s t : State} (h : SeqOnly s t) : t.mem = s.mem := by rw [h.rest]

theorem SeqOnly.cyc_eq {s t : State} (h : SeqOnly s t) : t.cyc = s.cyc := by rw [h.rest]

/-- The ports are no part of a sequencer. -/
theorem SeqOnly.portAt_eq {s t : State} (h : SeqOnly s t) (a n : Nat) : portAt t a n = portAt s a n := by
  unfold portAt
  by_cases ha : a = curA s
  · rw [ha, h.own]
  · rw [h.other a ha]

theorem SeqOnly.isBound_eq {s t : State} (h : SeqOnly s t) (a r : Nat) : isBound t a r = isBound s a r := by
  rw [isBound, isBound, h.portAt_eq]

/-- A register reads as it did where the sequencer holds it as it did. -/
theorem SeqOnly.reg_eq {s t : State} (h : SeqOnly s t) {r : Nat} (hv : vget 0 (curSeq t).s r = vget 0 (curSeq s).s r) :
    reg t r = reg s r := by
  rw [reg, reg, h.curA_eq, h.isBound_eq, h.portAt_eq, hv]

theorem SeqOnly.isPoisoned_eq {s t : State} (h : SeqOnly s t) {r : Nat}
    (hv : (curSeq t).poisoned.getLsbD r = (curSeq s).poisoned.getLsbD r) : isPoisoned t r = isPoisoned s r := by
  rw [isPoisoned, isPoisoned, h.curA_eq, h.isBound_eq, hv]

theorem pred_of_b_eq {s t : State} (h : (curSeq t).b = (curSeq s).b) (b : Nat) : pred t b = pred s b := by
  rw [pred, pred, h]

/-! ## A register -/

/-- What an instruction that writes register `d` may change of its sequencer: that register with its mark, interlocks, the divider. -/
structure RegOnly (d : Nat) (q r : Seq) : Prop where
  rest : r = { q with s := r.s, poisoned := r.poisoned, locks := r.locks, divBusy := r.divBusy }
  regs : ∀ n, n ≠ d → vget 0 r.s n = vget 0 q.s n
  marks : ∀ n, n ≠ d → r.poisoned.getLsbD n = q.poisoned.getLsbD n

theorem RegOnly.refl (d : Nat) (q : Seq) : RegOnly d q q := ⟨rfl, fun _ _ => rfl, fun _ _ => rfl⟩

theorem RegOnly.trans {d : Nat} {q r u : Seq} (h : RegOnly d q r) (k : RegOnly d r u) : RegOnly d q u where
  rest := by
    rw [k.rest, h.rest]
  regs n hn := (k.regs n hn).trans (h.regs n hn)
  marks n hn := (k.marks n hn).trans (h.marks n hn)

theorem getLsbD_setBit_of_ne {w : Nat} (v : BitVec w) {i k : Nat} (h : k ≠ i) (x : Bool) : (setBit v i x).getLsbD k = v.getLsbD k := by
  have ht : (2 ^ i).testBit k = false := by
    rw [Nat.testBit_two_pow]
    exact decide_eq_false h.symm
  cases x with
  | false => simp only [setBit, Bool.false_eq_true, reduceIte, BitVec.getLsbD_and, BitVec.getLsbD_not, BitVec.getLsbD_ofNat, ht]; simp; exact fun hb => BitVec.lt_of_getLsbD hb
  | true => simp only [setBit, reduceIte, BitVec.getLsbD_or, BitVec.getLsbD_ofNat, ht]; simp

theorem setReg_regOnly (s : State) (d : Nat) (v : Word) : RegOnly d (curSeq s) (curSeq (setReg s d v)) := by
  by_cases h0 : d = 0
  · subst h0
    exact .refl 0 _
  · rw [curSeq_setReg h0]
    exact ⟨rfl, fun n hn => vget_vset_of_ne _ _ hn _, fun n hn => getLsbD_setBit_of_ne _ hn _⟩

theorem lock_regOnly (s : State) (d n c : Nat) : RegOnly d (curSeq s) (curSeq (lock s n c)) := by
  unfold lock
  split
  · exact .refl d _
  · rw [curSeq_modCur]
    exact ⟨rfl, fun _ _ => rfl, fun _ _ => rfl⟩

theorem result_regOnly (s : State) (d : Nat) (v : Word) (l : Nat) : RegOnly d (curSeq s) (curSeq (result s d v l)) := by
  unfold result
  dsimp only
  split
  · exact setReg_regOnly s d v
  · exact (setReg_regOnly s d v).trans (lock_regOnly _ d _ _)

/-- What changes its sequencer so leaves the frame of a register instruction. -/
theorem registerFrame_of {s t : State} {d : Nat} (h : SeqOnly s t) (k : RegOnly d (curSeq s) (curSeq t)) : RegisterFrame s t d :=
  ⟨fun _ => by rw [h.mem_eq], fun r hr => ⟨h.reg_eq (k.regs r hr), h.isPoisoned_eq (k.marks r hr)⟩,
    pred_of_b_eq (by rw [k.rest]), k.rest, h.own, h.other, h.rest⟩

theorem registerFrame_result (s : State) (l : List Nat) (d : Nat) (v : Word) (n : Nat) : RegisterFrame s (result (markPopped s l) d v n) d :=
  registerFrame_of ((markPopped_seqOnly s l).trans (result_seqOnly _ d v n)) (result_regOnly (markPopped s l) d v n)

theorem registerFrame_divide (s : State) (l : List Nat) (d : Nat) (v : Word) (c : Nat) :
    RegisterFrame s (modCur (result (markPopped s l) d v 34) fun q => { q with divBusy := c }) d := by
  refine registerFrame_of ((markPopped_seqOnly s l).trans ((result_seqOnly _ d v 34).trans (modCur_seqOnly _ _))) ?_
  rw [curSeq_modCur]
  exact (result_regOnly (markPopped s l) d v 34).trans ⟨rfl, fun _ _ => rfl, fun _ _ => rfl⟩

/-! ## The register instructions -/

theorem SlotReady.mono {s : State} {p : Nat} {l m d : List Nat} (h : SlotReady s p m d) (hl : l ⊆ m) : SlotReady s p l d := by
  obtain ⟨hp, he, hm, hd⟩ := h
  exact ⟨hp, fun r hr => he r (hl hr), fun r hr => hm r (hl hr), hd⟩

/-- Each two-source instruction is a result, or a divide. -/
theorem exec_twoSource_eq (s : State) {p : BitVec 3} {d a b : BitVec 5} {w : Bool} {i : Instr} (h : i ∈ twoSourceOps p d a b w) :
    (∃ l f, exec i s = .next (alu2 s p d a b l f)) ∨ ∃ f, exec i s = .next (divide s p d a b f) := by
  simp only [twoSourceOps, List.mem_cons, List.not_mem_nil, or_false] at h
  rcases h with rfl | rfl | rfl | rfl | rfl | rfl | rfl | rfl | rfl | rfl | rfl | rfl | rfl | rfl | rfl | rfl | rfl | h
  case inr =>
    rcases h with rfl | rfl | rfl | rfl
    all_goals exact .inr ⟨_, rfl⟩
  all_goals exact .inl ⟨_, _, rfl⟩

/-- Each one-source instruction is a function of its source, or of its source and an immediate. -/
theorem exec_oneSource_eq (s : State) {p : BitVec 3} {d a x : BitVec 5} {n : BitVec 12} {w : Bool} {i : Instr}
    (h : i ∈ oneSourceOps p d a x n w) :
    (∃ f, exec i s = .next (alu1 s p d a f)) ∨ ∃ l f, exec i s = .next (aluImm s p d a n l f) := by
  simp only [oneSourceOps, List.mem_cons, List.not_mem_nil, or_false] at h
  rcases h with rfl | rfl | rfl | rfl | h
  case inr.inr.inr.inr =>
    rcases h with rfl | rfl | rfl | rfl | rfl | rfl | rfl | rfl | rfl | rfl
    all_goals exact .inr ⟨_, _, rfl⟩
  all_goals exact .inl ⟨_, rfl⟩

/-- The other register instructions, past the mode that MFC needs, run theirs for a result. -/
theorem exec_registerOp_eq (s : State) {p c w k : BitVec 3} {d a b : BitVec 5} {i : BitVec 17} {n : BitVec 12} {x : Instr × List Nat}
    (h : x ∈ registerOps p c w k d a b i n) (hm : ctlPriv n.toNat = true → (curSeq s).mon = true) :
    ∃ f : State → Word, exec x.1 s = .next (slotOp s p.toNat x.2 [d.toNat] fun s => result s d.toNat (f s) 1) := by
  simp only [registerOps, List.mem_cons, List.not_mem_nil, or_false] at h
  rcases h with rfl | rfl | rfl | rfl | h
  case inr.inr.inr.inl =>
    refine ⟨_, congrArg Host.Outcome.next (if_neg ?_)⟩
    simpa using hm
  case inr.inr.inr.inr =>
    rcases h with rfl | rfl | rfl | rfl | rfl | rfl
    all_goals exact ⟨_, rfl⟩
  all_goals exact ⟨_, rfl⟩

/-- A divide that is not held leaves the frame of its register. -/
theorem divide_frame {s t : State} {p : BitVec 3} {d a b : BitVec 5} {f : Word → Word → Word}
    (h : SlotReady s p.toNat [a.toNat, b.toNat] [d.toNat]) (ht : divide s p d a b f = t) (hb : t.bun.blocked = false) :
    RegisterFrame s t d.toNat := by
  rw [divide, slotOp_ready h] at ht
  split at ht
  · rw [← ht] at hb
    exact nomatch hb
  · rw [← ht]
    exact registerFrame_divide s _ _ _ _

/-- The first part of O52: the integer instructions. -/
theorem integerOps_frame {s t : State} {p : BitVec 3} {d a b x : BitVec 5} {n : BitVec 12} {w : Bool} {i : Instr}
    (hi : i ∈ twoSourceOps p d a b w ++ oneSourceOps p d a x n w) (h : SlotReady s p.toNat [a.toNat, b.toNat] [d.toNat])
    (ht : exec i s = .next t) (hb : t.bun.blocked = false) : RegisterFrame s t d.toNat := by
  have h1 : SlotReady s p.toNat [a.toNat] [d.toNat] := h.mono (List.cons_subset_cons _ (List.nil_subset _))
  rcases List.mem_append.mp hi with hi | hi
  · rcases exec_twoSource_eq s hi with ⟨l, f, he⟩ | ⟨f, he⟩
    · obtain rfl := Host.Outcome.next.inj (he.symm.trans ht)
      rw [alu2, slotOp_ready h]
      exact registerFrame_result s _ _ _ _
    · exact divide_frame h (Host.Outcome.next.inj (he.symm.trans ht)) hb
  · rcases exec_oneSource_eq s hi with ⟨f, he⟩ | ⟨l, f, he⟩
    · obtain rfl := Host.Outcome.next.inj (he.symm.trans ht)
      rw [alu1, slotOp_ready h1]
      exact registerFrame_result s _ _ _ _
    · obtain rfl := Host.Outcome.next.inj (he.symm.trans ht)
      rw [aluImm, slotOp_ready h1]
      exact registerFrame_result s _ _ _ _

/-! ## Predicates -/

/-- Each instruction on predicates runs its slot, on sources among `ra` and `rb`, to write one. -/
theorem exec_predicateOp_eq (s : State) {p d e f : BitVec 3} {a b : BitVec 5} {n : BitVec 12} {i : Instr}
    (h : i ∈ predicateOps p d e f a b n) :
    ∃ (l : List Nat) (g : State → Bool), l ⊆ [a.toNat, b.toNat] ∧
      exec i s = .next (slotOp s p.toNat l [] fun s => setPred s d.toNat (g s)) := by
  simp only [predicateOps, List.mem_cons, List.not_mem_nil, or_false] at h
  rcases h with rfl | rfl | rfl | rfl | rfl | rfl | h
  case inr.inr.inr.inr.inr.inr =>
    rcases h with rfl | rfl | rfl | h
    case inr.inr.inr =>
      rcases h with rfl | rfl | rfl | rfl | rfl
      all_goals exact ⟨[], _, List.nil_subset _, rfl⟩
    all_goals exact ⟨[a.toNat], _, List.cons_subset_cons _ (List.nil_subset _), rfl⟩
  all_goals exact ⟨[a.toNat, b.toNat], _, List.Subset.refl _, rfl⟩

theorem curSeq_setPred (s : State) (b : Nat) (v : Bool) :
    curSeq (setPred s b v) = { curSeq s with b := (curSeq (setPred s b v)).b } := by
  unfold setPred
  split
  · rfl
  · rw [curSeq_modCur]

/-- A write of one predicate leaves the others. -/
theorem pred_setPred_of_ne (s : State) {b k : Nat} (h : k ≠ b) (v : Bool) : pred (setPred s b v) k = pred s k := by
  unfold setPred
  split
  · rfl
  · rw [pred, pred, curSeq_modCur, vget_vset_of_ne _ _ h]

/-- The part of O52 on compares and predicates. -/
theorem predicateOps_frame {s t : State} {p d e f : BitVec 3} {a b : BitVec 5} {n : BitVec 12} {i : Instr}
    (hi : i ∈ predicateOps p d e f a b n) (h : SlotReady s p.toNat [a.toNat, b.toNat] []) (ht : exec i s = .next t) :
    (∀ x, readByte t.mem x = readByte s.mem x) ∧ (∀ r, reg t r = reg s r) ∧ (∀ k, k ≠ d.toNat → pred t k = pred s k) ∧
      curSeq t = { curSeq s with b := (curSeq t).b } ∧ (∀ k, k ≠ curA s → arr t k = arr s k) ∧
      t = { s with arrs := t.arrs, bun := t.bun } := by
  obtain ⟨l, g, hl, he⟩ := exec_predicateOp_eq s hi
  obtain rfl := Host.Outcome.next.inj (he.symm.trans ht)
  rw [slotOp_ready (h.mono hl)]
  have hs := (markPopped_seqOnly s l).trans (setPred_seqOnly _ d.toNat (g (markPopped s l)))
  have hq := curSeq_setPred (markPopped s l) d.toNat (g (markPopped s l))
  exact ⟨fun _ => by rw [hs.mem_eq], fun r => hs.reg_eq (by rw [hq, curSeq_markPopped]), fun k hk => pred_setPred_of_ne _ hk _, hq,
    hs.other, hs.rest⟩

/-! ## Special state -/

/-- What changes its sequencer and none of its scalar registers, their marks and its predicates leaves the special frame. -/
theorem specialFrame_of {s t : State} (h : SeqOnly s t) (hs : (curSeq t).s = (curSeq s).s) (hp : (curSeq t).poisoned = (curSeq s).poisoned)
    (hb : (curSeq t).b = (curSeq s).b) : SpecialFrame s t :=
  ⟨fun _ => by rw [h.mem_eq], fun _ => ⟨h.reg_eq (by rw [hs]), h.isPoisoned_eq (by rw [hp])⟩, pred_of_b_eq hb, h.own, h.other, h.rest⟩

/-- A change of the running sequencer beside the marks of consumed streams. -/
theorem markPopped_modCur_seqOnly (s : State) (l : List Nat) (f : Seq → Seq) : SeqOnly s (modCur (markPopped s l) f) :=
  (markPopped_seqOnly s l).trans (modCur_seqOnly _ f)

theorem curSeq_markPopped_modCur (s : State) (l : List Nat) (f : Seq → Seq) : curSeq (modCur (markPopped s l) f) = f (curSeq s) :=
  curSeq_modCur _ f

theorem ctlWrite_keeps (q : Seq) (n : Nat) (v : Word) :
    (ctlWrite q n v).s = q.s ∧ (ctlWrite q n v).poisoned = q.poisoned ∧ (ctlWrite q n v).b = q.b := by
  unfold ctlWrite
  split
  case h_9 =>
    split
    · exact ⟨rfl, rfl, rfl⟩
    · split <;> exact ⟨rfl, rfl, rfl⟩
  all_goals exact ⟨rfl, rfl, rfl⟩

/-- The fields that a write of a control register may change. -/
theorem ctlWrite_rest (q : Seq) (n : Nat) (v : Word) :
    ctlWrite q n v = { q with
      fpx := (ctlWrite q n v).fpx, wstall := (ctlWrite q n v).wstall, lc0 := (ctlWrite q n v).lc0, lstg := (ctlWrite q n v).lstg
      lc1 := (ctlWrite q n v).lc1, mepc := (ctlWrite q n v).mepc, mcause := (ctlWrite q n v).mcause, mrec := (ctlWrite q n v).mrec
      pmctl := (ctlWrite q n v).pmctl, mscr := (ctlWrite q n v).mscr, pmc := (ctlWrite q n v).pmc } := by
  unfold ctlWrite
  split
  case h_9 =>
    split
    · rfl
    · split <;> rfl
  all_goals rfl


theorem fpx_ctlWrite {n : Nat} (h : n ≠ 0x001) (q : Seq) (v : Word) : (ctlWrite q n v).fpx = q.fpx := by
  unfold ctlWrite
  repeat' split
  case h_1 => exact absurd rfl h
  all_goals rfl

theorem wstall_ctlWrite {n : Nat} (h : n ≠ 0x004) (q : Seq) (v : Word) : (ctlWrite q n v).wstall = q.wstall := by
  unfold ctlWrite
  repeat' split
  case h_2 => exact absurd rfl h
  all_goals rfl

theorem lc0_ctlWrite {n : Nat} (h : n ≠ 0x020) (q : Seq) (v : Word) : (ctlWrite q n v).lc0 = q.lc0 := by
  unfold ctlWrite
  split
  case h_3 => exact absurd rfl h
  case h_9 => split_ifs <;> rfl
  all_goals rfl

theorem lstg_ctlWrite {n : Nat} (h : n ≠ 0x020) (q : Seq) (v : Word) : (ctlWrite q n v).lstg = q.lstg := by
  unfold ctlWrite
  split
  case h_3 => exact absurd rfl h
  case h_9 => split_ifs <;> rfl
  all_goals rfl

theorem lc1_ctlWrite {n : Nat} (h : n ≠ 0x021) (q : Seq) (v : Word) : (ctlWrite q n v).lc1 = q.lc1 := by
  unfold ctlWrite
  repeat' split
  case h_4 => exact absurd rfl h
  all_goals rfl

theorem mepc_ctlWrite {n : Nat} (h : n ≠ 0x100) (q : Seq) (v : Word) : (ctlWrite q n v).mepc = q.mepc := by
  unfold ctlWrite
  repeat' split
  case h_5 => exact absurd rfl h
  all_goals rfl

theorem mcause_ctlWrite {n : Nat} (h : n ≠ 0x101) (q : Seq) (v : Word) : (ctlWrite q n v).mcause = q.mcause := by
  unfold ctlWrite
  repeat' split
  case h_6 => exact absurd rfl h
  all_goals rfl

theorem mrec_ctlWrite {n : Nat} (h : n ≠ 0x102) (q : Seq) (v : Word) : (ctlWrite q n v).mrec = q.mrec := by
  unfold ctlWrite
  repeat' split
  case h_7 => exact absurd rfl h
  all_goals rfl

theorem pmctl_ctlWrite {n : Nat} (h : n ≠ 0x200) (q : Seq) (v : Word) : (ctlWrite q n v).pmctl = q.pmctl := by
  unfold ctlWrite
  repeat' split
  case h_8 => exact absurd rfl h
  all_goals rfl

theorem mscr_ctlWrite {n j : Nat} (h : j ≠ n) (h1 : 0x103 ≤ j) (q : Seq) (v : Word) :
    vget 0 (ctlWrite q n v).mscr (j - 0x103) = vget 0 q.mscr (j - 0x103) := by
  unfold ctlWrite
  repeat' split
  case h_9.isTrue hn =>
    simp only [Bool.and_eq_true, decide_eq_true_eq] at hn
    exact vget_vset_of_ne _ _ (by omega) _
  all_goals rfl

theorem pmc_ctlWrite {n j : Nat} (h : j ≠ n) (h1 : 0x208 ≤ j) (q : Seq) (v : Word) :
    vget 0 (ctlWrite q n v).pmc (j - 0x208) = vget 0 q.pmc (j - 0x208) := by
  unfold ctlWrite
  repeat' split
  case h_9.isFalse.isTrue hn =>
    simp only [Bool.and_eq_true, decide_eq_true_eq] at hn
    exact vget_vset_of_ne _ _ (by omega) _
  all_goals rfl

/-- STAT follows what the sequencer holds of it, and the ports. -/
theorem statOf_of_ctlWrite {s t : State} (h : SeqOnly s t) {n : Nat} {v : Word} (hq : curSeq t = ctlWrite (curSeq s) n v) (hn : n ≠ 0x020) :
    statOf t = statOf s := by
  have hp (i : Nat) : portAt t (curA t) i = portAt s (curA s) i := by rw [h.curA_eq, h.portAt_eq]
  unfold statOf
  dsimp only
  rw [hq, lstg_ctlWrite hn, ctlWrite_rest]
  simp only [hp]

theorem placeOf_of_ctlWrite {s t : State} (h : SeqOnly s t) {n : Nat} {v : Word} (hq : curSeq t = ctlWrite (curSeq s) n v) :
    placeOf t = placeOf s := by
  unfold placeOf
  dsimp only
  rw [hq, h.curA_eq, ctlWrite_rest]

/-- A write of one control register leaves what the others read: LC0 alone has LSTG and a bit of STAT with it (log 13). -/
theorem ctlRead_of_ctlWrite {s t : State} (h : SeqOnly s t) {n j : Nat} {v : Word} (hq : curSeq t = ctlWrite (curSeq s) n v)
    (hj : j ≠ n) (hs : n = 0x020 → j ≠ 0x002 ∧ j ≠ 0x022) : ctlRead t j = ctlRead s j := by
  unfold ctlRead
  dsimp only
  rw [hq]
  split
  case h_2 => rw [fpx_ctlWrite hj.symm]
  case h_3 => exact statOf_of_ctlWrite h hq fun hn => (hs hn).1 rfl
  case h_4 => rw [h.cyc_eq]
  case h_5 => rw [wstall_ctlWrite hj.symm]
  case h_6 | h_7 => rfl
  case h_13 => rw [outsOf, outsOf, ctlWrite_rest]
  case h_9 => exact placeOf_of_ctlWrite h hq
  case h_14 => rw [lc0_ctlWrite hj.symm]
  case h_15 => rw [lc1_ctlWrite hj.symm]
  case h_16 => rw [lstg_ctlWrite fun hn => (hs hn).2 rfl]
  case h_20 => rw [mepc_ctlWrite hj.symm]
  case h_21 => rw [mcause_ctlWrite hj.symm]
  case h_22 => rw [mrec_ctlWrite hj.symm]
  case h_23 => rw [pmctl_ctlWrite hj.symm]
  case h_24 =>
    split
    case isTrue hr => exact mscr_ctlWrite hj (of_decide_eq_true (Bool.and_eq_true_iff.mp hr).1) _ _
    case isFalse =>
      split
      case isTrue hr => exact pmc_ctlWrite hj (of_decide_eq_true (Bool.and_eq_true_iff.mp hr).1) _ _
      case isFalse => rfl
  all_goals rw [ctlWrite_rest]

/-- The part of O52 on the other instructions that write a register. -/
theorem registerOps_frame {s t : State} {p c w k : BitVec 3} {d a b : BitVec 5} {i : BitVec 17} {n : BitVec 12} {x : Instr × List Nat}
    (hx : x ∈ registerOps p c w k d a b i n) (h : SlotReady s p.toNat x.2 [d.toNat])
    (hm : ctlPriv n.toNat = true → (curSeq s).mon = true) (ht : exec x.1 s = .next t) : RegisterFrame s t d.toNat := by
  obtain ⟨f, he⟩ := exec_registerOp_eq s hx hm
  obtain rfl := Host.Outcome.next.inj (he.symm.trans ht)
  rw [slotOp_ready h]
  exact registerFrame_result s _ _ _ _

theorem curSeq_lock (s : State) (n c : Nat) : curSeq (lock s n c) = { curSeq s with locks := (curSeq (lock s n c)).locks } := by
  unfold lock
  split
  · rfl
  · rw [curSeq_modCur]

theorem specialFrame_modCur (s : State) (l : List Nat) {f : Seq → Seq} (hs : (f (curSeq s)).s = (curSeq s).s)
    (hp : (f (curSeq s)).poisoned = (curSeq s).poisoned) (hb : (f (curSeq s)).b = (curSeq s).b) :
    SpecialFrame s (modCur (markPopped s l) f) := by
  have hq := curSeq_markPopped_modCur s l f
  exact specialFrame_of (markPopped_modCur_seqOnly s l f) (hq ▸ hs) (hq ▸ hp) (hq ▸ hb)

/-- MTC leaves what its register does not name. -/
theorem mtc_frame {s t : State} {p : BitVec 3} {a : BitVec 5} {n : BitVec 12} (h : SlotReady s p.toNat [a.toNat] [])
    (hm : ctlPriv n.toNat = true → (curSeq s).mon = true) (hv : n = 0x200 → pmctlOk (reg s a.toNat) = true)
    (ht : exec (.mtc p a n) s = .next t) :
    SpecialFrame s t ∧ curSeq t = ctlWrite (curSeq s) n.toNat (reg s a.toNat) ∧
      ∀ j, j ≠ n.toNat → (n = 0x020 → j ≠ 0x002 ∧ j ≠ 0x022) → ctlRead t j = ctlRead s j := by
  have hm' : (ctlPriv n.toNat && !(curSeq s).mon) = false := by
    cases hc : ctlPriv n.toNat with
    | false => rfl
    | true => rw [hm hc]; rfl
  have hv' : (decide (n.toNat = 0x200) && !pmctlOk (reg s a.toNat)) = false := by
    cases hc : decide (n.toNat = 0x200) with
    | false => rfl
    | true => rw [hv (BitVec.eq_of_toNat_eq (of_decide_eq_true hc))]; rfl
  have he : exec (.mtc p a n) s = .next (modCur (markPopped s [a.toNat]) fun q => ctlWrite q n.toNat (reg s a.toNat)) :=
    congrArg Host.Outcome.next ((if_neg (Bool.eq_false_iff.mp hm')).trans ((slotOp_ready h _).trans (if_neg (Bool.eq_false_iff.mp hv'))))
  obtain rfl := Host.Outcome.next.inj (he.symm.trans ht)
  have hq := curSeq_markPopped_modCur s [a.toNat] fun q => ctlWrite q n.toNat (reg s a.toNat)
  obtain ⟨hks, hkp, hkb⟩ := ctlWrite_keeps (curSeq s) n.toNat (reg s a.toNat)
  exact ⟨specialFrame_modCur s _ hks hkp hkb, hq, fun j hj hn =>
    ctlRead_of_ctlWrite (markPopped_modCur_seqOnly s _ _) hq hj fun h2 => hn (BitVec.eq_of_toNat_eq h2)⟩

/-- SETFMT changes the values on their way to FMT alone. -/
theorem setfmt_frame {s t : State} {p : BitVec 3} {a : BitVec 5} (h : SlotReady s p.toNat [a.toNat] [])
    (hf : fmtOk (reg s a.toNat) = true) (ht : exec (.setfmt p a) s = .next t) :
    SpecialFrame s t ∧ curSeq t = { curSeq s with fmt := (curSeq t).fmt } ∧ (curSeq t).fmt.inForce = (curSeq s).fmt.inForce := by
  have hg : (!fmtOk (reg s a.toNat)) = false := by rw [hf]; rfl
  have he : exec (.setfmt p a) s = .next (modCur (markPopped s [a.toNat]) fun q =>
      { q with fmt := { q.fmt with pending := q.fmt.pending ++ [(reg s a.toNat, 4)] } }) :=
    congrArg Host.Outcome.next ((slotOp_ready h _).trans (if_neg (Bool.eq_false_iff.mp hg)))
  obtain rfl := Host.Outcome.next.inj (he.symm.trans ht)
  refine ⟨specialFrame_modCur s _ rfl rfl rfl, ?_⟩
  rw [curSeq_markPopped_modCur]
  exact ⟨rfl, rfl⟩

/-- A change of one selector pair leaves the others. -/
theorem selPair_frame (s : State) (l : List Nat) (w : Nat) (f : SelPair → SelPair) {t : State}
    (ht : modCur (markPopped s l) (fun q => { q with w := vmod {} q.w w f }) = t) :
    SpecialFrame s t ∧ curSeq t = { curSeq s with w := (curSeq t).w } ∧ ∀ j, j ≠ w → selPair t j = selPair s j := by
  have hq := curSeq_markPopped_modCur s l fun q => { q with w := vmod {} q.w w f }
  rw [ht] at hq
  have hf := specialFrame_modCur s l (f := fun q => { q with w := vmod {} q.w w f }) rfl rfl rfl
  rw [ht] at hf
  refine ⟨hf, ?_, fun j hj => ?_⟩
  · rw [hq]
  · rw [selPair, hq]
    exact vget_vset_of_ne _ _ hj _

/-- A new translation under way, with an interlock, leaves the rest. -/
theorem xlats_frame (s : State) (l : List Nat) (x : Nat × Nat × Word) (n c : Nat) :
    let t : State := lock (modCur (markPopped s l) fun q => { q with xlats := q.xlats ++ [x] }) n c
    SpecialFrame s t ∧ curSeq t = { curSeq s with xlats := (curSeq t).xlats, locks := (curSeq t).locks } := by
  intro t
  have ht : curSeq t = { curSeq s with xlats := (curSeq t).xlats, locks := (curSeq t).locks } := by
    have hl := curSeq_lock (modCur (markPopped s l) fun q => { q with xlats := q.xlats ++ [x] }) n c
    rw [curSeq_markPopped_modCur] at hl
    rw [show curSeq t = _ from hl]
  have hx : SeqOnly s t := (markPopped_modCur_seqOnly s l _).trans (lock_seqOnly _ n c)
  exact ⟨specialFrame_of hx (by rw [ht]) (by rw [ht]) (by rw [ht]), ht⟩

/-- XLAT changes what is due for its handle, and its interlock, alone. -/
theorem xlat_frame {s t : State} {p : BitVec 3} {h : BitVec 4} {a : BitVec 5} (hr : SlotReady s p.toNat [a.toNat] [])
    (hm : h = 15 → (curSeq s).mon = true) (ht : exec (.xlat p h a) s = .next t) :
    SpecialFrame s t ∧ curSeq t = { curSeq s with xlats := (curSeq t).xlats, locks := (curSeq t).locks } := by
  have hg : (decide (h = 15) && !(curSeq s).mon) = false := by
    cases hc : decide (h = 15) with
    | false => rfl
    | true => rw [hm (of_decide_eq_true hc)]; rfl
  have he : exec (.xlat p h a) s = .next (lock (modCur (markPopped s [a.toNat]) fun q =>
      { q with xlats := q.xlats ++ [(s.cyc + 16, h.toNat, reg s a.toNat)] }) (40 + h.toNat) (s.cyc + 16)) :=
    congrArg Host.Outcome.next ((if_neg (Bool.eq_false_iff.mp hg)).trans (slotOp_ready hr _))
  obtain rfl := Host.Outcome.next.inj (he.symm.trans ht)
  exact xlats_frame s _ _ _ _

/-- HINV changes its handle alone, or that of the code once it is due. -/
theorem hinv_frame {s t : State} {p : BitVec 3} {h : BitVec 4} (hr : SlotReady s p.toNat [] []) (ht : exec (.hinv p h) s = .next t) :
    SpecialFrame s t ∧ curSeq t = { curSeq s with h := (curSeq t).h, codeInval := (curSeq t).codeInval } ∧
      ∀ j, j ≠ h.toNat → handle t j = handle s j := by
  by_cases h15 : h = 15
  · have he : exec (.hinv p h) s = .next (modCur (markPopped s []) fun q => { q with codeInval := true }) :=
      congrArg Host.Outcome.next ((slotOp_ready hr _).trans (if_pos h15))
    obtain rfl := Host.Outcome.next.inj (he.symm.trans ht)
    refine ⟨specialFrame_modCur s _ rfl rfl rfl, ?_, fun j _ => ?_⟩
    · rw [curSeq_markPopped_modCur]
    · rw [handle, curSeq_markPopped_modCur]
      rfl
  · have he : exec (.hinv p h) s = .next (modCur (markPopped s []) fun q =>
        { q with h := vmod {} q.h h.toNat fun x => { x with st := .invalid, leaf := 0, cause := 0 } }) :=
      congrArg Host.Outcome.next ((slotOp_ready hr _).trans (if_neg h15))
    obtain rfl := Host.Outcome.next.inj (he.symm.trans ht)
    refine ⟨specialFrame_modCur s _ rfl rfl rfl, ?_, fun j hj => ?_⟩
    · rw [curSeq_markPopped_modCur]
    · rw [handle, curSeq_markPopped_modCur]
      exact vget_vset_of_ne _ _ hj _

/-! ## Cells -/

/-- State `t` differs from `s` at most in what cells hold and the cursor has gathered; of the registers of cells, with their marks,
only those that `p` names. -/
structure CellOnly (p : Nat → Prop) (s t : State) : Prop where
  rest : t = { s with
    frags := t.frags, sides := t.sides, flags := t.flags, gens := t.gens, chist := t.chist, cell := t.cell
    cellEcc := t.cellEcc, cellPoison := t.cellPoison, errs := t.errs }
  place : curCell t = curCell s
  frags : ∀ k, ¬p k → tget 0 t.frags k = tget 0 s.frags k
  marks : ∀ k, ¬p (k / 32) → tget false t.cellEcc k = tget false s.cellEcc k ∧ tget false t.cellPoison k = tget false s.cellPoison k

section
variable {p : Nat → Prop} {s t u : State}

theorem CellOnly.trans (h : CellOnly p s t) (k : CellOnly p t u) : CellOnly p s u where
  rest := by
    rw [k.rest, h.rest]
  place := k.place.trans h.place
  frags n hn := (k.frags n hn).trans (h.frags n hn)
  marks n hn := ⟨(k.marks n hn).1.trans (h.marks n hn).1, (k.marks n hn).2.trans (h.marks n hn).2⟩

theorem CellOnly.refl (p : Nat → Prop) (s : State) : CellOnly p s s := ⟨rfl, rfl, fun _ _ => rfl, fun _ _ => ⟨rfl, rfl⟩⟩

theorem setF_cellOnly (p : Nat → Prop) (s : State) (n : Nat) (x : Word) : CellOnly p s (setF s n x) :=
  ⟨rfl, rfl, fun _ _ => rfl, fun _ _ => ⟨rfl, rfl⟩⟩

theorem setG_cellOnly (p : Nat → Prop) (s : State) (n : Nat) (x : BitVec 32) : CellOnly p s (setG s n x) :=
  ⟨rfl, rfl, fun _ _ => rfl, fun _ _ => ⟨rfl, rfl⟩⟩

theorem raiseFlags_cellOnly (p : Nat → Prop) (s : State) (x : Flags) : CellOnly p s (raiseFlags s x) :=
  ⟨rfl, rfl, fun _ _ => rfl, fun _ _ => ⟨rfl, rfl⟩⟩

/-- The cursor gathers beside what cells hold. -/
theorem cursor_cellOnly (p : Nat → Prop) (s : State) (b : Bool) (l : List Nat) :
    CellOnly p s { s with cell := { s.cell with takesPart := b, pushes := l } } := ⟨rfl, rfl, fun _ _ => rfl, fun _ _ => ⟨rfl, rfl⟩⟩

theorem countErr_cellOnly (p : Nat → Prop) (s : State) (n : Nat) (b : Bool) : CellOnly p s (countErr s n b) :=
  ⟨rfl, rfl, fun _ _ => rfl, fun _ _ => ⟨rfl, rfl⟩⟩

theorem countFound_cellOnly (p : Nat → Prop) (s : State) (f : FaultInfo) : CellOnly p s (countFound s f) := by
  unfold countFound
  split
  · exact .refl p s
  · exact List.foldlRecOn _ _ (.refl p s) fun _ h _ _ => h.trans (countErr_cellOnly p _ _ _)

theorem takeLoc_cellOnly (p : Nat → Prop) (s : State) (f : FaultInfo) : CellOnly p s (takeLoc s f) := by
  unfold takeLoc
  dsimp only
  split
  · exact (setF_cellOnly p s _ _).trans ⟨rfl, rfl, fun _ _ => rfl, fun _ _ => ⟨rfl, rfl⟩⟩
  · exact ⟨rfl, rfl, fun _ _ => rfl, fun _ _ => ⟨rfl, rfl⟩⟩

theorem tget_filter {V : Type} (d : V) (t : Tab V) (f : Nat → Bool) {k : Nat} (hk : f k = true) :
    tget d (t.filter fun e => f e.1) k = tget d t k := by
  induction t with
  | nil => rfl
  | cons e t ih =>
    obtain ⟨n, v⟩ := e
    by_cases hn : n = k
    · rw [List.filter_cons_of_pos (p := fun e : Nat × V => f e.1) (by rw [hn]; exact hk), tget, tget, if_pos hn, if_pos hn]
    · rw [tget, if_neg hn]
      by_cases hf : f n = true
      · rw [List.filter_cons_of_pos (p := fun e : Nat × V => f e.1) hf, tget, if_neg hn, ih]
      · rw [List.filter_cons_of_neg (p := fun e : Nat × V => f e.1) hf, ih]

theorem clearEcc_cellOnly {code : Nat} (h : p (cellKey (curCell s) code)) : CellOnly p s (clearEcc s code) := by
  refine ⟨rfl, rfl, fun _ _ => rfl, fun k hk => ?_⟩
  have hd : decide (k / 32 ≠ cellKey (curCell s) code) = true := decide_eq_true fun he => hk (he ▸ h)
  exact ⟨tget_filter false s.cellEcc (fun n => decide (n / 32 ≠ cellKey (curCell s) code)) hd,
    tget_filter false s.cellPoison (fun n => decide (n / 32 ≠ cellKey (curCell s) code)) hd⟩

theorem setFrag_cellOnly {n code : Nat} (h : p (cellKey n code)) (s : State) (f : Frag) : CellOnly p s (setFrag s n code f) :=
  ⟨rfl, rfl, fun _ hk => tget_tset_of_ne _ _ _ fun he => hk (he ▸ h), fun _ _ => ⟨rfl, rfl⟩⟩

theorem writeReg_cellOnly {code : Nat} (h : p (cellKey (curCell s) code)) (f : Frag) (x : Side) : CellOnly p s (writeReg s code f x) := by
  have hs := (clearEcc_cellOnly h).trans (setFrag_cellOnly h (clearEcc s code) f)
  unfold writeReg
  dsimp only
  split <;> split
  all_goals exact hs.trans ⟨rfl, rfl, fun _ _ => rfl, fun _ _ => ⟨rfl, rfl⟩⟩

/-- The registers of its cell that a fragment result with destination `d` writes (R138, R139). -/
def resultKeys (s : State) (d : Nat) (c : Bool) (k : Nat) : Prop :=
  k = cellKey (curCell s) d ∨ k = cellKey (curCell s) codeL ∨ (c = true ∧ k = cellKey (curCell s) codeC)

theorem writeResult_cellOnly {d : Nat} {c : Bool} (h : CellOnly (resultKeys s d c) s t) (r : Frag) (x : Side) (f : Bool) :
    CellOnly (resultKeys s d c) s (writeResult t d r x c f) := by
  have hw {u : State} (k : CellOnly (resultKeys s d c) s u) {code : Nat} (hc : resultKeys s d c (cellKey (curCell s) code)) (x : Side) :
      CellOnly (resultKeys s d c) s (writeReg u code r x) := k.trans (writeReg_cellOnly (by rw [k.place]; exact hc) r x)
  have h1 := hw h (.inl rfl) x
  unfold writeResult
  dsimp only
  have h2 : CellOnly (resultKeys s d c) s (if d = codeL then writeReg t d r x else writeReg (writeReg t d r x) codeL r 0) := by
    split
    · exact h1
    · exact hw h1 (.inr (.inl rfl)) 0
  have h3 : CellOnly (resultKeys s d c) s (if c = true then writeReg (if d = codeL then writeReg t d r x else
      writeReg (writeReg t d r x) codeL r 0) codeC r (if hasSide d then x else 0) else
        if d = codeL then writeReg t d r x else writeReg (writeReg t d r x) codeL r 0) := by
    split
    case isTrue hc => exact hw h2 (.inr (.inr ⟨hc, rfl⟩)) _
    case isFalse => exact h2
  split
  · exact h3.trans ⟨rfl, rfl, fun _ _ => rfl, fun _ _ => ⟨rfl, rfl⟩⟩
  · exact h3

/-- A slot that reads its operands leaves what its answer leaves. -/
theorem withLanes_cellOnly {codes : List Nat} {m : List Frag → List (BitVec 32)} {k : List Popped → State}
    (h : ∀ xs, CellOnly p s (k xs)) : CellOnly p s (withLanes s codes m k) := by
  unfold withLanes
  dsimp only
  split
  · exact (countFound_cellOnly p s _).trans (takeLoc_cellOnly p _ _)
  · exact h _

theorem slotRun_cellOnly {k : State → State} (h : CellOnly p s (k s)) : CellOnly p s (slotRun s k) := by
  unfold slotRun
  split
  · exact h
  · exact .refl p s

theorem runVecOn_cellOnly (s : State) (srcs : List Nat) (m : List Frag → List (BitVec 32)) (d : Nat) (c f : Bool) (h : VecFn) :
    CellOnly (resultKeys s d c) s (runVecOn s srcs m d c f h) :=
  slotRun_cellOnly (withLanes_cellOnly fun _ => writeResult_cellOnly ((setG_cellOnly _ s _ _).trans (raiseFlags_cellOnly _ _ _)) _ _ _)

theorem runImm_cellOnly (s : State) (a b d : BitVec 6) (c f m : Bool) (imm : BitVec 6 → Lane) (g : Lane → Lane → Lane) :
    CellOnly (resultKeys s d.toNat c) s (runImm s a b d c f m imm g) := by
  unfold runImm
  split
  · exact runVecOn_cellOnly s _ _ _ _ _ _
  · exact runVecOn_cellOnly s _ _ _ _ _ _

variable {d a b : BitVec 6} {w : BitVec 3} {c f m : Bool}

theorem vbcast_cellOnly : ∃ v, exec (.vbcast d a b w c f m) s = .next v ∧ CellOnly (resultKeys s d.toNat c) s v := by
  refine ⟨_, rfl, ?_⟩
  split
  · exact runVecOn_cellOnly s _ _ _ _ _ _
  · exact runVecOn_cellOnly s _ _ _ _ _ _

theorem mov_cellOnly : ∃ v, exec (.mov d a b w c f m) s = .next v ∧ CellOnly (resultKeys s d.toNat c) s v := by
  refine ⟨_, rfl, slotRun_cellOnly (withLanes_cellOnly fun xs => ?_)⟩
  have h := writeResult_cellOnly (.refl (resultKeys s d.toNat c) s) (xs.getD 0 {}).frag (xs.getD 0 {}).side f
  dsimp only
  split
  · exact h.trans ⟨rfl, rfl, fun _ _ => rfl, fun _ _ => ⟨rfl, rfl⟩⟩
  · exact h

theorem flag_cellOnly : ∃ v, exec (.flag d a b w c) s = .next v ∧ CellOnly (resultKeys s d.toNat c) s v :=
  ⟨_, rfl, slotRun_cellOnly (withLanes_cellOnly fun _ =>
    writeResult_cellOnly ((setF_cellOnly _ s _ _).trans (cursor_cellOnly _ _ true _)) _ _ _)⟩

/-- A cell instruction on lanes is one vector instruction, or VBCAST. -/
theorem cellLaneOps_cellOnly {i : Instr} (hi : i ∈ cellLaneOps d a b w c f m) :
    ∃ v, exec i s = .next v ∧ CellOnly (resultKeys s d.toNat c) s v := by
  simp only [cellLaneOps, List.mem_cons, List.not_mem_nil, or_false] at hi
  rcases hi with rfl | rfl | rfl | rfl | rfl | rfl | rfl | rfl | rfl | rfl | rfl | rfl | rfl | rfl | rfl | rfl | rfl | rfl | rfl | rfl | rfl
  case inr.inr.inr.inr.inr.inr.inr.inr.inr.inr.inr.inr.inr.inr.inr.inr.inr.inr.inr.inr => exact vbcast_cellOnly
  all_goals exact ⟨_, rfl, runVecOn_cellOnly s _ _ _ _ _ _⟩

/-- The other cell instructions are a vector instruction, one with an immediate form, MOV, or FLAG. -/
theorem cellWordOps_cellOnly {i : Instr} (hi : i ∈ cellWordOps d a b w c f m) :
    ∃ v, exec i s = .next v ∧ CellOnly (resultKeys s d.toNat c) s v := by
  simp only [cellWordOps, List.mem_append, List.mem_cons, List.not_mem_nil, or_false] at hi
  rcases hi with hi | rfl | rfl | rfl | rfl | rfl | hi
  case inl =>
    rcases hi with rfl | rfl | rfl | rfl | rfl | rfl | rfl | rfl | rfl | rfl | rfl | rfl | rfl
    all_goals exact ⟨_, rfl, runVecOn_cellOnly s _ _ _ _ _ _⟩
  case inr.inl | inr.inr.inl => exact ⟨_, rfl, runImm_cellOnly s _ _ _ _ _ _ _ _⟩
  case inr.inr.inr.inr.inr.inr =>
    rcases hi with rfl | rfl | rfl | rfl | rfl | rfl | rfl | rfl | rfl | rfl | rfl | rfl | rfl | hi
    case inr.inr.inr.inr.inr.inr.inr.inr.inr.inr.inr.inr.inr =>
      rcases hi with rfl | rfl | rfl | rfl
      · exact mov_cellOnly
      · exact flag_cellOnly
      all_goals exact ⟨_, rfl, runVecOn_cellOnly s _ _ _ _ _ _⟩
    case inr.inr.inr.inr.inr.inr.inr.inr.inr.inr.inr.inr.inl => exact ⟨_, rfl, runVecOn_cellOnly s _ _ _ _ _ _⟩
    all_goals exact ⟨_, rfl, runImm_cellOnly s _ _ _ _ _ _ _ _⟩
  all_goals exact ⟨_, rfl, runVecOn_cellOnly s _ _ _ _ _ _⟩

/-- The part of O52 on cells. -/
theorem cellOps_frame {i : Instr} (hi : i ∈ cellLaneOps d a b w c f m ++ cellWordOps d a b w c f m) (ht : exec i s = .next t) :
    CellOnly (resultKeys s d.toNat c) s t := by
  rcases List.mem_append.mp hi with hi | hi
  · obtain ⟨v, he, h⟩ := cellLaneOps_cellOnly (s := s) hi
    exact Host.Outcome.next.inj (he.symm.trans ht) ▸ h
  · obtain ⟨v, he, h⟩ := cellWordOps_cellOnly (s := s) hi
    exact Host.Outcome.next.inj (he.symm.trans ht) ▸ h

theorem not_resultKeys {d k : Nat} {c : Bool} (h1 : k ≠ 64 * curCell s + d) (h2 : k ≠ 64 * curCell s + codeL)
    (h3 : c = true → k ≠ 64 * curCell s + codeC) : ¬resultKeys s d c k := by
  have hk (x : Nat) : cellKey (curCell s) x = 64 * curCell s + x := by rw [cellKey, Nat.mul_comm]
  unfold resultKeys
  rw [hk, hk, hk]
  exact fun h => h.elim h1 fun h => h.elim h2 fun h => h3 h.1 h.2

end

/-- Settles O52: a slot that writes a register or a predicate changes its sequencer there alone, and a fragment result the registers
of its cell that it names. -/
theorem registerInstructionsFrame : Obligations.RegisterInstructionsFrame :=
  ⟨fun _ _ _ _ _ _ _ _ _ _ hi h ht hb => integerOps_frame hi h ht hb,
    fun _ _ _ _ _ _ _ _ _ _ _ _ hx h hm ht => registerOps_frame hx h hm ht,
    fun s _ _ w _ a _ _ _ _ _ =>
      ⟨fun h => ⟨mtc_frame h, setfmt_frame h, fun ht => ht.elim
          (fun ht => selPair_frame s [a.toNat] w.toNat _ ((next_slotOp_ready h _).symm.trans ht |> Host.Outcome.next.inj))
          fun ht => selPair_frame s [a.toNat] w.toNat _ ((next_slotOp_ready h _).symm.trans ht |> Host.Outcome.next.inj),
        xlat_frame h⟩, hinv_frame⟩,
    fun _ _ _ _ _ _ _ _ _ _ hi h ht => predicateOps_frame hi h ht,
    fun s t d _ _ _ c _ _ _ hi ht => by
      have h := cellOps_frame hi ht
      exact ⟨fun _ => by rw [h.rest], by rw [h.rest], fun k h1 h2 h3 => h.frags k (not_resultKeys h1 h2 h3), h.rest,
        fun k h1 h2 h3 => h.marks k (not_resultKeys h1 h2 h3)⟩⟩

end Sys2Proof.Machine
end
section
/-! Canonical memory, function by function: what each part of a step does to memory is a composition of writes that keep the canonical
form. This file has the closure rules and the memory layer. -/

namespace Sys2Proof.Machine

variable {s t : State}

/-! ## Rules -/

/-- A state with the same memory. -/
theorem State.MemCanonical.congr (h : s.MemCanonical) (hm : t.mem = s.mem) : t.MemCanonical := by
  unfold State.MemCanonical
  rw [hm]
  exact h

theorem State.MemCanonical.of_fst {β : Type} {p : State × β} {b : β} (h : p.1.MemCanonical) (hp : p = (t, b)) : t.MemCanonical := by
  rw [hp] at h
  exact h

theorem canonical_ite {c : Prop} [Decidable c] (h : s.MemCanonical) (k : t.MemCanonical) : (if c then s else t).MemCanonical := by
  split
  · exact h
  · exact k

theorem canonical_foldl {α : Type} {f : State → α → State} {l : List α} (hf : ∀ s x, s.MemCanonical → (f s x).MemCanonical)
    (h : s.MemCanonical) : (l.foldl f s).MemCanonical := List.foldlRecOn l f h fun s hs x _ => hf s x hs

theorem canonical_foldl_fst {α β : Type} {f : State × β → α → State × β} {l : List α} {p : State × β}
    (hf : ∀ p x, p.1.MemCanonical → (f p x).1.MemCanonical) (h : p.1.MemCanonical) : (l.foldl f p).1.MemCanonical :=
  List.foldlRecOn l f (motive := fun p => p.1.MemCanonical) h fun p hp x _ => hf p x hp

theorem canonical_ite_fst {β : Type} {c : Prop} [Decidable c] {p q : State × β} (h : p.1.MemCanonical) (k : q.1.MemCanonical) :
    (if c then p else q).1.MemCanonical := by
  split
  · exact h
  · exact k

/-- Every next state of an outcome is canonical. -/
def NextCanonical (m : MOut) : Prop := ∀ t, m = .next t → t.MemCanonical

theorem next_canonical (h : s.MemCanonical) : NextCanonical (.next s) := fun _ ht => Host.Outcome.next.inj ht ▸ h

/-- The state in which what a step does begins is canonical. -/
def StepCanonical : Next → Prop
  | .frozen => True
  | .event _ t | .turn _ t | .tick t => t.MemCanonical

theorem markPoison_canonical {a n : Nat} (h : s.MemCanonical) : (markPoison s a n).MemCanonical := h.congr (mem_markPoison s a n)

theorem homeSticky_canonical {pa p : Nat} {fl : Flags} (h : s.MemCanonical) : (homeSticky s pa p fl).MemCanonical :=
  h.congr (mem_homeSticky s pa p fl)

theorem countHome_canonical {a pa : Nat} (h : s.MemCanonical) : (countHome s a pa).MemCanonical := h.congr (mem_countHome s a pa)

/-- What KEY_LOAD makes of the table of keys is not memory. -/
theorem done_keys_canonical {k : Tab (BitVec 512)} (h : s.MemCanonical) : (done { s with keys := k } 0).1.MemCanonical := h

/-! ## Cells, translation, homes, the journal and what is outstanding -/

theorem countErr_canonical {u : Nat} {ue : Bool} (hs : s.MemCanonical) : (countErr s u ue).MemCanonical := by
  unfold countErr
  dsimp only
  exact hs

theorem slotRun_canonical {k : State → State} (hs : s.MemCanonical)
    (hk : ∀ u, u.MemCanonical → (k u).MemCanonical) : (slotRun s k).MemCanonical :=
  canonical_ite (hk _ hs) hs

theorem countFound_canonical {f : FaultInfo} (hs : s.MemCanonical) : (countFound s f).MemCanonical :=
  canonical_ite hs (canonical_foldl (fun _ _ hu => countErr_canonical hu) hs)

theorem takeLoc_canonical {f : FaultInfo} (hs : s.MemCanonical) : (takeLoc s f).MemCanonical := canonical_ite hs hs

theorem locFault_canonical {f : FaultInfo} (hs : s.MemCanonical) : (locFault s f).MemCanonical :=
  takeLoc_canonical (countFound_canonical hs)

theorem withLanes_canonical {codes : List Nat} {m : List Frag → List (BitVec 32)} {k : List Popped → State} (hs : s.MemCanonical)
    (hk : ∀ x0, (k x0).MemCanonical) : (withLanes s codes m k).MemCanonical := by
  unfold withLanes
  dsimp only
  split
  · exact locFault_canonical hs
  · exact hk _

theorem withOps_canonical {codes : List Nat} {k : List Popped → State} (hs : s.MemCanonical)
    (hk : ∀ x0, (k x0).MemCanonical) : (withOps s codes k).MemCanonical :=
  withLanes_canonical hs (fun _ => hk _)

theorem writeReg_canonical {code : Nat} {f : Frag} {x : Side} (hs : s.MemCanonical) : (writeReg s code f x).MemCanonical :=
  canonical_ite (canonical_ite hs hs) (canonical_ite hs hs)

theorem setCellFlags_canonical {f : Frag} (hs : s.MemCanonical) : (setCellFlags s f).MemCanonical := hs

theorem writeResult_canonical {dst : Nat} {r : Frag} {x : Side} {c f : Bool} (hs : s.MemCanonical) :
    (writeResult s dst r x c f).MemCanonical := by
  have h1 : (writeReg s dst r x).MemCanonical := writeReg_canonical hs
  have h2 : (if dst = codeL then writeReg s dst r x else writeReg (writeReg s dst r x) codeL r 0).MemCanonical :=
    canonical_ite h1 (writeReg_canonical h1)
  exact canonical_ite (setCellFlags_canonical (canonical_ite (writeReg_canonical h2) h2)) (canonical_ite (writeReg_canonical h2) h2)

theorem runVecOn_canonical {srcs : List Nat} {m : List Frag → List (BitVec 32)} {dst : Nat} {c f : Bool} {h : VecFn}
    (hs : s.MemCanonical) : (runVecOn s srcs m dst c f h).MemCanonical := by
  unfold runVecOn
  dsimp only
  exact slotRun_canonical hs (fun _ hu => withLanes_canonical hu (fun _ => writeResult_canonical hu))

theorem runVec_canonical {srcs : List Nat} {dst : Nat} {c f : Bool} {h : VecFn} (hs : s.MemCanonical) :
    (runVec s srcs dst c f h).MemCanonical :=
  runVecOn_canonical hs

theorem runImm_canonical {a b d : BitVec 6} {c f m : Bool} {imm : BitVec 6 → Lane} {g : Lane → Lane → Lane} (hs : s.MemCanonical) :
    (runImm s a b d c f m imm g).MemCanonical :=
  canonical_ite (runVec_canonical hs) (runVec_canonical hs)

theorem writeWords_canonical {l : List (Nat × BitVec 32)} (hs : s.MemCanonical) : (writeWords s l).MemCanonical := by
  induction l generalizing s with
  | nil => exact hs
  | cons e l ih => exact ih (writeW32_canonical _ _ hs)

theorem storeHeads_canonical {t : Tile} {base i : Nat} {x : Side} (hs : s.MemCanonical) :
    (storeHeads s t base i x).MemCanonical := by
  unfold storeHeads
  refine canonical_ite hs (canonical_foldl ?_ hs)
  intro x0 x1 hu
  split
  · exact hu
  · exact wf_writeNat _ _ _ hu

theorem noHazard_canonical {a : Nat} {k : State} (hs : s.MemCanonical) (hk : k.MemCanonical) : (noHazard s a k).MemCanonical := by
  unfold noHazard
  split
  · exact locFault_canonical hs
  · exact hk

theorem chainHazard_canonical {a : Nat} {int : Bool} {k : State} (hs : s.MemCanonical) (hk : k.MemCanonical) :
    (chainHazard s a int k).MemCanonical := by
  unfold chainHazard
  split
  · exact canonical_ite (locFault_canonical hs) hk
  · exact hk

theorem noteAcc_canonical {a : Nat} {int : Bool} (hs : s.MemCanonical) : (noteAcc s a int).MemCanonical := hs

theorem runMma_canonical {d a b : Nat} {neg hi : Bool} (hs : s.MemCanonical) : (runMma s d a b neg hi).MemCanonical := by
  unfold runMma
  dsimp only
  exact slotRun_canonical hs (fun _ hu => withLanes_canonical hu (fun _ => chainHazard_canonical hu
      (noteAcc_canonical (writeReg_canonical hu))))

theorem optCount_canonical {s0 : State} {w a m : Nat} (hs : s.MemCanonical) : (optCount s0 s w a m).MemCanonical :=
  canonical_foldl (fun _ _ hu => canonical_foldl (fun _ _ hv => countErr_canonical hv) hu) hs

theorem walkTouch_canonical {p : Nat} {va : Word} (hs : s.MemCanonical) : (walkTouch s p va).MemCanonical :=
  touchAll_canonical _ _ _ (canonical_foldl (fun _ _ hu => markPoison_canonical hu) hs)

theorem countMiss_canonical {a : Nat} {walked : Bool} (hs : s.MemCanonical) :
    (countMiss s a walked).MemCanonical := canonical_ite hs hs

theorem tlbFill_canonical {a p va : Nat} {leaf : Word} (hs : s.MemCanonical) : (tlbFill s a p va leaf).MemCanonical := hs

theorem walkFill_canonical {a p : Nat} {va : Word} (hs : s.MemCanonical) : (walkFill s a p va).1.MemCanonical := by
  unfold walkFill
  split
  · exact tlbFill_canonical (walkTouch_canonical hs)
  · exact walkTouch_canonical hs

theorem translate_canonical {a p : Nat} {va : Word} (hs : s.MemCanonical) : (translate s a p va).1.MemCanonical := by
  unfold translate
  refine canonical_ite_fst hs ?_
  split
  · exact canonical_ite hs (countMiss_canonical hs)
  · exact walkFill_canonical (countMiss_canonical hs)

theorem countFlits_canonical {a n k : Nat} (hs : s.MemCanonical) : (countFlits s a n k).MemCanonical := canonical_ite hs hs

theorem countTrip_canonical {a pa : Nat} (hs : s.MemCanonical) : (countTrip s a pa).MemCanonical := by
  unfold countTrip
  split
  · exact hs
  · exact countFlits_canonical hs

theorem homeBytes_canonical {p a n v : Nat} (hs : s.MemCanonical) : (homeBytes s p a n v).MemCanonical :=
  putBytes_canonical _ _ _ (touchAll_canonical _ _ _ hs)

theorem homeCells_canonical {p : Nat} {l : List Host.Cell} {bad : List Nat} (hs : s.MemCanonical) :
    (homeCells s p l bad).MemCanonical :=
  putCells_canonical _ _ (touchAll_canonical _ _ _ hs)

theorem modArr_canonical {a : Nat} {f : Arr → Arr} (hs : s.MemCanonical) : (modArr s a f).MemCanonical := hs

theorem writeBackAll_canonical {a : Nat} {p : CacheLine → Bool} (hs : s.MemCanonical) : (writeBackAll s a p).MemCanonical := by
  unfold writeBackAll
  dsimp only
  exact modArr_canonical (canonical_foldl_fst (fun _ _ hu => canonical_ite_fst (writeBack_canonical _ _ hu) hu) hs)

theorem invalidateCache_canonical {a : Nat} (hs : s.MemCanonical) : (invalidateCache s a).MemCanonical :=
  modArr_canonical (writeBackAll_canonical hs)

theorem cachePut_canonical {a : Nat} {l : CacheLine} (hs : s.MemCanonical) : (cachePut s a l).MemCanonical := by
  unfold cachePut
  dsimp only
  split
  · exact hs
  · exact modArr_canonical (writeBack_canonical _ _ hs)

theorem fillLine_canonical {l : CacheLine} {o n : Nat} (hs : s.MemCanonical) : (fillLine s l o n).1.MemCanonical := by
  unfold fillLine
  dsimp only
  exact canonical_foldl_fst (fun _ _ hu => canonical_ite_fst hu (sliceTouch_canonical _ _ _ (markPoison_canonical hu))) hs

theorem countLookup_canonical {a : Nat} {hit : Bool} (hs : s.MemCanonical) : (countLookup s a hit).MemCanonical := hs

theorem cacheLoad_canonical {a p va pa n : Nat} {leaf : Word} (hs : s.MemCanonical) :
    (cacheLoad s a p va pa n leaf).1.MemCanonical := by
  unfold cacheLoad
  dsimp only
  exact countLookup_canonical (cachePut_canonical (fillLine_canonical hs))

theorem cacheStore_canonical {a p va pa n v : Nat} {leaf : Word} (hs : s.MemCanonical) :
    (cacheStore s a p va pa n v leaf).MemCanonical := by
  unfold cacheStore
  dsimp only
  exact countLookup_canonical (cachePut_canonical (fillLine_canonical hs))

theorem cacheFront_canonical {a : Nat} {l : CacheLine} (hs : s.MemCanonical) : (cacheFront s a l).MemCanonical := hs

theorem storeThrough_canonical {a p va pa n v : Nat} (hs : s.MemCanonical) : (storeThrough s a p va pa n v).MemCanonical := by
  unfold storeThrough
  dsimp only
  split
  · exact countLookup_canonical (homeBytes_canonical hs)
  · exact canonical_ite (cacheFront_canonical (countLookup_canonical (homeBytes_canonical hs)))
        (countLookup_canonical (homeBytes_canonical hs))

theorem dropPa_canonical {a pa : Nat} (hs : s.MemCanonical) : (dropPa s a pa).MemCanonical :=
  canonical_ite hs (modArr_canonical (writeBackAll_canonical hs))

theorem aliasWork_canonical {a p va pa : Nat} (hs : s.MemCanonical) : (aliasWork s a p va pa).MemCanonical :=
  canonical_ite hs (modArr_canonical (writeBackAll_canonical hs))

theorem dropLine_canonical {a p va : Nat} (hs : s.MemCanonical) : (dropLine s a p va).MemCanonical :=
  modArr_canonical (writeBackAll_canonical hs)

theorem putReg_canonical {a r : Nat} {v : Word} (hs : s.MemCanonical) : (putReg s a r v).MemCanonical := canonical_ite hs hs

theorem putPoison_canonical {a r : Nat} {v : Word} {bad : Bool} (hs : s.MemCanonical) : (putPoison s a r v bad).MemCanonical :=
  canonical_ite hs hs

theorem bumpAcnt_canonical {m a : Nat} (hs : s.MemCanonical) : (bumpAcnt s m a).MemCanonical := canonical_ite hs hs

theorem accPerform_canonical {pa p a fn v : Nat} {must : Bool} (hs : s.MemCanonical) :
    (accPerform s pa p a fn v must).MemCanonical := by
  unfold accPerform
  dsimp only
  generalize hr : rmw s pa p _ _ = r
  have h1 : r.1.MemCanonical := hr ▸ rmw_canonical _ _ _ _ hs
  have h2 : (if r.2.2.2 = true then { r.1 with homeLog := r.1.homeLog ++ [(memDie pa, p, pa)] } else r.1).MemCanonical :=
    canonical_ite h1 h1
  exact canonical_ite (canonical_ite (bumpAcnt_canonical h2) (bumpAcnt_canonical h2)) h2

theorem answerCb_canonical {addr status phase : Nat} (hs : s.MemCanonical) : (answerCb s addr status phase).MemCanonical :=
  canonical_foldl (fun _ _ hu => hu) hs

theorem barUpdate_canonical {s0 : State} {addr : Nat} {check : Bool} {f : Bar → Bar} (hs0 : s0.MemCanonical) :
    (barUpdate s0 addr check f).MemCanonical := by
  have hs : (if inResid s0 addr = true then s0 else markPoison s0 addr 16).MemCanonical := canonical_ite hs0
      (markPoison_canonical hs0)
  unfold barUpdate
  dsimp only
  exact canonical_ite hs (canonical_ite (answerCb_canonical (setBar_canonical _ _ hs)) (setBar_canonical _ _ hs))

theorem barBreak_canonical {s0 : State} {addr : Nat} (hs0 : s0.MemCanonical) : (barBreak s0 addr).MemCanonical :=
  canonical_ite (canonical_ite hs0 (markPoison_canonical hs0)) (answerCb_canonical
      (setBar_canonical _ _ (canonical_ite hs0 (markPoison_canonical hs0))))

theorem answerFe_canonical {a status : Nat} {v : BitVec 32} {bad : Bool} (hs : s.MemCanonical) :
    (answerFe s a status v bad).MemCanonical :=
  hs

theorem serveFe_canonical {addr n : Nat} (hs : s.MemCanonical) : (serveFe s addr n).MemCanonical := by
  induction n generalizing s with
  | zero => exact hs
  | succ n ih =>
    unfold serveFe
    dsimp only
    split
    · exact hs
    · split
      · split
        · exact ih (answerFe_canonical (wf_writeNat _ _ _ hs))
        · refine ih (answerFe_canonical ?_)
          split
          · exact markPoison_canonical hs
          · exact markPoison_canonical hs
      · exact ih hs

theorem serveWord_canonical {addr : Nat} (hs : s.MemCanonical) : (serveWord s addr).MemCanonical := serveFe_canonical hs

theorem breakFe_canonical {tile : Nat} (hs : s.MemCanonical) :
    (breakFe s tile).MemCanonical := canonical_foldl (fun _ _ hu => hu) hs

theorem meetPage_canonical {p va n : Nat} (hs : s.MemCanonical) : (meetPage s p va n).1.MemCanonical := by
  unfold meetPage
  dsimp only
  split
  · exact walkTouch_canonical hs
  · exact canonical_ite_fst (walkTouch_canonical hs) (touchAll_canonical _ _ _ (markPoison_canonical (walkTouch_canonical hs)))

theorem virtMeet_canonical {p va n : Nat} (hs : s.MemCanonical) : (virtMeet s p va n).MemCanonical := by
  unfold virtMeet
  dsimp only
  exact canonical_ite (meetPage_canonical (meetPage_canonical hs)) (meetPage_canonical hs)

theorem virtWrite_canonical {p va n v : Nat} (hs : s.MemCanonical) : (virtWrite s p va n v).1.MemCanonical := by
  unfold virtWrite
  dsimp only
  split
  · exact walkTouch_canonical hs
  · exact canonical_ite_fst (walkTouch_canonical hs) (homeBytes_canonical (walkTouch_canonical hs))

theorem virtWriteUnits_canonical {p va : Nat} {l : List Nat} (hs : s.MemCanonical) : (virtWriteUnits s p va l).MemCanonical := by
  induction l generalizing s va with
  | nil => exact hs
  | cons v l ih =>
    unfold virtWriteUnits
    exact canonical_ite (ih (virtWrite_canonical hs)) (virtWrite_canonical hs)

theorem modPart_canonical {p : Nat} {f : Part → Part} (hs : s.MemCanonical) : (modPart s p f).MemCanonical := hs

theorem journalNew_canonical {p queue kind status ref tid cookie detail : Nat} (hs : s.MemCanonical) :
    (journalNew s p queue kind status ref tid cookie detail).MemCanonical :=
  modPart_canonical (virtWriteUnits_canonical hs)

theorem journalSet_canonical {p seq status detail : Nat} (hs : s.MemCanonical) :
    (journalSet s p seq status detail).MemCanonical := by
  unfold journalSet
  dsimp only
  exact canonical_ite (virtWrite_canonical (virtWrite_canonical hs)) (virtWrite_canonical hs)

theorem dropHdl_canonical {a h : Nat} (hs : s.MemCanonical) : (dropHdl s a h).MemCanonical := canonical_ite hs hs

theorem dropHdls_canonical {a : Nat} {l : List Nat} (hs : s.MemCanonical) : (dropHdls s a l).MemCanonical :=
  canonical_foldl (fun _ _ hu => dropHdl_canonical hu) hs

theorem windowEmit_canonical {e : WinEntry} (hs : s.MemCanonical) : (windowEmit s e).MemCanonical := by
  unfold windowEmit
  dsimp only
  exact accPerform_canonical (homeSticky_canonical hs)

theorem windowAdd_canonical {p win addr chip : Nat} {v : BitVec 32} (hs : s.MemCanonical) :
    (windowAdd s p win addr chip v).MemCanonical := by
  unfold windowAdd
  dsimp only
  exact canonical_ite (windowEmit_canonical (homeSticky_canonical hs)) (homeSticky_canonical hs)

theorem flushFrom_canonical {p chip : Nat} (hs : s.MemCanonical) : (flushFrom s p chip).MemCanonical :=
  canonical_foldl (fun _ _ hu => windowEmit_canonical hu) hs

theorem flushWindows_canonical {p : Nat} (hs : s.MemCanonical) : (flushWindows s p).MemCanonical := flushFrom_canonical hs

theorem setRes_canonical {base k : Nat} {e : BitVec 128} (hs : s.MemCanonical) : (setRes s base k e).MemCanonical :=
  putBytes_canonical _ _ _ hs

theorem resClear_canonical {base k : Nat} (hs : s.MemCanonical) : (resClear s base k).MemCanonical := putBytes_canonical _ _ _ hs

theorem residTaken_canonical {a pa fn : Nat} (hs : s.MemCanonical) : (residTaken s a pa fn).MemCanonical := hs

theorem residDone_canonical {a pa fn : Nat} (hs : s.MemCanonical) : (residDone s a pa fn).MemCanonical :=
  residTaken_canonical (dropHdls_canonical hs)

theorem report_canonical {a : Nat} {f : FaultInfo} (hs : s.MemCanonical) : (report s a f).MemCanonical := hs

theorem resDiscard_canonical {a base k : Nat} (hs : s.MemCanonical) : (resDiscard s a base k).MemCanonical :=
  report_canonical (residDone_canonical (resClear_canonical (markPoison_canonical hs)))

theorem pmcAdd_canonical {a code n : Nat} (hs : s.MemCanonical) : (pmcAdd s a code n).MemCanonical := hs

theorem resFlushOne_canonical {a base k : Nat} (hs : s.MemCanonical) : (resFlushOne s a base k).MemCanonical :=
  canonical_ite (resDiscard_canonical hs) (pmcAdd_canonical (residDone_canonical
      (resClear_canonical (countHome_canonical (accPerform_canonical (dropPa_canonical hs))))))

theorem flushResid_canonical {a : Nat} (hs : s.MemCanonical) : (flushResid s a).MemCanonical := by
  unfold flushResid
  split
  · exact hs
  · exact canonical_foldl (fun _ _ hu => resFlushOne_canonical hu) hs

theorem modSeq_canonical {a : Nat} {f : Seq → Seq} (hs : s.MemCanonical) : (modSeq s a f).MemCanonical := hs

theorem resPlace_canonical {s0 : State} {a pa fn v : Nat} (hs0 : s0.MemCanonical) : (resPlace s0 a pa fn v).MemCanonical := by
  unfold resPlace
  dsimp only
  split
  · exact hs0
  · split
    · refine modSeq_canonical (setRes_canonical ?_)
      split
      · exact canonical_ite (resDiscard_canonical hs0) hs0
      · exact hs0
    · split
      · split
        · exact canonical_ite (resDiscard_canonical hs0) hs0
        · exact hs0
      · refine modSeq_canonical (setRes_canonical ?_)
        split
        · exact canonical_ite (resDiscard_canonical hs0) hs0
        · exact hs0

theorem resMerge_canonical {a pa fn v : Nat} (hs : s.MemCanonical) : (resMerge s a pa fn v).1.MemCanonical := by
  unfold resMerge
  dsimp only
  split
  · exact hs
  · split
    · exact hs
    · exact canonical_ite_fst (resDiscard_canonical hs) (pmcAdd_canonical
          (modSeq_canonical (residTaken_canonical (resClear_canonical hs))))

theorem releaseWork_canonical {a scope : Nat} (hs : s.MemCanonical) : (releaseWork s a scope).MemCanonical := by
  have h1 : (if scope ≥ 1 then writeBackAll s a fun l : CacheLine => l.stag < scope else s).MemCanonical :=
    canonical_ite (writeBackAll_canonical hs) hs
  have h2 := canonical_ite (c := scope ≥ 2) (flushResid_canonical (a := a) h1) h1
  exact canonical_ite (flushWindows_canonical h2) h2

theorem acquireWork_canonical {a scope : Nat} (hs : s.MemCanonical) : (acquireWork s a scope).MemCanonical :=
  canonical_ite (invalidateCache_canonical hs) hs

theorem unWork_canonical {a : Nat} {o : Out} (hs : s.MemCanonical) : (unWork s a o).MemCanonical := by
  unfold unWork
  split
  · exact hs
  · exact canonical_ite (modSeq_canonical (writeBackAll_canonical hs)) hs

theorem aliasFor_canonical {a : Nat} {o : Out} (hs : s.MemCanonical) : (aliasFor s a o).MemCanonical :=
  canonical_ite (aliasWork_canonical hs) hs

theorem readFor_canonical {a : Nat} {o : Out} (hs : s.MemCanonical) : (readFor s a o).1.MemCanonical := by
  have h0 : (aliasFor (if o.acq then acquireWork (unWork s a o) a o.scope else unWork s a o) a o).MemCanonical :=
    aliasFor_canonical (canonical_ite (acquireWork_canonical (unWork_canonical hs)) (unWork_canonical hs))
  unfold readFor
  dsimp only
  exact canonical_ite_fst (canonical_ite (cacheLoad_canonical h0) (countHome_canonical (cacheLoad_canonical h0)))
    (countHome_canonical (sliceTouch_canonical _ _ _ (markPoison_canonical h0)))

theorem delOut_canonical {a k : Nat} (hs : s.MemCanonical) : (delOut s a k).MemCanonical := hs

theorem dropLd_canonical {a : Nat} (hs : s.MemCanonical) : (dropLd s a).MemCanonical := hs

theorem loadReturn_canonical {a k : Nat} {o : Out} {rd : Nat} {sx : Bool} (hs : s.MemCanonical) :
    (loadReturn s a k o rd sx).MemCanonical := by
  unfold loadReturn
  dsimp only
  exact delOut_canonical (dropHdl_canonical (dropLd_canonical (putPoison_canonical (readFor_canonical hs))))

theorem releaseFor_canonical {a : Nat} {o : Out} (hs : s.MemCanonical) : (releaseFor s a o).MemCanonical :=
  unWork_canonical (canonical_ite (releaseWork_canonical hs) hs)

theorem atomicFor_canonical {a : Nat} {o : Out} (hs : s.MemCanonical) : (atomicFor s a o).MemCanonical :=
  canonical_ite (dropLine_canonical (aliasFor_canonical (releaseFor_canonical hs))) (aliasFor_canonical (releaseFor_canonical hs))

theorem dropSt_canonical {a : Nat} (hs : s.MemCanonical) : (dropSt s a).MemCanonical := hs

theorem storeEnd_canonical {a k : Nat} {o : Out} {v : Word} (hs : s.MemCanonical) : (storeEnd s a k o v).MemCanonical := by
  have h0 : (aliasFor (releaseFor s a o) a o).MemCanonical := aliasFor_canonical (releaseFor_canonical hs)
  exact delOut_canonical (dropHdl_canonical (dropSt_canonical (canonical_ite
    (canonical_ite (canonical_ite (cacheStore_canonical h0) (countHome_canonical (cacheStore_canonical h0)))
      (countHome_canonical (storeThrough_canonical h0)))
    (countHome_canonical (homeBytes_canonical h0)))))

theorem setOut_canonical {a k : Nat} {o : Out} (hs : s.MemCanonical) : (setOut s a k o).MemCanonical := hs

theorem amoHome_canonical {a k : Nat} {o : Out} {fn rd : Nat} {v : Word} (hs : s.MemCanonical) :
    (amoHome s a k o fn rd v).MemCanonical := by
  unfold amoHome
  dsimp only
  exact setOut_canonical (countHome_canonical (dropHdl_canonical (rmw_canonical _ _ _ _ (atomicFor_canonical hs))))

theorem casHome_canonical {a k : Nat} {o : Out} {rd : Nat} {cmp new : Word} (hs : s.MemCanonical) :
    (casHome s a k o rd cmp new).MemCanonical := by
  unfold casHome
  dsimp only
  exact setOut_canonical (countHome_canonical (dropHdl_canonical (rmw_canonical _ _ _ _ (atomicFor_canonical hs))))

theorem amoBack_canonical {a k : Nat} {o : Out} {rd : Nat} {old : Word} {fl : Flags} {bad : Bool} (hs : s.MemCanonical) :
    (amoBack s a k o rd old fl bad).MemCanonical :=
  delOut_canonical (canonical_ite (acquireWork_canonical (modSeq_canonical (putPoison_canonical hs)))
      (modSeq_canonical (putPoison_canonical hs)))

theorem accGone_canonical {a : Nat} {o : Out} (hs : s.MemCanonical) : (accGone s a o).MemCanonical := dropHdls_canonical hs

theorem setQuota_canonical {m p : Nat} {q : Quota} (hs : s.MemCanonical) : (setQuota s m p q).MemCanonical := hs

theorem accHome_canonical {a k : Nat} {o : Out} {fn : Nat} {v : Word} (hs : s.MemCanonical) :
    (accHome s a k o fn v).MemCanonical := by
  unfold accHome
  dsimp only
  split
  · exact delOut_canonical (accGone_canonical (countTrip_canonical (windowAdd_canonical (atomicFor_canonical hs))))
  · exact canonical_ite (setOut_canonical (countTrip_canonical (pmcAdd_canonical (setQuota_canonical (atomicFor_canonical hs)))))
        (delOut_canonical (countHome_canonical (accGone_canonical (accPerform_canonical (atomicFor_canonical hs)))))

theorem accPlace_canonical {a : Nat} {o : Out} {fn : Nat} {v : Word} (hs : s.MemCanonical) : (accPlace s a o fn v).MemCanonical :=
  modSeq_canonical (dropSt_canonical (resPlace_canonical hs))

theorem accBack_canonical {a k : Nat} {o : Out} {fn : Nat} {v : Word} (hs : s.MemCanonical) : (accBack s a k o fn v).MemCanonical :=
  canonical_ite (delOut_canonical (accPlace_canonical hs)) hs

theorem syncComplete_canonical {p g : Nat} (hs : s.MemCanonical) : (syncComplete s p g).MemCanonical :=
  canonical_foldl (fun _ _ hu => hu) hs

theorem phaseBegin_canonical {p g : Nat} (hs : s.MemCanonical) :
    (phaseBegin s p g).MemCanonical := canonical_foldl (fun _ _ hu => hu) hs

theorem sweepImux_canonical {n : Nat} (hs : s.MemCanonical) : (sweepImux s n).MemCanonical := canonical_ite hs hs

theorem phaseEnd_canonical {p g : Nat} (hs : s.MemCanonical) : (phaseEnd s p g).MemCanonical :=
  canonical_ite hs (canonical_foldl (fun _ _ hu => acquireWork_canonical hu) hs)

theorem groupCheck_canonical {p g : Nat} (hs : s.MemCanonical) : (groupCheck s p g).MemCanonical :=
  canonical_ite hs (canonical_ite (phaseEnd_canonical hs) (canonical_ite (phaseBegin_canonical hs) (syncComplete_canonical hs)))

theorem groupArrive_canonical {p g a : Nat} (hs : s.MemCanonical) : (groupArrive s p g a).MemCanonical := groupCheck_canonical hs

theorem leaveGroups_canonical {p a : Nat} {gs : List Nat} (hs : s.MemCanonical) : (leaveGroups s p a gs).MemCanonical :=
  canonical_foldl (fun _ _ hu => groupCheck_canonical hu) hs

theorem joinGroups_canonical {p a : Nat} {gs : List Nat} (hs : s.MemCanonical) : (joinGroups s p a gs).MemCanonical :=
  canonical_foldl (fun _ _ hu => hu) hs

theorem parkGroups_canonical {p : Nat} {gs : List Nat} {up : Bool} (hs : s.MemCanonical) : (parkGroups s p gs up).MemCanonical :=
  canonical_foldl (fun _ _ hu => canonical_ite hu (groupCheck_canonical hu)) hs

theorem breakSaved_canonical {p : Nat} {f : Nat → Nat → Nat → Bool} (hs : s.MemCanonical) : (breakSaved s p f).MemCanonical := hs

theorem breakGroups_canonical {p : Nat} {gs : List Nat} (hs : s.MemCanonical) : (breakGroups s p gs).MemCanonical :=
  canonical_foldl (fun _ _ hu => canonical_ite (barBreak_canonical hu) hu)
      (breakSaved_canonical (canonical_foldl (fun _ _ hu => hu) hs))

theorem clearGroup0_canonical {p : Nat} (hs : s.MemCanonical) : (clearGroup0 s p).MemCanonical := canonical_ite hs hs

theorem cbInit_canonical {p addr : Nat} {v : Word} (hs : s.MemCanonical) : (cbInit s p addr v).MemCanonical :=
  answerCb_canonical (putBytes_canonical _ _ _ hs)

theorem dqPush_canonical {a : Nat} {v : Word} (hs : s.MemCanonical) : (dqPush s a v).1.MemCanonical := canonical_ite_fst hs hs

theorem dqPop_canonical {a : Nat} (hs : s.MemCanonical) : (dqPop s a).1.MemCanonical := canonical_ite_fst hs hs

theorem dqSteal_canonical {v : Nat} (hs : s.MemCanonical) : (dqSteal s v).1.MemCanonical := canonical_ite_fst hs hs

theorem migMeet_canonical {p base : Nat} (hs : s.MemCanonical) : (migMeet s p base).MemCanonical :=
  touchAll_canonical _ _ _ (canonical_foldl (fun _ _ hu => markPoison_canonical hu) hs)

theorem locqPage_canonical {a : Nat} {va : Word} (hs : s.MemCanonical) : (locqPage s a va).1.MemCanonical := by
  unfold locqPage
  dsimp only
  split
  · exact translate_canonical hs
  · exact migMeet_canonical (translate_canonical hs)

theorem putPred_canonical {a b : Nat} {v : Bool} (hs : s.MemCanonical) : (putPred s a b v).MemCanonical := canonical_ite hs hs

theorem dqHome_canonical {a k : Nat} {o : Out} (hs : s.MemCanonical) : (dqHome s a k o).MemCanonical := by
  unfold dqHome
  dsimp only
  split
  · exact setOut_canonical (dqPush_canonical (releaseWork_canonical hs))
  · exact setOut_canonical (dqPop_canonical hs)
  · exact setOut_canonical (canonical_ite (acquireWork_canonical (dqSteal_canonical (countFlits_canonical hs)))
        (dqSteal_canonical (countFlits_canonical hs)))
  · exact hs

theorem ldEnd_canonical {a k : Nat} {o : Out} (hs : s.MemCanonical) : (ldEnd s a k o).MemCanonical := by
  unfold ldEnd
  dsimp only
  split
  · exact loadReturn_canonical hs
  · exact delOut_canonical (dropLd_canonical (putReg_canonical (markPoison_canonical
        (acquireWork_canonical (countHome_canonical hs)))))
  · exact delOut_canonical (dropLd_canonical (putReg_canonical (locqPage_canonical hs)))
  · exact delOut_canonical (dropLd_canonical (putPred_canonical (putReg_canonical hs)))
  · exact dqHome_canonical hs

theorem bankEnd_canonical {s0 : State} {a k : Nat} {o : Out} (hs0 : s0.MemCanonical) : (bankEnd s0 a k o).MemCanonical := by
  have hs : (countHome s0 a o.pl.pa).MemCanonical := countHome_canonical hs0
  unfold bankEnd
  dsimp only
  split
  · exact serveWord_canonical (delOut_canonical (dropSt_canonical (wf_writeNat _ _ _ (releaseWork_canonical hs))))
  · exact delOut_canonical (dropSt_canonical (cbInit_canonical hs))
  · exact delOut_canonical (dropSt_canonical (barUpdate_canonical hs))
  · exact delOut_canonical (dropSt_canonical (putReg_canonical (barUpdate_canonical
      (canonical_ite (flushResid_canonical (releaseWork_canonical hs)) hs))))
  · exact hs0

theorem stEnd_canonical {a k : Nat} {o : Out} (hs : s.MemCanonical) : (stEnd s a k o).MemCanonical := by
  unfold stEnd
  cases o.op
  case store => exact storeEnd_canonical hs
  case stfk | cbinit | cbexp | cbarr => exact bankEnd_canonical hs
  case fenceRel => exact delOut_canonical (releaseWork_canonical hs)
  all_goals exact hs

theorem flushEnd_canonical {a k : Nat} (hs : s.MemCanonical) : (flushEnd s a k).MemCanonical :=
  delOut_canonical (dropSt_canonical (flushResid_canonical hs))

theorem accLeft_canonical {a k : Nat} {o : Out} {fn : Nat} {v : Word} (hs : s.MemCanonical) : (accLeft s a k o fn v).MemCanonical :=
  (accGone_canonical hs).congr rfl

theorem finishAt_canonical {a k : Nat} (hs : s.MemCanonical) : (finishAt s a k).MemCanonical := by
  unfold finishAt
  split
  · exact hs
  · split
    · exact amoHome_canonical hs
    · exact casHome_canonical hs
    · exact amoBack_canonical hs
    · exact accHome_canonical hs
    · exact canonical_ite (accBack_canonical hs) (accLeft_canonical hs)
    · exact flushEnd_canonical hs
    · exact canonical_ite (ldEnd_canonical hs) (stEnd_canonical hs)

theorem finishAll_canonical {p : Out → Bool} {n a : Nat} (hs : s.MemCanonical) : (finishAll p n s a).MemCanonical := by
  induction n generalizing s with
  | zero => exact hs
  | succ n ih =>
    unfold finishAll
    split
    · exact hs
    · exact ih (finishAt_canonical hs)

theorem drainOuts_canonical {a : Nat} (hs : s.MemCanonical) : (drainOuts s a).MemCanonical := finishAll_canonical hs

theorem drainAccesses_canonical {a : Nat} (hs : s.MemCanonical) : (drainAccesses s a).MemCanonical := finishAll_canonical hs

theorem bumpCell_canonical {p n : Nat} (hs : s.MemCanonical) : (bumpCell s p n).MemCanonical := by
  unfold bumpCell
  split
  · exact hs
  · exact canonical_ite hs hs

theorem bumpDest_canonical {c : Cmd} (hs : s.MemCanonical) : (bumpDest s c).MemCanonical := by
  unfold bumpDest
  refine canonical_ite ?_ hs
  split
  · exact hs
  · exact bumpCell_canonical hs

theorem coverFlits_canonical {a e seq : Nat} {l : List Host.Cell} (hs : s.MemCanonical) : (coverFlits s a e seq l).MemCanonical :=
  canonical_ite hs hs

theorem modEng_canonical {a e : Nat} {f : Engine → Engine} (hs : s.MemCanonical) : (modEng s a e f).MemCanonical := hs

theorem landSector_canonical {a e : Nat} {x : Sector} (hs : s.MemCanonical) : (landSector s a e x).MemCanonical := by
  unfold landSector
  dsimp only
  split
  · refine modEng_canonical ?_
    split
    · exact hs
    · exact countHome_canonical (pmcAdd_canonical (homeCells_canonical (coverFlits_canonical hs)))
  · refine barUpdate_canonical (modEng_canonical ?_)
    split
    · exact hs
    · exact countHome_canonical (pmcAdd_canonical (homeCells_canonical (coverFlits_canonical hs)))

theorem landAll_canonical {a e : Nat} (hs : s.MemCanonical) : (landAll s a e).MemCanonical :=
  canonical_foldl (fun _ _ hu => landSector_canonical hu) hs

theorem breakCmd_canonical {c : Cmd} (hs : s.MemCanonical) : (breakCmd s c).MemCanonical := by
  unfold breakCmd
  split
  · exact hs
  · split
    · exact hs
    · exact canonical_ite hs (barBreak_canonical hs)

theorem breakEngines_canonical {a : Nat} (hs : s.MemCanonical) : (breakEngines s a).MemCanonical :=
  canonical_foldl (fun _ _ hu => canonical_foldl (fun _ _ hv => bumpDest_canonical (breakCmd_canonical hv))
      (modSeq_canonical (modEng_canonical (landAll_canonical hu)))) hs

end Sys2Proof.Machine
end
section
/-! Canonical memory, continued: allocation, streams, the operations a slot issues, invalidation, launch, patterns, copies and engines. -/

namespace Sys2Proof.Machine

variable {s : State}

theorem sweepTiles_canonical (hs : s.MemCanonical) :
    (sweepTiles s).MemCanonical := canonical_foldl (fun _ _ hu => canonical_ite hu hu) hs

theorem dropBinds_canonical {p : Nat} {l : List Nat} (hs : s.MemCanonical) : (dropBinds s p l).MemCanonical :=
  canonical_foldl (fun _ _ hu => hu) hs

theorem freeOwned_canonical {t : Task} (hs : s.MemCanonical) : (freeOwned s t).MemCanonical :=
  canonical_foldl (fun _ _ hu => canonical_ite hu (canonical_ite hu (canonical_ite hu hu))) hs

theorem unplaceBound_canonical {t : Task} (hs : s.MemCanonical) :
    (unplaceBound s t).MemCanonical := canonical_foldl (fun _ _ hu => hu) hs

theorem completionAdd_canonical {t : Task} {n : Nat} (hs : s.MemCanonical) : (completionAdd s t n).1.MemCanonical := by
  unfold completionAdd
  dsimp only
  refine canonical_ite_fst hs ?_
  split
  · exact walkTouch_canonical hs
  · exact canonical_ite_fst (walkTouch_canonical hs) (rmw_canonical _ _ _ _ (walkTouch_canonical hs))

theorem dlqDrop_canonical {t : Task} (hs : s.MemCanonical) : (dlqDrop s t).MemCanonical := canonical_ite hs hs

theorem modTask_canonical {i : Nat} {f : Task → Task} (hs : s.MemCanonical) : (modTask s i f).MemCanonical := hs

theorem taskFinal_canonical {i : Nat} {st : TaskState} {code detail : Nat} (hs : s.MemCanonical) :
    (taskFinal s i st code detail).MemCanonical := by
  unfold taskFinal
  dsimp only
  split
  · exact hs
  · generalize hr : completionAdd _ _ _ = r
    have h3 : r.1.MemCanonical :=
      hr ▸ completionAdd_canonical (journalSet_canonical (modTask_canonical (modPart_canonical (dlqDrop_canonical hs))))
    exact canonical_ite h3 (journalSet_canonical (modTask_canonical h3))

theorem releaseArrays_canonical {top : Nat} (hs : s.MemCanonical) : (releaseArrays s top).MemCanonical :=
  modPart_canonical (canonical_foldl (fun _ _ hu => hu) hs)

theorem breakTaskFe_canonical {t : Task} (hs : s.MemCanonical) : (breakTaskFe s t).MemCanonical :=
  canonical_foldl (fun _ _ hu => breakFe_canonical hu) (canonical_foldl (fun _ _ hu => canonical_ite (breakFe_canonical hu) hu) hs)

theorem failRunning_canonical {i detail : Nat} (hs : s.MemCanonical) : (failRunning s i detail).MemCanonical := by
  unfold failRunning
  dsimp only
  split
  · exact hs
  · exact clearGroup0_canonical (sweepTiles_canonical (taskFinal_canonical
        (canonical_foldl (fun _ _ hu => sweepImux_canonical hu) (releaseArrays_canonical
        (leaveGroups_canonical (unplaceBound_canonical (dropBinds_canonical
        (freeOwned_canonical (breakTaskFe_canonical (breakEngines_canonical
        (breakGroups_canonical (flushResid_canonical (drainOuts_canonical hs)))))))))))))

theorem failSaved_canonical {i : Nat} {st : TaskState} {code : Nat} (hs : s.MemCanonical) :
    (failSaved s i st code).MemCanonical := by
  unfold failSaved
  dsimp only
  split
  · exact hs
  · refine clearGroup0_canonical (sweepTiles_canonical (taskFinal_canonical
        (unplaceBound_canonical (dropBinds_canonical (freeOwned_canonical (breakTaskFe_canonical ?_))))))
    split
    · exact parkGroups_canonical (breakGroups_canonical hs)
    · exact modPart_canonical (canonical_foldl (fun _ _ hu => breakCmd_canonical hu)
          (parkGroups_canonical (breakGroups_canonical hs)))

theorem endUnstarted_canonical {s0 : State} {i : Nat} {st : TaskState} {code detail : Nat} (hs0 : s0.MemCanonical) :
    (endUnstarted s0 i st code detail).MemCanonical := by
  unfold endUnstarted
  dsimp only
  split
  · exact hs0
  · exact sweepTiles_canonical (taskFinal_canonical (dropBinds_canonical (canonical_ite (breakTaskFe_canonical hs0) hs0)))

theorem retire_canonical {i : Nat} (hs : s.MemCanonical) : (retire s i).MemCanonical := by
  unfold retire
  dsimp only
  split
  · exact hs
  · exact clearGroup0_canonical (sweepTiles_canonical (journalSet_canonical
        (modTask_canonical (dlqDrop_canonical (releaseArrays_canonical
        (leaveGroups_canonical (unplaceBound_canonical (dropBinds_canonical
        (freeOwned_canonical (completionAdd_canonical (releaseWork_canonical (flushResid_canonical hs))))))))))))

theorem setTile_canonical {n : Nat} {t : Tile} (hs : s.MemCanonical) : (setTile s n t).MemCanonical := hs

theorem placeTile_canonical {n : Nat} {t : Tile} {arrays : List Nat} (hs : s.MemCanonical) :
    (placeTile s n t arrays).MemCanonical :=
  canonical_ite (modArr_canonical (setTile_canonical (zeroTile_canonical _ _ hs))) (setTile_canonical (zeroTile_canonical _ _ hs))

theorem patMark_canonical {p : Pattern} {t : Tile} {f : Nat} (hs : s.MemCanonical) : (patMark s p t f).MemCanonical :=
  canonical_ite hs (canonical_foldl (fun _ _ hu => markPoison_canonical hu) hs)

theorem sideMark_canonical {p : Pattern} {t : Tile} {f : Nat} (hs : s.MemCanonical) : (sideMark s p t f).MemCanonical :=
  canonical_foldl (fun _ _ hu => markPoison_canonical hu) hs

theorem streamFlits_canonical {a n : Nat} {t : Tile} (hs : s.MemCanonical) :
    (streamFlits s a n t).MemCanonical := countFlits_canonical hs

theorem modPort_canonical {a n : Nat} {f : Port → Port} (hs : s.MemCanonical) : (modPort s a n f).MemCanonical := hs

theorem fetchOne_canonical {a n : Nat} (hs : s.MemCanonical) : (fetchOne s a n).MemCanonical := by
  unfold fetchOne
  dsimp only
  refine canonical_ite hs ?_
  split
  · exact hs
  · exact canonical_ite (modPort_canonical (streamFlits_canonical hs))
        (modPort_canonical (streamFlits_canonical (canonical_ite (sideMark_canonical (patMark_canonical hs))
        (patMark_canonical hs))))

theorem produceOne_canonical {a n : Nat} (hs : s.MemCanonical) : (produceOne s a n).MemCanonical := by
  unfold produceOne
  dsimp only
  refine canonical_ite hs ?_
  split
  · exact hs
  · exact modPort_canonical (sideMark_canonical hs)

theorem fetchMany_canonical {k a n : Nat} (hs : s.MemCanonical) : (fetchMany k s a n).MemCanonical := by
  induction k generalizing s with
  | zero => exact hs
  | succ k ih => exact ih (fetchOne_canonical hs)

theorem produceMany_canonical {k a n : Nat} (hs : s.MemCanonical) : (produceMany k s a n).MemCanonical := by
  induction k generalizing s with
  | zero => exact hs
  | succ k ih => exact ih (produceOne_canonical hs)

theorem fillPort_canonical {a n : Nat} (hs : s.MemCanonical) : (fillPort s a n).MemCanonical := by
  unfold fillPort
  dsimp only
  exact canonical_ite (modPort_canonical (fetchMany_canonical hs)) (modPort_canonical (produceMany_canonical hs))

theorem landUnder_canonical {a e seq : Nat} {cells : List Host.Cell} (hs : s.MemCanonical) :
    (landUnder s a e seq cells).MemCanonical := by
  unfold landUnder
  dsimp only
  exact canonical_foldl (fun _ _ hu => landSector_canonical hu) hs

theorem drainOne_canonical {a n : Nat} (hs : s.MemCanonical) : (drainOne s a n).MemCanonical := by
  unfold drainOne
  dsimp only
  split
  · exact hs
  · split
    · exact modPort_canonical (putCells_canonical _ _ (coverFlits_canonical (landUnder_canonical (streamFlits_canonical hs))))
    · exact canonical_ite hs hs

theorem drainMany_canonical {k a n : Nat} (hs : s.MemCanonical) : (drainMany k s a n).MemCanonical := by
  induction k generalizing s with
  | zero => exact hs
  | succ k ih => exact ih (drainOne_canonical hs)

theorem drainPort_canonical {a n : Nat} (hs : s.MemCanonical) : (drainPort s a n).MemCanonical := by
  unfold drainPort
  dsimp only
  split
  · exact canonical_ite (modPort_canonical (drainOne_canonical hs)) hs
  · exact modPort_canonical (drainMany_canonical hs)

theorem rankOne_canonical {a n : Nat} (hs : s.MemCanonical) : (rankOne s a n).MemCanonical := by
  unfold rankOne
  dsimp only
  refine canonical_ite hs ?_
  split
  · exact hs
  · split
    · exact hs
    · exact modPort_canonical (canonical_ite (modEng_canonical (streamFlits_canonical hs)) hs)

theorem rankMany_canonical {k a n : Nat} (hs : s.MemCanonical) : (rankMany k s a n).MemCanonical := by
  induction k generalizing s with
  | zero => exact hs
  | succ k ih => exact ih (rankOne_canonical hs)

theorem rankRow_canonical {a n : Nat} (hs : s.MemCanonical) : (rankRow s a n).MemCanonical :=
  modArr_canonical (modPort_canonical (rankMany_canonical hs))

theorem bindPort_canonical {a n : Nat} {x : Pattern} (hs : s.MemCanonical) : (bindPort s a n x).MemCanonical := canonical_ite hs hs

theorem setPred_canonical {b : Nat} {v : Bool} (hs : s.MemCanonical) : (setPred s b v).MemCanonical := canonical_ite hs hs

theorem setReg_canonical {r : Nat} {v : Word} (hs : s.MemCanonical) : (setReg s r v).MemCanonical := putReg_canonical hs

theorem lock_canonical {n due : Nat} (hs : s.MemCanonical) : (lock s n due).MemCanonical := canonical_ite hs hs

theorem result_canonical {r : Nat} {v : Word} {l : Nat} (hs : s.MemCanonical) : (result s r v l).MemCanonical :=
  canonical_ite (setReg_canonical hs) (lock_canonical (setReg_canonical hs))

theorem restoreShadow_canonical {a : Nat} (hs : s.MemCanonical) : (restoreShadow s a).MemCanonical :=
  modArr_canonical (canonical_foldl (fun _ _ hu => drainMany_canonical hu) hs)

theorem recordStore_canonical {a p va : Nat} {l : List Nat} (hs : s.MemCanonical) {t : State}
    (h : recordStore s a p va l = some t) :
    t.MemCanonical := by
  induction l generalizing s va with
  | nil => exact Option.some.inj h ▸ hs
  | cons v l ih =>
    unfold recordStore at h
    dsimp only at h
    split at h
    · exact nomatch h
    · split at h
      · exact nomatch h
      · exact ih (canonical_ite (storeThrough_canonical (aliasWork_canonical (walkTouch_canonical hs)))
          (homeBytes_canonical (walkTouch_canonical hs))) h

theorem writeRecord_canonical {s0 : State} {a : Nat} {f : FaultInfo} {restart : Bool} {more : Nat} (hs0 : s0.MemCanonical) :
    (writeRecord s0 a f restart more).1.MemCanonical := by
  unfold writeRecord
  dsimp only
  refine canonical_ite_fst hs0 ?_
  split
  · exact modSeq_canonical (walkTouch_canonical hs0)
  · rename_i h1
    split
    · exact recordStore_canonical (releaseWork_canonical hs0) h1
    · split
      · exact hs0
      · rename_i h2
        exact recordStore_canonical (recordStore_canonical (releaseWork_canonical hs0) h1) h2

theorem failTop_canonical {a : Nat} {f : FaultInfo} (hs : s.MemCanonical) : (failTop s a f).MemCanonical := by
  unfold failTop
  split
  · exact hs
  · exact failRunning_canonical hs

theorem restart_canonical {a : Nat} {f : FaultInfo} (hs : s.MemCanonical) : (restart s a f).MemCanonical :=
  modSeq_canonical (restoreShadow_canonical hs)

theorem withdrawHeld_canonical {a : Nat} (hs : s.MemCanonical) : (withdrawHeld s a).MemCanonical := by
  unfold withdrawHeld
  dsimp only
  refine modSeq_canonical ?_
  split
  · exact hs
  · exact hs

theorem codePoint_canonical {a : Nat} (hs : s.MemCanonical) :
    (codePoint s a).MemCanonical := canonical_ite (acquireWork_canonical hs) hs

theorem enterMonitor_canonical {s0 : State} {a : Nat} {f : FaultInfo} {mepc rec_ : Nat} (hs0 : s0.MemCanonical) :
    (enterMonitor s0 a f mepc rec_).MemCanonical := by
  unfold enterMonitor
  dsimp only
  exact modArr_canonical (codePoint_canonical (countMiss_canonical (walkFill_canonical hs0)))

theorem takeTrap_canonical {a : Nat} (hs : s.MemCanonical) : (takeTrap s a).MemCanonical := by
  unfold takeTrap
  dsimp only
  split
  · exact hs
  next f rest more _ =>
    have h1 : (modSeq (withdrawHeld s a) a fun q => { q with pending := rest, located := [] }).MemCanonical :=
      modSeq_canonical (withdrawHeld_canonical hs)
    have h2 := canonical_ite (c := f.code = 0x11) (restart_canonical (a := a) (f := f) h1) h1
    exact canonical_ite (failTop_canonical (writeRecord_canonical h1))
      (canonical_ite (failTop_canonical (writeRecord_canonical h2)) (enterMonitor_canonical (writeRecord_canonical h2)))

theorem raise_canonical {f : FaultInfo} (hs : s.MemCanonical) : (raise s f).MemCanonical := canonical_ite (takeTrap_canonical hs) hs

theorem monitorReturn_canonical (hs : s.MemCanonical) : (monitorReturn s).MemCanonical := canonical_ite (raise_canonical hs) hs

theorem slotOp_canonical {p : Nat} {srcs dsts : List Nat} {k : State → State} (hs : s.MemCanonical)
    (hk : ∀ u, u.MemCanonical → (k u).MemCanonical) : (slotOp s p srcs dsts k).MemCanonical := by
  unfold slotOp
  refine canonical_ite hs (canonical_ite hs (canonical_ite (raise_canonical hs) ?_))
  split
  · exact raise_canonical hs
  · exact hk _ hs

theorem pushOut_canonical {a : Nat} {o : Out} {ld st : Nat} (hs : s.MemCanonical) : (pushOut s a o ld st).MemCanonical :=
  canonical_ite hs hs

theorem tryNow_canonical {a : Nat} {f : State → Nat → Out → State} (hs : s.MemCanonical)
    (hf : ∀ u x1 x2, u.MemCanonical → (f u x1 x2).MemCanonical) : (tryNow s a f).MemCanonical := by
  unfold tryNow
  dsimp only
  split
  · exact hs
  · exact canonical_ite (hf _ _ _ hs) hs

theorem popGate_canonical {a : Nat} (hs : s.MemCanonical) : (popGate s a).MemCanonical := hs

theorem startWalk_canonical {a h : Nat} (hs : s.MemCanonical) : (startWalk s a h).MemCanonical := hs

theorem gateGo_canonical {a : Nat} {l : List GateEntry} {n : Nat} (hs : s.MemCanonical) : (gateGo a l n s).1.MemCanonical := by
  induction l generalizing n s with
  | nil => exact hs
  | cons e l ih =>
    cases e with
    | fence sc => exact ih (pushOut_canonical (popGate_canonical hs))
    | tile =>
      exact canonical_ite_fst hs (canonical_ite_fst hs (ih (pushOut_canonical (popGate_canonical hs))))
    | store =>
      refine canonical_ite_fst hs ?_
      split
      · exact ih (pushOut_canonical (popGate_canonical hs))
      · exact startWalk_canonical hs
      · exact hs
      · exact hs

theorem gateRelease_canonical {a : Nat} (hs : s.MemCanonical) : (gateRelease s a).1.MemCanonical := gateGo_canonical hs

theorem holdUntil_canonical {c : Nat} (hs : s.MemCanonical) : (holdUntil s c).MemCanonical := hs

theorem blockFull_canonical (hs : s.MemCanonical) : (blockFull s).MemCanonical := hs

theorem block_canonical (hs : s.MemCanonical) : (block s).MemCanonical := hs

theorem withGate_canonical {k : State → State} (hs : s.MemCanonical)
    (hk : ∀ u, u.MemCanonical → (k u).MemCanonical) : (withGate s k).MemCanonical := by
  unfold withGate
  refine canonical_ite (hk _ hs) ?_
  split
  · rename_i h1
    exact hk _ (canonical_ite (holdUntil_canonical ((gateRelease_canonical hs).of_fst h1)) ((gateRelease_canonical hs).of_fst h1))
  · rename_i h1
    exact block_canonical ((gateRelease_canonical hs).of_fst h1)
  · rename_i h1
    exact blockFull_canonical ((gateRelease_canonical hs).of_fst h1)
  · rename_i h1
    exact raise_canonical ((gateRelease_canonical hs).of_fst h1)

theorem regionNext_canonical (hs : s.MemCanonical) : (regionNext s).MemCanonical := canonical_ite hs hs

theorem releasing_canonical {k : State → State} (hs : s.MemCanonical)
    (hk : ∀ u, u.MemCanonical → (k u).MemCanonical) : (releasing s k).MemCanonical :=
  withGate_canonical hs (fun _ hu => hk _ (regionNext_canonical hu))

theorem releasingSt_canonical {k : State → State} (hs : s.MemCanonical)
    (hk : ∀ u, u.MemCanonical → (k u).MemCanonical) : (releasingSt s k).MemCanonical :=
  withGate_canonical hs (fun _ hu => canonical_ite hu (hk _ (regionNext_canonical hu)))

theorem gatePut_canonical {e : GateEntry} (hs : s.MemCanonical) : (gatePut s e).MemCanonical :=
  canonical_ite hs (withGate_canonical hs (fun _ hu => hu))

theorem withdrawCmd_canonical {c : Cmd} (hs : s.MemCanonical) : (withdrawCmd s c).MemCanonical := by
  unfold withdrawCmd
  split
  · exact hs
  · exact canonical_ite hs (barUpdate_canonical hs)

theorem cmdEnd_canonical {a e st : Nat} {c : Cmd} (hs : s.MemCanonical) : (cmdEnd s a e st c).MemCanonical := bumpDest_canonical hs

theorem engReport_canonical {a e code st : Nat} {c : Cmd} {resume : Nat} {addr : Word} (hs : s.MemCanonical) :
    (engReport s a e code st c resume addr).MemCanonical :=
  hs

theorem holdPage_canonical {a e k va : Nat} {leaf : Word} (hs : s.MemCanonical) : (holdPage s a e k va leaf).MemCanonical := hs

theorem pageOf_canonical {a e k : Nat} {c : Cmd} {va : Word} (hs : s.MemCanonical) : (pageOf s a e k c va).1.MemCanonical := by
  unfold pageOf
  dsimp only
  split
  · exact hs
  · split
    · exact translate_canonical hs
    · exact holdPage_canonical (translate_canonical hs)

theorem resolve_canonical {a e k : Nat} {c : Cmd} {v : Word} {o : ℤ} (hs : s.MemCanonical) :
    (resolve s a e k c v o).1.MemCanonical := by
  unfold resolve
  dsimp only
  refine canonical_ite_fst (canonical_ite_fst hs hs) ?_
  split
  · rename_i h1
    exact (pageOf_canonical hs).of_fst h1
  · rename_i h1
    exact canonical_ite_fst ((pageOf_canonical hs).of_fst h1) ((pageOf_canonical hs).of_fst h1)

theorem landNth_canonical {a e n : Nat} (hs : s.MemCanonical) : (landNth s a e n).MemCanonical := by
  unfold landNth
  split
  · exact hs
  · exact landSector_canonical hs

theorem sectorRoom_canonical {a e : Nat} (hs : s.MemCanonical) : (sectorRoom s a e).MemCanonical := by
  unfold sectorRoom
  refine canonical_ite hs ?_
  split
  · exact hs
  · exact landNth_canonical hs

theorem pushSector_canonical {a e : Nat} {x : Sector} (hs : s.MemCanonical) : (pushSector s a e x).MemCanonical :=
  modEng_canonical (sectorRoom_canonical hs)

theorem landPosted_canonical {a e : Nat} {reads : List Nat} (hs : s.MemCanonical) : (landPosted s a e reads).MemCanonical := by
  unfold landPosted
  dsimp only
  exact canonical_ite hs (canonical_foldl (fun _ _ hu => landSector_canonical hu) hs)

theorem engRead_canonical {a e p : Nat} {reads : List Nat} (hs : s.MemCanonical) : (engRead s a e p reads).MemCanonical := by
  unfold engRead
  split
  · exact hs
  · exact countHome_canonical (touchAll_canonical _ _ _ (canonical_foldl (fun _ _ hu => markPoison_canonical hu)
        (landPosted_canonical hs)))

theorem landSo_canonical {a e : Nat} {so : Bool} (hs : s.MemCanonical) : (landSo s a e so).MemCanonical := by
  unfold landSo
  dsimp only
  exact canonical_ite hs (canonical_foldl (fun _ _ hu => landSector_canonical hu) hs)

theorem sourceReach_canonical {a e : Nat} {c : Cmd} {x : Source} {o : Nat} (hs : s.MemCanonical) :
    (sourceReach s a e c x o).1.MemCanonical := by
  unfold sourceReach
  dsimp only
  split
  · exact hs
  · exact canonical_ite_fst hs (resolve_canonical hs)

theorem sendRun_canonical {a e : Nat} {c : Cmd} {o stop : Nat} {x : Source} {dv : Word} {doff : Nat → ℤ} (hs : s.MemCanonical) :
    (sendRun s a e c o stop x dv doff).1.MemCanonical := by
  unfold sendRun
  dsimp only
  split
  · exact sourceReach_canonical hs
  · split
    · exact resolve_canonical (sourceReach_canonical hs)
    · exact pushSector_canonical (engRead_canonical (landSo_canonical (resolve_canonical (sourceReach_canonical hs))))

theorem sendTo_canonical {n a e : Nat} {c : Cmd} {o stop : Nat} {x : Source} {dv : Word} {doff : Nat → Int} (hs : s.MemCanonical) :
    (sendTo n s a e c o stop x dv doff).1.MemCanonical := by
  induction n generalizing s o with
  | zero => exact hs
  | succ n ih =>
    unfold sendTo
    dsimp only
    exact canonical_ite_fst hs (canonical_ite_fst (sendRun_canonical hs) (ih (sendRun_canonical hs)))

theorem creditRow_canonical {a e : Nat} {c : Cmd} {o n : Nat} (hs : s.MemCanonical) : (creditRow s a e c o n).MemCanonical :=
  pushSector_canonical hs

theorem readSpan_canonical {a e k : Nat} {c : Cmd} {v : Word} {off : Nat → Int} {i n : Nat} (hs : s.MemCanonical) :
    (readSpan a e k c v off i n s).1.MemCanonical := by
  induction n generalizing i s with
  | zero => exact hs
  | succ n ih =>
    unfold readSpan
    dsimp only
    split
    · exact resolve_canonical hs
    · exact ih (canonical_ite (engRead_canonical (landSo_canonical (resolve_canonical hs)))
          (markPoison_canonical (resolve_canonical hs)))

theorem readRows_canonical {a e : Nat} {x : RowsOf} {scatter : Bool} {l : List (Nat × Nat)} {r : RowsRead} (hs : s.MemCanonical) :
    (readRows a e x scatter l r s).1.MemCanonical := by
  induction l generalizing r s with
  | nil => exact hs
  | cons y l ih =>
    unfold readRows
    refine canonical_ite_fst (ih hs) ?_
    dsimp only
    split
    next h => exact (readSpan_canonical hs).of_fst h
    next h => exact ih ((readSpan_canonical hs).of_fst h)

theorem sendRows_canonical {a e : Nat} {x : RowsOf} {scatter : Bool} {rows l : List (Nat × Nat)} {src : Source} {o : Nat}
    (hs : s.MemCanonical) : (sendRows a e x scatter rows src l o s).1.MemCanonical := by
  induction l generalizing s o with
  | nil => exact hs
  | cons y l ih =>
    have h0 : (if y.2 ≥ x.tn then countIndex s a e else s).MemCanonical := canonical_ite hs hs
    unfold sendRows
    dsimp only
    exact canonical_ite_fst hs (ih (canonical_ite_fst (creditRow_canonical h0) (sendTo_canonical h0)))

theorem batchOf_canonical {a e : Nat} {c : Cmd} (hs : s.MemCanonical) : (batchOf s a e c).1.MemCanonical := by
  unfold batchOf
  dsimp only
  split
  · exact hs
  · exact readSpan_canonical hs

theorem linkSector_canonical {a e : Nat} {x : Sector} (hs : s.MemCanonical) : (linkSector s a e x).1.MemCanonical := by
  unfold linkSector
  dsimp only
  exact canonical_ite_fst (landSector_canonical hs) hs

theorem linkSectors_canonical {a e : Nat} {l : List Sector} {o : Nat} (hs : s.MemCanonical) :
    (linkSectors a e l s o).1.MemCanonical := by
  induction l generalizing s o with
  | nil => exact hs
  | cons x l ih => exact ih (linkSector_canonical hs)

theorem linkEnd_canonical {a e st : Nat} {c : Cmd} {resume : Nat} {addr : Word} (hs : s.MemCanonical) :
    (linkEnd s a e st c resume addr).MemCanonical := by
  unfold linkEnd
  dsimp only
  exact engReport_canonical (cmdEnd_canonical (breakCmd_canonical (linkSectors_canonical
      (canonical_foldl (fun _ _ hu => landSector_canonical hu) hs))))

theorem cmdStop_canonical {a e st o : Nat} {addr : Option Word} (hs : s.MemCanonical) : (cmdStop s a e st o addr).MemCanonical := by
  unfold cmdStop
  dsimp only
  split
  · exact hs
  · exact canonical_ite hs (canonical_ite (linkEnd_canonical hs) (engReport_canonical (cmdEnd_canonical hs)))

theorem setSent_canonical {a e o : Nat} (hs : s.MemCanonical) : (setSent s a e o).MemCanonical := hs

theorem sendDone_canonical {r : Sent} {a e : Nat} (hr : r.1.MemCanonical) : (sendDone r a e).MemCanonical :=
  canonical_ite (cmdStop_canonical (setSent_canonical hr)) (setSent_canonical hr)

theorem setBatch_canonical {a e : Nat} {b : Option Batch} (hs : s.MemCanonical) : (setBatch s a e b).MemCanonical := hs

theorem sendBatch_canonical {a e : Nat} {c : Cmd} {scatter : Bool} (hs : s.MemCanonical) :
    (sendBatch s a e c scatter).MemCanonical := by
  unfold sendBatch
  dsimp only
  split
  · rename_i h1
    exact cmdStop_canonical ((batchOf_canonical hs).of_fst h1)
  · rename_i h1
    refine canonical_ite (cmdStop_canonical ((batchOf_canonical hs).of_fst h1)) (sendDone_canonical (setBatch_canonical ?_))
    split
    · exact canonical_ite_fst (sendRows_canonical (readRows_canonical ((batchOf_canonical hs).of_fst h1)))
          (sendRows_canonical (readRows_canonical ((batchOf_canonical hs).of_fst h1)))
    · exact sendRows_canonical (readRows_canonical ((batchOf_canonical hs).of_fst h1))

theorem readMask_canonical {a e : Nat} {c : Cmd} {rows n : Nat} {l : List Nat} (hs : s.MemCanonical) :
    (readMask a e c rows n l s).1.MemCanonical := by
  induction n generalizing l s with
  | zero => exact hs
  | succ n ih =>
    unfold readMask
    refine canonical_ite_fst hs ?_
    split
    next h => exact ih ((readSpan_canonical hs).of_fst h)
    next => exact hs

theorem maskAhead_canonical {a e : Nat} {c : Cmd} (hs : s.MemCanonical) : (maskAhead s a e c).1.MemCanonical := by
  unfold maskAhead
  dsimp only
  split
  · exact hs
  · exact canonical_ite_fst (setBatch_canonical (readMask_canonical hs)) hs

theorem sendMasked_canonical {a e : Nat} {c : Cmd} (hs : s.MemCanonical) : (sendMasked s a e c).MemCanonical := by
  unfold sendMasked
  dsimp only
  split
  · refine cmdStop_canonical ?_
    split
    · exact maskAhead_canonical hs
    · exact readSpan_canonical (maskAhead_canonical hs)
  · refine canonical_ite (setSent_canonical (creditRow_canonical ?_)) (sendDone_canonical (sendTo_canonical ?_))
    · split
      · exact maskAhead_canonical hs
      · exact readSpan_canonical (maskAhead_canonical hs)
    · split
      · exact maskAhead_canonical hs
      · exact readSpan_canonical (maskAhead_canonical hs)

theorem sendNext_canonical {a e : Nat} {c : Cmd} (hs : s.MemCanonical) : (sendNext s a e c).MemCanonical := by
  unfold sendNext
  dsimp only
  refine canonical_ite (cmdStop_canonical hs) ?_
  split
  · exact sendDone_canonical (sendTo_canonical hs)
  · exact sendBatch_canonical hs
  · exact sendBatch_canonical hs
  · exact sendMasked_canonical hs
  · exact sendDone_canonical (sendTo_canonical hs)
  · exact hs

theorem finishPages_canonical {lo hi n a e : Nat} (hs : s.MemCanonical) : (finishPages lo hi n s a e).MemCanonical := by
  induction n generalizing s with
  | zero => exact landAll_canonical hs
  | succ n ih =>
    unfold finishPages
    split
    · exact landAll_canonical hs
    · exact canonical_ite (ih (sendNext_canonical hs)) (modEng_canonical (landAll_canonical hs))

theorem dropLines_canonical {a p lo hi : Nat} (hs : s.MemCanonical) : (dropLines s a p lo hi).MemCanonical :=
  modArr_canonical (writeBackAll_canonical hs)

theorem invalArray_canonical {a p lo hi : Nat} (hs : s.MemCanonical) : (invalArray s a p lo hi).MemCanonical := by
  unfold invalArray
  dsimp only
  generalize hu : (if (topOf s p a && (seqAt s a).outs.any fun o => decide
      (o.hdl < 16) && placeIn lo hi o.pl) = true then drainAccesses s a else s) = u
  have h1 : u.MemCanonical := hu ▸ canonical_ite (drainAccesses_canonical hs) hs
  have h2 : (if topOf s p a = true then [0, 1, 2, 3].foldl (fun s e => finishPages lo hi
      (bytesLeft s a e) s a e) u else u).MemCanonical :=
    canonical_ite (canonical_foldl (fun _ _ hv => finishPages_canonical hv) h1) h1
  exact canonical_ite (codePoint_canonical (dropLines_canonical (modSeq_canonical h2))) (dropLines_canonical (modSeq_canonical h2))

theorem dropTlbs_canonical {p lo hi : Nat} (hs : s.MemCanonical) : (dropTlbs s p lo hi).MemCanonical := hs

theorem invalRange_canonical {p lo hi : Nat} (hs : s.MemCanonical) : (invalRange s p lo hi).MemCanonical :=
  dropTlbs_canonical (canonical_foldl (fun _ _ hu => invalArray_canonical hu) hs)

theorem flushFrame_canonical {p old n : Nat} (hs : s.MemCanonical) : (flushFrame s p old n).MemCanonical := by
  unfold flushFrame
  dsimp only
  refine canonical_foldl ?_ hs
  intro x0 x1 hu
  split
  · exact hu
  · exact canonical_foldl (fun _ _ hv => resFlushOne_canonical hv) hu

theorem invalidate_canonical {p va n : Nat} (hs : s.MemCanonical) : (invalidate s p va n).MemCanonical :=
  canonical_foldl (fun _ _ hu => flushFrame_canonical hu) (invalRange_canonical
      (canonical_foldl (fun _ _ hu => walkTouch_canonical hu) hs))

theorem setSealed_canonical {p : Nat} {on : Bool} {l : List (Nat × Word)} (hs : s.MemCanonical) :
    (setSealed s p on l).MemCanonical := by
  induction l generalizing s with
  | nil => exact hs
  | cons x l ih => exact ih (homeBytes_canonical hs)

theorem sealRange_canonical {p va n : Nat} {on : Bool} (hs : s.MemCanonical) : (sealRange s p va n on).1.MemCanonical := by
  unfold sealRange
  dsimp only
  refine canonical_ite_fst hs ?_
  split
  · exact canonical_foldl (fun _ _ hu => walkTouch_canonical hu) hs
  · exact invalidate_canonical (setSealed_canonical (canonical_foldl (fun _ _ hu => walkTouch_canonical hu) hs))

theorem recordMeet_canonical {p : Nat} {r : BitVec 512} {dev : Bool} (hs : s.MemCanonical) : (recordMeet s p r dev).MemCanonical :=
  canonical_ite hs (virtMeet_canonical hs)

theorem bindTiles_canonical {p : Nat} {l : List Nat} (hs : s.MemCanonical) : (bindTiles s p l).MemCanonical :=
  canonical_foldl (fun _ _ hu => hu) hs

theorem acceptTask_canonical {p queue : Nat} {cookie : BitVec 32} {ref : Word} {r : BitVec 512} {args : List Word}
    {binds : List (Nat × Nat)} {deps : List Nat} (hs : s.MemCanonical) :
    (acceptTask s p queue cookie ref r args binds deps).1.MemCanonical :=
  (bindTiles_canonical (modPart_canonical (journalNew_canonical hs))).congr rfl

theorem deviceLaunch_canonical {s0 : State} {p : Nat} {ref : Word} {r : BitVec 512} (hs0 : s0.MemCanonical) :
    (deviceLaunch s0 p ref r).1.MemCanonical := by
  unfold deviceLaunch
  dsimp only
  split
  · exact recordMeet_canonical hs0
  · exact canonical_ite_fst (recordMeet_canonical hs0) (modPart_canonical (acceptTask_canonical (recordMeet_canonical hs0)))

theorem alu2_canonical {p : BitVec 3} {d a b : BitVec 5} {l : Nat} {f : Word → Word → Word} (hs : s.MemCanonical) :
    (alu2 s p d a b l f).MemCanonical :=
  slotOp_canonical hs (fun _ hu => result_canonical hu)

theorem alu1_canonical {p : BitVec 3} {d a : BitVec 5} {f : Word → Word} (hs : s.MemCanonical) : (alu1 s p d a f).MemCanonical :=
  slotOp_canonical hs (fun _ hu => result_canonical hu)

theorem aluImm_canonical {p : BitVec 3} {d a : BitVec 5} {i : BitVec 12} {l : Nat} {f : Word → Word → Word} (hs : s.MemCanonical) :
    (aluImm s p d a i l f).MemCanonical :=
  slotOp_canonical hs (fun _ hu => result_canonical hu)

theorem modCur_canonical {f : Seq → Seq} (hs : s.MemCanonical) : (modCur s f).MemCanonical := hs

theorem divide_canonical {p : BitVec 3} {d a b : BitVec 5} {f : Word → Word → Word} (hs : s.MemCanonical) :
    (divide s p d a b f).MemCanonical :=
  slotOp_canonical hs (fun _ hu => canonical_ite hu (modCur_canonical (result_canonical hu)))

theorem compare2_canonical {p d : BitVec 3} {a b : BitVec 5} {f : Word → Word → Bool} (hs : s.MemCanonical) :
    (compare2 s p d a b f).MemCanonical :=
  slotOp_canonical hs (fun _ hu => setPred_canonical hu)

theorem compareImm_canonical {p d : BitVec 3} {a : BitVec 5} {i : BitVec 12} {f : Word → Word → Bool} (hs : s.MemCanonical) :
    (compareImm s p d a i f).MemCanonical :=
  slotOp_canonical hs (fun _ hu => setPred_canonical hu)

theorem blog_canonical {p d : BitVec 3} {f : State → Bool} (hs : s.MemCanonical) : (blog s p d f).MemCanonical :=
  slotOp_canonical hs (fun _ hu => setPred_canonical hu)

theorem jumpTo_canonical {t bubble : Nat} (hs : s.MemCanonical) : (jumpTo s t bubble).MemCanonical := codePoint_canonical hs

theorem alu0_canonical {p : BitVec 3} {d : BitVec 5} {f : State → Word} (hs : s.MemCanonical) : (alu0 s p d f).MemCanonical :=
  slotOp_canonical hs (fun _ hu => result_canonical hu)

theorem onChk_canonical {h : Nat} {c : Chk} {k : Place → State} (hs : s.MemCanonical)
    (hk : ∀ x0, (k x0).MemCanonical) : (onChk s h c k).MemCanonical := by
  unfold onChk
  split
  · exact hk _
  · exact hs
  · exact hs
  · exact raise_canonical hs

theorem handleLoad_canonical {i : Instr} {p : BitVec 3} {d : BitVec 5} {h : BitVec 4} {q : Bool} {c : BitVec 2} {f : BitVec 9}
    {z : Nat} {sx : Bool} (hs : s.MemCanonical) : (handleLoad i p d h q c f z sx s).MemCanonical :=
  slotOp_canonical hs (fun _ hu => onChk_canonical hu (fun _ => pushOut_canonical hu))

theorem handleStore_canonical {pl : Place} {h z : Nat} {v : Word} {rel : Bool} {scope : Nat} (hs : s.MemCanonical) :
    (handleStore s pl h z v rel scope).MemCanonical :=
  canonical_ite (pushOut_canonical hs) (gatePut_canonical hs)

theorem handleSt_canonical {i : Instr} {p : BitVec 3} {d : BitVec 5} {h : BitVec 4} {q : Bool} {c : BitVec 2} {f : BitVec 9}
    {z : Nat} (hs : s.MemCanonical) : (handleSt i p d h q c f z s).MemCanonical :=
  slotOp_canonical hs (fun _ hu => onChk_canonical hu (fun _ => handleStore_canonical hu))

theorem offsetLoad_canonical {i : Instr} {p : BitVec 3} {d : BitVec 5} {h : BitVec 4} {a : BitVec 5} {k : BitVec 8} {z : Nat}
    {sx : Bool} (hs : s.MemCanonical) : (offsetLoad i p d h a k z sx s).MemCanonical :=
  slotOp_canonical hs (fun _ hu => onChk_canonical hu (fun _ => result_canonical (pushOut_canonical hu)))

theorem offsetStore_canonical {i : Instr} {p : BitVec 3} {d : BitVec 5} {h : BitVec 4} {a : BitVec 5} {k : BitVec 8} {z : Nat}
    (hs : s.MemCanonical) : (offsetStore i p d h a k z s).MemCanonical :=
  slotOp_canonical hs (fun _ hu => onChk_canonical hu (fun _ => canonical_ite (handleStore_canonical hu)
      (result_canonical (handleStore_canonical hu))))

theorem xlatDue_canonical {a : Nat} (hs : s.MemCanonical) : (xlatDue s a).MemCanonical := by
  unfold xlatDue
  split
  · exact hs
  · exact hs

theorem tileLoad_canonical {i : Instr} {p : BitVec 3} {d : BitVec 5} {t : BitVec 6} {a : BitVec 5} {q : Bool} {c : BitVec 2}
    {n : Nat} (hs : s.MemCanonical) : (tileLoad i p d t a q c n s).MemCanonical := by
  unfold tileLoad
  dsimp only
  refine slotOp_canonical hs ?_
  intro x0 hu
  refine canonical_ite hu ?_
  split
  · exact raise_canonical hu
  · exact pushOut_canonical hu

theorem tileStore_canonical {i : Instr} {p : BitVec 3} {d : BitVec 5} {t : BitVec 6} {a : BitVec 5} {q : Bool} {c : BitVec 2}
    {n : Nat} (hs : s.MemCanonical) : (tileStore i p d t a q c n s).MemCanonical := by
  unfold tileStore
  dsimp only
  refine slotOp_canonical hs ?_
  intro x0 hu
  refine canonical_ite hu ?_
  split
  · exact raise_canonical hu
  · exact canonical_ite (pushOut_canonical hu) (gatePut_canonical hu)

theorem feArrive_canonical {a : Nat} (hs : s.MemCanonical) : (feArrive s a).MemCanonical := by
  unfold feArrive
  dsimp only
  split
  · exact hs
  · exact canonical_ite hs (canonical_ite hs (canonical_ite hs (serveWord_canonical (canonical_ite (releaseWork_canonical hs) hs))))

theorem feIssue_canonical {d kind : Nat} {w : Word} {bad : Bool} (hs : s.MemCanonical) : (feIssue s d kind w bad).MemCanonical :=
  regionNext_canonical (modCur_canonical (canonical_ite (acquireWork_canonical (lock_canonical (putPoison_canonical hs)))
      (lock_canonical (putPoison_canonical hs))))

theorem feSend_canonical {kind tile addr : Nat} {v : BitVec 32} (hs : s.MemCanonical) : (feSend s kind tile addr v).MemCanonical :=
  canonical_ite hs hs

theorem feOp_canonical {i : Instr} {p : BitVec 3} {d : BitVec 5} {t : BitVec 6} {a : BitVec 5} {kind : Nat} (hs : s.MemCanonical) :
    (feOp i p d t a kind s).MemCanonical := by
  unfold feOp
  dsimp only
  refine slotOp_canonical hs ?_
  intro x0 hu
  split
  · exact feIssue_canonical hu
  · refine canonical_ite hu ?_
    split
    · exact raise_canonical hu
    · exact withGate_canonical hu (fun _ hv => feSend_canonical hv)

theorem amo_canonical {i : Instr} {fn : Nat} {p : BitVec 3} {d : BitVec 5} {h : BitVec 4} {a : BitVec 5} {q r : Bool} {c : BitVec 2}
    (hs : s.MemCanonical) : (amo i fn p d h a q r c s).MemCanonical :=
  slotOp_canonical hs (fun _ hu => onChk_canonical hu (fun _ => releasingSt_canonical hu (fun _ hw => pushOut_canonical hw)))

theorem flushOldest_canonical {a : Nat} (hs : s.MemCanonical) : (flushOldest s a).MemCanonical := by
  unfold flushOldest
  split
  · exact hs
  · split
    · exact hs
    · exact resFlushOne_canonical hs

theorem acc_canonical {i : Instr} {fn : Nat} {p : BitVec 3} {d : BitVec 5} {h : BitVec 4} {a : BitVec 5} {r : Bool} {c : BitVec 2}
    (hs : s.MemCanonical) : (acc i fn p d h a r c s).MemCanonical := by
  unfold acc
  dsimp only
  exact slotOp_canonical hs (fun _ hu => onChk_canonical hu (fun _ => canonical_ite (block_canonical (flushOldest_canonical hu))
      (releasingSt_canonical hu (fun _ hw => pushOut_canonical (resMerge_canonical hw)))))

theorem pendDone_canonical {a : Nat} (hs : s.MemCanonical) : (pendDone s a).MemCanonical := hs

theorem resumeFence_canonical {a : Nat} {acq rel : Bool} {scope : Nat} (hs : s.MemCanonical) :
    (resumeFence s a acq rel scope).MemCanonical :=
  canonical_ite hs (pendDone_canonical (canonical_ite (acquireWork_canonical (canonical_ite (releaseWork_canonical hs) hs))
      (canonical_ite (releaseWork_canonical hs) hs)))

theorem clearEntries_canonical {base n : Nat} (hs : s.MemCanonical) : (clearEntries s base n).MemCanonical :=
  canonical_foldl (fun _ _ hu => resClear_canonical hu) hs

theorem resumeResid_canonical {a : Nat} {x : Option (Nat × Nat)} (hs : s.MemCanonical) : (resumeResid s a x).MemCanonical := by
  unfold resumeResid
  dsimp only
  refine canonical_ite hs ?_
  split
  · exact pendDone_canonical (modSeq_canonical (flushResid_canonical hs))
  · split
    · exact pendDone_canonical (modSeq_canonical (modSeq_canonical (flushResid_canonical hs)))
    · exact modSeq_canonical (pendDone_canonical (clearEntries_canonical
          (modSeq_canonical (modSeq_canonical (flushResid_canonical hs)))))

theorem bindSlot_canonical {k n : Nat} (hs : s.MemCanonical) : (bindSlot s k n).MemCanonical := by
  unfold bindSlot
  dsimp only
  refine modCur_canonical ?_
  split
  · exact hs
  · exact dropBinds_canonical hs

theorem tallocDenied_canonical {f : FaultInfo} {c : Nat} (hs : s.MemCanonical) : (tallocDenied s f c).MemCanonical := by
  unfold tallocDenied
  split
  · exact hs
  · exact canonical_ite hs (raise_canonical hs)

theorem tallocGo_canonical {i : Instr} {d t : Nat} {v : Word} (hs : s.MemCanonical) : (tallocGo s i d t v).MemCanonical := by
  unfold tallocGo
  dsimp only
  refine canonical_ite (tallocDenied_canonical hs) ?_
  split
  · exact holdUntil_canonical (setReg_canonical hs)
  · split
    · exact holdUntil_canonical (setReg_canonical hs)
    · exact holdUntil_canonical (setReg_canonical (bindSlot_canonical (placeTile_canonical hs)))

theorem freeTile_canonical {n : Nat} (hs : s.MemCanonical) : (freeTile s n).MemCanonical := hs

theorem dropProgs_canonical {n : Nat} {v : Option (BitVec 16)} (hs : s.MemCanonical) : (dropProgs s n v).MemCanonical := hs

theorem resumeTfree_canonical {a t : Nat} (hs : s.MemCanonical) : (resumeTfree s a t).MemCanonical := by
  unfold resumeTfree
  dsimp only
  split
  · exact hs
  · exact canonical_ite hs (pendDone_canonical (sweepTiles_canonical
        (dropProgs_canonical (freeTile_canonical (dropBinds_canonical hs)))))

theorem tmoveEnd_canonical {a d n st : Nat} {f : Tile → Tile} (hs : s.MemCanonical) : (tmoveEnd s a d n st f).MemCanonical :=
  putReg_canonical (canonical_ite hs hs)

theorem resumeTseal_canonical {a d t : Nat} (hs : s.MemCanonical) : (resumeTseal s a d t).MemCanonical := by
  unfold resumeTseal
  split
  · exact hs
  · exact canonical_ite hs (pendDone_canonical (tmoveEnd_canonical hs))

theorem tmoveGo_canonical {d t n : Nat} {y : Tile} {v : Word} (hs : s.MemCanonical) : (tmoveGo s d t n y v).MemCanonical := by
  unfold tmoveGo
  dsimp only
  split
  · exact canonical_ite (tmoveEnd_canonical hs) (canonical_ite (tmoveEnd_canonical hs)
        (tmoveEnd_canonical (modCur_canonical (bindSlot_canonical hs))))
  · exact canonical_ite (tmoveEnd_canonical hs) (canonical_ite (tmoveEnd_canonical hs) (tmoveEnd_canonical hs))
  · exact canonical_ite (tmoveEnd_canonical hs) (tmoveEnd_canonical hs)
  · exact canonical_ite (tmoveEnd_canonical hs) hs
  · exact tmoveEnd_canonical hs

theorem syncIssue_canonical {d : Nat} {v : Word} (hs : s.MemCanonical) : (syncIssue s d v).MemCanonical :=
  regionNext_canonical (modCur_canonical (setReg_canonical (acquireWork_canonical hs)))

theorem barOp_canonical {i : Instr} {p : BitVec 3} {srcs dsts : List Nat} {t : BitVec 6} {a : BitVec 5} {k : State → Place → State}
    (hs : s.MemCanonical) (hk : ∀ u x1, u.MemCanonical → (k u x1).MemCanonical) : (barOp i p srcs dsts t a s k).MemCanonical := by
  unfold barOp
  refine slotOp_canonical hs ?_
  intro x0 hu
  refine canonical_ite hu ?_
  split
  · exact raise_canonical hu
  · exact hk _ _ hu

theorem cbwaitIssue_canonical {d : Nat} {v : Word} (hs : s.MemCanonical) : (cbwaitIssue s d v).MemCanonical :=
  modCur_canonical (setReg_canonical (canonical_ite (acquireWork_canonical hs) hs))

theorem cbwaitQueue_canonical {addr phase : Nat} (hs : s.MemCanonical) :
    (cbwaitQueue s addr phase).MemCanonical := canonical_ite hs hs

theorem dequeOp_canonical {o : Out} {now : Bool} (hs : s.MemCanonical) : (dequeOp s o now).MemCanonical :=
  releasing_canonical hs (fun _ hu => canonical_ite (tryNow_canonical (pushOut_canonical hu) (fun _ _ _ hv => dqHome_canonical hv))
      (pushOut_canonical hu))

theorem sealOp_canonical {p : BitVec 3} {d a b : BitVec 5} {on : Bool} (hs : s.MemCanonical) :
    (sealOp p d a b on s).MemCanonical := by
  unfold sealOp
  dsimp only
  exact slotOp_canonical hs (fun _ hu => withGate_canonical hu (fun _ hv => canonical_ite hv
      (regionNext_canonical (setReg_canonical (sealRange_canonical (releaseWork_canonical hv))))))

theorem assignPort_canonical {a n : Nat} {l : List Nat} (hs : s.MemCanonical) : (assignPort s a n l).1.MemCanonical := by
  induction l generalizing s with
  | nil => exact hs
  | cons c l ih => exact ih (modPort_canonical hs)

theorem assignIf_canonical {a n : Nat} {cells : List Nat} (hs : s.MemCanonical) : (assignIf s a n cells).1.MemCanonical :=
  canonical_ite_fst (assignPort_canonical hs) hs

theorem assignWest_canonical {a : Nat} {cells l : List Nat} (hs : s.MemCanonical) : (assignWest s a cells l).1.MemCanonical := by
  induction l generalizing s with
  | nil => exact hs
  | cons p l ih => exact ih (assignIf_canonical hs)

theorem reserveIf_canonical {a n word : Nat} {cells : List Nat} (hs : s.MemCanonical) : (reserveIf s a n word cells).MemCanonical :=
  canonical_ite (canonical_foldl (fun _ _ hu => hu) hs) hs

theorem landCells_canonical {a : Nat} (hs : s.MemCanonical) : (landCells s a).MemCanonical := by
  unfold landCells
  dsimp only
  exact canonical_foldl (fun _ _ hu => canonical_foldl (fun _ _ hv => landSector_canonical hv) hu) hs

theorem issueWord_canonical {s0 : State} {a : Nat} {w : WordIn} (hs0 : s0.MemCanonical) : (issueWord s0 a w).MemCanonical := by
  unfold issueWord
  dsimp only
  exact modArr_canonical (canonical_foldl (fun _ _ hu => bumpCell_canonical hu)
      (canonical_foldl (fun _ _ hu => reserveIf_canonical hu) (reserveIf_canonical
      (assignWest_canonical (assignIf_canonical (landCells_canonical hs0))))))

theorem triggerCompile_canonical {a n : Nat} {t : Tile} {fmt : Word} {thr : Nat} (hs : s.MemCanonical) :
    (triggerCompile s a n t fmt thr).1.MemCanonical := by
  unfold triggerCompile
  dsimp only
  split
  · exact hs
  · exact hs

theorem compileMeet_canonical {a : Nat} {t : Tile} (hs : s.MemCanonical) : (compileMeet s a t).MemCanonical :=
  canonical_foldl (fun _ _ hu => markPoison_canonical hu) hs

theorem modProg_canonical {a k : Nat} {f : Prog → Prog} (hs : s.MemCanonical) : (modProg s a k f).MemCanonical := hs

theorem compileBegins_canonical {a : Nat} (hs : s.MemCanonical) : (compileBegins s a).MemCanonical := by
  unfold compileBegins
  dsimp only
  split
  · exact hs
  · exact modProg_canonical (compileMeet_canonical hs)

theorem makeRoom_canonical {n a len : Nat} (hs : s.MemCanonical) : (makeRoom n s a len).1.MemCanonical := by
  induction n generalizing s with
  | zero => exact hs
  | succ n ih =>
    unfold makeRoom
    split
    · exact hs
    · split
      · exact hs
      · exact ih (modProg_canonical hs)

theorem writeMaps_canonical {a : Nat} {t : Tile} {base : Nat} {lv : List Nat} (hs : s.MemCanonical) :
    (writeMaps s a t base lv).MemCanonical :=
  canonical_foldl (fun _ _ hu => canonical_foldl (fun _ _ hv => hv) hu) hs

theorem compileEnds_canonical {a k : Nat} (hs : s.MemCanonical) : (compileEnds s a k).MemCanonical := by
  unfold compileEnds
  dsimp only
  refine canonical_ite hs (canonical_ite hs (canonical_ite hs ?_))
  split
  · rename_i h1
    exact modProg_canonical ((makeRoom_canonical hs).of_fst h1)
  · rename_i h1
    exact modProg_canonical (writeMaps_canonical ((makeRoom_canonical hs).of_fst h1))

theorem playRun_canonical {i : Instr} {d : Nat} {v : Word} {words : List (Instr × Instr × Instr × Bool)} {entry mapBase : Nat}
    {status : Word} (hs : s.MemCanonical) : (playRun s i d v words entry mapBase status).MemCanonical := by
  unfold playRun
  dsimp only
  refine canonical_ite (raise_canonical hs) ?_
  split
  · exact raise_canonical hs
  · exact canonical_ite (modCur_canonical (result_canonical hs)) hs

theorem playSparse_canonical {i : Instr} {d wslot : Nat} {v : Word} {k : Nat} (hs : s.MemCanonical) :
    (playSparse s i d wslot v k).MemCanonical :=
  playRun_canonical hs

theorem playDense_canonical {i : Instr} {d wslot : Nat} {v : Word} {t : Tile} {k : Nat} (hs : s.MemCanonical) :
    (playDense s i d wslot v t k).MemCanonical :=
  playRun_canonical hs

theorem play_canonical {i : Instr} {p : BitVec 3} {d a h : BitVec 5} {t : BitVec 6} {waits : Bool} (hs : s.MemCanonical) :
    (play i p d a h t waits s).MemCanonical := by
  unfold play
  dsimp only
  refine slotOp_canonical hs ?_
  intro x0 hu
  refine canonical_ite hu ?_
  split
  · exact raise_canonical hu
  · split
    · exact raise_canonical hu
    · split
      · exact canonical_ite (playSparse_canonical hu) (canonical_ite (playDense_canonical hu)
            (canonical_ite (playDense_canonical hu) hu))
      · exact canonical_ite (block_canonical (triggerCompile_canonical hu)) (playDense_canonical (triggerCompile_canonical hu))

theorem playEnd_canonical {a : Nat} {y : Play} (hs : s.MemCanonical) : (playEnd s a y).MemCanonical :=
  modSeq_canonical (putReg_canonical hs)

theorem resumeLdatt_canonical {a : Nat} {k : Word} {vals : List (BitVec 16)} (hs : s.MemCanonical) :
    (resumeLdatt s a k vals).MemCanonical :=
  canonical_ite hs (dropLd_canonical (pendDone_canonical (canonical_foldl (fun _ _ hu => hu) hs)))

theorem copyOp_canonical {p : Nat} {srcs dsts : List Nat} {k : State → State} (hs : s.MemCanonical)
    (hk : ∀ u, u.MemCanonical → (k u).MemCanonical) : (copyOp s p srcs dsts k).MemCanonical := by
  unfold copyOp
  refine canonical_ite hs (canonical_ite hs (canonical_ite (raise_canonical hs) ?_))
  split
  · exact raise_canonical hs
  · exact hk _ hs

theorem enqueue_canonical {i : Instr} {e : Nat} {ra rb : Word} {dst : Option Word} {c : Except FaultInfo (List (Nat × Nat))}
    (hs : s.MemCanonical) : (enqueue s i e ra rb dst c).MemCanonical := by
  unfold enqueue
  dsimp only
  split
  · exact raise_canonical hs
  · exact canonical_ite hs (canonical_ite hs (releasing_canonical hs
        (fun _ hu => modCur_canonical (modEng_canonical (canonical_foldl (fun _ _ hv => bumpCell_canonical hv) hu)))))

theorem gatherOp_canonical {i : Instr} {p : BitVec 3} {a b : BitVec 5} {e : BitVec 2} {wide scatter : Bool} {x : BitVec 2}
    (hs : s.MemCanonical) : (gatherOp i p a b e wide scatter x s).MemCanonical := by
  unfold gatherOp
  dsimp only
  exact copyOp_canonical hs (fun _ hu => canonical_ite hu (enqueue_canonical hu))

theorem cancelHead_canonical {a e : Nat} (hs : s.MemCanonical) : (cancelHead s a e).MemCanonical := by
  unfold cancelHead
  split
  · exact hs
  · exact cmdEnd_canonical (withdrawCmd_canonical hs)

theorem cancelMany_canonical {a e n : Nat} (hs : s.MemCanonical) : (cancelMany s a e n).MemCanonical := by
  induction n generalizing s with
  | zero => exact hs
  | succ n ih => exact ih (cancelHead_canonical hs)

theorem resumePhaseOpen_canonical {a g : Nat} {arrived : Bool} (hs : s.MemCanonical) :
    (resumePhaseOpen s a g arrived).MemCanonical :=
  canonical_ite hs (canonical_ite hs (groupArrive_canonical (modSeq_canonical (releaseWork_canonical hs))))

theorem groupWithdraw_canonical {p g a : Nat} (hs : s.MemCanonical) : (groupWithdraw s p g a).MemCanonical := hs

theorem modGroup_canonical {n : Nat} {f : Group → Group} (hs : s.MemCanonical) : (modGroup s n f).MemCanonical := hs

theorem closeBroken_canonical {a g : Nat} (hs : s.MemCanonical) : (closeBroken s a g).MemCanonical :=
  sweepImux_canonical (acquireWork_canonical (modSeq_canonical (pendDone_canonical
      (modGroup_canonical (groupWithdraw_canonical hs)))))

theorem resumePhaseClose_canonical {a g : Nat} (hs : s.MemCanonical) : (resumePhaseClose s a g).MemCanonical :=
  canonical_ite (closeBroken_canonical hs) (phaseEnd_canonical hs)

theorem cmdAcquire_canonical {a : Nat} {c : Cmd} (hs : s.MemCanonical) : (cmdAcquire s a c).MemCanonical :=
  canonical_ite (releaseWork_canonical (writeBackAll_canonical hs)) hs

theorem creditFlit_canonical {f : Flit} (hs : s.MemCanonical) : (creditFlit s f).MemCanonical := by
  unfold creditFlit
  dsimp only
  refine canonical_ite hs ?_
  split
  · exact hs
  · exact barUpdate_canonical hs

theorem flitEnter_canonical {f : Flit} (hs : s.MemCanonical) :
    (flitEnter s f).MemCanonical := canonical_ite (creditFlit_canonical hs) hs

theorem flitLeave_canonical {a e k : Nat} (hs : s.MemCanonical) : (flitLeave s a e k).MemCanonical := by
  unfold flitLeave
  dsimp only
  split
  · exact hs
  · exact canonical_foldl (fun _ _ hu => flitEnter_canonical hu) (modEng_canonical
        (canonical_foldl (fun _ _ hu => countFlits_canonical hu) (canonical_foldl (fun _ _ hu => markPoison_canonical hu)
        (canonical_ite (cmdAcquire_canonical hs) hs))))

theorem dropFlit_canonical {f : Flit} {other : Nat} (hs : s.MemCanonical) : (dropFlit s f other).MemCanonical := canonical_ite hs hs

theorem noteWrote_canonical {a e seq : Nat} {l : List Host.Cell} (hs : s.MemCanonical) : (noteWrote s a e seq l).MemCanonical := hs

theorem landFlit_canonical {f : Flit} {k : Nat} (hs : s.MemCanonical) : (landFlit s f k).MemCanonical := by
  unfold landFlit
  dsimp only
  split
  · exact hs
  · exact creditFlit_canonical (canonical_ite hs (putCells_canonical _ _
        (noteWrote_canonical (coverFlits_canonical (landUnder_canonical hs)))))

theorem flitsGone_canonical {n : Nat} (hs : s.MemCanonical) : (flitsGone s n).MemCanonical := by
  unfold flitsGone
  refine sweepImux_canonical (canonical_foldl ?_ hs)
  intro x0 x1 hu
  split
  · exact canonical_ite (phaseEnd_canonical hu) hu
  · exact hu

theorem flitEject_canonical (hs : s.MemCanonical) : (flitEject s).MemCanonical := by
  unfold flitEject
  dsimp only
  split
  · exact hs
  · refine canonical_foldl (fun _ _ hu => flitsGone_canonical hu) (canonical_foldl ?_ hs)
    intro x0 x1 hu
    refine canonical_ite (dropFlit_canonical hu) ?_
    split
    · exact dropFlit_canonical hu
    · split
      · exact landFlit_canonical hu
      · exact dropFlit_canonical hu

theorem startCmd_canonical {a e : Nat} (hs : s.MemCanonical) : (startCmd s a e).MemCanonical := by
  unfold startCmd
  split
  · exact hs
  · exact canonical_ite (cmdStop_canonical hs) (modEng_canonical (cmdAcquire_canonical hs))

theorem touchLines_canonical {p lo hi : Nat} {e : Word} (hs : s.MemCanonical) : (touchLines s p lo hi e).MemCanonical :=
  canonical_foldl (fun _ _ hu => sliceTouch_canonical _ _ _ hu) hs

theorem tprefRun_canonical {a : Nat} {c : Cmd} (hs : s.MemCanonical) : (tprefRun s a c).MemCanonical := by
  unfold tprefRun
  dsimp only
  refine canonical_foldl ?_ hs
  intro x0 x1 hu
  split
  · exact translate_canonical hu
  · exact canonical_ite (translate_canonical hu) (canonical_ite (touchLines_canonical (tlbFill_canonical (translate_canonical hu)))
        (tlbFill_canonical (translate_canonical hu)))

theorem tflushRun_canonical {s0 : State} {a : Nat} {c : Cmd} (hs0 : s0.MemCanonical) : (tflushRun s0 a c).MemCanonical :=
  modArr_canonical (evictLines_canonical _ (canonical_foldl (fun _ _ hu => walkTouch_canonical hu) hs0))

theorem endWork_canonical {a e : Nat} {c : Cmd} (hs : s.MemCanonical) : (endWork s a e c).MemCanonical := by
  unfold endWork
  split
  · exact bindPort_canonical hs
  · exact bindPort_canonical hs
  · exact hs
  · exact tprefRun_canonical hs
  · exact tflushRun_canonical hs
  · exact hs

theorem finishCmd_canonical {a e : Nat} (hs : s.MemCanonical) : (finishCmd s a e).MemCanonical := by
  unfold finishCmd
  dsimp only
  split
  · exact hs
  · exact canonical_ite (flitsGone_canonical (canonical_ite (cmdStop_canonical hs) (cmdEnd_canonical (endWork_canonical hs))))
        (canonical_ite (cmdStop_canonical hs) (cmdEnd_canonical (endWork_canonical hs)))

end Sys2Proof.Machine
end
section
/-! Canonical memory, continued: events of a sequencer, the cells, lists, tasks, the front end, administration and the outside. -/

namespace Sys2Proof.Machine

variable {s : State}

theorem resumePend_canonical {a : Nat} (hs : s.MemCanonical) : (resumePend s a).MemCanonical := by
  unfold resumePend
  split
  · exact hs
  · exact resumeFence_canonical hs
  · exact resumeResid_canonical hs
  · exact resumeLdatt_canonical hs
  · exact resumeTfree_canonical hs
  · exact resumeTseal_canonical hs
  · exact resumePhaseOpen_canonical hs
  · exact hs
  · exact resumePhaseClose_canonical hs

theorem onOut_canonical {ok : Out → Bool} {f : State → Nat → Nat → Out → State} (hs : s.MemCanonical)
    (hf : ∀ u x1 x2 x3, u.MemCanonical → (f u x1 x2 x3).MemCanonical) : (onOut s ok f).MemCanonical := by
  unfold onOut
  split
  · exact hs
  · exact canonical_ite (hf _ _ _ _ hs) hs

theorem acceptDue_canonical {x : Resend} (hs : s.MemCanonical) : (acceptDue s x).MemCanonical := by
  unfold acceptDue
  dsimp only
  split
  · exact windowAdd_canonical hs
  · exact canonical_ite hs (accPerform_canonical hs)

theorem modHandle_canonical {a h : Nat} {f : Handle → Handle} (hs : s.MemCanonical) : (modHandle s a h f).MemCanonical := hs

theorem walkEnd_canonical {a k : Nat} (hs : s.MemCanonical) : (walkEnd s a k).MemCanonical := by
  unfold walkEnd
  dsimp only
  exact canonical_ite hs (modHandle_canonical (countMiss_canonical (walkFill_canonical hs)))

theorem fillCode_canonical {a : Nat} (hs : s.MemCanonical) : (fillCode s a).MemCanonical := by
  unfold fillCode
  dsimp only
  split
  · exact hs
  · exact modArr_canonical (countHome_canonical (sliceTouch_canonical _ _ _ (markPoison_canonical hs)))

theorem execLdc_canonical {d a b : BitVec 6} {w : BitVec 3} {c f m : Bool} (hs : s.MemCanonical) :
    NextCanonical (execLdc d a b w c f m s) := by
  unfold execLdc
  refine next_canonical ?_
  dsimp only
  refine slotRun_canonical hs ?_
  intro x0 hu
  refine withLanes_canonical hu ?_
  intro x0
  split
  · exact locFault_canonical hu
  · refine canonical_ite (locFault_canonical hu) ?_
    split
    · exact locFault_canonical hu
    · exact writeResult_canonical hu

theorem execStc_canonical {d a b : BitVec 6} {w : BitVec 3} {m : Bool} (hs : s.MemCanonical) :
    NextCanonical (execStc d a b w m s) := by
  unfold execStc
  refine next_canonical ?_
  dsimp only
  refine slotRun_canonical hs ?_
  intro x0 hu
  refine withLanes_canonical hu ?_
  intro x0
  split
  · exact locFault_canonical hu
  · exact canonical_ite (locFault_canonical hu) (canonical_ite (locFault_canonical hu)
        (storeHeads_canonical (writeWords_canonical hu)))

theorem addExtra_canonical {n : Nat} (hs : s.MemCanonical) : (addExtra s n).MemCanonical := hs

theorem execVgath_canonical {d a b : BitVec 6} {w : BitVec 3} {c f : Bool} (hs : s.MemCanonical) :
    NextCanonical (execVgath d a b w c f s) := by
  refine next_canonical (slotRun_canonical hs fun u hu => withOps_canonical hu fun xs => ?_)
  split
  · exact locFault_canonical hu
  · refine canonical_ite (locFault_canonical hu) ?_
    split
    · exact locFault_canonical hu
    · exact writeResult_canonical (addExtra_canonical hu)

theorem execVscat_canonical {d a b : BitVec 6} {w : BitVec 3} (hs : s.MemCanonical) : NextCanonical (execVscat d a b w s) := by
  unfold execVscat
  refine next_canonical ?_
  dsimp only
  refine slotRun_canonical hs ?_
  intro x0 hu
  refine withOps_canonical hu ?_
  intro x0
  split
  · exact locFault_canonical hu
  · exact canonical_ite (locFault_canonical hu) (canonical_ite (locFault_canonical hu)
        (addExtra_canonical (writeWords_canonical hu)))

theorem execArnd_canonical {d a b : BitVec 6} {_w : BitVec 3} {c f m : Bool} (hs : s.MemCanonical) :
    NextCanonical (execArnd d a b _w c f m s) := by
  unfold execArnd
  refine next_canonical ?_
  dsimp only
  exact slotRun_canonical hs (fun _ hu => withLanes_canonical hu (fun _ => noHazard_canonical hu (writeResult_canonical hu)))

theorem execMmaSel_canonical {d a b : BitVec 6} {w : BitVec 3} (hs : s.MemCanonical) : NextCanonical (execMmaSel d a b w s) := by
  unfold execMmaSel
  refine next_canonical ?_
  dsimp only
  refine slotRun_canonical hs ?_
  intro x0 hu
  refine withLanes_canonical hu ?_
  intro x0
  split
  · exact locFault_canonical hu
  · refine canonical_ite (locFault_canonical hu) (chainHazard_canonical hu
        (canonical_ite hu (canonical_ite (locFault_canonical hu) ?_)))
    split
    · exact locFault_canonical hu
    · exact noteAcc_canonical (writeReg_canonical hu)

theorem execRacc_canonical {d a b : BitVec 6} {w : BitVec 3} (hs : s.MemCanonical) : NextCanonical (execRacc d a b w s) := by
  unfold execRacc
  refine next_canonical ?_
  dsimp only
  refine slotRun_canonical hs ?_
  intro x0 hu
  refine withLanes_canonical hu ?_
  intro x0
  split
  · exact locFault_canonical hu
  · refine canonical_ite (locFault_canonical hu) (canonical_ite (locFault_canonical hu) (chainHazard_canonical hu ?_))
    split
    · exact locFault_canonical hu
    · exact addExtra_canonical (noteAcc_canonical (writeReg_canonical hu))

theorem keepEcc_canonical {s0 : State} {codes : List Nat} (hs : s.MemCanonical) : (keepEcc s s0 codes).MemCanonical := hs

theorem cellDispatch_canonical {i : Instr} (hs : s.MemCanonical) : NextCanonical (cellDispatch i s) := by
  cases i
  case fadd | fsub | fmul | fma | fmin | fmax | fcmpEq | fcmpNe | fcmpLt | fcmpLe | frcp | frsq | fsqrt | fex2 |
      flg2 | hadd2 | hfma2 | bfma2 | cvtI32F32 | cvtF32I32 | imul | imad | iabs | vredAdd | vredMax | vredMin |
      vredOr | rkval =>
    exact next_canonical (runVec_canonical hs)
  case cvtF16F32 | cvtF32F16 | cvtBf16F32 | cvtF32Bf16 | cvtE4m3F32 | cvtE5m2F32 | cvtF32E4m3 | cvtF32E5m2 |
      cellSel | vperm | srng =>
    exact next_canonical (runVecOn_canonical hs)
  case iadd | isub | imin | imax | cellAnd | cellOr | cellXor | cellShl | cellShr | cellSra | icmpEq | icmpNe |
      icmpLt | icmpLtn =>
    exact next_canonical (runImm_canonical hs)
  case mov =>
    exact next_canonical (slotRun_canonical hs (fun _ hu => withOps_canonical hu
        (fun _ => canonical_ite ((writeResult_canonical hu).congr rfl) (writeResult_canonical hu))))
  case ldc => exact execLdc_canonical hs
  case stc => exact execStc_canonical hs
  case vgath => exact execVgath_canonical hs
  case vscat => exact execVscat_canonical hs
  case vbcast => exact next_canonical (canonical_ite (runVecOn_canonical hs) (runVecOn_canonical hs))
  case flag =>
    exact next_canonical (slotRun_canonical hs (fun _ hu => withLanes_canonical hu (fun _ => writeResult_canonical hu)))
  case optupd =>
    exact next_canonical (slotRun_canonical hs (fun _ hu => noHazard_canonical hu
        (canonical_ite (writeResult_canonical (writeReg_canonical (writeReg_canonical hu)))
        (takeLoc_canonical (optCount_canonical (keepEcc_canonical (writeResult_canonical
        (writeReg_canonical (writeReg_canonical hu)))))))))
  case mma | mmaNeg => exact next_canonical (runMma_canonical hs)
  case mmaSel => exact execMmaSel_canonical hs
  case aclr => exact next_canonical (slotRun_canonical hs (fun _ hu => noHazard_canonical hu (writeReg_canonical hu)))
  case amov =>
    exact next_canonical (slotRun_canonical hs (fun _ hu => withOps_canonical hu
        (fun _ => noHazard_canonical hu (canonical_ite (noHazard_canonical hu (writeResult_canonical hu))
        (writeResult_canonical hu)))))
  case ald =>
    exact next_canonical (slotRun_canonical hs (fun _ hu => withOps_canonical hu
        (fun _ => noHazard_canonical hu (writeResult_canonical hu))))
  case arnd d a b w c f m => exact execArnd_canonical (_w := w) hs
  case racc => exact execRacc_canonical hs
  all_goals exact next_canonical hs

theorem outState_canonical {m : MOut} (hm : NextCanonical m) (hs : s.MemCanonical) : (outState m s).MemCanonical := by
  unfold outState
  split
  · exact hm _ rfl
  · exact hs

theorem runSlot_canonical {k : Nat} {mask : SelPair} {i : Instr} (hs : s.MemCanonical) : (runSlot s k mask i).MemCanonical :=
  canonical_ite hs (outState_canonical (cellDispatch_canonical hs) hs)

theorem pushDrains_canonical {top row col : Nat} {w : WordF} (hs : s.MemCanonical) : (pushDrains s top row col w).MemCanonical :=
  canonical_ite (modPort_canonical (canonical_ite hs hs)) (canonical_ite hs hs)

theorem cellExecute_canonical {top row col : Nat} {w : WordF} (hs : s.MemCanonical) :
    (cellExecute s top row col w).1.MemCanonical := by
  unfold cellExecute
  dsimp only
  refine pushDrains_canonical (runSlot_canonical (runSlot_canonical (runSlot_canonical ?_)))
  split
  · exact hs
  · exact hs

theorem wordStep_canonical {a k : Nat} (hs : s.MemCanonical) : (wordStep s a k).MemCanonical := by
  unfold wordStep
  dsimp only
  split
  · exact hs
  · split
    · exact hs
    · exact modArr_canonical (cellExecute_canonical hs)

theorem haltQueue_canonical {q cause skip : Nat} (hs : s.MemCanonical) : (haltQueue s q cause skip).MemCanonical := hs

theorem modQueue_canonical {q : Nat} {f : Queue → Queue} (hs : s.MemCanonical) : (modQueue s q f).MemCanonical := hs

theorem ringRead_canonical {q : Nat} (hs : s.MemCanonical) : (ringRead s q).MemCanonical := by
  unfold ringRead
  dsimp only
  refine canonical_ite hs ?_
  split
  · exact haltQueue_canonical (virtMeet_canonical hs)
  · exact canonical_ite (haltQueue_canonical (virtMeet_canonical hs)) (modQueue_canonical (virtMeet_canonical hs))

theorem entryMeet_canonical {p a : Nat} (hs : s.MemCanonical) : (entryMeet s p a).MemCanonical := virtMeet_canonical hs

theorem onEntry_canonical {q kind : Nat} {f : State → Nat → Nat → BitVec 256 → State} (hs : s.MemCanonical)
    (hf : ∀ (u : State) p a e, u.MemCanonical → (f u p a e).MemCanonical) : (onEntry s q kind f).MemCanonical := by
  unfold onEntry
  split
  · exact hs
  · exact haltQueue_canonical (entryMeet_canonical hs)
  · refine canonical_ite (haltQueue_canonical (entryMeet_canonical hs)) (canonical_ite hs
      (canonical_ite (haltQueue_canonical (entryMeet_canonical hs)) (hf _ _ _ _ (entryMeet_canonical hs))))

theorem accepting_canonical {q p a kind detail : Nat} {f : State → Nat → State} (hs : s.MemCanonical)
    (hf : ∀ u x1, u.MemCanonical → (f u x1).MemCanonical) : (accepting s q p a kind detail f).MemCanonical :=
  canonical_ite hs (hf _ _ (journalNew_canonical hs))

theorem immediate_canonical {q p a kind : Nat} {f : State → State} (hs : s.MemCanonical)
    (hf : ∀ u, u.MemCanonical → (f u).MemCanonical) : (immediate s q p a kind f).MemCanonical :=
  accepting_canonical hs (fun _ _ hu => journalSet_canonical (hf _ hu))

theorem pruneXfers_canonical (hs : s.MemCanonical) : (pruneXfers s).MemCanonical := hs

theorem promote_canonical (hs : s.MemCanonical) : (promote s).MemCanonical := hs

theorem goTo_canonical {q a : Nat} (hs : s.MemCanonical) : (goTo s q a).MemCanonical := hs

theorem launchEntry_canonical {s0 : State} {q p a : Nat} {lo : BitVec 256} (hs0 : s0.MemCanonical) :
    (launchEntry s0 q p a lo).MemCanonical := by
  unfold launchEntry
  dsimp only
  split
  · exact haltQueue_canonical (virtMeet_canonical hs0)
  · refine canonical_ite (virtMeet_canonical hs0) ?_
    split
    · exact haltQueue_canonical (recordMeet_canonical (virtMeet_canonical hs0))
    · exact goTo_canonical (pruneXfers_canonical (promote_canonical
          (acceptTask_canonical (recordMeet_canonical (virtMeet_canonical hs0)))))

theorem cancelOn_canonical {p seq : Nat} (hs : s.MemCanonical) : (cancelOn s p seq).MemCanonical := by
  unfold cancelOn
  refine canonical_foldl ?_ hs
  intro x0 x1 hu
  split
  · exact canonical_ite (endUnstarted_canonical hu) hu
  · exact hu

theorem unwaitXfer_canonical {q seq : Nat} (hs : s.MemCanonical) : (unwaitXfer s q seq).MemCanonical := hs

theorem xferDrop_canonical {x : Xfer} {failed : Bool} {detail : Nat} (hs : s.MemCanonical) :
    (xferDrop s x failed detail).MemCanonical :=
  pruneXfers_canonical (promote_canonical (canonical_ite (haltQueue_canonical
      (unwaitXfer_canonical (cancelOn_canonical ((journalSet_canonical hs).congr rfl))))
      (unwaitXfer_canonical (cancelOn_canonical ((journalSet_canonical hs).congr rfl)))))

theorem xferRefuse_canonical {x : Xfer} (hs : s.MemCanonical) : (xferRefuse s x).MemCanonical := by
  unfold xferRefuse
  dsimp only
  exact xferDrop_canonical hs

theorem xferEntry_canonical {q p a : Nat} {e : BitVec 256} (hs : s.MemCanonical) : (xferEntry s q p a e).MemCanonical :=
  canonical_ite hs (accepting_canonical hs (fun _ _ hu => canonical_ite (xferRefuse_canonical hu) hu))

theorem xferMove_canonical {p : Nat} {l : List (Nat × Nat)} (hs : s.MemCanonical) : (xferMove s p l).MemCanonical :=
  homeCells_canonical (touchAll_canonical _ _ _ (canonical_foldl (fun _ _ hu => markPoison_canonical hu) hs))

theorem sideWalks_canonical {p len : Nat} {v : Word} (hs : s.MemCanonical) : (sideWalks s p len v).MemCanonical :=
  canonical_ite hs (canonical_foldl (fun _ _ hu => walkTouch_canonical hu) hs)

theorem xferStep_canonical {k : Nat} (hs : s.MemCanonical) : (xferStep s k).MemCanonical := by
  unfold xferStep
  dsimp only
  split
  · exact hs
  next x _ =>
    have hm : (xferMove (sideWalks (sideWalks s x.part x.len x.src) x.part x.len x.dst) x.part
        (xferRun s x.part x.src x.dst x.len 0).1).MemCanonical := xferMove_canonical (sideWalks_canonical (sideWalks_canonical hs))
    exact canonical_ite (xferRefuse_canonical hs) (canonical_ite (xferDrop_canonical hs) (canonical_ite (journalSet_canonical hs)
      (canonical_ite (xferDrop_canonical hm) (pruneXfers_canonical (promote_canonical
          (unwaitXfer_canonical (journalSet_canonical hm)))))))

theorem condMeet_canonical {p : Nat} {e : BitVec 256} (hs : s.MemCanonical) : (condMeet s p e).MemCanonical := virtMeet_canonical hs

theorem entryFails_canonical {q p seq cause code : Nat} (hs : s.MemCanonical) : (entryFails s q p seq cause code).MemCanonical :=
  haltQueue_canonical (modQueue_canonical (journalSet_canonical hs))

theorem waitcRead_canonical {q seq began : Nat} (hs : s.MemCanonical) : (waitcRead s q seq began).MemCanonical := by
  unfold waitcRead
  dsimp only
  split
  · exact entryFails_canonical (condMeet_canonical hs)
  · exact modQueue_canonical (journalSet_canonical (condMeet_canonical hs))
  · exact modQueue_canonical (condMeet_canonical hs)

theorem signalWrite_canonical {p : Nat} {e : BitVec 256} (hs : s.MemCanonical) : (signalWrite s p e).1.MemCanonical := by
  unfold signalWrite
  dsimp only
  split
  · exact walkTouch_canonical hs
  · exact canonical_ite_fst (walkTouch_canonical hs) (canonical_ite_fst (rmw_canonical _ _ _ _ (walkTouch_canonical hs))
        (virtWrite_canonical hs))

theorem keepPass_canonical {p : Nat} (hs : s.MemCanonical) : (keepPass s p).MemCanonical := by
  unfold keepPass
  split
  · exact hs
  · exact hs

theorem putTile_canonical {x : Placement} {n pos : Nat} {y : Tile} (hs : s.MemCanonical) {t : State}
    (h : putTile s x n pos y = some t) : t.MemCanonical := by
  obtain ⟨_, h⟩ := Option.ite_none_left_eq_some.mp h
  obtain ⟨b, _, rfl⟩ := Option.map_eq_some_iff.mp h
  exact placeTile_canonical hs

theorem placeBinds_canonical {x : Placement} {l : List Nat} (hs : s.MemCanonical) {t : State} (h : placeBinds x l s = some t) :
    t.MemCanonical := by
  induction l generalizing s with
  | nil => exact Option.some.inj h ▸ hs
  | cons n l ih =>
    unfold placeBinds at h
    dsimp only at h
    split at h
    · split at h
      · exact nomatch h
      · exact ih hs h
    · split at h
      · exact nomatch h
      · split at h
        next => exact nomatch h
        next hp => exact ih (putTile_canonical hs hp) h

theorem restoreTile_canonical {x : Placement} {v : SavedTile} (hs : s.MemCanonical) {t : State} (h : restoreTile s x v = some t) :
    t.MemCanonical := by
  obtain ⟨u, hu, rfl⟩ := Option.map_eq_some_iff.mp h
  exact wf_writeCells _ (putTile_canonical hs hu)

theorem restoreTiles_canonical {x : Placement} {l : List SavedTile} (hs : s.MemCanonical) {t : State}
    (h : restoreTiles x l s = some t) :
    t.MemCanonical := by
  induction l generalizing s with
  | nil => exact Option.some.inj h ▸ hs
  | cons v l ih =>
    unfold restoreTiles at h
    split at h
    · exact ih hs h
    · split at h
      next => exact nomatch h
      next hv => exact ih (restoreTile_canonical hs hv) h

theorem noteSkips_canonical {p i : Nat} (hs : s.MemCanonical) :
    (noteSkips s p i).MemCanonical := canonical_foldl (fun _ _ hu => hu) hs

theorem requestPreempt_canonical {i : Nat} (hs : s.MemCanonical) : (requestPreempt s i).MemCanonical := by
  unfold requestPreempt
  split
  · exact hs
  · exact canonical_ite hs hs

theorem assignChecks_canonical {x : Placement} {k : Task} (hs : s.MemCanonical) {t : State} (h : assignChecks s x k = .ok t) :
    t.MemCanonical := by
  unfold assignChecks at h
  dsimp only at h
  split at h
  · exact nomatch h
  · split at h
    · exact nomatch h
    · split at h
      · exact nomatch h
      · split at h
        next => exact nomatch h
        next hb => exact Except.ok.inj h ▸ placeBinds_canonical hs hb

theorem takeArrays_canonical {x : Placement} (hs : s.MemCanonical) :
    (takeArrays s x).MemCanonical := canonical_foldl (fun _ _ hu => hu) hs

theorem assign_canonical {s0 : State} {p i : Nat} {x : Placement} {t : Task} (hs0 : s0.MemCanonical) :
    (assign s0 p i x t).MemCanonical := by
  unfold assign
  dsimp only
  split
  · split
    · exact keepPass_canonical hs0
    · rename_i h1
      exact modTask_canonical (takeArrays_canonical (modPart_canonical
          (noteSkips_canonical (restoreTiles_canonical (keepPass_canonical hs0) h1))))
  · split
    · exact endUnstarted_canonical (keepPass_canonical hs0)
    · rename_i h1
      exact modTask_canonical (takeArrays_canonical (modPart_canonical
          (noteSkips_canonical (assignChecks_canonical (walkTouch_canonical (keepPass_canonical hs0)) h1))))

theorem seedCells_canonical {x : Placement} {seed : Word} (hs : s.MemCanonical) : (seedCells s x seed).MemCanonical :=
  canonical_foldl (fun _ _ hu => hu) hs

theorem freshArrays_canonical {x : Placement} (hs : s.MemCanonical) : (freshArrays s x).MemCanonical :=
  canonical_foldl (fun _ _ hu => hu) hs

theorem bindLate_canonical {t : Task} (hs : s.MemCanonical) : (bindLate s t).MemCanonical := bindTiles_canonical hs

theorem clearCells_canonical {l : List Nat} (hs : s.MemCanonical) : (clearCells s l).MemCanonical := hs

theorem openRegion_canonical {a pc : Nat} {mark : Bool} (hs : s.MemCanonical) : (openRegion s a pc mark).MemCanonical := hs

theorem beginTask_canonical {i : Nat} {x : Placement} {t : Task} (hs : s.MemCanonical) : (beginTask s i x t).MemCanonical :=
  modTask_canonical (joinGroups_canonical (openRegion_canonical (fillCode_canonical
      (modArr_canonical (seedCells_canonical (clearCells_canonical (freshArrays_canonical
      (bindLate_canonical (walkFill_canonical (invalidateCache_canonical hs))))))))))

theorem noteStarted_canonical {a : Nat} (hs : s.MemCanonical) : (noteStarted s a).MemCanonical := by
  unfold noteStarted
  split
  · exact hs
  · split
    · exact hs
    · exact canonical_ite hs (journalSet_canonical hs)

theorem dropAssigned_canonical {t : Task} (hs : s.MemCanonical) : (dropAssigned s t).MemCanonical :=
  canonical_ite (canonical_foldl (fun _ _ hu => hu) hs) hs

theorem cancelSeq_canonical {p seq : Nat} (hs : s.MemCanonical) : (cancelSeq s p seq).MemCanonical := by
  unfold cancelSeq
  dsimp only
  split
  · split
    next t _ =>
      have h1 : (dropAssigned s t).MemCanonical := dropAssigned_canonical hs
      exact canonical_ite (pruneXfers_canonical (endUnstarted_canonical hs)) (canonical_ite (canonical_ite (failSaved_canonical h1)
        (endUnstarted_canonical (canonical_ite (unplaceBound_canonical h1) h1))) hs)
    · exact hs
  · split
    · exact xferDrop_canonical hs
    · exact hs

theorem killSeq_canonical {p seq : Nat} (hs : s.MemCanonical) : (killSeq s p seq).MemCanonical := by
  unfold killSeq
  split
  · split
    · exact canonical_ite (failRunning_canonical (withdrawHeld_canonical hs)) (canonical_ite (failSaved_canonical hs) hs)
    · exact hs
  · exact hs

theorem touchSave_canonical {p : Nat} {v : Saved} {dirty : Bool} (hs : s.MemCanonical) : (touchSave s p v dirty).MemCanonical :=
  canonical_foldl (fun _ _ hu => sliceTouch_canonical _ _ _ hu) hs

theorem writeSaveArea_canonical {a : Nat} {t : Task} {v : Saved} (hs : s.MemCanonical) : (writeSaveArea s a t v).MemCanonical := by
  unfold writeSaveArea
  dsimp only
  exact canonical_foldl (fun _ _ hu => putBytes_canonical _ _ _ hu) ((touchSave_canonical hs).congr rfl)

theorem readSaveArea_canonical {p : Nat} {v : Saved} (hs : s.MemCanonical) : (readSaveArea s p v).MemCanonical :=
  markPoison_canonical (touchSave_canonical hs)

theorem stopIssue_canonical {a : Nat} (hs : s.MemCanonical) :
    (stopIssue s a).MemCanonical := modSeq_canonical (withdrawHeld_canonical hs)

theorem withdrawQuiet_canonical {c : Cmd} (hs : s.MemCanonical) : (withdrawQuiet s c).MemCanonical := by
  unfold withdrawQuiet
  split
  · exact hs
  · exact canonical_ite hs (barUpdate_canonical hs)

theorem keepEngine_canonical {a e : Nat} (hs : s.MemCanonical) : (keepEngine s a e).MemCanonical :=
  modSeq_canonical (modEng_canonical (canonical_foldl (fun _ _ hu => bumpDest_canonical (withdrawQuiet_canonical hu))
      (landAll_canonical hs)))

theorem savePreempted_canonical {a i : Nat} {t : Task} (hs : s.MemCanonical) : (savePreempted s a i t).MemCanonical :=
  modTask_canonical (modPart_canonical (releaseArrays_canonical (leaveGroups_canonical
      (parkGroups_canonical (canonical_foldl (fun _ _ hu => hu) (writeSaveArea_canonical
      (invalidateCache_canonical (flushWindows_canonical (flushResid_canonical hs)))))))))

theorem reissue_canonical {a : Nat} (hs : s.MemCanonical) : (reissue s a).MemCanonical := by
  unfold reissue
  dsimp only
  refine modArr_canonical (canonical_foldl ?_ hs)
  intro x0 x1 hu
  split
  · exact bumpDest_canonical hu
  · exact canonical_ite (barUpdate_canonical (bumpDest_canonical hu)) (bumpDest_canonical hu)

theorem restoreCells_canonical {x : Placement} {v : Saved} (hs : s.MemCanonical) : (restoreCells s x v).MemCanonical := hs

theorem resumeTask_canonical {i : Nat} {x : Placement} {t : Task} {v : Saved} (hs : s.MemCanonical) :
    (resumeTask s i x t v).MemCanonical := by
  have h0 : (walkFill (readSaveArea s t.part v) x.1 t.part (vget {} v.seq.h 15).va).1.MemCanonical :=
    walkFill_canonical (readSaveArea_canonical hs)
  have h2 := restoreCells_canonical (x := x) (v := v) (freshArrays_canonical (x := x)
    (canonical_ite (c := v.seq.mon = true) (walkFill_canonical (a := x.1) (p := t.part) (va := (partAt s t.part).mentry) h0) h0))
  exact modTask_canonical (modPart_canonical (parkGroups_canonical (joinGroups_canonical
      (invalidateCache_canonical (reissue_canonical
    (fillCode_canonical (canonical_ite (countMiss_canonical (countMiss_canonical
        (modArr_canonical (canonical_foldl (fun _ _ hu => hu) h2))))
      (countMiss_canonical (modArr_canonical (canonical_foldl (fun _ _ hu => hu) h2))))))))))

theorem onLocal_canonical {p i : Nat} {f : State → Nat → State} (hs : s.MemCanonical)
    (hf : ∀ u x1, u.MemCanonical → (f u x1).MemCanonical) : (onLocal s p i f).MemCanonical := by
  unfold onLocal
  refine canonical_ite hs ?_
  split
  · exact hs
  · exact hf _ _ hs

theorem doorbell_canonical {q : Nat} {t : BitVec 32} (hs : s.MemCanonical) : (doorbell s q t).MemCanonical :=
  canonical_ite hs (canonical_ite hs hs)

theorem restartQueue_canonical {q : Nat} {f : Queue → Queue} (hs : s.MemCanonical) : (restartQueue s q f).MemCanonical :=
  canonical_ite hs hs

theorem resumeQueue_canonical {q : Nat} (hs : s.MemCanonical) : (resumeQueue s q).MemCanonical := restartQueue_canonical hs

theorem skipQueue_canonical {q : Nat} (hs : s.MemCanonical) : (skipQueue s q).MemCanonical := restartQueue_canonical hs

theorem writeJhead_canonical {p : Nat} {v : BitVec 32} (hs : s.MemCanonical) :
    (writeJhead s p v).MemCanonical := canonical_ite hs hs

theorem writeVf64_canonical {p off : Nat} {v : Word} (hs : s.MemCanonical) : (writeVf64 s p off v).MemCanonical := by
  unfold writeVf64
  dsimp only
  refine canonical_ite (canonical_ite hs hs) (canonical_ite (writeJhead_canonical hs)
      (canonical_ite (canonical_ite (killSeq_canonical hs) (cancelSeq_canonical hs)) (canonical_ite hs ?_)))
  split
  · exact hs
  · exact canonical_ite hs (canonical_ite hs hs)

theorem writeVf32_canonical {p off : Nat} {v : BitVec 32} (hs : s.MemCanonical) : (writeVf32 s p off v).MemCanonical := by
  unfold writeVf32
  refine canonical_ite hs ?_
  split
  · exact hs
  · exact canonical_ite (doorbell_canonical hs) (canonical_ite (canonical_ite (resumeQueue_canonical hs)
        (canonical_ite (skipQueue_canonical hs) hs)) hs)

theorem vfWrite_canonical {p off : Nat} {wide : Bool} {v : Word} (hs : s.MemCanonical) : (vfWrite s p off wide v).MemCanonical :=
  canonical_ite hs (canonical_ite (canonical_ite (writeVf64_canonical hs) hs)
      (canonical_ite (writeVf32_canonical hs) (canonical_ite hs (canonical_ite (writeVf64_canonical hs) hs))))

theorem writePf64_canonical {off : Nat} {v : Word} (hs : s.MemCanonical) : (writePf64 s off v).MemCanonical :=
  canonical_ite (canonical_ite hs hs) (canonical_ite hs (canonical_ite hs hs))

theorem pfWrite_canonical {off : Nat} {wide : Bool} {v : Word} (hs : s.MemCanonical) : (pfWrite s off wide v).MemCanonical :=
  canonical_ite (canonical_ite (writePf64_canonical hs) hs) (canonical_ite hs
      (canonical_ite hs (canonical_ite (writePf64_canonical hs) hs)))

theorem raiseIrq_canonical {fn vec : Nat} (hs : s.MemCanonical) : (raiseIrq s fn vec).MemCanonical := hs

theorem completeAdmin_canonical {r : Answer} (hr : r.1.MemCanonical) : (completeAdmin r).MemCanonical := by
  unfold completeAdmin
  dsimp only
  split
  · exact hr
  · refine canonical_ite hr (canonical_ite (raiseIrq_canonical ?_) ?_)
    · split
      · exact hr
      · exact wf_writeNat _ _ _ hr
    · split
      · exact hr
      · exact wf_writeNat _ _ _ hr

theorem command_canonical {n : Nat} {f : State → Answer} (hs : s.MemCanonical)
    (hf : ∀ u : State, u.MemCanonical → (f u).1.MemCanonical) :
    (command s n f).MemCanonical :=
  completeAdmin_canonical (canonical_ite_fst hs (canonical_ite_fst hs (hf _ hs)))

theorem partCommand_canonical {n : Nat} {f : State → Nat → Answer} (hs : s.MemCanonical)
    (hf : ∀ (u : State) p, u.MemCanonical → (f u p).1.MemCanonical) : (partCommand s n f).MemCanonical :=
  command_canonical hs fun _ hu => canonical_ite_fst hu (canonical_ite_fst hu (hf _ _ hu))

theorem loadCommand_canonical (hs : s.MemCanonical) : (loadCommand s).MemCanonical := by
  unfold loadCommand
  dsimp only
  split
  · exact hs
  · exact hs

theorem readRing_canonical {n : Nat} (hs : s.MemCanonical) : (readRing s n).MemCanonical := by
  induction n generalizing s with
  | zero => exact hs
  | succ n ih => exact ih hs

theorem pollTail_canonical (hs : s.MemCanonical) :
    (pollTail s).MemCanonical := canonical_ite hs (canonical_ite (readRing_canonical hs) hs)

theorem acceptMctp_canonical (hs : s.MemCanonical) : (acceptMctp s).MemCanonical := canonical_ite hs hs

theorem dropOutside_canonical {p : Nat} (hs : s.MemCanonical) : (dropOutside s p).MemCanonical := by
  unfold dropOutside
  dsimp only
  refine canonical_foldl ?_ hs
  intro x0 x1 hu
  split
  · exact hu
  · exact canonical_ite (modTask_canonical (canonical_foldl (fun _ _ hv => hv) (canonical_ite (unplaceBound_canonical hu) hu))) hu

theorem dissolve_canonical {p : Nat} (hs : s.MemCanonical) : (dissolve s p).MemCanonical :=
  modPart_canonical (canonical_foldl (fun _ _ hu => hu) (canonical_foldl (fun _ _ hu => hu) hs))

theorem rekey_canonical {slot : Nat} {old new : BitVec 512} (hs : s.MemCanonical) : (rekey s slot old new).MemCanonical := by
  unfold rekey
  split
  · exact hs
  · refine canonical_foldl (fun u pa hu => ?_) hs
    cases u.slices.find? (inSlice pa) with
    | none => exact wf_writeNat (m := u.mem) _ _ _ hu
    | some x => exact canonical_ite (hu.congr rfl) (hu.congr rfl)

theorem moveFrame_canonical {old new n : Nat} (hs : s.MemCanonical) : (moveFrame s old new n).MemCanonical := by
  have hkept := wf_filter (fun e => !(decide (new ≤ e.1) && decide (e.1 < new + n))) hs
  have hmoved := wf_filter (fun e => decide (old ≤ e.1) && decide (e.1 < old + n)) hs
  refine twf_shift (fun a => a - old + new) hkept hmoved (fun e he x hx => ?_) ?_
  · have he := (List.mem_filter.mp he).2
    have hx := (List.mem_filter.mp hx).2
    simp only [Bool.and_eq_true, decide_eq_true_eq, Bool.not_eq_true', Bool.and_eq_false_iff, decide_eq_false_iff_not] at he hx
    omega
  · have hord := ((twf_iff 0 _).mp hmoved).1
    refine List.Pairwise.imp_of_mem (fun {x y} hx hy hlt => ?_) hord
    have hx := (List.mem_filter.mp hx).2
    have hy := (List.mem_filter.mp hy).2
    simp only [Bool.and_eq_true, decide_eq_true_eq] at hx hy
    omega

theorem targetFrame_canonical {p c n : Nat} (hs : s.MemCanonical) : (targetFrame s p c n).1.MemCanonical := by
  unfold targetFrame
  dsimp only
  exact canonical_ite_fst hs hs

theorem movePool_canonical {p old new n : Nat} (hs : s.MemCanonical) : (movePool s p old new n).MemCanonical := hs

theorem keepKey_canonical {p base key : Nat} (hs : s.MemCanonical) : (keepKey s p base key).MemCanonical := hs

theorem movePage_canonical {p va c : Nat} (hs : s.MemCanonical) {t : State} (h : movePage s p va c = .ok t) : t.MemCanonical := by
  unfold movePage at h
  dsimp only at h
  split at h
  · exact nomatch h
  · split at h
    · exact nomatch h
    · split at h
      · exact nomatch h
      · split at h
        · exact Except.ok.inj h ▸ hs
        · split at h
          · exact nomatch h
          · split at h
            · exact nomatch h
            · split at h
              · exact nomatch h
              · refine Except.ok.inj h ▸ movePool_canonical (homeBytes_canonical (homeBytes_canonical (keepKey_canonical
                  (moveFrame_canonical (flushFrame_canonical (invalRange_canonical
                      (migMeet_canonical (walkTouch_canonical ?_))))))))
                exact (targetFrame_canonical hs : (targetFrame s p c _).1.MemCanonical)

theorem readRecordOf_canonical {p kind u : Nat} (hs : s.MemCanonical) {n v : Nat} {t : State}
    (h : readRecordOf s p kind u = some (n, v, t)) :
    t.MemCanonical := by
  have key : ∀ r ∈ readRecordOf s p kind u, r.2.2.mem = s.mem := by
    unfold readRecordOf
    split <;> intro r hr
    · split at hr
      · exact nomatch hr
      · exact Option.some.inj hr ▸ rfl
    · split at hr
      · exact nomatch hr
      · exact Option.some.inj hr ▸ rfl
    · split at hr
      · exact Option.some.inj hr ▸ rfl
      · split at hr
        · exact Option.some.inj hr ▸ rfl
        · exact nomatch hr
    · split at hr
      · exact nomatch hr
      · exact Option.some.inj hr ▸ rfl
    · exact Option.some.inj hr ▸ rfl
    · split at hr
      · exact nomatch hr
      · exact Option.some.inj hr ▸ rfl
    · exact nomatch hr
  exact hs.congr (key _ h)

theorem freezePackage_canonical (hs : s.MemCanonical) : (freezePackage s).MemCanonical := canonical_ite hs hs

theorem completeHost_canonical {v : Option Nat} (hs : s.MemCanonical) : (completeHost s v).MemCanonical := hs

theorem hostRmw_canonical {f : Nat → Option Nat} (hs : s.MemCanonical) : (hostRmw s f).MemCanonical := by
  unfold hostRmw
  dsimp only
  exact canonical_ite hs (canonical_ite (completeHost_canonical (rmw_canonical _ _ _ _ hs)) hs)

theorem countPeer_canonical {p pa chip : Nat} (hs : s.MemCanonical) : (countPeer s p pa chip).MemCanonical := by
  unfold countPeer
  dsimp only
  split
  · exact hs
  · exact hs

theorem migrationUpdate_canonical {p va home pa moves left key : Nat} (hs : s.MemCanonical) :
    (migrationUpdate s p va home pa moves left key).MemCanonical := by
  unfold migrationUpdate
  dsimp only
  split
  · exact hs
  · split
    · exact hs
    · exact movePool_canonical (homeBytes_canonical (keepKey_canonical
          (homeBytes_canonical (moveFrame_canonical (flushFrame_canonical
          (invalRange_canonical (migMeet_canonical (walkTouch_canonical hs))))))))

theorem peerRequest_canonical {kind p pa n chip : Nat} (hs : s.MemCanonical) : (peerRequest s kind p pa n chip).MemCanonical := by
  unfold peerRequest
  dsimp only
  split
  · exact canonical_ite (countPeer_canonical (touchAll_canonical _ _ _ (markPoison_canonical hs))) hs
  · exact canonical_ite (countPeer_canonical (homeBytes_canonical hs)) hs
  · exact canonical_ite (countPeer_canonical (rmw_canonical _ _ _ _ hs)) hs
  · exact canonical_ite (countPeer_canonical (rmw_canonical _ _ _ _ hs)) hs
  · exact canonical_ite (countPeer_canonical (canonical_ite ((rmw_canonical _ _ _ _ hs).congr rfl) (rmw_canonical _ _ _ _ hs))) hs
  · exact migrationUpdate_canonical hs

theorem countCorrected_canonical {u : Nat} {a : Option Nat} (hs : s.MemCanonical) : (countCorrected s u a).MemCanonical := by
  unfold countCorrected
  dsimp only
  split
  · exact countErr_canonical hs
  · exact pmcAdd_canonical (countErr_canonical hs)

theorem endTasks_canonical {p : Nat} (hs : s.MemCanonical) : (endTasks s p).MemCanonical := by
  refine canonical_foldl (fun u i hu => ?_) hs
  split
  · split
    · exact hu
    · split
      · exact failRunning_canonical (withdrawHeld_canonical hu)
      · exact failSaved_canonical hu
      · exact cancelSeq_canonical hu
      · exact cancelSeq_canonical hu
      · exact hu
  · exact hu

theorem bringUp_canonical {n : Nat} {f : Package → Package} (hs : s.MemCanonical) :
    (bringUp s n f).MemCanonical := canonical_ite hs hs

theorem execJr_canonical {p : BitVec 3} {d a : BitVec 5} (hs : s.MemCanonical) : NextCanonical (execJr p d a s) :=
  next_canonical (slotOp_canonical hs (fun _ hu => canonical_ite (raise_canonical hu) (jumpTo_canonical (result_canonical hu))))

theorem execMark_canonical {p : BitVec 3} (hs : s.MemCanonical) : NextCanonical (execMark p s) :=
  next_canonical (slotOp_canonical hs (fun _ hu => canonical_ite hu (withGate_canonical hu (fun _ hv => hv))))

theorem execTend_canonical {p : BitVec 3} (hs : s.MemCanonical) : NextCanonical (execTend p s) :=
  next_canonical (canonical_ite (raise_canonical hs) (slotOp_canonical hs (fun _ hu => withGate_canonical hu (fun _ hv => hv))))

theorem execMfc_canonical {p : BitVec 3} {d : BitVec 5} {n : BitVec 12} (hs : s.MemCanonical) : NextCanonical (execMfc p d n s) :=
  next_canonical (canonical_ite (raise_canonical hs) (slotOp_canonical hs (fun _ hu => result_canonical hu)))

theorem execMtc_canonical {p : BitVec 3} {a : BitVec 5} {n : BitVec 12} (hs : s.MemCanonical) : NextCanonical (execMtc p a n s) :=
  next_canonical (canonical_ite (raise_canonical hs) (slotOp_canonical hs (fun _ hu => canonical_ite (raise_canonical hu) hu)))

theorem execXlat_canonical {p : BitVec 3} {h : BitVec 4} {a : BitVec 5} (hs : s.MemCanonical) : NextCanonical (execXlat p h a s) :=
  next_canonical (canonical_ite (raise_canonical hs) (slotOp_canonical hs (fun _ hu => lock_canonical hu)))

theorem execStfk_canonical {p : BitVec 3} {d : BitVec 5} {t : BitVec 6} {a : BitVec 5} (hs : s.MemCanonical) :
    NextCanonical (execStfk p d t a s) := by
  unfold execStfk
  refine next_canonical ?_
  dsimp only
  refine slotOp_canonical hs ?_
  intro x0 hu
  refine canonical_ite hu ?_
  split
  · exact raise_canonical hu
  · exact releasingSt_canonical hu (fun _ hv => pushOut_canonical hv)

theorem execCas_canonical {p : BitVec 3} {d h : BitVec 4} {a : BitVec 5} {q r : Bool} {c : BitVec 2} (hs : s.MemCanonical) :
    NextCanonical (execCas p d h a q r c s) :=
  next_canonical (slotOp_canonical hs (fun _ hu => onChk_canonical hu
      (fun _ => releasingSt_canonical hu (fun _ hw => pushOut_canonical hw))))

theorem pendOn_canonical {x : Pend} (hs : s.MemCanonical) : (pendOn s x).MemCanonical := hs

theorem execFence_canonical {p : BitVec 3} {q c : BitVec 2} (hs : s.MemCanonical) : NextCanonical (execFence p q c s) :=
  next_canonical (slotOp_canonical hs (fun _ hu => canonical_ite (canonical_ite (gatePut_canonical hu) hu)
      (canonical_ite (resumeFence_canonical (pendOn_canonical (canonical_ite (gatePut_canonical hu) hu)))
      (canonical_ite (gatePut_canonical hu) hu))))

theorem execResid_canonical {p : BitVec 3} {x : Bool} {t : BitVec 6} (hs : s.MemCanonical) : NextCanonical (execResid p x t s) := by
  unfold execResid
  refine next_canonical ?_
  refine slotOp_canonical hs ?_
  intro x0 hu
  refine canonical_ite (canonical_ite hu ?_) (resumeResid_canonical hu)
  split
  · exact raise_canonical hu
  · exact resumeResid_canonical hu

theorem execTalloc_canonical {p : BitVec 3} {d : BitVec 5} {t : BitVec 6} {a : BitVec 5} (hs : s.MemCanonical) :
    NextCanonical (execTalloc p d t a s) :=
  next_canonical (slotOp_canonical hs (fun _ hu => releasing_canonical hu
      (fun _ hv => canonical_ite (holdUntil_canonical (setReg_canonical hv))
      (canonical_ite (holdUntil_canonical (setReg_canonical hv)) (tallocGo_canonical hv)))))

theorem execTfree_canonical {p : BitVec 3} {t : BitVec 6} (hs : s.MemCanonical) : NextCanonical (execTfree p t s) := by
  unfold execTfree
  refine next_canonical ?_
  dsimp only
  refine slotOp_canonical hs ?_
  intro x0 hu
  refine canonical_ite hu ?_
  split
  · exact raise_canonical hu
  · exact canonical_ite (raise_canonical hu) (releasing_canonical hu (fun _ hv => hv))

theorem execTinfo_canonical {p : BitVec 3} {d : BitVec 5} {t : BitVec 6} {a : BitVec 5} (hs : s.MemCanonical) :
    NextCanonical (execTinfo p d t a s) := by
  unfold execTinfo
  refine next_canonical ?_
  refine slotOp_canonical hs ?_
  intro x0 hu
  refine canonical_ite hu ?_
  split
  · exact raise_canonical hu
  · exact result_canonical hu

theorem execTmove_canonical {p : BitVec 3} {d : BitVec 5} {t : BitVec 6} {a : BitVec 5} (hs : s.MemCanonical) :
    NextCanonical (execTmove p d t a s) := by
  unfold execTmove
  refine next_canonical ?_
  dsimp only
  refine slotOp_canonical hs ?_
  intro x0 hu
  refine canonical_ite hu ?_
  split
  · exact raise_canonical hu
  · exact releasing_canonical hu (fun _ hv => tmoveGo_canonical hv)

theorem execSync_canonical {p : BitVec 3} {d : BitVec 5} {g : BitVec 12} (hs : s.MemCanonical) :
    NextCanonical (execSync p d g s) := by
  unfold execSync
  refine next_canonical ?_
  dsimp only
  refine slotOp_canonical hs ?_
  intro x0 hu
  split
  · exact syncIssue_canonical hu
  · refine canonical_ite (canonical_ite (syncIssue_canonical hu) hu)
        (canonical_ite (raise_canonical hu) (canonical_ite (raise_canonical hu) (withGate_canonical hu ?_)))
    intro x0 hv
    refine canonical_ite hv (canonical_ite (syncIssue_canonical (flushResid_canonical (releaseWork_canonical hv))) ?_)
    split
    · exact syncIssue_canonical (groupArrive_canonical (modCur_canonical (flushResid_canonical (releaseWork_canonical hv))))
    · exact block_canonical (groupArrive_canonical (modCur_canonical (flushResid_canonical (releaseWork_canonical hv))))

theorem execCbinit_canonical {p : BitVec 3} {d : BitVec 5} {t : BitVec 6} {a : BitVec 5} (hs : s.MemCanonical) :
    NextCanonical (execCbinit p d t a s) :=
  next_canonical (barOp_canonical hs (fun _ _ hu => canonical_ite (raise_canonical hu)
      (releasingSt_canonical hu (fun _ hv => pushOut_canonical hv))))

theorem markServed_canonical {l : List (Nat × Nat)} (hs : s.MemCanonical) : (markServed s l).MemCanonical := hs

theorem execCbwait_canonical {p : BitVec 3} {d : BitVec 5} {t : BitVec 6} {a : BitVec 5} (hs : s.MemCanonical) :
    NextCanonical (execCbwait p d t a s) := by
  unfold execCbwait
  refine next_canonical ?_
  dsimp only
  refine slotOp_canonical hs ?_
  intro x0 hu
  split
  · exact canonical_ite hu (cbwaitIssue_canonical hu)
  · refine canonical_ite hu ?_
    split
    · exact raise_canonical hu
    · refine canonical_ite hu ?_
      split
      · exact cbwaitIssue_canonical (markServed_canonical (countHome_canonical (markPoison_canonical hu)))
      · exact cbwaitQueue_canonical (markServed_canonical (countHome_canonical (markPoison_canonical hu)))

theorem execCbtest_canonical {p : BitVec 3} {d : BitVec 5} {t : BitVec 6} {a : BitVec 5} (hs : s.MemCanonical) :
    NextCanonical (execCbtest p d t a s) := by
  unfold execCbtest
  refine next_canonical ?_
  refine slotOp_canonical hs ?_
  intro x0 hu
  refine canonical_ite hu ?_
  split
  · exact raise_canonical hu
  · exact pushOut_canonical hu

theorem execDqsteal_canonical {p : BitVec 3} {d r : BitVec 5} {b : BitVec 3} (hs : s.MemCanonical) :
    NextCanonical (execDqsteal p d r b s) :=
  next_canonical (slotOp_canonical hs (fun _ hu => canonical_ite (raise_canonical hu) (dequeOp_canonical hu)))

theorem execTlaunch_canonical {p : BitVec 3} {d : BitVec 5} {h : BitVec 4} {f : BitVec 9} (hs : s.MemCanonical) :
    NextCanonical (execTlaunch p d h f s) := by
  unfold execTlaunch
  refine next_canonical ?_
  dsimp only
  exact slotOp_canonical hs (fun _ hu => withGate_canonical hu (fun _ hv => canonical_ite hv
      (onChk_canonical (releaseWork_canonical hv) (fun _ => canonical_ite (block_canonical (releaseWork_canonical hv))
      (canonical_ite (raise_canonical (readFor_canonical (releaseWork_canonical hv)))
      (canonical_ite (block_canonical (releaseWork_canonical hv)) (regionNext_canonical
      (setReg_canonical (deviceLaunch_canonical (readFor_canonical (releaseWork_canonical hv)))))))))))

theorem execLocq_canonical {p : BitVec 3} {d a : BitVec 5} (hs : s.MemCanonical) : NextCanonical (execLocq p d a s) :=
  next_canonical (slotOp_canonical hs (fun _ hu => canonical_ite (pushOut_canonical hu) (result_canonical hu)))

theorem execPatc_canonical {p : BitVec 3} {d a : BitVec 5} {t : BitVec 6} (hs : s.MemCanonical) :
    NextCanonical (execPatc p d a t s) := by
  unfold execPatc
  refine next_canonical ?_
  dsimp only
  refine slotOp_canonical hs ?_
  intro x0 hu
  refine canonical_ite (raise_canonical hu) (canonical_ite hu ?_)
  split
  · exact raise_canonical hu
  · refine canonical_ite (result_canonical hu) ?_
    split
    · exact canonical_ite (result_canonical hu) (canonical_ite (result_canonical hu) (result_canonical hu))
    · exact result_canonical (triggerCompile_canonical hu)

theorem execLdatt_canonical {p : BitVec 3} {d : BitVec 5} {t : BitVec 6} {a : BitVec 5} (hs : s.MemCanonical) :
    NextCanonical (execLdatt p d t a s) := by
  unfold execLdatt
  refine next_canonical ?_
  dsimp only
  refine slotOp_canonical hs ?_
  intro x0 hu
  refine canonical_ite hu ?_
  split
  · exact raise_canonical hu
  · refine canonical_ite (raise_canonical hu) (canonical_ite hu ?_)
    split
    · exact raise_canonical (markPoison_canonical hu)
    · exact canonical_ite (resumeLdatt_canonical (pendOn_canonical (modCur_canonical
          (markServed_canonical (countHome_canonical hu))))) (pendOn_canonical
          (modCur_canonical (markServed_canonical (countHome_canonical hu))))

theorem execEcancel_canonical {p : BitVec 3} {e : BitVec 2} {l : Bool} (hs : s.MemCanonical) :
    NextCanonical (execEcancel p e l s) :=
  next_canonical (copyOp_canonical hs (fun _ hu => releasing_canonical hu
      (fun _ hv => canonical_ite (cancelMany_canonical (landAll_canonical hv)) hv)))

theorem execPhaseOpen_canonical {p : BitVec 3} {a : BitVec 5} (hs : s.MemCanonical) : NextCanonical (execPhaseOpen p a s) :=
  next_canonical (copyOp_canonical hs (fun _ hu => canonical_ite (raise_canonical hu)
      (canonical_ite (raise_canonical hu) (releasing_canonical hu (fun _ hv => hv)))))

theorem execPhaseClose_canonical {p : BitVec 3} {a : BitVec 5} (hs : s.MemCanonical) : NextCanonical (execPhaseClose p a s) :=
  next_canonical (copyOp_canonical hs (fun _ hu => canonical_ite (raise_canonical hu)
      (releasing_canonical hu (fun _ hv => resumePhaseClose_canonical (groupArrive_canonical hv)))))

theorem execImux_canonical {p : BitVec 3} {a b : BitVec 5} {e : BitVec 2} (hs : s.MemCanonical) :
    NextCanonical (execImux p a b e s) := by
  unfold execImux
  refine next_canonical ?_
  dsimp only
  refine copyOp_canonical hs ?_
  intro x0 hu
  refine canonical_ite hu ?_
  split
  · exact raise_canonical hu
  · split
    · exact raise_canonical hu
    · exact canonical_ite (raise_canonical hu) (releasing_canonical hu (fun _ hv => hv))

theorem execEnginePageTranslate_canonical (hs : s.MemCanonical) : NextCanonical (execEnginePageTranslate s) := by
  unfold execEnginePageTranslate
  refine next_canonical ?_
  refine canonical_ite ?_ hs
  split
  · exact hs
  · exact sendNext_canonical hs

theorem execLinkFailure_canonical (hs : s.MemCanonical) : NextCanonical (execLinkFailure s) := by
  unfold execLinkFailure
  refine next_canonical ?_
  split
  · exact hs
  · exact canonical_ite (linkEnd_canonical hs) hs

theorem execPhaseFrameStart_canonical (hs : s.MemCanonical) : NextCanonical (execPhaseFrameStart s) := by
  unfold execPhaseFrameStart
  refine next_canonical ?_
  split
  · exact canonical_ite hs hs
  · exact hs

theorem execPhaseFlit_canonical (hs : s.MemCanonical) : NextCanonical (execPhaseFlit s) := by
  unfold execPhaseFlit
  refine next_canonical ?_
  split
  · exact flitLeave_canonical hs
  · exact flitEject_canonical hs

theorem execWindowContribution_canonical (hs : s.MemCanonical) : NextCanonical (execWindowContribution s) := by
  unfold execWindowContribution
  refine next_canonical ?_
  refine canonical_ite (canonical_ite hs (canonical_ite (flushFrom_canonical hs) ?_)) ?_
  · split
    · exact hs
    · exact windowEmit_canonical hs
  · split
    · exact hs
    · exact canonical_ite (windowAdd_canonical hs) hs

theorem execRetirementComplete_canonical (hs : s.MemCanonical) : NextCanonical (execRetirementComplete s) := by
  unfold execRetirementComplete
  refine next_canonical ?_
  refine canonical_ite ?_ hs
  split
  · exact hs
  · exact retire_canonical hs

theorem execAmoAtHome_canonical (hs : s.MemCanonical) : NextCanonical (execAmoAtHome s) := by
  unfold execAmoAtHome
  refine next_canonical ?_
  refine onOut_canonical hs ?_
  intro x0 x1 x2 x3 hu
  split
  · exact amoHome_canonical hu
  · exact casHome_canonical hu
  · exact hu

theorem execAtomicReturn_canonical (hs : s.MemCanonical) : NextCanonical (execAtomicReturn s) := by
  unfold execAtomicReturn
  refine next_canonical ?_
  refine onOut_canonical hs ?_
  intro x0 x1 x2 x3 hu
  split
  · exact amoBack_canonical hu
  · exact hu

theorem execAccAtHome_canonical (hs : s.MemCanonical) : NextCanonical (execAccAtHome s) := by
  unfold execAccAtHome
  refine next_canonical ?_
  refine onOut_canonical hs ?_
  intro x0 x1 x2 x3 hu
  split
  · exact accHome_canonical hu
  · exact hu

theorem execAccRefused_canonical (hs : s.MemCanonical) : NextCanonical (execAccRefused s) := by
  unfold execAccRefused
  refine next_canonical ?_
  refine onOut_canonical hs ?_
  intro x0 x1 x2 x3 hu
  split
  · exact accBack_canonical hu
  · exact hu

theorem execAccResend_canonical (hs : s.MemCanonical) : NextCanonical (execAccResend s) := by
  unfold execAccResend
  refine next_canonical ?_
  refine onOut_canonical hs ?_
  intro x0 x1 x2 x3 hu
  split
  · exact hu
  · exact hu

theorem execFlushresComplete_canonical (hs : s.MemCanonical) : NextCanonical (execFlushresComplete s) := by
  unfold execFlushresComplete
  refine next_canonical ?_
  split
  · exact canonical_ite (flushEnd_canonical hs) hs
  · exact hs

theorem execCompileEnd_canonical (hs : s.MemCanonical) : NextCanonical (execCompileEnd s) := by
  unfold execCompileEnd
  refine next_canonical ?_
  split
  · exact hs
  · exact compileEnds_canonical hs

theorem execGlobalStallEnd_canonical (hs : s.MemCanonical) : NextCanonical (execGlobalStallEnd s) := by
  unfold execGlobalStallEnd
  refine next_canonical ?_
  dsimp only
  split
  · exact hs
  · exact canonical_ite hs hs

theorem execAggregatesArrive_canonical (hs : s.MemCanonical) : NextCanonical (execAggregatesArrive s) := by
  unfold execAggregatesArrive
  refine next_canonical ?_
  dsimp only
  refine canonical_ite ?_ hs
  split
  · exact hs
  · exact hs

theorem execWatchdog_canonical (hs : s.MemCanonical) : NextCanonical (execWatchdog s) :=
  next_canonical (canonical_ite (failTop_canonical (writeRecord_canonical (withdrawHeld_canonical hs))) hs)

theorem execSkipif_canonical (hs : s.MemCanonical) : NextCanonical (execSkipif s) := by
  unfold execSkipif
  refine next_canonical ?_
  dsimp only
  refine onEntry_canonical hs ?_
  intro x0 x1 x2 x3 hu
  refine accepting_canonical hu ?_
  intro x0 x1 hv
  split
  · exact entryFails_canonical (condMeet_canonical hv)
  · exact goTo_canonical (journalSet_canonical (condMeet_canonical hv))

theorem execCall_canonical (hs : s.MemCanonical) : NextCanonical (execCall s) :=
  next_canonical (onEntry_canonical hs (fun _ _ _ _ hu => canonical_ite hu (immediate_canonical hu (fun _ hv => hv))))

theorem execWaitc_canonical (hs : s.MemCanonical) : NextCanonical (execWaitc s) :=
  next_canonical (onEntry_canonical hs (fun _ _ _ _ hu => accepting_canonical hu (fun _ _ hv => waitcRead_canonical hv)))

theorem execWaitcPoll_canonical (hs : s.MemCanonical) : NextCanonical (execWaitcPoll s) := by
  unfold execWaitcPoll
  refine next_canonical ?_
  split
  · exact waitcRead_canonical hs
  · exact hs

theorem execWaitcTimeout_canonical (hs : s.MemCanonical) : NextCanonical (execWaitcTimeout s) := by
  unfold execWaitcTimeout
  refine next_canonical ?_
  split
  · exact canonical_ite (entryFails_canonical hs) hs
  · exact hs

theorem execListFenceDone_canonical (hs : s.MemCanonical) : NextCanonical (execListFenceDone s) := by
  unfold execListFenceDone
  refine next_canonical ?_
  split
  · exact canonical_ite (modQueue_canonical (journalSet_canonical hs)) hs
  · exact hs

theorem execSignal_canonical (hs : s.MemCanonical) : NextCanonical (execSignal s) := by
  unfold execSignal
  refine next_canonical ?_
  dsimp only
  exact onEntry_canonical hs (fun _ _ _ _ hu => accepting_canonical hu
      (fun _ _ hv => canonical_ite (entryFails_canonical (signalWrite_canonical hv))
      (goTo_canonical (journalSet_canonical (canonical_ite (raiseIrq_canonical (signalWrite_canonical hv))
      (signalWrite_canonical hv))))))

theorem execGroupsetDone_canonical (hs : s.MemCanonical) : NextCanonical (execGroupsetDone s) := by
  unfold execGroupsetDone
  refine next_canonical ?_
  dsimp only
  split
  · exact canonical_ite (modQueue_canonical (journalSet_canonical hs)) hs
  · exact hs

theorem execNote_canonical (hs : s.MemCanonical) : NextCanonical (execNote s) :=
  next_canonical (onEntry_canonical hs (fun _ _ _ _ hu => accepting_canonical hu
      (fun _ _ hv => goTo_canonical (journalSet_canonical hv))))

theorem execHaltq_canonical (hs : s.MemCanonical) : NextCanonical (execHaltq s) :=
  next_canonical (onEntry_canonical hs (fun _ _ _ _ hu => canonical_ite hu
      (haltQueue_canonical (immediate_canonical hu (fun _ hv => hv)))))

theorem execBlockingTaskTimeout_canonical (hs : s.MemCanonical) : NextCanonical (execBlockingTaskTimeout s) := by
  unfold execBlockingTaskTimeout
  refine next_canonical ?_
  split
  · exact hs
  · exact hs

theorem execTaskStart_canonical (hs : s.MemCanonical) : NextCanonical (execTaskStart s) := by
  unfold execTaskStart
  refine next_canonical ?_
  split
  · exact assign_canonical hs
  · refine canonical_ite (canonical_foldl (fun _ _ hu => requestPreempt_canonical hu) hs) ?_
    split
    · exact beginTask_canonical hs
    · exact hs

theorem execQuiesceExpire_canonical (hs : s.MemCanonical) : NextCanonical (execQuiesceExpire s) := by
  unfold execQuiesceExpire
  refine next_canonical ?_
  dsimp only
  refine canonical_ite ?_ hs
  split
  · exact hs
  · exact modTask_canonical (modSeq_canonical (canonical_foldl (fun _ _ hu => keepEngine_canonical hu) hs))

theorem execPreemption_canonical (hs : s.MemCanonical) : NextCanonical (execPreemption s) := by
  unfold execPreemption
  refine next_canonical ?_
  dsimp only
  refine canonical_ite (stopIssue_canonical hs) ?_
  split
  · exact hs
  · exact canonical_ite hs (canonical_ite (savePreempted_canonical hs) hs)

theorem execResumption_canonical (hs : s.MemCanonical) : NextCanonical (execResumption s) := by
  unfold execResumption
  refine next_canonical ?_
  split
  · exact assign_canonical hs
  · split
    · exact clearGroup0_canonical hs
    · split
      · split
        · exact resumeTask_canonical hs
        · exact hs
      · exact hs

theorem execRegisterWrite_canonical (hs : s.MemCanonical) : NextCanonical (execRegisterWrite s) :=
  next_canonical (canonical_ite hs (canonical_ite (pfWrite_canonical hs) (canonical_ite (vfWrite_canonical hs) hs)))

theorem refuse_canonical {st : Nat} (hs : s.MemCanonical) : (refuse s st).1.MemCanonical := hs

theorem execAqTailPoll_canonical (hs : s.MemCanonical) : NextCanonical (execAqTailPoll s) := by
  unfold execAqTailPoll
  refine next_canonical ?_
  split
  · exact canonical_ite (completeAdmin_canonical (refuse_canonical (loadCommand_canonical hs))) (pollTail_canonical hs)
  · exact pollTail_canonical hs

theorem done_canonical {r : Nat} (hs : s.MemCanonical) : (done s r).1.MemCanonical := hs

theorem execPartCreate_canonical (hs : s.MemCanonical) : NextCanonical (execPartCreate s) := by
  unfold execPartCreate
  refine next_canonical ?_
  dsimp only
  refine command_canonical hs ?_
  intro x0 hu
  refine canonical_ite_fst (refuse_canonical hu) (canonical_ite_fst (refuse_canonical hu) ?_)
  split
  · exact refuse_canonical hu
  · exact done_canonical hu

theorem execPartArrays_canonical (hs : s.MemCanonical) : NextCanonical (execPartArrays s) :=
  next_canonical (partCommand_canonical hs (fun _ _ hu => canonical_ite_fst (refuse_canonical hu)
      (canonical_ite_fst (refuse_canonical hu) (canonical_ite_fst (refuse_canonical hu)
      (done_canonical (dropOutside_canonical hu))))))

theorem execPartDissolve_canonical (hs : s.MemCanonical) : NextCanonical (execPartDissolve s) :=
  next_canonical (partCommand_canonical hs (fun _ _ hu => canonical_ite_fst (refuse_canonical hu)
      (done_canonical (dissolve_canonical hu))))

theorem execInvalidate_canonical (hs : s.MemCanonical) : NextCanonical (execInvalidate s) :=
  next_canonical (partCommand_canonical hs (fun _ _ hu => canonical_ite_fst (refuse_canonical hu)
      (done_canonical (invalidate_canonical hu))))

theorem execKeyLoad_canonical (hs : s.MemCanonical) : NextCanonical (execKeyLoad s) :=
  next_canonical (command_canonical hs fun _ hu => canonical_ite_fst hu (done_keys_canonical (rekey_canonical hu)))

theorem execKeyAssign_canonical (hs : s.MemCanonical) : NextCanonical (execKeyAssign s) :=
  next_canonical (command_canonical hs (fun _ hu => canonical_ite_fst (refuse_canonical hu)
      (canonical_ite_fst (done_canonical hu) (canonical_ite_fst (refuse_canonical hu) (done_canonical hu)))))

theorem execShares_canonical (hs : s.MemCanonical) : NextCanonical (execShares s) :=
  next_canonical (partCommand_canonical hs (fun _ _ hu => canonical_ite_fst (refuse_canonical hu)
      (canonical_ite_fst (refuse_canonical hu) (canonical_ite_fst (refuse_canonical hu)
      (canonical_ite_fst (refuse_canonical hu) (done_canonical hu))))))

theorem execQueueAssign_canonical (hs : s.MemCanonical) : NextCanonical (execQueueAssign s) :=
  next_canonical (command_canonical hs (fun _ hu => canonical_ite_fst (refuse_canonical hu)
      (canonical_ite_fst (done_canonical hu) (canonical_ite_fst (refuse_canonical hu) (done_canonical (canonical_ite hu hu))))))

theorem execNetReserve_canonical (hs : s.MemCanonical) : NextCanonical (execNetReserve s) := by
  unfold execNetReserve
  refine next_canonical ?_
  dsimp only
  refine partCommand_canonical hs ?_
  intro x0 x1 hu
  refine canonical_ite_fst (refuse_canonical hu) (canonical_ite_fst (refuse_canonical hu) ?_)
  split
  · exact refuse_canonical hu
  · exact done_canonical hu

theorem execHbmReserve_canonical (hs : s.MemCanonical) : NextCanonical (execHbmReserve s) := by
  unfold execHbmReserve
  refine next_canonical ?_
  dsimp only
  refine partCommand_canonical hs ?_
  intro x0 x1 hu
  refine canonical_ite_fst (refuse_canonical hu) (canonical_ite_fst (refuse_canonical hu) ?_)
  split
  · exact refuse_canonical hu
  · exact done_canonical hu

theorem execRedwin_canonical (hs : s.MemCanonical) : NextCanonical (execRedwin s) :=
  next_canonical (partCommand_canonical hs (fun _ _ hu => canonical_ite_fst (refuse_canonical hu)
      (canonical_ite_fst (refuse_canonical hu) (canonical_ite_fst (done_canonical hu)
      (canonical_ite_fst (refuse_canonical hu) (canonical_ite_fst (refuse_canonical hu) (done_canonical hu)))))))

theorem execMigrate_canonical (hs : s.MemCanonical) : NextCanonical (execMigrate s) := by
  unfold execMigrate
  refine next_canonical ?_
  refine partCommand_canonical hs ?_
  intro x0 x1 hu
  refine canonical_ite_fst (refuse_canonical hu) ?_
  split
  · exact refuse_canonical hu
  · rename_i h1
    exact done_canonical (movePage_canonical hu h1)

theorem execMigrationTrigger_canonical (hs : s.MemCanonical) : NextCanonical (execMigrationTrigger s) := by
  refine next_canonical ?_
  split
  · exact hs
  · dsimp only
    split
    · exact hs
    next hm =>
      refine movePage_canonical ?_ hm
      exact hs

theorem execReadrec_canonical (hs : s.MemCanonical) : NextCanonical (execReadrec s) := by
  refine next_canonical (command_canonical hs fun u hu => canonical_ite_fst hu (canonical_ite_fst hu ?_))
  split
  · exact hu
  next hr =>
    have hc := readRecordOf_canonical hu hr
    refine wf_writeNat _ _ _ ?_
    split
    · exact hu
    · exact canonical_ite hc hu

theorem execMonitor_canonical (hs : s.MemCanonical) : NextCanonical (execMonitor s) :=
  next_canonical (partCommand_canonical hs (fun _ _ hu => canonical_ite_fst (refuse_canonical hu)
      (canonical_ite_fst (refuse_canonical hu) (canonical_ite_fst (refuse_canonical hu) (done_canonical hu)))))

theorem execTileAlloc_canonical (hs : s.MemCanonical) : NextCanonical (execTileAlloc s) := by
  unfold execTileAlloc
  refine next_canonical ?_
  dsimp only
  refine partCommand_canonical hs ?_
  intro x0 x1 hu
  split
  · exact refuse_canonical hu
  · split
    · exact refuse_canonical hu
    · exact done_canonical (canonical_ite (placeTile_canonical hu) hu)

theorem execTileFree_canonical (hs : s.MemCanonical) : NextCanonical (execTileFree s) :=
  next_canonical (partCommand_canonical hs (fun _ _ hu => canonical_ite_fst (refuse_canonical hu)
      (canonical_ite_fst (refuse_canonical hu) (done_canonical (sweepTiles_canonical hu)))))

theorem execPreempt_canonical (hs : s.MemCanonical) : NextCanonical (execPreempt s) := by
  unfold execPreempt
  refine next_canonical ?_
  refine partCommand_canonical hs ?_
  intro x0 x1 hu
  split
  · exact refuse_canonical hu
  · exact done_canonical (requestPreempt_canonical hu)

theorem execPower_canonical (hs : s.MemCanonical) : NextCanonical (execPower s) :=
  next_canonical (command_canonical hs (fun _ hu => canonical_ite_fst (refuse_canonical hu) (done_canonical hu)))

theorem execFreeze_canonical (hs : s.MemCanonical) : NextCanonical (execFreeze s) :=
  next_canonical (canonical_ite (command_canonical hs (fun _ hu => refuse_canonical hu))
      (canonical_ite hs (canonical_ite (freezePackage_canonical hs) hs)))

theorem execDebugUnlock_canonical (hs : s.MemCanonical) : NextCanonical (execDebugUnlock s) := by
  unfold execDebugUnlock
  refine next_canonical ?_
  dsimp only
  exact command_canonical hs (fun _ hu => canonical_ite_fst (refuse_canonical hu)
      (canonical_ite_fst (done_canonical hu) (refuse_canonical hu)))

theorem execHostWrite_canonical (hs : s.MemCanonical) : NextCanonical (execHostWrite s) :=
  next_canonical (canonical_ite (canonical_ite (homeBytes_canonical hs) hs) (canonical_ite (putBytes_canonical _ _ _ hs) hs))

theorem execEccError_canonical (hs : s.MemCanonical) : NextCanonical (execEccError s) := by
  unfold execEccError
  refine next_canonical ?_
  split
  · exact canonical_ite hs (canonical_ite (countCorrected_canonical hs) hs)
  · exact canonical_ite hs (canonical_ite hs (countCorrected_canonical hs))
  · exact canonical_ite hs hs
  · exact canonical_ite hs (canonical_ite (countErr_canonical hs) (countCorrected_canonical hs))

theorem clearVf_canonical {p : Nat} (hs : s.MemCanonical) : (clearVf s p).MemCanonical := hs

theorem execFlr_canonical (hs : s.MemCanonical) : NextCanonical (execFlr s) :=
  next_canonical (canonical_ite hs (clearVf_canonical (canonical_foldl (fun _ _ hu => xferDrop_canonical hu)
      (endTasks_canonical hs))))

theorem execHbmTrain_canonical (hs : s.MemCanonical) : NextCanonical (execHbmTrain s) :=
  next_canonical (canonical_ite (zeroDevice_canonical (bringUp_canonical hs)) (bringUp_canonical hs))

theorem execGetMeasurements_canonical (hs : s.MemCanonical) : NextCanonical (execGetMeasurements s) := by
  unfold execGetMeasurements
  refine next_canonical ?_
  dsimp only
  exact canonical_ite hs (canonical_foldl (fun _ _ hu => hu) hs)

theorem execSpdmKeyExchange_canonical (hs : s.MemCanonical) : NextCanonical (execSpdmKeyExchange s) := by
  unfold execSpdmKeyExchange
  refine next_canonical ?_
  dsimp only
  exact canonical_ite hs hs

theorem execPowerWindow_canonical (hs : s.MemCanonical) : NextCanonical (execPowerWindow s) := by
  unfold execPowerWindow
  refine next_canonical ?_
  dsimp only
  refine canonical_ite ?_ ?_
  · split
    · exact hs
    · exact hs
  · split
    · exact canonical_ite hs hs
    · exact hs

end Sys2Proof.Machine
end
section
/-! Canonical memory, concluded: every instruction, a turn of an array, a tick, and so every step. -/

namespace Sys2Proof.Machine

variable {s : State}

/-- A cell instruction does what the cell slots do with it. -/
theorem exec_of_cell {i : Instr} (hc : i.slotClass = some .cell) : exec i s = cellDispatch i s := by
  cases i
  case fadd | fsub | fmul | fma | fmin | fmax | fcmpEq | fcmpNe | fcmpLt | fcmpLe | frcp | frsq | fsqrt | fex2 |
      flg2 | hadd2 | hfma2 | bfma2 | cvtI32F32 | cvtF32I32 | imul | imad | iabs | vredAdd | vredMax | vredMin |
      vredOr | rkval | cvtF16F32 | cvtF32F16 | cvtBf16F32 | cvtF32Bf16 | cvtE4m3F32 | cvtE5m2F32 | cvtF32E4m3 |
      cvtF32E5m2 | cellSel | vperm | srng | iadd | isub | imin | imax | cellAnd | cellOr | cellXor | cellShl |
      cellShr | cellSra | icmpEq | icmpNe | icmpLt | icmpLtn | mov | ldc | stc | vgath | vscat | vbcast | flag |
      optupd | mma | mmaNeg | mmaSel | aclr | amov | ald | arnd | racc =>
    rfl
  all_goals exact nomatch hc

theorem exec_canonical {i : Instr} (hs : s.MemCanonical) : NextCanonical (exec i s) := by
  by_cases hc : i.slotClass = some .cell
  · rw [exec_of_cell hc]
    exact cellDispatch_canonical hs
  cases i
  case fadd | fsub | fmul | fma | fmin | fmax | fcmpEq | fcmpNe | fcmpLt | fcmpLe | frcp | frsq | fsqrt | fex2 |
      flg2 | hadd2 | hfma2 | bfma2 | cvtI32F32 | cvtF32I32 | imul | imad | iabs | vredAdd | vredMax | vredMin |
      vredOr | rkval | cvtF16F32 | cvtF32F16 | cvtBf16F32 | cvtF32Bf16 | cvtE4m3F32 | cvtE5m2F32 | cvtF32E4m3 |
      cvtF32E5m2 | cellSel | vperm | srng | iadd | isub | imin | imax | cellAnd | cellOr | cellXor | cellShl |
      cellShr | cellSra | icmpEq | icmpNe | icmpLt | icmpLtn | mov | ldc | stc | vgath | vscat | vbcast | flag |
      optupd | mma | mmaNeg | mmaSel | aclr | amov | ald | arnd | racc =>
    exact absurd rfl hc
  case nop | pauseExpire | agingStep => exact next_canonical hs
  case add | sub | and | or | xor | andn | shl | shr | sra | rot | min | max | minn | maxn | mul | mulh | mulhn =>
    exact next_canonical (alu2_canonical hs)
  case div | divn | rem | remn => exact next_canonical (divide_canonical hs)
  case clz | popc | sext | zext | mfaRowany | mfaRowall => exact next_canonical (alu1_canonical hs)
  case addi | andi | ori | xori | shli | shri | srai | muli | mini | maxi => exact next_canonical (aluImm_canonical hs)
  case li | lui | sel | mfw => exact next_canonical (slotOp_canonical hs (fun _ hu => result_canonical hu))
  case cmpEq | cmpNe | cmpLt | cmpLe | cmpLtn | cmpLen => exact next_canonical (compare2_canonical hs)
  case cmpiEq | cmpiLt | cmpiLtn => exact next_canonical (compareImm_canonical hs)
  case band | bor | bxor | bandn | bmov => exact next_canonical (blog_canonical hs)
  case br => exact next_canonical (slotOp_canonical hs (fun _ hu => jumpTo_canonical hu))
  case j => exact next_canonical (jumpTo_canonical hs)
  case jal => exact next_canonical (slotOp_canonical hs (fun _ hu => jumpTo_canonical (result_canonical hu)))
  case jr => exact execJr_canonical hs
  case loop | setfmt => exact next_canonical (slotOp_canonical hs (fun _ hu => canonical_ite (raise_canonical hu) hu))
  case loops | pause | trap | mtw | wrot => exact next_canonical (slotOp_canonical hs (fun _ hu => hu))
  case mark => exact execMark_canonical hs
  case wait | hinv => exact next_canonical (slotOp_canonical hs (fun _ hu => canonical_ite hu hu))
  case tend => exact execTend_canonical hs
  case eret => exact next_canonical (canonical_ite (monitorReturn_canonical hs) (raise_canonical hs))
  case ldB | ldH | ldW | ldD | ldnB | ldnH | ldnW => exact next_canonical (handleLoad_canonical hs)
  case stB | stH | stW | stD => exact next_canonical (handleSt_canonical hs)
  case ldpW | ldpD => exact next_canonical (offsetLoad_canonical hs)
  case stpW | stpD => exact next_canonical (offsetStore_canonical hs)
  case xlat => exact execXlat_canonical hs
  case hinfo => exact next_canonical (slotOp_canonical hs (fun _ hu => canonical_ite hu (result_canonical hu)))
  case ldtW | ldtD => exact next_canonical (tileLoad_canonical hs)
  case sttW | sttD => exact next_canonical (tileStore_canonical hs)
  case ldf | ldfk | ste => exact next_canonical (feOp_canonical hs)
  case stfk => exact execStfk_canonical hs
  case amoAdd | amoAnd | amoOr | amoXor | amoMin | amoMax | amoMinn | amoMaxn | amoSwap | amoFadd =>
    exact next_canonical (amo_canonical hs)
  case cas => exact execCas_canonical hs
  case accAdd | accFadd | accBfadd | accFmax => exact next_canonical (acc_canonical hs)
  case fence => exact execFence_canonical hs
  case flushres => exact next_canonical (slotOp_canonical hs (fun _ hu => pushOut_canonical hu))
  case resid => exact execResid_canonical hs
  case mfc => exact execMfc_canonical hs
  case mtc => exact execMtc_canonical hs
  case mfaColany | mfaColall | mfaSummary => exact next_canonical (alu0_canonical hs)
  case talloc => exact execTalloc_canonical hs
  case tfree => exact execTfree_canonical hs
  case tinfo => exact execTinfo_canonical hs
  case tmove => exact execTmove_canonical hs
  case sync => exact execSync_canonical hs
  case cbinit => exact execCbinit_canonical hs
  case cbexp | cbarr =>
    exact next_canonical (barOp_canonical hs (fun _ _ hu => releasingSt_canonical hu (fun _ hv => pushOut_canonical hv)))
  case cbwait => exact execCbwait_canonical hs
  case cbtest => exact execCbtest_canonical hs
  case dqpush | dqpop => exact next_canonical (slotOp_canonical hs (fun _ hu => dequeOp_canonical hu))
  case dqsteal => exact execDqsteal_canonical hs
  case tlaunch => exact execTlaunch_canonical hs
  case locq => exact execLocq_canonical hs
  case playW | playD => exact next_canonical (play_canonical hs)
  case patc => exact execPatc_canonical hs
  case ldatt => exact execLdatt_canonical hs
  case copy | copym | fill | bind | rankx | xmit =>
    exact next_canonical (copyOp_canonical hs (fun _ hu => canonical_ite hu (enqueue_canonical hu)))
  case copyg | copys => exact next_canonical (gatherOp_canonical hs)
  case unbind | tpref | tflush => exact next_canonical (copyOp_canonical hs (fun _ hu => enqueue_canonical hu))
  case eresume => exact next_canonical (copyOp_canonical hs (fun _ hu => releasing_canonical hu (fun _ hv => hv)))
  case ecancel => exact execEcancel_canonical hs
  case imux => exact execImux_canonical hs
  case phaseOpen => exact execPhaseOpen_canonical hs
  case phaseClose => exact execPhaseClose_canonical hs
  case mtx => exact next_canonical (copyOp_canonical hs (fun _ hu => canonical_ite hu hu))
  case mfx => exact next_canonical (copyOp_canonical hs (fun _ hu => result_canonical hu))
  case retirementComplete => exact execRetirementComplete_canonical hs
  case loadReturn => exact next_canonical (onOut_canonical hs (fun _ _ _ _ hu => ldEnd_canonical hu))
  case storePerformed => exact next_canonical (onOut_canonical hs (fun _ _ _ _ hu => stEnd_canonical hu))
  case handleWalkEnd => exact next_canonical (canonical_ite (walkEnd_canonical hs) hs)
  case feRetry | aqcfg | thermalTrip | getCertificate | firmwareUpdate => exact next_canonical (canonical_ite hs hs)
  case amoAtHome => exact execAmoAtHome_canonical hs
  case atomicReturn => exact execAtomicReturn_canonical hs
  case accAtHome => exact execAccAtHome_canonical hs
  case accRefused => exact execAccRefused_canonical hs
  case accResend => exact execAccResend_canonical hs
  case quotaWindowStart => exact next_canonical (canonical_ite (canonical_foldl (fun _ _ hu => acceptDue_canonical hu) hs) hs)
  case flushresComplete => exact execFlushresComplete_canonical hs
  case compileBegin => exact next_canonical (compileBegins_canonical hs)
  case compileEnd => exact execCompileEnd_canonical hs
  case wordExecute => exact next_canonical (canonical_ite (wordStep_canonical hs) hs)
  case globalStallEnd => exact execGlobalStallEnd_canonical hs
  case aggregatesArrive => exact execAggregatesArrive_canonical hs
  case trapTaken => exact next_canonical (canonical_ite (takeTrap_canonical hs) hs)
  case watchdog => exact execWatchdog_canonical hs
  case phaseFrameStart => exact execPhaseFrameStart_canonical hs
  case phaseFlit => exact execPhaseFlit_canonical hs
  case commandStart => exact next_canonical (canonical_ite (startCmd_canonical hs) hs)
  case enginePageTranslate => exact execEnginePageTranslate_canonical hs
  case sectorLand => exact next_canonical (landNth_canonical hs)
  case commandEnd => exact next_canonical (canonical_ite (finishCmd_canonical hs) hs)
  case linkFailure => exact execLinkFailure_canonical hs
  case edgeLoaderFill => exact next_canonical (canonical_ite (fillPort_canonical hs) hs)
  case drainWrite => exact next_canonical (canonical_ite (drainPort_canonical hs) hs)
  case impalaRank => exact next_canonical (canonical_ite (rankRow_canonical hs) hs)
  case windowContribution => exact execWindowContribution_canonical hs
  case ringEntry => exact next_canonical (ringRead_canonical hs)
  case launch => exact next_canonical (onEntry_canonical hs (fun _ _ _ _ hu => launchEntry_canonical hu))
  case xfer => exact next_canonical (onEntry_canonical hs (fun _ _ _ _ hu => xferEntry_canonical hu))
  case xferComplete => exact next_canonical (canonical_ite (xferStep_canonical hs) hs)
  case skipif => exact execSkipif_canonical hs
  case jump | ret => exact next_canonical (onEntry_canonical hs (fun _ _ _ _ hu => immediate_canonical hu (fun _ hv => hv)))
  case call => exact execCall_canonical hs
  case waitc => exact execWaitc_canonical hs
  case waitcPoll => exact execWaitcPoll_canonical hs
  case waitcTimeout => exact execWaitcTimeout_canonical hs
  case listFence | groupset =>
    exact next_canonical (onEntry_canonical hs (fun _ _ _ _ hu => accepting_canonical hu (fun _ _ hv => hv)))
  case listFenceDone => exact execListFenceDone_canonical hs
  case signal => exact execSignal_canonical hs
  case groupsetDone => exact execGroupsetDone_canonical hs
  case note => exact execNote_canonical hs
  case haltq => exact execHaltq_canonical hs
  case taskStart => exact execTaskStart_canonical hs
  case preemption => exact execPreemption_canonical hs
  case quiesceExpire => exact execQuiesceExpire_canonical hs
  case resumption => exact execResumption_canonical hs
  case doorbell => exact next_canonical (onLocal_canonical hs (fun _ _ hu => doorbell_canonical hu))
  case qcfg => exact next_canonical (onLocal_canonical hs (fun _ _ hu => hu))
  case qctlResume => exact next_canonical (onLocal_canonical hs (fun _ _ hu => resumeQueue_canonical hu))
  case qctlSkip => exact next_canonical (onLocal_canonical hs (fun _ _ hu => skipQueue_canonical hu))
  case jctlCancel => exact next_canonical (canonical_ite (cancelSeq_canonical hs) hs)
  case jctlKill => exact next_canonical (canonical_ite (killSeq_canonical hs) hs)
  case jhead => exact next_canonical (canonical_ite (writeJhead_canonical hs) hs)
  case registerWrite => exact execRegisterWrite_canonical hs
  case aqTailPoll => exact execAqTailPoll_canonical hs
  case partCreate => exact execPartCreate_canonical hs
  case partArrays => exact execPartArrays_canonical hs
  case partDissolve => exact execPartDissolve_canonical hs
  case ptroot | waymask | channels | clockLock | migtable =>
    exact next_canonical (partCommand_canonical hs (fun _ _ hu => canonical_ite_fst (refuse_canonical hu)
        (canonical_ite_fst (refuse_canonical hu) (done_canonical hu))))
  case invalidate => exact execInvalidate_canonical hs
  case keyLoad => exact execKeyLoad_canonical hs
  case keyAssign => exact execKeyAssign_canonical hs
  case shares => exact execShares_canonical hs
  case queueAssign => exact execQueueAssign_canonical hs
  case netReserve => exact execNetReserve_canonical hs
  case hbmReserve => exact execHbmReserve_canonical hs
  case redwin => exact execRedwin_canonical hs
  case migrate => exact execMigrate_canonical hs
  case migrationTrigger => exact execMigrationTrigger_canonical hs
  case quota | savepool =>
    exact next_canonical (partCommand_canonical hs (fun _ _ hu => canonical_ite_fst (refuse_canonical hu) (done_canonical hu)))
  case readrec => exact execReadrec_canonical hs
  case monitor => exact execMonitor_canonical hs
  case tileAlloc => exact execTileAlloc_canonical hs
  case tileFree => exact execTileFree_canonical hs
  case preempt => exact execPreempt_canonical hs
  case power => exact execPower_canonical hs
  case freeze => exact execFreeze_canonical hs
  case debugUnlock => exact execDebugUnlock_canonical hs
  case frzN => exact next_canonical (freezePackage_canonical hs)
  case powerWindow => exact execPowerWindow_canonical hs
  case hostFetchadd | hostSwap | hostCas => exact next_canonical (hostRmw_canonical hs)
  case flr => exact execFlr_canonical hs
  case function0Reset | coldReset => exact next_canonical ((resetPackage_canonical hs).congr rfl)
  case ucieLinkTrain | pcieEnumerate => exact next_canonical (bringUp_canonical hs)
  case hbmTrain => exact execHbmTrain_canonical hs
  case rhodiPortTrain => exact next_canonical (canonical_ite (canonical_ite hs hs) hs)
  case getMeasurements => exact execGetMeasurements_canonical hs
  case instructionCacheFill => exact next_canonical (fillCode_canonical hs)
  case hostWrite => exact execHostWrite_canonical hs
  case peerRequest => exact next_canonical (canonical_ite (peerRequest_canonical hs) hs)
  case eccError => exact execEccError_canonical hs
  case blockingTaskTimeout => exact execBlockingTaskTimeout_canonical hs
  case spdmKeyExchange => exact execSpdmKeyExchange_canonical hs
  -- SEAL and UNSEAL remain; their names are words of Lean, which no case tag can be.
  all_goals exact next_canonical (sealOp_canonical hs)

theorem walkMonitor_canonical {a : Nat} (hs : s.MemCanonical) : (walkMonitor s a).MemCanonical := by
  unfold walkMonitor
  dsimp only
  exact modSeq_canonical (countMiss_canonical (walkFill_canonical hs))

theorem fetch_canonical {a : Nat} (hs : s.MemCanonical) {t : State} (h : fetch s a = .wait t) : t.MemCanonical := by
  unfold fetch at h
  dsimp only at h
  split at h
  · exact Fetch.wait.inj h ▸ canonical_ite (walkMonitor_canonical hs) (startWalk_canonical hs)
  · exact Fetch.wait.inj h ▸ hs
  · exact nomatch h
  · split at h
    · exact nomatch h
    · split at h
      · exact Fetch.wait.inj h ▸ hs
      · exact nomatch h

theorem beginBundle_canonical {a : Nat} (hs : s.MemCanonical) : (beginBundle s a).MemCanonical := canonical_ite hs hs

theorem enterBundle_canonical {a : Nat} {b : Slots} (hs : s.MemCanonical) : (enterBundle s a b).MemCanonical :=
  (beginBundle_canonical hs).congr rfl

theorem runBundleSlot_canonical {k : Nat} {i : Instr} (hs : s.MemCanonical) : (runBundleSlot s k i).MemCanonical :=
  canonical_ite hs (outState_canonical (exec_canonical hs) hs)

theorem leaveBundle_canonical {a : Nat} (hs : s.MemCanonical) : (leaveBundle s a).MemCanonical := hs

theorem raiseAt_canonical {base after : State} {a : Nat} {f : FaultInfo} (hbase : base.MemCanonical) :
    (raiseAt base after a f).MemCanonical :=
  leaveBundle_canonical (raise_canonical (canonical_ite (gateRelease_canonical hbase) hbase))

theorem keepGate_canonical {base after : State} {a : Nat} (hbase : base.MemCanonical) : (keepGate base after a).MemCanonical :=
  canonical_ite (gateRelease_canonical hbase) hbase

theorem popStreams_canonical {a : Nat} (hs : s.MemCanonical) : (popStreams s a).MemCanonical :=
  canonical_foldl (fun _ _ hu => canonical_ite hu hu) hs

theorem commitBundle_canonical {base : State} {a : Nat} (hs : s.MemCanonical) : (commitBundle base s a).MemCanonical :=
  leaveBundle_canonical (noteStarted_canonical (pmcAdd_canonical (canonical_ite
      (codePoint_canonical (modSeq_canonical (popStreams_canonical hs))) (modSeq_canonical (popStreams_canonical hs)))))

theorem bundleWord_canonical {a : Nat} {w : WordIn} {names : List Nat × List Nat} (hs : s.MemCanonical) :
    (bundleWord s a w names).MemCanonical :=
  pmcAdd_canonical (issueWord_canonical hs)

theorem keepHeld_canonical {a : Nat} {open_ : Bool} {code : Nat} (hs : s.MemCanonical) :
    (keepHeld s a open_ code).MemCanonical := hs

theorem heldTurn_canonical {a code : Nat} (hs : s.MemCanonical) : (heldTurn s a code).MemCanonical := hs

theorem runBundle_canonical {a : Nat} {b : Slots} (hs : s.MemCanonical) : (runBundle s a b).MemCanonical := by
  have hb : (enterBundle s a b).MemCanonical := enterBundle_canonical hs
  have h1 : (runBundleSlot (enterBundle s a b) 0 b.sc).MemCanonical := runBundleSlot_canonical hb
  have h2 : (runBundleSlot (runBundleSlot (runBundleSlot (enterBundle s a b) 0 b.sc) 4 b.ka) 5 b.kb).MemCanonical :=
    runBundleSlot_canonical (runBundleSlot_canonical h1)
  unfold runBundle
  dsimp only
  split
  · exact raiseAt_canonical hb
  · refine canonical_ite ?_ ?_
    · split
      · exact raiseAt_canonical hb
      next ht =>
        have hk : (keepHeld (runBundleSlot (enterBundle s a b) 0 b.sc) a (seqAt s a).openNext
            (holdEvent (runBundleSlot (enterBundle s a b) 0 b.sc) b.sc)).MemCanonical := keepHeld_canonical h1
        exact canonical_ite (heldTurn_canonical (keepHeld_canonical (keepGate_canonical hb))) (heldTurn_canonical hk)
    · split
      · exact raiseAt_canonical hb
      · split
        · exact raiseAt_canonical hb
        · exact canonical_ite (heldTurn_canonical (keepHeld_canonical (keepGate_canonical hb)))
            (commitBundle_canonical (canonical_ite (bundleWord_canonical h2) h2))

theorem raiseEarly_canonical {a : Nat} {f : FaultInfo} (hs : s.MemCanonical) : (raiseEarly s a f).MemCanonical :=
  raiseAt_canonical (beginBundle_canonical hs)

theorem tryBundle_canonical {a : Nat} {b : Slots} (hs : s.MemCanonical) : (tryBundle s a b).MemCanonical := by
  unfold tryBundle
  refine canonical_ite hs (canonical_ite hs ?_)
  split
  · exact raiseEarly_canonical hs
  · exact canonical_ite hs (runBundle_canonical hs)

theorem bundleTurn_canonical {a : Nat} (hs : s.MemCanonical) : (bundleTurn s a).MemCanonical := by
  unfold bundleTurn
  refine canonical_ite (heldTurn_canonical hs) ?_
  split
  next hf => exact heldTurn_canonical (fetch_canonical hs hf)
  next => exact raiseEarly_canonical hs
  next =>
    split
    · exact raiseEarly_canonical hs
    · exact tryBundle_canonical hs

theorem playTurn_canonical {a : Nat} (hs : s.MemCanonical) : (playTurn s a).MemCanonical := by
  unfold playTurn
  dsimp only
  split
  · exact hs
  · split
    · exact bundleTurn_canonical (playEnd_canonical hs)
    · exact canonical_ite hs (canonical_ite hs (canonical_ite hs (heldTurn_canonical
          (pmcAdd_canonical (modSeq_canonical (issueWord_canonical hs))))))

theorem arrayTurn_canonical {a : Nat} (hs : s.MemCanonical) : (arrayTurn s a).MemCanonical := by
  unfold arrayTurn
  dsimp only
  refine canonical_ite (heldTurn_canonical hs) ?_
  split
  · exact bundleTurn_canonical hs
  · exact canonical_ite (heldTurn_canonical hs) (bundleTurn_canonical hs)
  · exact playTurn_canonical hs
  · exact heldTurn_canonical (resumePend_canonical hs)
  · exact heldTurn_canonical hs
  · exact heldTurn_canonical hs

theorem feServe_canonical {a : Nat} (hs : s.MemCanonical) : (feServe s a).MemCanonical := by
  unfold feServe
  split
  · exact hs
  · exact feArrive_canonical (countHome_canonical hs)

theorem turnOrTick_canonical (hs : s.MemCanonical) : StepCanonical (turnOrTick s) := by
  unfold turnOrTick
  split
  · exact hs
  · exact hs

theorem beginEvent_canonical {h : Happening} (hs : s.MemCanonical) : (beginEvent s h).MemCanonical := by
  unfold beginEvent
  split
  · exact canonical_ite (loadCommand_canonical hs) hs
  · exact hs

theorem takeEvent_canonical {h : Happening} (hs : s.MemCanonical) : StepCanonical (takeEvent s h) := by
  unfold takeEvent
  dsimp only
  split
  · exact feServe_canonical (hs.congr rfl)
  · exact beginEvent_canonical (hs.congr rfl)

theorem chooseOpen_canonical {l : List Happening} {rest : State → Next} (hs : s.MemCanonical)
    (hr : ∀ u : State, u.MemCanonical → StepCanonical (rest u)) : StepCanonical (chooseOpen s l rest) := by
  unfold chooseOpen
  dsimp only
  split
  · split
    · exact takeEvent_canonical (hs.congr rfl)
    · exact hr _ (hs.congr rfl)
  · exact hr _ (hs.congr rfl)

theorem takeInput_canonical {h : Happening} (hs : s.MemCanonical) : StepCanonical (takeInput s h) := by
  unfold takeInput
  split
  · split
    · exact hs
    · exact hs.congr rfl
  · exact hs

theorem ownStep_canonical (hs : s.MemCanonical) : StepCanonical (ownStep s) := by
  unfold ownStep
  split
  · dsimp only
    split
    · exact takeEvent_canonical hs
    · exact chooseOpen_canonical hs fun u hu => takeEvent_canonical hu
  · split
    · exact turnOrTick_canonical hs
    · exact chooseOpen_canonical hs fun u hu => turnOrTick_canonical hu

theorem takeFreeze_canonical {m : Nat × BitVec 512} (hs : s.MemCanonical) : StepCanonical (takeFreeze s m) := hs.congr rfl

theorem nextStep_canonical (hs : s.MemCanonical) : StepCanonical (nextStep s) := by
  unfold nextStep
  split
  · split
    · exact hs.congr rfl
    · trivial
  · split
    · split
      · exact takeFreeze_canonical hs
      · exact takeInput_canonical (hs.congr rfl)
    · exact takeFreeze_canonical hs
    · exact ownStep_canonical hs

theorem xlatsTake_canonical (hs : s.MemCanonical) : (xlatsTake s).MemCanonical :=
  canonical_foldl (fun _ _ hu => canonical_foldl (fun _ _ hv => xlatDue_canonical hv) hu) hs

theorem tick_canonical (hs : s.MemCanonical) : (tick s).MemCanonical :=
  canonical_ite (sweepTiles_canonical (acceptMctp_canonical (xlatsTake_canonical hs)))
      (acceptMctp_canonical (xlatsTake_canonical hs))

theorem step_canonical (hs : s.MemCanonical) : NextCanonical (Machine.step s) := by
  have hn := nextStep_canonical hs
  unfold step
  split
  next => exact fun _ ht => nomatch ht
  next he => exact exec_canonical (he ▸ hn : StepCanonical (.event _ _))
  next he => exact next_canonical (arrayTurn_canonical (he ▸ hn : StepCanonical (.turn _ _)))
  next he => exact next_canonical (tick_canonical (he ▸ hn : StepCanonical (.tick _)))

/-- Settles O56: a step is what `nextStep` chose, then an instruction, a turn or a tick, and each of them keeps the form. -/
theorem memoryStaysCanonical : Obligations.MemoryStaysCanonical := fun _ _ hs ht => step_canonical hs _ ht

end Sys2Proof.Machine
end
section
/-! A raised fault stays raised: whatever taking a trap does, down to ending the task, leaves what the bundle raised. A step that raised
nothing has therefore taken no trap. -/

namespace Sys2Proof.Machine

variable {s t : State}

/-- The bundle of the state has raised a fault. -/
def State.Raised (s : State) : Prop := s.bun.raised ≠ none

/-- A state with the same bundle. -/
theorem State.Raised.congr (h : s.Raised) (hb : t.bun = s.bun) : t.Raised := by
  unfold State.Raised
  rw [hb]
  exact h

theorem State.Raised.of_fst {β : Type} {p : State × β} {b : β} (h : p.1.Raised) (hp : p = (t, b)) : t.Raised := by
  rw [hp] at h
  exact h

theorem raised_ite {c : Prop} [Decidable c] (h : s.Raised) (k : t.Raised) : (if c then s else t).Raised := by
  split
  · exact h
  · exact k

theorem raised_foldl {α : Type} {f : State → α → State} {l : List α} (hf : ∀ s x, s.Raised → (f s x).Raised) (h : s.Raised) :
    (l.foldl f s).Raised := List.foldlRecOn l f h fun s hs x _ => hf s x hs

theorem raised_foldl_fst {α β : Type} {f : State × β → α → State × β} {l : List α} {p : State × β}
    (hf : ∀ p x, p.1.Raised → (f p x).1.Raised) (h : p.1.Raised) : (l.foldl f p).1.Raised :=
  List.foldlRecOn l f (motive := fun p => p.1.Raised) h fun p hp x _ => hf p x hp

theorem raised_ite_fst {β : Type} {c : Prop} [Decidable c] {p q : State × β} (h : p.1.Raised) (k : q.1.Raised) :
    (if c then p else q).1.Raised := by
  split
  · exact h
  · exact k

/-! ## What taking a trap does -/

theorem countErr_raised {u : Nat} {ue : Bool} (hs : s.Raised) : (countErr s u ue).Raised := by
  unfold countErr
  dsimp only
  exact hs

theorem markPoison_raised {a n : Nat} (hs : s.Raised) : (markPoison s a n).Raised :=
  raised_foldl (fun _ _ hu => raised_ite (countErr_raised hu) hu) hs

theorem evictLine_raised {pa : Nat} (hs : s.Raised) : (evictLine s pa).Raised := by
  refine State.Raised.congr (t := evictLine s pa) hs ?_
  unfold evictLine
  dsimp only
  split <;> rfl

theorem evictLines_raised {gone : Nat × Nat × Nat × Bool → Bool} (hs : s.Raised) : (evictLines s gone).Raised := by
  have h := raised_foldl (f := fun s x => if (s.stale.any fun e => e.1 = x.1 * 2 ^ 36 + 192 * x.2.1) then evictLine s
      (x.1 * 2 ^ 36 + 192 * x.2.1) else s)
    (l := s.slices.filter gone) (fun _ _ hu => raised_ite (evictLine_raised hu) hu) hs
  exact h.congr rfl

theorem noteDirty_raised {pa : Nat} (hs : s.Raised) : (noteDirty s pa).Raised := hs

theorem sliceTouch_raised {p pa : Nat} {dirty : Bool} (hs : s.Raised) : (sliceTouch s p pa dirty).Raised := by
  unfold sliceTouch
  dsimp only
  split
  · exact hs
  · split
    · exact (raised_ite (noteDirty_raised hs) hs).congr rfl
    · split
      · exact hs
      · exact (raised_ite (noteDirty_raised (evictLines_raised hs)) (evictLines_raised hs)).congr rfl

theorem touchAll_raised {p : Nat} {l : List Nat} {dirty : Bool} (hs : s.Raised) : (touchAll s p l dirty).Raised :=
  raised_foldl (fun _ _ hu => sliceTouch_raised hu) hs

theorem walkTouch_raised {p : Nat} {va : Word} (hs : s.Raised) : (walkTouch s p va).Raised :=
  touchAll_raised (raised_foldl (fun _ _ hu => markPoison_raised hu) hs)

theorem countMiss_raised {a : Nat} {walked : Bool} (hs : s.Raised) : (countMiss s a walked).Raised := raised_ite hs hs

theorem tlbFill_raised {a p va : Nat} {leaf : Word} (hs : s.Raised) : (tlbFill s a p va leaf).Raised := hs

theorem walkFill_raised {a p : Nat} {va : Word} (hs : s.Raised) : (walkFill s a p va).1.Raised := by
  unfold walkFill
  split
  · exact tlbFill_raised (walkTouch_raised hs)
  · exact walkTouch_raised hs

theorem translate_raised {a p : Nat} {va : Word} (hs : s.Raised) : (translate s a p va).1.Raised := by
  unfold translate
  refine raised_ite_fst hs ?_
  split
  · exact raised_ite hs (countMiss_raised hs)
  · exact walkFill_raised (countMiss_raised hs)

theorem countFlits_raised {a n k : Nat} (hs : s.Raised) : (countFlits s a n k).Raised := raised_ite hs hs

theorem countTrip_raised {a pa : Nat} (hs : s.Raised) : (countTrip s a pa).Raised := by
  unfold countTrip
  split
  · exact hs
  · exact countFlits_raised hs

theorem countHome_raised {a pa : Nat} (hs : s.Raised) : (countHome s a pa).Raised := by
  unfold countHome
  split
  · exact hs
  · exact countTrip_raised (raised_ite hs hs)

theorem putBytes_raised {a n v : Nat} (hs : s.Raised) : (putBytes s a n v).Raised := hs.congr rfl

theorem homeBytes_raised {p a n v : Nat} (hs : s.Raised) : (homeBytes s p a n v).Raised := putBytes_raised (touchAll_raised hs)

theorem putCells_raised {l : List Host.Cell} {bad : List Nat} (hs : s.Raised) : (putCells s l bad).Raised := hs

theorem homeCells_raised {p : Nat} {l : List Host.Cell} {bad : List Nat} (hs : s.Raised) : (homeCells s p l bad).Raised :=
  putCells_raised (touchAll_raised hs)

theorem writeBack_raised {a : Nat} {l : CacheLine} (hs : s.Raised) : (writeBack s a l).1.Raised :=
  raised_ite hs (countHome_raised (homeCells_raised hs))

theorem modArr_raised {a : Nat} {f : Arr → Arr} (hs : s.Raised) : (modArr s a f).Raised := hs

theorem writeBackAll_raised {a : Nat} {p : CacheLine → Bool} (hs : s.Raised) : (writeBackAll s a p).Raised := by
  unfold writeBackAll
  dsimp only
  exact modArr_raised (raised_foldl_fst (fun _ _ hu => raised_ite_fst (writeBack_raised hu) hu) hs)

theorem invalidateCache_raised {a : Nat} (hs : s.Raised) : (invalidateCache s a).Raised := modArr_raised (writeBackAll_raised hs)

theorem cachePut_raised {a : Nat} {l : CacheLine} (hs : s.Raised) : (cachePut s a l).Raised := by
  unfold cachePut
  dsimp only
  split
  · exact hs
  · exact modArr_raised (writeBack_raised hs)

theorem fillLine_raised {l : CacheLine} {o n : Nat} (hs : s.Raised) : (fillLine s l o n).1.Raised := by
  unfold fillLine
  dsimp only
  exact raised_foldl_fst (fun _ _ hu => raised_ite_fst hu (sliceTouch_raised (markPoison_raised hu))) hs

theorem countLookup_raised {a : Nat} {hit : Bool} (hs : s.Raised) : (countLookup s a hit).Raised := hs

theorem cacheLoad_raised {a p va pa n : Nat} {leaf : Word} (hs : s.Raised) : (cacheLoad s a p va pa n leaf).1.Raised := by
  unfold cacheLoad
  dsimp only
  exact countLookup_raised (cachePut_raised (fillLine_raised hs))

theorem cacheStore_raised {a p va pa n v : Nat} {leaf : Word} (hs : s.Raised) : (cacheStore s a p va pa n v leaf).Raised := by
  unfold cacheStore
  dsimp only
  exact countLookup_raised (cachePut_raised (fillLine_raised hs))

theorem cacheFront_raised {a : Nat} {l : CacheLine} (hs : s.Raised) : (cacheFront s a l).Raised := hs

theorem storeThrough_raised {a p va pa n v : Nat} (hs : s.Raised) : (storeThrough s a p va pa n v).Raised := by
  unfold storeThrough
  dsimp only
  split
  · exact countLookup_raised (homeBytes_raised hs)
  · exact raised_ite (cacheFront_raised (countLookup_raised (homeBytes_raised hs))) (countLookup_raised (homeBytes_raised hs))

theorem dropPa_raised {a pa : Nat} (hs : s.Raised) :
    (dropPa s a pa).Raised := raised_ite hs (modArr_raised (writeBackAll_raised hs))

theorem aliasWork_raised {a p va pa : Nat} (hs : s.Raised) : (aliasWork s a p va pa).Raised :=
  raised_ite hs (modArr_raised (writeBackAll_raised hs))

theorem dropLine_raised {a p va : Nat} (hs : s.Raised) : (dropLine s a p va).Raised := modArr_raised (writeBackAll_raised hs)

theorem putReg_raised {a r : Nat} {v : Word} (hs : s.Raised) : (putReg s a r v).Raised := raised_ite hs hs

theorem putPoison_raised {a r : Nat} {v : Word} {bad : Bool} (hs : s.Raised) : (putPoison s a r v bad).Raised := raised_ite hs hs

theorem homeSticky_raised {pa p : Nat} {fl : Flags} (hs : s.Raised) :
    (homeSticky s pa p fl).Raised := raised_ite hs (raised_ite hs hs)

theorem rmw_raised {s0 : State} {pa p n : Nat} {f : Nat → Option Nat × Flags} (hs0 : s0.Raised) : (rmw s0 pa p n f).1.Raised := by
  unfold rmw
  dsimp only
  refine raised_ite_fst (sliceTouch_raised (markPoison_raised hs0)) ?_
  split
  · exact putBytes_raised (sliceTouch_raised (homeSticky_raised (markPoison_raised hs0)))
  · exact sliceTouch_raised (homeSticky_raised (markPoison_raised hs0))

theorem bumpAcnt_raised {m a : Nat} (hs : s.Raised) : (bumpAcnt s m a).Raised := raised_ite hs hs

theorem accPerform_raised {pa p a fn v : Nat} {must : Bool} (hs : s.Raised) : (accPerform s pa p a fn v must).Raised := by
  unfold accPerform
  dsimp only
  generalize hr : rmw s pa p _ _ = r
  have h1 : r.1.Raised := hr ▸ rmw_raised hs
  have h2 : (if r.2.2.2 = true then { r.1 with homeLog := r.1.homeLog ++ [(memDie pa, p, pa)] } else r.1).Raised :=
    raised_ite h1 h1
  exact raised_ite (raised_ite (bumpAcnt_raised h2) (bumpAcnt_raised h2)) h2

theorem setBar_raised {addr : Nat} {b : Bar} (hs : s.Raised) : (setBar s addr b).Raised := hs.congr rfl

theorem answerCb_raised {addr status phase : Nat} (hs : s.Raised) : (answerCb s addr status phase).Raised :=
  raised_foldl (fun _ _ hu => hu) hs

theorem barUpdate_raised {s0 : State} {addr : Nat} {check : Bool} {f : Bar → Bar} (hs0 : s0.Raised) :
    (barUpdate s0 addr check f).Raised := by
  have hs : (if inResid s0 addr = true then s0 else markPoison s0 addr 16).Raised := raised_ite hs0 (markPoison_raised hs0)
  unfold barUpdate
  dsimp only
  exact raised_ite hs (raised_ite (answerCb_raised (setBar_raised hs)) (setBar_raised hs))

theorem barBreak_raised {s0 : State} {addr : Nat} (hs0 : s0.Raised) : (barBreak s0 addr).Raised :=
  raised_ite (raised_ite hs0 (markPoison_raised hs0)) (answerCb_raised (setBar_raised (raised_ite hs0 (markPoison_raised hs0))))

theorem answerFe_raised {a status : Nat} {v : BitVec 32} {bad : Bool} (hs : s.Raised) : (answerFe s a status v bad).Raised := hs

theorem serveFe_raised {addr n : Nat} (hs : s.Raised) : (serveFe s addr n).Raised := by
  induction n generalizing s with
  | zero => exact hs
  | succ n ih =>
    unfold serveFe
    dsimp only
    split
    · exact hs
    · split
      · split
        · exact ih (answerFe_raised (hs.congr rfl))
        · refine ih (answerFe_raised ?_)
          split
          · exact markPoison_raised hs
          · exact markPoison_raised hs
      · exact ih hs

theorem serveWord_raised {addr : Nat} (hs : s.Raised) : (serveWord s addr).Raised := serveFe_raised hs

theorem breakFe_raised {tile : Nat} (hs : s.Raised) : (breakFe s tile).Raised := raised_foldl (fun _ _ hu => hu) hs

theorem virtWrite_raised {p va n v : Nat} (hs : s.Raised) : (virtWrite s p va n v).1.Raised := by
  unfold virtWrite
  dsimp only
  split
  · exact walkTouch_raised hs
  · exact raised_ite_fst (walkTouch_raised hs) (homeBytes_raised (walkTouch_raised hs))

theorem journalSet_raised {p seq status detail : Nat} (hs : s.Raised) : (journalSet s p seq status detail).Raised := by
  unfold journalSet
  dsimp only
  exact raised_ite (virtWrite_raised (virtWrite_raised hs)) (virtWrite_raised hs)

theorem dropHdl_raised {a h : Nat} (hs : s.Raised) : (dropHdl s a h).Raised := raised_ite hs hs

theorem dropHdls_raised {a : Nat} {l : List Nat} (hs : s.Raised) : (dropHdls s a l).Raised :=
  raised_foldl (fun _ _ hu => dropHdl_raised hu) hs

theorem windowEmit_raised {e : WinEntry} (hs : s.Raised) : (windowEmit s e).Raised := by
  unfold windowEmit
  dsimp only
  exact accPerform_raised (homeSticky_raised hs)

theorem windowAdd_raised {p win addr chip : Nat} {v : BitVec 32} (hs : s.Raised) : (windowAdd s p win addr chip v).Raised := by
  unfold windowAdd
  dsimp only
  exact raised_ite (windowEmit_raised (homeSticky_raised hs)) (homeSticky_raised hs)

theorem flushFrom_raised {p chip : Nat} (hs : s.Raised) : (flushFrom s p chip).Raised :=
  raised_foldl (fun _ _ hu => windowEmit_raised hu) hs

theorem flushWindows_raised {p : Nat} (hs : s.Raised) : (flushWindows s p).Raised := flushFrom_raised hs

theorem setRes_raised {base k : Nat} {e : BitVec 128} (hs : s.Raised) : (setRes s base k e).Raised := putBytes_raised hs

theorem resClear_raised {base k : Nat} (hs : s.Raised) : (resClear s base k).Raised := putBytes_raised hs

theorem residTaken_raised {a pa fn : Nat} (hs : s.Raised) : (residTaken s a pa fn).Raised := hs

theorem residDone_raised {a pa fn : Nat} (hs : s.Raised) : (residDone s a pa fn).Raised := residTaken_raised (dropHdls_raised hs)

theorem report_raised {a : Nat} {f : FaultInfo} (hs : s.Raised) : (report s a f).Raised := hs

theorem resDiscard_raised {a base k : Nat} (hs : s.Raised) : (resDiscard s a base k).Raised :=
  report_raised (residDone_raised (resClear_raised (markPoison_raised hs)))

theorem pmcAdd_raised {a code n : Nat} (hs : s.Raised) : (pmcAdd s a code n).Raised := hs

theorem resFlushOne_raised {a base k : Nat} (hs : s.Raised) : (resFlushOne s a base k).Raised :=
  raised_ite (resDiscard_raised hs) (pmcAdd_raised (residDone_raised
      (resClear_raised (countHome_raised (accPerform_raised (dropPa_raised hs))))))

theorem flushResid_raised {a : Nat} (hs : s.Raised) : (flushResid s a).Raised := by
  unfold flushResid
  split
  · exact hs
  · exact raised_foldl (fun _ _ hu => resFlushOne_raised hu) hs

theorem modSeq_raised {a : Nat} {f : Seq → Seq} (hs : s.Raised) : (modSeq s a f).Raised := hs

theorem resPlace_raised {s0 : State} {a pa fn v : Nat} (hs0 : s0.Raised) : (resPlace s0 a pa fn v).Raised := by
  unfold resPlace
  dsimp only
  split
  · exact hs0
  · split
    · refine modSeq_raised (setRes_raised ?_)
      split
      · exact raised_ite (resDiscard_raised hs0) hs0
      · exact hs0
    · split
      · split
        · exact raised_ite (resDiscard_raised hs0) hs0
        · exact hs0
      · refine modSeq_raised (setRes_raised ?_)
        split
        · exact raised_ite (resDiscard_raised hs0) hs0
        · exact hs0

theorem releaseWork_raised {a scope : Nat} (hs : s.Raised) : (releaseWork s a scope).Raised := by
  have h1 : (if scope ≥ 1 then writeBackAll s a fun l : CacheLine => l.stag < scope else s).Raised :=
    raised_ite (writeBackAll_raised hs) hs
  have h2 := raised_ite (c := scope ≥ 2) (flushResid_raised (a := a) h1) h1
  exact raised_ite (flushWindows_raised h2) h2

theorem acquireWork_raised {a scope : Nat} (hs : s.Raised) :
    (acquireWork s a scope).Raised := raised_ite (invalidateCache_raised hs) hs

theorem unWork_raised {a : Nat} {o : Out} (hs : s.Raised) : (unWork s a o).Raised := by
  unfold unWork
  split
  · exact hs
  · exact raised_ite (modSeq_raised (writeBackAll_raised hs)) hs

theorem aliasFor_raised {a : Nat} {o : Out} (hs : s.Raised) : (aliasFor s a o).Raised := raised_ite (aliasWork_raised hs) hs

theorem readFor_raised {a : Nat} {o : Out} (hs : s.Raised) : (readFor s a o).1.Raised := by
  have h0 : (aliasFor (if o.acq then acquireWork (unWork s a o) a o.scope else unWork s a o) a o).Raised :=
    aliasFor_raised (raised_ite (acquireWork_raised (unWork_raised hs)) (unWork_raised hs))
  unfold readFor
  dsimp only
  exact raised_ite_fst (raised_ite (cacheLoad_raised h0) (countHome_raised (cacheLoad_raised h0)))
    (countHome_raised (sliceTouch_raised (markPoison_raised h0)))

theorem delOut_raised {a k : Nat} (hs : s.Raised) : (delOut s a k).Raised := hs

theorem dropLd_raised {a : Nat} (hs : s.Raised) : (dropLd s a).Raised := hs

theorem loadReturn_raised {a k : Nat} {o : Out} {rd : Nat} {sx : Bool} (hs : s.Raised) : (loadReturn s a k o rd sx).Raised := by
  unfold loadReturn
  dsimp only
  exact delOut_raised (dropHdl_raised (dropLd_raised (putPoison_raised (readFor_raised hs))))

theorem releaseFor_raised {a : Nat} {o : Out} (hs : s.Raised) : (releaseFor s a o).Raised :=
  unWork_raised (raised_ite (releaseWork_raised hs) hs)

theorem atomicFor_raised {a : Nat} {o : Out} (hs : s.Raised) : (atomicFor s a o).Raised :=
  raised_ite (dropLine_raised (aliasFor_raised (releaseFor_raised hs))) (aliasFor_raised (releaseFor_raised hs))

theorem dropSt_raised {a : Nat} (hs : s.Raised) : (dropSt s a).Raised := hs

theorem storeEnd_raised {a k : Nat} {o : Out} {v : Word} (hs : s.Raised) : (storeEnd s a k o v).Raised := by
  have h0 : (aliasFor (releaseFor s a o) a o).Raised := aliasFor_raised (releaseFor_raised hs)
  exact delOut_raised (dropHdl_raised (dropSt_raised (raised_ite
    (raised_ite (raised_ite (cacheStore_raised h0) (countHome_raised (cacheStore_raised h0)))
      (countHome_raised (storeThrough_raised h0)))
    (countHome_raised (homeBytes_raised h0)))))

theorem setOut_raised {a k : Nat} {o : Out} (hs : s.Raised) : (setOut s a k o).Raised := hs

theorem amoHome_raised {a k : Nat} {o : Out} {fn rd : Nat} {v : Word} (hs : s.Raised) : (amoHome s a k o fn rd v).Raised := by
  unfold amoHome
  dsimp only
  exact setOut_raised (countHome_raised (dropHdl_raised (rmw_raised (atomicFor_raised hs))))

theorem casHome_raised {a k : Nat} {o : Out} {rd : Nat} {cmp new : Word} (hs : s.Raised) : (casHome s a k o rd cmp new).Raised := by
  unfold casHome
  dsimp only
  exact setOut_raised (countHome_raised (dropHdl_raised (rmw_raised (atomicFor_raised hs))))

theorem amoBack_raised {a k : Nat} {o : Out} {rd : Nat} {old : Word} {fl : Flags} {bad : Bool} (hs : s.Raised) :
    (amoBack s a k o rd old fl bad).Raised :=
  delOut_raised (raised_ite (acquireWork_raised (modSeq_raised (putPoison_raised hs))) (modSeq_raised (putPoison_raised hs)))

theorem accGone_raised {a : Nat} {o : Out} (hs : s.Raised) : (accGone s a o).Raised := dropHdls_raised hs

theorem setQuota_raised {m p : Nat} {q : Quota} (hs : s.Raised) : (setQuota s m p q).Raised := hs

theorem accHome_raised {a k : Nat} {o : Out} {fn : Nat} {v : Word} (hs : s.Raised) : (accHome s a k o fn v).Raised := by
  unfold accHome
  dsimp only
  split
  · exact delOut_raised (accGone_raised (countTrip_raised (windowAdd_raised (atomicFor_raised hs))))
  · exact raised_ite (setOut_raised (countTrip_raised (pmcAdd_raised (setQuota_raised (atomicFor_raised hs)))))
        (delOut_raised (countHome_raised (accGone_raised (accPerform_raised (atomicFor_raised hs)))))

theorem accPlace_raised {a : Nat} {o : Out} {fn : Nat} {v : Word} (hs : s.Raised) : (accPlace s a o fn v).Raised :=
  modSeq_raised (dropSt_raised (resPlace_raised hs))

theorem accBack_raised {a k : Nat} {o : Out} {fn : Nat} {v : Word} (hs : s.Raised) : (accBack s a k o fn v).Raised :=
  raised_ite (delOut_raised (accPlace_raised hs)) hs

theorem syncComplete_raised {p g : Nat} (hs : s.Raised) : (syncComplete s p g).Raised := raised_foldl (fun _ _ hu => hu) hs

theorem phaseBegin_raised {p g : Nat} (hs : s.Raised) : (phaseBegin s p g).Raised := raised_foldl (fun _ _ hu => hu) hs

theorem sweepImux_raised {n : Nat} (hs : s.Raised) : (sweepImux s n).Raised := raised_ite hs hs

theorem phaseEnd_raised {p g : Nat} (hs : s.Raised) : (phaseEnd s p g).Raised :=
  raised_ite hs (raised_foldl (fun _ _ hu => acquireWork_raised hu) hs)

theorem groupCheck_raised {p g : Nat} (hs : s.Raised) : (groupCheck s p g).Raised :=
  raised_ite hs (raised_ite (phaseEnd_raised hs) (raised_ite (phaseBegin_raised hs) (syncComplete_raised hs)))

theorem leaveGroups_raised {p a : Nat} {gs : List Nat} (hs : s.Raised) : (leaveGroups s p a gs).Raised :=
  raised_foldl (fun _ _ hu => groupCheck_raised hu) hs

theorem breakSaved_raised {p : Nat} {f : Nat → Nat → Nat → Bool} (hs : s.Raised) : (breakSaved s p f).Raised := hs

theorem breakGroups_raised {p : Nat} {gs : List Nat} (hs : s.Raised) : (breakGroups s p gs).Raised :=
  raised_foldl (fun _ _ hu => raised_ite (barBreak_raised hu) hu) (breakSaved_raised (raised_foldl (fun _ _ hu => hu) hs))

theorem clearGroup0_raised {p : Nat} (hs : s.Raised) : (clearGroup0 s p).Raised := raised_ite hs hs

theorem cbInit_raised {p addr : Nat} {v : Word} (hs : s.Raised) : (cbInit s p addr v).Raised := answerCb_raised (putBytes_raised hs)

theorem dqPush_raised {a : Nat} {v : Word} (hs : s.Raised) : (dqPush s a v).1.Raised := raised_ite_fst hs hs

theorem dqPop_raised {a : Nat} (hs : s.Raised) : (dqPop s a).1.Raised := raised_ite_fst hs hs

theorem dqSteal_raised {v : Nat} (hs : s.Raised) : (dqSteal s v).1.Raised := raised_ite_fst hs hs

theorem migMeet_raised {p base : Nat} (hs : s.Raised) : (migMeet s p base).Raised :=
  touchAll_raised (raised_foldl (fun _ _ hu => markPoison_raised hu) hs)

theorem locqPage_raised {a : Nat} {va : Word} (hs : s.Raised) : (locqPage s a va).1.Raised := by
  unfold locqPage
  dsimp only
  split
  · exact translate_raised hs
  · exact migMeet_raised (translate_raised hs)

theorem putPred_raised {a b : Nat} {v : Bool} (hs : s.Raised) : (putPred s a b v).Raised := raised_ite hs hs

theorem dqHome_raised {a k : Nat} {o : Out} (hs : s.Raised) : (dqHome s a k o).Raised := by
  unfold dqHome
  dsimp only
  split
  · exact setOut_raised (dqPush_raised (releaseWork_raised hs))
  · exact setOut_raised (dqPop_raised hs)
  · exact setOut_raised (raised_ite (acquireWork_raised (dqSteal_raised (countFlits_raised hs)))
        (dqSteal_raised (countFlits_raised hs)))
  · exact hs

theorem ldEnd_raised {a k : Nat} {o : Out} (hs : s.Raised) : (ldEnd s a k o).Raised := by
  unfold ldEnd
  dsimp only
  split
  · exact loadReturn_raised hs
  · exact delOut_raised (dropLd_raised (putReg_raised (markPoison_raised (acquireWork_raised (countHome_raised hs)))))
  · exact delOut_raised (dropLd_raised (putReg_raised (locqPage_raised hs)))
  · exact delOut_raised (dropLd_raised (putPred_raised (putReg_raised hs)))
  · exact dqHome_raised hs

theorem bankEnd_raised {s0 : State} {a k : Nat} {o : Out} (hs0 : s0.Raised) : (bankEnd s0 a k o).Raised := by
  have hs : (countHome s0 a o.pl.pa).Raised := countHome_raised hs0
  unfold bankEnd
  dsimp only
  split
  · exact serveWord_raised (delOut_raised (dropSt_raised ((releaseWork_raised hs).congr rfl)))
  · exact delOut_raised (dropSt_raised (cbInit_raised hs))
  · exact delOut_raised (dropSt_raised (barUpdate_raised hs))
  · exact delOut_raised (dropSt_raised (putReg_raised (barUpdate_raised
      (raised_ite (flushResid_raised (releaseWork_raised hs)) hs))))
  · exact hs0

theorem stEnd_raised {a k : Nat} {o : Out} (hs : s.Raised) : (stEnd s a k o).Raised := by
  unfold stEnd
  cases o.op
  case store => exact storeEnd_raised hs
  case stfk | cbinit | cbexp | cbarr => exact bankEnd_raised hs
  case fenceRel => exact delOut_raised (releaseWork_raised hs)
  all_goals exact hs

theorem flushEnd_raised {a k : Nat} (hs : s.Raised) :
    (flushEnd s a k).Raised := delOut_raised (dropSt_raised (flushResid_raised hs))

theorem accLeft_raised {a k : Nat} {o : Out} {fn : Nat} {v : Word} (hs : s.Raised) : (accLeft s a k o fn v).Raised :=
  (accGone_raised hs).congr rfl

theorem finishAt_raised {a k : Nat} (hs : s.Raised) : (finishAt s a k).Raised := by
  unfold finishAt
  split
  · exact hs
  · split
    · exact amoHome_raised hs
    · exact casHome_raised hs
    · exact amoBack_raised hs
    · exact accHome_raised hs
    · exact raised_ite (accBack_raised hs) (accLeft_raised hs)
    · exact flushEnd_raised hs
    · exact raised_ite (ldEnd_raised hs) (stEnd_raised hs)

theorem finishAll_raised {p : Out → Bool} {n a : Nat} (hs : s.Raised) : (finishAll p n s a).Raised := by
  induction n generalizing s with
  | zero => exact hs
  | succ n ih =>
    unfold finishAll
    split
    · exact hs
    · exact ih (finishAt_raised hs)

theorem drainOuts_raised {a : Nat} (hs : s.Raised) : (drainOuts s a).Raised := finishAll_raised hs

theorem bumpCell_raised {p n : Nat} (hs : s.Raised) : (bumpCell s p n).Raised := by
  unfold bumpCell
  split
  · exact hs
  · exact raised_ite hs hs

theorem bumpDest_raised {c : Cmd} (hs : s.Raised) : (bumpDest s c).Raised := by
  unfold bumpDest
  refine raised_ite ?_ hs
  split
  · exact hs
  · exact bumpCell_raised hs

theorem coverFlits_raised {a e seq : Nat} {l : List Host.Cell} (hs : s.Raised) : (coverFlits s a e seq l).Raised := raised_ite hs hs

theorem modEng_raised {a e : Nat} {f : Engine → Engine} (hs : s.Raised) : (modEng s a e f).Raised := hs

theorem landSector_raised {a e : Nat} {x : Sector} (hs : s.Raised) : (landSector s a e x).Raised := by
  unfold landSector
  dsimp only
  split
  · refine modEng_raised ?_
    split
    · exact hs
    · exact countHome_raised (pmcAdd_raised (homeCells_raised (coverFlits_raised hs)))
  · refine barUpdate_raised (modEng_raised ?_)
    split
    · exact hs
    · exact countHome_raised (pmcAdd_raised (homeCells_raised (coverFlits_raised hs)))

theorem landAll_raised {a e : Nat} (hs : s.Raised) : (landAll s a e).Raised := raised_foldl (fun _ _ hu => landSector_raised hu) hs

theorem breakCmd_raised {c : Cmd} (hs : s.Raised) : (breakCmd s c).Raised := by
  unfold breakCmd
  split
  · exact hs
  · split
    · exact hs
    · exact raised_ite hs (barBreak_raised hs)

theorem breakEngines_raised {a : Nat} (hs : s.Raised) : (breakEngines s a).Raised :=
  raised_foldl (fun _ _ hu => raised_foldl (fun _ _ hv => bumpDest_raised (breakCmd_raised hv))
      (modSeq_raised (modEng_raised (landAll_raised hu)))) hs

theorem sweepTiles_raised (hs : s.Raised) : (sweepTiles s).Raised := raised_foldl (fun _ _ hu => raised_ite hu hu) hs

theorem dropBinds_raised {p : Nat} {l : List Nat} (hs : s.Raised) : (dropBinds s p l).Raised := raised_foldl (fun _ _ hu => hu) hs

theorem freeOwned_raised {t : Task} (hs : s.Raised) : (freeOwned s t).Raised :=
  raised_foldl (fun _ _ hu => raised_ite hu (raised_ite hu (raised_ite hu hu))) hs

theorem unplaceBound_raised {t : Task} (hs : s.Raised) : (unplaceBound s t).Raised := raised_foldl (fun _ _ hu => hu) hs

theorem completionAdd_raised {t : Task} {n : Nat} (hs : s.Raised) : (completionAdd s t n).1.Raised := by
  unfold completionAdd
  dsimp only
  refine raised_ite_fst hs ?_
  split
  · exact walkTouch_raised hs
  · exact raised_ite_fst (walkTouch_raised hs) (rmw_raised (walkTouch_raised hs))

theorem dlqDrop_raised {t : Task} (hs : s.Raised) : (dlqDrop s t).Raised := raised_ite hs hs

theorem modTask_raised {i : Nat} {f : Task → Task} (hs : s.Raised) : (modTask s i f).Raised := hs

theorem modPart_raised {p : Nat} {f : Part → Part} (hs : s.Raised) : (modPart s p f).Raised := hs

theorem taskFinal_raised {i : Nat} {st : TaskState} {code detail : Nat} (hs : s.Raised) :
    (taskFinal s i st code detail).Raised := by
  unfold taskFinal
  dsimp only
  split
  · exact hs
  · generalize hr : completionAdd _ _ _ = r
    have h3 : r.1.Raised :=
      hr ▸ completionAdd_raised (journalSet_raised (modTask_raised (modPart_raised (dlqDrop_raised hs))))
    exact raised_ite h3 (journalSet_raised (modTask_raised h3))

theorem releaseArrays_raised {top : Nat} (hs : s.Raised) : (releaseArrays s top).Raised :=
  modPart_raised (raised_foldl (fun _ _ hu => hu) hs)

theorem breakTaskFe_raised {t : Task} (hs : s.Raised) : (breakTaskFe s t).Raised :=
  raised_foldl (fun _ _ hu => breakFe_raised hu) (raised_foldl (fun _ _ hu => raised_ite (breakFe_raised hu) hu) hs)

theorem failRunning_raised {i detail : Nat} (hs : s.Raised) : (failRunning s i detail).Raised := by
  unfold failRunning
  dsimp only
  split
  · exact hs
  · exact clearGroup0_raised (sweepTiles_raised (taskFinal_raised (raised_foldl (fun _ _ hu => sweepImux_raised hu)
        (releaseArrays_raised (leaveGroups_raised (unplaceBound_raised
        (dropBinds_raised (freeOwned_raised (breakTaskFe_raised (breakEngines_raised
        (breakGroups_raised (flushResid_raised (drainOuts_raised hs)))))))))))))

theorem streamFlits_raised {a n : Nat} {t : Tile} (hs : s.Raised) : (streamFlits s a n t).Raised := countFlits_raised hs

theorem landUnder_raised {a e seq : Nat} {cells : List Host.Cell} (hs : s.Raised) : (landUnder s a e seq cells).Raised := by
  unfold landUnder
  dsimp only
  exact raised_foldl (fun _ _ hu => landSector_raised hu) hs

theorem modPort_raised {a n : Nat} {f : Port → Port} (hs : s.Raised) : (modPort s a n f).Raised := hs

theorem drainOne_raised {a n : Nat} (hs : s.Raised) : (drainOne s a n).Raised := by
  unfold drainOne
  dsimp only
  split
  · exact hs
  · split
    · exact modPort_raised (putCells_raised (coverFlits_raised (landUnder_raised (streamFlits_raised hs))))
    · exact raised_ite hs hs

theorem drainMany_raised {k a n : Nat} (hs : s.Raised) : (drainMany k s a n).Raised := by
  induction k generalizing s with
  | zero => exact hs
  | succ k ih => exact ih (drainOne_raised hs)

theorem restoreShadow_raised {a : Nat} (hs : s.Raised) : (restoreShadow s a).Raised :=
  modArr_raised (raised_foldl (fun _ _ hu => drainMany_raised hu) hs)

theorem recordStore_raised {a p va : Nat} {l : List Nat} (hs : s.Raised) {t : State} (h : recordStore s a p va l = some t) :
    t.Raised := by
  induction l generalizing s va with
  | nil => exact Option.some.inj h ▸ hs
  | cons v l ih =>
    unfold recordStore at h
    dsimp only at h
    split at h
    · exact nomatch h
    · split at h
      · exact nomatch h
      · exact ih (raised_ite (storeThrough_raised (aliasWork_raised (walkTouch_raised hs)))
          (homeBytes_raised (walkTouch_raised hs))) h

theorem writeRecord_raised {s0 : State} {a : Nat} {f : FaultInfo} {restart : Bool} {more : Nat} (hs0 : s0.Raised) :
    (writeRecord s0 a f restart more).1.Raised := by
  unfold writeRecord
  dsimp only
  refine raised_ite_fst hs0 ?_
  split
  · exact modSeq_raised (walkTouch_raised hs0)
  · rename_i h1
    split
    · exact recordStore_raised (releaseWork_raised hs0) h1
    · split
      · exact hs0
      · rename_i h2
        exact recordStore_raised (recordStore_raised (releaseWork_raised hs0) h1) h2

theorem failTop_raised {a : Nat} {f : FaultInfo} (hs : s.Raised) : (failTop s a f).Raised := by
  unfold failTop
  split
  · exact hs
  · exact failRunning_raised hs

theorem restart_raised {a : Nat} {f : FaultInfo} (hs : s.Raised) : (restart s a f).Raised := modSeq_raised (restoreShadow_raised hs)

theorem withdrawHeld_raised {a : Nat} (hs : s.Raised) : (withdrawHeld s a).Raised := by
  unfold withdrawHeld
  dsimp only
  refine modSeq_raised ?_
  split
  · exact hs
  · exact hs

theorem codePoint_raised {a : Nat} (hs : s.Raised) : (codePoint s a).Raised := raised_ite (acquireWork_raised hs) hs

theorem enterMonitor_raised {s0 : State} {a : Nat} {f : FaultInfo} {mepc rec_ : Nat} (hs0 : s0.Raised) :
    (enterMonitor s0 a f mepc rec_).Raised := by
  unfold enterMonitor
  dsimp only
  exact modArr_raised (codePoint_raised (countMiss_raised (walkFill_raised hs0)))

theorem takeTrap_raised {a : Nat} (hs : s.Raised) : (takeTrap s a).Raised := by
  unfold takeTrap
  dsimp only
  split
  · exact hs
  next f rest more _ =>
    have h1 : (modSeq (withdrawHeld s a) a fun q => { q with pending := rest, located := [] }).Raised :=
      modSeq_raised (withdrawHeld_raised hs)
    have h2 := raised_ite (c := f.code = 0x11) (restart_raised (a := a) (f := f) h1) h1
    exact raised_ite (failTop_raised (writeRecord_raised h1))
      (raised_ite (failTop_raised (writeRecord_raised h2)) (enterMonitor_raised (writeRecord_raised h2)))

/-- Raising a fault leaves it raised, whether or not it is taken at once. -/
theorem raise_raised {f : FaultInfo} : (raise s f).Raised :=
  raised_ite (takeTrap_raised (Option.some_ne_none f)) (Option.some_ne_none f)

end Sys2Proof.Machine
end
section
/-! What issuing a memory access leaves as it was (R217 to R220, R246, R437): bytes wait in the gate buffer or among the outstanding
operations, so no byte of memory changes, and no register but an offset register that steps. -/

namespace Sys2Proof.Machine

variable {s t u : State} {w : List Nat}

/-! ## The frame of an issue -/

/-- State `t` has the memory of `s`, the same running sequencer with the same residual tile, and the scalar registers of `s` but those listed. -/
structure Issued (w : List Nat) (s t : State) : Prop where
  mem : t.mem = s.mem
  cur : t.cur = s.cur
  resid : (curSeq t).residTile = (curSeq s).residTile
  reg : ∀ n, n ∉ w → reg t n = reg s n

/-- State `t` has raised a fault, or differs from `s` as an issue does. -/
def Issues (w : List Nat) (s t : State) : Prop := t.Raised ∨ Issued w s t

theorem Issued.refl : Issued w s s := ⟨rfl, rfl, rfl, fun _ _ => rfl⟩

theorem Issued.trans (h : Issued w s t) (k : Issued w t u) : Issued w s u :=
  ⟨k.mem.trans h.mem, k.cur.trans h.cur, k.resid.trans h.resid, fun n hn => (k.reg n hn).trans (h.reg n hn)⟩

theorem Issued.then (h : Issued w s t) (k : Issues w t u) : Issues w s u := k.imp_right h.trans

theorem Issued.mono {v : List Nat} (h : Issued v s t) (hv : ∀ n ∈ v, n ∈ w) : Issued w s t :=
  ⟨h.mem, h.cur, h.resid, fun n hn => h.reg n fun hm => hn (hv n hm)⟩

theorem Issues.mono {v : List Nat} (h : Issues v s t) (hv : ∀ n ∈ v, n ∈ w) : Issues w s t := h.imp_right (·.mono hv)

theorem raise_issues {f : FaultInfo} : Issues w s (raise t f) := .inl raise_raised

theorem residTile_modSeq {f : Seq → Seq} {a : Nat} (hr : ∀ q, (f q).residTile = q.residTile) :
    (curSeq (modSeq s a f)).residTile = (curSeq s).residTile := arr_modArr_congr (·.seq.residTile) (fun x => hr x.seq) s a _

/-- What changes no register and no residual tile of any sequencer is an issue. -/
theorem modSeq_issued {f : Seq → Seq} {a : Nat} (hs : ∀ q, (f q).s = q.s) (hr : ∀ q, (f q).residTile = q.residTile) :
    Issued w s (modSeq s a f) :=
  ⟨rfl, rfl, residTile_modSeq hr, fun n _ => (modSeq_scalarsKept hs s a).reg_eq n⟩

theorem modCur_issued {f : Seq → Seq} (hs : ∀ q, (f q).s = q.s) (hr : ∀ q, (f q).residTile = q.residTile) : Issued w s (modCur s f) :=
  modSeq_issued hs hr

/-- What the bundle has met is no register and no byte of memory. -/
theorem bun_issued {b : Bundle} : Issued w s { s with bun := b } := ⟨rfl, rfl, rfl, fun _ _ => rfl⟩

/-! ## Shared operations -/

theorem block_issued : Issued w s (block s) := bun_issued

theorem blockFull_issued : Issued w s (blockFull s) := bun_issued

theorem modHandle_issued {a h : Nat} {f : Handle → Handle} : Issued w s (modHandle s a h f) := modSeq_issued (fun _ => rfl) fun _ => rfl

theorem pushOut_issued {a ld st : Nat} {o : Out} : Issued w s (pushOut s a o ld st) := by
  unfold pushOut
  dsimp only
  have h : Issued w s (modSeq s a fun q =>
    { q with outs := q.outs ++ [{ o with no := q.outNo }], outNo := q.outNo + 1, ld := q.ld + ld, st := q.st + st }) :=
    modSeq_issued (fun _ => rfl) fun _ => rfl
  split
  · exact h.trans modHandle_issued
  · exact h

theorem popGate_issued {a : Nat} : Issued w s (popGate s a) := modSeq_issued (fun _ => rfl) fun _ => rfl

theorem regionNext_issued : Issued w s (regionNext s) := by
  unfold regionNext
  split
  · exact .refl
  · exact modCur_issued (fun _ => rfl) fun _ => rfl

theorem holdUntil_issued {c : Nat} : Issued w s (holdUntil s c) := by
  refine modCur_issued (fun q => ?_) fun q => ?_
  all_goals
    unfold Seq.holdTo
    split <;> rfl

/-- A table whose entries are all changed alike reads so, where the change keeps what an unlisted key reads as. -/
theorem tget_map_value {V : Type} {d : V} {g : V → V} (hg : g d = d) (l : Tab V) (n : Nat) :
    tget d (l.map fun e => (e.1, g e.2)) n = g (tget d l n) := by
  induction l with
  | nil => exact hg.symm
  | cons e l ih =>
    simp only [List.map_cons, tget, ih]
    split <;> rfl

/-- An array whose region opens: its streams forget what they had passed on, and keep what they hold. -/
def regionArr (pc : Nat) (mark : Bool) (x : Arr) : Arr :=
  { x with
    ports := x.ports.map fun e => (e.1, { e.2 with gone := [] })
    seq := { x.seq with shadow := shadowOf x, reads := [], writes := [], markpc := pc, region := x.seq.region || mark, openNext := false } }

theorem openRegion_eq (s : State) (a pc : Nat) (mark : Bool) : openRegion s a pc mark = modArr s a (regionArr pc mark) := rfl

theorem tget_regionArr (pc : Nat) (mark : Bool) (x : Arr) (n : Nat) :
    tget {} (regionArr pc mark x).ports n = { tget ({} : Port) x.ports n with gone := [] } :=
  tget_map_value (g := fun p : Port => { p with gone := [] }) rfl _ _

theorem openRegion_issued {a pc : Nat} {mark : Bool} : Issued w s (openRegion s a pc mark) := by
  rw [openRegion_eq]
  refine ⟨rfl, rfl, arr_modArr_congr (f := regionArr pc mark) (·.seq.residTile) (fun _ => rfl) s a _, fun n _ => ?_⟩
  have he : (portAt (modArr s a (regionArr pc mark)) (curA s) (portReg n)).elems = (portAt s (curA s) (portReg n)).elems :=
    arr_modArr_congr (fun x => (tget ({} : Port) x.ports (portReg n)).elems) (fun x => (congrArg Port.elems (tget_regionArr pc mark x (portReg n)) :)) s a _
  have hb : (portAt (modArr s a (regionArr pc mark)) (curA s) (portReg n)).bound = (portAt s (curA s) (portReg n)).bound :=
    arr_modArr_congr (fun x => (tget ({} : Port) x.ports (portReg n)).bound) (fun x => (congrArg Port.bound (tget_regionArr pc mark x (portReg n)) :)) s a _
  have hr : (curSeq (modArr s a (regionArr pc mark))).s = (curSeq s).s :=
    arr_modArr_congr (f := regionArr pc mark) (·.seq.s) (fun _ => rfl) s a _
  unfold reg isBound
  rw [show curA (modArr s a (regionArr pc mark)) = curA s from rfl, he, hb, hr]

/-! ## The gate buffer -/

theorem gateGo_issued {a n : Nat} {l : List GateEntry} : Issued w s (gateGo a l n s).1 := by
  induction l generalizing s n with
  | nil => exact .refl
  | cons e l ih =>
    cases e with
    | fence sc => exact (popGate_issued.trans pushOut_issued).trans ih
    | tile sl k x z v rel sc =>
      unfold gateGo
      split
      · exact .refl
      · split
        · exact .refl
        · exact (popGate_issued.trans pushOut_issued).trans ih
    | store h off z v rel sc =>
      unfold gateGo
      split
      · exact .refl
      · split
        · exact (popGate_issued.trans pushOut_issued).trans ih
        · exact modHandle_issued
        · exact .refl
        · exact .refl

theorem gateRelease_issued {a : Nat} : Issued w s (gateRelease s a).1 := gateGo_issued

/-- With the gate buffer released, the rest goes on from a state that differs as an issue does. -/
theorem withGate_issues {k : State → State} (hk : ∀ u, Issued w s u → Issues w s (k u)) : Issues w s (withGate s k) := by
  unfold withGate
  split
  · exact hk s .refl
  · have h : Issued w s (gateRelease s (curA s)).1 := gateRelease_issued
    split
    next he =>
      rw [he] at h
      split
      · exact hk _ (h.trans holdUntil_issued)
      · exact hk _ h
    next he =>
      rw [he] at h
      exact .inr (h.trans block_issued)
    next he =>
      rw [he] at h
      exact .inr (h.trans blockFull_issued)
    next => exact raise_issues

theorem gatePut_issues {e : GateEntry} : Issues w s (gatePut s e) := by
  have add (u : State) : Issued w u (modCur u fun q => { q with gate := q.gate ++ [e] }) := modCur_issued (fun _ => rfl) fun _ => rfl
  unfold gatePut
  dsimp only
  split
  · exact .inr (add s)
  · exact withGate_issues fun u hu => .inr ((hu.trans openRegion_issued).trans (add _))

theorem releasingSt_issues {k : State → State} (hk : ∀ u, Issued w s u → Issues w s (k u)) : Issues w s (releasingSt s k) :=
  withGate_issues fun u hu => by
    split
    · exact .inr (hu.trans blockFull_issued)
    · exact hk _ (hu.trans regionNext_issued)

/-! ## A slot and its checks -/

theorem markPopped_issued {srcs : List Nat} : Issued w s (markPopped s srcs) := bun_issued

theorem slotOp_issues {p : Nat} {srcs dsts : List Nat} {k : State → State} (hk : Issues w (markPopped s srcs) (k (markPopped s srcs))) :
    Issues w s (slotOp s p srcs dsts k) := by
  unfold slotOp
  split
  · exact .inr .refl
  · split
    · exact .inr bun_issued
    · split
      · exact raise_issues
      · split
        · exact raise_issues
        · exact markPopped_issued.then hk

theorem onChk_issues {h : Nat} {c : Chk} {k : Place → State} (hk : ∀ pl, Issues w s (k pl)) : Issues w s (onChk s h c k) := by
  cases c with
  | ok pl => exact hk pl
  | walk => exact .inr (modHandle_issued.trans block_issued)
  | wait => exact .inr block_issued
  | fault f => exact raise_issues

theorem setReg_issued {r : Nat} {v : Word} : Issued [r] s (setReg s r v) := by
  have hreg (n : Nat) (hn : n ∉ [r]) : reg (setReg s r v) n = reg s n := reg_setReg_of_ne s (List.mem_singleton.not.mp hn) v
  revert hreg
  unfold setReg putReg
  split
  · exact fun _ => .refl
  · exact fun hreg => ⟨rfl, rfl, residTile_modSeq fun _ => rfl, hreg⟩

/-- An offset register steps at the next cycle, and locks nothing. -/
theorem result_issued {r : Nat} {v : Word} : Issued [r] s (result s r v 1) := by
  unfold result
  dsimp only
  rw [if_pos (Nat.le_refl 1)]
  exact setReg_issued

/-- A register written unless the bundle stopped. -/
theorem result_issues {r : Nat} {v : Word} (h : Issues [r] s t) :
    Issues [r] s (if t.bun.blocked || t.bun.raised.isSome then t else result t r v 1) := by
  split
  · exact h
  next hc =>
    refine h.elim (fun hr => absurd ?_ hc) fun hi => .inr (hi.trans result_issued)
    rw [Bool.or_eq_true]
    exact .inr (Option.isSome_iff_ne_none.mpr hr)

/-! ## The accesses -/

theorem handleLoad_issues {i : Instr} {p : BitVec 3} {d : BitVec 5} {h : BitVec 4} {q sx : Bool} {c : BitVec 2} {f : BitVec 9} {z : Nat} :
    Issues w s (handleLoad i p d h q c f z sx s) := slotOp_issues (onChk_issues fun _ => .inr pushOut_issued)

theorem offsetLoad_issues {i : Instr} {p : BitVec 3} {d a : BitVec 5} {h : BitVec 4} {k : BitVec 8} {z : Nat} {sx : Bool} :
    Issues [a.toNat] s (offsetLoad i p d h a k z sx s) :=
  slotOp_issues (onChk_issues fun _ => .inr (pushOut_issued.trans result_issued))

theorem tileLoad_issues {i : Instr} {p : BitVec 3} {d a : BitVec 5} {x : BitVec 6} {q : Bool} {c : BitVec 2} {n : Nat} :
    Issues w s (tileLoad i p d x a q c n s) := by
  refine slotOp_issues ?_
  dsimp only
  split
  · exact .inr block_issued
  · split
    · exact raise_issues
    · exact .inr pushOut_issued

theorem handleStore_issues {pl : Place} {h z : Nat} {v : Word} {rel : Bool} {scope : Nat} : Issues w s (handleStore s pl h z v rel scope) := by
  unfold handleStore
  split
  · exact .inr pushOut_issued
  · exact gatePut_issues

theorem handleSt_issues {i : Instr} {p : BitVec 3} {d : BitVec 5} {h : BitVec 4} {q : Bool} {c : BitVec 2} {f : BitVec 9} {z : Nat} :
    Issues w s (handleSt i p d h q c f z s) := slotOp_issues (onChk_issues fun _ => handleStore_issues)

theorem offsetStore_issues {i : Instr} {p : BitVec 3} {d a : BitVec 5} {h : BitVec 4} {k : BitVec 8} {z : Nat} :
    Issues [a.toNat] s (offsetStore i p d h a k z s) := by
  refine slotOp_issues (onChk_issues fun pl => ?_)
  exact result_issues handleStore_issues

theorem tileStore_issues {i : Instr} {p : BitVec 3} {d a : BitVec 5} {x : BitVec 6} {q : Bool} {c : BitVec 2} {n : Nat} :
    Issues w s (tileStore i p d x a q c n s) := by
  refine slotOp_issues ?_
  dsimp only
  split
  · exact .inr block_issued
  · split
    · exact raise_issues
    · split
      · exact .inr pushOut_issued
      · exact gatePut_issues

theorem amo_issues {i : Instr} {fn : Nat} {p : BitVec 3} {d a : BitVec 5} {h : BitVec 4} {q r : Bool} {c : BitVec 2} :
    Issues w s (amo i fn p d h a q r c s) :=
  slotOp_issues (onChk_issues fun _ => releasingSt_issues fun _ hu => .inr (hu.trans pushOut_issued))

theorem residOf_eq_none_iff {a : Nat} : residOf s a = none ↔ (seqAt s a).residTile = none := Option.map_eq_none_iff

/-- With no residual tile attached an accumulate merges with nothing, and finds no tile full (R257, R265). -/
theorem acc_issues {i : Instr} {fn : Nat} {p : BitVec 3} {d a : BitVec 5} {h : BitVec 4} {r : Bool} {c : BitVec 2}
    (hn : residOf s (curA s) = none) : Issues w s (acc i fn p d h a r c s) := by
  refine slotOp_issues (onChk_issues fun pl => ?_)
  have hf : residFull (markPopped s [d.toNat, a.toNat]) (curA (markPopped s [d.toNat, a.toNat])) = false := by
    unfold residFull
    rw [show residOf (markPopped s [d.toNat, a.toNat]) (curA (markPopped s [d.toNat, a.toNat])) = none from hn]
  dsimp only
  rw [hf, if_neg Bool.false_ne_true]
  refine releasingSt_issues fun u hu => ?_
  have hr : residOf u (curA u) = none := by
    rw [residOf_eq_none_iff]
    exact hu.resid.trans (residOf_eq_none_iff.mp hn)
  unfold resMerge
  rw [hr]
  exact .inr (hu.trans pushOut_issued)

end Sys2Proof.Machine
end
section
/-! Which bytes of memory an access changes as it is performed (R210, R212 to R214, R226, R235, R249, R250): its own, those of lines
its array cache held dirty, and those of lines that stood clean in a slice under a key since replaced. -/

namespace Sys2Proof.Machine

variable {s t : State} {a x : Nat} {v : Byte}

/-! ## A byte outside the lines that leave -/

/-- The byte at `x` lies outside the line at `pa`. -/
def Outside (x pa : Nat) : Prop := x < pa ∨ pa + 192 ≤ x

/-- The byte at `x` is `v`, and lies in no line that stands clean in a slice under a key since replaced. -/
structure Unstale (x : Nat) (v : Byte) (s : State) : Prop where
  byte : readByte s.mem x = v
  stale : ∀ e ∈ s.stale, Outside x e.1

/-- Besides, the byte lies in no line that the cache of array `a` holds. -/
structure Sheltered (a x : Nat) (v : Byte) (s : State) : Prop extends Unstale x v s where
  lines : ∀ l ∈ (arr s a).cache, Outside x l.pa

theorem Unstale.congr (h : Unstale x v s) (hm : t.mem = s.mem) (hs : t.stale = s.stale) : Unstale x v t :=
  ⟨hm ▸ h.byte, hs ▸ h.stale⟩

theorem Unstale.arrsOnly (h : Unstale x v s) (ht : ArrsOnly s t) : Unstale x v t := h.congr ht.mem (by rw [ht])

/-- What leaves every array as it was leaves what their caches hold. -/
theorem Unstale.sheltered (h : Unstale x v t) (hs : Sheltered a x v s) (ht : t.arrs = s.arrs) : Sheltered a x v t := by
  refine ⟨h, ?_⟩
  rw [show arr t a = arr s a by unfold arr; rw [ht]]
  exact hs.lines

theorem Unstale.foldl {α : Type} {f : State → α → State} {l : List α} (hf : ∀ u e, Unstale x v u → Unstale x v (f u e))
    (h : Unstale x v s) : Unstale x v (l.foldl f s) := List.foldlRecOn l f h fun u hu e _ => hf u e hu

/-! ## Marks, slices and homes -/

theorem markPoison_unstale {b n : Nat} (h : Unstale x v s) : Unstale x v (markPoison s b n) := by
  refine Unstale.foldl (fun u e hu => ?_) h
  split
  · exact hu.congr rfl rfl
  · exact hu

theorem homeSticky_unstale {pa p : Nat} {fl : Flags} (h : Unstale x v s) : Unstale x v (homeSticky s pa p fl) := by
  unfold homeSticky
  split
  · exact h.congr rfl rfl
  · split
    · exact h.congr rfl rfl
    · exact h

theorem mem_of_mem_tdel {V : Type} {l : Tab V} {n : Nat} {e : Nat × V} (h : e ∈ tdel l n) : e ∈ l := List.mem_of_mem_filter h

theorem noteDirty_unstale {pa : Nat} (h : Unstale x v s) : Unstale x v (noteDirty s pa) :=
  ⟨h.byte, fun e he => h.stale e (mem_of_mem_tdel he)⟩

/-- A line that leaves its slice changes no byte outside it. -/
theorem evictLine_unstale {pa : Nat} (h : Unstale x v s) (hpa : Outside x pa) : Unstale x v (evictLine s pa) := by
  have hstale : ∀ e ∈ tdel s.stale pa, Outside x e.1 := fun e he => h.stale e (mem_of_mem_tdel he)
  unfold evictLine
  dsimp only
  split
  · have hb := readByte_writeNat_of_outside (n := 192) s.mem (tget (0, 0) s.stale pa).2 hpa
    exact ⟨hb.trans h.byte, hstale⟩
  · exact ⟨h.byte, hstale⟩

theorem evictLines_unstale {gone : Nat × Nat × Nat × Bool → Bool} (h : Unstale x v s) : Unstale x v (evictLines s gone) := by
  have hl : Unstale x v ((s.slices.filter gone).foldl (fun s x =>
      if (s.stale.any fun e => e.1 = x.1 * 2 ^ 36 + 192 * x.2.1) then evictLine s (x.1 * 2 ^ 36 + 192 * x.2.1) else s) s) := by
    refine Unstale.foldl (fun u y hu => ?_) h
    split
    next hany =>
      obtain ⟨e, he, heq⟩ := List.any_eq_true.mp hany
      exact evictLine_unstale hu (of_decide_eq_true heq ▸ hu.stale e he)
    next => exact hu
  exact hl.congr rfl rfl

theorem sliceTouch_unstale {p pa : Nat} {d : Bool} (h : Unstale x v s) : Unstale x v (sliceTouch s p pa d) := by
  have dirtied {u : State} {pa : Nat} {c : Prop} [Decidable c] (hu : Unstale x v u) : Unstale x v (if c then noteDirty u pa else u) := by
    split
    · exact noteDirty_unstale hu
    · exact hu
  unfold sliceTouch
  dsimp only
  split
  · exact h
  · split
    · exact (dirtied h).congr rfl rfl
    · split
      · exact h
      · exact (dirtied (evictLines_unstale h)).congr rfl rfl

theorem touchAll_unstale {p : Nat} {l : List Nat} {d : Bool} (h : Unstale x v s) : Unstale x v (touchAll s p l d) :=
  Unstale.foldl (fun _ _ hu => sliceTouch_unstale hu) h

theorem putBytes_unstale {b n w : Nat} (h : Unstale x v s) (hx : x < b ∨ b + n ≤ x) : Unstale x v (putBytes s b n w) :=
  ⟨(readByte_writeNat_of_outside _ _ hx).trans h.byte, h.stale⟩

theorem homeBytes_unstale {p b n w : Nat} (h : Unstale x v s) (hx : x < b ∨ b + n ≤ x) : Unstale x v (homeBytes s p b n w) :=
  putBytes_unstale (touchAll_unstale h) hx

theorem homeCells_unstale {p : Nat} {l : List Host.Cell} {bad : List Nat} (h : Unstale x v s) (hl : ∀ c ∈ l, c.1 ≠ x) :
    Unstale x v (homeCells s p l bad) := by
  have ht : Unstale x v (touchAll s p (l.map (·.1)) true) := touchAll_unstale h
  exact ⟨(readByte_writeCells _ _ _ hl).trans ht.byte, ht.stale⟩

/-- A read-modify-write changes no byte outside its own. -/
theorem rmw_unstale {pa p n : Nat} {f : Nat → Option Nat × Flags} (h : Unstale x v s) (hx : x < pa ∨ pa + n ≤ x) :
    Unstale x v (rmw s pa p n f).1 := by
  have hm : Unstale x v (markPoison s pa n) := markPoison_unstale h
  unfold rmw
  dsimp only
  split
  · exact sliceTouch_unstale hm
  · dsimp only
    split
    · exact putBytes_unstale (sliceTouch_unstale (homeSticky_unstale hm)) hx
    · exact sliceTouch_unstale (homeSticky_unstale hm)

/-! ## Counts and what is outstanding -/

theorem countHome_arrsOnly (s : State) (a pa : Nat) : ArrsOnly s (countHome s a pa) := by
  unfold countHome countTrip countFlits
  (repeat' split) <;> rfl

theorem countHome_unstale {pa : Nat} (h : Unstale x v s) : Unstale x v (countHome s a pa) := h.arrsOnly (countHome_arrsOnly s a pa)

theorem cache_modSeq (s : State) (a : Nat) (f : Seq → Seq) (b : Nat) : (arr (modSeq s a f) b).cache = (arr s b).cache :=
  arr_modArr_congr (f := fun y => { y with seq := f y.seq }) (·.cache) (fun _ => rfl) s a b

theorem cache_pmcAdd (s : State) (a code n b : Nat) : (arr (pmcAdd s a code n) b).cache = (arr s b).cache :=
  cache_modSeq s a _ b

theorem cache_countHome (s : State) (a pa b : Nat) : (arr (countHome s a pa) b).cache = (arr s b).cache := by
  unfold countHome countTrip countFlits
  (repeat' split) <;> simp only [cache_pmcAdd]

theorem dropHdl_arrsOnly (s : State) (a h : Nat) : ArrsOnly s (dropHdl s a h) := by
  unfold dropHdl
  split <;> rfl

theorem putPoison_arrsOnly (s : State) (a r : Nat) (w : Word) (bad : Bool) : ArrsOnly s (putPoison s a r w bad) := by
  unfold putPoison
  split <;> rfl

/-! ## The array cache -/

/-- An array after a change of one. -/
theorem arr_modArr_or (s : State) (a b : Nat) (f : Arr → Arr) : arr (modArr s a f) b = f (arr s b) ∨ arr (modArr s a f) b = arr s b := by
  by_cases hb : b = a
  · subst hb
    by_cases hlt : b < 28
    · exact .inl (arr_modArr_self hlt f)
    · exact .inr (by simp [modArr, setArr, arr, vget, vset, hlt])
  · exact .inr (arr_modArr_of_ne s hb f)

theorem modArr_sheltered {f : Arr → Arr} (h : Sheltered a x v s) (hf : ∀ l ∈ (f (arr s a)).cache, Outside x l.pa) :
    Sheltered a x v (modArr s a f) := by
  refine ⟨h.toUnstale.congr rfl rfl, ?_⟩
  obtain he | he := arr_modArr_or s a a f
  · exact he ▸ hf
  · exact he ▸ h.lines

/-- Lines dropped from the cache. -/
theorem dropLines_sheltered {p : CacheLine → Bool} (h : Sheltered a x v s) :
    Sheltered a x v (modArr s a fun y => { y with cache := y.cache.filter p }) :=
  modArr_sheltered h fun l hl => h.lines l (List.mem_of_mem_filter hl)

theorem modSeq_sheltered {b : Nat} {f : Seq → Seq} (h : Sheltered a x v s) : Sheltered a x v (modSeq s b f) :=
  ⟨h.toUnstale.congr rfl rfl, cache_modSeq s b f a ▸ h.lines⟩

/-- A write-back changes no byte outside its line, and no line of a cache. -/
theorem writeBack_sheltered {l : CacheLine} (h : Sheltered a x v s) (hl : Outside x l.pa) : Sheltered a x v (writeBack s a l).1 := by
  unfold writeBack
  dsimp only
  split
  · exact h
  · refine ⟨countHome_unstale (homeCells_unstale h.toUnstale fun c hc => ?_), ?_⟩
    · obtain ⟨k, hk, hkc⟩ := List.mem_filterMap.mp hc
      have hk := List.mem_range.mp hk
      split at hkc
      · obtain rfl := Option.some.inj hkc
        unfold Outside at hl
        dsimp only
        omega
      · exact nomatch hkc
    · rw [cache_countHome, arr, (homeCells_meets _ _ _ _).arrs]
      exact h.lines

/-- Written back or not, the lines stay at their places. -/
theorem writeBackAll_sheltered {p : CacheLine → Bool} (h : Sheltered a x v s) : Sheltered a x v (writeBackAll s a p) := by
  unfold writeBackAll
  dsimp only
  generalize hr : List.foldl _ _ _ = r
  have key : Sheltered a x v r.1 ∧ ∀ e ∈ r.2, Outside x e.pa := by
    subst hr
    refine List.foldlRecOn (motive := fun acc : State × List CacheLine => Sheltered a x v acc.1 ∧ ∀ e ∈ acc.2, Outside x e.pa) _ _
      ⟨h, by simp⟩ fun acc hacc l hl => ?_
    obtain ⟨hs, hls⟩ := hacc
    have hline : Outside x l.pa := h.lines l hl
    have hadd (y : CacheLine) (hy : Outside x y.pa) : ∀ e ∈ acc.2 ++ [y], Outside x e.pa := fun e he =>
      (List.mem_append.mp he).elim (hls e) fun h1 => List.mem_singleton.mp h1 ▸ hy
    split
    · exact ⟨writeBack_sheltered hs hline, hadd _ hline⟩
    · exact ⟨hs, hadd _ hline⟩
  exact modArr_sheltered (f := fun y => { y with cache := r.2 }) key.1 key.2

theorem aliasWork_sheltered {p va pa : Nat} (h : Sheltered a x v s) : Sheltered a x v (aliasWork s a p va pa) := by
  unfold aliasWork
  dsimp only
  split
  · exact h
  · exact dropLines_sheltered (writeBackAll_sheltered h)

theorem dropLine_sheltered {p va : Nat} (h : Sheltered a x v s) : Sheltered a x v (dropLine s a p va) :=
  dropLines_sheltered (writeBackAll_sheltered h)

/-- A line put into its set writes back at most one that the cache held. -/
theorem cachePut_unstale {l : CacheLine} (h : Sheltered a x v s) : Unstale x v (cachePut s a l) := by
  unfold cachePut
  dsimp only
  split
  · exact h.toUnstale.congr rfl rfl
  next y ys hd =>
    have hy : y ∈ (arr s a).cache := by
      have hy : y ∈ ((arr s a).cache.filter _).filter _ := List.mem_of_mem_drop (hd ▸ List.mem_cons_self)
      exact List.mem_of_mem_filter (List.mem_of_mem_filter hy)
    exact (writeBack_sheltered h (h.lines y hy)).toUnstale.congr rfl rfl

theorem fillLine_sheltered {l : CacheLine} {o n : Nat} (h : Sheltered a x v s) : Sheltered a x v (fillLine s l o n).1 := by
  refine List.foldlRecOn (motive := fun acc : State × CacheLine => Sheltered a x v acc.1) _ _ h fun acc hacc k _ => ?_
  dsimp only
  split
  · exact hacc
  · exact (sliceTouch_unstale (markPoison_unstale hacc.toUnstale)).sheltered hacc
      ((sliceTouch_meets _ _ _ _).arrs.trans (markPoison_meets _ _ _).arrs)

theorem cacheLoad_unstale {p va pa n : Nat} {leaf : Word} (h : Sheltered a x v s) : Unstale x v (cacheLoad s a p va pa n leaf).1 :=
  (cachePut_unstale (fillLine_sheltered h)).congr rfl rfl

theorem cacheStore_unstale {p va pa n w : Nat} {leaf : Word} (h : Sheltered a x v s) : Unstale x v (cacheStore s a p va pa n w leaf) :=
  (cachePut_unstale (fillLine_sheltered h)).congr rfl rfl

/-- A store written through changes memory as the store at its home does. -/
theorem storeThrough_arrsOnly (s : State) (a p va pa n w : Nat) : ArrsOnly (homeBytes s p pa n w) (storeThrough s a p va pa n w) := by
  unfold storeThrough
  dsimp only
  split
  · rfl
  · split <;> rfl

end Sys2Proof.Machine
end
section
/-! The frame of a memory access, from its issue to its end (O53). -/

namespace Sys2Proof.Machine

variable {s t : State} {a x : Nat} {v : Byte} {o : Out}

/-! ## Before an access is performed -/

theorem page_of_isUn (h : isUn o = true) : o.pl.page = true := (Bool.and_eq_true _ _ ▸ h : _ ∧ _).1

theorem page_of_cached (h : cached o = true) : o.pl.page = true := by
  simp only [cached, Bool.and_eq_true] at h
  exact h.1.1

theorem unWork_sheltered (h : Sheltered a x v s) : Sheltered a x v (unWork s a o) := by
  unfold unWork
  split
  · exact h
  · split
    · exact modSeq_sheltered (writeBackAll_sheltered h)
    · exact h

theorem aliasFor_sheltered (h : Sheltered a x v s) : Sheltered a x v (aliasFor s a o) := by
  unfold aliasFor
  split
  · exact aliasWork_sheltered h
  · exact h

/-- An access to no page finds the cache of its array as it is. -/
theorem unWork_of_not_page (hp : o.pl.page = false) : unWork s a o = s := by
  have hu : isUn o = false := Bool.eq_false_iff.mpr fun h => Bool.eq_false_iff.mp hp (page_of_isUn h)
  unfold unWork
  rw [hu]
  split <;> rfl

theorem aliasFor_of_not_page (hp : o.pl.page = false) : aliasFor s a o = s := if_neg (Bool.eq_false_iff.mp hp)

theorem releaseFor_of_not_rel (hr : o.rel = false) : releaseFor s a o = unWork s a o := by
  unfold releaseFor
  rw [hr]
  rfl

/-- A byte in no line of the cache, where the access is of a page, is kept by what comes before it. -/
theorem aliasFor_unWork_unstale (h : Unstale x v s) (hp : o.pl.page = true → ∀ l ∈ (arr s a).cache, Outside x l.pa) :
    Unstale x v (aliasFor (unWork s a o) a o) := by
  cases hpage : o.pl.page with
  | false => rw [unWork_of_not_page hpage, aliasFor_of_not_page hpage]; exact h
  | true => exact (aliasFor_sheltered (unWork_sheltered ⟨h, hp hpage⟩)).toUnstale

theorem atomicFor_sheltered (hr : o.rel = false) (h : Sheltered a x v s) : Sheltered a x v (atomicFor s a o) := by
  have h1 : Sheltered a x v (aliasFor (releaseFor s a o) a o) := by
    rw [releaseFor_of_not_rel hr]
    exact aliasFor_sheltered (unWork_sheltered h)
  unfold atomicFor
  dsimp only
  split
  · exact dropLine_sheltered h1
  · exact h1

/-! ## Stores -/

theorem dropSt_arrsOnly (s : State) (a : Nat) : ArrsOnly s (dropSt s a) := rfl

theorem delOut_arrsOnly (s : State) (a k : Nat) : ArrsOnly s (delOut s a k) := rfl

/-- A store that leaves st leaves memory as it is. -/
theorem stGone_arrsOnly (s : State) (a h k : Nat) : ArrsOnly s (delOut (dropHdl (dropSt s a) a h) a k) :=
  ((dropSt_arrsOnly s a).trans (dropHdl_arrsOnly _ _ _)).trans (delOut_arrsOnly _ _ _)

/-- A store not kept in the cache writes at its home. -/
theorem storeEnd_home {k : Nat} {w : Word} (hc : cached o = false ∨ pteKind o.pl.leaf ≠ 1) :
    ArrsOnly (homeBytes (aliasFor (releaseFor s a o) a o) (seqAt s a).part o.pl.pa o.size w.toNat) (storeEnd s a k o w) := by
  unfold storeEnd
  dsimp only
  refine ArrsOnly.trans ?_ (stGone_arrsOnly _ _ _ _)
  split
  next hcd =>
    rw [if_neg (by simp [hc.resolve_left (Bool.eq_false_iff.not.mpr (not_not.mpr hcd))])]
    exact (storeThrough_arrsOnly _ _ _ _ _ _ _).trans (countHome_arrsOnly _ _ _)
  next => exact countHome_arrsOnly _ _ _

/-- A store kept in the cache changes no byte outside the lines the cache held. -/
theorem storeEnd_cached {k : Nat} {w : Word} (hr : o.rel = false) (hc : cached o = true) (hk : pteKind o.pl.leaf = 1)
    (h : Sheltered a x v s) : Unstale x v (storeEnd s a k o w) := by
  have h0 : Sheltered a x v (aliasFor (releaseFor s a o) a o) := by
    rw [releaseFor_of_not_rel hr]
    exact aliasFor_sheltered (unWork_sheltered h)
  unfold storeEnd
  dsimp only
  refine Unstale.arrsOnly ?_ (stGone_arrsOnly _ _ _ _)
  rw [if_pos hc, if_pos (by simp [hk, hr])]
  split
  · exact cacheStore_unstale h0
  · exact countHome_unstale (cacheStore_unstale h0)

/-- The bytes of a store at its home. -/
theorem readByte_homeBytes {p pa n w k : Nat} (hk : k < n) :
    readByte (homeBytes s p pa n w).mem (pa + k) = BitVec.ofNat 8 (w / 256 ^ k) := readByte_writeNat_of_inside _ pa w hk

/-! ## Loads -/

theorem readFor_unstale (ha : o.acq = false) (h : Unstale x v s) (hp : o.pl.page = true → ∀ l ∈ (arr s a).cache, Outside x l.pa) :
    Unstale x v (readFor s a o).1 := by
  have h0 : Unstale x v (aliasFor (unWork s a o) a o) := aliasFor_unWork_unstale h hp
  unfold readFor
  dsimp only
  rw [ha, if_neg Bool.false_ne_true]
  split
  next hc =>
    have h1 : Sheltered a x v (aliasFor (unWork s a o) a o) := aliasFor_sheltered (unWork_sheltered ⟨h, hp (page_of_cached hc)⟩)
    dsimp only
    split
    · exact cacheLoad_unstale h1
    · exact countHome_unstale (cacheLoad_unstale h1)
  next => exact countHome_unstale (sliceTouch_unstale (markPoison_unstale h0))

theorem loadReturn_arrsOnly (s : State) (a k : Nat) (o : Out) (rd : Nat) (sx : Bool) :
    ArrsOnly (readFor s a o).1 (loadReturn s a k o rd sx) :=
  (((putPoison_arrsOnly _ _ _ _ _).trans (modSeq_arrsOnly _ _ _)).trans (dropHdl_arrsOnly _ _ _)).trans (delOut_arrsOnly _ _ _)

/-! ## Atomics -/

/-- An atomic sent back to its register leaves memory as its home has it. -/
theorem amoBack_arrsOnly (s : State) (a h pa k : Nat) (o : Out) : ArrsOnly s (setOut (countHome (dropHdl s a h) a pa) a k o) :=
  ((dropHdl_arrsOnly s a h).trans (countHome_arrsOnly _ _ _)).trans (modSeq_arrsOnly _ _ _)

theorem amoHome_unstale {k fn rd : Nat} {w : Word} (hr : o.rel = false) (h : Sheltered a x v s)
    (hx : x < o.pl.pa ∨ o.pl.pa + o.size ≤ x) : Unstale x v (amoHome s a k o fn rd w) := by
  unfold amoHome
  dsimp only
  refine Unstale.arrsOnly ?_ (amoBack_arrsOnly _ _ _ _ _ _)
  exact rmw_unstale (atomicFor_sheltered hr h).toUnstale hx

theorem casHome_unstale {k rd : Nat} {c w : Word} (hr : o.rel = false) (h : Sheltered a x v s)
    (hx : x < o.pl.pa ∨ o.pl.pa + o.size ≤ x) : Unstale x v (casHome s a k o rd c w) := by
  unfold casHome
  dsimp only
  refine Unstale.arrsOnly ?_ (amoBack_arrsOnly _ _ _ _ _ _)
  exact rmw_unstale (atomicFor_sheltered hr h).toUnstale hx

/-! ## Issuing -/

/-- Instruction `i` raises a fault, or leaves all but the registers listed as an issue does. -/
def IssuesBut (w : List Nat) (s : State) (i : Instr) : Prop := ∃ u, exec i s = .next u ∧ Issues w s u

theorem IssuesBut.issued {w : List Nat} {i : Instr} (h : IssuesBut w s i) (he : exec i s = .next t) (hr : t.bun.raised = none) :
    Issued w s t := by
  obtain ⟨u, hu, hi⟩ := h
  obtain rfl := Host.Outcome.next.inj (hu.symm.trans he)
  exact hi.resolve_left (not_not.mpr hr)

section
variable {p : BitVec 3} {d b : BitVec 5} {h : BitVec 4} {y : BitVec 6} {q r : Bool} {c : BitVec 2} {f : BitVec 9} {k : BitVec 8}

theorem memoryReadOps_issue : ∀ i ∈ memoryReadOps p d b h y q r c f k, IssuesBut [d.toNat, b.toNat] s i := by
  have hb : ∀ n ∈ [b.toNat], n ∈ [d.toNat, b.toNat] := by simp
  simp only [memoryReadOps, List.forall_mem_cons]
  exact ⟨⟨_, rfl, handleLoad_issues⟩, ⟨_, rfl, handleLoad_issues⟩, ⟨_, rfl, handleLoad_issues⟩, ⟨_, rfl, handleLoad_issues⟩,
    ⟨_, rfl, handleLoad_issues⟩, ⟨_, rfl, handleLoad_issues⟩, ⟨_, rfl, handleLoad_issues⟩, ⟨_, rfl, offsetLoad_issues.mono hb⟩,
    ⟨_, rfl, offsetLoad_issues.mono hb⟩, ⟨_, rfl, tileLoad_issues⟩, ⟨_, rfl, tileLoad_issues⟩, ⟨_, rfl, amo_issues⟩, ⟨_, rfl, amo_issues⟩,
    ⟨_, rfl, amo_issues⟩, ⟨_, rfl, amo_issues⟩, ⟨_, rfl, amo_issues⟩, ⟨_, rfl, amo_issues⟩, ⟨_, rfl, amo_issues⟩, ⟨_, rfl, amo_issues⟩,
    ⟨_, rfl, amo_issues⟩, ⟨_, rfl, amo_issues⟩, List.forall_mem_nil _⟩

theorem memoryWriteOps_issue : ∀ i ∈ memoryWriteOps p d b h y q c f k, IssuesBut [b.toNat] s i := by
  simp only [memoryWriteOps, List.forall_mem_cons]
  exact ⟨⟨_, rfl, handleSt_issues⟩, ⟨_, rfl, handleSt_issues⟩, ⟨_, rfl, handleSt_issues⟩, ⟨_, rfl, handleSt_issues⟩,
    ⟨_, rfl, offsetStore_issues⟩, ⟨_, rfl, offsetStore_issues⟩, ⟨_, rfl, tileStore_issues⟩, ⟨_, rfl, tileStore_issues⟩, List.forall_mem_nil _⟩

theorem accumulateOps_issue (hn : residOf s (curA s) = none) : ∀ i ∈ accumulateOps p d b h r c, IssuesBut [] s i := by
  simp only [accumulateOps, List.forall_mem_cons]
  exact ⟨⟨_, rfl, acc_issues hn⟩, ⟨_, rfl, acc_issues hn⟩, ⟨_, rfl, acc_issues hn⟩, ⟨_, rfl, acc_issues hn⟩,
    List.forall_mem_nil _⟩

end

/-! ## Ends -/

/-- A byte that every end of an operation keeps, whether or not the event may perform it now. -/
theorem onOut_unstale {ok : Out → Bool} {f : State → Nat → Nat → Out → State} (ho : (seqAt s s.ev.a).outs[s.ev.k]? = some o)
    (h : Unstale x v s) (hf : Unstale x v (f s s.ev.a s.ev.k o)) : Unstale x v (onOut s ok f) := by
  rw [onOut, ho]
  dsimp only
  split
  · exact hf
  · exact h

theorem execStorePerformed_eq {w : Word} (ho : (seqAt s s.ev.a).outs[s.ev.k]? = some o) (hr : outReady (seqAt s s.ev.a).outs s.ev.k = true)
    (hop : o.op = .store w) : exec .storePerformed s = .next (storeEnd s s.ev.a s.ev.k o w) := by
  refine congrArg Host.Outcome.next ((onOut_ready ho hr (by rw [stClass, hop]) _).trans ?_)
  rw [stEnd, hop]

/-- Settles O53: an issue changes no memory; an access performed changes its own bytes, and those of lines that leave a cache for it. -/
theorem memoryFrames : Obligations.MemoryFrames := by
  refine ⟨fun s t p d a h y q r c f k i he hr => ⟨fun hi => ?_, fun hi => ?_, fun hi hn => ?_⟩, fun s t o => ?_⟩
  · have h := (memoryReadOps_issue i hi).issued he hr
    exact ⟨fun x => by rw [h.mem], fun n hd ha => h.reg n (by simp [hd, ha])⟩
  · have h := (memoryWriteOps_issue i hi).issued he hr
    exact ⟨fun x => by rw [h.mem], fun n ha => h.reg n (by simp [ha])⟩
  · have h := (accumulateOps_issue hn i hi).issued he hr
    exact ⟨fun x => by rw [h.mem], fun n => h.reg n (by simp)⟩
  intro a out away kept ho hr
  refine ⟨fun v hop hrel he => ?_, fun rd sx hop hacq he x hx hk => ?_, fun fn rd v c n hop hrel he x hx hw hk => ?_⟩
  · obtain rfl := Host.Outcome.next.inj ((execStorePerformed_eq ho hr hop).symm.trans he)
    refine ⟨fun hc => ⟨fun x hx hk hp => ?_, fun k hk _ => ?_⟩, fun hc hk x hw hs => (storeEnd_cached hrel hc hk ⟨⟨rfl, hs⟩, hw⟩).byte⟩
    · have h0 : Unstale x (readByte s.mem x) (aliasFor (releaseFor s a o) a o) := by
        rw [releaseFor_of_not_rel hrel]
        exact aliasFor_unWork_unstale ⟨rfl, hk⟩ hp
      exact ((homeBytes_unstale h0 hx).arrsOnly (storeEnd_home hc)).byte
    · rw [(storeEnd_home (s := s) (a := s.ev.a) (k := s.ev.k) (w := v) hc).mem]
      exact readByte_homeBytes hk
  · obtain rfl := Host.Outcome.next.inj he
    refine (onOut_unstale ho ⟨rfl, hk⟩ ?_).byte
    unfold ldEnd
    rw [hop]
    exact (readFor_unstale hacq ⟨rfl, hk⟩ fun hp => hx.resolve_left (by simp [hp])).arrsOnly (loadReturn_arrsOnly _ _ _ _ _ _)
  · obtain rfl := Host.Outcome.next.inj he
    have hs : Sheltered s.ev.a x (readByte s.mem x) s := ⟨⟨rfl, hk⟩, hw⟩
    refine (onOut_unstale ho hs.toUnstale ?_).byte
    obtain hop | hop := hop
    · rw [hop]
      exact amoHome_unstale hrel hs hx
    · rw [hop]
      exact casHome_unstale hrel hs hx

end Sys2Proof.Machine
end
